-- ==== Sys2Proof/Word.lean ====
section
/-! DEFINITION. The widths of carried request fields and of register writes (11 R183, R194). -/

namespace Sys2Proof

/-- One byte of a request, a message or a completion. -/
abbrev Byte := BitVec 8

/-- A 16-bit field, such as a request's tag (11 R194). -/
abbrev Half := BitVec 16

/-- A 32-bit register or carried field (11 R183). -/
abbrev Word := BitVec 32

/-- A ring base, 8 bytes (11 R183). -/
abbrev Addr := BitVec 64

end Sys2Proof
end

