-- ==== Sys2Proof/Syntax.lean ====
section
/-! DEFINITION. The commands of the block: one constructor of Instr for each row of
spec/opcode_table.json, with the row's operands as carried (before any check of the part). -/

namespace Sys2Proof

/-- A port, P0 to P23 (00, Shared figures). -/
abbrev PortNo := Fin 24
/-- A bus slot, 0 to 191 (02 R15). -/
abbrev BusSlot := Fin 192
/-- A plan slot, 0 to 511 (03 R38). -/
abbrev PlanSlot := Fin 512
/-- A commitment slot, 0 to 15 (09 R157). -/
abbrev CommitSlot := Fin 16

/-- The four levels of the pilot line (04 section 4.3). -/
inductive PilotLevel where
  | none | plugged | ready | fault
deriving DecidableEq, Repr

/-- The level of a meter line (06 R107). -/
inductive Level where
  | low | high
deriving DecidableEq, Repr

/-- A contactor position, commanded or fed back (04 R64). -/
inductive Contact where
  | opened | closed
deriving DecidableEq, Repr

/-- One of the two meter lines of a port (06). -/
inductive MeterLine where
  | ma | mb
deriving DecidableEq, Repr

/-- Which filter outputs change at one sample (06 R110). -/
inductive MovedLines where
  | one (l : MeterLine)
  | both
deriving DecidableEq, Repr

/-- The two rings (11). -/
inductive RingId where
  | request | completion
deriving DecidableEq, Repr

/-- The line levels at the first sample after power-on (06 R107, 09 R165, 10 R176). -/
structure LineLevels where
  siteTrip     : Bool
  gridDispatch : Bool
  meter        : Vector (Level × Level) 24
deriving DecidableEq, Repr

/-- The part of a request header an effect reads (11 R194): tag, flags and key. -/
structure ReqHeader where
  tag   : Half
  flags : Byte
  key   : Word
deriving DecidableEq, Repr

/-- SITE_CONFIGURE's fields, in the order of 01 R7; an absent field has its unchanged marker set (01 R10). -/
structure SitePatch where
  feederLimit      : Option Word
  margin           : Option Word
  fallbackBase     : Option Word
  baseHold         : Option Word
  allocPeriod      : Option Word
  reversalRest     : Option Word
  guardTime        : Option Word
  atRisk           : Option Word
  lockoutWindow    : Option Word
  takeWindow       : Option Word
  tricklePower     : Option Word
  armLead          : Option Word
  supervision      : Option Word
  rolloverOffset   : Option Word
  stallTime        : Option Word
  soeTolerance     : Option Word
  depotId          : Option Word
deriving DecidableEq, Repr

/-- BUS_ENROL's payload (02 R19). -/
structure BusEnrolPayload where
  capacity   : Word
  importCap  : Word
  exportCap  : Word
  v2g        : Bool
  floor      : Word
  allowance  : Word
  initialSoe : Option Word
deriving DecidableEq, Repr

/-- BUS_CHANGE's payload; an absent field has its unchanged marker set (02 R21). -/
structure BusPatch where
  capacity  : Option Word
  importCap : Option Word
  exportCap : Option Word
  v2g       : Option Bool
  floor     : Option Word
  allowance : Option Word
deriving DecidableEq, Repr

/-- The 14 bytes of a PLAN_SUBMIT step record, as four little-endian fields (11 section 11.6). -/
structure RawStep where
  head      : Half
  value     : Word
  notBefore : Word
  endBy     : Word
deriving DecidableEq, Repr

/-- PORT_CONFIGURE's four fields; an absent field has its unchanged marker set (04 R88). -/
structure PortPatch where
  importRating    : Option Word
  exportRating    : Option Word
  energyPerCount  : Option Word
  filterThreshold : Option Word
deriving DecidableEq, Repr

/-- ANNOUNCE's fields (05 R92, R94). -/
structure Announce where
  bus       : Half
  soe       : Word
  capacity  : Word
  maxImport : Word
  maxExport : Word
  v2g       : Byte
deriving DecidableEq, Repr

/-- A request's kind and payload (11 R194 gives the kinds' numbers in this order). -/
inductive ReqBody where
  | setTime (v : Word)
  | siteConfigure (f : SitePatch)
  | siteLoadReport (watts : Word)
  | siteLookup (selector : Byte) (port : Word)
  | busEnrol (p : BusEnrolPayload)
  | busChange (p : BusPatch)
  | busRetire
  | busLookup
  | busPlans
  | busUnblock
  | departureSet (tDep eReq : Word) (route : Half)
  | departureClear
  | planSubmit (s1 s2 s3 s4 : RawStep)
  | planCancel
  | planRetire
  | planLookup
  | portGo (port : Word) (target : Byte)
  | portCancel (port : Word)
  | portConfigure (port : Word) (p : PortPatch)
  | portLookup (port : Word)
  | allocStart
  | allocStop
  | allocLookup (selector : Byte) (port : Word)
  | commitOffer (windowStart windowEnd target tolerance : Word)
  | commitWithdraw
  | commitDispatch
  | commitRelease
  | commitLookup
  | commitRetire
  | clearTrip
  | keepalive
  | attentionScan
  | attentionClear (category : Byte) (flags : Word)
  | unknownKind (kind : Byte)
deriving DecidableEq, Repr

/-- One fetched request: header and body. -/
structure Request where
  hdr  : ReqHeader
  body : ReqBody
deriving DecidableEq, Repr

/-- The commands: one constructor for each row of spec/opcode_table.json. A request row's command is
the taking of that request by the executor (11 R188); an event row's command is the moment of the event. -/
inductive Instr where
  | powerOn (lines : LineLevels)
  | depotTimeAdvance
  | rolloverCrossing
  | notBeforeCrossing (slot : PlanSlot)
  | holdUntilCrossing (slot : PlanSlot)
  | endByCrossing (slot : PlanSlot)
  | departureCrossing (slot : BusSlot)
  | lockoutPointCrossing (slot : BusSlot)
  | armPointCrossing (slot : CommitSlot)
  | windowStartCrossing (slot : CommitSlot)
  | windowEndCrossing (slot : CommitSlot)
  | setTime (h : ReqHeader) (v : Word)
  | siteConfigure (h : ReqHeader) (f : SitePatch)
  | siteLoadReport (h : ReqHeader) (watts : Word)
  | siteLookup (h : ReqHeader) (selector : Byte) (port : Word)
  | busEnrol (h : ReqHeader) (p : BusEnrolPayload)
  | busChange (h : ReqHeader) (p : BusPatch)
  | busRetire (h : ReqHeader)
  | busLookup (h : ReqHeader)
  | busPlans (h : ReqHeader)
  | busUnblock (h : ReqHeader)
  | departureSet (h : ReqHeader) (tDep eReq : Word) (route : Half)
  | departureClear (h : ReqHeader)
  | planSubmit (h : ReqHeader) (s1 s2 s3 s4 : RawStep)
  | planCancel (h : ReqHeader)
  | planRetire (h : ReqHeader)
  | planLookup (h : ReqHeader)
  | portGo (h : ReqHeader) (port : Word) (target : Byte)
  | portCancel (h : ReqHeader) (port : Word)
  | portConfigure (h : ReqHeader) (port : Word) (p : PortPatch)
  | portLookup (h : ReqHeader) (port : Word)
  | allocStart (h : ReqHeader)
  | allocStop (h : ReqHeader)
  | allocLookup (h : ReqHeader) (selector : Byte) (port : Word)
  | commitOffer (h : ReqHeader) (windowStart windowEnd target tolerance : Word)
  | commitWithdraw (h : ReqHeader)
  | commitDispatch (h : ReqHeader)
  | commitRelease (h : ReqHeader)
  | commitLookup (h : ReqHeader)
  | commitRetire (h : ReqHeader)
  | clearTrip (h : ReqHeader)
  | keepalive (h : ReqHeader)
  | attentionScan (h : ReqHeader)
  | attentionClear (h : ReqHeader) (category : Byte) (flags : Word)
  | unknownKind (h : ReqHeader) (kind : Byte)
  | allocationComputation
  | pilotLevelTaken (port : PortNo) (level : PilotLevel)
  | settlingEnd (port : PortNo)
  | debounceEnd (port : PortNo)
  | answerTimerExpiry (port : PortNo)
  | announce (port : PortNo) (m : Announce)
  | limit (port : PortNo) (maxImport maxExport : Word)
  | faultReport (port : PortNo) (code : Byte)
  | messageCheckFailure (port : PortNo)
  | unknownTypeDiscard (port : PortNo)
  | feedbackTaken (port : PortNo) (level : Contact)
  | confirmationTimeout (port : PortNo)
  | openDelayExpiry (port : PortNo)
  | weldTimerExpiry (port : PortNo)
  | quietTimerExpiry (port : PortNo)
  | limitTimerExpiry (port : PortNo)
  | setpointFrameRepeat (port : PortNo)
  | filteredTransition (port : PortNo) (moved : MovedLines)
  | lineFilterGlitch (port : PortNo) (line : MeterLine)
  | stallTimerExpiry (port : PortNo)
  | siteTripAssertion
  | siteTripDeassertion
  | gridDispatchRisingEdge
  | gridDispatchFallingEdge
  | supervisionTimerExpiry
  | requestWritePointerWrite (v : Word)
  | completionReadPointerWrite (v : Word)
  | ringBaseWrite (ring : RingId) (addr : Addr)
  | ringSizeWrite (ring : RingId) (entries : Word)
  | ringEnable
  | ringDisable
  | ringReset
  | completionThresholdWrite (v : Word)
  | completionHoldTimeWrite (v : Word)
  | attentionMaskWrite (v : Word)
  | interruptAcknowledge (v : Word)
  | fetchBurstEnd (requests : List Request)
  | fetchError
  | completionWriteDone
  | completionWriteError
  | holdTimerExpiry
  | enquireSent (port : PortNo)
  | meterLineSample (port : PortNo) (line : MeterLine) (level : Level)
deriving DecidableEq, Repr

end Sys2Proof
end

