-- ==== Sys2Proof/WellFormed.lean ====
section
/-! DEFINITION. The checks a command must pass to be a command of the table at all: what the
operand types do not already say. -/

namespace Sys2Proof

/-- An UNKNOWN_KIND request has a kind of 0 or above 33 (11 R188). -/
def unknownKindOk (kind : Byte) : Bool :=
  kind.toNat == 0 || decide (33 < kind.toNat)

/-- Every other kind of request is well formed whatever it carries: the part's own checks judge it. -/
def ReqBody.wellFormed : ReqBody → Bool
  | .unknownKind k => unknownKindOk k
  | _ => true

/-- What one fetch burst delivers: 1 to 12 requests (11 R186), each a request. -/
def burstOk (rs : List Request) : Bool :=
  decide (1 ≤ rs.length) && decide (rs.length ≤ 12) && rs.all fun r => r.body.wellFormed

/-- The well-formedness check of a command. -/
def Instr.wellFormed : Instr → Bool
  | .unknownKind _ k => unknownKindOk k
  | .fetchBurstEnd rs => burstOk rs
  | _ => true

end Sys2Proof
end

