-- ==== Sys2Proof/Decode.lean ====
section
/-! DEFINITION. decodeTableWord over the rows of spec/opcode_table.json that give bits: no row of
this block's table gives any, so no word spells a command. -/

namespace Sys2Proof

/-- The command that the nbits low bits of w spell: none, since no row of the table gives bits. -/
def decodeTableWord (_nbits _w : Nat) : Option Instr := none

end Sys2Proof
end

