-- ==== Sys2Proof/Machine/State.lean ====
section
/-! DEFINITION. The state of the block as plain data, everything the spec gives it, and the state
after power-on. Quantities are integers with stated ranges (00, Conventions), so they are Nat or Int;
registers and flag sets that software reads by bits are bit vectors. -/

namespace Sys2Proof.Machine

open Sys2Proof

/-- The one fault of the model: no event of the part stops it. -/
inductive Fault where
  /-- Raised by the arms of UNKNOWN_KIND and FETCH_BURST_END for a command WellFormed refuses, which
  spells no event of the table. Safe (log 19). -/
  | illFormed
deriving DecidableEq, Repr

/-- Refusals. -/
inductive Refusal where
  /-- Raised by exec's arms for a command that has no meaning yet; no arm raises it now. Safe. -/
  | notModelled (mnemonic : String)
deriving DecidableEq, Repr

/-- A table of slots: rows (slot, record) in rising slot order; a free slot has no row (00, Records and lists). -/
structure Table (α : Type) where
  rows : List (Nat × α)
deriving DecidableEq, Repr

/-- A timer of the part's own timebase: stopped, or running with its length and the time elapsed, in ms. -/
inductive Timer where
  | stopped
  | running (length elapsed : Nat)
deriving DecidableEq, Repr

/-! ### Depot Clock (01) -/

/-- R1. -/
inductive ClockMode where
  | unset | set
deriving DecidableEq, Repr

/-- The threshold kinds of 01 section 1.2. -/
inductive RegKind where
  | rollover
  | notBefore | endBy | holdUntil
  | departure | lockout
  | armPoint | windowStart | windowEnd
deriving DecidableEq, Repr

/-- R3: a registration names its owner (by its kind), record slot, kind and threshold. -/
structure Registration where
  kind : RegKind
  slot : Nat
  time : Nat
deriving DecidableEq, Repr

/-- The Depot Clock (R1). `regs` is in the order registered; `fired` holds the registrations that
fired at the last advance and whose crossings are not yet handed over, in hand-over order (log 7);
`phase` is the time since the current second began, in ms (log 2). -/
structure Clock where
  mode  : ClockMode
  time  : Nat
  day   : Int
  phase : Nat
  regs  : List Registration
  fired : List Registration
deriving DecidableEq, Repr

/-! ### Site Profile (01) -/

/-- The site parameters of R7. -/
structure SiteParams where
  feederLimit    : Nat
  margin         : Nat
  fallbackBase   : Nat
  baseHold       : Nat
  allocPeriod    : Nat
  reversalRest   : Nat
  guardTime      : Nat
  atRisk         : Nat
  lockoutWindow  : Nat
  takeWindow     : Nat
  tricklePower   : Nat
  armLead        : Nat
  supervision    : Nat
  rolloverOffset : Nat
  stallTime      : Nat
  soeTolerance   : Nat
  depotId        : Nat
deriving DecidableEq, Repr

/-- A port's import and export rating, W (R8). -/
structure Ratings where
  imp : Nat
  exp : Nat
deriving DecidableEq, Repr

/-- The held base-load report (R11). -/
structure LoadReport where
  watts : Nat
  time  : Nat
deriving DecidableEq, Repr

/-- The effective base load given to a computation, and whether it was the fallback (R12). -/
structure BaseLoad where
  watts    : Nat
  fallback : Bool
deriving DecidableEq, Repr

/-- The Site Profile (R8, R11, R12). -/
structure Site where
  staged        : SiteParams
  live          : SiteParams
  stagedRatings : Vector Ratings 24
  liveRatings   : Vector Ratings 24
  loadPending   : Bool
  report        : Option LoadReport
  staleOpen     : Bool
  lastBase      : Option BaseLoad
deriving DecidableEq, Repr

/-! ### Bus Table (02, 07) -/

/-- R18, R27. -/
inductive SoeSource where
  | unknown | enrolled | reported | integrated
deriving DecidableEq, Repr

/-- R30. -/
inductive BlockState where
  | enabled | blocked
deriving DecidableEq, Repr

/-- R30. -/
inductive FaultReason where
  | pilotFault | busReported | energyStall
deriving DecidableEq, Repr

/-- R129. -/
inductive Readiness where
  | none | away | ready | onTrack | atRisk | late | overdue
deriving DecidableEq, Repr

/-- R121; the achieved SoE (UNKNOWN is none) is present only when TAKEN. -/
inductive DepState where
  | pending
  | overdue
  | taken (achieved : Option Nat)
deriving DecidableEq, Repr

/-- The departure part (07 R121). -/
structure Departure where
  tDep       : Nat
  eReq       : Nat
  route      : Nat
  state      : DepState
  reqClamped : Bool
deriving DecidableEq, Repr

/-- The last discrepancy pair (02 R28). -/
structure Discrepancy where
  reported   : Nat
  integrated : Nat
deriving DecidableEq, Repr

/-- A bus record (02 R17, R18); `soe = none` is UNKNOWN. The lists hold plan slots, head first. -/
structure Bus where
  number      : Nat
  capacity    : Nat
  importCap   : Nat
  exportCap   : Nat
  v2g         : Bool
  floor       : Nat
  allowance   : Nat
  exportUsed  : Nat
  soe         : Option Nat
  source      : SoeSource
  discrepancy : Option Discrepancy
  location    : Option PortNo
  block       : BlockState
  faultReason : Option FaultReason
  faultTime   : Option Nat
  faultCount  : Nat
  departure   : Option Departure
  readiness   : Readiness
  slack       : Option Int
  prioList    : List Nat
  stdList     : List Nat
  flags       : BitVec 10
deriving DecidableEq, Repr

/-! ### Plan Table (03) -/

/-- R40. -/
inductive PlanClass where
  | priority | standard
deriving DecidableEq, Repr

/-- R41. -/
inductive StepKind where
  | importTo | exportTo | holdUntil
deriving DecidableEq, Repr

/-- R41: one stored step. -/
structure PlanStep where
  kind      : StepKind
  value     : Nat
  cap       : Nat
  notBefore : Option Nat
  endBy     : Option Nat
deriving DecidableEq, Repr

/-- R40. -/
inductive StepCond where
  | timedWait | soeWait | active
deriving DecidableEq, Repr

/-- R42. -/
inductive PlanState where
  | queued | running | paused | done | stopped | cancelled | returned
deriving DecidableEq, Repr

/-- R42. -/
inductive PlanOutcome where
  | complete | deadline | busFault | cancelled | busBlocked
deriving DecidableEq, Repr

/-- A plan record (03 R40); its slot is its key in the table. `final` is the attention flag FINAL (R63). -/
structure Plan where
  generation : Nat
  busSlot    : Nat
  cls        : PlanClass
  unblock    : Bool
  steps      : List PlanStep
  current    : Nat
  cond       : Option StepCond
  state      : PlanState
  outcome    : Option PlanOutcome
  imported   : Nat
  exported   : Nat
  finish     : Option Nat
  final      : Bool
deriving DecidableEq, Repr

/-! ### Ports (04), Pilot Exchange (05), Meter Inputs (06) -/

/-- The ten port states (04 R64). -/
inductive PortState where
  | offline | vacant | detecting | identifying | connected | energizing | energized | closing | held | faulted
deriving DecidableEq, Repr

/-- A setpoint's direction (R64). -/
inductive Dir where
  | imp | exp | none
deriving DecidableEq, Repr

/-- A setpoint: magnitude in W and direction (R64). -/
structure Setpoint where
  mag : Nat
  dir : Dir
deriving DecidableEq, Repr

/-- PORT_GO's targets (R80). -/
inductive PortTarget where
  | offline | vacant | reidentify
deriving DecidableEq, Repr

/-- R84. -/
inductive TransitionOutcome where
  | reached | dropped | cancelled
deriving DecidableEq, Repr

/-- The last transition record (R84). -/
structure Transition where
  target  : PortTarget
  outcome : TransitionOutcome
  time    : Nat
deriving DecidableEq, Repr

/-- R79. -/
inductive PortFault where
  | failClose | drop | weld | meterDirection
deriving DecidableEq, Repr

/-- Why a session is unidentified (R65). -/
inductive UnidReason where
  | noAnswer | unknownBus | duplicateBus
deriving DecidableEq, Repr

/-- A session's binding (R65). -/
inductive Binding where
  | bound (slot : Nat)
  | unidentified (reason : UnidReason)
deriving DecidableEq, Repr

/-- The announced values of a bound session (R65). -/
structure Announced where
  maxImport : Nat
  maxExport : Nat
  v2g       : Bool
deriving DecidableEq, Repr

/-- A session (R65). Its energies are kept in the port, since they outlive it (R78, log 20). -/
structure Session where
  binding   : Binding
  start     : Nat
  announced : Option Announced
  importCap : Nat
  exportCap : Nat
deriving DecidableEq, Repr

/-- A level filter's candidate and its age in ms (04 R69, R75; 09 R165). -/
structure Candidate (α : Type) where
  level : α
  age   : Nat
deriving DecidableEq, Repr

/-- A setpoint link frame (R87). -/
structure Frame where
  port     : PortNo
  setpoint : Setpoint
  count    : Nat
deriving DecidableEq, Repr

/-- An ENQUIRE message on the data channel (05 R94). -/
structure Enquire where
  port    : Nat
  depotId : Nat
  version : Nat
deriving DecidableEq, Repr

/-- The last fault report of the exchange status (05 R91). -/
structure FaultReport where
  code : Nat
  time : Nat
deriving DecidableEq, Repr

/-- The last applied count (06 R107). -/
structure AppliedCount where
  dir  : Dir
  time : Nat
deriving DecidableEq, Repr

/-- A meter line: the pin, its filter's output and counter, and its glitch record (06 R107, R109). -/
structure LineFilter where
  pin     : Level
  output  : Level
  counter : Nat
  glitch  : Bool
deriving DecidableEq, Repr

/-- A port record (04 R64) with its exchange (05 R91) and meter status (06 R107). The live setpoint
and the exchange state are functions of it (`Port.live`, `Port.exchange`). -/
structure Port where
  number         : PortNo
  state          : PortState
  pendingTarget  : Option PortTarget
  lastTransition : Option Transition
  energyPerCount : Nat
  filterThreshold : Nat
  pilotLine      : PilotLevel
  taken          : PilotLevel
  pilotCandidate : Option (Candidate PilotLevel)
  held           : Setpoint
  lastDir        : Dir
  zeroSince      : Option Nat
  residue        : Int
  command        : Contact
  feedbackLine   : Contact
  feedback       : Contact
  feedbackCandidate : Option (Candidate Contact)
  session        : Option Session
  sessionImport  : Nat
  sessionExport  : Nat
  attempts       : Nat
  faultCode      : Option PortFault
  flags          : BitVec 6
  settling       : Timer
  debounce       : Timer
  confirmation   : Timer
  openDelay      : Timer
  weld           : Timer
  quiet          : Timer
  limit          : Timer
  frameCount     : Nat
  frameTimer     : Timer
  lastFrame      : Option Frame
  answer         : Timer
  checkErrors    : Nat
  discards       : Nat
  claimed        : Option Nat
  lastFault      : Option FaultReport
  enquire        : Option Enquire
  ma             : LineFilter
  mb             : LineFilter
  wrongRun       : Nat
  stray          : Nat
  idle           : Nat
  lastApplied    : Option AppliedCount
  stall          : Timer
deriving DecidableEq, Repr

/-! ### Allocation Engine (08) -/

/-- R135. -/
inductive SplitTier where
  | b | c | none
deriving DecidableEq, Repr

/-- Supervision states (10 R180). -/
inductive SupState where
  | supervised | lapsed | fallback
deriving DecidableEq, Repr

/-- The recorded summary of the last computation (R135, R156). -/
structure Summary where
  time         : Nat
  available    : Nat
  base         : BaseLoad
  tierATotal   : Nat
  budget       : Nat
  importTotal  : Nat
  exportTotal  : Nat
  net          : Int
  supervision  : SupState
  commitActive : Bool
deriving DecidableEq, Repr

/-- The recorded results of one port (R135). -/
structure PortResult where
  tierA         : Nat
  split         : SplitTier
  splitGrant    : Nat
  planExport    : Nat
  reserveExport : Nat
  restRemoved   : Bool
  published     : Setpoint
deriving DecidableEq, Repr

/-- The Allocation Engine (R135). -/
structure Engine where
  running : Bool
  timer   : Timer
  number  : Nat
  summary : Option Summary
  ports   : Vector PortResult 24
deriving DecidableEq, Repr

/-! ### Reserve Unit (09), protection and supervision (10) -/

/-- R158. -/
inductive CommitState where
  | pending | armed | active | met | shortfall | interrupted | notDispatched | withdrawn
deriving DecidableEq, Repr

/-- R158. -/
inductive WindowPhase where
  | ahead | opened
deriving DecidableEq, Repr

/-- R158. -/
inductive DispatchSource where
  | request | line
deriving DecidableEq, Repr

/-- The last headroom and the computation that worked it out (R158). -/
structure Headroom where
  watts       : Nat
  computation : Nat
deriving DecidableEq, Repr

/-- A commitment record (R158); its slot is its key. The outcome is the state of a final record. -/
structure Commitment where
  generation   : Nat
  windowStart  : Nat
  windowEnd    : Nat
  armPoint     : Nat
  target       : Nat
  tolerance    : Nat
  state        : CommitState
  phase        : WindowPhase
  headroom     : Option Headroom
  headroomLow  : Bool
  source       : Option DispatchSource
  baseline     : Option Int
  activation   : Option Nat
  periods      : Nat
  shortPeriods : Nat
  relief       : Option Int
  delivered    : Nat
  carry        : Nat
  outcome      : Option CommitState
  endTime      : Option Nat
  flags        : BitVec 4
deriving DecidableEq, Repr

/-- The GRID_DISPATCH line and its filter (R165); true is ASSERTED. -/
structure DispatchLine where
  pin       : Bool
  filtered  : Bool
  candidate : Option (Candidate Bool)
deriving DecidableEq, Repr

/-- The Protection Latch (10 R176); true is SET, and true is an asserted line. -/
structure Protection where
  line  : Bool
  latch : Bool
deriving DecidableEq, Repr

/-- The Supervision Timer (10 R180). -/
structure Supervision where
  state : SupState
  timer : Timer
deriving DecidableEq, Repr

/-! ### Completions and rings (11) -/

/-- The status codes of section 11.5, in the order of their values. -/
inductive Status where
  | ok | staged | accepted | tableFull | duplicate | notFound | staleId | outOfRange | busPlugged
  | plansPending | listFull | busBlocked | notBlocked | planFinal | planActive | portState | portBusy
  | tooLate | nothingPending | welded | portInUse | notInWindow | reserveBusy | commitState
  | supervisionLapsed | tripActive | timeUnset | timeBackward | allocState | unknownKind
deriving DecidableEq, Repr

/-- A plan or commitment id: slot and generation (00, Terms). -/
structure SlotId where
  slot       : Nat
  generation : Nat
deriving DecidableEq, Repr

/-- One entry of ATTENTION_SCAN (11 R192). -/
structure ScanEntry where
  category : Nat
  slot     : Nat
  flags    : Nat
deriving DecidableEq, Repr

/-- SITE_LOOKUP's TIME_AND_LOAD view (01 R13). -/
structure TimeAndLoad where
  mode      : ClockMode
  time      : Nat
  day       : Int
  boundary  : Option Nat
  report    : Option LoadReport
  age       : Option Nat
  staleOpen : Bool
  base      : Option BaseLoad
deriving DecidableEq, Repr

/-- PLAN_LOOKUP's view 0: every field but the steps (03 R62). -/
structure PlanView where
  id        : SlotId
  busSlot   : Nat
  busNumber : Nat
  cls       : PlanClass
  unblock   : Bool
  stepCount : Nat
  current   : Nat
  cond      : Option StepCond
  state     : PlanState
  outcome   : Option PlanOutcome
  finish    : Option Nat
  imported  : Nat
  exported  : Nat
  final     : Bool
  place     : Option Nat
deriving DecidableEq, Repr

/-- COMMIT_LOOKUP's view 0 (09 R173). -/
structure CommitView0 where
  id          : SlotId
  windowStart : Nat
  windowEnd   : Nat
  armPoint    : Nat
  target      : Nat
  tolerance   : Nat
  state       : CommitState
  phase       : WindowPhase
  headroom    : Option Headroom
  headroomLow : Bool
  outcome     : Option CommitState
  endTime     : Option Nat
  flags       : BitVec 4
  lineLevel   : Bool
  activeSlot  : Option Nat
deriving DecidableEq, Repr

/-- COMMIT_LOOKUP's view 1 (09 R173). -/
structure CommitView1 where
  id           : SlotId
  source       : Option DispatchSource
  baseline     : Option Int
  capNet       : Option Int
  activation   : Option Nat
  periods      : Nat
  shortPeriods : Nat
  relief       : Option Int
  delivered    : Nat
  carry        : Nat
deriving DecidableEq, Repr

/-- A completion's result: the named fields of the request's chapter, or the bytes of section 11.6
where a layout is given. A refused request has none (log 16). -/
inductive Result where
  | none
  | time (before after : Nat) (day : Int)
  | loadPending (p : Bool)
  | stored (watts : Nat)
  | siteParams (p : SiteParams) (pending : Bool)
  | ratings (staged live : Ratings) (pending : Bool)
  | timeAndLoad (v : TimeAndLoad)
  | enrolled (slot number : Nat) (soe : Option Nat) (source : SoeSource)
  | busFields (number capacity importCap exportCap : Nat) (v2g : Bool) (floor allowance : Nat)
      (soe : Option Nat) (source : SoeSource)
  | retired (slot plansFreed : Nat)
  | busView (bytes : List Byte)
  | planLists (nPrio nStd : Nat) (entries : List (SlotId × PlanClass × PlanState))
  | departure (slot tDep eReq : Nat) (clamped : Bool) (state : Readiness) (slack : Option Int)
  | departureCleared (was : Option DepState)
  | submitted (id : SlotId) (state : PlanState) (place : Option Nat) (steps : List (Nat × Nat))
  | planEnded (id : SlotId) (state : PlanState) (outcome : Option PlanOutcome) (finish : Option Nat)
      (imported exported : Nat)
  | freed (slot generation : Nat)
  | planView (v : PlanView)
  | planSteps (id : SlotId) (bytes : List Byte)
  | portMoved (state : PortState) (pending : Option PortTarget)
  | portState (state : PortState)
  | portConfig (staged : Ratings) (energyPerCount filterThreshold : Nat)
  | portView (bytes : List Byte)
  | allocTotals (number available importTotal exportTotal : Nat) (net : Int)
  | allocNumber (number : Nat)
  | allocSummary (running : Bool) (number : Nat) (summary : Option Summary)
  | allocPort (r : Option (PortResult × Int))
  | offered (id : SlotId) (state : CommitState) (phase : WindowPhase) (armPoint : Nat)
  | withdrawn (id : SlotId) (endTime : Nat)
  | dispatched (id : SlotId) (baseline capNet : Int) (activation : Nat)
  | released (outcome : CommitState) (periods shortPeriods delivered : Nat)
  | commitView0 (v : CommitView0)
  | commitView1 (v : CommitView1)
  | tripCleared (latch : Bool) (ports : Nat)
  | supervision (before after : SupState) (length : Option Nat)
  | scan (next : Nat) (entries : List ScanEntry)
  | flags (remaining : Nat)
deriving DecidableEq, Repr

/-- A completion record (11 R194): tag and kind echoed, status, depot time, result. -/
structure Completion where
  tag    : Half
  kind   : Byte
  status : Status
  time   : Nat
  result : Result
deriving DecidableEq, Repr

/-- A completion write in flight: the ring entry it goes to and the record (11 R188). -/
structure CompletionWrite where
  entry  : Nat
  record : Completion
deriving DecidableEq, Repr

/-- R184. -/
inductive RingState where
  | stopped | running | fetchError
deriving DecidableEq, Repr

/-- A ring's base, its set mark and its size and pointers (11 R183, R185). -/
structure RingRegs where
  base    : Addr
  baseSet : Bool
  size    : Nat
  write   : Nat
  read    : Nat
deriving DecidableEq, Repr

/-- R186: a fetch burst in flight, the one read of n consecutive entries of the request ring that it issued: the
entry numbers in ring order, fixed when the burst started. -/
structure FetchBurst where
  entries : List Nat
deriving DecidableEq, Repr

/-- The Ring Interface (11 R183 to R189). -/
structure Ring where
  state      : RingState
  request    : RingRegs
  completion : RingRegs
  enable     : Bool
  threshold  : Nat
  holdTime   : Nat
  buffer     : List Request
  burst      : Option FetchBurst
  writing    : Option CompletionWrite
  unreported : Nat
  holdTimer  : Timer
  pendingFlag : Bool
deriving DecidableEq, Repr

/-! ### The whole block -/

/-- The state of the block, and the queue of commands that wait (`pending`). -/
structure State where
  clock       : Clock
  site        : Site
  siteFlags   : BitVec 6
  buses       : Table Bus
  plans       : Table Plan
  planGens    : Table Nat
  ports       : Vector Port 24
  engine      : Engine
  commits     : Table Commitment
  commitGens  : Table Nat
  dispatch    : DispatchLine
  protection  : Protection
  supervision : Supervision
  ring        : Ring
  mask        : BitVec 5
  pending     : List Instr
deriving DecidableEq, Repr

/-- R64, R66: a setpoint of 0 has direction NONE. -/
def Setpoint.zero : Setpoint := ⟨0, .none⟩

/-- R7: the power-on value of each site field, in both copies. -/
def SiteParams.powerOn : SiteParams where
  feederLimit := 0
  margin := 20000
  fallbackBase := 500000
  baseHold := 60
  allocPeriod := 5
  reversalRest := 10
  guardTime := 900
  atRisk := 1800
  lockoutWindow := 7200
  takeWindow := 3600
  tricklePower := 7000
  armLead := 900
  supervision := 30
  rolloverOffset := 14400
  stallTime := 60
  soeTolerance := 2000
  depotId := 0

/-- R107: a filter's output adopts the line's level at the first sample, its counter is 0. -/
def LineFilter.powerOn (l : Level) : LineFilter := ⟨l, l, 0, false⟩

/-- R64, R87, R91, R107: a port record after power-on, its meter lines at the levels given. The pilot
and feedback pins start where their filters do (DESIGN CHOICE, log 9). -/
def Port.powerOn (n : PortNo) (meter : Level × Level) : Port where
  number := n
  state := .offline
  pendingTarget := none
  lastTransition := none
  energyPerCount := 10
  filterThreshold := 10
  pilotLine := .none
  taken := .none
  pilotCandidate := none
  held := .zero
  lastDir := .none
  zeroSince := none
  residue := 0
  command := .opened
  feedbackLine := .opened
  feedback := .opened
  feedbackCandidate := none
  session := none
  sessionImport := 0
  sessionExport := 0
  attempts := 0
  faultCode := none
  flags := 0
  settling := .stopped
  debounce := .stopped
  confirmation := .stopped
  openDelay := .stopped
  weld := .stopped
  quiet := .stopped
  limit := .stopped
  frameCount := 0
  frameTimer := .running 1000 0
  lastFrame := none
  answer := .stopped
  checkErrors := 0
  discards := 0
  claimed := none
  lastFault := none
  enquire := none
  ma := .powerOn meter.1
  mb := .powerOn meter.2
  wrongRun := 0
  stray := 0
  idle := 0
  lastApplied := none
  stall := .stopped

/-- R135: before any computation a port's tier-A grant is read as 0 and its split tier as none. -/
def PortResult.zero : PortResult := ⟨0, .none, 0, 0, 0, false, .zero⟩

/-- R183: a ring's registers after power-on. -/
def RingRegs.powerOn : RingRegs := ⟨0, false, 0, 0, 0⟩

/-- R183, R184, R186, R189: the Ring Interface after power-on. -/
def Ring.powerOn : Ring where
  state := .stopped
  request := .powerOn
  completion := .powerOn
  enable := false
  threshold := 1
  holdTime := 10
  buffer := []
  burst := none
  writing := none
  unreported := 0
  holdTimer := .stopped
  pendingFlag := false

/-- The state after power-on with every line deasserted and every meter line LOW (the line levels are
a DESIGN CHOICE, log 9; every other value is the spec's), and an empty queue. -/
def State.reset : State where
  clock := ⟨.unset, 0, 0, 0, [], []⟩
  site :=
    { staged := .powerOn, live := .powerOn
      stagedRatings := Vector.replicate 24 ⟨0, 0⟩, liveRatings := Vector.replicate 24 ⟨0, 0⟩
      loadPending := false, report := none, staleOpen := false, lastBase := none }
  siteFlags := 0
  buses := ⟨[]⟩
  plans := ⟨[]⟩
  planGens := ⟨[]⟩
  ports := Vector.ofFn fun n => Port.powerOn n (.low, .low)
  engine := ⟨false, .stopped, 0, none, Vector.replicate 24 .zero⟩
  commits := ⟨[]⟩
  commitGens := ⟨[]⟩
  dispatch := ⟨false, false, none⟩
  protection := ⟨false, false⟩
  supervision := ⟨.supervised, .stopped⟩
  ring := .powerOn
  mask := 0
  pending := []

end Sys2Proof.Machine
end

