-- ==== Sys2Proof/Machine/Flags.lean ====
section
/-! DEFINITION. Attention flags by their bits (11 section 11.4), the two interrupt lines (R189, R191),
the status codes' values (section 11.5) and the status word (R184). -/

namespace Sys2Proof.Machine

open Sys2Proof

/-! ### Flag bits, bit 0 first (11 section 11.4) -/

def SiteFlag.baseLoadStale : BitVec 6 := 1
def SiteFlag.trip : BitVec 6 := 2
def SiteFlag.supervision : BitVec 6 := 4
def SiteFlag.timeJump : BitVec 6 := 8
def SiteFlag.dispatchIgnored : BitVec 6 := 16
def SiteFlag.ringError : BitVec 6 := 32

def PortFlag.stateReached : BitVec 6 := 1
def PortFlag.fault : BitVec 6 := 2
def PortFlag.unidentified : BitVec 6 := 4
def PortFlag.glitch : BitVec 6 := 8
def PortFlag.closeTimeout : BitVec 6 := 16
def PortFlag.meterStray : BitVec 6 := 32

def BusFlag.plugged : BitVec 10 := 1
def BusFlag.unplugged : BitVec 10 := 2
def BusFlag.readiness : BitVec 10 := 4
def BusFlag.blocked : BitVec 10 := 8
def BusFlag.soeDiscrepancy : BitVec 10 := 16
def BusFlag.capacityMismatch : BitVec 10 := 32
def BusFlag.soeClamped : BitVec 10 := 64
def BusFlag.soeUnknown : BitVec 10 := 128
def BusFlag.departureTaken : BitVec 10 := 256
def BusFlag.allowanceUsed : BitVec 10 := 512

def CommitFlag.armed : BitVec 4 := 1
def CommitFlag.headroomLow : BitVec 4 := 2
def CommitFlag.active : BitVec 4 := 4
def CommitFlag.ended : BitVec 4 := 8

/-- Setting a flag that is already set leaves it set (01 R14). -/
def State.raiseSite (f : BitVec 6) (s : State) : State := { s with siteFlags := s.siteFlags ||| f }

/-- 04 R90. -/
def Port.raise (f : BitVec 6) (p : Port) : Port := { p with flags := p.flags ||| f }

/-- 02 R37. -/
def Bus.raise (f : BitVec 10) (b : Bus) : Bus := { b with flags := b.flags ||| f }

/-- 09 R175. -/
def Commitment.raise (f : BitVec 4) (c : Commitment) : Commitment := { c with flags := c.flags ||| f }

/-- `raise f` when a condition holds. -/
def Bus.raiseIf (c : Bool) (f : BitVec 10) (b : Bus) : Bus := if c then b.raise f else b

/-! ### Interrupt lines -/

/-- R189: COMPLETION_IRQ is asserted while the completion-pending flag is set. -/
def State.completionIrq (s : State) : Bool := s.ring.pendingFlag

/-- R191: ATTENTION_IRQ is asserted while at least one record holds a set flag of a category whose
mask bit is set. -/
def State.attentionIrq (s : State) : Bool :=
  (s.mask.getLsbD 0 && s.siteFlags != 0)
  || (s.mask.getLsbD 1 && s.ports.toList.any fun p => p.flags != 0)
  || (s.mask.getLsbD 2 && s.buses.rows.any fun r => r.2.flags != 0)
  || (s.mask.getLsbD 3 && s.plans.rows.any fun r => r.2.final)
  || (s.mask.getLsbD 4 && s.commits.rows.any fun r => r.2.flags != 0)

/-! ### Encoded values -/

/-- Section 11.5: a status code's value. -/
def Status.code : Status → Nat
  | .ok => 0 | .staged => 1 | .accepted => 2 | .tableFull => 3 | .duplicate => 4 | .notFound => 5
  | .staleId => 6 | .outOfRange => 7 | .busPlugged => 8 | .plansPending => 9 | .listFull => 10
  | .busBlocked => 11 | .notBlocked => 12 | .planFinal => 13 | .planActive => 14 | .portState => 15
  | .portBusy => 16 | .tooLate => 17 | .nothingPending => 18 | .welded => 19 | .portInUse => 20
  | .notInWindow => 21 | .reserveBusy => 22 | .commitState => 23 | .supervisionLapsed => 24
  | .tripActive => 25 | .timeUnset => 26 | .timeBackward => 27 | .allocState => 28 | .unknownKind => 29

/-- R184: the ring state's code in the status word. -/
def RingState.code : RingState → Nat
  | .stopped => 0 | .running => 1 | .fetchError => 2

/-- R184: the supervision state's code in the status word. -/
def SupState.code : SupState → Nat
  | .supervised => 0 | .lapsed => 1 | .fallback => 2

/-- R184: the status word, each field as the owning block's state stands. R184 names bits 7 to 0; that bits 31 to 8
read 0 is the model's choice (log 44). -/
def State.statusWord (s : State) : Word :=
  BitVec.ofNat 32
    (s.ring.state.code
      + (if s.clock.mode = .set then 4 else 0)
      + (if s.engine.running then 8 else 0)
      + (if s.protection.latch then 16 else 0)
      + s.supervision.state.code * 32
      + (if s.ring.pendingFlag then 128 else 0))

end Sys2Proof.Machine
end

