-- ==== Sys2Proof/Machine/Ops.lean ====
section
/-! DEFINITION. The shared operations: quantities, tables, timers, registrations with the Depot Clock,
record access, and the one operation through which a port record changes (`Port.settle`). -/

namespace Sys2Proof.Machine

open Sys2Proof

/-! ### Quantities (00, Rounding) -/

/-- The greatest depot time and energy count, 4,294,967,295. -/
def maxWord : Nat := 4294967295

/-- down100 (00, Rounding). -/
def down100 (w : Nat) : Nat := w / 100 * 100

/-- roundup100 (00, Rounding). -/
def roundup100 (w : Nat) : Nat := (w + 99) / 100 * 100

/-- ceil of an exact quotient (00, Rounding); the divisor is above 0 wherever it is used. -/
def ceilDiv (a b : Nat) : Nat := (a + b - 1) / b

/-- An addition that stays at 4,294,967,295 (R34, R56, R114, R168). -/
def addWord (a b : Nat) : Nat := min (a + b) maxWord

/-- A count that stays at 65,535 (R30, R91, R107, R113, R168). -/
def addHalf (a b : Nat) : Nat := min (a + b) 65535

/-- Clamped to a range (00, Clamping and refusal). -/
def clampInt (lo hi v : Int) : Int := max lo (min hi v)

/-- Stable insertion sort by a Boolean order, for the engine's and the clock's orders. -/
def insertBy {α : Type} (le : α → α → Bool) (x : α) : List α → List α
  | [] => [x]
  | y :: ys => if le y x then y :: insertBy le x ys else x :: y :: ys

/-- Sorts so that elements the order does not separate keep their order. -/
def sortBy {α : Type} (le : α → α → Bool) (xs : List α) : List α :=
  xs.foldl (fun acc x => insertBy le x acc) []

/-! ### Setpoints (04 R64, R66) -/

/-- A setpoint of magnitude 0 has direction NONE. -/
def Setpoint.make (d : Dir) (w : Nat) : Setpoint := if w = 0 then .zero else ⟨w, d⟩

/-! ### Timers -/

/-- A timer started from 0 with a length in ms. -/
def Timer.start (ms : Nat) : Timer := .running ms 0

def Timer.isRunning : Timer → Bool
  | .running _ _ => true
  | .stopped => false

/-- A running timer has counted to its length (R120, R182). -/
def Timer.expired : Timer → Bool
  | .running l e => decide (l ≤ e)
  | .stopped => false

/-- One millisecond passes; a timer that has reached its length waits there for its expiry (log 3). -/
def Timer.tick : Timer → Timer
  | .stopped => .stopped
  | .running l e => .running l (min l (e + 1))

/-! ### Tables -/

/-- The record in a slot. -/
def Table.get {α : Type} (t : Table α) (k : Nat) : Option α :=
  (t.rows.find? fun r => r.1 == k).map Prod.snd

/-- Frees a slot. -/
def Table.del {α : Type} (t : Table α) (k : Nat) : Table α := ⟨t.rows.filter fun r => r.1 != k⟩

/-- Puts a row at its place in rising order. -/
def insertRow {α : Type} (k : Nat) (v : α) : List (Nat × α) → List (Nat × α)
  | [] => [(k, v)]
  | r :: rs => if k < r.1 then (k, v) :: r :: rs else r :: insertRow k v rs

/-- Places or replaces the record of a slot. -/
def Table.put {α : Type} (t : Table α) (k : Nat) (v : α) : Table α := ⟨insertRow k v (t.del k).rows⟩

/-- The slots in use, ascending. -/
def Table.keys {α : Type} (t : Table α) : List Nat := t.rows.map Prod.fst

/-- The lowest-numbered free slot of a table of n slots (R15, R38, R157). -/
def Table.firstFree {α : Type} (t : Table α) (n : Nat) : Option Nat :=
  (List.range n).find? fun k => (t.get k).isNone

/-- The canonical form of a table: slots strictly rising. -/
abbrev Table.wf {α : Type} (t : Table α) : Prop := t.rows.Pairwise fun a b => a.1 < b.1

/-- A slot's generation, 0 where the table lists none (R38, R157). -/
def Table.gen (t : Table Nat) (k : Nat) : Nat := (t.get k).getD 0

/-- R38, R157: freeing a slot increases its generation by one, and 255 is followed by 0. -/
def Table.bumpGen (t : Table Nat) (k : Nat) : Table Nat :=
  if (t.gen k + 1) % 256 = 0 then t.del k else t.put k ((t.gen k + 1) % 256)

/-! ### Record access -/

def State.now (s : State) : Nat := s.clock.time

def State.bus (s : State) (i : Nat) : Option Bus := s.buses.get i
def State.plan (s : State) (i : Nat) : Option Plan := s.plans.get i
def State.commit (s : State) (i : Nat) : Option Commitment := s.commits.get i
def State.port (s : State) (n : PortNo) : Port := s.ports[n]

def State.putBus (s : State) (i : Nat) (b : Bus) : State := { s with buses := s.buses.put i b }
def State.putPlan (s : State) (i : Nat) (p : Plan) : State := { s with plans := s.plans.put i p }
def State.putCommit (s : State) (i : Nat) (c : Commitment) : State :=
  { s with commits := s.commits.put i c }
def State.putPort (s : State) (n : PortNo) (p : Port) : State := { s with ports := s.ports.set n p }

/-- Changes the record of a bus slot; a free slot stays free. -/
def State.modBus (s : State) (i : Nat) (f : Bus → Bus) : State :=
  match s.bus i with
  | some b => s.putBus i (f b)
  | none => s

/-- Changes the record of a plan slot; a free slot stays free. -/
def State.modPlan (s : State) (i : Nat) (f : Plan → Plan) : State :=
  match s.plan i with
  | some p => s.putPlan i (f p)
  | none => s

/-- Changes the record of a commitment slot; a free slot stays free. -/
def State.modCommit (s : State) (i : Nat) (f : Commitment → Commitment) : State :=
  match s.commit i with
  | some c => s.putCommit i (f c)
  | none => s

/-- The 24 ports in ascending number. -/
def allPorts : List PortNo := List.finRange 24

/-- The bus slot of a port's bound session (R65). -/
def Port.boundSlot (p : Port) : Option Nat :=
  match p.session with
  | some x => match x.binding with
    | .bound i => some i
    | .unidentified _ => none
  | none => none

/-! ### Registrations with the Depot Clock (01 section 1.2) -/

/-- The owner of a threshold kind, in the order of the table of section 1.2: Depot Clock, Plan Table,
Readiness Evaluator, Reserve Unit. -/
def RegKind.owner : RegKind → Nat
  | .rollover => 0
  | .notBefore | .endBy | .holdUntil => 1
  | .departure | .lockout => 2
  | .armPoint | .windowStart | .windowEnd => 3

/-- R3: the clock takes a registration only when the threshold is later than depot time. -/
def State.register (k : RegKind) (slot time : Nat) (s : State) : State :=
  if s.now < time then
    { s with clock := { s.clock with regs := s.clock.regs ++ [⟨k, slot, time⟩] } }
  else s

/-- R3: a withdrawn registration does not fire; one that has fired and is not handed over yet goes too (log 7). -/
def State.withdraw (sel : Registration → Bool) (s : State) : State :=
  { s with clock :=
    { s.clock with
      regs := s.clock.regs.filter fun r => !sel r
      fired := s.clock.fired.filter fun r => !sel r } }

/-- The registrations of a record of one owner. -/
def ofRecord (owner slot : Nat) (r : Registration) : Bool := r.kind.owner == owner && r.slot == slot

/-- One registration of a record. -/
def ofKind (k : RegKind) (slot : Nat) (r : Registration) : Bool := r.kind == k && r.slot == slot

/-- R3, R4: owner by owner (log 8), ascending threshold, then record slot, then registration order. -/
def handOverBefore (a b : Registration) : Bool :=
  if a.kind.owner = b.kind.owner then
    if a.time = b.time then decide (a.slot ≤ b.slot) else decide (a.time < b.time)
  else decide (a.kind.owner < b.kind.owner)

/-- Firing removes the selected registrations from the set; their crossings wait in hand-over order. -/
def State.fire (sel : Registration → Bool) (s : State) : State :=
  { s with clock :=
    { s.clock with
      regs := s.clock.regs.filter fun r => !sel r
      fired := s.clock.fired ++ sortBy handOverBefore (s.clock.regs.filter sel) } }

/-! ### Day number (01 section 1.3) -/

/-- R5: floor((depot time - offset) / 86,400). -/
def dayFormula (time offset : Nat) : Int := ((time : Int) - (offset : Int)) / 86400

/-- R5: the least time at which the formula gives a value greater than the day number, absent above
4,294,967,295. -/
def nextBoundary (day : Int) (offset : Nat) : Option Nat :=
  let t := ((day + 1) * 86400 + (offset : Int)).toNat
  if t ≤ maxWord then some t else none

/-- R5: the clock registers the next rollover boundary, if there is one. -/
def State.registerBoundary (s : State) : State :=
  match nextBoundary s.clock.day s.site.live.rolloverOffset with
  | some t => s.register .rollover 0 t
  | none => s

/-- R35: a rollover crossing sets export used to 0 in every enrolled record. -/
def State.resetExportUsed (s : State) : State :=
  { s with buses := ⟨s.buses.rows.map fun r => (r.1, { r.2 with exportUsed := 0 })⟩ }

/-! ### Port records -/

/-- What a port's own rules read from the rest of the part: now, and the live stall time (R67, R119). -/
structure PortEnv where
  now   : Nat
  stall : Nat

def State.env (s : State) : PortEnv := ⟨s.now, s.site.live.stallTime * 1000⟩

/-- R66: the live setpoint equals the held setpoint while the port is ENERGIZED, and is 0 in every
other state. -/
def Port.live (p : Port) : Setpoint := if p.state = .energized then p.held else .zero

/-- R118: the conditions under which the stall timer runs. -/
def Port.stallConditions (p : Port) : Bool :=
  p.state == .energized && p.boundSlot.isSome && decide (5000 ≤ p.live.mag)

/-- R75: the conditions under which the weld timer runs. -/
def Port.weldConditions (p : Port) : Bool :=
  p.command == .opened && p.feedback == .closed && p.state != .offline

/-- R87: a frame with the live setpoint and the next frame count; the next frame is due 1 s later. -/
def Port.sendFrame (p : Port) : Port :=
  { p with
    frameCount := (p.frameCount + 1) % 65536
    frameTimer := .start 1000
    lastFrame := some ⟨p.number, p.live, (p.frameCount + 1) % 65536⟩ }

/-- R67: the direction memory follows a change of the held setpoint. -/
def Port.remember (e : PortEnv) (before after : Port) : Port :=
  if after.held = before.held then after
  else if after.held.mag ≠ 0 then { after with lastDir := after.held.dir, zeroSince := none }
  else if before.held.mag ≠ 0 then { after with zeroSince := some e.now }
  else after

/-- R87: a change of the live setpoint sends a frame. -/
def Port.announceLive (before after : Port) : Port :=
  if after.live = before.live then after else after.sendFrame

/-- R77: the open delay runs in ENERGIZED while the live setpoint is 0. -/
def Port.superviseOpenDelay (before after : Port) : Port :=
  if after.state = .energized ∧ after.live.mag = 0 then
    if before.state = .energized ∧ before.live.mag = 0 then after
    else { after with openDelay := .start 60000 }
  else { after with openDelay := .stopped }

/-- R119: a setpoint change restarts the stall timer when its conditions hold; it stops when they do not. -/
def Port.superviseStall (e : PortEnv) (before after : Port) : Port :=
  if after.stallConditions then
    if after.live = before.live then after else { after with stall := .start e.stall }
  else { after with stall := .stopped }

/-- R75: the weld timer starts when its conditions first hold and stops when one ceases (log 21). -/
def Port.superviseWeld (before after : Port) : Port :=
  if after.weldConditions then
    if before.weldConditions then after else { after with weld := .start 200 }
  else { after with weld := .stopped }

/-- The effects of a change of a port record (R66, R67, R75, R77, R87, R119): every change of state,
held setpoint, command, feedback or session goes through here, as one setpoint change (log 18). -/
def Port.settle (e : PortEnv) (before after : Port) : Port :=
  Port.superviseWeld before
    (Port.superviseStall e before
      (Port.superviseOpenDelay before
        (Port.announceLive before (Port.remember e before after))))

/-- Changes a port record, with the effects of the change. -/
def State.updPort (n : PortNo) (f : Port → Port) (s : State) : State :=
  s.putPort n (Port.settle s.env (s.port n) (f (s.port n)))

/-- Changes fields of a port record on which no effect of R66 to R119 depends (flags, counters). -/
def State.setPort (n : PortNo) (f : Port → Port) (s : State) : State := s.putPort n (f (s.port n))

/-- Changes every port record, each with the effects of its change. -/
def State.updPorts (f : PortNo → Port → Port) (s : State) : State :=
  { s with ports := Vector.ofFn fun n => Port.settle s.env s.ports[n] (f n s.ports[n]) }

/-- A port enters a state: the timers, pending target and fault code that belong to another state go,
and the state's own timers start (R68, R70, R71, R73, R76, R79, R80, R81). -/
def Port.enter (st : PortState) (p : Port) : Port :=
  { p with
    state := st
    settling := if st = .vacant then .start 500 else .stopped
    debounce := if st = .detecting then .start 1000 else .stopped
    answer := if st = .identifying then p.answer else .stopped
    confirmation := if st = .energizing then .start 200 else .stopped
    quiet := if st = .closing then .start 1000 else .stopped
    limit := if st = .closing then .start 5000 else .stopped
    pendingTarget := if st = .closing then p.pendingTarget else none
    faultCode := if st = .faulted then p.faultCode else none }

/-- R83, R84: the open command of CLOSING has been given: its timers are stopped. -/
def Port.openGiven (p : Port) : Bool := p.state == .closing && !p.quiet.isRunning

/-- The held setpoint becomes 0. -/
def Port.zeroHeld (p : Port) : Port := { p with held := .zero }

/-- A held setpoint that is export becomes 0 (R134). -/
def Port.zeroExport (p : Port) : Port := if p.held.dir = .exp then p.zeroHeld else p

/-- R23, R104: a held setpoint of a direction that exceeds the cap becomes down100 of the cap. -/
def Port.capTo (d : Dir) (cap : Nat) (p : Port) : Port :=
  if p.held.dir = d ∧ cap < p.held.mag then { p with held := .make d (down100 cap) } else p

/-- R54 item 1, R182: an import setpoint becomes the lesser of itself and the recorded tier-A grant. -/
def Port.importToTierA (grant : Nat) (p : Port) : Port :=
  if p.held.dir = .imp then { p with held := .make .imp (min p.held.mag grant) } else p

/-- R84: the last transition record; STATE_REACHED is set at an end recorded REACHED or DROPPED. -/
def Port.endTransition (t : PortTarget) (o : TransitionOutcome) (now : Nat) (p : Port) : Port :=
  let q := { p with lastTransition := some ⟨t, o, now⟩, pendingTarget := none }
  if o = .cancelled then q else q.raise PortFlag.stateReached

/-- R91, R94, R95: the port enters IDENTIFYING; the exchange status is cleared, ENQUIRE goes out and the
attempt count becomes 1. The answer timer starts when the message has been sent. -/
def Port.beginExchange (depotId : Nat) (p : Port) : Port :=
  { p.enter .identifying with
    answer := .stopped
    attempts := 1
    checkErrors := 0
    discards := 0
    claimed := none
    lastFault := none
    enquire := some ⟨p.number.val, depotId, 1⟩ }

/-- R100, R23, R104: the session caps formed from the record's caps and the announced values. -/
def sessionCaps (b : Bus) (a : Announced) : Nat × Nat :=
  (min b.importCap a.maxImport,
   if b.v2g && a.v2g then min b.exportCap a.maxExport else 0)

/-! ### Line filters (04 R69, R75; 09 R165) -/

/-- One millisecond of a level filter: a level that differs from the output becomes the candidate and
its age starts at 0; a return to the output discards it; a held candidate ages up to the limit, where
it waits for its taking (log 10). -/
def filterTick {α : Type} [DecidableEq α] (limit : Nat) (line output : α)
    (c : Option (Candidate α)) : Option (Candidate α) :=
  if line = output then none
  else match c with
    | some k => if k.level = line then some ⟨line, min limit (k.age + 1)⟩ else some ⟨line, 0⟩
    | none => some ⟨line, 0⟩

end Sys2Proof.Machine
end

