-- ==== Sys2Proof/Machine/PlanOps.lean ====
section
/-! DEFINITION. The Plan Table's operations (03): final states, selection, step begin and end,
preemption, session end and the return walk. -/

namespace Sys2Proof.Machine

open Sys2Proof

/-- R42: the listed states. -/
def PlanState.listed : PlanState → Bool
  | .queued | .running | .paused => true
  | .done | .stopped | .cancelled | .returned => false

/-- R132: the discharge floor F. -/
def Bus.dischargeFloor (b : Bus) : Nat :=
  match b.departure with
  | some d => match d.state with
    | .pending | .overdue => max b.floor d.eReq
    | .taken _ => b.floor
  | none => b.floor

/-- The plans of a bus's two lists, the priority list first (R26). -/
def Bus.listedPlans (b : Bus) : List Nat := b.prioList ++ b.stdList

/-- The RUNNING plan of a bus, if any (R43). -/
def State.runningPlan (s : State) (b : Bus) : Option Nat :=
  b.listedPlans.find? fun i => match s.plan i with
    | some p => p.state == .running
    | none => false

/-- The current step (R40: numbered from 1). -/
def Plan.step? (p : Plan) : Option PlanStep := p.steps[p.current - 1]?

/-- R47 item 1, R50 to R52: the end condition of a step. -/
def stepEnded (now : Nat) (b : Bus) (st : PlanStep) : Bool :=
  match st.kind, b.soe with
  | .importTo, some soe => decide (st.value ≤ soe)
  | .exportTo, some soe => decide (soe ≤ max st.value b.dischargeFloor)
  | .holdUntil, _ => decide (st.value ≤ now)
  | .importTo, none => false
  | .exportTo, none => false

/-- R54, R58: the Plan Table withdraws every registration of a plan. -/
def State.withdrawPlan (i : Nat) (s : State) : State := s.withdraw (ofRecord 1 i)

/-- A plan leaves its bus's lists; the order of the rest is kept (R43). -/
def Bus.unlist (i : Nat) (b : Bus) : Bus :=
  { b with prioList := b.prioList.filter (· != i), stdList := b.stdList.filter (· != i) }

/-- R42: a plan enters a final state. -/
def State.finalise (i : Nat) (st : PlanState) (o : PlanOutcome) (s : State) : State :=
  match s.plan i with
  | some p =>
    ((s.putPlan i { p with
        state := st, outcome := some o, finish := some s.now, cond := none, final := true }).modBus
      p.busSlot (Bus.unlist i)).withdrawPlan i
  | none => s

/-- The tier-A grant that the most recent computation gave a port, 0 before any (R54, R135). -/
def State.tierAGrant (s : State) (n : PortNo) : Nat := s.engine.ports[n].tierA

/-- R54 item 1: the port of a bus releases the plan's power. -/
def State.releasePower (b : Nat) (s : State) : State :=
  match s.bus b with
  | some bus => match bus.location with
    | some n => s.updPort n fun p => (p.importToTierA (s.tierAGrant n)).zeroExport
    | none => s
  | none => s

/-- What selection and its steps do next (R46, R47, R54). -/
inductive PlanTask where
  | select
  | start (i : Nat)
  | finish (i : Nat)
deriving DecidableEq, Repr

/-- R47 point 3: the not-before time of a step lies ahead. -/
def PlanStep.early (now : Nat) (st : PlanStep) : Bool :=
  match st.notBefore with
  | some t => decide (now < t)
  | none => false

/-- R47 point 2: the end-by time of a step has passed. -/
def PlanStep.late (now : Nat) (st : PlanStep) : Bool :=
  match st.endBy with
  | some t => decide (t ≤ now)
  | none => false

/-- The RUNNING plan's step condition is written (R48). -/
def State.setCond (i : Nat) (c : StepCond) (s : State) : State :=
  s.modPlan i fun p => { p with cond := some c }

/-- R47 points 3 to 5: the step condition, with the not-before registration or SOE_UNKNOWN. -/
def State.enterCondition (b i : Nat) (bus : Bus) (st : PlanStep) (s : State) : State :=
  if st.early s.now then (s.setCond i .timedWait).register .notBefore i (st.notBefore.getD 0)
  else if st.kind ≠ .holdUntil ∧ bus.soe = none then
    (s.setCond i .soeWait).modBus b (Bus.raise BusFlag.soeUnknown)
  else s.setCond i .active

/-- R47 point 1, R52: a HOLD_UNTIL step registers its time. -/
def State.registerHold (i : Nat) (st : PlanStep) (s : State) : State :=
  if st.kind = .holdUntil then s.register .holdUntil i st.value else s

/-- R47 point 2: an end-by time that lies ahead is registered. -/
def State.registerEndBy (i : Nat) (st : PlanStep) (s : State) : State :=
  match st.endBy with
  | some t => s.register .endBy i t
  | none => s

/-- R47: a step begins. -/
def State.beginStep (b i : Nat) (bus : Bus) (st : PlanStep) (s : State) : State × Option PlanTask :=
  if stepEnded s.now bus st then (s, some (.finish i))
  else
    let s1 := s.registerHold i st
    if st.late s.now then (((s1.finalise i .stopped .deadline).releasePower b), some .select)
    else ((s1.registerEndBy i st).enterCondition b i bus st, none)

/-- R46: selection picks the head of the priority list, or of the standard list, when the bus has a
location, is ENABLED and runs no plan. -/
def State.selectPlan (bus : Bus) (s : State) : State × Option PlanTask :=
  if bus.location.isSome ∧ bus.block = .enabled ∧ s.runningPlan bus = none then
    match bus.listedPlans with
    | i :: _ => (s.modPlan i fun p => { p with state := .running }, some (.start i))
    | [] => (s, none)
  else (s, none)

/-- R54: the current step of a RUNNING plan ends. -/
def State.endStep (b i : Nat) (bus : Bus) (p : Plan) (s : State) : State × Option PlanTask :=
  let s1 := (s.withdrawPlan i).releasePower b
  if p.steps.length ≤ p.current then (s1.finalise i .done .complete, some .select)
  else if p.cls = .standard ∧ bus.prioList ≠ [] then
    (s1.modPlan i fun q => { q with state := .paused, cond := none, current := q.current + 1 },
     some .select)
  else (s1.modPlan i fun q => { q with current := q.current + 1 }, some (.start i))

/-- One task of the chain of R46, R47, R54 and R55. -/
def planTask (b : Nat) (t : PlanTask) (s : State) : State × Option PlanTask :=
  match s.bus b with
  | none => (s, none)
  | some bus => match t with
    | .select => s.selectPlan bus
    | .start i => match s.plan i with
      | some p => match p.step? with
        | some st => s.beginStep b i bus st
        | none => (s, none)
      | none => (s, none)
    | .finish i => match s.plan i with
      | some p => s.endStep b i bus p
      | none => (s, none)

/-- R46, R55: the chain runs on until a step stays, or the lists are empty. -/
def runTasks (b : Nat) : Nat → PlanTask → State → State
  | 0, _, s => s
  | n + 1, t, s => match planTask b t s with
    | (s', some t') => runTasks b n t' s'
    | (s', none) => s'

/-- A bound on the tasks of one chain: 8 plans of 4 steps, each step begun and ended, and a selection
after each (log 22). -/
def chainFuel : Nat := 256

/-- R46: selection takes place for a bus. -/
def State.selection (b : Nat) (s : State) : State := runTasks b chainFuel .select s

/-- R54: the current step of the plan in slot i ends, with all that follows in the event. -/
def State.stepEnd (b i : Nat) (s : State) : State := runTasks b chainFuel (.finish i) s

/-- R53: the plan becomes STOPPED with outcome DEADLINE, releases its power, and selection takes place. -/
def State.deadline (b i : Nat) (s : State) : State :=
  ((s.finalise i .stopped .deadline).releasePower b).selection b

/-- R50, R51, R116: the current step of the bus's RUNNING plan is tested, if it is of one of the kinds
given, and ends if its end condition holds. -/
def State.testStep (kinds : StepKind → Bool) (b : Nat) (s : State) : State :=
  match s.bus b with
  | none => s
  | some bus => match s.runningPlan bus with
    | none => s
    | some i => match s.plan i with
      | none => s
      | some p => match p.step? with
        | none => s
        | some st => if kinds st.kind && stepEnded s.now bus st then s.stepEnd b i else s

/-- R57: a PRIORITY plan appended while a STANDARD plan runs a HOLD_UNTIL step ends that hold at once. -/
def State.preempt (b : Nat) (s : State) : State :=
  match s.bus b with
  | none => s
  | some bus => match s.runningPlan bus with
    | none => s
    | some i => match s.plan i with
      | none => s
      | some p => match p.step? with
        | none => s
        | some st =>
          if p.cls = .standard ∧ st.kind = .holdUntil then s.stepEnd b i else s

/-- R58: at a session end the RUNNING plan becomes PAUSED with its current step kept. -/
def State.pauseRunning (b : Nat) (s : State) : State :=
  match s.bus b with
  | none => s
  | some bus => match s.runningPlan bus with
    | none => s
    | some i => (s.modPlan i fun p => { p with state := .paused, cond := none }).withdrawPlan i

/-- R60: the return walk: the RUNNING plan stops with BUS_FAULT, then the priority list and the
standard list are returned, each from head to tail. -/
def State.returnWalk (b : Nat) (s : State) : State :=
  match s.bus b with
  | none => s
  | some bus =>
    let s1 := match s.runningPlan bus with
      | some i => s.finalise i .stopped .busFault
      | none => s
    let rest := bus.listedPlans.filter fun i => s.runningPlan bus != some i
    rest.foldl (fun t i => t.finalise i .returned .busBlocked) s1

/-- R56: an applied count's energy, added to the RUNNING plan by direction. -/
def Plan.book (d : Dir) (e : Nat) (p : Plan) : Plan :=
  match d with
  | .imp => { p with imported := addWord p.imported e }
  | .exp => { p with exported := addWord p.exported e }
  | .none => p

/-- R38: frees a plan slot; its generation increases by one. -/
def State.freePlan (i : Nat) (s : State) : State :=
  { s with plans := s.plans.del i, planGens := s.planGens.bumpGen i }

end Sys2Proof.Machine
end

