-- ==== Sys2Proof/Machine/ReadinessOps.lean ====
section
/-! DEFINITION. The Readiness Evaluator's operations (07): figures, readiness state, registrations of a
departure, the take, export eligibility and its withdrawal. -/

namespace Sys2Proof.Machine

open Sys2Proof

/-- R127: the figures of a bus. -/
structure Figures where
  state : Readiness
  slack : Option Int
  need  : Nat
deriving DecidableEq, Repr

/-- R127: a slack outside the 32-bit signed range is clamped to it. -/
def clampSlack (x : Int) : Int := clampInt (-2147483648) 2147483647 x

/-- R127: deficit, full power, window, slack, state and need power. -/
def figures (now guardTime atRisk tDep eReq soe importCap rating : Nat) : Figures :=
  let d := eReq - soe
  let full := down100 (min importCap rating)
  let w : Int := (tDep : Int) - (now : Int) - (guardTime : Int)
  if d = 0 then ⟨.ready, some (clampSlack w), 0⟩
  else if full = 0 then ⟨.late, none, 0⟩
  else
    let slack : Int := w - (ceilDiv (d * 3600) full : Int)
    { state := if (atRisk : Int) ≤ slack then .onTrack else if 0 ≤ slack then .atRisk else .late
      slack := some (clampSlack slack)
      need := if w ≤ 0 then full else min full (roundup100 (ceilDiv (d * 3600) w.toNat)) }

/-- The session import cap of a port, 0 when it holds no session (log 28). -/
def Port.sessionImportCap (p : Port) : Nat := (p.session.map Session.importCap).getD 0

/-- The session export cap of a port, 0 when it holds no session (log 28). -/
def Port.sessionExportCap (p : Port) : Nat := (p.session.map Session.exportCap).getD 0

/-- R127 for a bus located at port n with the departure part d; an UNKNOWN SoE is read as 0. -/
def State.figuresAt (s : State) (b : Bus) (d : Departure) (n : PortNo) : Figures :=
  figures s.now s.site.live.guardTime s.site.live.atRisk d.tDep d.eReq (b.soe.getD 0)
    (s.port n).sessionImportCap s.site.liveRatings[n].imp

/-- R129, the row of each allocation computation (and, for a PENDING part, of DEPARTURE_SET). -/
def State.readinessNow (s : State) (b : Bus) : Readiness × Option Int :=
  match b.departure with
  | none => (.none, none)
  | some d => match d.state with
    | .taken _ => (.none, none)
    | .overdue => (.overdue, none)
    | .pending => match b.location with
      | none => (.away, none)
      | some n => ((s.figuresAt b d n).state, (s.figuresAt b d n).slack)

/-- R131: the readiness state and slack are set; a change of state sets READINESS. -/
def Bus.setReadiness (r : Readiness) (slack : Option Int) (b : Bus) : Bus :=
  { b.raiseIf (b.readiness != r) BusFlag.readiness with readiness := r, slack := slack }

/-- R128: the tier-A floor of a bus and its slack, at a computation. -/
def State.floorOf (s : State) (b : Bus) : Nat × Int :=
  match b.departure, b.location with
  | some d, some n =>
    if d.state = .pending ∧ b.block = .enabled ∧ (s.port n).taken = .ready then
      ((s.figuresAt b d n).need, (s.figuresAt b d n).slack.getD 0)
    else (0, 0)
  | _, _ => (0, 0)

/-- R124: both registrations of a bus's departure part are withdrawn. -/
def State.withdrawDeparture (i : Nat) (s : State) : State := s.withdraw (ofRecord 2 i)

/-- R124: the lockout point is registered when the window is above 0 and the point is later than now. -/
def State.registerLockout (i tDep : Nat) (s : State) : State :=
  let w := s.site.live.lockoutWindow
  if 0 < w ∧ w ≤ tDep then s.register .lockout i (tDep - w) else s

/-- R124: the registrations of a new PENDING part. -/
def State.registerDeparture (i tDep : Nat) (s : State) : State :=
  (s.register .departure i tDep).registerLockout i tDep

/-- R126: the departure-take check at an unplug. -/
def State.takeCheck (i : Nat) (s : State) : State :=
  match s.bus i with
  | none => s
  | some b => match b.departure with
    | none => s
    | some d =>
      let inWindow := decide (d.tDep - s.site.live.takeWindow ≤ s.now)
      match d.state with
      | .taken _ => s
      | .pending =>
        if inWindow then
          (s.putBus i (({ b with departure := some { d with state := .taken b.soe } }.raise
            BusFlag.departureTaken).setReadiness .none none)).withdrawDeparture i
        else s.putBus i (b.setReadiness .away none)
      | .overdue =>
        if inWindow then
          (s.putBus i (({ b with departure := some { d with state := .taken b.soe } }.raise
            BusFlag.departureTaken).setReadiness .none none)).withdrawDeparture i
        else s

/-- R129: any other session end of a bus with a PENDING part. -/
def State.awayIfPending (i : Nat) (s : State) : State :=
  s.modBus i fun b => match b.departure with
    | some d => if d.state = .pending then b.setReadiness .away none else b
    | none => b

/-- R133: export eligibility, worked out when it is read. -/
def State.exportEligible (s : State) (i : Nat) (b : Bus) : Bool :=
  match b.location with
  | none => false
  | some n =>
    let p := s.port n
    p.boundSlot == some i
    && decide (0 < p.sessionExportCap)
    && decide (0 < s.site.liveRatings[n].exp)
    && (match b.soe with
        | some soe => decide (b.dischargeFloor < soe)
        | none => false)
    && (match b.departure with
        | some d => decide (d.state ≠ .pending)
            || decide (s.now + s.site.live.lockoutWindow < d.tDep)
        | none => true)
    && decide (b.exportUsed < b.allowance)
    && decide (b.block = .enabled)
    && decide (p.taken = .ready)
    && decide (s.supervision.state = .supervised)
    && !s.protection.latch

/-- R134: a held setpoint of the bus's port that is export becomes 0. -/
def State.withdrawExport (i : Nat) (s : State) : State :=
  match s.bus i with
  | some b => match b.location with
    | some n => s.updPort n Port.zeroExport
    | none => s
  | none => s

/-- R122 item 5: the export is withdrawn when the bus is no longer export-eligible. -/
def State.withdrawIfIneligible (i : Nat) (s : State) : State :=
  match s.bus i with
  | some b => if s.exportEligible i b then s else s.withdrawExport i
  | none => s

/-- R130: a closed deficit makes an AT_RISK, ON_TRACK or LATE bus READY. -/
def Bus.closeDeficit (now guardTime : Nat) (b : Bus) : Bus :=
  match b.departure, b.soe with
  | some d, some soe =>
    if d.state = .pending ∧ (b.readiness = .atRisk ∨ b.readiness = .onTrack ∨ b.readiness = .late)
        ∧ d.eReq ≤ soe then
      b.setReadiness .ready (some (clampSlack ((d.tDep : Int) - (now : Int) - (guardTime : Int))))
    else b
  | _, _ => b

/-- R130: SoE at or below the discharge floor. -/
def Bus.atFloor (b : Bus) : Bool :=
  match b.soe with
  | some soe => decide (soe ≤ b.dischargeFloor)
  | none => false

/-- R130: after an applied count, the deficit may close, and an export at the floor is withdrawn. -/
def State.readinessCount (i : Nat) (s : State) : State :=
  let s1 := s.modBus i (Bus.closeDeficit s.now s.site.live.guardTime)
  match s1.bus i with
  | some b => if b.atFloor then s1.withdrawExport i else s1
  | none => s1

end Sys2Proof.Machine
end

