-- ==== Sys2Proof/Machine/ReserveOps.lean ====
section
/-! DEFINITION. The Reserve Unit's operations (09): registrations of an offer, arming, activation, the
ends of a commitment, headroom and the accounting of relief. -/

namespace Sys2Proof.Machine

open Sys2Proof

/-- R158: the final states. -/
def CommitState.final : CommitState → Bool
  | .pending | .armed | .active => false
  | .met | .shortfall | .interrupted | .notDispatched | .withdrawn => true

/-- The commitment that is ACTIVE, with its slot (R167: at most one). -/
def State.activeCommit (s : State) : Option (Nat × Commitment) :=
  s.commits.rows.find? fun r => r.2.state == .active

/-- R144: cap_net = Bl - X. -/
def Commitment.capNet (c : Commitment) : Int := c.baseline.getD 0 - (c.target : Int)

/-- R159: the arm point, 0 when the arm lead exceeds the window start. -/
def armPointOf (windowStart armLead : Nat) : Nat := windowStart - armLead

/-- R160: a commitment becomes ARMED. -/
def Commitment.arm (c : Commitment) : Commitment := { c with state := .armed }.raise CommitFlag.armed

/-- R170: a commitment enters a final state; ENDED is set except at a withdrawal (R162). -/
def State.endCommit (i : Nat) (o : CommitState) (s : State) : State :=
  (s.modCommit i fun c =>
    let d := { c with state := o, outcome := some o, endTime := some s.now }
    if o = .withdrawn then d else d.raise CommitFlag.ended).withdraw (ofRecord 3 i)

/-- R170: the outcome of a normal end. -/
def Commitment.normalOutcome (c : Commitment) : CommitState :=
  if c.periods = 0 then .shortfall
  else if c.tolerance * c.periods < c.shortPeriods * 100 then .shortfall
  else .met

/-- R170: an ACTIVE commitment ends normally. -/
def State.endNormally (i : Nat) (c : Commitment) (s : State) : State := s.endCommit i c.normalOutcome

/-- R172: the ACTIVE commitment, if any, ends with outcome INTERRUPTED. -/
def State.interruptActive (s : State) : State :=
  match s.activeCommit with
  | some (i, _) => s.endCommit i .interrupted
  | none => s

/-- The net recorded by the most recent computation (R155, R167). -/
def State.recordedNet (s : State) : Int :=
  match s.engine.summary with
  | some x => x.net
  | none => 0

/-- R167: activation. -/
def State.activate (i : Nat) (src : DispatchSource) (s : State) : State :=
  s.modCommit i fun c =>
    { c with
      state := .active, source := some src, activation := some s.now, baseline := some s.recordedNet
      periods := 0, shortPeriods := 0, delivered := 0, carry := 0, relief := none }.raise
      CommitFlag.active

/-- R164 checks 4 to 6 and R166: the depot can deliver reserve. -/
def State.reserveReady (s : State) : Bool :=
  s.engine.running && s.supervision.state == .supervised && !s.protection.latch

/-- R166: the commitment a rising edge chooses: ARMED and OPEN, the earliest window start, then the
lowest slot. -/
def State.lineChoice (s : State) : Option Nat :=
  ((sortBy (fun a b => decide (a.2.windowStart ≤ b.2.windowStart))
    (s.commits.rows.filter fun r => r.2.state == .armed && r.2.phase == .opened)).head?).map Prod.fst

/-! ### Headroom and relief -/

/-- A port's live ratings (R8, R64). -/
def State.rating (s : State) (n : PortNo) : Ratings := s.site.liveRatings[n]

/-- The grants of a port were published: the rest did not remove them and the latch was clear (R163). -/
def State.asPublished (s : State) (n : PortNo) : Bool :=
  !s.engine.ports[n].restRemoved && !s.protection.latch

/-- R163 items 1 and 2: what stopping the unprotected import of a port gives. -/
def State.importHeadroom (s : State) (n : PortNo) : Nat :=
  if s.asPublished n then
    s.engine.ports[n].splitGrant
      + (match (s.port n).session with
         | some x => match x.binding with
           | .unidentified _ => s.engine.ports[n].tierA
           | .bound _ => 0
         | none => 0)
  else 0

/-- R163 item 3: what the export of a bus gives to a commitment with this window end. -/
def State.exportHeadroom (s : State) (windowEnd i : Nat) (b : Bus) : Nat :=
  let clear : Bool := match b.departure with
    | some d => decide (d.state ≠ .pending) || decide (windowEnd ≤ d.tDep)
    | none => true
  match b.location with
  | some n =>
    if s.exportEligible i b && clear then down100 (min (s.port n).sessionExportCap (s.rating n).exp)
    else 0
  | none => 0

/-- R163: the headroom of a commitment. -/
def State.headroomOf (s : State) (c : Commitment) : Nat :=
  (allPorts.map s.importHeadroom).sum
    + (s.buses.rows.map fun r => s.exportHeadroom c.windowEnd r.1 r.2).sum

/-- R163: an ARMED commitment takes the headroom a computation works out. -/
def Commitment.takeHeadroom (watts computation : Nat) (c : Commitment) : Commitment :=
  let low := decide (watts < c.target)
  let d := { c with headroom := some ⟨min watts maxWord, computation⟩, headroomLow := low }
  if low && !c.headroomLow then d.raise CommitFlag.headroomLow else d

/-- R168: one period of an ACTIVE commitment. -/
def Commitment.account (net : Int) (period : Nat) (c : Commitment) : Commitment :=
  let r : Int := c.baseline.getD 0 - net
  let total := c.carry + min c.target r.toNat * period
  { c with
    relief := some r
    periods := addHalf c.periods 1
    shortPeriods := if r < (c.target : Int) then addHalf c.shortPeriods 1 else c.shortPeriods
    delivered := addWord c.delivered (total / 3600)
    carry := total % 3600 }

/-- R155, R163, R168: the Reserve Unit reads the recorded results. -/
def State.reserveReads (s : State) : State :=
  { s with commits := ⟨s.commits.rows.map fun r => (r.1,
      match r.2.state with
      | .armed => r.2.takeHeadroom (s.headroomOf r.2) s.engine.number
      | .active => r.2.account s.recordedNet s.site.live.allocPeriod
      | _ => r.2)⟩ }

/-! ### Registrations -/

/-- R159: the registrations of an offer, by what lies ahead of now, in the order of the table. -/
def State.registerOffer (i armPoint windowStart windowEnd : Nat) (s : State) : State :=
  let s1 := s.register .armPoint i armPoint
  let s2 := s1.register .windowStart i windowStart
  s2.register .windowEnd i windowEnd

/-- R161: a new arm lead, for one PENDING commitment. -/
def State.reloadArmPoint (armLead i : Nat) (c : Commitment) (s : State) : State :=
  let point := armPointOf c.windowStart armLead
  let s1 := (s.withdraw (ofKind .armPoint i)).modCommit i fun x => { x with armPoint := point }
  if s.now < point then
    ((s1.register .armPoint i point).withdraw (ofKind .windowStart i)).register
      .windowStart i c.windowStart
  else s1.modCommit i Commitment.arm

end Sys2Proof.Machine
end

