-- ==== Sys2Proof/Machine/LoadOps.lean ====
section
/-! DEFINITION. The load of the staged values (01 R9) with its effects on the clock, the ports, the
Readiness Evaluator and the Reserve Unit, and the effective base load (R12). -/

namespace Sys2Proof.Machine

open Sys2Proof

/-- R9: the staged copy becomes the live copy in one step. -/
def State.copyStaged (s : State) : State :=
  { s with site :=
    { s.site with
      live := s.site.staged, liveRatings := s.site.stagedRatings, loadPending := false } }

/-- R5, R6: the day number takes a greater value and one rollover crossing reaches the Bus Table. -/
def State.raiseDay (day : Int) (s : State) : State :=
  { s with clock := { s.clock with day := day } }.resetExportUsed

/-- R6: a new live rollover offset. -/
def State.reloadOffset (old : SiteParams) (s : State) : State :=
  let offset := s.site.live.rolloverOffset
  if old.rolloverOffset = offset ∨ s.clock.mode = .unset then s
  else
    let s1 := s.withdraw (ofKind .rollover 0)
    let day := dayFormula s.now offset
    (if s1.clock.day < day then s1.raiseDay day else s1).registerBoundary

/-- R98: an unidentified session that has received no FAULT_REPORT takes a new trickle power. -/
def Port.takeTrickle (watts : Nat) (p : Port) : Port :=
  match p.session with
  | some x => match x.binding with
    | .unidentified _ =>
      if p.lastFault = none then { p with session := some { x with importCap := watts } } else p
    | .bound _ => p
  | none => p

/-- R98: a new live trickle power. -/
def State.reloadTrickle (old : SiteParams) (s : State) : State :=
  if old.tricklePower = s.site.live.tricklePower then s
  else { s with ports := s.ports.map (Port.takeTrickle s.site.live.tricklePower) }

/-- R124: a new lockout window, for one bus. -/
def State.reloadLockoutPoint (i : Nat) (b : Bus) (s : State) : State :=
  match b.departure with
  | some d =>
    if d.state = .pending then (s.withdraw (ofKind .lockout i)).registerLockout i d.tDep else s
  | none => s

/-- R124: a new live export lockout window. -/
def State.reloadLockout (old : SiteParams) (s : State) : State :=
  if old.lockoutWindow = s.site.live.lockoutWindow then s
  else s.buses.rows.foldl (fun t r => t.reloadLockoutPoint r.1 r.2) s

/-- R161: a new live arm lead, in ascending slot order. -/
def State.reloadArmLead (old : SiteParams) (s : State) : State :=
  if old.armLead = s.site.live.armLead then s
  else s.commits.rows.foldl
    (fun t r => if r.2.state = .pending then t.reloadArmPoint s.site.live.armLead r.1 r.2 else t) s

/-- R9, R140: a load and its effects on the other blocks. -/
def State.load (s : State) : State :=
  (((s.copyStaged.reloadOffset s.site.live).reloadTrickle s.site.live).reloadLockout
    s.site.live).reloadArmLead s.site.live

/-- R9: a staging request loads at once while the engine is STOPPED. -/
def State.loadIfStopped (s : State) : State := if s.engine.running then s else s.load

/-- R9: the status of a request that staged a value. -/
def State.stagedStatus (s : State) : Status := if s.engine.running then .staged else .ok

/-! ### Base load -/

/-- R12: the age of a report, 0 when its time is later than depot time. -/
def LoadReport.age (now : Nat) (r : LoadReport) : Nat := now - r.time

/-- R12: the report that is fresh, if any. -/
def State.freshReport (s : State) : Option LoadReport :=
  match s.site.report with
  | some r => if r.age s.now ≤ s.site.live.baseHold then some r else none
  | none => none

/-- R12: the effective base load a computation is given. -/
def State.effectiveBase (s : State) : BaseLoad :=
  match s.freshReport with
  | some r => ⟨r.watts, false⟩
  | none => ⟨s.site.live.fallbackBase, true⟩

/-- R12: a computation takes the effective base load; a fallback opens a stale episode, a fresh report
ends one. -/
def State.takeBase (s : State) : State :=
  let base := s.effectiveBase
  let s1 := { s with site := { s.site with lastBase := some base, staleOpen := base.fallback } }
  if base.fallback && !s.site.staleOpen then s1.raiseSite SiteFlag.baseLoadStale else s1

end Sys2Proof.Machine
end

