-- ==== Sys2Proof/Machine/SessionOps.lean ====
section
/-! DEFINITION. Session end (04 R78), port faults (R79), the ends of CLOSING (R82), blocking faults
(02 R31, R32), the opening of sessions (05 R97, R100 to R103) and meter counts (06 R111 to R117). -/

namespace Sys2Proof.Machine

open Sys2Proof

/-! ### Blocking faults -/

/-- R31 item 1: an ENABLED bus is blocked. -/
def Bus.blockWith (r : FaultReason) (now : Nat) (b : Bus) : Bus :=
  { b with
    block := .blocked, faultReason := some r, faultTime := some now
    faultCount := addHalf b.faultCount 1 }.raise BusFlag.blocked

/-- R31 item 3: the port of a bus drops its setpoint to 0, in either direction. -/
def State.dropPower (i : Nat) (s : State) : State :=
  match s.bus i with
  | some b => match b.location with
    | some n => s.updPort n Port.zeroHeld
    | none => s
  | none => s

/-- R31, R32: a blocking fault reported for the bus in slot i. -/
def State.blockBus (i : Nat) (r : FaultReason) (s : State) : State :=
  match s.bus i with
  | none => s
  | some b =>
    if b.block = .enabled then
      ((s.putBus i (b.blockWith r s.now)).returnWalk i).dropPower i
    else s.putBus i { b with faultCount := addHalf b.faultCount 1 }

/-! ### Session end -/

/-- R78 items 1 and 4, R112: the port's part of a session end; a port without a session is left alone. -/
def Port.dropSession (p : Port) : Port :=
  match p.session with
  | none => p
  | some _ => { p with held := .zero, command := .opened, residue := 0, session := none, idle := 0 }

/-- R78 item 2, R29: the bus's part of a session end. -/
def State.detachBus (i : Nat) (unplug : Bool) (s : State) : State :=
  let s1 := ((s.modBus i fun b => { b with location := none }).pauseRunning i).modBus i
    (Bus.raise BusFlag.unplugged)
  if unplug then s1.takeCheck i else s1.awayIfPending i

/-- R78: a session ends, together with the port's own change f of state. -/
def State.endSession (n : PortNo) (unplug : Bool) (f : Port → Port) (s : State) : State :=
  let s1 := s.updPort n fun p => f p.dropSession
  match (s.port n).boundSlot with
  | some i => s1.detachBus i unplug
  | none => s1

/-! ### Port faults -/

/-- R79, R84: a pending transition ends recorded DROPPED. -/
def Port.dropTransition (now : Nat) (p : Port) : Port :=
  match p.pendingTarget with
  | some t => p.endTransition t .dropped now
  | none => p

/-- R99: an identification that ends without a session. -/
def Port.endIdentification (p : Port) : Port :=
  if p.state = .identifying then { p with attempts := 0 } else p

/-- R79: the port enters FAULTED with its setpoint 0, its contactor commanded open and the code. -/
def Port.intoFault (code : PortFault) (p : Port) : Port :=
  { { p with held := .zero, command := .opened }.enter .faulted with
    faultCode := some code }.raise PortFlag.fault

/-- R79 items 2 to 5: the port's part of a port fault. -/
def Port.faultInto (code : PortFault) (now : Nat) (p : Port) : Port :=
  ((p.dropTransition now).endIdentification).intoFault code

/-- R79: a port fault; in OFFLINE and FAULTED it is not taken. -/
def State.portFault (n : PortNo) (code : PortFault) (s : State) : State :=
  if (s.port n).state = .offline ∨ (s.port n).state = .faulted then s
  else s.endSession n false (Port.faultInto code s.now)

/-! ### CLOSING -/

/-- R81: a port enters CLOSING with a target. -/
def Port.enterClosing (t : PortTarget) (p : Port) : Port :=
  { p.zeroHeld with pendingTarget := some t }.enter .closing

/-- R82, first case: feedback open after the open command. -/
def State.closingEnd (n : PortNo) (s : State) : State :=
  let now := s.now
  let depotId := s.site.live.depotId
  match (s.port n).pendingTarget with
  | none => s
  | some .reidentify =>
    if (s.port n).taken = .plugged ∨ (s.port n).taken = .ready then
      s.endSession n false fun p =>
        (p.endTransition .reidentify .reached now).beginExchange depotId
    else s.endSession n false fun p => (p.endTransition .reidentify .dropped now).enter .vacant
  | some t => s.endSession n false fun p => (p.endTransition t .reached now).enter .offline

/-- R81, R82: the open command of CLOSING is given, and the quiet and the limit timer stop. -/
def State.commandOpen (n : PortNo) (s : State) : State :=
  s.updPort n fun p => { p with command := .opened, quiet := .stopped, limit := .stopped }

/-- R81, R82: a feedback that shows OPEN after the open command ends CLOSING. -/
def State.closingOpen (n : PortNo) (s : State) : State :=
  if (s.port n).openGiven = true ∧ (s.port n).feedback = .opened then s.closingEnd n else s

/-- R81: an expiry gives the open command of CLOSING; a feedback that already shows OPEN ends CLOSING at
once. -/
def State.giveOpen (n : PortNo) (s : State) : State := (s.commandOpen n).closingOpen n

/-- R73, R82 second case: an unplug. -/
def State.unplug (n : PortNo) (s : State) : State :=
  let now := s.now
  match (s.port n).pendingTarget with
  | some .reidentify =>
    s.endSession n true fun p => (p.endTransition .reidentify .dropped now).enter .vacant
  | some t => s.endSession n true fun p => (p.endTransition t .reached now).enter .offline
  | none => s.endSession n true fun p => p.enter .vacant

/-! ### Opening a session -/

/-- R85, R96: a port that opens a session goes to CONNECTED, or to HELD while the latch is set. -/
def State.openState (s : State) : PortState := if s.protection.latch then .held else .connected

/-- R65, R107: the figures of a session start anew at its opening. -/
def Port.openWith (x : Session) (p : Port) : Port :=
  { p with
    session := some x, sessionImport := 0, sessionExport := 0, stray := 0, wrongRun := 0
    lastApplied := none }

/-- R97: an unidentified session opens. -/
def State.openUnidentified (n : PortNo) (reason : UnidReason) (claimed : Option Nat) (s : State) :
    State :=
  s.updPort n fun p =>
    (({ p.openWith ⟨.unidentified reason, s.now, none, s.site.live.tricklePower, 0⟩ with
      claimed := claimed.orElse fun _ => p.claimed }).enter s.openState).raise PortFlag.unidentified

/-- R101: the report as the record takes it, and whether it was clamped. -/
def clampReport (capacity report : Nat) : Nat := min report capacity

/-- The absolute difference of two energies. -/
def absDiff (a b : Nat) : Nat := (a - b) + (b - a)

/-- R101: SoE is rebased on a report. -/
def Bus.rebase (tolerance report : Nat) (b : Bus) : Bus :=
  let r := clampReport b.capacity report
  let b1 := b.raiseIf (decide (b.capacity < report)) BusFlag.soeClamped
  let b2 := match b.soe with
    | some old =>
      if tolerance < absDiff old r then
        { b1 with discrepancy := some ⟨r, old⟩ }.raise BusFlag.soeDiscrepancy
      else b1
    | none => b1
  { b2 with soe := some r, source := .reported }

/-- R94: the report an ANNOUNCE carries; 4,294,967,295 is "not known". -/
def announceReport (m : Announce) : Option Nat :=
  if m.soe.toNat = maxWord then none else some m.soe.toNat

/-- R101 to R103 item 1: what a binding writes into the bus record. -/
def Bus.bindTo (n : PortNo) (tolerance : Nat) (m : Announce) (b : Bus) : Bus :=
  let b1 := { b with location := some n }
  let b2 := match announceReport m with
    | some r => b1.rebase tolerance r
    | none => b1
  (b2.raiseIf (decide (5 * b.capacity < 100 * absDiff m.capacity.toNat b.capacity))
    BusFlag.capacityMismatch).raise BusFlag.plugged

/-- R94: the announced values of an ANNOUNCE. -/
def announceValues (m : Announce) : Announced :=
  ⟨m.maxImport.toNat, m.maxExport.toNat, m.v2g != 0⟩

/-- R100: the bound session of a bus record. -/
def boundSession (i : Nat) (b : Bus) (a : Announced) (now : Nat) : Session :=
  ⟨.bound i, now, some a, (sessionCaps b a).1, (sessionCaps b a).2⟩

/-- R103 item 2: a taken level of FAULT is reported at the binding. -/
def State.reportFaultLevel (n : PortNo) (i : Nat) (s : State) : State :=
  if (s.port n).taken = .fault then s.blockBus i .pilotFault else s

/-- R100 to R103: a valid ANNOUNCE binds the session of port n to bus slot i, in one event. The port's
new state is written with its session, since no part of the event before R103 item 3 reads it. -/
def State.bindSession (n : PortNo) (i : Nat) (b : Bus) (m : Announce) (s : State) : State :=
  let s1 := s.updPort n fun p =>
    (p.openWith (boundSession i b (announceValues m) s.now)).enter s.openState
  let s2 := s1.modBus i (Bus.bindTo n s.site.live.soeTolerance m)
  (s2.reportFaultLevel n i).selection i

/-- R96: an ANNOUNCE taken while WAITING is judged against the Bus Table. -/
def State.judgeAnnounce (n : PortNo) (m : Announce) (s : State) : State :=
  match s.buses.rows.find? fun r => r.2.number == m.bus.toNat with
  | none => s.openUnidentified n .unknownBus (some m.bus.toNat)
  | some (i, b) =>
    if b.location.isSome then s.openUnidentified n .duplicateBus (some m.bus.toNat)
    else s.bindSession n i b m

/-! ### Meter counts -/

/-- One of a port's line filters. -/
def Port.line (l : MeterLine) (p : Port) : LineFilter :=
  match l with
  | .ma => p.ma
  | .mb => p.mb

/-- Changes one of a port's line filters. -/
def Port.setLine (l : MeterLine) (f : LineFilter → LineFilter) (p : Port) : Port :=
  match l with
  | .ma => { p with ma := f p.ma }
  | .mb => { p with mb := f p.mb }

def flipLevel : Level → Level
  | .low => .high
  | .high => .low

/-- R108: an output takes the sampled level and its counter becomes 0. -/
def LineFilter.take (level : Level) (f : LineFilter) : LineFilter :=
  { f with pin := level, output := level, counter := 0 }

/-- R109: a sample equal to the output, with the counter above 0. -/
def LineFilter.fallBack (record : Bool) (f : LineFilter) : LineFilter :=
  { f with pin := f.output, counter := f.counter - 1, glitch := f.glitch || record }

/-- R109: the port state in which glitch records are set. -/
def Port.recordsGlitch (p : Port) : Bool := p.state != .offline

/-- R108, R109: the glitch action on one line. -/
def Port.glitchLine (l : MeterLine) (p : Port) : Port :=
  let q := p.setLine l (LineFilter.fallBack p.recordsGlitch)
  if p.recordsGlitch then q.raise PortFlag.glitch else q

/-- R110: both outputs change at one sample: no count, both records, GLITCH. -/
def Port.moveBoth (p : Port) : Port :=
  let q := { p with
    ma := { p.ma.take (flipLevel p.ma.output) with glitch := p.ma.glitch || p.recordsGlitch }
    mb := { p.mb.take (flipLevel p.mb.output) with glitch := p.mb.glitch || p.recordsGlitch } }
  if p.recordsGlitch then q.raise PortFlag.glitch else q

/-- R110: the direction discriminator, from the line that moved and the outputs after it. -/
def countDir (moved : MeterLine) (ma mb : Level) : Dir :=
  match moved with
  | .ma => if ma = mb then .exp else .imp
  | .mb => if ma = mb then .imp else .exp

/-- R113: a stray count. -/
def Port.countStray (p : Port) : Port :=
  let q := { p with stray := addHalf p.stray 1 }
  if p.stray = 15 then q.raise PortFlag.meterStray else q

/-- R81: in CLOSING, before the open command, each count restarts the quiet timer. -/
def Port.restartQuiet (p : Port) : Port :=
  if p.quiet.isRunning then { p with quiet := .start 1000 } else p

/-- R114 item 1: the session's energy and the last applied count. -/
def Port.bookCount (d : Dir) (now : Nat) (p : Port) : Port :=
  let q := { p with lastApplied := some ⟨d, now⟩ }
  match d with
  | .imp => { q with sessionImport := addWord p.sessionImport p.energyPerCount }
  | .exp => { q with sessionExport := addWord p.sessionExport p.energyPerCount }
  | .none => q

/-- R114 item 3: a count moves a known SoE. -/
def Bus.moveSoe (d : Dir) (e : Nat) (b : Bus) : Bus :=
  match b.soe with
  | none => b
  | some soe => match d with
    | .imp =>
      { b.raiseIf (decide (b.capacity < soe + e)) BusFlag.soeClamped with
        soe := some (min (soe + e) b.capacity), source := .integrated }
    | .exp => { b with soe := some (soe - e), source := .integrated }
    | .none => b

/-- R114 item 2: the RUNNING plan of the bus books the count. -/
def State.bookPlan (i : Nat) (d : Dir) (e : Nat) (s : State) : State :=
  match s.bus i with
  | some b => match s.runningPlan b with
    | some j => s.modPlan j (Plan.book d e)
    | none => s
  | none => s

/-- R34, R115: an applied export count on the bus. -/
def State.useAllowance (i e : Nat) (s : State) : State :=
  match s.bus i with
  | some b =>
    let used := addWord b.exportUsed e
    if b.exportUsed < b.allowance ∧ b.allowance ≤ used then
      (s.putBus i ({ b with exportUsed := used }.raise BusFlag.allowanceUsed)).withdrawExport i
    else s.putBus i { b with exportUsed := used }
  | none => s

/-- R50, R51, R116: the kinds of step a count can end. -/
def StepKind.movesEnergy : StepKind → Bool
  | .importTo | .exportTo => true
  | .holdUntil => false

/-- R114 items 2 to 5: an applied count on a bound bus. -/
def State.applyToBus (i : Nat) (d : Dir) (e : Nat) (s : State) : State :=
  let s1 := (s.bookPlan i d e).modBus i (Bus.moveSoe d e)
  let s2 := if d = .exp then s1.useAllowance i e else s1
  (s2.testStep StepKind.movesEnergy i).readinessCount i

/-- R119: an applied count restarts the stall timer when its conditions hold. -/
def Port.restartStall (e : PortEnv) (p : Port) : Port :=
  if p.stallConditions then { p with stall := .start e.stall } else p

/-- R117: the run of wrong-direction counts. -/
def Port.moveRun (wrong : Bool) (p : Port) : Port :=
  { p with wrongRun := if wrong then min (p.wrongRun + 1) 4 else 0 }

/-- R117: the fourth wrong-direction count in a row reports METER_DIRECTION. -/
def State.checkRun (n : PortNo) (wrong : Bool) (s : State) : State :=
  if wrong ∧ (s.port n).wrongRun = 4 then s.portFault n .meterDirection else s

/-- R111: an applied count is wrong-direction when the live direction is opposite to the count's. -/
def Port.isWrong (d : Dir) (p : Port) : Bool := p.live.dir != .none && p.live.dir != d

/-- R114: an applied count on the bus of a bound session; an unidentified session has none. -/
def State.applyToSession (bound : Option Nat) (d : Dir) (e : Nat) (s : State) : State :=
  match bound with
  | some i => s.applyToBus i d e
  | none => s

/-- R114, R117: an applied count. -/
def State.appliedCount (n : PortNo) (d : Dir) (s : State) : State :=
  let p := s.port n
  let wrong := p.isWrong d
  let s1 := s.setPort n fun q => (q.bookCount d s.now).restartQuiet
  let s2 := s1.applyToSession p.boundSlot d p.energyPerCount
  (s2.setPort n fun q => (q.restartStall s2.env).moveRun wrong).checkRun n wrong

/-- R111: one count of a port is classified. -/
def State.count (n : PortNo) (d : Dir) (s : State) : State :=
  let p := s.port n
  if p.session.isNone then s.setPort n fun q => { q with idle := addHalf q.idle 1 }
  else if p.feedback = .opened then s.setPort n fun q => q.countStray.restartQuiet
  else s.appliedCount n d

/-- R108, R110: the output of one line takes a level, and the count it makes. -/
def State.lineMoved (n : PortNo) (l : MeterLine) (level : Level) (s : State) : State :=
  let s1 := s.setPort n (Port.setLine l (LineFilter.take level))
  s1.count n (countDir l (s1.port n).ma.output (s1.port n).mb.output)

end Sys2Proof.Machine
end

