-- ==== Sys2Proof/Machine/ClockOps.lean ====
section
/-! DEFINITION. What each owner does with a crossing (01 section 1.2), and the changes of depot time
(R1, R2, R4). -/

namespace Sys2Proof.Machine

open Sys2Proof

/-! ### Crossings -/

/-- R5: a rollover crossing; the next boundary is registered. -/
def State.actRollover (s : State) : State :=
  (s.raiseDay (dayFormula s.now s.site.live.rolloverOffset)).registerBoundary

/-- R49: a not-before crossing of a RUNNING plan. -/
def State.actNotBefore (i : Nat) (s : State) : State :=
  match s.plan i with
  | none => s
  | some p =>
    if p.state = .running ∧ p.cond = some .timedWait then
      match p.step?, s.bus p.busSlot with
      | some st, some b =>
        if st.kind ≠ .holdUntil ∧ b.soe = none then
          (s.putPlan i { p with cond := some .soeWait }).modBus p.busSlot (Bus.raise BusFlag.soeUnknown)
        else s.putPlan i { p with cond := some .active }
      | _, _ => s
    else s

/-- R52: a HOLD_UNTIL crossing of a RUNNING plan ends its hold. -/
def State.actHoldUntil (i : Nat) (s : State) : State :=
  match s.plan i with
  | some p => if p.state = .running then s.stepEnd p.busSlot i else s
  | none => s

/-- R53: an end-by crossing of a RUNNING plan. -/
def State.actEndBy (i : Nat) (s : State) : State :=
  match s.plan i with
  | some p => if p.state = .running then s.deadline p.busSlot i else s
  | none => s

/-- R125: the departure crossing of a PENDING part. -/
def State.actDeparture (i : Nat) (s : State) : State :=
  match s.bus i with
  | some b => match b.departure with
    | some d =>
      if d.state = .pending then
        (s.putBus i ({ b with departure := some { d with state := .overdue } }.setReadiness
          .overdue none)).withdrawDeparture i
      else s
    | none => s
  | none => s

/-- R124, R134: at the lockout point the bus leaves export eligibility. -/
def State.actLockout (i : Nat) (s : State) : State := s.withdrawExport i

/-- R160: the arm point. -/
def State.actArmPoint (i : Nat) (s : State) : State :=
  s.modCommit i fun c => if c.state = .pending then c.arm else c

/-- R160: the window start. -/
def State.actWindowStart (i : Nat) (s : State) : State :=
  s.modCommit i fun c => if c.state = .armed then { c with phase := .opened } else c

/-- R160, R170: the window end. -/
def State.actWindowEnd (i : Nat) (s : State) : State :=
  match s.commit i with
  | some c => match c.state with
    | .armed => s.endCommit i .notDispatched
    | .active => s.endNormally i c
    | _ => s
  | none => s

/-- R3: a crossing reaches its owner. -/
def State.handOver (r : Registration) (s : State) : State :=
  match r.kind with
  | .rollover => s.actRollover
  | .notBefore => s.actNotBefore r.slot
  | .endBy => s.actEndBy r.slot
  | .holdUntil => s.actHoldUntil r.slot
  | .departure => s.actDeparture r.slot
  | .lockout => s.actLockout r.slot
  | .armPoint => s.actArmPoint r.slot
  | .windowStart => s.actWindowStart r.slot
  | .windowEnd => s.actWindowEnd r.slot

/-- A fired registration that is handed over waits no longer. -/
def State.unfire (r : Registration) (s : State) : State :=
  { s with clock := { s.clock with fired := s.clock.fired.erase r } }

/-- R3: the crossing of an owner that comes next, if one waits. -/
def State.nextCrossing (owner : Nat) (s : State) : Option Registration :=
  s.clock.fired.find? fun r => r.kind.owner == owner

/-- The crossings that wait are handed over, in order; n bounds their number (log 22). -/
def State.handOverAll : Nat → State → State
  | 0, s => s
  | n + 1, s => match s.clock.fired with
    | [] => s
    | r :: _ => ((s.unfire r).handOver r).handOverAll n

/-- Every crossing that waits is handed over (log 7). -/
def State.settleCrossings (s : State) : State := s.handOverAll s.clock.fired.length

/-! ### Changes of depot time -/

/-- R1, R2: depot time takes a value and the second restarts. -/
def State.setDepotTime (t : Nat) (s : State) : State :=
  { s with clock := { s.clock with time := t, phase := 0 } }

/-- R1, R3: the end of a second: depot time increases by one, and what falls due fires. At
4,294,967,295 depot time stays. -/
def State.advanceSecond (s : State) : State :=
  let s1 := s.settleCrossings
  if s1.now < maxWord then
    (s1.setDepotTime (s1.now + 1)).fire fun r => r.time == s1.now + 1
  else s1.setDepotTime s1.now

/-- R2, R5: the first SET_TIME. -/
def State.firstTime (v : Nat) (s : State) : State :=
  let day := dayFormula v s.site.live.rolloverOffset
  let s1 := s.setDepotTime v
  let s2 := { s1 with clock := { s1.clock with mode := .set, day := day } }
  ((s2.fire fun r => decide (r.time ≤ v)).settleCrossings).registerBoundary

/-- R4: a forward jump. -/
def State.jumpTo (v : Nat) (s : State) : State :=
  let s1 := (s.settleCrossings).setDepotTime v
  ((s1.fire fun r => decide (r.time ≤ v)).settleCrossings).raiseSite SiteFlag.timeJump

/-- R2: a step back, at most 60 s; no registration fires. -/
def State.stepBack (v : Nat) (s : State) : State := (s.settleCrossings).setDepotTime v

end Sys2Proof.Machine
end

