-- ==== Sys2Proof/Machine/AllocOps.lean ====
section
/-! DEFINITION. The allocation computation (08), stage by stage. -/

namespace Sys2Proof.Machine

open Sys2Proof

/-- Grants by port: the ports of a tier, in its order, each with its power. -/
abbrev Grants := List (PortNo × Nat)

/-- A port's grant, 0 where the list has none. -/
def Grants.of (g : Grants) (n : PortNo) : Nat :=
  match g.find? fun r => r.1 == n with
  | some r => r.2
  | none => 0

/-- The power of a list of grants. -/
def Grants.total (g : Grants) : Nat := (g.map Prod.snd).sum

/-! ### Who is served (R141) -/

/-- R141: a port is servable. -/
def Port.servable (p : Port) : Bool :=
  p.session.isSome
  && (p.state == .connected || p.state == .energizing || p.state == .energized)
  && p.taken == .ready

/-- The bus a servable port serves: its slot and record. -/
def State.served (s : State) (n : PortNo) : Option (Nat × Bus) :=
  if (s.port n).servable then
    match (s.port n).boundSlot with
    | some i => (s.bus i).map fun b => (i, b)
    | none => none
  else none

/-- The RUNNING plan of a bus in step condition ACTIVE, with its current step (R48). -/
def State.activeStep (s : State) (b : Bus) : Option (PlanClass × PlanStep) :=
  match s.runningPlan b with
  | none => none
  | some i => match s.plan i with
    | none => none
    | some p => if p.cond = some .active then p.step?.map fun st => (p.cls, st) else none

/-! ### Stages 1 and 2 (R140, R142) -/

/-- R140: available import A. -/
def State.available (s : State) (base : BaseLoad) : Nat :=
  s.site.live.feederLimit - base.watts - s.site.live.margin

/-- R129, R142: readiness state and slack of every enrolled bus. -/
def State.workReadiness (s : State) : State :=
  { s with buses := ⟨s.buses.rows.map fun r =>
      (r.1, r.2.setReadiness (s.readinessNow r.2).1 (s.readinessNow r.2).2)⟩ }

/-! ### Stage 3, tier A (R143) -/

/-- The candidates with a floor: port, floor and slack. -/
def State.floorCandidates (s : State) : List (PortNo × Nat × Int) :=
  (allPorts.map fun n => match s.served n with
    | some (_, b) => (n, (s.floorOf b).1, (s.floorOf b).2)
    | none => (n, 0, 0)).filter fun c => decide (0 < c.2.1)

/-- The request of an unidentified session: down100 of the lesser of its cap and the live rating. -/
def State.trickleRequest (s : State) (n : PortNo) : Nat :=
  if (s.port n).servable && (s.port n).boundSlot.isNone then
    down100 (min (s.port n).sessionImportCap (s.rating n).imp)
  else 0

/-- R143: the candidates of tier A with their requests, in order. -/
def State.tierACandidates (s : State) : Grants :=
  ((sortBy (fun a b => decide (a.2.2 ≤ b.2.2)) s.floorCandidates).map fun c => (c.1, c.2.1))
    ++ ((allPorts.map fun n => (n, s.trickleRequest n)).filter fun c => decide (0 < c.2))

/-- R143: the candidates are served in order from the remaining import. -/
def serveTierA : Nat → Grants → Grants
  | _, [] => []
  | q, (n, r) :: rest => if r ≤ q then (n, r) :: serveTierA (q - r) rest else [(n, down100 q)]

/-! ### Stage 4, the budget (R144) -/

/-- R144: U. -/
def State.budget (s : State) (available tierATotal : Nat) : Nat :=
  if s.supervision.state = .fallback then 0
  else match s.activeCommit with
    | some (_, c) => min available c.capNet.toNat - tierATotal
    | none => available - tierATotal

/-! ### Stage 5, the proportional split (R145 to R150) -/

/-- R145: the tier a port is in and its request, with the tier-A grant it holds. -/
def State.tierRequest (s : State) (tierA : Grants) (n : PortNo) : SplitTier × Nat :=
  match s.served n with
  | none => (.none, 0)
  | some (_, b) => match s.activeStep b with
    | none => (.none, 0)
    | some (cls, st) =>
      let c := down100 (min (min st.cap (s.port n).sessionImportCap) (s.rating n).imp - tierA.of n)
      if st.kind = .importTo ∧ 0 < c then
        ((match cls with | .priority => SplitTier.b | .standard => SplitTier.c), c)
      else (.none, 0)

/-- R146: the residue a port carries into its tier. -/
def State.carried (s : State) (n : PortNo) (tier : SplitTier) : Int :=
  if s.engine.ports[n].split = tier then (s.port n).residue else 0

/-- One port of a split: its request c_k, adjusted share a_k and rounded share. -/
structure Share where
  port : PortNo
  req  : Nat
  adj  : Int
  got  : Nat
deriving DecidableEq, Repr

/-- R147 step 3: the remainder a_k - q_k. -/
def Share.remainder (x : Share) : Int := x.adj - (x.got : Int)

/-- R147: the rounded share of one port. -/
def shareOf (q total : Nat) (n : PortNo) (req : Nat) (residue : Int) : Share :=
  let a := min (req : Int) ((q * req / total : Nat) + residue)
  ⟨n, req, a, down100 a.toNat⟩

/-- The power of a list of shares. -/
def sharesTotal (xs : List Share) : Nat := (xs.map Share.got).sum

/-- R148: one pass down the order, taking 100 W back from each share of 100 or more while the sum
exceeds Q. -/
def takePass (q : Nat) : Nat → List Share → List Share
  | _, [] => []
  | total, x :: xs =>
    if q < total ∧ 100 ≤ x.got then { x with got := x.got - 100 } :: takePass q (total - 100) xs
    else x :: takePass q total xs

/-- R148: passes are repeated until the sum is at or below Q; n bounds them (log 22). -/
def takeBack (q : Nat) : Nat → List Share → List Share
  | 0, xs => xs
  | n + 1, xs => if q < sharesTotal xs then takeBack q n (takePass q (sharesTotal xs) xs) else xs

/-- R148: the order, lowest remainder first, then descending port number. -/
def takeOrder (a b : Share) : Bool :=
  decide (a.remainder < b.remainder)
    || (decide (a.remainder = b.remainder) && decide (b.port.val ≤ a.port.val))

/-- R149: one round down the order, handing 100 W to each share below its request while 100 W or more
is left. -/
def givePass : Nat → List Share → List Share
  | _, [] => []
  | left, x :: xs =>
    if 100 ≤ left ∧ x.got < x.req then { x with got := x.got + 100 } :: givePass (left - 100) xs
    else x :: givePass left xs

/-- R149: the order of a round, highest remainder first, then ascending port number. -/
def giveOrder (a b : Share) : Bool :=
  decide (b.remainder < a.remainder)
    || (decide (a.remainder = b.remainder) && decide (a.port.val ≤ b.port.val))

/-- R149: rounds while 100 W or more is left; n bounds them (log 22). -/
def handOut (q : Nat) : Nat → List Share → List Share
  | 0, xs => xs
  | n + 1, xs =>
    if 100 ≤ q - sharesTotal xs then
      handOut q n (givePass (q - sharesTotal xs) (sortBy giveOrder xs))
    else xs

/-- R147 to R149: the split of Q among the ports of a tier. -/
def splitShares (q : Nat) (xs : List Share) : List Share :=
  let ys := takeBack q (sharesTotal xs / 100 + 1) (sortBy takeOrder xs)
  handOut q (q / 100 + 1) ys

/-- R150: the residue a port keeps. -/
def Share.residue (x : Share) : Int :=
  if x.got = x.req then 0 else clampInt (-100) 99 x.remainder

/-- R146: a tier's ports with their requests and carried residues are served from Q. -/
def serveTier (q : Nat) (xs : List (PortNo × Nat × Int)) : List Share :=
  let total := (xs.map fun x => x.2.1).sum
  if total ≤ q then xs.map fun x => ⟨x.1, x.2.1, x.2.1, x.2.1⟩
  else splitShares q (xs.map fun x => shareOf q total x.1 x.2.1 x.2.2)

/-- R146: the ports of a tier, ascending, with requests and carried residues. -/
def State.tierPorts (s : State) (tierA : Grants) (tier : SplitTier) : List (PortNo × Nat × Int) :=
  (allPorts.filter fun n => (s.tierRequest tierA n).1 == tier).map fun n =>
    (n, (s.tierRequest tierA n).2, s.carried n tier)

/-- The share of a port in a tier. -/
def shareFor (xs : List Share) (n : PortNo) : Option Share := xs.find? fun x => x.port == n

/-! ### Stage 6, plan exports (R151) -/

/-- R151: the plan export grant of a port. -/
def State.planExport (s : State) (n : PortNo) : Nat :=
  match s.served n with
  | none => 0
  | some (i, b) => match s.activeStep b with
    | none => 0
    | some (_, st) =>
      if st.kind = .exportTo ∧ s.exportEligible i b = true then
        down100 (min (min st.cap (s.port n).sessionExportCap) (s.rating n).exp)
      else 0

/-! ### Stage 7, reserve export (R152) -/

/-- R152: the export that relief needs. -/
def exportNeed (importTotal exportTotal : Nat) (capNet : Int) : Nat :=
  roundup100 ((importTotal : Int) - (exportTotal : Int) - capNet).toNat

/-- R152: the candidates, port, surplus and room, ascending port number before the sort. -/
def State.reserveCandidates (s : State) (imports exports : PortNo → Nat) : List (PortNo × Int × Nat) :=
  allPorts.filterMap fun n => match s.served n with
    | none => none
    | some (i, b) =>
      if s.exportEligible i b = true ∧ imports n = 0 then
        some (n, ((b.soe.getD 0 : Nat) : Int) - (b.dischargeFloor : Int),
          down100 (min (s.port n).sessionExportCap (s.rating n).exp) - exports n)
      else none

/-- R152: the candidates are granted their room, or what is still needed. -/
def serveReserve : Nat → List (PortNo × Int × Nat) → Grants
  | _, [] => []
  | need, (n, _, room) :: rest => (n, min room need) :: serveReserve (need - min room need) rest

/-! ### The working of one computation -/

/-- What stages 1 to 7 have worked out. -/
structure Working where
  base      : BaseLoad
  available : Nat
  tierA     : Grants
  budget    : Nat
  tierB     : List Share
  tierC     : List Share
  reserve   : Grants

/-- The import grant of a port: tier A and tier B or C (R153). -/
def importGrant (tierA : Grants) (b c : List Share) (n : PortNo) : Nat :=
  tierA.of n + ((shareFor b n).map Share.got).getD 0 + ((shareFor c n).map Share.got).getD 0

/-- R152: the reserve export grants, none unless a commitment is ACTIVE and supervision SUPERVISED. -/
def State.reserveGrants (s : State) (imports : PortNo → Nat) : Grants :=
  match s.activeCommit with
  | some (_, c) =>
    if s.supervision.state = .supervised then
      let need := exportNeed (allPorts.map imports).sum (allPorts.map s.planExport).sum c.capNet
      serveReserve need
        (sortBy (fun x y => decide (y.2.1 ≤ x.2.1)) (s.reserveCandidates imports s.planExport))
    else []
  | none => []

/-- Stages 1 to 7, over the state that the load, the base load and stage 2 have left. -/
def State.work (s : State) : Working :=
  let base := s.effectiveBase
  let a := s.available base
  let tierA := serveTierA a s.tierACandidates
  let u := s.budget a tierA.total
  let b := serveTier u (s.tierPorts tierA .b)
  let c := serveTier (u - sharesTotal b) (s.tierPorts tierA .c)
  { base := base, available := a, tierA := tierA, budget := u, tierB := b, tierC := c
    reserve := s.reserveGrants (importGrant tierA b c) }

/-! ### Stage 8 (R153 to R155) -/

/-- R153: the computed direction. -/
def computedDir (importW exportW : Nat) : Dir :=
  if 0 < importW then .imp else if 0 < exportW then .exp else .none

/-- R153: the rest removes a grant that would change the port's direction too soon. -/
def Port.restRemoves (p : Port) (now rest : Nat) (d : Dir) : Bool :=
  d != .none && p.lastDir != .none && d != p.lastDir
    && !(decide (p.held.mag = 0) && (match p.zeroSince with
          | some z => decide (rest ≤ now - z)
          | none => false))

/-- R153, R154: the setpoint of a port after stage 8. -/
def formSetpoint (latch removed : Bool) (importW exportW : Nat) : Setpoint :=
  if latch || removed then .zero
  else if 0 < importW then .make .imp importW
  else .make .exp exportW

/-- R155: one port's recorded results. -/
def State.portResult (s : State) (w : Working) (n : PortNo) : PortResult :=
  let splitGrant :=
    ((shareFor w.tierB n).map Share.got).getD 0 + ((shareFor w.tierC n).map Share.got).getD 0
  let importW := w.tierA.of n + splitGrant
  let planW := s.planExport n
  let reserveW := w.reserve.of n
  let removed := (s.port n).restRemoves s.now s.site.live.reversalRest
    (computedDir importW (planW + reserveW))
  { tierA := w.tierA.of n
    split := (s.tierRequest w.tierA n).1
    splitGrant := splitGrant
    planExport := planW
    reserveExport := reserveW
    restRemoved := removed
    published := formSetpoint s.protection.latch removed importW (planW + reserveW) }

/-- R146, R150: a port's residue after a computation. -/
def State.newResidue (s : State) (w : Working) (n : PortNo) : Int :=
  match shareFor w.tierB n, shareFor w.tierC n with
  | some x, _ => x.residue
  | none, some x => x.residue
  | none, none => s.carried n .none

/-- R66, R76: a port takes a publication; a close whose feedback already shows CLOSED is confirmed. -/
def Port.publish (latch : Bool) (sp : Setpoint) (p : Port) : Port :=
  match p.state with
  | .connected =>
    if sp.mag ≠ 0 ∧ p.taken = .ready ∧ latch = false then
      let q := { p with held := sp, command := .closed }
      if p.feedback = .closed then q.enter .energized else q.enter .energizing
    else p
  | .energizing => { p with held := sp }
  | .energized => { p with held := sp }
  | _ => p

/-- R154: the publication reaches all 24 ports together; each keeps its new residue (R150). -/
def State.publishAll (s : State) (w : Working) : State :=
  s.updPorts fun n p =>
    { p.publish s.protection.latch (s.portResult w n).published with residue := s.newResidue w n }

/-- The import of a setpoint. -/
def Setpoint.importW (x : Setpoint) : Nat := if x.dir = .imp then x.mag else 0

/-- The export of a setpoint. -/
def Setpoint.exportW (x : Setpoint) : Nat := if x.dir = .exp then x.mag else 0

/-- R155: the summary. -/
def State.summaryOf (s : State) (w : Working) (results : Vector PortResult 24) : Summary :=
  let i := (results.toList.map fun r => r.published.importW).sum
  let e := (results.toList.map fun r => r.published.exportW).sum
  { time := s.now
    available := w.available
    base := w.base
    tierATotal := w.tierA.total
    budget := w.budget
    importTotal := i
    exportTotal := e
    net := (i : Int) - (e : Int)
    supervision := s.supervision.state
    commitActive := s.activeCommit.isSome }

/-- R136, R155: the recorded results, and the timer started afresh with the live period. -/
def State.recordAll (s before : State) (w : Working) : State :=
  let results : Vector PortResult 24 := Vector.ofFn fun n => before.portResult w n
  { s with engine :=
    { s.engine with
      timer := .start (s.site.live.allocPeriod * 1000)
      number := addWord s.engine.number 1
      summary := some (before.summaryOf w results)
      ports := results } }

/-- What a computation reads: the state after the load, the effective base load and stage 2. -/
def State.prepared (s : State) : State := s.load.takeBase.workReadiness

/-- R139: one allocation computation. -/
def State.compute (s : State) : State :=
  let p := s.prepared
  let w := p.work
  ((p.publishAll w).recordAll p w).reserveReads

end Sys2Proof.Machine
end

