-- ==== Sys2Proof/Config.lean ====
section
/-! DEFINITION. What an implementation fixes and the manual leaves open: free values, with no body. -/

namespace Sys2Proof

/-- DESIGN CHOICE, safe. The byte at an offset of a BUS_LOOKUP result that holds an absent field for
which 11 section 11.6 states no value (view, offset). Assumption log 14. -/
opaque Config.absentByte : Nat → Nat → Byte

/-- DESIGN CHOICE, safe. The byte at an offset, 6 to 13, of a 14-byte step record of PLAN_LOOKUP that
holds a time which is absent; 03 R62 and 11 section 11.6 state no value. Assumption log 36. -/
opaque Config.absentStepByte : Nat → Byte

/-- DESIGN CHOICE, safe. The result length, by request kind, of a completion whose result has no byte
layout in 11 section 11.6; 0 to 54 (R194). Assumption log 15. -/
opaque Config.resultLength : Nat → Fin 55

end Sys2Proof
end

