-- ==== Sys2Proof/Machine/Operands.lean ====
section
/-! DEFINITION. What a request's header and payload carry: keys and ids (R16, R39, R157), flags (R194),
step records (section 11.6), request kinds, and the carried fields' checks. -/

namespace Sys2Proof

open Sys2Proof.Machine

/-! ### The parts of a request -/

/-- The number of a request's kind. -/
def ReqBody.kind : ReqBody → Byte
  | .setTime _ => 1
  | .siteConfigure _ => 2
  | .siteLoadReport _ => 3
  | .siteLookup _ _ => 4
  | .busEnrol _ => 5
  | .busChange _ => 6
  | .busRetire => 7
  | .busLookup => 8
  | .busPlans => 9
  | .busUnblock => 10
  | .departureSet _ _ _ => 11
  | .departureClear => 12
  | .planSubmit _ _ _ _ => 13
  | .planCancel => 14
  | .planRetire => 15
  | .planLookup => 16
  | .portGo _ _ => 17
  | .portCancel _ => 18
  | .portConfigure _ _ => 19
  | .portLookup _ => 20
  | .allocStart => 21
  | .allocStop => 22
  | .allocLookup _ _ => 23
  | .commitOffer _ _ _ _ => 24
  | .commitWithdraw => 25
  | .commitDispatch => 26
  | .commitRelease => 27
  | .commitLookup => 28
  | .commitRetire => 29
  | .clearTrip => 30
  | .keepalive => 31
  | .attentionScan => 32
  | .attentionClear _ _ => 33
  | .unknownKind k => k

/-- The request that a command is the taking of (R188); an event's command takes none. -/
def Instr.request : Instr → Option Request
  | .setTime h v => some ⟨h, .setTime v⟩
  | .siteConfigure h f => some ⟨h, .siteConfigure f⟩
  | .siteLoadReport h watts => some ⟨h, .siteLoadReport watts⟩
  | .siteLookup h selector port => some ⟨h, .siteLookup selector port⟩
  | .busEnrol h p => some ⟨h, .busEnrol p⟩
  | .busChange h p => some ⟨h, .busChange p⟩
  | .busRetire h => some ⟨h, .busRetire⟩
  | .busLookup h => some ⟨h, .busLookup⟩
  | .busPlans h => some ⟨h, .busPlans⟩
  | .busUnblock h => some ⟨h, .busUnblock⟩
  | .departureSet h tDep eReq route => some ⟨h, .departureSet tDep eReq route⟩
  | .departureClear h => some ⟨h, .departureClear⟩
  | .planSubmit h s1 s2 s3 s4 => some ⟨h, .planSubmit s1 s2 s3 s4⟩
  | .planCancel h => some ⟨h, .planCancel⟩
  | .planRetire h => some ⟨h, .planRetire⟩
  | .planLookup h => some ⟨h, .planLookup⟩
  | .portGo h port target => some ⟨h, .portGo port target⟩
  | .portCancel h port => some ⟨h, .portCancel port⟩
  | .portConfigure h port p => some ⟨h, .portConfigure port p⟩
  | .portLookup h port => some ⟨h, .portLookup port⟩
  | .allocStart h => some ⟨h, .allocStart⟩
  | .allocStop h => some ⟨h, .allocStop⟩
  | .allocLookup h selector port => some ⟨h, .allocLookup selector port⟩
  | .commitOffer h windowStart windowEnd target tolerance => some ⟨h, .commitOffer windowStart windowEnd target tolerance⟩
  | .commitWithdraw h => some ⟨h, .commitWithdraw⟩
  | .commitDispatch h => some ⟨h, .commitDispatch⟩
  | .commitRelease h => some ⟨h, .commitRelease⟩
  | .commitLookup h => some ⟨h, .commitLookup⟩
  | .commitRetire h => some ⟨h, .commitRetire⟩
  | .clearTrip h => some ⟨h, .clearTrip⟩
  | .keepalive h => some ⟨h, .keepalive⟩
  | .attentionScan h => some ⟨h, .attentionScan⟩
  | .attentionClear h category flags => some ⟨h, .attentionClear category flags⟩
  | .unknownKind h kind => some ⟨h, .unknownKind kind⟩
  | _ => none

/-- R194: flags bit 1 selects view 1. -/
def ReqHeader.view1 (h : ReqHeader) : Bool := h.flags.getLsbD 1

/-- R194: flags bit 2 with bit 1 set selects view 2 of PLAN_LOOKUP. -/
def ReqHeader.view2 (h : ReqHeader) : Bool := h.flags.getLsbD 1 && h.flags.getLsbD 2

/-- Flags bits 1 to 0: the class. -/
def ReqHeader.planClass (h : ReqHeader) : Option PlanClass :=
  match (h.flags.extractLsb' 0 2).toNat with
  | 0 => some .priority
  | 1 => some .standard
  | _ => none

/-- Flags bit 2: the UNBLOCK flag. -/
def ReqHeader.unblock (h : ReqHeader) : Bool := h.flags.getLsbD 2

/-- Flags bits 5 to 3: the step count. -/
def ReqHeader.stepCount (h : ReqHeader) : Nat := (h.flags.extractLsb' 3 3).toNat

/-- Bits 15 to 14 of a step record: the kind; 3 is refused. -/
def RawStep.kind (r : RawStep) : Option StepKind :=
  match (r.head.extractLsb' 14 2).toNat with
  | 0 => some .importTo
  | 1 => some .exportTo
  | 2 => some .holdUntil
  | _ => none

/-- Bits 11 to 0 of a step record: the power cap in units of 100 W. -/
def RawStep.capUnits (r : RawStep) : Nat := (r.head.extractLsb' 0 12).toNat

/-- R41, R45 item 2: a carried step as stored, absent when its kind is unknown or its cap below 100 W. -/
def RawStep.store (capacity : Nat) (r : RawStep) : Option PlanStep :=
  match r.kind with
  | none => none
  | some k =>
    if r.capUnits = 0 then none
    else some
      { kind := k
        value := if k = .importTo then min r.value.toNat capacity else r.value.toNat
        cap := min r.capUnits 1500 * 100
        notBefore := if r.head.getLsbD 13 then some r.notBefore.toNat else none
        endBy := if r.head.getLsbD 12 then some r.endBy.toNat else none }

/-- R44 check 2: every read step as stored, absent when one of them is refused. -/
def storeSteps (capacity : Nat) : List RawStep → Option (List PlanStep)
  | [] => some []
  | r :: rs => match r.store capacity, storeSteps capacity rs with
    | some x, some xs => some (x :: xs)
    | _, _ => none

/-- An absent field passes; a carried one must lie in its range. -/
def inRange (lo hi : Nat) : Option Word → Bool
  | none => true
  | some w => decide (lo ≤ w.toNat) && decide (w.toNat ≤ hi)

/-- R7, R10: every carried field is in its range. -/
def SitePatch.ok (f : SitePatch) : Bool :=
  inRange 0 4000000 f.feederLimit && inRange 0 500000 f.margin && inRange 0 4000000 f.fallbackBase
  && inRange 1 600 f.baseHold && inRange 1 30 f.allocPeriod && inRange 2 60 f.reversalRest
  && inRange 0 7200 f.guardTime && inRange 0 14400 f.atRisk && inRange 0 43200 f.lockoutWindow
  && inRange 0 14400 f.takeWindow && inRange 0 22000 f.tricklePower && inRange 0 7200 f.armLead
  && inRange 5 600 f.supervision && inRange 0 86399 f.rolloverOffset && inRange 10 600 f.stallTime
  && inRange 0 50000 f.soeTolerance && inRange 0 65535 f.depotId

/-- Every marker is set (R10). -/
def SitePatch.empty (f : SitePatch) : Bool :=
  f.feederLimit.isNone && f.margin.isNone && f.fallbackBase.isNone && f.baseHold.isNone
  && f.allocPeriod.isNone && f.reversalRest.isNone && f.guardTime.isNone && f.atRisk.isNone
  && f.lockoutWindow.isNone && f.takeWindow.isNone && f.tricklePower.isNone && f.armLead.isNone
  && f.supervision.isNone && f.rolloverOffset.isNone && f.stallTime.isNone && f.soeTolerance.isNone
  && f.depotId.isNone

/-- A field keeps its value when its marker is set. -/
def keep (old : Nat) : Option Word → Nat
  | none => old
  | some w => w.toNat

/-- R10: the carried fields, written into a copy. -/
def SitePatch.write (f : SitePatch) (p : SiteParams) : SiteParams where
  feederLimit := keep p.feederLimit f.feederLimit
  margin := keep p.margin f.margin
  fallbackBase := keep p.fallbackBase f.fallbackBase
  baseHold := keep p.baseHold f.baseHold
  allocPeriod := keep p.allocPeriod f.allocPeriod
  reversalRest := keep p.reversalRest f.reversalRest
  guardTime := keep p.guardTime f.guardTime
  atRisk := keep p.atRisk f.atRisk
  lockoutWindow := keep p.lockoutWindow f.lockoutWindow
  takeWindow := keep p.takeWindow f.takeWindow
  tricklePower := keep p.tricklePower f.tricklePower
  armLead := keep p.armLead f.armLead
  supervision := keep p.supervision f.supervision
  rolloverOffset := keep p.rolloverOffset f.rolloverOffset
  stallTime := keep p.stallTime f.stallTime
  soeTolerance := keep p.soeTolerance f.soeTolerance
  depotId := keep p.depotId f.depotId

/-- R21: the record's configurable fields as they would stand after the request. -/
def BusPatch.write (f : BusPatch) (b : Bus) : Bus :=
  { b with
    capacity := keep b.capacity f.capacity
    importCap := keep b.importCap f.importCap
    exportCap := keep b.exportCap f.exportCap
    v2g := f.v2g.getD b.v2g
    floor := keep b.floor f.floor
    allowance := keep b.allowance f.allowance }

/-- Every marker is set (R21). -/
def BusPatch.empty (f : BusPatch) : Bool :=
  f.capacity.isNone && f.importCap.isNone && f.exportCap.isNone && f.v2g.isNone && f.floor.isNone
  && f.allowance.isNone

end Sys2Proof

namespace Sys2Proof.Machine

open Sys2Proof

/-! ### Replies -/

/-- What a block answers to the executor: the state after the request, the status and the result. -/
structure Reply where
  state  : State
  status : Status
  result : Result

/-- A refused request changes no state (00, Requests and completions). -/
def refuse (s : State) (st : Status) : Reply := ⟨s, st, .none⟩

/-! ### Keys and ids -/

/-- R16: the enrolled record that holds a bus number. -/
def State.findBus (s : State) (number : Nat) : Option (Nat × Bus) :=
  s.buses.rows.find? fun r => r.2.number == number

/-- R16 for BUS_LOOKUP and BUS_PLANS: by number, or by slot when the by-slot flag (bit 0) is set. -/
def State.resolveBus (s : State) (h : ReqHeader) : Except Status (Nat × Bus) :=
  if h.flags.getLsbD 0 then
    if 191 < h.key.toNat then .error .outOfRange
    else match s.bus h.key.toNat with
      | some b => .ok (h.key.toNat, b)
      | none => .error .notFound
  else match s.findBus h.key.toNat with
    | some x => .ok x
    | none => .error .notFound

/-- R194: the slot of an id in a key, bytes 4 to 5 of the request. -/
def keySlot (k : Word) : Nat := (k.extractLsb' 0 16).toNat

/-- R194: the generation of an id in a key, byte 6 of the request. Byte 7 is not read, which is the model's choice
(log 39). -/
def keyGen (k : Word) : Nat := (k.extractLsb' 16 8).toNat

/-- R39: a plan id, of PLAN_LOOKUP as of the others: there is no form by slot alone (log 40). -/
def State.resolvePlan (s : State) (h : ReqHeader) : Except Status (Nat × Plan) :=
  if 511 < keySlot h.key then .error .outOfRange
  else match s.plan (keySlot h.key) with
    | some p => if p.generation = keyGen h.key then .ok (keySlot h.key, p) else .error .staleId
    | none => .error .staleId

/-- R157: a commitment id. -/
def State.resolveCommit (s : State) (h : ReqHeader) : Except Status (Nat × Commitment) :=
  if 15 < keySlot h.key then .error .outOfRange
  else match s.commit (keySlot h.key) with
    | some c => if c.generation = keyGen h.key then .ok (keySlot h.key, c) else .error .staleId
    | none => .error .staleId

/-- A carried port number, 0 to 23. -/
def portOf (w : Word) : Option PortNo := if h : w.toNat < 24 then some ⟨w.toNat, h⟩ else none

/-! ### Bus fields (R17, R19, R21) -/

/-- The ranges of R17 over a record's configurable fields. -/
def busFieldsOk (capacity importCap exportCap floor allowance : Nat) : Bool :=
  decide (10000 ≤ capacity) && decide (capacity ≤ 600000) && decide (importCap ≤ 150000)
  && decide (exportCap ≤ 60000) && decide (floor ≤ capacity) && decide (allowance ≤ capacity)

/-! ### Port operands (R80, R88) -/

/-- PORT_GO's target (log 6). -/
def targetOf (b : Byte) : Option PortTarget :=
  match b.toNat with
  | 0 => some .offline
  | 1 => some .vacant
  | 2 => some .reidentify
  | _ => none

/-- R88: a carried rating, rounded down to a 100 W multiple and clamped to its maximum. -/
def stageRating (top old : Nat) : Option Word → Nat
  | none => old
  | some w => min (down100 w.toNat) top

end Sys2Proof.Machine
end

