-- ==== Sys2Proof/Machine/Codec.lean ====
section
/-! DEFINITION. Byte layouts: the data channel's messages (05 R92, R93), the completion header and the
layouts of 11 section 11.6. Ring records are little-endian (R183), messages most significant byte first. -/

namespace Sys2Proof.Machine

open Sys2Proof

/-- n bytes of a value, least significant first (R183). -/
def leBytes : Nat → Nat → List Byte
  | 0, _ => []
  | n + 1, v => BitVec.ofNat 8 v :: leBytes n (v / 256)

/-- The value of bytes, least significant first. -/
def leValue : List Byte → Nat
  | [] => 0
  | b :: bs => b.toNat + 256 * leValue bs

/-- n bytes of a value, most significant first (R92). -/
def beBytes (n v : Nat) : List Byte := (leBytes n v).reverse

/-- The value of bytes, most significant first. -/
def beValue (bs : List Byte) : Nat := leValue bs.reverse

/-- n zero bytes. -/
def zeroBytes (n : Nat) : List Byte := List.replicate n 0

/-- n bytes of a BUS_LOOKUP result from an offset whose field is absent and for which no value is
stated (log 14). -/
def absentBytes (view offset n : Nat) : List Byte :=
  (List.range n).map fun k => Config.absentByte view (offset + k)

/-! ### Messages on the data channel (05 R92 to R94) -/

/-- The four messages. -/
inductive Message where
  | enquire (port : Byte) (depotId : Half) (version : Byte)
  | announce (m : Announce)
  | limit (maxImport maxExport : Word)
  | faultReport (code : Byte)
deriving DecidableEq, Repr

/-- R92: the type byte and the fields, before the check byte. -/
def Message.payload : Message → List Byte
  | .enquire p d v => 1 :: p :: (beBytes 2 d.toNat ++ [v])
  | .announce m =>
    2 :: (beBytes 2 m.bus.toNat ++ beBytes 4 m.soe.toNat ++ beBytes 4 m.capacity.toNat
      ++ beBytes 4 m.maxImport.toNat ++ beBytes 4 m.maxExport.toNat ++ [m.v2g])
  | .limit i e => 3 :: (beBytes 4 i.toNat ++ beBytes 4 e.toNat)
  | .faultReport c => [4, c]

/-- The sum of bytes, modulo 256 (R93). -/
def byteSum : List Byte → Byte
  | [] => 0
  | b :: bs => b + byteSum bs

/-- R93: a message with its check byte, chosen so that the sum is a multiple of 256. -/
def Message.bytes (m : Message) : List Byte := m.payload ++ [-(byteSum m.payload)]

/-- R92: the length of a message of a type the port reads, type and check included. -/
def messageLength (type : Nat) : Option Nat :=
  match type with
  | 2 => some 21
  | 3 => some 10
  | 4 => some 3
  | _ => none

/-- What the port makes of the bytes of one message (R93). -/
inductive Received where
  | message (m : Message)
  | checkError
  | unknownType
deriving DecidableEq, Repr

/-- A field of n bytes at an offset, most significant byte first. -/
def fieldAt (bs : List Byte) (offset n : Nat) : Nat := beValue ((bs.drop offset).take n)

/-- R93: the bytes of one message as the port handles them: an unknown type is discarded, a message
that is too short or fails its check is a check error. -/
def receive (bs : List Byte) : Received :=
  match bs with
  | [] => .unknownType
  | t :: _ => match messageLength t.toNat with
    | none => .unknownType
    | some n =>
      if bs.length = n ∧ byteSum bs = 0 then
        match t.toNat with
        | 2 => .message (.announce
            { bus := BitVec.ofNat 16 (fieldAt bs 1 2)
              soe := BitVec.ofNat 32 (fieldAt bs 3 4)
              capacity := BitVec.ofNat 32 (fieldAt bs 7 4)
              maxImport := BitVec.ofNat 32 (fieldAt bs 11 4)
              maxExport := BitVec.ofNat 32 (fieldAt bs 15 4)
              v2g := BitVec.ofNat 8 (fieldAt bs 19 1) })
        | 3 => .message (.limit (BitVec.ofNat 32 (fieldAt bs 1 4)) (BitVec.ofNat 32 (fieldAt bs 5 4)))
        | _ => .message (.faultReport (BitVec.ofNat 8 (fieldAt bs 1 1)))
      else .checkError

/-- The ENQUIRE a port sends, as a message (R94). -/
def Enquire.message (e : Enquire) : Message :=
  .enquire (BitVec.ofNat 8 e.port) (BitVec.ofNat 16 e.depotId) (BitVec.ofNat 8 e.version)

/-! ### Enumerated fields: positions in the lists where the chapters first give them (R194, log 6) -/

/-- R1: UNSET or SET. -/
def ClockMode.code : ClockMode → Nat
  | .unset => 0 | .set => 1

def SoeSource.code : SoeSource → Nat
  | .unknown => 0 | .enrolled => 1 | .reported => 2 | .integrated => 3

def BlockState.code : BlockState → Nat
  | .enabled => 0 | .blocked => 1

def FaultReason.code : FaultReason → Nat
  | .pilotFault => 0 | .busReported => 1 | .energyStall => 2

def Readiness.code : Readiness → Nat
  | .none => 0 | .away => 1 | .ready => 2 | .onTrack => 3 | .atRisk => 4 | .late => 5 | .overdue => 6

/-- R121: PENDING, OVERDUE or TAKEN. -/
def DepState.position : DepState → Nat
  | .pending => 0 | .overdue => 1 | .taken _ => 2

/-- BUS_LOOKUP's byte for the departure state, in which 0 is absent (section 11.6). -/
def DepState.code (d : DepState) : Nat := d.position + 1

def PlanClass.code : PlanClass → Nat
  | .priority => 0 | .standard => 1

def StepKind.code : StepKind → Nat
  | .importTo => 0 | .exportTo => 1 | .holdUntil => 2

def StepCond.code : StepCond → Nat
  | .timedWait => 0 | .soeWait => 1 | .active => 2

def PlanState.code : PlanState → Nat
  | .queued => 0 | .running => 1 | .paused => 2 | .done => 3 | .stopped => 4 | .cancelled => 5 | .returned => 6

def PlanOutcome.code : PlanOutcome → Nat
  | .complete => 0 | .deadline => 1 | .busFault => 2 | .cancelled => 3 | .busBlocked => 4

def PortState.code : PortState → Nat
  | .offline => 0 | .vacant => 1 | .detecting => 2 | .identifying => 3 | .connected => 4
  | .energizing => 5 | .energized => 6 | .closing => 7 | .held => 8 | .faulted => 9

def Dir.code : Dir → Nat
  | .imp => 0 | .exp => 1 | .none => 2

def PortTarget.code : PortTarget → Nat
  | .offline => 0 | .vacant => 1 | .reidentify => 2

/-- The pending target's own list is OFFLINE, REIDENTIFY (R64): VACANT is no pending target (R81). -/
def PortTarget.pendingPosition : PortTarget → Option Nat
  | .offline => some 0 | .vacant => none | .reidentify => some 1

def TransitionOutcome.code : TransitionOutcome → Nat
  | .reached => 0 | .dropped => 1 | .cancelled => 2

def PortFault.code : PortFault → Nat
  | .failClose => 0 | .drop => 1 | .weld => 2 | .meterDirection => 3

/-- R135: STOPPED or RUNNING. -/
def runStateCode (running : Bool) : Nat := if running then 1 else 0

/-- R135: B, C or none. -/
def SplitTier.code : SplitTier → Nat
  | .b => 0 | .c => 1 | .none => 2

def CommitState.code : CommitState → Nat
  | .pending => 0 | .armed => 1 | .active => 2 | .met => 3 | .shortfall => 4 | .interrupted => 5
  | .notDispatched => 6 | .withdrawn => 7

/-- The outcome field has a list of its own, MET, SHORTFALL, INTERRUPTED, NOT_DISPATCHED or WITHDRAWN (R158): the
final states alone. -/
def CommitState.outcomeCode : CommitState → Option Nat
  | .pending | .armed | .active => none
  | .met => some 0 | .shortfall => some 1 | .interrupted => some 2 | .notDispatched => some 3
  | .withdrawn => some 4

def WindowPhase.code : WindowPhase → Nat
  | .ahead => 0 | .opened => 1

def DispatchSource.code : DispatchSource → Nat
  | .request => 0 | .line => 1

/-- R165: the filtered level of GRID_DISPATCH, ASSERTED or DEASSERTED. -/
def dispatchLevelCode (asserted : Bool) : Nat := if asserted then 0 else 1

/-- R176: SET or CLEAR. The status word's latch bit has its own number, 1 for SET (R184). -/
def latchCode (latch : Bool) : Nat := if latch then 0 else 1

def pilotCode : PilotLevel → Nat
  | .none => 0 | .plugged => 1 | .ready => 2 | .fault => 3

def levelCode : Level → Nat
  | .low => 0 | .high => 1

def contactCode : Contact → Nat
  | .opened => 0 | .closed => 1

/-- 1 for yes, set or present, 0 otherwise. The manual gives these numbers for a presence bit, the enable bit and
the stall timer's state; for a yes-or-no or set-or-clear byte of section 11.6 they are the model's choice
(log 43). -/
def boolCode (b : Bool) : Nat := if b then 1 else 0

/-! ### PLAN_SUBMIT's step form (section 11.6), as PLAN_LOOKUP gives it (03 R62) -/

/-- A step's optional time at an offset of the 14-byte form; what the four bytes of an absent time hold is
not stated, and is a free value (log 36). -/
def stepTime (offset : Nat) : Option Nat → List Byte
  | some t => leBytes 4 t
  | none => (List.range 4).map fun k => Config.absentStepByte (offset + k)

/-- A stored step in the 14-byte form. -/
def PlanStep.bytes (st : PlanStep) : List Byte :=
  leBytes 2 (st.kind.code * 16384 + boolCode st.notBefore.isSome * 8192
      + boolCode st.endBy.isSome * 4096 + st.cap / 100)
    ++ leBytes 4 st.value ++ stepTime 6 st.notBefore ++ stepTime 10 st.endBy

/-- R62: a step beyond the step count is 14 zero bytes. -/
def stepBytes : Option PlanStep → List Byte
  | some st => st.bytes
  | none => zeroBytes 14

/-- A step record of PLAN_SUBMIT read from its 14 bytes. -/
def rawStepOfBytes (bs : List Byte) : RawStep where
  head := BitVec.ofNat 16 (leValue (bs.take 2))
  value := BitVec.ofNat 32 (leValue ((bs.drop 2).take 4))
  notBefore := BitVec.ofNat 32 (leValue ((bs.drop 6).take 4))
  endBy := BitVec.ofNat 32 (leValue ((bs.drop 10).take 4))

/-! ### The request record (section 11.6) -/

/-- The fields of a 64-byte request record: tag, kind, flags, key, and the 56 bytes of the payload. -/
structure RequestRecord where
  tag     : Half
  kind    : Byte
  flags   : Byte
  key     : Word
  payload : List Byte
deriving DecidableEq, Repr

/-- R194: tag in bytes 0 and 1, kind in byte 2, flags in byte 3, key in bytes 4 to 7, payload from byte 8. -/
def requestRecordOfBytes (bs : List Byte) : RequestRecord where
  tag := BitVec.ofNat 16 (leValue (bs.take 2))
  kind := bs.getD 2 0
  flags := bs.getD 3 0
  key := BitVec.ofNat 32 (leValue ((bs.drop 4).take 4))
  payload := (bs.drop 8).take 56

/-- R194: the bytes of a request record. -/
def RequestRecord.bytes (r : RequestRecord) : List Byte :=
  leBytes 2 r.tag.toNat ++ [r.kind, r.flags] ++ leBytes 4 r.key.toNat ++ r.payload

/-- The part of a request header that an effect reads. -/
def RequestRecord.hdr (r : RequestRecord) : ReqHeader := ⟨r.tag, r.flags, r.key⟩

/-- R194: step k of PLAN_SUBMIT, counted from 0: 14 bytes from payload byte 14 k, which is record byte 8,
22, 36 or 50. -/
def RequestRecord.step (k : Nat) (r : RequestRecord) : RawStep :=
  rawStepOfBytes ((r.payload.drop (14 * k)).take 14)

/-- The body that a record spells: the kinds that carry no payload, PLAN_SUBMIT, and a kind that is not
recognised (R188). The fields of the other kinds have no byte layout in section 11.6 (log 5). -/
def RequestRecord.body (r : RequestRecord) : Option ReqBody :=
  match r.kind.toNat with
  | 7 => some .busRetire
  | 8 => some .busLookup
  | 9 => some .busPlans
  | 10 => some .busUnblock
  | 12 => some .departureClear
  | 13 => some (.planSubmit (r.step 0) (r.step 1) (r.step 2) (r.step 3))
  | 14 => some .planCancel
  | 15 => some .planRetire
  | 16 => some .planLookup
  | 21 => some .allocStart
  | 22 => some .allocStop
  | 25 => some .commitWithdraw
  | 26 => some .commitDispatch
  | 27 => some .commitRelease
  | 28 => some .commitLookup
  | 29 => some .commitRetire
  | 30 => some .clearTrip
  | 31 => some .keepalive
  | 32 => some .attentionScan
  | k => if k = 0 ∨ 33 < k then some (.unknownKind r.kind) else none

/-- The request that 64 bytes of the request ring spell, where section 11.6 lays its kind's payload out. -/
def requestOfBytes (bs : List Byte) : Option Request :=
  let r := requestRecordOfBytes bs
  r.body.map fun b => ⟨r.hdr, b⟩

/-! ### BUS_LOOKUP (section 11.6) -/

/-- A 3-byte SoE field: 16,777,215 is UNKNOWN, or an absent pair. -/
def soe3 (v : Option Nat) : List Byte := leBytes 3 (v.getD 16777215)

/-- A signed value in n bytes, two's complement. -/
def leSigned (n : Nat) (v : Int) : List Byte := leBytes n (v % ((256 : Int) ^ n)).toNat

/-- View 0 of BUS_LOOKUP; `running` is the id of the running plan. V2G permitted is 1 for yes (log 43); the bits
of bytes 46 to 47 above the ten flags are 0 (log 44). -/
def busView0 (slot : Nat) (b : Bus) (running : Option SlotId) : List Byte :=
  leBytes 1 slot ++ leBytes 2 b.number ++ leBytes 3 b.capacity ++ leBytes 3 b.importCap
  ++ leBytes 2 b.exportCap ++ leBytes 3 b.floor ++ leBytes 3 b.allowance ++ leBytes 4 b.exportUsed
  ++ soe3 b.soe ++ leBytes 1 b.source.code ++ leBytes 1 (boolCode b.v2g)
  ++ leBytes 1 (match b.location with | some n => n.val | none => 255)
  ++ leBytes 1 b.block.code
  ++ leBytes 1 (match b.faultReason with | some r => r.code + 1 | none => 0)
  ++ leBytes 2 b.faultCount
  ++ (match b.faultTime with | some t => leBytes 4 t | none => absentBytes 0 31 4)
  ++ soe3 (b.discrepancy.map Discrepancy.reported) ++ soe3 (b.discrepancy.map Discrepancy.integrated)
  ++ (match running with
      | some i => leBytes 2 i.slot ++ leBytes 1 i.generation
      | none => leBytes 2 65535 ++ absentBytes 0 43 1)
  ++ leBytes 1 b.prioList.length ++ leBytes 1 b.stdList.length ++ leBytes 2 b.flags.toNat

/-- View 1 of BUS_LOOKUP. REQ_CLAMPED is 1 when set, slack present 1 when present (log 43). -/
def busView1 (slot : Nat) (b : Bus) : List Byte :=
  leBytes 1 slot ++ leBytes 2 b.number
  ++ (match b.departure with
      | some d =>
        leBytes 1 d.state.code ++ leBytes 1 (boolCode d.reqClamped) ++ leBytes 4 d.tDep
        ++ leBytes 3 d.eReq ++ leBytes 2 d.route
        ++ (match d.state with | .taken a => soe3 a | _ => absentBytes 1 14 3)
      | none => leBytes 1 0 ++ absentBytes 1 4 13)
  ++ leBytes 1 b.readiness.code ++ leBytes 1 (boolCode b.slack.isSome)
  ++ (match b.slack with | some v => leSigned 4 v | none => absentBytes 1 19 4)

/-! ### PORT_LOOKUP (section 11.6) -/

/-- The exchange states of 05 R91. -/
inductive ExchangeState where
  | idle | waiting | session
deriving DecidableEq, Repr

def ExchangeState.code : ExchangeState → Nat
  | .idle => 0 | .waiting => 1 | .session => 2

/-- R91: WAITING while the port is IDENTIFYING, SESSION while a session is present, IDLE otherwise. -/
def Port.exchange (p : Port) : ExchangeState :=
  if p.session.isSome then .session
  else if p.state = .identifying then .waiting
  else .idle

/-- The binding byte: 0 no session, 1 bound, else 2 and the reason's position. -/
def Port.bindingCode (p : Port) : Nat :=
  match p.session with
  | none => 0
  | some x => match x.binding with
    | .bound _ => 1
    | .unidentified .noAnswer => 2
    | .unidentified .unknownBus => 3
    | .unidentified .duplicateBus => 4

/-- Pending target: 0 absent, 1 OFFLINE, 2 REIDENTIFY. A pending target is never VACANT (R81). -/
def pendingCode : Option PortTarget → Nat
  | none => 0
  | some .offline => 1
  | some _ => 2

/-! ### The results whose fields have no byte places -/

/-- R194: the numbers that the enumerated fields of a result hold, in the order of the result's fields; an absent
field holds none. The results given as bytes hold theirs in the bytes, and a yes-or-no field is no such list
(log 43). -/
def Result.numbers : Result → List Nat
  | .timeAndLoad v => [v.mode.code]
  | .enrolled _ _ _ source => [source.code]
  | .busFields _ _ _ _ _ _ _ _ source => [source.code]
  | .planLists _ _ entries => entries.flatMap fun e => [e.2.1.code, e.2.2.code]
  | .departure _ _ _ _ state _ => [state.code]
  | .departureCleared was => (was.map DepState.position).toList
  | .submitted _ state _ _ => [state.code]
  | .planEnded _ state outcome _ _ _ => state.code :: (outcome.map PlanOutcome.code).toList
  | .planView v =>
    v.cls.code :: ((v.cond.map StepCond.code).toList ++ v.state.code :: (v.outcome.map PlanOutcome.code).toList)
  | .portMoved state pending => state.code :: (pending.bind PortTarget.pendingPosition).toList
  | .portState state => [state.code]
  | .allocSummary running _ summary =>
    runStateCode running :: (summary.map fun m => m.supervision.code).toList
  | .allocPort r => (r.map fun x => [x.1.split.code, x.1.published.dir.code]).getD []
  | .offered _ state phase _ => [state.code, phase.code]
  | .released outcome _ _ _ => outcome.outcomeCode.toList
  | .commitView0 v =>
    [v.state.code, v.phase.code] ++ (v.outcome.bind CommitState.outcomeCode).toList
      ++ [dispatchLevelCode v.lineLevel]
  | .commitView1 v => (v.source.map DispatchSource.code).toList
  | .tripCleared latch _ => [latchCode latch]
  | .supervision before after _ => [before.code, after.code]
  | .scan _ entries => entries.map ScanEntry.category
  | .none | .time _ _ _ | .loadPending _ | .stored _ | .siteParams _ _ | .ratings _ _ _ | .retired _ _
  | .busView _ | .freed _ _ | .planSteps _ _ | .portConfig _ _ _ | .portView _ | .allocTotals _ _ _ _ _
  | .allocNumber _ | .withdrawn _ _ | .dispatched _ _ _ _ | .flags _ => []

/-- View 0 of PORT_LOOKUP, with the port's live ratings and the bound bus's number (0 when not bound). The bits of
byte 34 above the six flags are 0 (log 44). -/
def portView0 (p : Port) (r : Ratings) (busNumber : Nat) : List Byte :=
  leBytes 1 p.number.val ++ leBytes 1 p.state.code ++ leBytes 1 (pendingCode p.pendingTarget)
  ++ leBytes 1 (match p.lastTransition with | some t => t.target.code + 1 | none => 0)
  ++ leBytes 1 (match p.lastTransition with | some t => t.outcome.code | none => 0)
  ++ leBytes 4 (match p.lastTransition with | some t => t.time | none => 0)
  ++ leBytes 3 r.imp ++ leBytes 2 r.exp
  ++ leBytes 1 p.energyPerCount ++ leBytes 1 p.filterThreshold ++ leBytes 1 (pilotCode p.taken)
  ++ leBytes 3 p.held.mag ++ leBytes 1 p.held.dir.code
  ++ leBytes 3 p.live.mag ++ leBytes 1 p.live.dir.code
  ++ leBytes 1 p.lastDir.code ++ leBytes 4 (p.zeroSince.getD 0) ++ leSigned 1 p.residue
  ++ leBytes 1 (contactCode p.command) ++ leBytes 1 (contactCode p.feedback)
  ++ leBytes 1 (match p.faultCode with | some f => f.code + 1 | none => 0)
  ++ leBytes 1 p.flags.toNat ++ leBytes 1 p.bindingCode ++ leBytes 2 busNumber
  ++ leBytes 4 ((p.session.map Session.start).getD 0)
  ++ leBytes 3 p.sessionImportCap ++ leBytes 2 p.sessionExportCap

/-- The announced values of a bound session. -/
def Port.announced (p : Port) : Option Announced := p.session.bind Session.announced

/-- The presence byte of view 1; bits 7 to 5, which the layout does not name, are 0 (log 44). -/
def Port.presence (p : Port) : Nat :=
  boolCode p.announced.isSome + 2 * boolCode p.claimed.isSome + 4 * boolCode p.lastFault.isSome
  + 8 * boolCode p.lastApplied.isSome + 16 * boolCode p.zeroSince.isSome

/-- A timer's length and the seconds elapsed, 0 when STOPPED (06 R107). -/
def Timer.seconds : Timer → Nat × Nat
  | .stopped => (0, 0)
  | .running l e => (l / 1000, e / 1000)

/-- View 1 of PORT_LOOKUP. V2G capable is 1 for yes, a glitch record 1 when set (log 43). -/
def portView1 (p : Port) : List Byte :=
  leBytes 1 p.number.val ++ leBytes 1 p.presence
  ++ leBytes 4 p.sessionImport ++ leBytes 4 p.sessionExport
  ++ leBytes 4 ((p.announced.map Announced.maxImport).getD 0)
  ++ leBytes 4 ((p.announced.map Announced.maxExport).getD 0)
  ++ leBytes 1 (boolCode ((p.announced.map Announced.v2g).getD false))
  ++ leBytes 1 p.exchange.code ++ leBytes 1 p.attempts
  ++ leBytes 2 p.checkErrors ++ leBytes 2 p.discards ++ leBytes 2 (p.claimed.getD 0)
  ++ leBytes 1 ((p.lastFault.map FaultReport.code).getD 0)
  ++ leBytes 4 ((p.lastFault.map FaultReport.time).getD 0)
  ++ leBytes 1 p.wrongRun ++ leBytes 2 p.stray ++ leBytes 2 p.idle
  ++ leBytes 1 (boolCode p.ma.glitch) ++ leBytes 1 (boolCode p.mb.glitch)
  ++ leBytes 1 (levelCode p.ma.output) ++ leBytes 1 p.ma.counter
  ++ leBytes 1 (levelCode p.mb.output) ++ leBytes 1 p.mb.counter
  ++ leBytes 1 (match p.lastApplied with | some a => a.dir.code | none => 0)
  ++ leBytes 4 ((p.lastApplied.map AppliedCount.time).getD 0)
  ++ leBytes 1 (boolCode p.stall.isRunning)
  ++ leBytes 2 p.stall.seconds.1 ++ leBytes 2 p.stall.seconds.2

/-! ### Completion header (section 11.6) -/

/-- The bytes of a result for which section 11.6 or R62 gives a layout. -/
def Result.layout : Result → Option (List Byte)
  | .busView bs => some bs
  | .portView bs => some bs
  | .none => some []
  | _ => Option.none

/-- The result length byte (log 15). -/
def Completion.length (c : Completion) : Byte :=
  match c.result.layout with
  | some bs => BitVec.ofNat 8 bs.length
  | none => BitVec.ofNat 8 (Config.resultLength c.kind.toNat).val

/-- The completion header, bytes 0 to 9. -/
def Completion.header (c : Completion) : List Byte :=
  leBytes 2 c.tag.toNat ++ [c.kind, c.length] ++ leBytes 2 c.status.code ++ leBytes 4 c.time

end Sys2Proof.Machine
end

