-- ==== Sys2Proof/Machine/RingOps.lean ====
section
/-! DEFINITION. The Ring Interface's operations (11): ring occupancy, fetch bursts, the taking of a
request by the executor with its completion, the interrupt count, and one millisecond of the timebase. -/

namespace Sys2Proof.Machine

open Sys2Proof

/-! ### Rings (R185) -/

/-- R185: the entries that wait in a ring. -/
def RingRegs.waiting (r : RingRegs) : Nat := (r.write + r.size - r.read) % r.size

/-- R185: the write pointer is one short of the read pointer, modulo the size. -/
def RingRegs.full (r : RingRegs) : Bool := (r.write + 1) % r.size == r.read

/-- R185: an advance by n wraps at the size; at a size of 0 it does not wrap, which is the model's choice
(log 42). -/
def RingRegs.advanceRead (n : Nat) (r : RingRegs) : RingRegs := { r with read := (r.read + n) % r.size }

/-- R185: an advance by one, likewise (log 42). -/
def RingRegs.advanceWrite (r : RingRegs) : RingRegs := { r with write := (r.write + 1) % r.size }

/-- R186: n consecutive entries from the read pointer onwards, wrapping at the ring's end. -/
def RingRegs.entriesFrom (n : Nat) (r : RingRegs) : List Nat :=
  (List.range n).map fun k => (r.read + k) % r.size

/-- R186: the n of a burst, the number of entries its read covers. -/
def FetchBurst.count (b : FetchBurst) : Nat := b.entries.length

/-- R186: a fetch burst starts when its conditions hold: it issues one read of n consecutive entries from the
read pointer onwards, and n is fixed then. -/
def Ring.startBurst (r : Ring) : Ring :=
  if r.state = .running ∧ r.burst = none ∧ r.buffer.length ≤ 3 ∧ 0 < r.request.waiting then
    { r with burst := some ⟨r.request.entriesFrom (min (12 - r.buffer.length) r.request.waiting)⟩ }
  else r

/-- Changes the Ring Interface. -/
def State.modRing (f : Ring → Ring) (s : State) : State := { s with ring := f s.ring }

/-! ### The executor (R188) -/

/-- R188: the executor can take a request. -/
def Ring.executorFree (r : Ring) : Bool :=
  r.state == .running && r.writing.isNone && !r.completion.full

/-- R188: the request at the head of the buffer is this one, and the executor can take it. -/
def State.takes (s : State) (q : Request) : Bool :=
  s.ring.executorFree && decide (s.ring.buffer.head? = some q)

/-- R188: the executor removes the head of the buffer. -/
def Ring.pop (r : Ring) : Ring := { r with buffer := r.buffer.tail }

/-- R188: the completion write starts at the entry of the completion write pointer; a burst can start
since the buffer has fallen (R186). -/
def Ring.post (c : Completion) (r : Ring) : Ring :=
  { r with writing := some ⟨r.completion.write, c⟩ }.startBurst

/-- R194: the completion of a request; its time is the depot time after the request (R2). -/
def completionOf (q : Request) (r : Reply) : Completion :=
  ⟨q.hdr.tag, q.body.kind, r.status, r.state.now, r.result⟩

/-- R188: what the taking of a request by its block makes of the state. -/
def finishRequest (q : Request) (r : Reply) : State :=
  r.state.modRing (Ring.post (completionOf q r))

/-- R188: the executor takes the request at the head of the buffer, its block applies it, and the
completion write starts. When the executor cannot take it, nothing happens (log 4). -/
def takeRequest (q : Request) (act : State → Reply) (s : State) : Host.Outcome State Fault Refusal :=
  if s.takes q then .next (finishRequest q (act (s.modRing Ring.pop))) else .next s

/-! ### The interrupt count (R189) -/

/-- R189: the flag is set, the count becomes 0 and the hold timer stops. -/
def Ring.report (r : Ring) : Ring :=
  { r with pendingFlag := true, unreported := 0, holdTimer := .stopped }

/-- R189: the count has reached the threshold. -/
def Ring.checkCount (r : Ring) : Ring :=
  if r.threshold ≤ r.unreported then r.report else r

/-- R189: a completion is written: the count rises, and a rise from 0 to 1 starts the hold timer. -/
def Ring.countOne (r : Ring) : Ring :=
  Ring.checkCount
    { r with
      unreported := r.unreported + 1
      holdTimer := if r.unreported = 0 then .start r.holdTime else r.holdTimer }

/-- R187: the rings enter FETCH_ERROR and site attention RING_ERROR is set. -/
def State.ringError (s : State) : State :=
  (s.modRing fun r => { r with state := .fetchError }).raiseSite SiteFlag.ringError

/-! ### One millisecond of the part's timebase (log 2) -/

/-- A port's timers and level filters age by 1 ms. -/
def Port.tick (p : Port) : Port :=
  { p with
    pilotCandidate := filterTick 50 p.pilotLine p.taken p.pilotCandidate
    feedbackCandidate := filterTick 20 p.feedbackLine p.feedback p.feedbackCandidate
    settling := p.settling.tick
    debounce := p.debounce.tick
    confirmation := p.confirmation.tick
    openDelay := p.openDelay.tick
    weld := p.weld.tick
    quiet := p.quiet.tick
    limit := p.limit.tick
    frameTimer := p.frameTimer.tick
    answer := p.answer.tick
    stall := p.stall.tick }

/-- The current second ages by 1 ms while the clock is SET. -/
def Clock.tick (c : Clock) : Clock :=
  match c.mode with
  | .unset => c
  | .set => { c with phase := min 1000 (c.phase + 1) }

/-- Every timer and level filter ages by 1 ms; nothing else changes. -/
def State.tick (s : State) : State :=
  { s with
    clock := s.clock.tick
    ports := s.ports.map Port.tick
    engine := { s.engine with timer := s.engine.timer.tick }
    dispatch :=
      { s.dispatch with
        candidate := filterTick 100 s.dispatch.pin s.dispatch.filtered s.dispatch.candidate }
    supervision := { s.supervision with timer := s.supervision.timer.tick }
    ring := { s.ring with holdTimer := s.ring.holdTimer.tick } }

end Sys2Proof.Machine
end

