-- ==== Sys2Proof/Machine/AllocCommands.lean ====
section
/-! DEFINITION. The Allocation Engine's commands (08), KEEPALIVE and the Supervision Timer (10). -/

namespace Sys2Proof.Machine

open Sys2Proof

/-- ALLOCATION_COMPUTATION (R136, R139): an expiry of the allocation timer. -/
def execAllocationComputation (s : State) : Host.Outcome State Fault Refusal :=
  if s.engine.running && s.engine.timer.isRunning then .next s.compute else .next s

/-- R180: a change of the supervision state sets SUPERVISION. -/
def State.superviseAs (st : SupState) (t : Timer) (s : State) : State :=
  let s1 := { s with supervision := ⟨st, t⟩ }
  if s.supervision.state = st then s1 else s1.raiseSite SiteFlag.supervision

/-- R180: the timer started with the live supervision interval. -/
def State.supervisionStart (s : State) : Timer := .start (s.site.live.supervision * 1000)

/-- R137: ALLOC_START's event. -/
def State.startEngine (s : State) : State :=
  let s1 := { s with engine := { s.engine with running := true } }
  (s1.superviseAs .supervised s1.supervisionStart).compute

/-- R137: the totals of the computation it made. -/
def allocTotals (s : State) : Result :=
  match s.engine.summary with
  | some x => .allocTotals s.engine.number x.available x.importTotal x.exportTotal x.net
  | none => .none

/-- R137. -/
def applyAllocStart (s : State) : Reply :=
  if s.clock.mode = .unset then refuse s .timeUnset
  else if s.engine.running then refuse s .allocState
  else
    let s1 := s.startEngine
    ⟨s1, .ok, allocTotals s1⟩

/-- ALLOC_START (R137). -/
def execAllocStart (h : ReqHeader) (s : State) : Host.Outcome State Fault Refusal :=
  takeRequest ⟨h, .allocStart⟩ applyAllocStart s

/-- R138 items 1 and 3, over the engine. That the recorded split tier is the one item 3 makes none, so that
ALLOC_LOOKUP shows none after an ALLOC_STOP, is the model's choice (log 45); every other recorded result is kept. -/
def Engine.stop (e : Engine) : Engine :=
  { e with running := false, timer := .stopped, ports := e.ports.map fun r => { r with split := .none } }

/-- R138: ALLOC_STOP's event. -/
def State.stopEngine (s : State) : State :=
  let s1 := { s with engine := s.engine.stop }
  let s2 := s1.updPorts fun _ p => { p.zeroHeld with residue := 0 }
  ((s2.interruptActive).superviseAs .supervised .stopped).load

/-- R138. -/
def applyAllocStop (s : State) : Reply :=
  if s.engine.running then ⟨s.stopEngine, .ok, .allocNumber s.engine.number⟩
  else refuse s .allocState

/-- ALLOC_STOP (R138). -/
def execAllocStop (h : ReqHeader) (s : State) : Host.Outcome State Fault Refusal :=
  takeRequest ⟨h, .allocStop⟩ applyAllocStop s

/-- R156: one port's recorded results with its present residue, absent before the first computation.
After ALLOC_STOP the split tier among them is none (log 45). -/
def State.allocPortView (s : State) (n : PortNo) : Option (PortResult × Int) :=
  match s.engine.summary with
  | some _ => some (s.engine.ports[n], (s.port n).residue)
  | none => none

/-- R156: SUMMARY and PORT (log 6). -/
def applyAllocLookup (selector : Byte) (port : Word) (s : State) : Reply :=
  match selector.toNat with
  | 0 => ⟨s, .ok, .allocSummary s.engine.running s.engine.number s.engine.summary⟩
  | 1 => match portOf port with
    | some n => ⟨s, .ok, .allocPort (s.allocPortView n)⟩
    | none => refuse s .outOfRange
  | _ => refuse s .outOfRange

/-- ALLOC_LOOKUP (R156). -/
def execAllocLookup (h : ReqHeader) (selector : Byte) (port : Word) (s : State) :
    Host.Outcome State Fault Refusal :=
  takeRequest ⟨h, .allocLookup selector port⟩ (applyAllocLookup selector port) s

/-- R181: KEEPALIVE's event. -/
def State.keepAlive (s : State) : State :=
  if s.engine.running then s.superviseAs .supervised s.supervisionStart else s

/-- R181: the timer's length in seconds, absent when it is IDLE. -/
def Timer.lengthSeconds : Timer → Option Nat
  | .stopped => none
  | .running l _ => some (l / 1000)

/-- R181. -/
def applyKeepalive (s : State) : Reply :=
  let s1 := s.keepAlive
  ⟨s1, .ok, .supervision s.supervision.state s1.supervision.state s1.supervision.timer.lengthSeconds⟩

/-- KEEPALIVE (R181). -/
def execKeepalive (h : ReqHeader) (s : State) : Host.Outcome State Fault Refusal :=
  takeRequest ⟨h, .keepalive⟩ applyKeepalive s

/-- R182: an expiry, by the state in which it is taken. -/
def State.supervisionExpiry (s : State) : State :=
  match s.supervision.state with
  | .supervised =>
    (s.superviseAs .lapsed s.supervisionStart).updPorts fun _ p => p.zeroExport
  | .lapsed =>
    (s.superviseAs .fallback .stopped).updPorts fun n p => p.importToTierA (s.tierAGrant n)
  | .fallback => s.superviseAs .fallback .stopped

/-- SUPERVISION_TIMER_EXPIRY (R182). A KEEPALIVE taken first has restarted the timer, and there is no expiry then
(R181, log 3). -/
def execSupervisionTimerExpiry (s : State) : Host.Outcome State Fault Refusal :=
  if s.supervision.timer.expired then .next s.supervisionExpiry else .next s

end Sys2Proof.Machine
end

