-- ==== Sys2Proof/Machine/AttentionRequests.lean ====
section
/-! DEFINITION. The Attention block's requests (11 section 11.4): ATTENTION_SCAN and ATTENTION_CLEAR. -/

namespace Sys2Proof.Machine

open Sys2Proof

/-- The plan category's one flag as a flag set. -/
def planFlags (p : Plan) : Nat := if p.final then 1 else 0

/-- The entry of a record that holds a set flag, if it does (R192). -/
def entryOf (category slot flags : Nat) : Option ScanEntry :=
  if flags = 0 then none else some ⟨category, slot, flags⟩

/-- R192: what a position of the fixed order of records holds. -/
def State.scanAt (s : State) (pos : Nat) : Option ScanEntry :=
  if pos = 0 then entryOf 0 0 s.siteFlags.toNat
  else if h : pos - 1 < 24 then entryOf 1 (pos - 1) (s.ports[pos - 1]'h).flags.toNat
  else if pos < 217 then
    (s.bus (pos - 25)).bind fun b => entryOf 2 (pos - 25) b.flags.toNat
  else if pos < 729 then
    (s.plan (pos - 217)).bind fun p => entryOf 3 (pos - 217) (planFlags p)
  else (s.commit (pos - 729)).bind fun c => entryOf 4 (pos - 729) c.flags.toNat

/-- R192: the scan from a position, with the entries still wanted; n bounds the positions left. It
answers the next cursor and the entries. -/
def State.scanFrom (s : State) : Nat → Nat → Nat → Nat × List ScanEntry
  | 0, _, _ => (745, [])
  | n + 1, pos, wanted =>
    if 744 < pos then (745, [])
    else match s.scanAt pos with
      | none => s.scanFrom n (pos + 1) wanted
      | some e =>
        if wanted = 1 then (pos + 1, [e])
        else
          let rest := s.scanFrom n (pos + 1) (wanted - 1)
          (rest.1, e :: rest.2)

/-- R192. -/
def applyAttentionScan (h : ReqHeader) (s : State) : Reply :=
  let cursor := h.key.toNat
  if 745 < cursor then refuse s .outOfRange
  else
    let r := s.scanFrom (745 - cursor) cursor 8
    ⟨s, .ok, .scan r.1 r.2⟩

/-- ATTENTION_SCAN (R192). -/
def execAttentionScan (h : ReqHeader) (s : State) : Host.Outcome State Fault Refusal :=
  takeRequest ⟨h, .attentionScan⟩ (applyAttentionScan h) s

/-- R193: the greatest slot of a category, and the number of its flags. -/
def categoryShape (category : Nat) : Option (Nat × Nat) :=
  match category with
  | 0 => some (0, 6)
  | 1 => some (23, 6)
  | 2 => some (191, 10)
  | 3 => some (511, 1)
  | 4 => some (15, 4)
  | _ => none

/-- The named flags become clear. -/
def clearBits {w : Nat} (flags : Word) (x : BitVec w) : BitVec w := x &&& ~~~(flags.setWidth w)

/-- R90, R193: flags of a port; clearing GLITCH also clears both glitch records. -/
def Port.clearFlags (flags : Word) (p : Port) : Port :=
  let q := { p with flags := clearBits flags p.flags }
  if flags.getLsbD 3 then
    { q with ma := { p.ma with glitch := false }, mb := { p.mb with glitch := false } }
  else q

/-- R193: the clear of one record's flags. -/
def State.clearAt (category slot : Nat) (flags : Word) (s : State) : Reply :=
  match category with
  | 0 =>
    let f := clearBits flags s.siteFlags
    ⟨{ s with siteFlags := f }, .ok, .flags f.toNat⟩
  | 1 =>
    if h : slot < 24 then
      let s1 := s.setPort ⟨slot, h⟩ (Port.clearFlags flags)
      ⟨s1, .ok, .flags (s1.port ⟨slot, h⟩).flags.toNat⟩
    else refuse s .outOfRange
  | 2 => match s.bus slot with
    | some b =>
      ⟨s.putBus slot { b with flags := clearBits flags b.flags }, .ok,
        .flags (clearBits flags b.flags).toNat⟩
    | none => refuse s .notFound
  | 3 => match s.plan slot with
    | some p =>
      let f := p.final && !flags.getLsbD 0
      ⟨s.putPlan slot { p with final := f }, .ok, .flags (if f then 1 else 0)⟩
    | none => refuse s .notFound
  | _ => match s.commit slot with
    | some c =>
      ⟨s.putCommit slot { c with flags := clearBits flags c.flags }, .ok,
        .flags (clearBits flags c.flags).toNat⟩
    | none => refuse s .notFound

/-- R193. -/
def applyAttentionClear (h : ReqHeader) (category : Byte) (flags : Word) (s : State) : Reply :=
  match categoryShape category.toNat with
  | none => refuse s .outOfRange
  | some (top, bits) =>
    if top < h.key.toNat then refuse s .outOfRange
    else if 2 ^ bits ≤ flags.toNat then refuse s .outOfRange
    else s.clearAt category.toNat h.key.toNat flags

/-- ATTENTION_CLEAR (R193). -/
def execAttentionClear (h : ReqHeader) (category : Byte) (flags : Word) (s : State) :
    Host.Outcome State Fault Refusal :=
  takeRequest ⟨h, .attentionClear category flags⟩ (applyAttentionClear h category flags) s

end Sys2Proof.Machine
end

