-- ==== Sys2Proof/Machine/BusRequests.lean ====
section
/-! DEFINITION. The Bus Table's requests (02) and the departure requests (07). -/

namespace Sys2Proof.Machine

open Sys2Proof

/-! ### BUS_ENROL -/

/-- R18, R20: the record of a new bus. -/
def newBus (number : Nat) (p : BusEnrolPayload) : Bus :=
  let clamped : Bool := match p.initialSoe with
    | some w => decide (p.capacity.toNat < w.toNat)
    | none => false
  { number := number
    capacity := p.capacity.toNat
    importCap := p.importCap.toNat
    exportCap := p.exportCap.toNat
    v2g := p.v2g
    floor := p.floor.toNat
    allowance := p.allowance.toNat
    exportUsed := 0
    soe := p.initialSoe.map fun w => min w.toNat p.capacity.toNat
    source := match p.initialSoe with
      | some _ => .enrolled
      | none => .unknown
    discrepancy := none
    location := none
    block := .enabled
    faultReason := none
    faultTime := none
    faultCount := 0
    departure := none
    readiness := .none
    slack := none
    prioList := []
    stdList := []
    flags := if clamped then BusFlag.soeClamped else 0 }

/-- R19: the checks of BUS_ENROL, in order. -/
def enrolRefusal (number : Nat) (p : BusEnrolPayload) (s : State) : Option Status :=
  if number = 0 ∨ 65535 < number then some .outOfRange
  else if !busFieldsOk p.capacity.toNat p.importCap.toNat p.exportCap.toNat p.floor.toNat
      p.allowance.toNat then some .outOfRange
  else if (s.findBus number).isSome then some .duplicate
  else if (s.buses.firstFree 192).isNone then some .tableFull
  else none

/-- R19, R20. -/
def applyBusEnrol (h : ReqHeader) (p : BusEnrolPayload) (s : State) : Reply :=
  let number := h.key.toNat
  match enrolRefusal number p s with
  | some st => refuse s st
  | none => match s.buses.firstFree 192 with
    | some i =>
      let b := newBus number p
      ⟨s.putBus i b, .ok, .enrolled i number b.soe b.source⟩
    | none => refuse s .tableFull

/-- BUS_ENROL (R19, R20). -/
def execBusEnrol (h : ReqHeader) (p : BusEnrolPayload) (s : State) :
    Host.Outcome State Fault Refusal :=
  takeRequest ⟨h, .busEnrol p⟩ (applyBusEnrol h p) s

/-! ### BUS_CHANGE -/

/-- R22: a departure part is brought within a new capacity. -/
def Departure.within (capacity : Nat) (d : Departure) : Departure :=
  { d with
    eReq := min d.eReq capacity
    reqClamped := d.reqClamped || decide (capacity < d.eReq)
    state := match d.state with
      | .taken (some a) => .taken (some (min a capacity))
      | x => x }

/-- R22: the fields of a bus are brought within its new capacity. -/
def Bus.withinCapacity (b : Bus) : Bus :=
  let above : Bool := match b.soe with
    | some soe => decide (b.capacity < soe)
    | none => false
  { b.raiseIf above BusFlag.soeClamped with
    soe := b.soe.map fun soe => min soe b.capacity
    departure := b.departure.map (Departure.within b.capacity) }

/-- R22: an IMPORT_TO target is brought within a new capacity. -/
def PlanStep.withinCapacity (capacity : Nat) (st : PlanStep) : PlanStep :=
  if st.kind = .importTo then { st with value := min st.value capacity } else st

/-- R22: the plans of the bus's lists are brought within its new capacity. -/
def State.clampPlans (b : Bus) (s : State) : State :=
  b.listedPlans.foldl
    (fun t i => t.modPlan i fun p => { p with steps := p.steps.map (PlanStep.withinCapacity b.capacity) })
    s

/-- R22: the step kind that a new capacity can end. -/
def StepKind.isImport : StepKind → Bool
  | .importTo => true
  | .exportTo | .holdUntil => false

/-- R51: the step kind that a higher discharge floor can end. -/
def StepKind.isExport : StepKind → Bool
  | .exportTo => true
  | .importTo | .holdUntil => false

/-- R22: a new capacity is written for the bus in slot i. -/
def State.newCapacity (i : Nat) (s : State) : State :=
  match s.bus i with
  | some b => ((s.putBus i b.withinCapacity).clampPlans b).testStep StepKind.isImport i
  | none => s

/-- R23: the session caps are formed again from the record and the announced values. -/
def Session.reform (b : Bus) (x : Session) : Session :=
  match x.announced with
  | some a => { x with importCap := (sessionCaps b a).1, exportCap := (sessionCaps b a).2 }
  | none => x

/-- R23, R104: the caps of a session are formed again, and the held setpoint is lowered within them. -/
def Port.reformCaps (b : Bus) (p : Port) : Port :=
  let q := { p with session := p.session.map (Session.reform b) }
  (q.capTo .imp q.sessionImportCap).capTo .exp q.sessionExportCap

/-- R23: SoE at or below the floor, or the allowance used, withdraws an export. -/
def Bus.exportDone (b : Bus) : Bool := b.atFloor || decide (b.allowance ≤ b.exportUsed)

/-- R23: a BUS_CHANGE on a bus that has a location changes the port's session. -/
def State.changeSession (i : Nat) (s : State) : State :=
  match s.bus i with
  | some b => match b.location with
    | some n => s.updPort n fun p =>
        let q := p.reformCaps b
        if b.exportDone then q.zeroExport else q
    | none => s
  | none => s

/-- R17, R21: the configurable fields, the bus number among them, SoE and source as they stand. -/
def busFieldsResult (i : Nat) (s : State) : Result :=
  match s.bus i with
  | some b =>
    .busFields b.number b.capacity b.importCap b.exportCap b.v2g b.floor b.allowance b.soe b.source
  | none => .none

/-- R21, R34: the record with the carried fields, and ALLOWANCE_USED when a lower allowance is used up. -/
def Bus.change (f : BusPatch) (b : Bus) : Bus :=
  (f.write b).raiseIf
    (decide (b.exportUsed < b.allowance) && decide ((f.write b).allowance ≤ b.exportUsed))
    BusFlag.allowanceUsed

/-- R21 to R23, R34: a BUS_CHANGE that is taken, in the order of log 13. -/
def State.changeBus (i : Nat) (b : Bus) (f : BusPatch) (s : State) : State :=
  let s1 := s.putBus i (b.change f)
  let s2 := if f.capacity.isSome then s1.newCapacity i else s1
  let s3 := if b.floor < (f.write b).floor then s2.testStep StepKind.isExport i else s2
  s3.changeSession i

/-- R21. -/
def applyBusChange (h : ReqHeader) (f : BusPatch) (s : State) : Reply :=
  match s.findBus h.key.toNat with
  | none => refuse s .notFound
  | some (i, b) =>
    let nb := f.write b
    if !busFieldsOk nb.capacity nb.importCap nb.exportCap nb.floor nb.allowance then
      refuse s .outOfRange
    else if f.empty then ⟨s, .ok, busFieldsResult i s⟩
    else
      let s1 := s.changeBus i b f
      ⟨s1, .ok, busFieldsResult i s1⟩

/-- BUS_CHANGE (R21 to R23). -/
def execBusChange (h : ReqHeader) (f : BusPatch) (s : State) : Host.Outcome State Fault Refusal :=
  takeRequest ⟨h, .busChange f⟩ (applyBusChange h f) s

/-! ### BUS_RETIRE, BUS_LOOKUP, BUS_PLANS, BUS_UNBLOCK -/

/-- R24: the slots of the plans that belong to a bus slot. -/
def State.plansOf (i : Nat) (s : State) : List Nat :=
  (s.plans.rows.filter fun r => r.2.busSlot == i).map Prod.fst

/-- R24: a retirement that passes its checks. -/
def State.retireBus (i : Nat) (s : State) : State :=
  let s1 := ((s.plansOf i).foldl (fun t j => t.freePlan j) s).withdrawDeparture i
  { s1 with buses := s1.buses.del i }

/-- R24. -/
def applyBusRetire (h : ReqHeader) (s : State) : Reply :=
  match s.findBus h.key.toNat with
  | none => refuse s .notFound
  | some (i, b) =>
    if b.location.isSome then refuse s .busPlugged
    else if b.listedPlans ≠ [] then refuse s .plansPending
    else ⟨s.retireBus i, .ok, .retired i (s.plansOf i).length⟩

/-- BUS_RETIRE (R24). -/
def execBusRetire (h : ReqHeader) (s : State) : Host.Outcome State Fault Refusal :=
  takeRequest ⟨h, .busRetire⟩ (applyBusRetire h) s

/-- The id of a plan slot's record (R38). -/
def State.planId (s : State) (i : Nat) : SlotId :=
  ⟨i, match s.plan i with
    | some p => p.generation
    | none => 0⟩

/-- R25, section 11.6. -/
def applyBusLookup (h : ReqHeader) (s : State) : Reply :=
  match s.resolveBus h with
  | .error st => refuse s st
  | .ok (i, b) =>
    if h.view1 then ⟨s, .ok, .busView (busView1 i b)⟩
    else ⟨s, .ok, .busView (busView0 i b ((s.runningPlan b).map s.planId))⟩

/-- BUS_LOOKUP (R25). -/
def execBusLookup (h : ReqHeader) (s : State) : Host.Outcome State Fault Refusal :=
  takeRequest ⟨h, .busLookup⟩ (applyBusLookup h) s

/-- R26: the entries of BUS_PLANS. -/
def State.planEntries (s : State) (b : Bus) : List (SlotId × PlanClass × PlanState) :=
  b.listedPlans.filterMap fun i => (s.plan i).map fun p => (⟨i, p.generation⟩, p.cls, p.state)

/-- R26. -/
def applyBusPlans (h : ReqHeader) (s : State) : Reply :=
  match s.resolveBus h with
  | .error st => refuse s st
  | .ok (_, b) => ⟨s, .ok, .planLists b.prioList.length b.stdList.length (s.planEntries b)⟩

/-- BUS_PLANS (R26). -/
def execBusPlans (h : ReqHeader) (s : State) : Host.Outcome State Fault Refusal :=
  takeRequest ⟨h, .busPlans⟩ (applyBusPlans h) s

/-- R33. -/
def applyBusUnblock (h : ReqHeader) (s : State) : Reply :=
  match s.findBus h.key.toNat with
  | none => refuse s .notFound
  | some (i, b) =>
    if b.block = .enabled then refuse s .notBlocked
    else ⟨s.putBus i { b with block := .enabled }, .ok, .none⟩

/-- BUS_UNBLOCK (R33). -/
def execBusUnblock (h : ReqHeader) (s : State) : Host.Outcome State Fault Refusal :=
  takeRequest ⟨h, .busUnblock⟩ (applyBusUnblock h) s

/-! ### DEPARTURE_SET, DEPARTURE_CLEAR (07) -/

/-- R122 item 2: the new part. -/
def newDeparture (capacity tDep eReq route : Nat) : Departure :=
  ⟨tDep, min eReq capacity, route, .pending, decide (capacity < eReq)⟩

/-- R122 item 6, R129: the readiness state DEPARTURE_SET gives. -/
def State.refreshReadiness (i : Nat) (s : State) : State :=
  s.modBus i fun b => b.setReadiness (s.readinessNow b).1 (s.readinessNow b).2

/-- R122 items 1 to 6. -/
def State.setDeparture (i : Nat) (d : Departure) (s : State) : State :=
  let s1 := (s.withdrawDeparture i).modBus i fun b => { b with departure := some d }
  let s2 := (s1.registerDeparture i d.tDep).testStep StepKind.isExport i
  (s2.withdrawIfIneligible i).refreshReadiness i

/-- R122: the result of DEPARTURE_SET. -/
def departureResult (i : Nat) (d : Departure) (s : State) : Result :=
  match s.bus i with
  | some b => .departure i d.tDep d.eReq d.reqClamped b.readiness b.slack
  | none => .none

/-- R122. -/
def applyDepartureSet (h : ReqHeader) (tDep eReq : Word) (route : Half) (s : State) : Reply :=
  match s.findBus h.key.toNat with
  | none => refuse s .notFound
  | some (i, b) =>
    if s.clock.mode = .unset then refuse s .timeUnset
    else if tDep.toNat ≤ s.now then refuse s .outOfRange
    else
      let d := newDeparture b.capacity tDep.toNat eReq.toNat route.toNat
      let s1 := s.setDeparture i d
      ⟨s1, .ok, departureResult i d s1⟩

/-- DEPARTURE_SET (R122). -/
def execDepartureSet (h : ReqHeader) (tDep eReq : Word) (route : Half) (s : State) :
    Host.Outcome State Fault Refusal :=
  takeRequest ⟨h, .departureSet tDep eReq route⟩ (applyDepartureSet h tDep eReq route) s

/-- R123. -/
def applyDepartureClear (h : ReqHeader) (s : State) : Reply :=
  match s.findBus h.key.toNat with
  | none => refuse s .notFound
  | some (i, b) => match b.departure with
    | none => ⟨s, .ok, .departureCleared none⟩
    | some d =>
      ⟨(s.putBus i ({ b with departure := none }.setReadiness .none none)).withdrawDeparture i, .ok,
        .departureCleared (some d.state)⟩

/-- DEPARTURE_CLEAR (R123). -/
def execDepartureClear (h : ReqHeader) (s : State) : Host.Outcome State Fault Refusal :=
  takeRequest ⟨h, .departureClear⟩ (applyDepartureClear h) s

end Sys2Proof.Machine
end

