-- ==== Sys2Proof/Machine/PortEvents.lean ====
section
/-! DEFINITION. The ports' own events (04): pilot levels, feedback, timers and link frames. -/

namespace Sys2Proof.Machine

open Sys2Proof

/-- A level of a seated connector that asks for a session (R70, R82). -/
def seated (l : PilotLevel) : Bool :=
  match l with
  | .plugged | .ready => true
  | .none | .fault => false

/-- R69: the filter takes a level. -/
def Port.takePilot (l : PilotLevel) (p : Port) : Port :=
  { p with taken := l, pilotLine := l, pilotCandidate := none }

/-- R74: a taken level other than NONE while a session is present. -/
def State.sessionLevel (n : PortNo) (l : PilotLevel) (s : State) : State :=
  match l with
  | .none | .ready => s
  | .plugged => s.updPort n Port.zeroHeld
  | .fault =>
    let s1 := s.updPort n Port.zeroHeld
    match (s.port n).boundSlot with
    | some i => s1.blockBus i .pilotFault
    | none => s1

/-- R68, R70 to R74, R79: what a port does at the taking of a level, by its state. -/
def State.actPilot (n : PortNo) (l : PilotLevel) (s : State) : State :=
  match (s.port n).state with
  | .offline | .faulted => s
  | .vacant =>
    if seated l && !(s.port n).settling.isRunning then s.updPort n (Port.enter .detecting) else s
  | .detecting => if seated l then s else s.updPort n (Port.enter .vacant)
  | .identifying =>
    if l = .none then s.updPort n fun p => { p with attempts := 0 }.enter .vacant else s
  | .connected | .energizing | .energized | .closing | .held =>
    if l = .none then s.unplug n else s.sessionLevel n l

/-- PILOT_LEVEL_TAKEN (R69 to R74); a level equal to the level already taken is not a taking. -/
def execPilotLevelTaken (n : PortNo) (l : PilotLevel) (s : State) :
    Host.Outcome State Fault Refusal :=
  if (s.port n).taken = l then .next s
  else .next ((s.setPort n (Port.takePilot l)).actPilot n l)

/-- SETTLING_END (R70). -/
def execSettlingEnd (n : PortNo) (s : State) : Host.Outcome State Fault Refusal :=
  if (s.port n).settling.isRunning then
    .next (s.updPort n fun p =>
      if seated p.taken then p.enter .detecting else { p with settling := .stopped })
  else .next s

/-- DEBOUNCE_END (R71, R95). -/
def execDebounceEnd (n : PortNo) (s : State) : Host.Outcome State Fault Refusal :=
  if (s.port n).debounce.isRunning then
    .next (s.updPort n (Port.beginExchange s.site.live.depotId))
  else .next s

/-- R75: the feedback filter takes a level. -/
def Port.takeFeedback (c : Contact) (p : Port) : Port :=
  { p with feedback := c, feedbackLine := c, feedbackCandidate := none }

/-- R68, R76, R77, R82: what a port does at a change of filtered feedback, by its state. -/
def State.actFeedback (n : PortNo) (c : Contact) (s : State) : State :=
  match (s.port n).state, c with
  | .energizing, .closed => s.updPort n (Port.enter .energized)
  | .energized, .opened => s.portFault n .drop
  | .closing, .opened => s.closingOpen n
  | _, _ => s

/-- FEEDBACK_TAKEN (R75 to R77, R82). A position already filtered changes nothing, except that an OPEN
that a trip's open command found ends CLOSING (log 37). -/
def execFeedbackTaken (n : PortNo) (c : Contact) (s : State) : Host.Outcome State Fault Refusal :=
  if (s.port n).feedback = c then .next (s.closingOpen n)
  else .next ((s.updPort n (Port.takeFeedback c)).actFeedback n c)

/-- CONFIRMATION_TIMEOUT (R76). -/
def execConfirmationTimeout (n : PortNo) (s : State) : Host.Outcome State Fault Refusal :=
  if (s.port n).confirmation.isRunning then .next (s.portFault n .failClose) else .next s

/-- OPEN_DELAY_EXPIRY (R77). -/
def execOpenDelayExpiry (n : PortNo) (s : State) : Host.Outcome State Fault Refusal :=
  if (s.port n).openDelay.isRunning then
    .next (s.updPort n fun p => { p with command := .opened }.enter .connected)
  else .next s

/-- R75: a weld found in FAULTED. -/
def Port.weldInFaulted (p : Port) : Port :=
  { p with faultCode := some .weld, weld := .stopped }.raise PortFlag.fault

/-- WELD_TIMER_EXPIRY (R75, R79). -/
def execWeldTimerExpiry (n : PortNo) (s : State) : Host.Outcome State Fault Refusal :=
  if (s.port n).weld.isRunning then
    if (s.port n).state = .faulted then .next (s.setPort n Port.weldInFaulted)
    else .next ((s.setPort n fun p => { p with weld := .stopped }).portFault n .weld)
  else .next s

/-- QUIET_TIMER_EXPIRY (R81). -/
def execQuietTimerExpiry (n : PortNo) (s : State) : Host.Outcome State Fault Refusal :=
  if (s.port n).quiet.isRunning then .next (s.giveOpen n) else .next s

/-- LIMIT_TIMER_EXPIRY (R81). -/
def execLimitTimerExpiry (n : PortNo) (s : State) : Host.Outcome State Fault Refusal :=
  if (s.port n).limit.isRunning then
    .next ((s.setPort n (Port.raise PortFlag.closeTimeout)).giveOpen n)
  else .next s

/-- SETPOINT_FRAME_REPEAT (R87). -/
def execSetpointFrameRepeat (n : PortNo) (s : State) : Host.Outcome State Fault Refusal :=
  if (s.port n).frameTimer.isRunning then .next (s.setPort n Port.sendFrame) else .next s

end Sys2Proof.Machine
end

