-- ==== Sys2Proof/Machine/ExchangeEvents.lean ====
section
/-! DEFINITION. The Pilot Exchange's events (05): enquiries, answers and the messages of a session. -/

namespace Sys2Proof.Machine

open Sys2Proof

/-- R93: the port reads its data channel. -/
def Port.reads (p : Port) : Bool := p.state != .offline && p.state != .faulted

/-- R93: the message is discarded and counted. -/
def Port.discard (p : Port) : Port := { p with discards := addHalf p.discards 1 }

/-- ENQUIRE_SENT (R95): the message has gone out; the answer timer starts while the port still waits. -/
def execEnquireSent (n : PortNo) (s : State) : Host.Outcome State Fault Refusal :=
  if (s.port n).enquire.isSome then
    .next (s.setPort n fun p =>
      { p with enquire := none, answer := if p.exchange = .waiting then .start 1000 else p.answer })
  else .next s

/-- R95: ENQUIRE is sent again. -/
def Port.enquireAgain (depotId : Nat) (p : Port) : Port :=
  { p with
    attempts := p.attempts + 1
    enquire := some ⟨p.number.val, depotId, 1⟩
    answer := .start 1000 }

/-- ANSWER_TIMER_EXPIRY (R95, R97). -/
def execAnswerTimerExpiry (n : PortNo) (s : State) : Host.Outcome State Fault Refusal :=
  if (s.port n).answer.isRunning then
    if (s.port n).attempts < 3 then .next (s.setPort n (Port.enquireAgain s.site.live.depotId))
    else .next (s.openUnidentified n .noAnswer none)
  else .next s

/-- ANNOUNCE (R93, R96 to R103, R106). -/
def execAnnounce (n : PortNo) (m : Announce) (s : State) : Host.Outcome State Fault Refusal :=
  match (s.port n).exchange with
  | .idle => .next s
  | .waiting => .next (s.judgeAnnounce n m)
  | .session => .next (s.setPort n Port.discard)

/-- R104: a LIMIT's values replace the announced ones. -/
def Session.limitTo (maxImport maxExport : Nat) (x : Session) : Session :=
  { x with announced := x.announced.map fun a =>
      { a with maxImport := maxImport, maxExport := maxExport } }

/-- R104: a LIMIT in a bound session. -/
def State.limitBus (n : PortNo) (i maxImport maxExport : Nat) (s : State) : State :=
  match s.bus i with
  | some b => s.updPort n fun p =>
      { p with session := p.session.map (Session.limitTo maxImport maxExport) }.reformCaps b
  | none => s

/-- LIMIT (R93, R104). -/
def execLimit (n : PortNo) (maxImport maxExport : Word) (s : State) :
    Host.Outcome State Fault Refusal :=
  match (s.port n).exchange with
  | .idle => .next s
  | .waiting => .next (s.setPort n Port.discard)
  | .session => match (s.port n).boundSlot with
    | some i => .next (s.limitBus n i maxImport.toNat maxExport.toNat)
    | none => .next (s.setPort n Port.discard)

/-- R98, R105: the last fault report of the exchange status. -/
def Port.storeReport (code now : Nat) (p : Port) : Port := { p with lastFault := some ⟨code, now⟩ }

/-- R98: a FAULT_REPORT in an unidentified session. -/
def Port.reportUnidentified (code now : Nat) (p : Port) : Port :=
  { (p.storeReport code now).zeroHeld with
    session := p.session.map fun x : Session => { x with importCap := 0 } }

/-- FAULT_REPORT (R93, R98, R105). -/
def execFaultReport (n : PortNo) (code : Byte) (s : State) : Host.Outcome State Fault Refusal :=
  match (s.port n).exchange with
  | .idle => .next s
  | .waiting => .next (s.setPort n Port.discard)
  | .session => match (s.port n).boundSlot with
    | some i => .next ((s.setPort n (Port.storeReport code.toNat s.now)).blockBus i .busReported)
    | none => .next (s.updPort n (Port.reportUnidentified code.toNat s.now))

/-- MESSAGE_CHECK_FAILURE (R93). -/
def execMessageCheckFailure (n : PortNo) (s : State) : Host.Outcome State Fault Refusal :=
  if (s.port n).reads then
    .next (s.setPort n fun p => { p with checkErrors := addHalf p.checkErrors 1 })
  else .next s

/-- UNKNOWN_TYPE_DISCARD (R93). -/
def execUnknownTypeDiscard (n : PortNo) (s : State) : Host.Outcome State Fault Refusal :=
  if (s.port n).reads then .next (s.setPort n Port.discard) else .next s

end Sys2Proof.Machine
end

