-- ==== Sys2Proof/Machine/MeterEvents.lean ====
section
/-! DEFINITION. The Meter Inputs' events (06). -/

namespace Sys2Proof.Machine

open Sys2Proof

/-- FILTERED_TRANSITION (R108, R110, R111): the output of a line changes, or both at one sample. -/
def execFilteredTransition (n : PortNo) (m : MovedLines) (s : State) :
    Host.Outcome State Fault Refusal :=
  match m with
  | .one l => .next (s.lineMoved n l (flipLevel ((s.port n).line l).output))
  | .both => .next (s.setPort n Port.moveBoth)

/-- LINE_FILTER_GLITCH (R108, R109): a sample at the output's level with the counter above 0. -/
def execLineFilterGlitch (n : PortNo) (l : MeterLine) (s : State) : Host.Outcome State Fault Refusal :=
  if 0 < ((s.port n).line l).counter then .next (s.setPort n (Port.glitchLine l)) else .next s

/-- R108: a sample that differs from the output raises the counter. -/
def LineFilter.raiseCounter (level : Level) (f : LineFilter) : LineFilter :=
  { f with pin := level, counter := f.counter + 1 }

/-- METER_LINE_SAMPLE (R108, R109): one line's sample, taken by itself. Two outputs that two such commands flip
make two counts; both at one sample is FILTERED_TRANSITION of both lines (log 41). -/
def execMeterLineSample (n : PortNo) (l : MeterLine) (level : Level) (s : State) :
    Host.Outcome State Fault Refusal :=
  let p := s.port n
  let f := p.line l
  if level = f.output then
    if 0 < f.counter then .next (s.setPort n (Port.glitchLine l))
    else .next (s.setPort n (Port.setLine l fun g => { g with pin := level }))
  else if p.filterThreshold ≤ f.counter + 1 then .next (s.lineMoved n l level)
  else .next (s.setPort n (Port.setLine l (LineFilter.raiseCounter level)))

/-- STALL_TIMER_EXPIRY (R120). A count or a setpoint change taken first has restarted the timer, and there is
no expiry then (log 3). -/
def execStallTimerExpiry (n : PortNo) (s : State) : Host.Outcome State Fault Refusal :=
  if (s.port n).stall.expired then
    let s1 := s.setPort n fun p => { p with stall := .stopped }
    match (s.port n).boundSlot with
    | some i => .next (s1.blockBus i .energyStall)
    | none => .next s1
  else .next s

end Sys2Proof.Machine
end

