-- ==== Sys2Proof/Machine/PlanRequests.lean ====
section
/-! DEFINITION. The Plan Table's requests (03). -/

namespace Sys2Proof.Machine

open Sys2Proof

/-- R40, R45 item 2: a new plan record. -/
def newPlan (generation busSlot : Nat) (cls : PlanClass) (unblock : Bool) (steps : List PlanStep) :
    Plan where
  generation := generation
  busSlot := busSlot
  cls := cls
  unblock := unblock
  steps := steps
  current := 1
  cond := none
  state := .queued
  outcome := none
  imported := 0
  exported := 0
  finish := none
  final := false

/-- R45 item 3: a plan is appended at the tail of its class's list. -/
def Bus.append (cls : PlanClass) (j : Nat) (b : Bus) : Bus :=
  match cls with
  | .priority => { b with prioList := b.prioList ++ [j] }
  | .standard => { b with stdList := b.stdList ++ [j] }

/-- The place of a plan in a list, counted from 1 at the head. -/
def placeIn (j : Nat) (l : List Nat) : Option Nat :=
  match l.findIdx? (· == j) with
  | some k => some (k + 1)
  | none => none

/-- R45, R62: the place of a listed plan in its list (none for a final plan: log 26). -/
def State.placeOf (s : State) (j : Nat) : Option Nat :=
  match s.plan j with
  | some p => match s.bus p.busSlot with
    | some b => placeIn j (match p.cls with | .priority => b.prioList | .standard => b.stdList)
    | none => none
  | none => none

/-- R45 items 1 to 3. -/
def State.placePlan (i j : Nat) (cls : PlanClass) (unblock : Bool) (steps : List PlanStep)
    (s : State) : State :=
  (s.putPlan j (newPlan (s.planGens.gen j) i cls unblock steps)).modBus i fun b =>
    { b with block := .enabled }.append cls j

/-- R45. -/
def State.submitPlan (i j : Nat) (cls : PlanClass) (unblock : Bool) (steps : List PlanStep)
    (s : State) : State :=
  let s1 := s.placePlan i j cls unblock steps
  let s2 := if cls = .priority then s1.preempt i else s1
  s2.selection i

/-- R45: the result of PLAN_SUBMIT. -/
def submitResult (j : Nat) (s : State) : Result :=
  match s.plan j with
  | some p =>
    .submitted ⟨j, p.generation⟩ p.state (s.placeOf j) (p.steps.map fun st => (st.cap, st.value))
  | none => .none

/-- R44 checks 3 to 5: block state, list room and a free slot. -/
def submitSlot (unblock : Bool) (b : Bus) (s : State) : Except Status Nat :=
  if b.block = .blocked ∧ unblock = false then .error .busBlocked
  else if 8 ≤ b.listedPlans.length then .error .listFull
  else match s.plans.firstFree 512 with
    | some j => .ok j
    | none => .error .tableFull

/-- R44 check 2: the class, the step count and the read steps, as stored. -/
def submitFields (h : ReqHeader) (raws : List RawStep) (capacity : Nat) :
    Option (PlanClass × List PlanStep) :=
  match h.planClass with
  | none => none
  | some cls =>
    if h.stepCount = 0 ∨ 4 < h.stepCount then none
    else (storeSteps capacity (raws.take h.stepCount)).map fun steps => (cls, steps)

/-- R44, R45. -/
def applyPlanSubmit (h : ReqHeader) (raws : List RawStep) (s : State) : Reply :=
  match s.findBus h.key.toNat with
  | none => refuse s .notFound
  | some (i, b) => match submitFields h raws b.capacity with
    | none => refuse s .outOfRange
    | some (cls, steps) => match submitSlot h.unblock b s with
      | .error st => refuse s st
      | .ok j =>
        let s1 := s.submitPlan i j cls h.unblock steps
        ⟨s1, .ok, submitResult j s1⟩

/-- PLAN_SUBMIT (R44, R45). -/
def execPlanSubmit (h : ReqHeader) (s1 s2 s3 s4 : RawStep) (s : State) :
    Host.Outcome State Fault Refusal :=
  takeRequest ⟨h, .planSubmit s1 s2 s3 s4⟩ (applyPlanSubmit h [s1, s2, s3, s4]) s

/-- R59: the effects of a cancel. -/
def State.cancelPlan (j : Nat) (p : Plan) (s : State) : State :=
  let s1 := s.finalise j .cancelled .cancelled
  if p.state = .running then (s1.releasePower p.busSlot).selection p.busSlot else s1

/-- R59: the result of PLAN_CANCEL. -/
def cancelResult (j : Nat) (s : State) : Result :=
  match s.plan j with
  | some p => .planEnded ⟨j, p.generation⟩ p.state p.outcome p.finish p.imported p.exported
  | none => .none

/-- R59. -/
def applyPlanCancel (h : ReqHeader) (s : State) : Reply :=
  match s.resolvePlan h with
  | .error st => refuse s st
  | .ok (j, p) =>
    if p.state.listed then
      let s1 := s.cancelPlan j p
      ⟨s1, .ok, cancelResult j s1⟩
    else refuse s .planFinal

/-- PLAN_CANCEL (R59). -/
def execPlanCancel (h : ReqHeader) (s : State) : Host.Outcome State Fault Refusal :=
  takeRequest ⟨h, .planCancel⟩ (applyPlanCancel h) s

/-- R61. -/
def applyPlanRetire (h : ReqHeader) (s : State) : Reply :=
  match s.resolvePlan h with
  | .error st => refuse s st
  | .ok (j, p) =>
    if p.state.listed then refuse s .planActive
    else
      let s1 := s.freePlan j
      ⟨s1, .ok, .freed j (s1.planGens.gen j)⟩

/-- PLAN_RETIRE (R61). -/
def execPlanRetire (h : ReqHeader) (s : State) : Host.Outcome State Fault Refusal :=
  takeRequest ⟨h, .planRetire⟩ (applyPlanRetire h) s

/-- R62: view 0. -/
def State.planView (s : State) (j : Nat) (p : Plan) : PlanView where
  id := ⟨j, p.generation⟩
  busSlot := p.busSlot
  busNumber := match s.bus p.busSlot with
    | some b => b.number
    | none => 0
  cls := p.cls
  unblock := p.unblock
  stepCount := p.steps.length
  current := p.current
  cond := p.cond
  state := p.state
  outcome := p.outcome
  finish := p.finish
  imported := p.imported
  exported := p.exported
  final := p.final
  place := if p.state.listed then s.placeOf j else none

/-- R62: views 1 and 2: steps 1 and 2, steps 3 and 4. -/
def stepPair (p : Plan) (k : Nat) : List Byte := stepBytes p.steps[k]? ++ stepBytes p.steps[k + 1]?

/-- R62. -/
def applyPlanLookup (h : ReqHeader) (s : State) : Reply :=
  match s.resolvePlan h with
  | .error st => refuse s st
  | .ok (j, p) =>
    if h.view2 then ⟨s, .ok, .planSteps ⟨j, p.generation⟩ (stepPair p 2)⟩
    else if h.view1 then ⟨s, .ok, .planSteps ⟨j, p.generation⟩ (stepPair p 0)⟩
    else ⟨s, .ok, .planView (s.planView j p)⟩

/-- PLAN_LOOKUP (R62). -/
def execPlanLookup (h : ReqHeader) (s : State) : Host.Outcome State Fault Refusal :=
  takeRequest ⟨h, .planLookup⟩ (applyPlanLookup h) s

end Sys2Proof.Machine
end

