-- ==== Sys2Proof/Machine/PortRequests.lean ====
section
/-! DEFINITION. The ports' requests (04): PORT_GO, PORT_CANCEL, PORT_CONFIGURE, PORT_LOOKUP. -/

namespace Sys2Proof.Machine

open Sys2Proof

/-! ### PORT_GO -/

/-- R80: what a target does from a state: reached at once, pending, or refused. -/
inductive GoAction where
  | reach
  | close
  | refuse
deriving DecidableEq, Repr

/-- R80: the table of targets and states. -/
def goAction (t : PortTarget) (st : PortState) : GoAction :=
  match t, st with
  | .offline, .offline => .reach
  | .offline, .vacant => .reach
  | .offline, .detecting => .reach
  | .offline, .identifying => .reach
  | .offline, .faulted => .reach
  | .offline, .connected => .close
  | .offline, .energizing => .close
  | .offline, .energized => .close
  | .offline, .held => .close
  | .vacant, .offline => .reach
  | .vacant, .faulted => .reach
  | .reidentify, .connected => .close
  | .reidentify, .energized => .close
  | _, _ => .refuse

/-- R80: the checks of PORT_GO after the first. -/
def goRefusal (t : PortTarget) (p : Port) : Option Status :=
  if p.pendingTarget.isSome then some .portBusy
  else if goAction t p.state = .refuse then some .portState
  else if t = .vacant ∧ p.state = .faulted ∧ p.feedback = .closed then some .welded
  else none

/-- R80: a target that is reached in the same event. -/
def Port.reach (t : PortTarget) (now : Nat) (p : Port) : Port :=
  (p.endIdentification.endTransition t .reached now).enter
    (if t = .vacant then .vacant else .offline)

/-- R80: the action of a request that passes. -/
def Port.go (t : PortTarget) (now : Nat) (p : Port) : Port :=
  match goAction t p.state with
  | .close => p.enterClosing t
  | _ => p.reach t now

/-- R80. -/
def applyPortGo (port : Word) (target : Byte) (s : State) : Reply :=
  match portOf port, targetOf target with
  | some n, some t => match goRefusal t (s.port n) with
    | some st => refuse s st
    | none =>
      let s1 := s.updPort n (Port.go t s.now)
      ⟨s1, if goAction t (s.port n).state = .close then .accepted else .ok,
        .portMoved (s1.port n).state (s1.port n).pendingTarget⟩
  | _, _ => refuse s .outOfRange

/-- PORT_GO (R80, R81). -/
def execPortGo (h : ReqHeader) (port : Word) (target : Byte) (s : State) :
    Host.Outcome State Fault Refusal :=
  takeRequest ⟨h, .portGo port target⟩ (applyPortGo port target) s

/-! ### PORT_CANCEL -/

/-- R83: a cancel that is taken. -/
def Port.cancel (t : PortTarget) (now : Nat) (p : Port) : Port :=
  { p.endTransition t .cancelled now with command := .opened }.enter .connected

/-- R83. -/
def applyPortCancel (port : Word) (s : State) : Reply :=
  match portOf port with
  | none => refuse s .outOfRange
  | some n => match (s.port n).pendingTarget with
    | none => refuse s .nothingPending
    | some t =>
      if (s.port n).openGiven then refuse s .tooLate
      else
        let s1 := s.updPort n (Port.cancel t s.now)
        ⟨s1, .ok, .portState (s1.port n).state⟩

/-- PORT_CANCEL (R83). -/
def execPortCancel (h : ReqHeader) (port : Word) (s : State) : Host.Outcome State Fault Refusal :=
  takeRequest ⟨h, .portCancel port⟩ (applyPortCancel port) s

/-! ### PORT_CONFIGURE -/

/-- R88: the checks of PORT_CONFIGURE after the port number. -/
def configureRefusal (f : PortPatch) (p : Port) : Option Status :=
  if !(inRange 1 100 f.energyPerCount && inRange 1 255 f.filterThreshold) then some .outOfRange
  else if (f.energyPerCount.isSome ∨ f.filterThreshold.isSome) ∧ p.state ≠ .offline then
    some .portInUse
  else none

/-- R88: a rating is carried. -/
def carriesRating (f : PortPatch) : Bool := f.importRating.isSome || f.exportRating.isSome

/-- R88: the staged ratings after the request. -/
def stagedAfter (f : PortPatch) (r : Ratings) : Ratings :=
  ⟨stageRating 150000 r.imp f.importRating, stageRating 60000 r.exp f.exportRating⟩

/-- R88: the carried ratings are staged and the load-pending indication set. -/
def State.stageRatings (n : PortNo) (f : PortPatch) (s : State) : State :=
  { s with site :=
    { s.site with
      stagedRatings := s.site.stagedRatings.set n (stagedAfter f s.site.stagedRatings[n])
      loadPending := true } }

/-- R88: the carried fields of the port record. -/
def Port.configure (f : PortPatch) (p : Port) : Port :=
  { p with
    energyPerCount := keep p.energyPerCount f.energyPerCount
    filterThreshold := keep p.filterThreshold f.filterThreshold }

/-- R88, R9: a request that passes. -/
def State.configurePort (n : PortNo) (f : PortPatch) (s : State) : State :=
  let s1 := s.setPort n (Port.configure f)
  if carriesRating f then (s1.stageRatings n f).loadIfStopped else s1

/-- R88. -/
def applyPortConfigure (port : Word) (f : PortPatch) (s : State) : Reply :=
  match portOf port with
  | none => refuse s .outOfRange
  | some n => match configureRefusal f (s.port n) with
    | some st => refuse s st
    | none =>
      let s1 := s.configurePort n f
      ⟨s1, if carriesRating f then s.stagedStatus else .ok,
        .portConfig s1.site.stagedRatings[n] (s1.port n).energyPerCount
          (s1.port n).filterThreshold⟩

/-- PORT_CONFIGURE (R88). -/
def execPortConfigure (h : ReqHeader) (port : Word) (f : PortPatch) (s : State) :
    Host.Outcome State Fault Refusal :=
  takeRequest ⟨h, .portConfigure port f⟩ (applyPortConfigure port f) s

/-! ### PORT_LOOKUP -/

/-- The number of the bus bound at a port, 0 when none is (section 11.6). -/
def State.boundNumber (s : State) (n : PortNo) : Nat :=
  match (s.port n).boundSlot with
  | some i => match s.bus i with
    | some b => b.number
    | none => 0
  | none => 0

/-- R89, R91, R107. -/
def applyPortLookup (h : ReqHeader) (port : Word) (s : State) : Reply :=
  match portOf port with
  | none => refuse s .outOfRange
  | some n =>
    if h.view1 then ⟨s, .ok, .portView (portView1 (s.port n))⟩
    else ⟨s, .ok, .portView (portView0 (s.port n) (s.rating n) (s.boundNumber n))⟩

/-- PORT_LOOKUP (R89). -/
def execPortLookup (h : ReqHeader) (port : Word) (s : State) : Host.Outcome State Fault Refusal :=
  takeRequest ⟨h, .portLookup port⟩ (applyPortLookup h port) s

end Sys2Proof.Machine
end

