-- ==== Sys2Proof/Machine/ReserveCommands.lean ====
section
/-! DEFINITION. The Reserve Unit's commands (09) and the Protection Latch's (10). -/

namespace Sys2Proof.Machine

open Sys2Proof

/-! ### COMMIT_OFFER -/

/-- R159: the fields of COMMIT_OFFER. -/
structure Offer where
  windowStart : Nat
  windowEnd   : Nat
  target      : Nat
  tolerance   : Nat

/-- R159 check 2. -/
def Offer.ok (now : Nat) (o : Offer) : Bool :=
  decide (o.windowStart < o.windowEnd) && decide (o.windowEnd - o.windowStart ≤ 14400)
  && decide (now < o.windowEnd) && decide (1000 ≤ o.target) && decide (o.target ≤ 2000000)
  && decide (o.tolerance ≤ 100)

/-- R158, R159: a new commitment record. -/
def newCommitment (generation now armLead : Nat) (o : Offer) : Commitment :=
  let point := armPointOf o.windowStart armLead
  { generation := generation
    windowStart := o.windowStart
    windowEnd := o.windowEnd
    armPoint := point
    target := o.target
    tolerance := o.tolerance
    state := if now < point then .pending else .armed
    phase := if now < o.windowStart then .ahead else .opened
    headroom := none
    headroomLow := false
    source := none
    baseline := none
    activation := none
    periods := 0
    shortPeriods := 0
    relief := none
    delivered := 0
    carry := 0
    outcome := none
    endTime := none
    flags := if now < point then 0 else CommitFlag.armed }

/-- R159: an offer that passes. -/
def State.offerIn (i : Nat) (o : Offer) (s : State) : State :=
  let c := newCommitment (s.commitGens.gen i) s.now s.site.live.armLead o
  (s.putCommit i c).registerOffer i c.armPoint c.windowStart c.windowEnd

/-- R159: the result of COMMIT_OFFER. -/
def offerResult (i : Nat) (s : State) : Result :=
  match s.commit i with
  | some c => .offered ⟨i, c.generation⟩ c.state c.phase c.armPoint
  | none => .none

/-- R159. -/
def applyCommitOffer (o : Offer) (s : State) : Reply :=
  if s.clock.mode = .unset then refuse s .timeUnset
  else if !o.ok s.now then refuse s .outOfRange
  else match s.commits.firstFree 16 with
    | none => refuse s .tableFull
    | some i =>
      let s1 := s.offerIn i o
      ⟨s1, .ok, offerResult i s1⟩

/-- COMMIT_OFFER (R159). -/
def execCommitOffer (h : ReqHeader) (windowStart windowEnd target tolerance : Word) (s : State) :
    Host.Outcome State Fault Refusal :=
  takeRequest ⟨h, .commitOffer windowStart windowEnd target tolerance⟩
    (applyCommitOffer ⟨windowStart.toNat, windowEnd.toNat, target.toNat, tolerance.toNat⟩) s

/-! ### The other requests -/

/-- R162. -/
def applyCommitWithdraw (h : ReqHeader) (s : State) : Reply :=
  match s.resolveCommit h with
  | .error st => refuse s st
  | .ok (i, c) =>
    if c.state = .pending ∨ c.state = .armed then
      ⟨s.endCommit i .withdrawn, .ok, .withdrawn ⟨i, c.generation⟩ s.now⟩
    else refuse s .commitState

/-- COMMIT_WITHDRAW (R162). -/
def execCommitWithdraw (h : ReqHeader) (s : State) : Host.Outcome State Fault Refusal :=
  takeRequest ⟨h, .commitWithdraw⟩ (applyCommitWithdraw h) s

/-- R164: the checks of COMMIT_DISPATCH, in order. -/
def dispatchRefusal (c : Commitment) (s : State) : Option Status :=
  if c.state ≠ .armed then some .commitState
  else if c.phase ≠ .opened then some .notInWindow
  else if s.activeCommit.isSome then some .reserveBusy
  else if !s.engine.running then some .allocState
  else if s.supervision.state ≠ .supervised then some .supervisionLapsed
  else if s.protection.latch then some .tripActive
  else none

/-- R164, R167. -/
def applyCommitDispatch (h : ReqHeader) (s : State) : Reply :=
  match s.resolveCommit h with
  | .error st => refuse s st
  | .ok (i, c) => match dispatchRefusal c s with
    | some st => refuse s st
    | none =>
      ⟨s.activate i .request, .ok,
        .dispatched ⟨i, c.generation⟩ s.recordedNet (s.recordedNet - (c.target : Int)) s.now⟩

/-- COMMIT_DISPATCH (R164, R167). -/
def execCommitDispatch (h : ReqHeader) (s : State) : Host.Outcome State Fault Refusal :=
  takeRequest ⟨h, .commitDispatch⟩ (applyCommitDispatch h) s

/-- R171. -/
def applyCommitRelease (h : ReqHeader) (s : State) : Reply :=
  match s.resolveCommit h with
  | .error st => refuse s st
  | .ok (i, c) =>
    if c.state = .active then
      ⟨s.endNormally i c, .ok, .released c.normalOutcome c.periods c.shortPeriods c.delivered⟩
    else refuse s .commitState

/-- COMMIT_RELEASE (R171). -/
def execCommitRelease (h : ReqHeader) (s : State) : Host.Outcome State Fault Refusal :=
  takeRequest ⟨h, .commitRelease⟩ (applyCommitRelease h) s

/-- R173: view 0. -/
def State.commitView0 (s : State) (i : Nat) (c : Commitment) : CommitView0 where
  id := ⟨i, c.generation⟩
  windowStart := c.windowStart
  windowEnd := c.windowEnd
  armPoint := c.armPoint
  target := c.target
  tolerance := c.tolerance
  state := c.state
  phase := c.phase
  headroom := c.headroom
  headroomLow := c.headroomLow
  outcome := c.outcome
  endTime := c.endTime
  flags := c.flags
  lineLevel := s.dispatch.filtered
  activeSlot := s.activeCommit.map Prod.fst

/-- R173: view 1. -/
def commitView1 (i : Nat) (c : Commitment) : CommitView1 where
  id := ⟨i, c.generation⟩
  source := c.source
  baseline := c.baseline
  capNet := c.baseline.map fun _ => c.capNet
  activation := c.activation
  periods := c.periods
  shortPeriods := c.shortPeriods
  relief := c.relief
  delivered := c.delivered
  carry := c.carry

/-- R173. -/
def applyCommitLookup (h : ReqHeader) (s : State) : Reply :=
  match s.resolveCommit h with
  | .error st => refuse s st
  | .ok (i, c) =>
    if h.view1 then ⟨s, .ok, .commitView1 (commitView1 i c)⟩
    else ⟨s, .ok, .commitView0 (s.commitView0 i c)⟩

/-- COMMIT_LOOKUP (R173). -/
def execCommitLookup (h : ReqHeader) (s : State) : Host.Outcome State Fault Refusal :=
  takeRequest ⟨h, .commitLookup⟩ (applyCommitLookup h) s

/-- R157, R174: frees a commitment slot; its generation increases by one. -/
def State.freeCommit (i : Nat) (s : State) : State :=
  { s with commits := s.commits.del i, commitGens := s.commitGens.bumpGen i }

/-- R174. -/
def applyCommitRetire (h : ReqHeader) (s : State) : Reply :=
  match s.resolveCommit h with
  | .error st => refuse s st
  | .ok (i, c) =>
    if c.state.final then
      let s1 := s.freeCommit i
      ⟨s1, .ok, .freed i (s1.commitGens.gen i)⟩
    else refuse s .commitState

/-- COMMIT_RETIRE (R174). -/
def execCommitRetire (h : ReqHeader) (s : State) : Host.Outcome State Fault Refusal :=
  takeRequest ⟨h, .commitRetire⟩ (applyCommitRetire h) s

/-! ### The GRID_DISPATCH line (R165, R166, R171) -/

/-- R165: the filtered level changes. -/
def State.takeDispatch (level : Bool) (s : State) : State :=
  { s with dispatch := ⟨level, level, none⟩ }

/-- R166: a rising edge. -/
def State.risingEdge (s : State) : State :=
  match s.lineChoice with
  | some i =>
    if s.activeCommit.isNone && s.reserveReady then s.activate i .line
    else s.raiseSite SiteFlag.dispatchIgnored
  | none => s.raiseSite SiteFlag.dispatchIgnored

/-- GRID_DISPATCH_RISING_EDGE (R165, R166). -/
def execGridDispatchRisingEdge (s : State) : Host.Outcome State Fault Refusal :=
  if s.dispatch.filtered then .next s else .next (s.takeDispatch true).risingEdge

/-- R171: a falling edge. -/
def State.fallingEdge (s : State) : State :=
  match s.activeCommit with
  | some (i, c) => if c.source = some .line then s.endNormally i c else s
  | none => s

/-- GRID_DISPATCH_FALLING_EDGE (R165, R171). -/
def execGridDispatchFallingEdge (s : State) : Host.Outcome State Fault Refusal :=
  if s.dispatch.filtered then .next (s.takeDispatch false).fallingEdge else .next s

/-! ### The Protection Latch (10) -/

/-- R85, R177 item 2: what a trip does to a port, before a CLOSING port's open command. -/
def Port.trip (p : Port) : Port :=
  match p.state with
  | .connected | .energizing | .energized => { p.zeroHeld with command := .opened }.enter .held
  | .closing => p.zeroHeld
  | _ => { p.zeroHeld with command := .opened }

/-- R82, R177 item 2: a CLOSING port gives its open command if it has not yet given it; the trip does not
end CLOSING, whatever the feedback shows (log 37). -/
def State.tripClosing (n : PortNo) (s : State) : State :=
  if (s.port n).state = .closing ∧ (s.port n).openGiven = false then s.commandOpen n else s

/-- R177: the effects of an assertion taken while the latch is CLEAR. -/
def State.trip (s : State) : State :=
  let s1 := { s with protection := ⟨true, true⟩ }.raiseSite SiteFlag.trip
  let s2 := s1.updPorts fun _ p => p.trip
  (allPorts.foldl (fun t n => t.tripClosing n) s2).interruptActive

/-- SITE_TRIP_ASSERTION (R176, R177): the line goes from deasserted to asserted. -/
def execSiteTripAssertion (s : State) : Host.Outcome State Fault Refusal :=
  if s.protection.line then .next s
  else if s.protection.latch then
    .next ({ s with protection := ⟨true, true⟩ }.raiseSite SiteFlag.trip)
  else .next s.trip

/-- SITE_TRIP_DEASSERTION (R176): the latch stays as it is. -/
def execSiteTripDeassertion (s : State) : Host.Outcome State Fault Refusal :=
  .next { s with protection := ⟨false, s.protection.latch⟩ }

/-- R86: a port in HELD goes to CONNECTED with its session kept. -/
def Port.unhold (p : Port) : Port := if p.state = .held then p.enter .connected else p

/-- R179: the ports in HELD. -/
def State.heldPorts (s : State) : Nat := (s.ports.toList.filter fun p => p.state == .held).length

/-- R179: the latch is cleared. -/
def State.clearLatch (s : State) : State :=
  { s with protection := ⟨s.protection.line, false⟩ }.updPorts fun _ p => p.unhold

/-- R179. -/
def applyClearTrip (s : State) : Reply :=
  if s.protection.line then refuse s .tripActive
  else if s.protection.latch then ⟨s.clearLatch, .ok, .tripCleared false s.heldPorts⟩
  else ⟨s, .ok, .tripCleared false 0⟩

/-- CLEAR_TRIP (R179). -/
def execClearTrip (h : ReqHeader) (s : State) : Host.Outcome State Fault Refusal :=
  takeRequest ⟨h, .clearTrip⟩ applyClearTrip s

end Sys2Proof.Machine
end

