-- ==== Sys2Proof/Machine/RingCommands.lean ====
section
/-! DEFINITION. The register window and the rings' events (11), and UNKNOWN_KIND. -/

namespace Sys2Proof.Machine

open Sys2Proof

/-- UNKNOWN_KIND (R188): applied by no block. A kind of 1 to 33 is no such command (log 19). -/
def execUnknownKind (h : ReqHeader) (kind : Byte) (s : State) : Host.Outcome State Fault Refusal :=
  if unknownKindOk kind then takeRequest ⟨h, .unknownKind kind⟩ (fun t => refuse t .unknownKind) s
  else .fault .illFormed

/-- REQUEST_WRITE_POINTER_WRITE (R185, R186). -/
def execRequestWritePointerWrite (v : Word) (s : State) : Host.Outcome State Fault Refusal :=
  if v.toNat < s.ring.request.size then
    .next (s.modRing fun r =>
      { r with request := { r.request with write := v.toNat } }.startBurst)
  else .next s

/-- COMPLETION_READ_POINTER_WRITE (R185). -/
def execCompletionReadPointerWrite (v : Word) (s : State) : Host.Outcome State Fault Refusal :=
  if v.toNat < s.ring.completion.size then
    .next (s.modRing fun r => { r with completion := { r.completion with read := v.toNat } })
  else .next s

/-- Changes the registers of one ring. -/
def Ring.modRegs (i : RingId) (f : RingRegs → RingRegs) (r : Ring) : Ring :=
  match i with
  | .request => { r with request := f r.request }
  | .completion => { r with completion := f r.completion }

/-- R184: a base write, its low six bits taken as 0. -/
def RingRegs.setBase (a : Addr) (r : RingRegs) : RingRegs :=
  { r with base := a &&& ~~~63#64, baseSet := true }

/-- RING_BASE_WRITE (R184). -/
def execRingBaseWrite (i : RingId) (a : Addr) (s : State) : Host.Outcome State Fault Refusal :=
  if s.ring.state = .stopped then .next (s.modRing (Ring.modRegs i (RingRegs.setBase a)))
  else .next s

/-- R184: a size write also sets the ring's pointers to 0. -/
def RingRegs.setSize (n : Nat) (r : RingRegs) : RingRegs := { r with size := n, write := 0, read := 0 }

/-- RING_SIZE_WRITE (R184). -/
def execRingSizeWrite (i : RingId) (entries : Word) (s : State) : Host.Outcome State Fault Refusal :=
  if s.ring.state = .stopped then .next (s.modRing (Ring.modRegs i (RingRegs.setSize entries.toNat)))
  else .next s

/-- R184: a base that is set and a size of 16 to 4,096. -/
def RingRegs.usable (r : RingRegs) : Bool :=
  r.baseSet && decide (16 ≤ r.size) && decide (r.size ≤ 4096)

/-- RING_ENABLE (R184, R186). -/
def execRingEnable (s : State) : Host.Outcome State Fault Refusal :=
  if s.ring.state = .stopped ∧ s.ring.request.usable ∧ s.ring.completion.usable then
    .next (s.modRing fun r => { r with state := .running, enable := true }.startBurst)
  else .next s

/-- RING_DISABLE (R184). -/
def execRingDisable (s : State) : Host.Outcome State Fault Refusal :=
  if s.ring.state = .running then
    .next (s.modRing fun r => { r with state := .stopped, enable := false })
  else .next s

/-- R190. -/
def Ring.reset (r : Ring) : Ring :=
  { r with
    state := .stopped
    request := { r.request with write := 0, read := 0 }
    completion := { r.completion with write := 0, read := 0 }
    enable := false
    buffer := []
    burst := none
    writing := none
    unreported := 0
    holdTimer := .stopped
    pendingFlag := false }

/-- RING_RESET (R190). -/
def execRingReset (s : State) : Host.Outcome State Fault Refusal := .next (s.modRing Ring.reset)

/-- A register value clamped to a range (R184). -/
def clampReg (lo hi : Nat) (v : Word) : Nat := max lo (min hi v.toNat)

/-- COMPLETION_THRESHOLD_WRITE (R184, R189). -/
def execCompletionThresholdWrite (v : Word) (s : State) : Host.Outcome State Fault Refusal :=
  .next (s.modRing fun r => { r with threshold := clampReg 1 64 v }.checkCount)

/-- COMPLETION_HOLD_TIME_WRITE (R184). -/
def execCompletionHoldTimeWrite (v : Word) (s : State) : Host.Outcome State Fault Refusal :=
  .next (s.modRing fun r => { r with holdTime := clampReg 1 1000 v })

/-- ATTENTION_MASK_WRITE (R183, R191; log 17). -/
def execAttentionMaskWrite (v : Word) (s : State) : Host.Outcome State Fault Refusal :=
  .next { s with mask := v.extractLsb' 0 5 }

/-- INTERRUPT_ACKNOWLEDGE (R184, R189). -/
def execInterruptAcknowledge (v : Word) (s : State) : Host.Outcome State Fault Refusal :=
  if v.getLsbD 0 then .next (s.modRing fun r => { r with pendingFlag := false }) else .next s

/-- R186: a burst's requests are appended and the read pointer advances; a further burst can start. -/
def Ring.endBurst (rs : List Request) (r : Ring) : Ring :=
  { r with
    buffer := r.buffer ++ rs
    request := r.request.advanceRead rs.length
    burst := none }.startBurst

/-- FETCH_BURST_END (R186): the requests are those the burst in flight read, in the order of its entries
(log 23). -/
def execFetchBurstEnd (rs : List Request) (s : State) : Host.Outcome State Fault Refusal :=
  if burstOk rs then
    if s.ring.burst.map FetchBurst.count = some rs.length then .next (s.modRing (Ring.endBurst rs)) else .next s
  else .fault .illFormed

/-- FETCH_ERROR (R187). -/
def execFetchError (s : State) : Host.Outcome State Fault Refusal :=
  if s.ring.burst.isSome then .next ((s.modRing fun r => { r with burst := none }).ringError)
  else .next s

/-- R188: a completion write has been issued. -/
def Ring.endWrite (r : Ring) : Ring :=
  { r with writing := none, completion := r.completion.advanceWrite }.countOne

/-- COMPLETION_WRITE_DONE (R188, R189). -/
def execCompletionWriteDone (s : State) : Host.Outcome State Fault Refusal :=
  if s.ring.writing.isSome then .next (s.modRing Ring.endWrite) else .next s

/-- COMPLETION_WRITE_ERROR (R187). -/
def execCompletionWriteError (s : State) : Host.Outcome State Fault Refusal :=
  if s.ring.writing.isSome then .next ((s.modRing fun r => { r with writing := none }).ringError)
  else .next s

/-- HOLD_TIMER_EXPIRY (R189). -/
def execHoldTimerExpiry (s : State) : Host.Outcome State Fault Refusal :=
  if s.ring.holdTimer.isRunning then .next (s.modRing Ring.report) else .next s

end Sys2Proof.Machine
end

