-- ==== Sys2Proof/Machine/SiteRequests.lean ====
section
/-! DEFINITION. The site profile's requests (01): SITE_CONFIGURE, SITE_LOAD_REPORT, SITE_LOOKUP. -/

namespace Sys2Proof.Machine

open Sys2Proof

/-- R10: the carried fields go into the staged copy and the load-pending indication is set. -/
def State.stageSite (f : SitePatch) (s : State) : State :=
  { s with site := { s.site with staged := f.write s.site.staged, loadPending := true } }

/-- R9, R10: SITE_CONFIGURE by its fields (an empty one: log 29). -/
def applySiteConfigure (f : SitePatch) (s : State) : Reply :=
  if !f.ok then refuse s .outOfRange
  else if f.empty then ⟨s, s.stagedStatus, .loadPending s.site.loadPending⟩
  else
    let s1 := (s.stageSite f).loadIfStopped
    ⟨s1, s.stagedStatus, .loadPending s1.site.loadPending⟩

/-- SITE_CONFIGURE (R10). -/
def execSiteConfigure (h : ReqHeader) (f : SitePatch) (s : State) : Host.Outcome State Fault Refusal :=
  takeRequest ⟨h, .siteConfigure f⟩ (applySiteConfigure f) s

/-- R11: the clamped report is stored with now, and any stale episode ends. -/
def applySiteLoadReport (watts : Word) (s : State) : Reply :=
  let w := min watts.toNat 4000000
  ⟨{ s with site := { s.site with report := some ⟨w, s.now⟩, staleOpen := false } }, .ok, .stored w⟩

/-- SITE_LOAD_REPORT (R11). -/
def execSiteLoadReport (h : ReqHeader) (watts : Word) (s : State) :
    Host.Outcome State Fault Refusal :=
  takeRequest ⟨h, .siteLoadReport watts⟩ (applySiteLoadReport watts) s

/-- R13: the TIME_AND_LOAD view. The age of a report that is not held is absent: the model's choice, since the
rule marks the value and the time alone (log 35). -/
def State.timeAndLoad (s : State) : TimeAndLoad where
  mode := s.clock.mode
  time := s.now
  day := s.clock.day
  boundary := match s.clock.mode with
    | .unset => none
    | .set => nextBoundary s.clock.day s.site.live.rolloverOffset
  report := s.site.report
  age := s.site.report.map (LoadReport.age s.now)
  staleOpen := s.site.staleOpen
  base := s.site.lastBase

/-- R13: the views by selector (log 6). -/
def applySiteLookup (selector : Byte) (port : Word) (s : State) : Reply :=
  match selector.toNat with
  | 0 => ⟨s, .ok, .siteParams s.site.live s.site.loadPending⟩
  | 1 => ⟨s, .ok, .siteParams s.site.staged s.site.loadPending⟩
  | 2 => match portOf port with
    | some n =>
      ⟨s, .ok, .ratings s.site.stagedRatings[n] s.site.liveRatings[n] s.site.loadPending⟩
    | none => refuse s .outOfRange
  | 3 => ⟨s, .ok, .timeAndLoad s.timeAndLoad⟩
  | _ => refuse s .outOfRange

/-- SITE_LOOKUP (R13). -/
def execSiteLookup (h : ReqHeader) (selector : Byte) (port : Word) (s : State) :
    Host.Outcome State Fault Refusal :=
  takeRequest ⟨h, .siteLookup selector port⟩ (applySiteLookup selector port) s

end Sys2Proof.Machine
end

