-- ==== Sys2Proof/Machine/TimeCommands.lean ====
section
/-! DEFINITION. Power-on, the depot clock and its crossings (01): the commands of power and time. -/

namespace Sys2Proof.Machine

open Sys2Proof

/-- R176: at power-on a latch that starts SET sets TRIP, the only site flag set then. -/
def poweredOn (l : LineLevels) (queue : List Instr) : State :=
  { State.reset with
    ports := Vector.ofFn fun n => Port.powerOn n l.meter[n]
    dispatch := ⟨l.gridDispatch, l.gridDispatch, none⟩
    protection := ⟨l.siteTrip, l.siteTrip⟩
    siteFlags := if l.siteTrip then SiteFlag.trip else 0
    pending := queue }

/-- POWER_ON (R1, R8, R15, R38, R64, R107, R135, R157, R165, R176, R180, R183). -/
def execPowerOn (l : LineLevels) (s : State) : Host.Outcome State Fault Refusal :=
  .next (poweredOn l s.pending)

/-- R1: one second of the timebase has passed since the last SET_TIME or the last advance. -/
def Clock.secondOver (c : Clock) : Bool := decide (1000 ≤ c.phase)

/-- DEPOT_TIME_ADVANCE (R1, R3): the end of a second in SET. R2: a SET_TIME taken first restarts the second, so
the advance is then due one second later (log 3). -/
def execDepotTimeAdvance (s : State) : Host.Outcome State Fault Refusal :=
  match s.clock.mode with
  | .unset => .next s
  | .set => if s.clock.secondOver then .next s.advanceSecond else .next s

/-- R3: the crossing of one registration is handed over when it is its owner's next (log 7). -/
def takeCrossing (k : RegKind) (slot : Nat) (s : State) : Host.Outcome State Fault Refusal :=
  match s.nextCrossing k.owner with
  | some r => if r.kind = k ∧ r.slot = slot then .next ((s.unfire r).handOver r) else .next s
  | none => .next s

/-- ROLLOVER_CROSSING (R5, R35). -/
def execRolloverCrossing (s : State) : Host.Outcome State Fault Refusal := takeCrossing .rollover 0 s

/-- NOT_BEFORE_CROSSING (R49). -/
def execNotBeforeCrossing (slot : PlanSlot) (s : State) : Host.Outcome State Fault Refusal :=
  takeCrossing .notBefore slot.val s

/-- HOLD_UNTIL_CROSSING (R52). -/
def execHoldUntilCrossing (slot : PlanSlot) (s : State) : Host.Outcome State Fault Refusal :=
  takeCrossing .holdUntil slot.val s

/-- END_BY_CROSSING (R53). -/
def execEndByCrossing (slot : PlanSlot) (s : State) : Host.Outcome State Fault Refusal :=
  takeCrossing .endBy slot.val s

/-- DEPARTURE_CROSSING (R125). -/
def execDepartureCrossing (slot : BusSlot) (s : State) : Host.Outcome State Fault Refusal :=
  takeCrossing .departure slot.val s

/-- LOCKOUT_POINT_CROSSING (R124, R134). -/
def execLockoutPointCrossing (slot : BusSlot) (s : State) : Host.Outcome State Fault Refusal :=
  takeCrossing .lockout slot.val s

/-- ARM_POINT_CROSSING (R160). -/
def execArmPointCrossing (slot : CommitSlot) (s : State) : Host.Outcome State Fault Refusal :=
  takeCrossing .armPoint slot.val s

/-- WINDOW_START_CROSSING (R160). -/
def execWindowStartCrossing (slot : CommitSlot) (s : State) : Host.Outcome State Fault Refusal :=
  takeCrossing .windowStart slot.val s

/-- WINDOW_END_CROSSING (R160, R170). -/
def execWindowEndCrossing (slot : CommitSlot) (s : State) : Host.Outcome State Fault Refusal :=
  takeCrossing .windowEnd slot.val s

/-- R2: what SET_TIME answers over the state it leaves. -/
def timeReply (before : Nat) (s : State) : Reply := ⟨s, .ok, .time before s.now s.clock.day⟩

/-- R2: the table of SET_TIME. -/
def applySetTime (v : Word) (s : State) : Reply :=
  let n := s.now
  let t := v.toNat
  match s.clock.mode with
  | .unset => timeReply n (s.firstTime t)
  | .set =>
    if t < n - 60 then refuse s .timeBackward
    else if t < n then timeReply n (s.stepBack t)
    else if t = n then timeReply n (s.setDepotTime n)
    else timeReply n (s.jumpTo t)

/-- SET_TIME (R2, R4). -/
def execSetTime (h : ReqHeader) (v : Word) (s : State) : Host.Outcome State Fault Refusal :=
  takeRequest ⟨h, .setTime v⟩ (applySetTime v) s

end Sys2Proof.Machine
end

