-- ==== Sys2Proof/Machine/Dispatch.lean ====
section
/-! DEFINITION. The effect of each command: one arm per constructor of Instr. -/

namespace Sys2Proof.Machine

open Sys2Proof

def exec (i : Instr) (s : State) : Host.Outcome State Fault Refusal :=
  match i with
  | .powerOn lines => Sys2Proof.Machine.execPowerOn lines s
  | .depotTimeAdvance => Sys2Proof.Machine.execDepotTimeAdvance s
  | .rolloverCrossing => Sys2Proof.Machine.execRolloverCrossing s
  | .notBeforeCrossing slot => Sys2Proof.Machine.execNotBeforeCrossing slot s
  | .holdUntilCrossing slot => Sys2Proof.Machine.execHoldUntilCrossing slot s
  | .endByCrossing slot => Sys2Proof.Machine.execEndByCrossing slot s
  | .departureCrossing slot => Sys2Proof.Machine.execDepartureCrossing slot s
  | .lockoutPointCrossing slot => Sys2Proof.Machine.execLockoutPointCrossing slot s
  | .armPointCrossing slot => Sys2Proof.Machine.execArmPointCrossing slot s
  | .windowStartCrossing slot => Sys2Proof.Machine.execWindowStartCrossing slot s
  | .windowEndCrossing slot => Sys2Proof.Machine.execWindowEndCrossing slot s
  | .setTime h v => Sys2Proof.Machine.execSetTime h v s
  | .siteConfigure h f => Sys2Proof.Machine.execSiteConfigure h f s
  | .siteLoadReport h watts => Sys2Proof.Machine.execSiteLoadReport h watts s
  | .siteLookup h selector port => Sys2Proof.Machine.execSiteLookup h selector port s
  | .busEnrol h p => Sys2Proof.Machine.execBusEnrol h p s
  | .busChange h p => Sys2Proof.Machine.execBusChange h p s
  | .busRetire h => Sys2Proof.Machine.execBusRetire h s
  | .busLookup h => Sys2Proof.Machine.execBusLookup h s
  | .busPlans h => Sys2Proof.Machine.execBusPlans h s
  | .busUnblock h => Sys2Proof.Machine.execBusUnblock h s
  | .departureSet h tDep eReq route => Sys2Proof.Machine.execDepartureSet h tDep eReq route s
  | .departureClear h => Sys2Proof.Machine.execDepartureClear h s
  | .planSubmit h s1 s2 s3 s4 => Sys2Proof.Machine.execPlanSubmit h s1 s2 s3 s4 s
  | .planCancel h => Sys2Proof.Machine.execPlanCancel h s
  | .planRetire h => Sys2Proof.Machine.execPlanRetire h s
  | .planLookup h => Sys2Proof.Machine.execPlanLookup h s
  | .portGo h port target => Sys2Proof.Machine.execPortGo h port target s
  | .portCancel h port => Sys2Proof.Machine.execPortCancel h port s
  | .portConfigure h port p => Sys2Proof.Machine.execPortConfigure h port p s
  | .portLookup h port => Sys2Proof.Machine.execPortLookup h port s
  | .allocStart h => Sys2Proof.Machine.execAllocStart h s
  | .allocStop h => Sys2Proof.Machine.execAllocStop h s
  | .allocLookup h selector port => Sys2Proof.Machine.execAllocLookup h selector port s
  | .commitOffer h windowStart windowEnd target tolerance => Sys2Proof.Machine.execCommitOffer h windowStart windowEnd target tolerance s
  | .commitWithdraw h => Sys2Proof.Machine.execCommitWithdraw h s
  | .commitDispatch h => Sys2Proof.Machine.execCommitDispatch h s
  | .commitRelease h => Sys2Proof.Machine.execCommitRelease h s
  | .commitLookup h => Sys2Proof.Machine.execCommitLookup h s
  | .commitRetire h => Sys2Proof.Machine.execCommitRetire h s
  | .clearTrip h => Sys2Proof.Machine.execClearTrip h s
  | .keepalive h => Sys2Proof.Machine.execKeepalive h s
  | .attentionScan h => Sys2Proof.Machine.execAttentionScan h s
  | .attentionClear h category flags => Sys2Proof.Machine.execAttentionClear h category flags s
  | .unknownKind h kind => Sys2Proof.Machine.execUnknownKind h kind s
  | .allocationComputation => Sys2Proof.Machine.execAllocationComputation s
  | .pilotLevelTaken port level => Sys2Proof.Machine.execPilotLevelTaken port level s
  | .settlingEnd port => Sys2Proof.Machine.execSettlingEnd port s
  | .debounceEnd port => Sys2Proof.Machine.execDebounceEnd port s
  | .answerTimerExpiry port => Sys2Proof.Machine.execAnswerTimerExpiry port s
  | .announce port m => Sys2Proof.Machine.execAnnounce port m s
  | .limit port maxImport maxExport => Sys2Proof.Machine.execLimit port maxImport maxExport s
  | .faultReport port code => Sys2Proof.Machine.execFaultReport port code s
  | .messageCheckFailure port => Sys2Proof.Machine.execMessageCheckFailure port s
  | .unknownTypeDiscard port => Sys2Proof.Machine.execUnknownTypeDiscard port s
  | .feedbackTaken port level => Sys2Proof.Machine.execFeedbackTaken port level s
  | .confirmationTimeout port => Sys2Proof.Machine.execConfirmationTimeout port s
  | .openDelayExpiry port => Sys2Proof.Machine.execOpenDelayExpiry port s
  | .weldTimerExpiry port => Sys2Proof.Machine.execWeldTimerExpiry port s
  | .quietTimerExpiry port => Sys2Proof.Machine.execQuietTimerExpiry port s
  | .limitTimerExpiry port => Sys2Proof.Machine.execLimitTimerExpiry port s
  | .setpointFrameRepeat port => Sys2Proof.Machine.execSetpointFrameRepeat port s
  | .filteredTransition port moved => Sys2Proof.Machine.execFilteredTransition port moved s
  | .lineFilterGlitch port line => Sys2Proof.Machine.execLineFilterGlitch port line s
  | .stallTimerExpiry port => Sys2Proof.Machine.execStallTimerExpiry port s
  | .siteTripAssertion => Sys2Proof.Machine.execSiteTripAssertion s
  | .siteTripDeassertion => Sys2Proof.Machine.execSiteTripDeassertion s
  | .gridDispatchRisingEdge => Sys2Proof.Machine.execGridDispatchRisingEdge s
  | .gridDispatchFallingEdge => Sys2Proof.Machine.execGridDispatchFallingEdge s
  | .supervisionTimerExpiry => Sys2Proof.Machine.execSupervisionTimerExpiry s
  | .requestWritePointerWrite v => Sys2Proof.Machine.execRequestWritePointerWrite v s
  | .completionReadPointerWrite v => Sys2Proof.Machine.execCompletionReadPointerWrite v s
  | .ringBaseWrite ring addr => Sys2Proof.Machine.execRingBaseWrite ring addr s
  | .ringSizeWrite ring entries => Sys2Proof.Machine.execRingSizeWrite ring entries s
  | .ringEnable => Sys2Proof.Machine.execRingEnable s
  | .ringDisable => Sys2Proof.Machine.execRingDisable s
  | .ringReset => Sys2Proof.Machine.execRingReset s
  | .completionThresholdWrite v => Sys2Proof.Machine.execCompletionThresholdWrite v s
  | .completionHoldTimeWrite v => Sys2Proof.Machine.execCompletionHoldTimeWrite v s
  | .attentionMaskWrite v => Sys2Proof.Machine.execAttentionMaskWrite v s
  | .interruptAcknowledge v => Sys2Proof.Machine.execInterruptAcknowledge v s
  | .fetchBurstEnd requests => Sys2Proof.Machine.execFetchBurstEnd requests s
  | .fetchError => Sys2Proof.Machine.execFetchError s
  | .completionWriteDone => Sys2Proof.Machine.execCompletionWriteDone s
  | .completionWriteError => Sys2Proof.Machine.execCompletionWriteError s
  | .holdTimerExpiry => Sys2Proof.Machine.execHoldTimerExpiry s
  | .enquireSent port => Sys2Proof.Machine.execEnquireSent port s
  | .meterLineSample port line level => Sys2Proof.Machine.execMeterLineSample port line level s

end Sys2Proof.Machine
end

