-- ==== Sys2Proof/Machine/Window.lean ====
section
/-! DEFINITION. The register window (11 R183, R184): offsets, access, what a read by the controller gives,
and which command a write is. -/

namespace Sys2Proof.Machine

open Sys2Proof

/-- R183: the registers of the window, in the order of its table. -/
inductive WindowReg where
  | requestBase | requestSize | requestWrite | requestRead
  | completionBase | completionSize | completionWrite | completionRead
  | control | threshold | holdTime | mask | acknowledge | status
deriving DecidableEq, Repr

/-- R183: a register's offset in the window. -/
def WindowReg.offset : WindowReg → Nat
  | .requestBase => 0x00 | .requestSize => 0x08 | .requestWrite => 0x0C | .requestRead => 0x10
  | .completionBase => 0x18 | .completionSize => 0x20 | .completionWrite => 0x24
  | .completionRead => 0x28 | .control => 0x2C | .threshold => 0x30 | .holdTime => 0x34
  | .mask => 0x38 | .acknowledge => 0x3C | .status => 0x40

/-- The registers, first to last. -/
def windowRegs : List WindowReg :=
  [.requestBase, .requestSize, .requestWrite, .requestRead, .completionBase, .completionSize,
    .completionWrite, .completionRead, .control, .threshold, .holdTime, .mask, .acknowledge, .status]

/-- R183: the register at an offset. -/
def windowRegAt (offset : Nat) : Option WindowReg := windowRegs.find? fun r => r.offset == offset

/-- R183: a register's bytes; 32 bits except the two bases. -/
def WindowReg.bytes : WindowReg → Nat
  | .requestBase | .completionBase => 8
  | _ => 4

/-- R183, R184: what a read of a register gives, as it stands. The ring control word shows the enable bit in
bit 0, and bit 1 reads 0 (R190); that bits 31 to 2 read 0 is the model's choice (log 44). The interrupt acknowledge
cannot be read. -/
def State.windowValue (s : State) : WindowReg → Option Nat
  | .requestBase => some s.ring.request.base.toNat
  | .requestSize => some s.ring.request.size
  | .requestWrite => some s.ring.request.write
  | .requestRead => some s.ring.request.read
  | .completionBase => some s.ring.completion.base.toNat
  | .completionSize => some s.ring.completion.size
  | .completionWrite => some s.ring.completion.write
  | .completionRead => some s.ring.completion.read
  | .control => some (boolCode s.ring.enable)
  | .threshold => some s.ring.threshold
  | .holdTime => some s.ring.holdTime
  | .mask => some s.mask.toNat
  | .acknowledge => none
  | .status => some s.statusWord.toNat

/-- R183: a read by the controller at an offset of the window, little-endian; none where there is no register
that can be read. A read changes no state. -/
def State.readWindow (s : State) (offset : Nat) : Option (List Byte) :=
  (windowRegAt offset).bind fun r => (s.windowValue r).map (leBytes r.bytes)

/-- R184, R190: the command of a write to the ring control; a write that sets both bits is the ring reset,
which clears the enable bit (log 38). -/
def controlWrite (v : Addr) : Instr :=
  if v.getLsbD 1 then .ringReset else if v.getLsbD 0 then .ringEnable else .ringDisable

/-- R183, R184: the command that a write of a register is; none for the part's own pointers and the status
word, which the controller can only read. -/
def WindowReg.write (v : Addr) : WindowReg → Option Instr
  | .requestBase => some (.ringBaseWrite .request v)
  | .requestSize => some (.ringSizeWrite .request (v.setWidth 32))
  | .requestWrite => some (.requestWritePointerWrite (v.setWidth 32))
  | .completionBase => some (.ringBaseWrite .completion v)
  | .completionSize => some (.ringSizeWrite .completion (v.setWidth 32))
  | .completionRead => some (.completionReadPointerWrite (v.setWidth 32))
  | .control => some (controlWrite v)
  | .threshold => some (.completionThresholdWrite (v.setWidth 32))
  | .holdTime => some (.completionHoldTimeWrite (v.setWidth 32))
  | .mask => some (.attentionMaskWrite (v.setWidth 32))
  | .acknowledge => some (.interruptAcknowledge (v.setWidth 32))
  | .requestRead | .completionWrite | .status => none

end Sys2Proof.Machine
end

