-- ==== Sys2Proof/Safety.lean ====
section
/-! DEFINITION. The invariants and frames that statements about the block are made of: what holds of a
port record, of the tables, of the rings and of the state as a whole, and what a command leaves alone. -/

namespace Sys2Proof.Machine

open Sys2Proof

/-! ### Port records (04) -/

/-- R65: the states in which a session is present. -/
def PortState.inSession (st : PortState) : Bool :=
  match st with
  | .connected | .energizing | .energized | .closing | .held => true
  | .offline | .vacant | .detecting | .identifying | .faulted => false

/-- R66: the states in which a held setpoint can be above 0. -/
def PortState.powered (st : PortState) : Bool := st == .energizing || st == .energized

/-- R64 to R68, R79, R80: session, setpoint, pending target and fault code fit the state. -/
structure Port.Fits (p : Port) : Prop where
  session : p.session.isSome = p.state.inSession
  held    : p.held.mag ≠ 0 → p.state.powered = true
  dir     : p.held.mag = 0 ↔ p.held.dir = .none
  pending : p.pendingTarget.isSome = (p.state == .closing)
  target  : p.pendingTarget ≠ some .vacant
  fault   : p.faultCode.isSome = (p.state == .faulted)

/-- R70, R71, R76, R77, R81, R95: each timer of a state runs in that state alone. -/
structure Port.Timed (p : Port) : Prop where
  settling     : p.settling.isRunning = true → p.state = .vacant
  debounce     : p.debounce.isRunning = (p.state == .detecting)
  answer       : p.answer.isRunning = true → p.state = .identifying
  confirmation : p.confirmation.isRunning = (p.state == .energizing)
  openDelay    : p.openDelay.isRunning = (p.state == .energized && p.held.mag == 0)
  quiet        : p.quiet.isRunning = true → p.state = .closing
  limit        : p.limit.isRunning = p.quiet.isRunning
  stall        : p.stall.isRunning = true → p.stallConditions = true
  weld         : p.weld.isRunning = true → p.weldConditions = true

/-- R76 to R81: the contactor is commanded closed in ENERGIZING and ENERGIZED, and otherwise only in
CLOSING before its open command. -/
structure Port.Commanded (p : Port) : Prop where
  closed : p.state.powered = true → p.command = .closed
  opened : p.command = .closed → p.state.powered = true ∨ p.quiet.isRunning = true

/-- R64, R107, R117, R150: the ranges of a port record. -/
structure Port.InRange (p : Port) : Prop where
  perCount  : 1 ≤ p.energyPerCount ∧ p.energyPerCount ≤ 100
  threshold : 1 ≤ p.filterThreshold ∧ p.filterThreshold ≤ 255
  counters  : p.ma.counter ≤ 255 ∧ p.mb.counter ≤ 255
  attempts  : p.attempts ≤ 3
  run       : p.wrongRun ≤ 4
  counts    : p.stray ≤ 65535 ∧ p.idle ≤ 65535 ∧ p.checkErrors ≤ 65535 ∧ p.discards ≤ 65535
  energies  : p.sessionImport ≤ maxWord ∧ p.sessionExport ≤ maxWord
  residue   : -100 ≤ p.residue ∧ p.residue ≤ 99

/-- The port record of port n is one the part can hold. -/
structure Port.Ok (n : PortNo) (p : Port) : Prop where
  number    : p.number = n
  fits      : p.Fits
  timed     : p.Timed
  commanded : p.Commanded
  inRange   : p.InRange

/-- Every port record is one the part can hold. -/
def State.PortsOk (s : State) : Prop := ∀ n : PortNo, (s.port n).Ok n

/-! ### Rings (11) -/

/-- R185: pointers are entry numbers below the size, once a size is written. -/
def RingRegs.Ok (r : RingRegs) : Prop := r.size = 0 ∨ (r.write < r.size ∧ r.read < r.size)

/-- R184: a base that is set and a size of 16 to 4,096. -/
def RingRegs.Usable (r : RingRegs) : Prop := r.baseSet = true ∧ 16 ≤ r.size ∧ r.size ≤ 4096

/-- R183 to R189: the Ring Interface is one the part can be in. -/
structure Ring.Ok (r : Ring) : Prop where
  buffer     : r.buffer.length + (r.burst.map FetchBurst.count).getD 0 ≤ 12
  running    : r.state = .running → r.enable = true ∧ r.request.Usable ∧ r.completion.Usable
  stopped    : r.state = .stopped → r.enable = false
  request    : r.request.Ok
  completion : r.completion.Ok
  threshold  : 1 ≤ r.threshold ∧ r.threshold ≤ 64
  holdTime   : 1 ≤ r.holdTime ∧ r.holdTime ≤ 1000
  count      : r.unreported < r.threshold
  timer      : r.holdTimer.isRunning = decide (0 < r.unreported)

/-! ### Tables (02, 03, 09) -/

/-- A table in canonical form whose slots lie below n. -/
structure Table.Ok {α : Type} (n : Nat) (t : Table α) : Prop where
  rising : t.wf
  below  : ∀ r ∈ t.rows, r.1 < n

/-- R15, R38, R157: the five tables, and no two bus records with one number. -/
structure State.TablesOk (s : State) : Prop where
  buses      : s.buses.Ok 192
  plans      : s.plans.Ok 512
  planGens   : s.planGens.Ok 512
  commits    : s.commits.Ok 16
  commitGens : s.commitGens.Ok 16
  numbers    : (s.buses.rows.map fun r => r.2.number).Nodup

/-- R29: every location and bound session agree with each other. -/
def State.Agrees (s : State) : Prop :=
  ∀ (i : Nat) (n : PortNo), (s.port n).boundSlot = some i ↔ ∃ b, s.bus i = some b ∧ b.location = some n

/-- R3: every registration in the set is later than depot time. -/
def State.Ahead (s : State) : Prop := ∀ r ∈ s.clock.regs, s.now < r.time

/-- R167: at most one commitment is ACTIVE. -/
def State.OneActive (s : State) : Prop :=
  ∀ (i j : Nat) (c d : Commitment), s.commit i = some c → s.commit j = some d →
    c.state = .active → d.state = .active → i = j

/-- R26, R43: every slot in a bus's priority or standard list holds a listed plan of that bus and class; no
slot stands twice, at most 8 are listed, and at most one of them is RUNNING. -/
structure Bus.ListsOk (s : State) (i : Nat) (b : Bus) : Prop where
  priority : ∀ j ∈ b.prioList, ∃ p, s.plan j = some p ∧ p.busSlot = i ∧ p.cls = .priority
               ∧ p.state.listed = true
  standard : ∀ j ∈ b.stdList, ∃ p, s.plan j = some p ∧ p.busSlot = i ∧ p.cls = .standard
               ∧ p.state.listed = true
  nodup    : (b.prioList ++ b.stdList).Nodup
  length   : (b.prioList ++ b.stdList).length ≤ 8
  running  : ∀ j k p q, j ∈ b.prioList ++ b.stdList → k ∈ b.prioList ++ b.stdList → s.plan j = some p →
               s.plan k = some q → p.state = .running → q.state = .running → j = k

/-- R43: the lists of every bus agree with the Plan Table. -/
def State.ListsAgree (s : State) : Prop := ∀ i b, s.bus i = some b → b.ListsOk s i

/-! ### Powers (01 R8, 02 R17, 04 R64, R87; 05 R97, R98, R100) -/

/-- R8, R88: ratings are multiples of 100 W, up to 150,000 W of import and 60,000 W of export. -/
def Ratings.Ok (r : Ratings) : Prop := r.imp % 100 = 0 ∧ r.imp ≤ 150000 ∧ r.exp % 100 = 0 ∧ r.exp ≤ 60000

/-- R64: a held setpoint is a multiple of 100 W, up to 150,000 W of import or 60,000 W of export. -/
structure Setpoint.Ok (x : Setpoint) : Prop where
  whole : x.mag % 100 = 0
  imp   : x.dir = .imp → x.mag ≤ 150000
  exp   : x.dir = .exp → x.mag ≤ 60000

/-- R97, R98, R100, R23: the caps of a session are those of its binding. -/
structure Session.CapsOk (s : State) (x : Session) : Prop where
  range  : x.importCap ≤ 150000 ∧ x.exportCap ≤ 60000
  bound  : ∀ i a b, x.binding = .bound i → x.announced = some a → s.bus i = some b →
             x.importCap = min b.importCap a.maxImport
             ∧ x.exportCap = if b.v2g = true ∧ a.v2g = true then min b.exportCap a.maxExport else 0
  unid   : ∀ why, x.binding = .unidentified why → x.importCap ≤ 22000 ∧ x.exportCap = 0

/-- Every power of the part is in its range. -/
structure State.PowersOk (s : State) : Prop where
  staged  : ∀ n : PortNo, s.site.stagedRatings[n].Ok
  live    : ∀ n : PortNo, s.site.liveRatings[n].Ok
  trickle : s.site.staged.tricklePower ≤ 22000 ∧ s.site.live.tricklePower ≤ 22000
  buses   : ∀ i b, s.bus i = some b → b.importCap ≤ 150000 ∧ b.exportCap ≤ 60000
  tierA   : ∀ n : PortNo, s.engine.ports[n].tierA % 100 = 0
  held    : ∀ n : PortNo, (s.port n).held.Ok
  caps    : ∀ (n : PortNo) x, (s.port n).session = some x → x.CapsOk s
  frames  : ∀ n : PortNo, (s.port n).frameCount ≤ 65535

/-! ### What a request's command leaves -/

/-- R188: the state u that a request's block leaves, with the request gone from the buffer and its
completion on its way to the entry of the completion write pointer. -/
def State.answered (s : State) (q : Request) (u : State) (st : Status) (res : Result) : State :=
  { u with ring := Ring.post ⟨q.hdr.tag, q.body.kind, st, u.now, res⟩ s.ring.pop }

/-- R3: r is the next crossing of its owner to be handed over (log 7). -/
def State.Due (s : State) (r : Registration) : Prop := s.nextCrossing r.kind.owner = some r

/-- An absent field, or one in its range (01 R10, 04 R88). -/
def Within (lo hi : Nat) (o : Option Word) : Prop := ∀ w, o = some w → lo ≤ w.toNat ∧ w.toNat ≤ hi

/-! ### What an event does to a port (04) -/

/-- A port record with the timers of its states taken from another. -/
def Port.timersOf (p q : Port) : Port :=
  { p with
    settling := q.settling
    debounce := q.debounce
    confirmation := q.confirmation
    openDelay := q.openDelay
    weld := q.weld
    quiet := q.quiet
    limit := q.limit
    answer := q.answer
    stall := q.stall }

/-- A port record with its held setpoint, direction memory and frames taken from another. -/
def Port.setpointOf (p q : Port) : Port :=
  { p with
    held := q.held
    lastDir := q.lastDir
    zeroSince := q.zeroSince
    frameCount := q.frameCount
    frameTimer := q.frameTimer
    lastFrame := q.lastFrame }

/-- R66, R67, R87: q is p after its setpoint has become 0: the zero-since time is taken when it was not
0 before, the last direction is kept, and a frame is sent when the live setpoint changed. -/
structure Port.PowerOff (now : Nat) (p q : Port) : Prop where
  held      : q.held = .zero
  live      : q.live = .zero
  zeroSince : q.zeroSince = if p.held.mag = 0 then p.zeroSince else some now
  lastDir   : q.lastDir = p.lastDir
  frame     : q.frameCount = if p.live = .zero then p.frameCount else (p.frameCount + 1) % 65536

/-- R67: the direction memory fits the held setpoint: a setpoint above 0 gives the last direction and leaves no
zero-since time, and at 0 a port that has once moved power has one. -/
structure Port.Recalls (p : Port) : Prop where
  moving : p.held.mag ≠ 0 → p.lastDir = p.held.dir ∧ p.zeroSince = none
  still  : p.held.mag = 0 → (p.zeroSince = none ↔ p.lastDir = .none)

/-- Every port's direction memory fits its held setpoint. -/
def State.Recalls (s : State) : Prop := ∀ n : PortNo, (s.port n).Recalls

/-- R66, R67: from p to q, at a depot time, no publication reached the port: the held setpoint stays or falls in
its direction, the last direction stays, and the zero-since time is taken at a fall to 0 and otherwise stays. -/
structure Port.HeldFalls (now : Nat) (p q : Port) : Prop where
  held      : q.held = p.held ∨ (q.held.mag < p.held.mag ∧ (q.held.mag ≠ 0 → q.held.dir = p.held.dir))
  lastDir   : q.lastDir = p.lastDir
  zeroSince : q.zeroSince = if q.held.mag = 0 ∧ p.held.mag ≠ 0 then some now else p.zeroSince

/-- R66: the commands at which a computation publishes setpoints (08). -/
def publishes : Instr → Bool
  | .allocationComputation | .allocStart _ => true
  | _ => false

/-- R67, R87: q is p after a publication: the direction memory follows the held setpoint, and a change of the live
setpoint sends one frame, which starts the frame timer. -/
structure Port.Published (now : Nat) (p q : Port) : Prop where
  same  : q.held = p.held → q.lastDir = p.lastDir ∧ q.zeroSince = p.zeroSince
  moves : q.held ≠ p.held → q.held.mag ≠ 0 → q.lastDir = q.held.dir ∧ q.zeroSince = none
  falls : q.held.mag = 0 → p.held.mag ≠ 0 → q.lastDir = p.lastDir ∧ q.zeroSince = some now
  zero  : q.held.mag = 0 → p.held.mag = 0 → q.lastDir = p.lastDir ∧ q.zeroSince = p.zeroSince
  quiet : q.live = p.live →
            q.frameCount = p.frameCount ∧ q.frameTimer = p.frameTimer ∧ q.lastFrame = p.lastFrame
  frame : q.live ≠ p.live → q.frameCount = (p.frameCount + 1) % 65536 ∧ q.frameTimer = .running 1000 0
            ∧ q.lastFrame = some ⟨p.number, q.live, q.frameCount⟩

/-- R126: d is the departure part of a bus with SoE soe after an unplug, and taken says whether the
departure-take check took it. -/
def Departure.AfterUnplug (now takeWindow : Nat) (soe : Option Nat) (d e : Departure) (taken : Bool) :
    Prop :=
  (taken = true ↔ (d.state = .pending ∨ d.state = .overdue) ∧ d.tDep ≤ now + takeWindow)
  ∧ e = { d with state := if taken then .taken soe else d.state }

/-- R126, R129, R131: the readiness of a bus b whose session has ended with the record c: a take leaves none and
sets DEPARTURE_TAKEN, a part that stays PENDING makes it AWAY, and every other bus keeps its own; READINESS is set
at a change of state alone, and no other flag moves. -/
structure Bus.AfterSession (b c : Bus) : Prop where
  taken : c.departure ≠ b.departure → c.readiness = .none ∧ c.slack = none
            ∧ c.flags = b.flags ||| BusFlag.departureTaken
                ||| (if b.readiness = .none then 0 else BusFlag.readiness)
  away  : c.departure = b.departure → (∃ d, b.departure = some d ∧ d.state = .pending) →
            c.readiness = .away ∧ c.slack = none
            ∧ c.flags = b.flags ||| (if b.readiness = .away then 0 else BusFlag.readiness)
  kept  : c.departure = b.departure → (∀ d, b.departure = some d → d.state ≠ .pending) →
            c.readiness = b.readiness ∧ c.slack = b.slack ∧ c.flags = b.flags

/-- R78, R29: t is s after the session of port n has ended, whatever state the port goes to. -/
structure State.SessionEnds (n : PortNo) (unplug : Bool) (s t : State) : Prop where
  power   : (s.port n).PowerOff s.now (t.port n)
  session : (t.port n).session = none ∧ (t.port n).command = .opened ∧ (t.port n).residue = 0
  figures : (t.port n).idle = 0 ∧ (t.port n).stray = (s.port n).stray
              ∧ (t.port n).wrongRun = (s.port n).wrongRun
              ∧ (t.port n).sessionImport = (s.port n).sessionImport
              ∧ (t.port n).sessionExport = (s.port n).sessionExport
  ports   : ∀ m, m ≠ n → t.port m = s.port m
  bus     : ∀ i b, (s.port n).boundSlot = some i → s.bus i = some b → ∃ c, t.bus i = some c
              ∧ c = { b with
                location := none, flags := c.flags, departure := c.departure
                readiness := c.readiness, slack := c.slack }
              ∧ c.flags.getLsbD 1 = true
              ∧ (b.departure = none → c.departure = none)
              ∧ (unplug = false → c.departure = b.departure)
              ∧ (b.raise BusFlag.unplugged).AfterSession c
              ∧ (∀ d, unplug = true → b.departure = some d → ∃ e taken, c.departure = some e
                  ∧ d.AfterUnplug s.now s.site.live.takeWindow b.soe e taken
                  ∧ (taken = true → c.readiness = .none ∧ c.slack = none ∧ c.flags.getLsbD 8 = true
                      ∧ ∀ r ∈ t.clock.regs, ¬ (r.kind.owner = 2 ∧ r.slot = i))
                  ∧ (taken = false → d.state = .pending → c.readiness = .away ∧ c.slack = none))
  plan    : ∀ i b j p, (s.port n).boundSlot = some i → s.bus i = some b → s.runningPlan b = some j →
              s.plan j = some p → t.plan j = some { p with state := .paused, cond := none }
                ∧ ∀ r ∈ t.clock.regs, ¬ (r.kind.owner = 1 ∧ r.slot = j)
  plans   : ∀ j, (∀ i b, (s.port n).boundSlot = some i → s.bus i = some b →
              s.runningPlan b ≠ some j) → t.plan j = s.plan j
  buses   : ∀ i, (s.port n).boundSlot ≠ some i → t.bus i = s.bus i
  rest    : t = { s with clock := t.clock, buses := t.buses, plans := t.plans, ports := t.ports }

/-- R79: t is s after a port fault with this code has been taken at port n. -/
structure State.PortFaults (n : PortNo) (code : PortFault) (s t : State) : Prop where
  power    : (s.port n).PowerOff s.now (t.port n)
  state    : (t.port n).state = .faulted ∧ (t.port n).faultCode = some code
               ∧ (t.port n).command = .opened ∧ (t.port n).flags.getLsbD 1 = true
  timers   : (t.port n).settling = .stopped ∧ (t.port n).debounce = .stopped
               ∧ (t.port n).answer = .stopped ∧ (t.port n).confirmation = .stopped
               ∧ (t.port n).openDelay = .stopped ∧ (t.port n).quiet = .stopped
               ∧ (t.port n).limit = .stopped ∧ (t.port n).stall = .stopped
  pending  : (t.port n).pendingTarget = none
  dropped  : ∀ g, (s.port n).pendingTarget = some g →
               (t.port n).lastTransition = some ⟨g, .dropped, s.now⟩ ∧ (t.port n).flags.getLsbD 0 = true
  kept     : (s.port n).pendingTarget = none → (t.port n).lastTransition = (s.port n).lastTransition
  attempts : (t.port n).attempts = if (s.port n).state = .identifying then 0 else (s.port n).attempts
  ends     : (s.port n).session ≠ none → s.SessionEnds n false t
  alone    : (s.port n).session = none → t = { s with ports := s.ports.set n (t.port n) }

/-- R96, R97: r is port n after the opening of an unidentified session there, for a reason and with the
claimed bus number of the exchange status as it then stands. -/
structure State.OpensUnidentified (n : PortNo) (reason : UnidReason) (claimed : Option Nat) (s : State)
    (r : Port) : Prop where
  record : r = { (s.port n).timersOf r with
    state := if s.protection.latch then .held else .connected
    session := some ⟨.unidentified reason, s.now, none, s.site.live.tricklePower, 0⟩
    sessionImport := 0, sessionExport := 0, stray := 0, wrongRun := 0, lastApplied := none
    claimed := claimed, flags := (s.port n).flags ||| PortFlag.unidentified
    pendingTarget := none, faultCode := none }
  answer : r.answer = .stopped

/-! ### Frames -/

/-- Nothing but the Ring Interface differs. -/
def State.OnlyRing (s t : State) : Prop := t = { s with ring := t.ring }

/-- Nothing but the record of port n differs. -/
def State.OnlyPort (n : PortNo) (s t : State) : Prop := t = { s with ports := s.ports.set n (t.port n) }

/-- Nothing but the clock differs. -/
def State.OnlyClock (s t : State) : Prop := t = { s with clock := t.clock }

end Sys2Proof.Machine
end

