-- ==== Sys2Proof/Certificates/Slice0/Obligations.lean ====
section
/-! DEFINITION. The statements about the block. Each says what commands do, for every state and operands
that meet its hypotheses; a request's hypothesis `s.takes q` is R188's: the rings RUNNING, no completion
write in flight, the completion ring not full, and q at the head of the buffer. -/

open Sys2Proof Sys2Proof.Machine

/-! ### The step, the executor, power-on -/

/-- One step takes the command at the front of the queue and has its effect on the rest. -/
def Obligations.StepRunsFrontCommand : Prop :=
  ∀ (c : Instr) (s : State), step { s with pending := c :: s.pending } = exec c s

/-- On an empty queue one millisecond passes (log 2): a running timer ages by 1 ms up to its length, the
current second of a SET clock ages by 1 ms up to 1,000, and a level filter ages: a line that shows the output
leaves no candidate, a candidate at the line's level ages by 1 ms up to its length (50 for the pilot, 20 for
the feedback, 100 for GRID_DISPATCH), and any other level starts as a candidate at age 0. Nothing else changes. -/
def Obligations.EmptyQueuePassesOneMillisecond : Prop :=
  let aged (t : Timer) : Timer := match t with
    | .stopped => .stopped
    | .running l e => .running l (min l (e + 1))
  let filtered (α : Type) (length : Nat) (line output : α) (before after : Option (Candidate α)) : Prop :=
    (line = output → after = none)
    ∧ (∀ k, line ≠ output → before = some k → k.level = line → after = some ⟨line, min length (k.age + 1)⟩)
    ∧ (line ≠ output → (∀ k, before = some k → k.level ≠ line) → after = some ⟨line, 0⟩)
  ∀ s : State, s.pending = [] → ∃ t, step s = .next t
    ∧ t = { s with
        clock := t.clock, ports := t.ports, engine := t.engine, dispatch := t.dispatch
        supervision := t.supervision, ring := t.ring }
    ∧ t.clock = { s.clock with
        phase := if s.clock.mode = .set then min 1000 (s.clock.phase + 1) else s.clock.phase }
    ∧ t.engine = { s.engine with timer := aged s.engine.timer }
    ∧ t.supervision = { s.supervision with timer := aged s.supervision.timer }
    ∧ t.ring = { s.ring with holdTimer := aged s.ring.holdTimer }
    ∧ t.dispatch = { s.dispatch with candidate := t.dispatch.candidate }
    ∧ filtered Bool 100 s.dispatch.pin s.dispatch.filtered s.dispatch.candidate t.dispatch.candidate
    ∧ ∀ n : PortNo, let p := s.port n; let r := t.port n
      r = { p with
        pilotCandidate := r.pilotCandidate, feedbackCandidate := r.feedbackCandidate
        settling := aged p.settling, debounce := aged p.debounce, confirmation := aged p.confirmation
        openDelay := aged p.openDelay, weld := aged p.weld, quiet := aged p.quiet, limit := aged p.limit
        frameTimer := aged p.frameTimer, answer := aged p.answer, stall := aged p.stall }
      ∧ filtered PilotLevel 50 p.pilotLine p.taken p.pilotCandidate r.pilotCandidate
      ∧ filtered Contact 20 p.feedbackLine p.feedback p.feedbackCandidate r.feedbackCandidate

/-- Every request's command, when the executor can take the request, is taken whole: its block leaves a
state with the rings, the mask and the queue untouched, and the executor removes the request from the buffer
and starts the write of one completion with the request's tag, its kind and the depot time. A request's
command that the executor cannot take yet changes nothing (log 4): the rings are not RUNNING, a completion
write is in flight, the completion ring is full, or another request is at the head. An UNKNOWN_KIND request,
kind 0 or above 33, is applied by no block and completes with UNKNOWN_KIND; a command that names a kind of 1
to 33 so is no command of the table and faults (log 19). -/
def Obligations.ExecutorTakesRequestsInOrder : Prop :=
  (∀ (i : Instr) (q : Request) (s : State), i.request = some q → i.wellFormed = true → s.takes q = true →
    ∃ (u : State) (st : Status) (res : Result), exec i s = .next (s.answered q u st res)
      ∧ u.mask = s.mask ∧ u.pending = s.pending
      ∧ (s.answered q u st res).ring.buffer = s.ring.buffer.tail
      ∧ (s.answered q u st res).ring.writing = some ⟨s.ring.completion.write, ⟨q.hdr.tag, q.body.kind, st, u.now, res⟩⟩)
  ∧ (∀ (i : Instr) (q : Request) (s : State), i.request = some q → i.wellFormed = true →
    (s.ring.state ≠ .running ∨ s.ring.writing ≠ none ∨ s.ring.completion.full = true
      ∨ s.ring.buffer.head? ≠ some q) → exec i s = .next s)
  ∧ (∀ (h : ReqHeader) (k : Byte) (s : State),
    ((k = 0 ∨ 33 < k.toNat) → s.takes ⟨h, .unknownKind k⟩ = true →
      exec (.unknownKind h k) s = .next (s.answered ⟨h, .unknownKind k⟩ s .unknownKind .none))
    ∧ (k ≠ 0 → k.toNat ≤ 33 → exec (.unknownKind h k) s = .fault .illFormed))

/-- The state after power-on, with the lines as they stand at the first sample: every register and every
record, and the queue as it was (the lines: log 9; the queue: log 30; session energies of 0 before a first
session: log 20; the current second at 0: log 2). -/
def Obligations.PowerOnState : Prop :=
  ∀ (l : LineLevels) (s : State), ∃ t, exec (.powerOn l) s = .next t
    ∧ t.clock = ⟨.unset, 0, 0, 0, [], []⟩
    ∧ t.site.staged = t.site.live
    ∧ t.site.live = ⟨0, 20000, 500000, 60, 5, 10, 900, 1800, 7200, 3600, 7000, 900, 30, 14400, 60, 2000, 0⟩
    ∧ (∀ n : PortNo, t.site.stagedRatings[n] = ⟨0, 0⟩ ∧ t.site.liveRatings[n] = ⟨0, 0⟩)
    ∧ t.site.loadPending = false ∧ t.site.report = none ∧ t.site.staleOpen = false ∧ t.site.lastBase = none
    ∧ t.siteFlags = (if l.siteTrip then SiteFlag.trip else 0)
    ∧ t.buses = ⟨[]⟩ ∧ t.plans = ⟨[]⟩ ∧ t.planGens = ⟨[]⟩ ∧ t.commits = ⟨[]⟩ ∧ t.commitGens = ⟨[]⟩
    ∧ (∀ n : PortNo, t.port n =
        { number := n, state := .offline, pendingTarget := none, lastTransition := none
          energyPerCount := 10, filterThreshold := 10
          pilotLine := .none, taken := .none, pilotCandidate := none
          held := ⟨0, .none⟩, lastDir := .none, zeroSince := none, residue := 0
          command := .opened, feedbackLine := .opened, feedback := .opened, feedbackCandidate := none
          session := none, sessionImport := 0, sessionExport := 0, attempts := 0, faultCode := none, flags := 0
          settling := .stopped, debounce := .stopped, confirmation := .stopped, openDelay := .stopped
          weld := .stopped, quiet := .stopped, limit := .stopped
          frameCount := 0, frameTimer := .running 1000 0, lastFrame := none
          answer := .stopped, checkErrors := 0, discards := 0, claimed := none, lastFault := none
          enquire := none
          ma := ⟨l.meter[n].1, l.meter[n].1, 0, false⟩, mb := ⟨l.meter[n].2, l.meter[n].2, 0, false⟩
          wrongRun := 0, stray := 0, idle := 0, lastApplied := none, stall := .stopped })
    ∧ t.engine.running = false ∧ t.engine.timer = .stopped ∧ t.engine.number = 0 ∧ t.engine.summary = none
    ∧ (∀ n : PortNo, t.engine.ports[n] = ⟨0, .none, 0, 0, 0, false, ⟨0, .none⟩⟩)
    ∧ t.dispatch = ⟨l.gridDispatch, l.gridDispatch, none⟩
    ∧ t.protection = ⟨l.siteTrip, l.siteTrip⟩ ∧ t.supervision = ⟨.supervised, .stopped⟩
    ∧ t.ring =
        { state := .stopped, request := ⟨0, false, 0, 0, 0⟩, completion := ⟨0, false, 0, 0, 0⟩
          enable := false, threshold := 1, holdTime := 10, buffer := [], burst := none, writing := none
          unreported := 0, holdTimer := .stopped, pendingFlag := false }
    ∧ t.mask = 0 ∧ t.pending = s.pending

/-! ### Depot time (01) -/

/-- The end of a second. In SET, below 4,294,967,295, depot time rises by one and exactly the registrations
at the new time leave the set, waiting in the order in which their owners receive them; those of one owner and
one record, all at one time, keep the order in which they were registered. At 4,294,967,295 depot time stays
and nothing fires; in UNSET nothing happens, nor before the second's 1,000 ms are over (log 3). The model's
choices: that reading of an early command (log 3), crossings that still wait are handed over first (log 7:
`s.settleCrossings`, which is s when none waits), and the owners come in a fixed order (log 8). -/
def Obligations.DepotTimeAdvances : Prop :=
  ∀ s : State,
    (s.clock.mode = .unset → exec .depotTimeAdvance s = .next s)
    ∧ (s.clock.mode = .set → s.clock.phase < 1000 → exec .depotTimeAdvance s = .next s)
    ∧ (s.clock.fired = [] → s.settleCrossings = s)
    ∧ (s.clock.mode = .set → 1000 ≤ s.clock.phase → ∃ t, exec .depotTimeAdvance s = .next t
      ∧ t = { s.settleCrossings with clock := t.clock }
      ∧ t.clock.phase = 0 ∧ t.clock.day = s.settleCrossings.clock.day ∧ t.clock.mode = s.settleCrossings.clock.mode
      ∧ (s.now < 4294967295 →
          t.now = s.now + 1
          ∧ t.clock.regs = s.settleCrossings.clock.regs.filter (fun r => r.time != s.now + 1)
          ∧ ∃ due, t.clock.fired = s.settleCrossings.clock.fired ++ due
            ∧ due.Perm (s.settleCrossings.clock.regs.filter fun r => r.time == s.now + 1)
            ∧ due.Pairwise (fun a b => handOverBefore a b = true)
            ∧ ∀ owner slot : Nat, due.filter (fun r => r.kind.owner == owner && r.slot == slot)
                = (s.settleCrossings.clock.regs.filter fun r => r.time == s.now + 1).filter
                    fun r => r.kind.owner == owner && r.slot == slot)
      ∧ (s.now = 4294967295 → t.now = s.now ∧ t.clock.regs = s.settleCrossings.clock.regs
          ∧ t.clock.fired = s.settleCrossings.clock.fired))

/-- SET_TIME by the clock state and by V against N. The first SET_TIME sets the clock; a value below
N - 60 is refused; a step back of at most 60 s fires nothing; V = N restarts the second; a later V is a
forward jump, which moves depot time first, then fires and hands over what lies at or before V, and sets
TIME_JUMP. After each that is taken, every registration in the set lies beyond depot time, the clock is SET at
the start of a second, and an advance queued right behind the SET_TIME changes nothing. The model's choices: the
advance of the new second comes after 1,000 counted ms (log 3), crossings that still wait go first (log 7), and
the owners come in a fixed order (log 8). -/
def Obligations.SetTimeByTable : Prop :=
  ∀ (h : ReqHeader) (v : Word) (s : State), s.takes ⟨h, .setTime v⟩ = true →
    (s.clock.mode = .unset → ∃ u, exec (.setTime h v) s
        = .next (s.answered ⟨h, .setTime v⟩ u .ok (.time s.now v.toNat u.clock.day))
      ∧ u = (s.modRing Ring.pop).firstTime v.toNat ∧ u.now = v.toNat ∧ (s.Ahead → u.Ahead)
      ∧ (s.clock.fired = [] → (∀ r ∈ s.clock.regs, v.toNat < r.time) →
          u.clock.day = dayFormula v.toNat s.site.live.rolloverOffset ∧ u.clock.mode = .set
          ∧ u.clock.phase = 0 ∧ u.siteFlags = s.siteFlags))
    ∧ (s.clock.mode = .set → v.toNat + 60 < s.now → exec (.setTime h v) s
        = .next (s.answered ⟨h, .setTime v⟩ s .timeBackward .none))
    ∧ (s.clock.mode = .set → s.now ≤ v.toNat + 60 → v.toNat < s.now → ∃ u, exec (.setTime h v) s
        = .next (s.answered ⟨h, .setTime v⟩ u .ok (.time s.now v.toNat u.clock.day))
      ∧ (s.Ahead → u.Ahead)
      ∧ u.clock = { ((s.modRing Ring.pop).settleCrossings).clock with time := v.toNat, phase := 0 }
      ∧ u = { (s.modRing Ring.pop).settleCrossings with clock := u.clock })
    ∧ (s.clock.mode = .set → v.toNat = s.now → exec (.setTime h v) s
        = .next (s.answered ⟨h, .setTime v⟩ { s with clock := { s.clock with phase := 0 } } .ok
            (.time s.now s.now s.clock.day)))
    ∧ (s.clock.mode = .set → s.now < v.toNat → ∃ u, exec (.setTime h v) s
        = .next (s.answered ⟨h, .setTime v⟩ u .ok (.time s.now v.toNat u.clock.day))
      ∧ u.now = v.toNat ∧ u.siteFlags.getLsbD 3 = true ∧ (s.Ahead → u.Ahead)
      ∧ u = ((((s.modRing Ring.pop).settleCrossings.setDepotTime v.toNat).fire
          fun r => decide (r.time ≤ v.toNat)).settleCrossings).raiseSite SiteFlag.timeJump
      ∧ (s.clock.fired = [] → (∀ r ∈ s.clock.regs, v.toNat < r.time) →
          u = { s.modRing Ring.pop with
            clock := { s.clock with time := v.toNat, phase := 0 }
            siteFlags := s.siteFlags ||| SiteFlag.timeJump }))
    ∧ ((s.clock.mode = .unset ∨ s.now ≤ v.toNat + 60) → ∃ t, exec (.setTime h v) s = .next t
      ∧ t.clock.mode = .set ∧ t.clock.phase = 0 ∧ exec .depotTimeAdvance t = .next t)

/-- A rollover crossing that waits to be handed over (`Due`, log 7): the day number takes the formula's
value, export used becomes 0 in every enrolled record, plugged in or not, and the next boundary is
registered; nothing else changes, the clock's mode, time and current second neither. The next rollover
boundary is the least time at which the day formula exceeds the day number, and there is none only when no
depot time has such a value. -/
def Obligations.RolloverCrossingAndBoundary : Prop :=
  (∀ (s : State) (T : Nat), s.Due ⟨.rollover, 0, T⟩ → ∃ t, exec .rolloverCrossing s = .next t
    ∧ t = { s with clock := t.clock, buses := t.buses }
    ∧ t.clock = { s.clock with
        day := dayFormula s.now s.site.live.rolloverOffset, regs := t.clock.regs
        fired := s.clock.fired.erase ⟨.rollover, 0, T⟩ }
    ∧ (∀ i, t.bus i = (s.bus i).map fun b => { b with exportUsed := 0 })
    ∧ t.clock.regs = s.clock.regs ++ (match nextBoundary t.clock.day s.site.live.rolloverOffset with
        | some u => if s.now < u then [⟨.rollover, 0, u⟩] else []
        | none => []))
  ∧ (∀ (day : Int) (offset : Nat),
    (∀ t, nextBoundary day offset = some t →
      t ≤ 4294967295 ∧ day < dayFormula t offset ∧ ∀ u, u < t → dayFormula u offset ≤ day)
    ∧ (nextBoundary day offset = none → ∀ t, t ≤ 4294967295 → dayFormula t offset ≤ day))

/-! ### The site profile (01) -/

/-- SITE_CONFIGURE. A carried field out of its range refuses the request and stages nothing; otherwise the
carried fields are staged: while the engine is RUNNING the load waits and the status is STAGED, while it is
STOPPED the load takes place in the event, `State.load` of the staged state, and the status is OK. With
every marker set nothing is staged (STAGED while RUNNING is the model's reading, log 29). The load of the
staged values and its effects. A new rollover offset in a SET clock: the day number rises to the formula's
value with one rollover when that is greater, and the next boundary alone is registered. A new trickle power
goes to every unidentified session without a FAULT_REPORT. A new lockout window: the lockout point of every
PENDING part is registered again, where it lies ahead, and its departure stays registered. A new arm lead:
every PENDING commitment takes its new arm point, registered before its window start where it lies ahead,
and otherwise is ARMED at once. What has not changed has no effect. -/
def Obligations.SiteConfigureStagesOrLoads : Prop :=
  ((∀ f : SitePatch, f.ok = true ↔
    Within 0 4000000 f.feederLimit ∧ Within 0 500000 f.margin ∧ Within 0 4000000 f.fallbackBase
    ∧ Within 1 600 f.baseHold ∧ Within 1 30 f.allocPeriod ∧ Within 2 60 f.reversalRest
    ∧ Within 0 7200 f.guardTime ∧ Within 0 14400 f.atRisk ∧ Within 0 43200 f.lockoutWindow
    ∧ Within 0 14400 f.takeWindow ∧ Within 0 22000 f.tricklePower ∧ Within 0 7200 f.armLead
    ∧ Within 5 600 f.supervision ∧ Within 0 86399 f.rolloverOffset ∧ Within 10 600 f.stallTime
    ∧ Within 0 50000 f.soeTolerance ∧ Within 0 65535 f.depotId)
  ∧ ∀ (h : ReqHeader) (f : SitePatch) (s : State), s.takes ⟨h, .siteConfigure f⟩ = true →
    (f.ok = false → exec (.siteConfigure h f) s
        = .next (s.answered ⟨h, .siteConfigure f⟩ s .outOfRange .none))
    ∧ (f.ok = true → f.empty = true → exec (.siteConfigure h f) s
        = .next (s.answered ⟨h, .siteConfigure f⟩ s (if s.engine.running then .staged else .ok)
            (.loadPending s.site.loadPending)))
    ∧ (f.ok = true → f.empty = false → s.engine.running = true → exec (.siteConfigure h f) s
        = .next (s.answered ⟨h, .siteConfigure f⟩
            { s with site := { s.site with staged := f.write s.site.staged, loadPending := true } }
            .staged (.loadPending true)))
    ∧ (f.ok = true → f.empty = false → s.engine.running = false → ∃ u, exec (.siteConfigure h f) s
        = .next (s.answered ⟨h, .siteConfigure f⟩ u .ok (.loadPending false))
      ∧ u = State.load { s.modRing Ring.pop with
          site := { s.site with staged := f.write s.site.staged, loadPending := true } }
      ∧ u.site = { s.site with
          staged := f.write s.site.staged, live := f.write s.site.staged
          liveRatings := s.site.stagedRatings, loadPending := false }
      ∧ u.engine = s.engine ∧ u.plans = s.plans ∧ u.supervision = s.supervision ∧ u.protection = s.protection
      ∧ u.siteFlags = s.siteFlags ∧ u.dispatch = s.dispatch))
  ∧ (∀ s : State, s.TablesOk →
    let t := s.load
    let live := s.site.staged
    let old := s.site.live
    let day := dayFormula s.now live.rolloverOffset
    let moved : Prop := old.rolloverOffset ≠ live.rolloverOffset ∧ s.clock.mode = .set
    let rolls : Prop := moved ∧ s.clock.day < day
    let regs (u : State) (k : RegKind) (i : Nat) : List Registration :=
      u.clock.regs.filter fun r => r.kind == k && r.slot == i
    t = { s with
        site := { s.site with live := live, liveRatings := s.site.stagedRatings, loadPending := false }
        clock := t.clock, buses := t.buses, ports := t.ports, commits := t.commits }
    ∧ t.clock = { s.clock with day := t.clock.day, regs := t.clock.regs, fired := t.clock.fired }
    ∧ t.clock.fired.Sublist s.clock.fired
    ∧ (rolls → t.clock.day = day ∧ ∀ i, t.bus i = (s.bus i).map fun b => { b with exportUsed := 0 })
    ∧ (¬ rolls → t.clock.day = s.clock.day ∧ ∀ i, t.bus i = s.bus i)
    ∧ (moved → regs t .rollover 0 = match nextBoundary t.clock.day live.rolloverOffset with
        | some u => if s.now < u then [⟨.rollover, 0, u⟩] else []
        | none => [])
    ∧ (¬ moved → regs t .rollover 0 = regs s .rollover 0)
    ∧ (∀ (n : PortNo), let p := s.port n
      (∀ x why, old.tricklePower ≠ live.tricklePower → p.session = some x → x.binding = .unidentified why →
          p.lastFault = none → t.port n = { p with session := some { x with importCap := live.tricklePower } })
      ∧ ((old.tricklePower = live.tricklePower ∨ p.session = none ∨ p.boundSlot ≠ none ∨ p.lastFault ≠ none) →
          t.port n = p))
    ∧ (∀ i b, s.bus i = some b →
      let point (d : Departure) := d.tDep - live.lockoutWindow
      (∀ d, old.lockoutWindow ≠ live.lockoutWindow → b.departure = some d → d.state = .pending →
        regs t .lockout i = if 0 < live.lockoutWindow ∧ live.lockoutWindow ≤ d.tDep ∧ s.now < point d
          then [⟨.lockout, i, point d⟩] else [])
      ∧ ((old.lockoutWindow = live.lockoutWindow ∨ ∀ d, b.departure = some d → d.state ≠ .pending) →
        regs t .lockout i = regs s .lockout i)
      ∧ regs t .departure i = regs s .departure i)
    ∧ (∀ i c, s.commit i = some c →
      let point := c.windowStart - live.armLead
      let starts (u : State) : List Registration :=
        u.clock.regs.filter fun r => (r.kind == .armPoint || r.kind == .windowStart) && r.slot == i
      (old.armLead ≠ live.armLead → c.state = .pending → s.now < point →
        t.commit i = some { c with armPoint := point }
        ∧ starts t = [⟨.armPoint, i, point⟩, ⟨.windowStart, i, c.windowStart⟩])
      ∧ (old.armLead ≠ live.armLead → c.state = .pending → point ≤ s.now →
        t.commit i = some { c with
          armPoint := point, state := .armed, flags := c.flags ||| CommitFlag.armed }
        ∧ regs t .armPoint i = [] ∧ regs t .windowStart i = regs s .windowStart i)
      ∧ ((old.armLead = live.armLead ∨ c.state ≠ .pending) →
        t.commit i = some c ∧ starts t = starts s)
      ∧ regs t .windowEnd i = regs s .windowEnd i)
    ∧ t.clock.regs.filter (fun r => r.kind.owner == 1) = s.clock.regs.filter fun r => r.kind.owner == 1)

/-- SITE_LOAD_REPORT stores the report clamped to 4,000,000 W with the depot time at which it is taken, in
either clock state and either engine state, and ends any open stale episode. The effective base load of a
computation: the report while its age is at or below the live hold time, the live fallback otherwise; the
first fallback of an episode sets BASE_LOAD_STALE. -/
def Obligations.BaseLoadReportAndFallback : Prop :=
  (∀ (h : ReqHeader) (w : Word) (s : State), s.takes ⟨h, .siteLoadReport w⟩ = true →
    exec (.siteLoadReport h w) s = .next (s.answered ⟨h, .siteLoadReport w⟩
      { s with site := { s.site with report := some ⟨min w.toNat 4000000, s.now⟩, staleOpen := false } }
      .ok (.stored (min w.toNat 4000000))))
  ∧ (∀ s : State, ∃ b : BaseLoad, s.takeBase = { s with
        site := { s.site with lastBase := some b, staleOpen := b.fallback }
        siteFlags := if b.fallback = true ∧ s.site.staleOpen = false
          then s.siteFlags ||| SiteFlag.baseLoadStale else s.siteFlags }
    ∧ (∀ r, s.site.report = some r → s.now ≤ r.time + s.site.live.baseHold → b = ⟨r.watts, false⟩)
    ∧ ((s.site.report = none ∨ ∃ r, s.site.report = some r ∧ r.time + s.site.live.baseHold < s.now) →
        b = ⟨s.site.live.fallbackBase, true⟩))

/-! ### The Bus Table (02) -/

/-- BUS_ENROL. The four checks refuse in their order; a request that passes creates the record of R18 in
the lowest-numbered free slot, SoE clamped to the capacity with SOE_CLAMPED, and changes nothing else. -/
def Obligations.BusEnrolChecksThenCreates : Prop :=
  ∀ (h : ReqHeader) (p : BusEnrolPayload) (s : State), s.takes ⟨h, .busEnrol p⟩ = true →
    let refused (st : Status) : Prop :=
      exec (.busEnrol h p) s = .next (s.answered ⟨h, .busEnrol p⟩ s st .none)
    let fields : Prop := 10000 ≤ p.capacity.toNat ∧ p.capacity.toNat ≤ 600000 ∧ p.importCap.toNat ≤ 150000
      ∧ p.exportCap.toNat ≤ 60000 ∧ p.floor.toNat ≤ p.capacity.toNat ∧ p.allowance.toNat ≤ p.capacity.toNat
    let keyOk : Prop := 1 ≤ h.key.toNat ∧ h.key.toNat ≤ 65535
    let enrolled : Prop := ∃ r ∈ s.buses.rows, r.2.number = h.key.toNat
    (¬ keyOk → refused .outOfRange)
    ∧ (keyOk → ¬ fields → refused .outOfRange)
    ∧ (keyOk → fields → enrolled → refused .duplicate)
    ∧ (keyOk → fields → ¬ enrolled → (∀ i, i < 192 → (s.bus i).isSome) → refused .tableFull)
    ∧ (∀ i, keyOk → fields → ¬ enrolled → i < 192 → s.bus i = none → (∀ j, j < i → (s.bus j).isSome) →
        ∃ b : Bus, exec (.busEnrol h p) s = .next (s.answered ⟨h, .busEnrol p⟩
            { s with buses := s.buses.put i b } .ok (.enrolled i h.key.toNat b.soe b.source))
          ∧ b.number = h.key.toNat ∧ b.capacity = p.capacity.toNat ∧ b.importCap = p.importCap.toNat
          ∧ b.exportCap = p.exportCap.toNat ∧ b.v2g = p.v2g ∧ b.floor = p.floor.toNat
          ∧ b.allowance = p.allowance.toNat ∧ b.exportUsed = 0
          ∧ b.soe = p.initialSoe.map (fun w => min w.toNat p.capacity.toNat)
          ∧ b.source = (if p.initialSoe.isSome then .enrolled else .unknown)
          ∧ b.discrepancy = none ∧ b.location = none ∧ b.block = .enabled ∧ b.faultReason = none
          ∧ b.faultTime = none ∧ b.faultCount = 0 ∧ b.departure = none ∧ b.readiness = .none
          ∧ b.slack = none ∧ b.prioList = [] ∧ b.stdList = []
          ∧ b.flags = (if ∃ w, p.initialSoe = some w ∧ p.capacity.toNat < w.toNat
              then BusFlag.soeClamped else 0))

/-- BUS_CHANGE: an unknown number draws NOT_FOUND; fields that would not stand refuse the request whole; a
request with every marker set changes nothing. Otherwise (the order is log 13) the carried fields are
written, ALLOWANCE_USED set when a lower allowance is used up; a carried capacity clamps SoE with
SOE_CLAMPED, required and achieved energy and the IMPORT_TO targets of the listed plans, and an IMPORT_TO
step whose end condition then holds ends; a raised floor ends an EXPORT_TO step likewise; and at a location
the session caps are formed again and the held setpoint is lowered to down100 of its cap, an export to 0 at
the floor or with the allowance used. The result holds the configurable fields, bus number, SoE and source
as they then stand (256: log 22). BUS_CHANGE of the capacity, with no marker set for the floor and on a bus
without location and departure part whose lists are empty: SoE falls to a capacity below it with
SOE_CLAMPED, its source kept. -/
def Obligations.BusChangeChecksAndClamps : Prop :=
  (∀ (h : ReqHeader) (f : BusPatch) (s : State), s.takes ⟨h, .busChange f⟩ = true →
    ((∀ r ∈ s.buses.rows, r.2.number ≠ h.key.toNat) → exec (.busChange h f) s
        = .next (s.answered ⟨h, .busChange f⟩ s .notFound .none))
    ∧ ∀ i b, s.findBus h.key.toNat = some (i, b) →
      let nb := f.write b
      let fits : Prop := 10000 ≤ nb.capacity ∧ nb.capacity ≤ 600000 ∧ nb.importCap ≤ 150000
        ∧ nb.exportCap ≤ 60000 ∧ nb.floor ≤ nb.capacity ∧ nb.allowance ≤ nb.capacity
      (¬ fits → exec (.busChange h f) s = .next (s.answered ⟨h, .busChange f⟩ s .outOfRange .none))
      ∧ (fits → f.empty = true → s.bus i = some b → exec (.busChange h f) s
          = .next (s.answered ⟨h, .busChange f⟩ s .ok (.busFields b.number b.capacity b.importCap
              b.exportCap b.v2g b.floor b.allowance b.soe b.source)))
      ∧ (fits → f.empty = false → s.bus i = some b →
        let written : Bus := if b.exportUsed < b.allowance ∧ nb.allowance ≤ b.exportUsed
          then { nb with flags := nb.flags ||| BusFlag.allowanceUsed } else nb
        let clamped : Bus := { written with
          soe := nb.soe.map fun x => min x nb.capacity
          flags := if ∃ x, nb.soe = some x ∧ nb.capacity < x
            then written.flags ||| BusFlag.soeClamped else written.flags
          departure := nb.departure.map fun d => { d with
            eReq := min d.eReq nb.capacity
            reqClamped := d.reqClamped || decide (nb.capacity < d.eReq)
            state := match d.state with
              | .taken (some x) => .taken (some (min x nb.capacity))
              | x => x } }
        let tested (kind : StepKind) (v w : State) : Prop := ∀ c, v.bus i = some c →
          (∀ j p st, v.runningPlan c = some j → v.plan j = some p → p.step? = some st →
            w = if st.kind = kind ∧ stepEnded v.now c st = true then runTasks i 256 (.finish j) v else v)
          ∧ (∀ j p, v.runningPlan c = some j → v.plan j = some p → p.step? = none → w = v)
          ∧ (v.runningPlan c = none → w = v)
        ∃ (v1 v2 v3 u : State) (c : Bus), exec (.busChange h f) s
            = .next (s.answered ⟨h, .busChange f⟩ u .ok (.busFields c.number c.capacity c.importCap
                c.exportCap c.v2g c.floor c.allowance c.soe c.source))
          ∧ (f.capacity = none → v1 = (s.modRing Ring.pop).putBus i written ∧ v2 = v1)
          ∧ (f.capacity ≠ none →
              v1 = { (s.modRing Ring.pop).putBus i clamped with plans := v1.plans }
              ∧ (∀ j, j ∈ b.prioList ++ b.stdList → v1.plan j = (s.plan j).map fun p => { p with
                  steps := p.steps.map fun st =>
                    if st.kind = .importTo then { st with value := min st.value nb.capacity } else st })
              ∧ (∀ j, j ∉ b.prioList ++ b.stdList → v1.plan j = s.plan j)
              ∧ tested .importTo v1 v2)
          ∧ (b.floor < nb.floor → tested .exportTo v2 v3)
          ∧ (nb.floor ≤ b.floor → v3 = v2)
          ∧ v3.bus i = some c
          ∧ (b.location = none → u = v3)
          ∧ ∀ n, b.location = some n → let p := v3.port n; let r := u.port n
            u = { v3 with ports := v3.ports.set n r }
            ∧ r = { p.timersOf r with
                session := r.session, held := r.held, lastDir := r.lastDir, zeroSince := r.zeroSince
                frameCount := r.frameCount, frameTimer := r.frameTimer, lastFrame := r.lastFrame }
            ∧ r.session = p.session.map (fun x => match x.announced with
                | some a => { x with
                    importCap := min c.importCap a.maxImport
                    exportCap := if c.v2g = true ∧ a.v2g = true then min c.exportCap a.maxExport else 0 }
                | none => x)
            ∧ (p.held.dir = .none → r.held = p.held)
            ∧ (p.held.dir = .imp → r.held = if r.sessionImportCap < p.held.mag
                then .make .imp (r.sessionImportCap / 100 * 100) else p.held)
            ∧ (p.held.dir = .exp → r.held =
                if (∃ x, c.soe = some x ∧ x ≤ c.dischargeFloor) ∨ c.allowance ≤ c.exportUsed then .zero
                else if r.sessionExportCap < p.held.mag
                then .make .exp (r.sessionExportCap / 100 * 100) else p.held)))
  ∧ (∀ (h : ReqHeader) (c : Word) (s : State) (i : Nat) (b : Bus),
    s.takes ⟨h, .busChange ⟨some c, none, none, none, none, none⟩⟩ = true →
    s.findBus h.key.toNat = some (i, b) → s.bus i = some b →
    10000 ≤ c.toNat → c.toNat ≤ 600000 → b.importCap ≤ 150000 → b.exportCap ≤ 60000 → b.floor ≤ c.toNat →
    b.allowance ≤ c.toNat → b.location = none → b.departure = none → b.prioList = [] → b.stdList = [] →
    ∃ t, exec (.busChange h ⟨some c, none, none, none, none, none⟩) s = .next t
      ∧ t.bus i = some { b with
          capacity := c.toNat
          soe := b.soe.map fun x => min x c.toNat
          flags := if ∃ x, b.soe = some x ∧ c.toNat < x then b.flags ||| BusFlag.soeClamped
            else b.flags }
      ∧ t.plans = s.plans ∧ t.ports = s.ports ∧ t.site = s.site ∧ t.clock = s.clock)

/-- BUS_RETIRE. An unknown number, a location and a listed plan refuse in that order; otherwise every plan
of the slot is freed, its generation one higher, the departure's registrations go, and the slot is free. -/
def Obligations.BusRetireFreesSlotAndPlans : Prop :=
  ∀ (h : ReqHeader) (s : State), s.takes ⟨h, .busRetire⟩ = true → s.TablesOk →
    ((∀ r ∈ s.buses.rows, r.2.number ≠ h.key.toNat) → exec (.busRetire h) s
        = .next (s.answered ⟨h, .busRetire⟩ s .notFound .none))
    ∧ ∀ i b, s.findBus h.key.toNat = some (i, b) →
      (b.location ≠ none → exec (.busRetire h) s = .next (s.answered ⟨h, .busRetire⟩ s .busPlugged .none))
      ∧ (b.location = none → b.prioList ++ b.stdList ≠ [] → exec (.busRetire h) s
          = .next (s.answered ⟨h, .busRetire⟩ s .plansPending .none))
      ∧ (b.location = none → b.prioList = [] → b.stdList = [] → ∃ u, exec (.busRetire h) s
          = .next (s.answered ⟨h, .busRetire⟩ u .ok
              (.retired i (s.plans.rows.filter fun r => r.2.busSlot == i).length))
        ∧ u.bus i = none ∧ (∀ j, j ≠ i → u.bus j = s.bus j)
        ∧ (∀ j p, s.plan j = some p → p.busSlot = i →
            u.plan j = none ∧ u.planGens.gen j = (s.planGens.gen j + 1) % 256)
        ∧ (∀ j, (∀ p, s.plan j = some p → p.busSlot ≠ i) →
            u.plan j = s.plan j ∧ u.planGens.gen j = s.planGens.gen j)
        ∧ (∀ r ∈ u.clock.regs, ¬ (r.kind.owner = 2 ∧ r.slot = i))
        ∧ u = { s.modRing Ring.pop with
            clock := u.clock, buses := u.buses, plans := u.plans, planGens := u.planGens })

/-- BUS_UNBLOCK: NOT_FOUND, NOT_BLOCKED on an ENABLED bus; a BLOCKED bus becomes ENABLED and keeps its fault
reason, time and count and its flags. A blocking fault. An ENABLED bus becomes BLOCKED with the reason, the
time and BLOCKED, its fault count one higher; its lists become empty, the RUNNING plan STOPPED with
BUS_FAULT, every other listed plan RETURNED with BUS_BLOCKED, all final now with their registrations
withdrawn (log 7: those that wait too), and its port's power drops to 0. A BLOCKED bus only has its count
raised. Fault counts stay at 65,535. -/
def Obligations.BlockingAndUnblocking : Prop :=
  (∀ (h : ReqHeader) (s : State), s.takes ⟨h, .busUnblock⟩ = true →
    ((∀ r ∈ s.buses.rows, r.2.number ≠ h.key.toNat) → exec (.busUnblock h) s
        = .next (s.answered ⟨h, .busUnblock⟩ s .notFound .none))
    ∧ ∀ i b, s.findBus h.key.toNat = some (i, b) →
      (b.block = .enabled → exec (.busUnblock h) s
          = .next (s.answered ⟨h, .busUnblock⟩ s .notBlocked .none))
      ∧ (b.block = .blocked → exec (.busUnblock h) s = .next (s.answered ⟨h, .busUnblock⟩
          { s with buses := s.buses.put i { b with block := .enabled } } .ok .none)))
  ∧ (∀ (i : Nat) (r : FaultReason) (s : State) (b : Bus), s.bus i = some b →
    (b.block = .blocked → s.blockBus i r = { s with
        buses := s.buses.put i { b with faultCount := min (b.faultCount + 1) 65535 } })
    ∧ (b.block = .enabled →
        ((s.blockBus i r).bus i).map (fun c => (c.block, c.faultReason, c.faultTime, c.faultCount, c.flags))
          = some (.blocked, some r, some s.now, min (b.faultCount + 1) 65535, b.flags ||| BusFlag.blocked)
        ∧ ((s.blockBus i r).bus i).map (fun c => (c.location, c.departure, c.soe, c.exportUsed))
          = some (b.location, b.departure, b.soe, b.exportUsed)
        ∧ (∀ n, b.location = some n → ((s.blockBus i r).port n).held = ⟨0, .none⟩
            ∧ ((s.blockBus i r).port n).state = (s.port n).state
            ∧ ((s.blockBus i r).port n).session = (s.port n).session)
        ∧ (∀ n, b.location ≠ some n → (s.blockBus i r).port n = s.port n))
    ∧ (b.block = .enabled → s.ListsAgree →
        let listed := b.prioList ++ b.stdList
        let t := s.blockBus i r
        t.bus i = some { b with
            block := .blocked, faultReason := some r, faultTime := some s.now
            faultCount := min (b.faultCount + 1) 65535, flags := b.flags ||| BusFlag.blocked
            prioList := [], stdList := [] }
        ∧ (∀ j p, j ∈ listed → s.plan j = some p → t.plan j = some { p with
            state := if p.state = .running then .stopped else .returned
            outcome := some (if p.state = .running then .busFault else .busBlocked)
            finish := some s.now, cond := none, final := true })
        ∧ (∀ j, j ∉ listed → t.plan j = s.plan j)
        ∧ (∀ k, k ≠ i → t.bus k = s.bus k)
        ∧ t.clock = { s.clock with
            regs := s.clock.regs.filter fun x => !(x.kind.owner == 1 && decide (x.slot ∈ listed))
            fired := s.clock.fired.filter fun x => !(x.kind.owner == 1 && decide (x.slot ∈ listed)) }
        ∧ t = { s with clock := t.clock, buses := t.buses, plans := t.plans, ports := t.ports }))

/-- BUS_LOOKUP and BUS_PLANS resolve their key by number or, with the by-slot flag, by slot, and change no
state: view 0 or view 1 of the record in its bytes, or the lists from head to tail. That a byte V2G
permitted, REQ_CLAMPED or slack present is 1 for yes, set or present and 0 otherwise is the model's choice
(log 43), and so are the zeros above the ten attention flags (log 44). The bytes of BUS_LOOKUP's two views:
where each field of section 11.6 stands, least significant byte first. What an absent field's bytes hold
where no value is stated is left open (log 14). PLAN_LOOKUP resolves its id and changes no state: view 0
without the steps, view 1 with steps 1 and 2, view 2 with steps 3 and 4, a step beyond the count as 14 zero
bytes. A step's bytes are PLAN_SUBMIT's form; what an absent time's four bytes hold is left open (log 36).
The id is resolved as R39 says, with no form by slot (log 40); that byte 7 of the key is ignored is the
model's choice (log 39). -/
def Obligations.BusAndPlanLookups : Prop :=
  (∀ (h : ReqHeader) (s : State),
    let bySlot : Bool := h.flags.getLsbD 0
    let missing : Prop := (bySlot = true ∧ h.key.toNat ≤ 191 ∧ s.bus h.key.toNat = none)
      ∨ (bySlot = false ∧ ∀ r ∈ s.buses.rows, r.2.number ≠ h.key.toNat)
    let names (i : Nat) (b : Bus) : Prop := (bySlot = true ∧ h.key.toNat ≤ 191 ∧ i = h.key.toNat ∧ s.bus i = some b)
      ∨ (bySlot = false ∧ s.findBus h.key.toNat = some (i, b))
    (s.takes ⟨h, .busLookup⟩ = true →
      (bySlot = true → 191 < h.key.toNat → exec (.busLookup h) s
          = .next (s.answered ⟨h, .busLookup⟩ s .outOfRange .none))
      ∧ (missing → exec (.busLookup h) s = .next (s.answered ⟨h, .busLookup⟩ s .notFound .none))
      ∧ ∀ i b, names i b → exec (.busLookup h) s = .next (s.answered ⟨h, .busLookup⟩ s .ok
          (.busView (if h.flags.getLsbD 1 then busView1 i b
            else busView0 i b ((s.runningPlan b).map s.planId)))))
    ∧ (s.takes ⟨h, .busPlans⟩ = true →
      (bySlot = true → 191 < h.key.toNat → exec (.busPlans h) s
          = .next (s.answered ⟨h, .busPlans⟩ s .outOfRange .none))
      ∧ (missing → exec (.busPlans h) s = .next (s.answered ⟨h, .busPlans⟩ s .notFound .none))
      ∧ ∀ i b, names i b → exec (.busPlans h) s = .next (s.answered ⟨h, .busPlans⟩ s .ok
          (.planLists b.prioList.length b.stdList.length
            ((b.prioList ++ b.stdList).filterMap fun j =>
              (s.plan j).map fun p => (⟨j, p.generation⟩, p.cls, p.state))))))
  ∧ ((∀ n v k : Nat, (leBytes n v).length = n
    ∧ (k < n → (leBytes n v)[k]? = some (BitVec.ofNat 8 (v / 256 ^ k))))
  ∧ [SoeSource.unknown, .enrolled, .reported, .integrated].map SoeSource.code = [0, 1, 2, 3]
  ∧ [FaultReason.pilotFault, .busReported, .energyStall].map FaultReason.code = [0, 1, 2]
  ∧ [Readiness.none, .away, .ready, .onTrack, .atRisk, .late, .overdue].map Readiness.code
      = [0, 1, 2, 3, 4, 5, 6]
  ∧ ∀ (i : Nat) (b : Bus) (running : Option SlotId),
    let v0 := busView0 i b running
    let v1 := busView1 i b
    let in0 (o n v : Nat) : Prop := (v0.drop o).take n = leBytes n v
    let in1 (o n v : Nat) : Prop := (v1.drop o).take n = leBytes n v
    v0.length = 48 ∧ v1.length = 23
    ∧ in0 0 1 i ∧ in0 1 2 b.number ∧ in0 3 3 b.capacity ∧ in0 6 3 b.importCap ∧ in0 9 2 b.exportCap
    ∧ in0 11 3 b.floor ∧ in0 14 3 b.allowance ∧ in0 17 4 b.exportUsed
    ∧ in0 21 3 (b.soe.getD 16777215) ∧ in0 24 1 b.source.code
    ∧ in0 25 1 (if b.v2g then 1 else 0) ∧ (∀ n, b.location = some n → in0 26 1 n.val)
    ∧ (b.location = none → in0 26 1 255) ∧ in0 27 1 (if b.block = .enabled then 0 else 1)
    ∧ (∀ r, b.faultReason = some r → in0 28 1 (r.code + 1)) ∧ (b.faultReason = none → in0 28 1 0)
    ∧ in0 29 2 b.faultCount ∧ (∀ x, b.faultTime = some x → in0 31 4 x)
    ∧ (∀ d, b.discrepancy = some d → in0 35 3 d.reported ∧ in0 38 3 d.integrated)
    ∧ (b.discrepancy = none → in0 35 3 16777215 ∧ in0 38 3 16777215)
    ∧ (∀ x, running = some x → in0 41 2 x.slot ∧ in0 43 1 x.generation)
    ∧ (running = none → in0 41 2 65535)
    ∧ in0 44 1 b.prioList.length ∧ in0 45 1 b.stdList.length ∧ in0 46 2 b.flags.toNat
    ∧ in1 0 1 i ∧ in1 1 2 b.number ∧ (b.departure = none → in1 3 1 0)
    ∧ (∀ d, b.departure = some d →
        in1 3 1 (match d.state with | .pending => 1 | .overdue => 2 | .taken _ => 3)
        ∧ in1 4 1 (if d.reqClamped then 1 else 0) ∧ in1 5 4 d.tDep ∧ in1 9 3 d.eReq ∧ in1 12 2 d.route
        ∧ ∀ a, d.state = .taken a → in1 14 3 (a.getD 16777215))
    ∧ in1 17 1 b.readiness.code ∧ in1 18 1 (if b.slack.isSome then 1 else 0)
    ∧ ∀ x, b.slack = some x → in1 19 4 (x % 4294967296).toNat)
  ∧ (∀ (h : ReqHeader) (s : State), s.takes ⟨h, .planLookup⟩ = true →
    let slot := (h.key.extractLsb' 0 16).toNat
    let gen := (h.key.extractLsb' 16 8).toNat
    let answers (st : Status) (r : Result) : Prop :=
      exec (.planLookup h) s = .next (s.answered ⟨h, .planLookup⟩ s st r)
    (511 < slot → answers .outOfRange .none)
    ∧ (slot ≤ 511 → (s.plan slot = none ∨ ∃ p, s.plan slot = some p ∧ p.generation ≠ gen) →
        answers .staleId .none)
    ∧ ∀ p, slot ≤ 511 → s.plan slot = some p → p.generation = gen →
      (h.flags.getLsbD 1 = false → answers .ok (.planView (s.planView slot p)))
      ∧ (h.flags.getLsbD 1 = true → h.flags.getLsbD 2 = false →
          answers .ok (.planSteps ⟨slot, gen⟩ (stepBytes p.steps[0]? ++ stepBytes p.steps[1]?)))
      ∧ (h.flags.getLsbD 1 = true → h.flags.getLsbD 2 = true →
          answers .ok (.planSteps ⟨slot, gen⟩ (stepBytes p.steps[2]? ++ stepBytes p.steps[3]?)))
      ∧ stepBytes none = List.replicate 14 0
      ∧ ∀ st : PlanStep, stepBytes (some st) = leBytes 2
            (st.kind.code * 16384 + (if st.notBefore.isSome then 8192 else 0)
              + (if st.endBy.isSome then 4096 else 0) + st.cap / 100)
          ++ leBytes 4 st.value
          ++ (match st.notBefore with | some x => leBytes 4 x | none => (List.range 4).map fun k => Config.absentStepByte (6 + k))
          ++ (match st.endBy with | some x => leBytes 4 x | none => (List.range 4).map fun k => Config.absentStepByte (10 + k)))

/-! ### Charge plans (03) -/

/-- Selection takes the head of the priority list, or of the standard list when that is empty, for a
located, ENABLED bus that runs no plan, makes it RUNNING and begins its step; otherwise it does nothing. The
end condition of a step: SoE, known, at or above an import target; at or below an export target or the
discharge floor, whichever is higher; a hold time at or before now. A step begins by R47's points in order:
an end condition that holds ends it; an end-by time passed stops the plan with DEADLINE; a not-before time
ahead makes TIMED_WAIT; an unknown SoE makes SOE_WAIT with SOE_UNKNOWN for a step that moves energy;
otherwise ACTIVE. Hold, end-by and not-before register in order. -/
def Obligations.SelectionBeginsSteps : Prop :=
  (∀ (s : State) (b : Nat) (bus : Bus), s.bus b = some bus →
    (∀ i rest, bus.location ≠ none → bus.block = .enabled → s.runningPlan bus = none →
      bus.prioList ++ bus.stdList = i :: rest →
      planTask b .select s = (s.modPlan i fun p => { p with state := .running }, some (.start i)))
    ∧ ((bus.location = none ∨ bus.block = .blocked ∨ s.runningPlan bus ≠ none
        ∨ bus.prioList ++ bus.stdList = []) → planTask b .select s = (s, none)))
  ∧ (∀ (now : Nat) (b : Bus) (st : PlanStep),
    (st.kind = .importTo → (stepEnded now b st = true ↔ ∃ x, b.soe = some x ∧ st.value ≤ x))
    ∧ (st.kind = .exportTo →
        (stepEnded now b st = true ↔ ∃ x, b.soe = some x ∧ (x ≤ st.value ∨ x ≤ b.dischargeFloor)))
    ∧ (st.kind = .holdUntil → (stepEnded now b st = true ↔ st.value ≤ now)))
  ∧ (∀ (s : State) (b i : Nat) (bus : Bus) (p : Plan) (st : PlanStep),
    s.bus b = some bus → s.plan i = some p → p.step? = some st →
    let held : State := if st.kind = .holdUntil then s.register .holdUntil i st.value else s
    let ended : Prop := stepEnded s.now bus st = true
    let passed : Prop := ∃ e, st.endBy = some e ∧ e ≤ s.now
    let ahead : Prop := ∃ t, st.notBefore = some t ∧ s.now < t
    let timed : State := match st.endBy with
      | some e => held.register .endBy i e
      | none => held
    let conditioned (c : StepCond) (t : State) : State := t.putPlan i { p with cond := some c }
    (ended → planTask b (.start i) s = (s, some (.finish i)))
    ∧ (¬ ended → passed → planTask b (.start i) s
        = (State.releasePower b (held.finalise i .stopped .deadline), some .select))
    ∧ (∀ t, ¬ ended → ¬ passed → st.notBefore = some t → s.now < t → planTask b (.start i) s
        = ((conditioned .timedWait timed).register .notBefore i t, none))
    ∧ (¬ ended → ¬ passed → ¬ ahead → st.kind ≠ .holdUntil → bus.soe = none → planTask b (.start i) s
        = ((conditioned .soeWait timed).putBus b (bus.raise BusFlag.soeUnknown), none))
    ∧ (¬ ended → ¬ passed → ¬ ahead → (st.kind = .holdUntil ∨ bus.soe ≠ none) → planTask b (.start i) s
        = (conditioned .active timed, none)))

/-- The end of a RUNNING plan's step withdraws its registrations and releases the plan's power; the last
step makes the plan DONE; a STANDARD plan with a priority plan listed becomes PAUSED with its step advanced;
otherwise the next step begins. The release of a plan's power: an import setpoint falls to the tier-A grant
of the most recent computation, an export setpoint to 0, a setpoint of 0 stays; no other port changes. What
a plan's entry into a final state does: its state, outcome and finish time, no step condition, FINAL; it
leaves its lists, the rest in order; its registrations go, those that wait to be handed over too (log 7);
nothing else changes. -/
def Obligations.StepEndsAndFinalPlans : Prop :=
  (∀ (s : State) (b i : Nat) (bus : Bus) (p : Plan), s.bus b = some bus → s.plan i = some p →
    let freed : State := (s.withdraw fun r => r.kind.owner == 1 && r.slot == i).releasePower b
    (p.steps.length ≤ p.current → planTask b (.finish i) s
        = (freed.finalise i .done .complete, some .select))
    ∧ (p.current < p.steps.length → p.cls = .standard → bus.prioList ≠ [] → planTask b (.finish i) s
        = (freed.putPlan i { p with state := .paused, cond := none, current := p.current + 1 }, some .select))
    ∧ (p.current < p.steps.length → (p.cls = .priority ∨ bus.prioList = []) → planTask b (.finish i) s
        = (freed.putPlan i { p with current := p.current + 1 }, some (.start i))))
  ∧ (∀ (s : State) (b : Nat) (bus : Bus) (n : PortNo), s.bus b = some bus → bus.location = some n →
    ((s.port n).held.dir = .imp → ((s.releasePower b).port n).held
        = .make .imp (min (s.port n).held.mag s.engine.ports[n].tierA))
    ∧ ((s.port n).held.dir = .exp → ((s.releasePower b).port n).held = ⟨0, .none⟩)
    ∧ ((s.port n).held.dir = .none → ((s.releasePower b).port n).held = (s.port n).held)
    ∧ (∀ m, m ≠ n → (s.releasePower b).port m = s.port m)
    ∧ (s.releasePower b) = { s with ports := (s.releasePower b).ports })
  ∧ (∀ (s : State) (i : Nat) (p : Plan) (b : Bus) (st : PlanState) (o : PlanOutcome),
    s.plan i = some p → s.bus p.busSlot = some b → ∃ t, t = s.finalise i st o
      ∧ t.plan i = some { p with
          state := st, outcome := some o, finish := some s.now, cond := none, final := true }
      ∧ t.bus p.busSlot = some { b with
          prioList := b.prioList.filter (· != i), stdList := b.stdList.filter (· != i) }
      ∧ (∀ j, j ≠ i → t.plan j = s.plan j) ∧ (∀ j, j ≠ p.busSlot → t.bus j = s.bus j)
      ∧ t.clock = { s.clock with
          regs := s.clock.regs.filter fun r => !(r.kind.owner == 1 && r.slot == i)
          fired := s.clock.fired.filter fun r => !(r.kind.owner == 1 && r.slot == i) }
      ∧ t = { s with clock := t.clock, buses := t.buses, plans := t.plans })

/-- The crossings of a RUNNING plan. Not-before: TIMED_WAIT gives way to SOE_WAIT with SOE_UNKNOWN, or to
ACTIVE. Hold time: the step ends, and what follows runs on in the event. End-by: the plan is STOPPED with
DEADLINE, its power released, and selection takes place. A plan not RUNNING is left as it is. That a crossing
waits to be handed over (`Due`, `unfire`) is the model's reading (log 7), and 256 is log 22's bound. -/
def Obligations.PlanCrossings : Prop :=
  ∀ (s : State) (slot : PlanSlot) (T : Nat),
    (s.Due ⟨.notBefore, slot.val, T⟩ →
      let u := s.unfire ⟨.notBefore, slot.val, T⟩
      (∀ p st b, s.plan slot.val = some p → p.state = .running → p.cond = some .timedWait →
          p.step? = some st → s.bus p.busSlot = some b →
          exec (.notBeforeCrossing slot) s = .next
            (if st.kind ≠ .holdUntil ∧ b.soe = none then
              (u.putPlan slot.val { p with cond := some .soeWait }).putBus p.busSlot (b.raise BusFlag.soeUnknown)
             else u.putPlan slot.val { p with cond := some .active }))
      ∧ ((∀ p, s.plan slot.val = some p → p.state ≠ .running) → exec (.notBeforeCrossing slot) s = .next u))
    ∧ (s.Due ⟨.holdUntil, slot.val, T⟩ →
      let u := s.unfire ⟨.holdUntil, slot.val, T⟩
      (∀ p, s.plan slot.val = some p → p.state = .running →
          exec (.holdUntilCrossing slot) s = .next (runTasks p.busSlot 256 (.finish slot.val) u))
      ∧ ((∀ p, s.plan slot.val = some p → p.state ≠ .running) → exec (.holdUntilCrossing slot) s = .next u))
    ∧ (s.Due ⟨.endBy, slot.val, T⟩ →
      let u := s.unfire ⟨.endBy, slot.val, T⟩
      (∀ p, s.plan slot.val = some p → p.state = .running →
          exec (.endByCrossing slot) s = .next (runTasks p.busSlot 256 .select
            (State.releasePower p.busSlot (u.finalise slot.val .stopped .deadline))))
      ∧ ((∀ p, s.plan slot.val = some p → p.state ≠ .running) → exec (.endByCrossing slot) s = .next u))

/-- PLAN_SUBMIT. Flags bits 1 to 0 are the class, 0 PRIORITY and 1 STANDARD, bit 2 the UNBLOCK flag and bits
5 to 3 the count of the steps read, 1 to 4. The five checks refuse in their order and change nothing; a
request that passes unblocks the bus, places the plan in the lowest free slot with its stored steps, and
appends it to its class's list; a PRIORITY plan then ends the hold of a RUNNING STANDARD plan, and selection
takes place. On a bus without location that runs no plan, the plan stands QUEUED at the tail and nothing
else happens (256: log 22). What PLAN_SUBMIT reads of a carried step: bits 15 to 14 the kind, bits 11 to 0
the cap in units of 100 W, clamped to 150,000 W; a fourth kind and a cap of 0 are refused; an import target
is clamped to the capacity; bits 13 and 12 say which times are present. -/
def Obligations.PlanSubmitChecksThenPlaces : Prop :=
  (∀ (h : ReqHeader) (r1 r2 r3 r4 : RawStep) (s : State), s.takes ⟨h, .planSubmit r1 r2 r3 r4⟩ = true →
    let i := Instr.planSubmit h r1 r2 r3 r4
    let q : Request := ⟨h, .planSubmit r1 r2 r3 r4⟩
    let class? : Option PlanClass := match (h.flags.extractLsb' 0 2).toNat with
      | 0 => some .priority
      | 1 => some .standard
      | _ => none
    let count := (h.flags.extractLsb' 3 3).toNat
    let read := [r1, r2, r3, r4].take count
    let fits (c : Nat) : Prop := class? ≠ none ∧ 1 ≤ count ∧ count ≤ 4 ∧ ∀ r ∈ read, r.store c ≠ none
    ((∀ r ∈ s.buses.rows, r.2.number ≠ h.key.toNat) → exec i s = .next (s.answered q s .notFound .none))
    ∧ ∀ k b, s.findBus h.key.toNat = some (k, b) →
      let full : Prop := 8 ≤ (b.prioList ++ b.stdList).length
      let shut : Prop := b.block = .blocked ∧ h.flags.getLsbD 2 = false
      (¬ fits b.capacity → exec i s = .next (s.answered q s .outOfRange .none))
      ∧ (fits b.capacity → shut → exec i s = .next (s.answered q s .busBlocked .none))
      ∧ (fits b.capacity → ¬ shut → full → exec i s = .next (s.answered q s .listFull .none))
      ∧ (fits b.capacity → ¬ shut → ¬ full → (∀ j, j < 512 → (s.plan j).isSome) →
          exec i s = .next (s.answered q s .tableFull .none))
      ∧ (∀ cls steps j, fits b.capacity → class? = some cls →
          read.map (RawStep.store b.capacity) = steps.map some → ¬ shut → ¬ full → j < 512 →
          s.plan j = none → (∀ m, m < j → (s.plan m).isSome) →
          s.bus k = some b →
          let placed : State := ((s.modRing Ring.pop).putPlan j
            { generation := s.planGens.gen j, busSlot := k, cls := cls, unblock := h.flags.getLsbD 2
              steps := steps, current := 1, cond := none, state := .queued, outcome := none
              imported := 0, exported := 0, finish := none, final := false }).putBus k
            (match cls with
             | .priority => { b with block := .enabled, prioList := b.prioList ++ [j] }
             | .standard => { b with block := .enabled, stdList := b.stdList ++ [j] })
          let ended : State :=
            match cls, (s.runningPlan b).bind fun m => (s.plan m).map fun p => (m, p) with
            | .priority, some (m, p) =>
              if p.cls = .standard ∧ (p.step?.map PlanStep.kind) = some .holdUntil
              then runTasks k 256 (.finish m) placed else placed
            | _, _ => placed
          ∃ u, exec i s = .next (s.answered q u .ok (submitResult j u)) ∧ u = runTasks k 256 .select ended
            ∧ (b.location = none → s.runningPlan b = none → u = placed)))
  ∧ (∀ (r : RawStep) (capacity : Nat),
    let k := (r.head.extractLsb' 14 2).toNat
    let units := (r.head.extractLsb' 0 12).toNat
    ((k = 3 ∨ units = 0) → r.store capacity = none)
    ∧ (k ≠ 3 → units ≠ 0 → ∃ st, r.store capacity = some st
      ∧ st.kind = (if k = 0 then .importTo else if k = 1 then .exportTo else .holdUntil)
      ∧ st.cap = min (units * 100) 150000
      ∧ st.value = (if k = 0 then min r.value.toNat capacity else r.value.toNat)
      ∧ st.notBefore = (if r.head.getLsbD 13 then some r.notBefore.toNat else none)
      ∧ st.endBy = (if r.head.getLsbD 12 then some r.endBy.toNat else none)))

/-- PLAN_CANCEL and PLAN_RETIRE by the id in the key and the plan's state. A cancel of a QUEUED or PAUSED
plan makes it CANCELLED and disturbs nothing else; of a RUNNING one also releases its power and selects
again (256: log 22; what a final state withdraws: log 7). A retirement of a final plan frees its slot, whose
generation rises by one. That byte 7 of the key is ignored is the model's choice (log 39). -/
def Obligations.PlanCancelAndRetire : Prop :=
  ∀ (h : ReqHeader) (s : State),
    let slot := (h.key.extractLsb' 0 16).toNat
    let gen := (h.key.extractLsb' 16 8).toNat
    let stale : Prop := s.plan slot = none ∨ ∃ p, s.plan slot = some p ∧ p.generation ≠ gen
    (s.takes ⟨h, .planCancel⟩ = true →
      (511 < slot → exec (.planCancel h) s = .next (s.answered ⟨h, .planCancel⟩ s .outOfRange .none))
      ∧ (slot ≤ 511 → stale → exec (.planCancel h) s
          = .next (s.answered ⟨h, .planCancel⟩ s .staleId .none))
      ∧ ∀ p, slot ≤ 511 → s.plan slot = some p → p.generation = gen →
        (p.state.listed = false → exec (.planCancel h) s
            = .next (s.answered ⟨h, .planCancel⟩ s .planFinal .none))
        ∧ ((p.state = .queued ∨ p.state = .paused) → exec (.planCancel h) s
            = .next (s.answered ⟨h, .planCancel⟩ ((s.modRing Ring.pop).finalise slot .cancelled .cancelled) .ok
                (.planEnded ⟨slot, gen⟩ .cancelled (some .cancelled) (some s.now) p.imported p.exported)))
        ∧ (p.state = .running → ∃ u, exec (.planCancel h) s
            = .next (s.answered ⟨h, .planCancel⟩ u .ok (cancelResult slot u))
          ∧ u = runTasks p.busSlot 256 .select (State.releasePower p.busSlot
              ((s.modRing Ring.pop).finalise slot .cancelled .cancelled))))
    ∧ (s.takes ⟨h, .planRetire⟩ = true →
      (511 < slot → exec (.planRetire h) s = .next (s.answered ⟨h, .planRetire⟩ s .outOfRange .none))
      ∧ (slot ≤ 511 → stale → exec (.planRetire h) s
          = .next (s.answered ⟨h, .planRetire⟩ s .staleId .none))
      ∧ ∀ p, slot ≤ 511 → s.plan slot = some p → p.generation = gen →
        (p.state.listed = true → exec (.planRetire h) s
            = .next (s.answered ⟨h, .planRetire⟩ s .planActive .none))
        ∧ (p.state.listed = false → ∃ g, exec (.planRetire h) s = .next (s.answered ⟨h, .planRetire⟩
            { s with plans := s.plans.del slot, planGens := g } .ok (.freed slot ((s.planGens.gen slot + 1) % 256)))
          ∧ g.gen slot = (s.planGens.gen slot + 1) % 256 ∧ ∀ j, j ≠ slot → g.gen j = s.planGens.gen j))

/-! ### Charging ports (04) -/

/-- PORT_GO by the checks and the table of targets and states. A target reached at once moves the port,
records REACHED and sets STATE_REACHED; a target that must bring down the power makes the port CLOSING
with its setpoint 0, its quiet and limit timers running and its session and contactor command kept. The
targets' numbers 0 OFFLINE, 1 VACANT and 2 REIDENTIFY, and so the refusal above 2, are the model's (log 6). -/
def Obligations.PortGoByTable : Prop :=
  ∀ (h : ReqHeader) (port : Word) (target : Byte) (s : State), s.takes ⟨h, .portGo port target⟩ = true →
    let i := Instr.portGo h port target
    let q : Request := ⟨h, .portGo port target⟩
    (23 < port.toNat ∨ 2 < target.toNat → exec i s = .next (s.answered q s .outOfRange .none))
    ∧ ∀ (n : PortNo) (t : PortTarget), port.toNat = n.val →
      ((target = 0 ∧ t = .offline) ∨ (target = 1 ∧ t = .vacant) ∨ (target = 2 ∧ t = .reidentify)) →
      let p := s.port n
      let atOnce : Prop :=
        (t = .offline ∧ (p.state = .offline ∨ p.state = .vacant ∨ p.state = .detecting
          ∨ p.state = .identifying ∨ p.state = .faulted))
        ∨ (t = .vacant ∧ (p.state = .offline ∨ p.state = .faulted))
      let closes : Prop :=
        (t = .offline ∧ (p.state = .connected ∨ p.state = .energizing ∨ p.state = .energized
          ∨ p.state = .held))
        ∨ (t = .reidentify ∧ (p.state = .connected ∨ p.state = .energized))
      let welded : Prop := t = .vacant ∧ p.state = .faulted ∧ p.feedback = .closed
      (p.pendingTarget ≠ none → exec i s = .next (s.answered q s .portBusy .none))
      ∧ (p.pendingTarget = none → ¬ atOnce → ¬ closes →
          exec i s = .next (s.answered q s .portState .none))
      ∧ (p.pendingTarget = none → welded → exec i s = .next (s.answered q s .welded .none))
      ∧ (p.pendingTarget = none → atOnce → ¬ welded → ∃ r : Port,
          exec i s = .next (s.answered q { s with ports := s.ports.set n r } .ok (.portMoved r.state none))
          ∧ r = { p.timersOf r with
              state := if t = .vacant then .vacant else .offline
              lastTransition := some ⟨t, .reached, s.now⟩, pendingTarget := none, faultCode := none
              flags := p.flags ||| PortFlag.stateReached
              attempts := if p.state = .identifying then 0 else p.attempts }
          ∧ r.debounce = .stopped ∧ r.answer = .stopped ∧ r.confirmation = .stopped
          ∧ r.openDelay = .stopped ∧ r.quiet = .stopped ∧ r.limit = .stopped ∧ r.stall = .stopped
          ∧ (t = .offline → r.settling = .stopped ∧ r.weld = .stopped)
          ∧ (t = .vacant → r.settling = .running 500 0)
          ∧ (t = .vacant → p.state = .offline → p.command = .opened → p.feedback = .closed →
              r.weld = .running 200 0))
      ∧ (p.pendingTarget = none → closes → ∃ r : Port,
          exec i s = .next (s.answered q { s with ports := s.ports.set n r } .accepted
            (.portMoved .closing (some t)))
          ∧ p.PowerOff s.now r
          ∧ r = { p.timersOf r with
              state := .closing, pendingTarget := some t, held := .zero, zeroSince := r.zeroSince
              faultCode := none, frameCount := r.frameCount, frameTimer := r.frameTimer
              lastFrame := r.lastFrame }
          ∧ r.quiet = .running 1000 0 ∧ r.limit = .running 5000 0
          ∧ r.confirmation = .stopped ∧ r.openDelay = .stopped ∧ r.stall = .stopped)

/-- PORT_CANCEL: OUT_OF_RANGE, NOTHING_PENDING, TOO_LATE once the open command of CLOSING is given;
otherwise the port goes to CONNECTED with its session kept and its contactor commanded open, and the last
transition records CANCELLED. -/
def Obligations.PortCancelByChecks : Prop :=
  ∀ (h : ReqHeader) (port : Word) (s : State), s.takes ⟨h, .portCancel port⟩ = true →
    let i := Instr.portCancel h port
    let q : Request := ⟨h, .portCancel port⟩
    (23 < port.toNat → exec i s = .next (s.answered q s .outOfRange .none))
    ∧ ∀ n : PortNo, port.toNat = n.val →
      let p := s.port n
      (p.pendingTarget = none → exec i s = .next (s.answered q s .nothingPending .none))
      ∧ ∀ t, p.pendingTarget = some t →
        (p.state = .closing → p.quiet = .stopped → exec i s = .next (s.answered q s .tooLate .none))
        ∧ (p.state = .closing → p.quiet ≠ .stopped → ∃ r : Port,
            exec i s = .next (s.answered q { s with ports := s.ports.set n r } .ok (.portState .connected))
            ∧ r = { p.timersOf r with
                state := .connected, pendingTarget := none, command := .opened, faultCode := none
                lastTransition := some ⟨t, .cancelled, s.now⟩ }
            ∧ r.quiet = .stopped ∧ r.limit = .stopped
            ∧ (p.command = .closed → p.feedback = .closed → r.weld = .running 200 0))

/-- PORT_CONFIGURE: an operand out of its range and a port in use refuse; a carried energy per count or
threshold is written at once, and a carried rating is staged, rounded down to 100 W and clamped. With a
rating carried the status is STAGED while the engine is RUNNING; while it is STOPPED the load takes place in the
event, `State.load` of the state with the port's fields written and its ratings staged, and the status is OK. -/
def Obligations.PortConfigureByChecks : Prop :=
  ∀ (h : ReqHeader) (port : Word) (f : PortPatch) (s : State), s.takes ⟨h, .portConfigure port f⟩ = true →
    let i := Instr.portConfigure h port f
    let q : Request := ⟨h, .portConfigure port f⟩
    let fits : Prop := Within 1 100 f.energyPerCount ∧ Within 1 255 f.filterThreshold
    let inRecord : Prop := f.energyPerCount ≠ none ∨ f.filterThreshold ≠ none
    let rated : Prop := f.importRating ≠ none ∨ f.exportRating ≠ none
    (23 < port.toNat ∨ ¬ fits → exec i s = .next (s.answered q s .outOfRange .none))
    ∧ ∀ n : PortNo, port.toNat = n.val → fits →
      (inRecord → (s.port n).state ≠ .offline → exec i s = .next (s.answered q s .portInUse .none))
      ∧ ((¬ inRecord ∨ (s.port n).state = .offline) → ∃ (r : Port) (staged : Ratings),
        r = { s.port n with energyPerCount := r.energyPerCount, filterThreshold := r.filterThreshold }
        ∧ r.energyPerCount = (match f.energyPerCount with
            | some w => w.toNat | none => (s.port n).energyPerCount)
        ∧ r.filterThreshold = (match f.filterThreshold with
            | some w => w.toNat | none => (s.port n).filterThreshold)
        ∧ staged.imp = (match f.importRating with
            | some w => min (w.toNat / 100 * 100) 150000 | none => s.site.stagedRatings[n].imp)
        ∧ staged.exp = (match f.exportRating with
            | some w => min (w.toNat / 100 * 100) 60000 | none => s.site.stagedRatings[n].exp)
        ∧ (¬ rated → exec i s = .next (s.answered q { s with ports := s.ports.set n r } .ok
            (.portConfig staged r.energyPerCount r.filterThreshold)))
        ∧ (rated → s.engine.running = true → exec i s = .next (s.answered q
            { s with
              ports := s.ports.set n r
              site := { s.site with
                stagedRatings := s.site.stagedRatings.set n staged, loadPending := true } }
            .staged (.portConfig staged r.energyPerCount r.filterThreshold)))
        ∧ (rated → s.engine.running = false → ∃ u : State, exec i s = .next (s.answered q u .ok
              (.portConfig staged r.energyPerCount r.filterThreshold))
            ∧ u = State.load { s.modRing Ring.pop with
                ports := s.ports.set n r
                site := { s.site with
                  stagedRatings := s.site.stagedRatings.set n staged, loadPending := true } }
            ∧ (u.port n).energyPerCount = r.energyPerCount ∧ (u.port n).filterThreshold = r.filterThreshold
            ∧ (u.port n).state = (s.port n).state ∧ u.engine = s.engine ∧ u.plans = s.plans
            ∧ u.site = { s.site with
                stagedRatings := s.site.stagedRatings.set n staged
                live := s.site.staged, liveRatings := s.site.stagedRatings.set n staged
                loadPending := false }))

/-- A taken level, and the ends of settling and of the debounce, while no session is present. A level
that is already taken has no effect; VACANT moves to DETECTING on PLUGGED or READY once settled, DETECTING
back on NONE or FAULT, IDENTIFYING to VACANT on NONE; every other taking changes the taken level alone. The
debounce end begins an exchange with ENQUIRE on its way. The model's choices: that a level already taken has
no effect (log 1), and that the pin and the candidate follow a taken level (log 10). -/
def Obligations.PilotMovesPortWithoutSession : Prop :=
  ∀ (n : PortNo) (l : PilotLevel) (s : State),
    let p := s.port n
    let seat : Prop := l = .plugged ∨ l = .ready
    let goes (st : PortState) (attempts : Nat) : Prop := ∃ r : Port,
      exec (.pilotLevelTaken n l) s = .next { s with ports := s.ports.set n r }
      ∧ r = { p.timersOf r with
          state := st, taken := l, pilotLine := l, pilotCandidate := none, pendingTarget := none
          faultCode := none, attempts := attempts }
      ∧ r.settling = (if st = .vacant then .running 500 0 else .stopped)
      ∧ r.debounce = (if st = .detecting then .running 1000 0 else .stopped) ∧ r.answer = .stopped
    let stays : Prop := exec (.pilotLevelTaken n l) s = .next
      { s with ports := s.ports.set n { p with taken := l, pilotLine := l, pilotCandidate := none } }
    (p.taken = l → exec (.pilotLevelTaken n l) s = .next s)
    ∧ (p.taken ≠ l →
      (p.state = .offline ∨ p.state = .faulted → stays)
      ∧ (p.state = .vacant → seat → p.settling = .stopped → goes .detecting p.attempts)
      ∧ (p.state = .vacant → (¬ seat ∨ p.settling ≠ .stopped) → stays)
      ∧ (p.state = .detecting → seat → stays)
      ∧ (p.state = .detecting → ¬ seat → goes .vacant p.attempts)
      ∧ (p.state = .identifying → l = .none → goes .vacant 0)
      ∧ (p.state = .identifying → l ≠ .none → stays))
    ∧ (p.state = .vacant → p.settling ≠ .stopped → ∃ r : Port,
        exec (.settlingEnd n) s = .next { s with ports := s.ports.set n r } ∧ r.settling = .stopped
        ∧ ((p.taken = .plugged ∨ p.taken = .ready) → r.state = .detecting ∧ r.debounce = .running 1000 0)
        ∧ (p.taken = .none ∨ p.taken = .fault → r.state = .vacant))
    ∧ (p.state = .detecting → p.debounce ≠ .stopped → ∃ r : Port,
        exec (.debounceEnd n) s = .next { s with ports := s.ports.set n r }
        ∧ r = { p.timersOf r with
            state := .identifying, attempts := 1, checkErrors := 0, discards := 0, claimed := none
            lastFault := none, enquire := some ⟨p.number.val, s.site.live.depotId, 1⟩
            pendingTarget := none, faultCode := none }
        ∧ r.debounce = .stopped ∧ r.answer = .stopped)

/-- A taken level while a session is present. NONE is an unplug: the session ends with cause unplug and
the port goes to VACANT, or from CLOSING to its target OFFLINE, or to VACANT with REIDENTIFY dropped. READY
changes the taken level alone; PLUGGED and FAULT drop the setpoint to 0 with session and state kept; FAULT
reports PILOT_FAULT for a bound bus. The bus of a session that an unplug ends is taken for its departure, or AWAY
while its part stays PENDING. The pin and the candidate follow the level (log 10). -/
def Obligations.PilotLevelsInSession : Prop :=
  ∀ (n : PortNo) (l : PilotLevel) (s : State),
    let p := s.port n
    let i := Instr.pilotLevelTaken n l
    p.session ≠ none → p.state.inSession = true → p.taken ≠ l →
    (l = .none → ∃ t, exec i s = .next t ∧ s.SessionEnds n true t ∧ (t.port n).taken = .none
      ∧ (t.port n).pendingTarget = none
      ∧ (p.pendingTarget = none → (t.port n).state = .vacant ∧ (t.port n).settling = .running 500 0
          ∧ (t.port n).lastTransition = p.lastTransition ∧ (t.port n).flags = p.flags)
      ∧ (p.pendingTarget = some .offline → (t.port n).state = .offline
          ∧ (t.port n).lastTransition = some ⟨.offline, .reached, s.now⟩
          ∧ (t.port n).flags = p.flags ||| PortFlag.stateReached)
      ∧ (p.pendingTarget = some .reidentify → (t.port n).state = .vacant
          ∧ (t.port n).lastTransition = some ⟨.reidentify, .dropped, s.now⟩
          ∧ (t.port n).flags = p.flags ||| PortFlag.stateReached))
    ∧ (l = .ready → exec i s = .next
        { s with ports := s.ports.set n { p with taken := l, pilotLine := l, pilotCandidate := none } })
    ∧ (l = .plugged ∨ l = .fault → ∃ r : Port, p.PowerOff s.now r
        ∧ r = { p.timersOf r with
            taken := l, pilotLine := l, pilotCandidate := none, held := .zero, zeroSince := r.zeroSince
            frameCount := r.frameCount, frameTimer := r.frameTimer, lastFrame := r.lastFrame }
        ∧ (p.state = .energized → p.held.mag ≠ 0 → r.openDelay = .running 60000 0)
        ∧ (l = .plugged ∨ p.boundSlot = none → exec i s = .next { s with ports := s.ports.set n r })
        ∧ (∀ b, l = .fault → p.boundSlot = some b → exec i s = .next
            (State.blockBus b .pilotFault { s with ports := s.ports.set n r })))

/-- A taken contactor position. CLOSED in ENERGIZING makes the port ENERGIZED with its held setpoint live;
OPEN in ENERGIZED is the fault CONTACTOR_DROP; OPEN in CLOSING after the open command ends the session and
reaches the target, or drops a REIDENTIFY that finds a FAULT level. With an open command CLOSED starts the weld
timer. The position already filtered has no effect (log 1), but for an OPEN that the open command of a trip
found in CLOSING: the command that gives it ends CLOSING (log 37). A session that ends so, or by a port fault,
leaves a bus with a PENDING part AWAY, with READINESS at a change. -/
def Obligations.FeedbackMovesThePort : Prop :=
  ∀ (n : PortNo) (c : Contact) (s : State),
    let p := s.port n
    let i := Instr.feedbackTaken n c
    let ends : Prop := p.state = .closing ∧ c = .opened ∧ p.quiet = .stopped
    (p.feedback = c → ¬ ends → exec i s = .next s)
    ∧ (p.feedback ≠ c →
      (p.state = .energizing → c = .closed → ∃ t : State, exec i s = .next t
        ∧ t = { s with ports := s.ports.set n (t.port n) }
        ∧ (t.port n).state = .energized ∧ (t.port n).feedback = .closed
        ∧ (t.port n).confirmation = .stopped ∧ (t.port n).held = p.held ∧ (t.port n).live = p.held
        ∧ (t.port n).session = p.session ∧ (t.port n).command = p.command
        ∧ (p.held = .zero → (t.port n).openDelay = .running 60000 0 ∧ (t.port n).frameCount = p.frameCount)
        ∧ (p.held ≠ .zero → (t.port n).frameCount = (p.frameCount + 1) % 65536
            ∧ (t.port n).lastFrame = some ⟨p.number, p.held, (p.frameCount + 1) % 65536⟩
            ∧ (t.port n).frameTimer = .running 1000 0))
      ∧ (p.state = .energized → c = .opened → ∃ t, exec i s = .next t ∧ s.PortFaults n .drop t
          ∧ (t.port n).feedback = .opened)
      ∧ (p.state ≠ .energizing → p.state ≠ .offline → c = .closed → p.command = .opened →
          ∃ t : State, exec i s = .next t ∧ t = { s with ports := s.ports.set n (t.port n) }
            ∧ (t.port n).weld = .running 200 0 ∧ (t.port n).state = p.state
            ∧ (t.port n).session = p.session ∧ (t.port n).held = p.held))
    ∧ ∀ g, ends → p.session ≠ none → p.pendingTarget = some g → ∃ t, exec i s = .next t
      ∧ s.SessionEnds n false t ∧ (t.port n).feedback = .opened
      ∧ (t.port n).pendingTarget = none ∧ (t.port n).flags = p.flags ||| PortFlag.stateReached
      ∧ (g = .offline → (t.port n).state = .offline
          ∧ (t.port n).lastTransition = some ⟨.offline, .reached, s.now⟩)
      ∧ (g = .reidentify → (p.taken = .plugged ∨ p.taken = .ready) →
          (t.port n).state = .identifying ∧ (t.port n).attempts = 1
          ∧ (t.port n).enquire = some ⟨p.number.val, s.site.live.depotId, 1⟩
          ∧ (t.port n).lastTransition = some ⟨.reidentify, .reached, s.now⟩)
      ∧ (g = .reidentify → p.taken = .fault → (t.port n).state = .vacant
          ∧ (t.port n).settling = .running 500 0
          ∧ (t.port n).lastTransition = some ⟨.reidentify, .dropped, s.now⟩)

/-- The open delay opens the contactor and takes the port to CONNECTED with its session. The first of the
quiet and the limit timer gives CLOSING's open command and stops both, the limit timer with CLOSE_TIMEOUT; a
feedback that is OPEN already then ends CLOSING: OFFLINE is reached, REIDENTIFY is reached in IDENTIFYING
with the first ENQUIRE on its way, or dropped in VACANT at a FAULT level; the bus it ends for is AWAY when
its part is PENDING. A frame is sent again 1 s after the last. The port faults that timers find. An expired
confirmation timer is CONTACTOR_FAIL_CLOSE. An expired weld timer is CONTACTOR_WELD; in FAULTED it replaces
the fault code and sets FAULT again. The expiry of a stopped timer changes nothing (log 1). -/
def Obligations.PortTimersAndFaults : Prop :=
  (∀ (n : PortNo) (s : State),
    let p := s.port n
    (p.openDelay ≠ .stopped → p.state = .energized → p.live.mag = 0 → ∃ r : Port,
      exec (.openDelayExpiry n) s = .next { s with ports := s.ports.set n r }
      ∧ r.state = .connected ∧ r.command = .opened ∧ r.session = p.session ∧ r.openDelay = .stopped
      ∧ r.held = p.held ∧ (p.command = .closed → p.feedback = .closed → r.weld = .running 200 0))
    ∧ (p.state = .closing → p.feedback = .closed →
      (p.quiet ≠ .stopped → ∃ r : Port,
        exec (.quietTimerExpiry n) s = .next { s with ports := s.ports.set n r }
        ∧ r = { p.timersOf r with command := .opened }
        ∧ r.quiet = .stopped ∧ r.limit = .stopped ∧ (p.command = .closed → r.weld = .running 200 0))
      ∧ (p.limit ≠ .stopped → ∃ r : Port,
        exec (.limitTimerExpiry n) s = .next { s with ports := s.ports.set n r }
        ∧ r = { p.timersOf r with command := .opened, flags := p.flags ||| PortFlag.closeTimeout }
        ∧ r.quiet = .stopped ∧ r.limit = .stopped ∧ (p.command = .closed → r.weld = .running 200 0)))
    ∧ (p.state = .closing → p.feedback = .opened → p.session ≠ none → p.pendingTarget = some .offline →
      (p.quiet ≠ .stopped → ∃ t, exec (.quietTimerExpiry n) s = .next t ∧ s.SessionEnds n false t
        ∧ (t.port n).state = .offline ∧ (t.port n).lastTransition = some ⟨.offline, .reached, s.now⟩
        ∧ (t.port n).flags = p.flags ||| PortFlag.stateReached)
      ∧ (p.limit ≠ .stopped → ∃ t, exec (.limitTimerExpiry n) s = .next t ∧ s.SessionEnds n false t
        ∧ (t.port n).state = .offline ∧ (t.port n).lastTransition = some ⟨.offline, .reached, s.now⟩
        ∧ (t.port n).flags = p.flags ||| PortFlag.closeTimeout ||| PortFlag.stateReached))
    ∧ (p.state = .closing → p.feedback = .opened → p.session ≠ none → p.pendingTarget = some .reidentify →
      ∀ (i : Instr) (flags : BitVec 6),
        (i = .quietTimerExpiry n ∧ p.quiet ≠ .stopped ∧ flags = PortFlag.stateReached)
          ∨ (i = .limitTimerExpiry n ∧ p.limit ≠ .stopped
            ∧ flags = PortFlag.closeTimeout ||| PortFlag.stateReached) →
        ∃ t, exec i s = .next t ∧ s.SessionEnds n false t ∧ (t.port n).pendingTarget = none
          ∧ (t.port n).flags = p.flags ||| flags ∧ (t.port n).quiet = .stopped ∧ (t.port n).limit = .stopped
          ∧ ((p.taken = .plugged ∨ p.taken = .ready) → (t.port n).state = .identifying
            ∧ (t.port n).attempts = 1 ∧ (t.port n).checkErrors = 0 ∧ (t.port n).discards = 0
            ∧ (t.port n).enquire = some ⟨p.number.val, s.site.live.depotId, 1⟩
            ∧ (t.port n).lastTransition = some ⟨.reidentify, .reached, s.now⟩)
          ∧ (p.taken = .fault → (t.port n).state = .vacant ∧ (t.port n).settling = .running 500 0
            ∧ (t.port n).lastTransition = some ⟨.reidentify, .dropped, s.now⟩))
    ∧ (p.frameTimer ≠ .stopped → exec (.setpointFrameRepeat n) s = .next { s with
        ports := s.ports.set n { p with
          frameCount := (p.frameCount + 1) % 65536, frameTimer := .running 1000 0
          lastFrame := some ⟨p.number, p.live, (p.frameCount + 1) % 65536⟩ } }))
  ∧ (∀ (n : PortNo) (s : State),
    ((s.port n).confirmation ≠ .stopped → (s.port n).state = .energizing →
      ∃ t, exec (.confirmationTimeout n) s = .next t ∧ s.PortFaults n .failClose t
        ∧ ((s.port n).feedback = .opened → (t.port n).weld = .stopped))
    ∧ ((s.port n).weld ≠ .stopped → (s.port n).state ≠ .offline → (s.port n).state ≠ .faulted →
      ∃ t, exec (.weldTimerExpiry n) s = .next t ∧ s.PortFaults n .weld t)
    ∧ ((s.port n).weld ≠ .stopped → (s.port n).state = .faulted →
      exec (.weldTimerExpiry n) s = .next { s with
        ports := s.ports.set n { s.port n with
          faultCode := some .weld, flags := (s.port n).flags ||| PortFlag.fault, weld := .stopped } })
    ∧ ((s.port n).confirmation = .stopped → exec (.confirmationTimeout n) s = .next s)
    ∧ ((s.port n).weld = .stopped → exec (.weldTimerExpiry n) s = .next s))

/-! ### The identification exchange (05) -/

/-- The answer timer. It starts when ENQUIRE has gone out; each expiry below three attempts sends ENQUIRE
again and starts the timer again (log 12); the expiry at three attempts opens an unidentified session with
reason NO_ANSWER, and an ANNOUNCE of an unknown or a located bus one with UNKNOWN_BUS or DUPLICATE_BUS and
the claimed number. An expiry of a stopped timer, and a sending with no ENQUIRE on its way, change nothing
(log 1). -/
def Obligations.IdentificationOpensUnidentified : Prop :=
  ∀ (n : PortNo) (s : State),
    let p := s.port n
    (p.enquire = none → exec (.enquireSent n) s = .next s)
    ∧ (p.answer = .stopped → exec (.answerTimerExpiry n) s = .next s)
    ∧ (p.state = .identifying → p.session = none →
      (p.enquire ≠ none → exec (.enquireSent n) s = .next { s with
        ports := s.ports.set n { p with enquire := none, answer := .running 1000 0 } })
      ∧ (p.answer ≠ .stopped → p.attempts < 3 → exec (.answerTimerExpiry n) s = .next { s with
        ports := s.ports.set n { p with
          attempts := p.attempts + 1, answer := .running 1000 0
          enquire := some ⟨p.number.val, s.site.live.depotId, 1⟩ } })
      ∧ (p.answer ≠ .stopped → p.attempts = 3 → ∃ r : Port,
        exec (.answerTimerExpiry n) s = .next { s with ports := s.ports.set n r }
        ∧ s.OpensUnidentified n .noAnswer p.claimed r)
      ∧ (∀ m : Announce, (∀ x ∈ s.buses.rows, x.2.number ≠ m.bus.toNat) → ∃ r : Port,
        exec (.announce n m) s = .next { s with ports := s.ports.set n r }
        ∧ s.OpensUnidentified n .unknownBus (some m.bus.toNat) r)
      ∧ (∀ m i b, s.findBus m.bus.toNat = some (i, b) → b.location ≠ none → ∃ r : Port,
        exec (.announce n m) s = .next { s with ports := s.ports.set n r }
        ∧ s.OpensUnidentified n .duplicateBus (some m.bus.toNat) r))

/-- The binding event. The port opens the bound session with the caps of the record and the ANNOUNCE, the
record takes the location and the clamped report with source REPORTED, and PLUGGED and the flags of the
clamp, the discrepancy and the capacity compare; a FAULT level is then reported and selection takes place. -/
def Obligations.AnnounceBindsTheSession : Prop :=
  ∀ (n : PortNo) (m : Announce) (s : State) (i : Nat) (b : Bus),
    let p := s.port n
    let report := m.soe.toNat
    let known : Prop := report ≠ 4294967295
    let clamped := min report b.capacity
    let apart : Prop := ∃ x, b.soe = some x
      ∧ (s.site.live.soeTolerance < x - clamped ∨ s.site.live.soeTolerance < clamped - x)
    let mismatch : Prop := 5 * b.capacity < 100 * (m.capacity.toNat - b.capacity)
      ∨ 5 * b.capacity < 100 * (b.capacity - m.capacity.toNat)
    p.state = .identifying → p.session = none → s.findBus m.bus.toNat = some (i, b) → s.bus i = some b →
    b.location = none →
    ∃ (r : Port) (c : Bus),
      let bound : State := { s with ports := s.ports.set n r, buses := s.buses.put i c }
      exec (.announce n m) s = .next ((if p.taken = .fault then bound.blockBus i .pilotFault
        else bound).selection i)
      ∧ r = { p.timersOf r with
          state := if s.protection.latch then .held else .connected
          session := some ⟨.bound i, s.now, some ⟨m.maxImport.toNat, m.maxExport.toNat, m.v2g != 0⟩,
            min b.importCap m.maxImport.toNat,
            if b.v2g = true ∧ m.v2g ≠ 0 then min b.exportCap m.maxExport.toNat else 0⟩
          sessionImport := 0, sessionExport := 0, stray := 0, wrongRun := 0, lastApplied := none
          pendingTarget := none, faultCode := none }
      ∧ r.answer = .stopped
      ∧ c = { b with
          location := some n, soe := c.soe, source := c.source, discrepancy := c.discrepancy
          flags := c.flags }
      ∧ (known → c.soe = some clamped ∧ c.source = .reported)
      ∧ (¬ known → c.soe = b.soe ∧ c.source = b.source)
      ∧ (known → apart → ∃ x, b.soe = some x ∧ c.discrepancy = some ⟨clamped, x⟩)
      ∧ ((¬ known ∨ ¬ apart) → c.discrepancy = b.discrepancy)
      ∧ c.flags.getLsbD 0 = true
      ∧ (c.flags.getLsbD 4 = true ↔ b.flags.getLsbD 4 = true ∨ (known ∧ apart))
      ∧ (c.flags.getLsbD 5 = true ↔ b.flags.getLsbD 5 = true ∨ mismatch)
      ∧ (c.flags.getLsbD 6 = true ↔ b.flags.getLsbD 6 = true ∨ (known ∧ b.capacity < report))

/-- LIMIT and FAULT_REPORT by the exchange state. In a bound session LIMIT replaces the announced powers,
forms the caps again and lowers a held setpoint above them to down100 of the cap; FAULT_REPORT stores its
code and reports BUS_REPORTED. In an unidentified session FAULT_REPORT makes the cap and the setpoint 0. -/
def Obligations.LimitAndFaultReportInSession : Prop :=
  ∀ (n : PortNo) (maxImport maxExport : Word) (code : Byte) (s : State) (x : Session),
    let p := s.port n
    p.session = some x →
    (∀ i a b, x.binding = .bound i → x.announced = some a → s.bus i = some b → ∃ r : Port,
      let imp := min b.importCap maxImport.toNat
      let exp := if b.v2g = true ∧ a.v2g = true then min b.exportCap maxExport.toNat else 0
      exec (.limit n maxImport maxExport) s = .next { s with ports := s.ports.set n r }
      ∧ r = { p.timersOf r with
          session := some { x with
            announced := some ⟨maxImport.toNat, maxExport.toNat, a.v2g⟩, importCap := imp, exportCap := exp }
          held := r.held, lastDir := r.lastDir, zeroSince := r.zeroSince
          frameCount := r.frameCount, frameTimer := r.frameTimer, lastFrame := r.lastFrame }
      ∧ (p.held.dir = .imp → imp < p.held.mag → r.held = .make .imp (imp / 100 * 100))
      ∧ (p.held.dir = .exp → exp < p.held.mag → r.held = .make .exp (exp / 100 * 100))
      ∧ ((p.held.dir = .imp → p.held.mag ≤ imp) → (p.held.dir = .exp → p.held.mag ≤ exp) →
          r.held = p.held))
    ∧ (∀ i, x.binding = .bound i → exec (.faultReport n code) s = .next
        (State.blockBus i .busReported { s with
          ports := s.ports.set n { p with lastFault := some ⟨code.toNat, s.now⟩ } }))
    ∧ (∀ why, x.binding = .unidentified why → ∃ r : Port,
        exec (.faultReport n code) s = .next { s with ports := s.ports.set n r }
        ∧ p.PowerOff s.now r ∧ r.lastFault = some ⟨code.toNat, s.now⟩
        ∧ r.session = some { x with importCap := 0 } ∧ r.state = p.state ∧ r.discards = p.discards
        ∧ r.command = p.command)

/-- What is discarded, and what is counted. ANNOUNCE in a session, LIMIT and FAULT_REPORT while WAITING,
LIMIT in an unidentified session and a message of an unknown type count one discard; a failed check counts
one check error; in IDLE a received message does nothing, and in OFFLINE and FAULTED none is read. Both
counts stay at 65,535. -/
def Obligations.DiscardsAreCounted : Prop :=
  ∀ (n : PortNo) (m : Announce) (maxImport maxExport : Word) (code : Byte) (s : State),
    let p := s.port n
    let counted : State := { s with
      ports := s.ports.set n { p with discards := min (p.discards + 1) 65535 } }
    let unread : Prop := p.state = .offline ∨ p.state = .faulted
    (p.session ≠ none → exec (.announce n m) s = .next counted)
    ∧ (p.state = .identifying → p.session = none →
        exec (.limit n maxImport maxExport) s = .next counted
        ∧ exec (.faultReport n code) s = .next counted)
    ∧ (∀ x why, p.session = some x → x.binding = .unidentified why →
        exec (.limit n maxImport maxExport) s = .next counted)
    ∧ (p.state ≠ .identifying → p.session = none →
        exec (.announce n m) s = .next s ∧ exec (.limit n maxImport maxExport) s = .next s
        ∧ exec (.faultReport n code) s = .next s)
    ∧ (¬ unread → exec (.unknownTypeDiscard n) s = .next counted
        ∧ exec (.messageCheckFailure n) s = .next { s with
          ports := s.ports.set n { p with checkErrors := min (p.checkErrors + 1) 65535 } })
    ∧ (unread → exec (.unknownTypeDiscard n) s = .next s ∧ exec (.messageCheckFailure n) s = .next s)

/-! ### Metering (06) -/

/-- A filtered transition of one line is one count of the port's energy per count, in the direction of
R110's table. Idle without a session, stray with the contactor open; otherwise applied, and then the
session, the RUNNING plan, a known SoE, export used and the wrong-direction run all move, and in CLOSING the quiet
timer restarts. On a bound bus the count acts in the order of R114. First it is booked, the export falling where
the allowance is exhausted (v). Then the RUNNING plan's step is tested: an IMPORT_TO step with SoE at its target,
or an EXPORT_TO step with SoE at the greater of its target and the discharge floor, ends, with all that follows
(w: the chain of log 22); any other stays. Then a PENDING part of a bus that is ON_TRACK, AT_RISK or LATE with its
deficit closed makes it READY, with slack T_dep - now - G and READINESS, and an export with SoE at the floor is
withdrawn (x). Last, the fourth wrong-direction count in a row faults the port with METER_DIRECTION, which ends
its session. Lists and plans agree (`ListsAgree`, which every step keeps). -/
def Obligations.TransitionsCountEnergy : Prop :=
  ∀ (n : PortNo) (l : MeterLine) (s : State),
    let p := s.port n
    let i := Instr.filteredTransition n (.one l)
    let ma := match l with | .ma => flipLevel p.ma.output | .mb => p.ma.output
    let mb := match l with | .mb => flipLevel p.mb.output | .ma => p.mb.output
    let d : Dir := match l with
      | .ma => if ma = mb then .exp else .imp
      | .mb => if ma = mb then .imp else .exp
    let moved : Port := match l with
      | .ma => { p with ma := { p.ma with pin := ma, output := ma, counter := 0 } }
      | .mb => { p with mb := { p.mb with pin := mb, output := mb, counter := 0 } }
    let quiet : Timer := if p.quiet = .stopped then .stopped else .running 1000 0
    let e := p.energyPerCount
    (p.session = none → exec i s = .next { s with
      ports := s.ports.set n { moved with idle := min (p.idle + 1) 65535 } })
    ∧ (p.session ≠ none → p.feedback = .opened → exec i s = .next { s with
      ports := s.ports.set n { moved with
        stray := min (p.stray + 1) 65535, quiet := quiet
        flags := if p.stray = 15 then p.flags ||| PortFlag.meterStray else p.flags } })
    ∧ ∀ x, p.session = some x → p.feedback = .closed → p.state.inSession = true →
      s.ListsAgree →
      let wrong : Prop := p.live.dir ≠ .none ∧ p.live.dir ≠ d
      ∃ t, exec i s = .next t
        ∧ (t.port n).ma.output = ma ∧ (t.port n).mb.output = mb
        ∧ (t.port n).sessionImport = (if d = .imp then min (p.sessionImport + e) 4294967295
            else p.sessionImport)
        ∧ (t.port n).sessionExport = (if d = .exp then min (p.sessionExport + e) 4294967295
            else p.sessionExport)
        ∧ (t.port n).lastApplied = some ⟨d, s.now⟩ ∧ (t.port n).stray = p.stray
        ∧ (¬ wrong → (t.port n).wrongRun = 0 ∧ (t.port n).state = p.state)
        ∧ (wrong → (t.port n).wrongRun = min (p.wrongRun + 1) 4)
        ∧ (wrong → p.wrongRun < 3 → (t.port n).state = p.state)
        ∧ (wrong → 3 ≤ p.wrongRun → (t.port n).state = .faulted
            ∧ (t.port n).faultCode = some .meterDirection ∧ (t.port n).session = none)
        ∧ (p.boundSlot = none → ∀ k, t.bus k = s.bus k)
        ∧ (p.boundSlot = none → ∃ x : State, x = { s with ports := s.ports.set n (x.port n) }
            ∧ (x.port n).quiet = quiet ∧ (¬ (wrong ∧ 3 ≤ p.wrongRun) → t = x)
            ∧ (wrong → 3 ≤ p.wrongRun → x.PortFaults n .meterDirection t))
        ∧ (∀ k, p.boundSlot ≠ some k → t.bus k = s.bus k)
        ∧ (∀ k b, p.boundSlot = some k → s.bus k = some b → b.location = some n → ∃ c, t.bus k = some c
            ∧ c.soe = (b.soe.map fun y => if d = .imp then min (y + e) b.capacity else y - e)
            ∧ c.source = (if b.soe = none then b.source else .integrated)
            ∧ c.exportUsed = (if d = .exp then min (b.exportUsed + e) 4294967295 else b.exportUsed)
            ∧ ((∃ y, b.soe = some y ∧ b.capacity < y + e) → d = .imp → c.flags.getLsbD 6 = true)
            ∧ (d = .exp → b.exportUsed < b.allowance →
                b.allowance ≤ min (b.exportUsed + e) 4294967295 →
                c.flags.getLsbD 9 = true ∧ (t.port n).held.dir ≠ .exp)
            ∧ ∀ j pl, s.runningPlan b = some j → s.plan j = some pl → ∃ q, t.plan j = some q
              ∧ q.imported = (if d = .imp then min (pl.imported + e) 4294967295 else pl.imported)
              ∧ q.exported = (if d = .exp then min (pl.exported + e) 4294967295 else pl.exported))
        ∧ ∀ k b, p.boundSlot = some k → s.bus k = some b → b.location = some n →
            let booked : Port := { moved with
              lastApplied := some ⟨d, s.now⟩
              sessionImport := if d = .imp then min (p.sessionImport + e) 4294967295 else p.sessionImport
              sessionExport := if d = .exp then min (p.sessionExport + e) 4294967295 else p.sessionExport }
            let soe : Option Nat := b.soe.map fun y => if d = .imp then min (y + e) b.capacity else y - e
            let exhausted : Prop := d = .exp ∧ b.exportUsed < b.allowance
              ∧ b.allowance ≤ min (b.exportUsed + e) 4294967295
            let ends (j : Nat) : Prop := ∃ pl st y, s.plan j = some pl ∧ pl.step? = some st ∧ soe = some y
              ∧ ((st.kind = .importTo ∧ st.value ≤ y)
                ∨ (st.kind = .exportTo ∧ (y ≤ st.value ∨ y ≤ b.dischargeFloor)))
            let closes : Prop := ∃ dep y, b.departure = some dep ∧ dep.state = .pending ∧ soe = some y
              ∧ dep.eReq ≤ y ∧ (b.readiness = .onTrack ∨ b.readiness = .atRisk ∨ b.readiness = .late)
            ∃ (v w x : State) (vb wb xb : Bus),
              v = { s with ports := v.ports, buses := v.buses, plans := v.plans }
              ∧ (∀ m, m ≠ n → v.port m = s.port m) ∧ (v.port n).quiet = quiet
              ∧ v.port n = (booked.timersOf (v.port n)).setpointOf (v.port n)
              ∧ (exhausted → p.held.dir = .exp → booked.PowerOff s.now (v.port n))
              ∧ (¬ (exhausted ∧ p.held.dir = .exp) → v.port n = booked.timersOf (v.port n))
              ∧ v.bus k = some vb ∧ (∀ m, m ≠ k → v.bus m = s.bus m)
              ∧ vb = { b with
                  soe := soe
                  flags := b.flags
                    ||| (if d = .imp ∧ b.soe ≠ none ∧ b.capacity < b.soe.getD 0 + e
                      then BusFlag.soeClamped else 0)
                    ||| (if d = .exp ∧ b.exportUsed < b.allowance
                        ∧ b.allowance ≤ min (b.exportUsed + e) 4294967295
                      then BusFlag.allowanceUsed else 0)
                  source := if b.soe = none then b.source else .integrated
                  exportUsed := if d = .exp then min (b.exportUsed + e) 4294967295 else b.exportUsed }
              ∧ (∀ j, s.runningPlan b ≠ some j → v.plan j = s.plan j)
              ∧ (∀ j pl, s.runningPlan b = some j → s.plan j = some pl → v.plan j = some { pl with
                  imported := if d = .imp then min (pl.imported + e) 4294967295 else pl.imported
                  exported := if d = .exp then min (pl.exported + e) 4294967295 else pl.exported })
              ∧ (∀ j, s.runningPlan b = some j → ends j → w = runTasks k 256 (.finish j) v)
              ∧ ((∀ j, s.runningPlan b = some j → ¬ ends j) → w = v)
              ∧ w.bus k = some wb
              ∧ wb = { vb with prioList := wb.prioList, stdList := wb.stdList, flags := wb.flags }
              ∧ x = { w with ports := x.ports, buses := x.buses }
              ∧ (∀ m, m ≠ n → x.port m = w.port m)
              ∧ x.bus k = some xb ∧ (∀ m, m ≠ k → x.bus m = w.bus m)
              ∧ (closes → ∀ dep, b.departure = some dep → xb = { wb with
                  readiness := .ready
                  slack := some (clampSlack ((dep.tDep : Int) - (s.now : Int) - (s.site.live.guardTime : Int)))
                  flags := wb.flags ||| BusFlag.readiness })
              ∧ (¬ closes → xb = wb)
              ∧ (let atFloor : Prop := (w.port n).held.dir = .exp ∧ ∃ y, soe = some y ∧ y ≤ b.dischargeFloor
                (atFloor → (w.port n).PowerOff s.now (x.port n) ∧ x.port n =
                  { ((w.port n).timersOf (x.port n)).setpointOf (x.port n) with wrongRun := (x.port n).wrongRun })
                ∧ (¬ atFloor → x.port n = { (w.port n).timersOf (x.port n) with
                    wrongRun := (x.port n).wrongRun }))
              ∧ (wrong → (x.port n).wrongRun = min (p.wrongRun + 1) 4) ∧ (¬ wrong → (x.port n).wrongRun = 0)
              ∧ (x.port n).quiet = quiet
              ∧ (¬ (wrong ∧ 3 ≤ p.wrongRun) → t = x)
              ∧ (wrong → 3 ≤ p.wrongRun → x.PortFaults n .meterDirection t)

/-- The line filters, sample by sample: a sample that differs from the output raises the counter, or, at the
threshold, is a filtered transition; one equal to it lowers a counter above 0 and, outside OFFLINE, sets the
glitch record and GLITCH. Two outputs that change at one sample make no count. The stall timer: it starts at
a setpoint change of an ENERGIZED port with a bound session at 5,000 W or more, and again at each applied
count there, stops when one of these ceases, and its expiry, once it has counted to its length (log 3),
reports ENERGY_STALL for the bound bus. The expiry of a timer that is stopped or has not counted to its
length changes nothing (log 1): after a count taken first, the bus is not blocked. -/
def Obligations.LineFiltersAndStall : Prop :=
  (∀ (n : PortNo) (l : MeterLine) (v : Level) (s : State),
    let p := s.port n
    let f := p.line l
    let seen (g : LineFilter) : State := { s with ports := s.ports.set n (p.setLine l fun _ => g) }
    let glitched : State :=
      if p.state = .offline then seen { f with pin := f.output, counter := f.counter - 1 }
      else { s with
        ports := s.ports.set n { p.setLine l fun _ =>
            { f with pin := f.output, counter := f.counter - 1, glitch := true } with
          flags := p.flags ||| PortFlag.glitch } }
    (v = f.output → f.counter = 0 → exec (.meterLineSample n l v) s = .next (seen { f with pin := v }))
    ∧ (v = f.output → 0 < f.counter → exec (.meterLineSample n l v) s = .next glitched)
    ∧ (0 < f.counter → exec (.lineFilterGlitch n l) s = .next glitched)
    ∧ (f.counter = 0 → exec (.lineFilterGlitch n l) s = .next s)
    ∧ (v ≠ f.output → f.counter + 1 < p.filterThreshold → exec (.meterLineSample n l v) s
        = .next (seen { f with pin := v, counter := f.counter + 1 }))
    ∧ (v ≠ f.output → p.filterThreshold ≤ f.counter + 1 →
        exec (.meterLineSample n l v) s = exec (.filteredTransition n (.one l)) s)
    ∧ ∃ r : Port, exec (.filteredTransition n .both) s = .next { s with ports := s.ports.set n r }
      ∧ r = { p with ma := r.ma, mb := r.mb, flags := r.flags }
      ∧ r.ma.output = flipLevel p.ma.output ∧ r.mb.output = flipLevel p.mb.output
      ∧ r.ma.counter = 0 ∧ r.mb.counter = 0
      ∧ (p.state ≠ .offline → r.ma.glitch = true ∧ r.mb.glitch = true
          ∧ r.flags = p.flags ||| PortFlag.glitch)
      ∧ (p.state = .offline → r.ma.glitch = p.ma.glitch ∧ r.mb.glitch = p.mb.glitch ∧ r.flags = p.flags))
  ∧ (∀ (n : PortNo) (s : State),
    let p := s.port n
    (∀ i length elapsed, p.stall = .running length elapsed → length ≤ elapsed → p.boundSlot = some i →
      exec (.stallTimerExpiry n) s = .next
        (State.blockBus i .energyStall { s with ports := s.ports.set n { p with stall := .stopped } }))
    ∧ (∀ length elapsed, p.stall = .running length elapsed → elapsed < length →
        exec (.stallTimerExpiry n) s = .next s)
    ∧ (p.stall = .stopped → exec (.stallTimerExpiry n) s = .next s)
    ∧ (∀ l, p.session ≠ none → p.feedback = .closed → ∃ t, exec (.filteredTransition n (.one l)) s = .next t
      ∧ ((t.port n).state = .energized → (∃ i, (t.port n).boundSlot = some i) → 5000 ≤ (t.port n).held.mag →
          (t.port n).stall = .running (s.site.live.stallTime * 1000) 0
          ∧ (0 < s.site.live.stallTime → exec (.stallTimerExpiry n) t = .next t)))
    ∧ ∀ f : Port → Port, let q := (s.updPort n f).port n
      let holds : Prop := q.state = .energized ∧ (∃ i, q.boundSlot = some i) ∧ 5000 ≤ q.held.mag
      (holds → q.live ≠ p.live → q.stall = .running (s.site.live.stallTime * 1000) 0)
      ∧ (holds → q.live = p.live → q.stall = (f p).stall)
      ∧ (¬ holds → q.stall = .stopped))

/-! ### Route readiness (07) -/

/-- DEPARTURE_SET: NOT_FOUND, TIME_UNSET and a departure time that is not later than now refuse; a request
that passes makes a PENDING part, its required energy at most the capacity, and registers the departure and,
where it lies ahead, the lockout point (v). A RUNNING plan's EXPORT_TO step with SoE at the greater of its
target and the new discharge floor then ends, with all that follows (w: the chain of log 22), and no other
step does. An export on a bus that is not export-eligible falls to 0, one on a bus still eligible and every
DEPARTURE_CLEAR: NOT_FOUND; no part, nothing changed; otherwise the part goes with its registrations, the
readiness state is NONE with the slack absent, and READINESS is set if it was not. A crossing of the part
that waits to be handed over goes too (log 7). -/
def Obligations.DepartureSetAndClear : Prop :=
  (∀ (h : ReqHeader) (tDep eReq : Word) (route : Half) (s : State),
    s.takes ⟨h, .departureSet tDep eReq route⟩ = true →
    let i := Instr.departureSet h tDep eReq route
    let q : Request := ⟨h, .departureSet tDep eReq route⟩
    ((∀ r ∈ s.buses.rows, r.2.number ≠ h.key.toNat) → exec i s = .next (s.answered q s .notFound .none))
    ∧ ∀ k b, s.findBus h.key.toNat = some (k, b) → s.bus k = some b →
      (s.clock.mode = .unset → exec i s = .next (s.answered q s .timeUnset .none))
      ∧ (s.clock.mode = .set → tDep.toNat ≤ s.now → exec i s = .next (s.answered q s .outOfRange .none))
      ∧ (s.clock.mode = .set → s.now < tDep.toNat →
        let need := min eReq.toNat b.capacity
        let clamped := decide (b.capacity < eReq.toNat)
        let point := tDep.toNat - s.site.live.lockoutWindow
        let ahead : Prop := 0 < s.site.live.lockoutWindow ∧ s.site.live.lockoutWindow ≤ tDep.toNat
          ∧ s.now < point
        ∃ (u : State) (c : Bus),
          exec i s = .next (s.answered q u .ok (.departure k tDep.toNat need clamped c.readiness c.slack))
          ∧ u.bus k = some c
          ∧ c.departure = some ⟨tDep.toNat, need, route.toNat, .pending, clamped⟩
          ∧ c.soe = b.soe ∧ c.location = b.location ∧ c.block = b.block
          ∧ (∀ r, r.kind.owner = 2 → r.slot = k → (r ∈ u.clock.regs ↔
              r = ⟨.departure, k, tDep.toNat⟩ ∨ (ahead ∧ r = ⟨.lockout, k, point⟩)))
          ∧ (b.location = none → c.readiness = .away ∧ c.slack = none)
          ∧ (∀ n, b.location = some n →
              let f := figures s.now s.site.live.guardTime s.site.live.atRisk tDep.toNat need (b.soe.getD 0)
                (s.port n).sessionImportCap s.site.liveRatings[n].imp
              c.readiness = f.state ∧ c.slack = f.slack
              ∧ ((u.port n).held.dir = .exp → u.exportEligible k c = true))
          ∧ (c.readiness ≠ b.readiness → c.flags.getLsbD 2 = true)
          ∧ ∃ (v w : State) (wb : Bus),
            let ends (j : Nat) : Prop := ∃ pl st y, s.plan j = some pl ∧ pl.step? = some st
              ∧ st.kind = .exportTo ∧ b.soe = some y ∧ (y ≤ st.value ∨ y ≤ b.floor ∨ y ≤ need)
            let vb : Bus := { b with departure := some ⟨tDep.toNat, need, route.toNat, .pending, clamped⟩ }
            v = { s.modRing Ring.pop with clock := v.clock, buses := v.buses } ∧ v.now = s.now
            ∧ v.bus k = some vb ∧ (∀ m, m ≠ k → v.bus m = s.bus m)
            ∧ (∀ r, r.kind.owner ≠ 2 ∨ r.slot ≠ k → (r ∈ v.clock.regs ↔ r ∈ s.clock.regs))
            ∧ (∀ j, s.runningPlan b = some j → ends j → w = runTasks k 256 (.finish j) v)
            ∧ ((∀ j, s.runningPlan b = some j → ¬ ends j) → w = v)
            ∧ w.bus k = some wb
            ∧ wb = { vb with prioList := wb.prioList, stdList := wb.stdList, flags := wb.flags }
            ∧ u = { w with ports := u.ports, buses := u.buses }
            ∧ (∀ m, m ≠ k → u.bus m = w.bus m)
            ∧ c = { wb with
                readiness := c.readiness, slack := c.slack
                flags := if c.readiness = b.readiness then wb.flags else wb.flags ||| BusFlag.readiness }
            ∧ (∀ m, b.location ≠ some m → u.port m = w.port m)
            ∧ ∀ n, b.location = some n →
              let falls : Prop := (w.port n).held.dir = .exp ∧ w.exportEligible k wb = false
              (falls → (w.port n).PowerOff s.now (u.port n)
                ∧ u.port n = ((w.port n).timersOf (u.port n)).setpointOf (u.port n))
              ∧ (¬ falls → u.port n = (w.port n).timersOf (u.port n))))
  ∧ (∀ (h : ReqHeader) (s : State), s.takes ⟨h, .departureClear⟩ = true →
    let q : Request := ⟨h, .departureClear⟩
    ((∀ r ∈ s.buses.rows, r.2.number ≠ h.key.toNat) →
      exec (.departureClear h) s = .next (s.answered q s .notFound .none))
    ∧ ∀ k b, s.findBus h.key.toNat = some (k, b) →
      (b.departure = none →
        exec (.departureClear h) s = .next (s.answered q s .ok (.departureCleared none)))
      ∧ ∀ d, b.departure = some d → exec (.departureClear h) s = .next (s.answered q
        { s with
          buses := s.buses.put k { b with
            departure := none, readiness := .none, slack := none
            flags := if b.readiness = .none then b.flags else b.flags ||| BusFlag.readiness }
          clock := { s.clock with
            regs := s.clock.regs.filter fun r => !(r.kind.owner == 2 && r.slot == k)
            fired := s.clock.fired.filter fun r => !(r.kind.owner == 2 && r.slot == k) } }
        .ok (.departureCleared (some d.state))))

/-- The crossings of a departure. At the departure time a PENDING part becomes OVERDUE with the readiness
state OVERDUE and its lockout point withdrawn; at the lockout point an export setpoint of the bus's port
becomes 0 and an import setpoint stays (`Due`, `unfire`: log 7). -/
def Obligations.DepartureAndLockoutCrossings : Prop :=
  ∀ (slot : BusSlot) (T : Nat) (s : State) (b : Bus), s.bus slot.val = some b →
    (s.Due ⟨.departure, slot.val, T⟩ →
      let u := s.unfire ⟨.departure, slot.val, T⟩
      (∀ d, b.departure = some d → d.state = .pending → exec (.departureCrossing slot) s = .next
        { u with
          buses := s.buses.put slot.val { b with
            departure := some { d with state := .overdue }, readiness := .overdue, slack := none
            flags := if b.readiness = .overdue then b.flags else b.flags ||| BusFlag.readiness }
          clock := { u.clock with
            regs := u.clock.regs.filter fun r => !(r.kind.owner == 2 && r.slot == slot.val)
            fired := u.clock.fired.filter fun r => !(r.kind.owner == 2 && r.slot == slot.val) } })
      ∧ ((∀ d, b.departure = some d → d.state ≠ .pending) →
          exec (.departureCrossing slot) s = .next u))
    ∧ (s.Due ⟨.lockout, slot.val, T⟩ →
      let u := s.unfire ⟨.lockout, slot.val, T⟩
      (b.location = none → exec (.lockoutPointCrossing slot) s = .next u)
      ∧ ∀ n, b.location = some n → ∃ r : Port,
          exec (.lockoutPointCrossing slot) s = .next { u with ports := s.ports.set n r }
          ∧ ((s.port n).held.dir = .exp → (s.port n).PowerOff s.now r)
          ∧ ((s.port n).held.dir ≠ .exp → r.held = (s.port n).held)
          ∧ r.state = (s.port n).state ∧ r.session = (s.port n).session)

/-- The readiness figures: deficit, full power, window, slack, state and need power. Export eligibility is
R133's nine conditions, and the discharge floor is the greater of the reserve floor and the required energy
of a PENDING or OVERDUE part. -/
def Obligations.FiguresAndExportEligibility : Prop :=
  (∀ (now guardTime atRisk tDep eReq soe importCap rating : Nat),
    let f := figures now guardTime atRisk tDep eReq soe importCap rating
    let full := min importCap rating / 100 * 100
    let w : Int := (tDep : Int) - (now : Int) - (guardTime : Int)
    (eReq ≤ soe → f = ⟨.ready, some (max (-2147483648) (min 2147483647 w)), 0⟩)
    ∧ (soe < eReq → full = 0 → f = ⟨.late, none, 0⟩)
    ∧ (soe < eReq → 0 < full → ∃ time : Nat,
        (eReq - soe) * 3600 ≤ time * full ∧ (∀ x : Nat, (eReq - soe) * 3600 ≤ x * full → time ≤ x)
        ∧ f.slack = some (max (-2147483648) (min 2147483647 (w - time)))
        ∧ ((atRisk : Int) ≤ w - time → f.state = .onTrack)
        ∧ (w - time < atRisk → 0 ≤ w - time → f.state = .atRisk)
        ∧ (w - time < 0 → f.state = .late)
        ∧ (w ≤ 0 → f.need = full)
        ∧ (0 < w → f.need % 100 = 0 ∧ f.need ≤ full
            ∧ (f.need < full → (eReq - soe) * 3600 ≤ f.need * w.toNat)
            ∧ ∀ x : Nat, x % 100 = 0 → x ≤ full → (eReq - soe) * 3600 ≤ x * w.toNat → f.need ≤ x)))
  ∧ (∀ (s : State) (i : Nat) (b : Bus),
    (s.exportEligible i b = true ↔ ∃ n, b.location = some n
      ∧ (s.port n).boundSlot = some i ∧ 0 < (s.port n).sessionExportCap
      ∧ 0 < s.site.liveRatings[n].exp
      ∧ (∃ x, b.soe = some x ∧ b.dischargeFloor < x)
      ∧ (∀ d, b.departure = some d → d.state = .pending →
          s.now + s.site.live.lockoutWindow < d.tDep)
      ∧ b.exportUsed < b.allowance ∧ b.block = .enabled ∧ (s.port n).taken = .ready
      ∧ s.supervision.state = .supervised ∧ s.protection.latch = false)
    ∧ (b.departure = none → b.dischargeFloor = b.floor)
    ∧ (∀ d, b.departure = some d → d.state = .pending ∨ d.state = .overdue →
        b.dischargeFloor = max b.floor d.eReq)
    ∧ (∀ d a, b.departure = some d → d.state = .taken a → b.dischargeFloor = b.floor))

/-! ### Power allocation (08) -/

/-- A computation, at an expiry of the allocation timer. The staged values are loaded, the timer starts with
the live period, the number rises, and the summary records the totals of what is published; each port in
CONNECTED with READY taken and the latch clear, in ENERGIZING and in ENERGIZED takes its publication, and
every other port keeps its setpoint; a port that is not servable, or any port under the latch, is published
0; and no port is published a direction other than its last before the reversal rest has passed. An expiry
of an allocation timer that does not run changes nothing (log 1). The last stage: a port's computed
direction that differs from its last is removed until its setpoint has been 0 for the live reversal rest;
what is published is the import grant, or else the export grant, and 0 when the rest removed it or the latch
is set. The grants are recorded as worked out (log 33). The direction memory. A publication moves it with
the held setpoint: one that takes a value above 0 becomes the last direction and leaves no zero-since time,
one that falls to 0 takes the zero-since time and keeps the last direction, and one at 0 published 0 again,
or published as it was, keeps both. A port whose live setpoint changes at a publication sends one frame of
it and starts its frame timer. At every other command but POWER_ON a held setpoint only stays or falls in
its direction, the last direction stays, and a fall to 0 takes the zero-since time, at SET_TIME the depot
time before or after the change (log 7). So every step keeps a memory that fits: above 0 the last direction
is the setpoint's with no zero-since time, and at 0 there is one once power has moved. -/
def Obligations.ComputationPublishes : Prop :=
  (∀ s : State,
    (s.engine.running = false ∨ s.engine.timer = .stopped → exec .allocationComputation s = .next s)
    ∧ (s.engine.running = true → s.engine.timer ≠ .stopped → ∃ (t : State) (x : Summary),
      exec .allocationComputation s = .next t
      ∧ t.site.live = s.site.staged ∧ t.site.liveRatings = s.site.stagedRatings
      ∧ t.site.staged = s.site.staged ∧ t.site.loadPending = false
      ∧ t.engine.running = true ∧ t.engine.timer = .running (s.site.staged.allocPeriod * 1000) 0
      ∧ t.engine.number = min (s.engine.number + 1) 4294967295
      ∧ t.engine.summary = some x ∧ x.time = s.now ∧ t.site.lastBase = some x.base
      ∧ x.available = s.site.staged.feederLimit - x.base.watts - s.site.staged.margin
      ∧ x.importTotal = (t.engine.ports.toList.map fun r => r.published.importW).sum
      ∧ x.exportTotal = (t.engine.ports.toList.map fun r => r.published.exportW).sum
      ∧ x.net = (x.importTotal : Int) - (x.exportTotal : Int)
      ∧ x.supervision = s.supervision.state
      ∧ (s.protection.latch = true → x.importTotal = 0 ∧ x.exportTotal = 0)
      ∧ t.supervision = s.supervision ∧ t.protection = s.protection ∧ t.plans = s.plans
      ∧ (∀ (n : PortNo), let p := s.port n; let r := t.port n; let pub := t.engine.ports[n].published
        ((s.protection.latch = true ∨ p.servable = false) → pub = .zero)
        ∧ (p.state = .connected → p.taken = .ready → s.protection.latch = false → pub.mag ≠ 0 →
            r.held = pub ∧ r.command = .closed
            ∧ (p.feedback = .opened → r.state = .energizing ∧ r.confirmation = .running 200 0
                ∧ r.live = .zero)
            ∧ (p.feedback = .closed → r.state = .energized ∧ r.live = pub))
        ∧ (p.state = .connected → (p.taken ≠ .ready ∨ s.protection.latch = true ∨ pub.mag = 0) →
            r.held = p.held ∧ r.state = .connected ∧ r.command = p.command)
        ∧ (p.state = .energizing ∨ p.state = .energized → r.held = pub ∧ r.state = p.state)
        ∧ (p.state ≠ .connected → p.state ≠ .energizing → p.state ≠ .energized →
            r.held = p.held ∧ r.state = p.state)
        ∧ (pub.mag ≠ 0 → p.lastDir = .none ∨ p.lastDir = pub.dir
            ∨ (p.held.mag = 0 ∧ ∃ z, p.zeroSince = some z
                ∧ s.site.staged.reversalRest ≤ s.now - z)))))
  ∧ (∀ s t : State, s.engine.running = true → s.engine.timer ≠ .stopped →
    exec .allocationComputation s = .next t → ∀ n : PortNo,
      let p := s.port n
      let r := t.engine.ports[n]
      let imp := r.tierA + r.splitGrant
      let exp := r.planExport + r.reserveExport
      let dir : Dir := if 0 < imp then .imp else if 0 < exp then .exp else .none
      let rested : Prop := p.held.mag = 0 ∧ ∃ z, p.zeroSince = some z ∧ s.site.staged.reversalRest ≤ s.now - z
      (r.restRemoved = true ↔ dir ≠ .none ∧ p.lastDir ≠ .none ∧ dir ≠ p.lastDir ∧ ¬ rested)
      ∧ r.published = if s.protection.latch = true ∨ r.restRemoved = true then ⟨0, .none⟩
          else if 0 < imp then ⟨imp, .imp⟩ else if 0 < exp then ⟨exp, .exp⟩ else ⟨0, .none⟩)
  ∧ ((∀ (s t : State) (i : Instr), publishes i = true → exec i s = .next t →
    ∀ n : PortNo, (s.port n).Published s.now (t.port n))
  ∧ (∀ (s t : State) (i : Instr), s.TablesOk → s.PortsOk → s.Recalls → publishes i = false →
      (∀ l, i ≠ .powerOn l) → exec i s = .next t → ∀ n : PortNo,
        (s.port n).HeldFalls s.now (t.port n)
        ∨ ((∃ h v, i = .setTime h v) ∧ (s.port n).HeldFalls t.now (t.port n)))
  ∧ (∀ s t : State, s.TablesOk → s.PortsOk → s.Recalls → step s = .next t → t.Recalls)
  ∧ State.reset.Recalls)

/-- What an ACTIVE commitment accounts at a computation: the relief against its baseline, one period, a
short one when the relief is below the target, and the period's energy carried in watt-seconds. What a
computation works out for an ARMED commitment, one that the load has armed among them: the headroom is what
stopping the published split grants and unidentified sessions gives and what the eligible buses can export
to the window's end; HEADROOM_LOW is set when it falls below the target and was not low before. -/
def Obligations.ComputationReliefAndHeadroom : Prop :=
  (∀ (s : State) (i : Nat) (c : Commitment) (bl : Int), s.TablesOk → s.engine.running = true →
    s.engine.timer ≠ .stopped → s.commit i = some c → c.state = .active → c.baseline = some bl →
    ∃ (t : State) (x : Summary), exec .allocationComputation s = .next t ∧ t.engine.summary = some x
      ∧ x.commitActive = true
      ∧ let relief := bl - x.net
        let total := c.carry + min c.target relief.toNat * s.site.staged.allocPeriod
        t.commit i = some { c with
          relief := some relief, periods := min (c.periods + 1) 65535
          shortPeriods := if relief < c.target then min (c.shortPeriods + 1) 65535 else c.shortPeriods
          delivered := min (c.delivered + total / 3600) 4294967295, carry := total % 3600 })
  ∧ (∀ (s t : State) (i : Nat) (c : Commitment), s.TablesOk → s.engine.running = true →
    s.engine.timer ≠ .stopped → exec .allocationComputation s = .next t →
    s.prepared.commit i = some c → c.state = .armed →
    let stopped (n : PortNo) : Nat :=
      let r := t.engine.ports[n]
      if r.restRemoved = true ∨ s.protection.latch = true then 0
      else r.splitGrant + (match (t.port n).session.map Session.binding with
        | some (.unidentified _) => r.tierA
        | _ => 0)
    let leaves (b : Bus) : Bool := match b.departure with
      | some d => decide (d.state = .pending) && decide (d.tDep < c.windowEnd)
      | none => false
    let exported (k : Nat) (b : Bus) : Nat := match b.location with
      | some n => if t.exportEligible k b = true ∧ leaves b = false
          then min (t.port n).sessionExportCap t.site.liveRatings[n].exp / 100 * 100 else 0
      | none => 0
    let watts := (allPorts.map stopped).sum + (t.buses.rows.map fun r => exported r.1 r.2).sum
    t.commit i = some { c with
      headroom := some ⟨min watts 4294967295, t.engine.number⟩
      headroomLow := decide (watts < c.target)
      flags := if watts < c.target ∧ c.headroomLow = false
        then c.flags ||| CommitFlag.headroomLow else c.flags })

/-- ALLOC_START: TIME_UNSET, ALLOC_STATE; otherwise the engine is RUNNING, supervision is SUPERVISED with
its timer started, and the computation it makes gives the totals of its result. -/
def Obligations.AllocStartComputesAtOnce : Prop :=
  ∀ (h : ReqHeader) (s : State), s.takes ⟨h, .allocStart⟩ = true →
    let q : Request := ⟨h, .allocStart⟩
    (s.clock.mode = .unset → exec (.allocStart h) s = .next (s.answered q s .timeUnset .none))
    ∧ (s.clock.mode = .set → s.engine.running = true →
        exec (.allocStart h) s = .next (s.answered q s .allocState .none))
    ∧ (s.clock.mode = .set → s.engine.running = false → ∃ (u : State) (x : Summary),
        exec (.allocStart h) s = .next (s.answered q u .ok
          (.allocTotals u.engine.number x.available x.importTotal x.exportTotal x.net))
        ∧ u.engine.summary = some x ∧ u.engine.running = true
        ∧ u.engine.number = min (s.engine.number + 1) 4294967295
        ∧ u.engine.timer = .running (s.site.staged.allocPeriod * 1000) 0
        ∧ u.supervision = ⟨.supervised, .running (s.site.live.supervision * 1000) 0⟩
        ∧ (s.supervision.state ≠ .supervised → u.siteFlags.getLsbD 2 = true)
        ∧ x.time = s.now ∧ x.supervision = .supervised ∧ u.site.live = s.site.staged)

/-- ALLOC_STOP: ALLOC_STATE on a STOPPED engine; otherwise every setpoint and residue becomes 0, every
split tier none, the ACTIVE commitment is INTERRUPTED, supervision is SUPERVISED with its timer IDLE, the
staged values are loaded, and the other recorded results stay. That the recorded split tier, which ALLOC_LOOKUP
shows, becomes none with the rest kept is the model's choice (log 45). -/
def Obligations.AllocStopZeroesEveryPort : Prop :=
  ∀ (h : ReqHeader) (s : State), s.takes ⟨h, .allocStop⟩ = true →
    let q : Request := ⟨h, .allocStop⟩
    (s.engine.running = false → exec (.allocStop h) s = .next (s.answered q s .allocState .none))
    ∧ (s.engine.running = true → ∃ u : State,
        exec (.allocStop h) s = .next (s.answered q u .ok (.allocNumber s.engine.number))
        ∧ u.engine.running = false ∧ u.engine.timer = .stopped ∧ u.engine.number = s.engine.number
        ∧ u.engine.summary = s.engine.summary
        ∧ u.supervision = ⟨.supervised, .stopped⟩
        ∧ (s.supervision.state ≠ .supervised → u.siteFlags.getLsbD 2 = true)
        ∧ u.site.live = s.site.staged ∧ u.site.liveRatings = s.site.stagedRatings
        ∧ u.plans = s.plans ∧ u.protection = s.protection
        ∧ (∀ n : PortNo, (s.port n).PowerOff s.now (u.port n) ∧ (u.port n).residue = 0
            ∧ (u.port n).state = (s.port n).state ∧ (u.port n).command = (s.port n).command
            ∧ u.engine.ports[n] = { s.engine.ports[n] with split := .none }
            ∧ ((s.port n).state = .energized → (s.port n).held.mag ≠ 0 →
                (u.port n).openDelay = .running 60000 0))
        ∧ ∀ i c, s.activeCommit = some (i, c) → s.commit i = some c → u.commit i = some { c with
            state := .interrupted, outcome := some .interrupted, endTime := some s.now
            flags := c.flags ||| CommitFlag.ended })

/-- The proportional split. Requests in multiples of 100 W, each at least 100 W, that together exceed Q are
given shares in multiples of 100 W, each within its request, together at most Q and less than 100 W short of
it; requests that do not exceed Q are given whole, with residue 0; and every residue lies in -100 to 99. The
proportional split in its steps. The first shares are down100 of the lesser of the request and the raw share
with the carried residue. When they exceed Q, 100 W is taken back down the order of ascending remainders,
then descending ports, from as many shares of 100 W or more as it takes. Otherwise rounds hand out 100 W
each down the order of descending remainders, then ascending ports, to the shares below their requests,
while 100 W or more is left. -/
def Obligations.SplitSharesTheBudget : Prop :=
  (∀ (q : Nat) (xs : List (PortNo × Nat × Int)),
    (∀ x ∈ xs, 100 ≤ x.2.1 ∧ x.2.1 % 100 = 0) →
    let out := serveTier q xs
    let asked := (xs.map fun x => x.2.1).sum
    (out.map fun y => (y.port, y.req)).Perm (xs.map fun x => (x.1, x.2.1))
    ∧ sharesTotal out ≤ q
    ∧ (∀ y ∈ out, y.got % 100 = 0 ∧ y.got ≤ y.req ∧ -100 ≤ y.residue ∧ y.residue ≤ 99
        ∧ (y.got = y.req → y.residue = 0))
    ∧ (asked ≤ q → ∀ y ∈ out, y.got = y.req)
    ∧ (q < asked → q - sharesTotal out < 100))
  ∧ (∀ (q : Nat) (xs : List (PortNo × Nat × Int)), (xs.map Prod.fst).Nodup →
    (∀ x ∈ xs, 100 ≤ x.2.1 ∧ x.2.1 % 100 = 0 ∧ -100 ≤ x.2.2 ∧ x.2.2 ≤ 99) →
    let asked := (xs.map fun x => x.2.1).sum
    let start : List Share := xs.map fun x =>
      let a : Int := min (x.2.1 : Int) ((q * x.2.1 / asked : Nat) + x.2.2)
      ⟨x.1, x.2.1, a, a.toNat / 100 * 100⟩
    let sum (ys : List Share) : Nat := (ys.map Share.got).sum
    let remainder (y : Share) : Int := y.adj - y.got
    let moved (ys : List Share) (at_ : List PortNo) (f : Nat → Nat) : List Share :=
      ys.map fun y => if y.port ∈ at_ then { y with got := f y.got } else y
    q < asked →
    (q < sum start → ∃ order : List Share, order.Perm start
      ∧ order.Pairwise (fun a b => remainder a < remainder b
          ∨ (remainder a = remainder b ∧ b.port.val < a.port.val))
      ∧ (serveTier q xs).Perm (moved start
          (((order.filter fun y => 100 ≤ y.got).take ((sum start - q + 99) / 100)).map Share.port) (· - 100)))
    ∧ (sum start ≤ q → ∃ (rounds : Nat) (at_ : Nat → List Share), (at_ 0).Perm start
      ∧ (at_ rounds).Perm (serveTier q xs) ∧ q - sum (at_ rounds) < 100
      ∧ ∀ k, k < rounds → 100 ≤ q - sum (at_ k) ∧ ∃ order : List Share, order.Perm (at_ k)
        ∧ order.Pairwise (fun a b => remainder b < remainder a
            ∨ (remainder a = remainder b ∧ a.port.val < b.port.val))
        ∧ (at_ (k + 1)).Perm (moved (at_ k)
            (((order.filter fun y => y.got < y.req).take ((q - sum (at_ k)) / 100)).map Share.port) (· + 100))))

/-- The import published to all ports together never exceeds the available import of the computation, nor,
under FALLBACK, the tier-A total; and a port's import is at most its live rating and its session cap. -/
def Obligations.PublishedImportWithinAvailable : Prop :=
  ∀ s t : State, s.Agrees → s.engine.running = true → s.engine.timer ≠ .stopped →
    exec .allocationComputation s = .next t → ∃ x, t.engine.summary = some x
      ∧ x.importTotal ≤ x.available
      ∧ x.tierATotal ≤ x.available
      ∧ (x.supervision = .fallback → x.budget = 0 ∧ x.importTotal ≤ x.tierATotal)
      ∧ ∀ n : PortNo, t.engine.ports[n].published.importW ≤ t.site.liveRatings[n].imp
          ∧ t.engine.ports[n].published.importW ≤ (t.port n).sessionImportCap
          ∧ t.engine.ports[n].published.exportW ≤ t.site.liveRatings[n].exp
          ∧ t.engine.ports[n].published.exportW ≤ (t.port n).sessionExportCap

/-- What a computation reads: the state after the load and the base load, in which every enrolled bus takes
the readiness state and slack of its departure part, READINESS set where the state changes. Tier A and the
budget. The candidates are the servable ports whose bus has a floor, by ascending slack and port, then those
with an unidentified session, ascending; each is granted its request while the available import lasts, the
first that does not fit down100 of what is left, and every later one 0. The budget of tiers B and C is 0
under FALLBACK, what the cap of an ACTIVE commitment leaves above tier A, or all that tier A leaves. -/
def Obligations.TierAAndBudget : Prop :=
  ((∀ s : State,
    let v := s.load.takeBase
    let u := s.prepared
    u = { v with buses := u.buses }
    ∧ ∀ i, (v.bus i = none → u.bus i = none) ∧ ∀ b, v.bus i = some b → ∃ c : Bus, u.bus i = some c
      ∧ c = { b with
          readiness := c.readiness, slack := c.slack
          flags := if c.readiness = b.readiness then b.flags else b.flags ||| BusFlag.readiness }
      ∧ (b.departure = none → c.readiness = .none ∧ c.slack = none)
      ∧ ∀ d, b.departure = some d →
        (∀ a, d.state = .taken a → c.readiness = .none ∧ c.slack = none)
        ∧ (d.state = .overdue → c.readiness = .overdue ∧ c.slack = none)
        ∧ (d.state = .pending → b.location = none → c.readiness = .away ∧ c.slack = none)
        ∧ ∀ n, d.state = .pending → b.location = some n →
          let f := figures v.now v.site.live.guardTime v.site.live.atRisk d.tDep d.eReq (b.soe.getD 0)
            (v.port n).sessionImportCap v.site.liveRatings[n].imp
          c.readiness = f.state ∧ c.slack = f.slack)
  ∧ ∀ s t : State, s.engine.running = true → s.engine.timer ≠ .stopped →
      exec .allocationComputation s = .next t →
      t.buses = s.prepared.buses ∧ t.plans = s.plans ∧ t.site = s.prepared.site ∧ t.clock = s.prepared.clock)
  ∧ (∀ (s t : State) (x : Summary), s.TablesOk → s.Agrees → s.OneActive → s.engine.running = true →
    s.engine.timer ≠ .stopped → exec .allocationComputation s = .next t → t.engine.summary = some x →
    let u := s.prepared
    let servable (n : PortNo) : Prop := (u.port n).session ≠ none ∧ (u.port n).taken = .ready
      ∧ ((u.port n).state = .connected ∨ (u.port n).state = .energizing ∨ (u.port n).state = .energized)
    (∃ (floors : List (PortNo × Nat × Int)) (trickles : List (PortNo × Nat)),
      let asks : List (PortNo × Nat) := (floors.map fun c => (c.1, c.2.1)) ++ trickles
      let before (k : Nat) : Nat := ((asks.take k).map Prod.snd).sum
      (∀ n need slack, (n, need, slack) ∈ floors ↔ 0 < need ∧ servable n
        ∧ ∃ i b d, (u.port n).boundSlot = some i ∧ u.bus i = some b ∧ b.block = .enabled
          ∧ b.departure = some d ∧ d.state = .pending
          ∧ let f := figures u.now u.site.live.guardTime u.site.live.atRisk d.tDep d.eReq (b.soe.getD 0)
              (u.port n).sessionImportCap u.site.liveRatings[n].imp
            need = f.need ∧ f.slack = some slack)
      ∧ floors.Pairwise (fun a b => a.2.2 < b.2.2 ∨ (a.2.2 = b.2.2 ∧ a.1.val < b.1.val))
      ∧ (∀ n w, (n, w) ∈ trickles ↔ 0 < w ∧ servable n ∧ ∃ y why, (u.port n).session = some y
          ∧ y.binding = .unidentified why ∧ w = min y.importCap u.site.liveRatings[n].imp / 100 * 100)
      ∧ trickles.Pairwise (fun a b => a.1.val < b.1.val)
      ∧ (∀ k n w, asks[k]? = some (n, w) → t.engine.ports[n].tierA =
          if before k + w ≤ x.available then w else (x.available - before k) / 100 * 100)
      ∧ ∀ n : PortNo, (∀ w, (n, w) ∉ asks) → t.engine.ports[n].tierA = 0)
    ∧ x.tierATotal = (t.engine.ports.toList.map PortResult.tierA).sum
    ∧ (x.supervision = .fallback → x.budget = 0)
    ∧ (∀ i c bl, x.supervision ≠ .fallback → s.commit i = some c → c.state = .active →
        c.baseline = some bl → x.budget = min x.available (bl - c.target).toNat - x.tierATotal)
    ∧ (x.supervision ≠ .fallback → (∀ i c, s.commit i = some c → c.state ≠ .active) →
        x.budget = x.available - x.tierATotal))

/-- Tiers B and C: the requests above tier A of the ports that run an ACTIVE IMPORT_TO step, PRIORITY in B
and STANDARD in C; each tier, B first, is served what is left of the budget with the residues carried by the
ports that were in it before, and each port keeps the new residue, 0 when it is granted whole. Exports. A
plan export is down100 of the least of step cap, session cap and rating for an eligible bus with an ACTIVE
EXPORT_TO step. Under an ACTIVE commitment and SUPERVISED, the need is what import, export and the cap of
the commitment leave, rounded up to 100 W, and the eligible ports without import take it in descending order
of surplus, then ascending port, each up to its room; otherwise no reserve export is granted. -/
def Obligations.TiersAndExports : Prop :=
  (∀ (s t : State) (x : Summary), s.Agrees → s.engine.running = true →
    s.engine.timer ≠ .stopped → exec .allocationComputation s = .next t → t.engine.summary = some x →
    let u := s.prepared
    let runs (n : PortNo) (cls : PlanClass) (st : PlanStep) : Prop := (u.port n).servable = true
      ∧ ∃ i b j p, (u.port n).boundSlot = some i ∧ u.bus i = some b ∧ u.runningPlan b = some j
        ∧ u.plan j = some p ∧ p.cls = cls ∧ p.cond = some .active ∧ p.step? = some st
    let ask (n : PortNo) (st : PlanStep) : Nat := (min (min st.cap (u.port n).sessionImportCap)
      u.site.liveRatings[n].imp - t.engine.ports[n].tierA) / 100 * 100
    let tierOf (cls : PlanClass) : SplitTier := match cls with | .priority => .b | .standard => .c
    let asked (cls : PlanClass) (l : List (PortNo × Nat × Int)) : Prop :=
      l.Pairwise (fun a b => a.1.val < b.1.val)
      ∧ ∀ n w c, (n, w, c) ∈ l ↔ 0 < w
        ∧ c = (if s.engine.ports[n].split = tierOf cls then (s.port n).residue else 0)
        ∧ ∃ st, runs n cls st ∧ st.kind = .importTo ∧ w = ask n st
    ∃ inB inC : List (PortNo × Nat × Int), asked .priority inB ∧ asked .standard inC
      ∧ let outB := serveTier x.budget inB
        let outC := serveTier (x.budget - (outB.map Share.got).sum) inC
        let keeps (tier : SplitTier) (y : Share) : Prop := t.engine.ports[y.port].split = tier
          ∧ t.engine.ports[y.port].splitGrant = y.got
          ∧ (t.port y.port).residue = if y.got = y.req then 0 else max (-100) (min 99 (y.adj - y.got))
        (∀ y ∈ outB, keeps .b y) ∧ (∀ y ∈ outC, keeps .c y)
        ∧ ∀ n : PortNo, (∀ w c, (n, w, c) ∉ inB ∧ (n, w, c) ∉ inC) →
          t.engine.ports[n].split = .none ∧ t.engine.ports[n].splitGrant = 0
          ∧ (t.port n).residue = if s.engine.ports[n].split = .none then (s.port n).residue else 0)
  ∧ (∀ (s t : State) (x : Summary), s.TablesOk → s.OneActive → s.engine.running = true →
    s.engine.timer ≠ .stopped → exec .allocationComputation s = .next t → t.engine.summary = some x →
    let u := s.prepared
    let eligible (n : PortNo) : Prop := (u.port n).servable = true
      ∧ ∃ i b, (u.port n).boundSlot = some i ∧ u.bus i = some b ∧ u.exportEligible i b = true
    let exports (n : PortNo) (st : PlanStep) : Prop := eligible n ∧ st.kind = .exportTo
      ∧ ∃ i b j p, (u.port n).boundSlot = some i ∧ u.bus i = some b ∧ u.runningPlan b = some j
        ∧ u.plan j = some p ∧ p.cond = some .active ∧ p.step? = some st
    let top (n : PortNo) : Nat := min (u.port n).sessionExportCap u.site.liveRatings[n].exp
    let imports (n : PortNo) : Nat := t.engine.ports[n].tierA + t.engine.ports[n].splitGrant
    (∀ n st, exports n st → t.engine.ports[n].planExport = min st.cap (top n) / 100 * 100)
    ∧ (∀ n : PortNo, (∀ st, ¬ exports n st) → t.engine.ports[n].planExport = 0)
    ∧ ((x.supervision ≠ .supervised ∨ ∀ i c, s.commit i = some c → c.state ≠ .active) →
        ∀ n : PortNo, t.engine.ports[n].reserveExport = 0)
    ∧ ∀ i c bl, x.supervision = .supervised → s.commit i = some c → c.state = .active →
      c.baseline = some bl →
      let short : Int := ((allPorts.map imports).sum : Int)
        - ((allPorts.map fun n => t.engine.ports[n].planExport).sum : Int) - (bl - c.target)
      let need := (short.toNat + 99) / 100 * 100
      ∃ cands : List (PortNo × Int × Nat),
        (∀ n surplus room, (n, surplus, room) ∈ cands ↔ eligible n ∧ imports n = 0
          ∧ room = top n / 100 * 100 - t.engine.ports[n].planExport
          ∧ ∃ k b soe, (u.port n).boundSlot = some k ∧ u.bus k = some b ∧ b.soe = some soe
            ∧ surplus = (soe : Int) - b.dischargeFloor)
        ∧ cands.Pairwise (fun a b => b.2.1 < a.2.1 ∨ (a.2.1 = b.2.1 ∧ a.1.val < b.1.val))
        ∧ (∀ k n surplus room, cands[k]? = some (n, surplus, room) → t.engine.ports[n].reserveExport
            = min room (need - ((cands.take k).map fun y => y.2.2).sum))
        ∧ ∀ n : PortNo, (∀ y room, (n, y, room) ∉ cands) → t.engine.ports[n].reserveExport = 0)

/-! ### Grid reserve commitments (09) -/

/-- COMMIT_OFFER: TIME_UNSET, OUT_OF_RANGE, TABLE_FULL; an offer that passes takes the lowest free slot,
PENDING before its arm point and ARMED from it, AHEAD before its window start and OPEN from it, and
registers what of arm point, window start and window end lies ahead, in that order. -/
def Obligations.CommitOfferArmsByTime : Prop :=
  ∀ (h : ReqHeader) (ws we x tol : Word) (s : State), s.takes ⟨h, .commitOffer ws we x tol⟩ = true →
    let i := Instr.commitOffer h ws we x tol
    let q : Request := ⟨h, .commitOffer ws we x tol⟩
    let fits : Prop := ws.toNat < we.toNat ∧ we.toNat - ws.toNat ≤ 14400 ∧ s.now < we.toNat
      ∧ 1000 ≤ x.toNat ∧ x.toNat ≤ 2000000 ∧ tol.toNat ≤ 100
    let point := ws.toNat - s.site.live.armLead
    (s.clock.mode = .unset → exec i s = .next (s.answered q s .timeUnset .none))
    ∧ (s.clock.mode = .set → ¬ fits → exec i s = .next (s.answered q s .outOfRange .none))
    ∧ (s.clock.mode = .set → fits → (∀ k, k < 16 → (s.commit k).isSome) →
        exec i s = .next (s.answered q s .tableFull .none))
    ∧ ∀ k, s.clock.mode = .set → fits → k < 16 → s.commit k = none →
      (∀ j, j < k → (s.commit j).isSome) → ∃ c : Commitment,
        c = { generation := s.commitGens.gen k, windowStart := ws.toNat, windowEnd := we.toNat
              armPoint := point, target := x.toNat, tolerance := tol.toNat
              state := if s.now < point then .pending else .armed
              phase := if s.now < ws.toNat then .ahead else .opened
              headroom := none, headroomLow := false, source := none, baseline := none
              activation := none, periods := 0, shortPeriods := 0, relief := none, delivered := 0
              carry := 0, outcome := none, endTime := none
              flags := if s.now < point then 0 else CommitFlag.armed }
        ∧ exec i s = .next (s.answered q
          { s with
            commits := s.commits.put k c
            clock := { s.clock with
              regs := s.clock.regs
                ++ (if s.now < point then [⟨.armPoint, k, point⟩] else [])
                ++ (if s.now < ws.toNat then [⟨.windowStart, k, ws.toNat⟩] else [])
                ++ [⟨.windowEnd, k, we.toNat⟩] } }
          .ok (.offered ⟨k, c.generation⟩ c.state c.phase point))

/-- COMMIT_WITHDRAW, COMMIT_RELEASE and COMMIT_RETIRE by the id in the key and the commitment's state: an
id that does not resolve and a wrong state refuse; a withdrawal sets no ENDED; a release ends the ACTIVE
commitment MET, or SHORTFALL by its counts, with ENDED; a retirement frees a final one's slot, whose
generation rises by one. An entry to a final state withdraws the commitment's registrations, those that wait to be
handed over among them (log 7). That byte 7 of the key is ignored is the model's choice (log 39). -/
def Obligations.CommitmentsEndByRequest : Prop :=
  ∀ (h : ReqHeader) (s : State),
    let slot := (h.key.extractLsb' 0 16).toNat
    let gen := (h.key.extractLsb' 16 8).toNat
    let clock : Clock := { s.clock with
      regs := s.clock.regs.filter fun r => !(r.kind.owner == 3 && r.slot == slot)
      fired := s.clock.fired.filter fun r => !(r.kind.owner == 3 && r.slot == slot) }
    let unresolved (st : Status) : Prop := (15 < slot ∧ st = .outOfRange)
      ∨ (slot ≤ 15 ∧ (s.commit slot = none ∨ ∃ c, s.commit slot = some c ∧ c.generation ≠ gen)
          ∧ st = .staleId)
    let answers (i : Instr) (b : ReqBody) (u : State) (st : Status) (r : Result) : Prop :=
      exec i s = .next (s.answered ⟨h, b⟩ u st r)
    (s.takes ⟨h, .commitWithdraw⟩ = true →
      let i := Instr.commitWithdraw h
      (∀ st, unresolved st → answers i .commitWithdraw s st .none)
      ∧ ∀ c, slot ≤ 15 → s.commit slot = some c → c.generation = gen →
        ((c.state ≠ .pending ∧ c.state ≠ .armed) → answers i .commitWithdraw s .commitState .none)
        ∧ (c.state = .pending ∨ c.state = .armed → answers i .commitWithdraw
            { s with
              clock := clock
              commits := s.commits.put slot { c with
                state := .withdrawn, outcome := some .withdrawn, endTime := some s.now } }
            .ok (.withdrawn ⟨slot, gen⟩ s.now)))
    ∧ (s.takes ⟨h, .commitRelease⟩ = true →
      let i := Instr.commitRelease h
      (∀ st, unresolved st → answers i .commitRelease s st .none)
      ∧ ∀ c, slot ≤ 15 → s.commit slot = some c → c.generation = gen →
        (c.state ≠ .active → answers i .commitRelease s .commitState .none)
        ∧ (c.state = .active →
            let o : CommitState :=
              if c.periods = 0 ∨ c.tolerance * c.periods < c.shortPeriods * 100 then .shortfall else .met
            answers i .commitRelease
              { s with
                clock := clock
                commits := s.commits.put slot { c with
                  state := o, outcome := some o, endTime := some s.now
                  flags := c.flags ||| CommitFlag.ended } }
              .ok (.released o c.periods c.shortPeriods c.delivered)))
    ∧ (s.takes ⟨h, .commitRetire⟩ = true →
      let i := Instr.commitRetire h
      (∀ st, unresolved st → answers i .commitRetire s st .none)
      ∧ ∀ c, slot ≤ 15 → s.commit slot = some c → c.generation = gen →
        ((c.state = .pending ∨ c.state = .armed ∨ c.state = .active) →
          answers i .commitRetire s .commitState .none)
        ∧ (c.state ≠ .pending → c.state ≠ .armed → c.state ≠ .active → ∃ g : Table Nat,
            answers i .commitRetire { s with commits := s.commits.del slot, commitGens := g }
              .ok (.freed slot ((s.commitGens.gen slot + 1) % 256))
            ∧ g.gen slot = (s.commitGens.gen slot + 1) % 256
            ∧ ∀ k, k ≠ slot → g.gen k = s.commitGens.gen k))

/-- COMMIT_DISPATCH by its six checks, and the edges of GRID_DISPATCH. An activation records source, time
and baseline, clears the counts and sets ACTIVE; a rising edge activates the ARMED commitment with an open
window that starts earliest, then lowest in slot, or is ignored with DISPATCH_IGNORED; a falling edge ends
the ACTIVE commitment that the line activated, with its registrations, those that wait among them (log 7). An
edge to the level already filtered changes nothing (log 1), and the pin and the candidate follow an edge that is
taken (log 10). An id that does not resolve refuses; that byte 7 of its key is ignored is the model's choice
(log 39). -/
def Obligations.DispatchActivatesOneCommitment : Prop :=
  ∀ s : State,
    let net : Int := match s.engine.summary with
      | some x => x.net
      | none => 0
    let activated (c : Commitment) (src : DispatchSource) : Commitment := { c with
      state := .active, source := some src, activation := some s.now, baseline := some net
      periods := 0, shortPeriods := 0, delivered := 0, carry := 0, relief := none
      flags := c.flags ||| CommitFlag.active }
    let idle : Prop := ∀ r ∈ s.commits.rows, r.2.state ≠ .active
    let ready : Prop := s.engine.running = true ∧ s.supervision.state = .supervised
      ∧ s.protection.latch = false
    let open' (c : Commitment) : Prop := c.state = .armed ∧ c.phase = .opened
    (∀ h : ReqHeader, s.takes ⟨h, .commitDispatch⟩ = true →
      let slot := (h.key.extractLsb' 0 16).toNat
      let answers (u : State) (st : Status) (r : Result) : Prop :=
        exec (.commitDispatch h) s = .next (s.answered ⟨h, .commitDispatch⟩ u st r)
      let gen := (h.key.extractLsb' 16 8).toNat
      (15 < slot → answers s .outOfRange .none)
      ∧ (slot ≤ 15 → (s.commit slot = none ∨ ∃ c, s.commit slot = some c ∧ c.generation ≠ gen) →
          answers s .staleId .none)
      ∧ ∀ c : Commitment, slot ≤ 15 → s.commit slot = some c → c.generation = gen →
        (c.state ≠ .armed → answers s .commitState .none)
        ∧ (c.state = .armed → c.phase = .ahead → answers s .notInWindow .none)
        ∧ (open' c → ¬ idle → answers s .reserveBusy .none)
        ∧ (open' c → idle → s.engine.running = false → answers s .allocState .none)
        ∧ (open' c → idle → s.engine.running = true → s.supervision.state ≠ .supervised →
            answers s .supervisionLapsed .none)
        ∧ (open' c → idle → s.engine.running = true → s.supervision.state = .supervised →
            s.protection.latch = true → answers s .tripActive .none)
        ∧ (open' c → idle → ready → answers
            { s with commits := s.commits.put slot (activated c .request) } .ok
            (.dispatched ⟨slot, c.generation⟩ net (net - c.target) s.now)))
    ∧ (s.dispatch.filtered = true → exec .gridDispatchRisingEdge s = .next s)
    ∧ (s.dispatch.filtered = false →
      (∀ i c, s.TablesOk → s.commit i = some c → open' c → idle → ready →
        (∀ j d, s.commit j = some d → open' d →
          c.windowStart < d.windowStart ∨ (c.windowStart = d.windowStart ∧ i ≤ j)) →
        exec .gridDispatchRisingEdge s = .next { s with
          dispatch := ⟨true, true, none⟩, commits := s.commits.put i (activated c .line) })
      ∧ ((∀ r ∈ s.commits.rows, ¬ open' r.2) ∨ ¬ idle ∨ ¬ ready → exec .gridDispatchRisingEdge s
          = .next { s with
            dispatch := ⟨true, true, none⟩, siteFlags := s.siteFlags ||| SiteFlag.dispatchIgnored }))
    ∧ (s.dispatch.filtered = false → exec .gridDispatchFallingEdge s = .next s)
    ∧ (s.dispatch.filtered = true →
      ((idle ∨ ∃ i c, s.activeCommit = some (i, c) ∧ c.source = some .request) →
        exec .gridDispatchFallingEdge s = .next { s with dispatch := ⟨false, false, none⟩ })
      ∧ ∀ i c, s.activeCommit = some (i, c) → s.commit i = some c → c.source = some .line →
        exec .gridDispatchFallingEdge s = .next { s with
          dispatch := ⟨false, false, none⟩
          clock := { s.clock with
            regs := s.clock.regs.filter fun r => !(r.kind.owner == 3 && r.slot == i)
            fired := s.clock.fired.filter fun r => !(r.kind.owner == 3 && r.slot == i) }
          commits := s.commits.put i { c with
            state := c.normalOutcome, outcome := some c.normalOutcome, endTime := some s.now
            flags := c.flags ||| CommitFlag.ended } })

/-- The crossings of a commitment: the arm point makes a PENDING one ARMED, the window start opens the
window of an ARMED one, and the window end makes an ARMED one NOT_DISPATCHED and ends an ACTIVE one
normally, with ENDED and its registrations withdrawn (`Due`, `unfire`: log 7). -/
def Obligations.CommitmentCrossings : Prop :=
  ∀ (slot : CommitSlot) (T : Nat) (s : State) (c : Commitment), s.commit slot.val = some c →
    let put (u : State) (d : Commitment) : State := { u with commits := s.commits.put slot.val d }
    let ended (u : State) (o : CommitState) : State := { u with
      commits := s.commits.put slot.val { c with
        state := o, outcome := some o, endTime := some s.now, flags := c.flags ||| CommitFlag.ended }
      clock := { u.clock with
        regs := u.clock.regs.filter fun r => !(r.kind.owner == 3 && r.slot == slot.val)
        fired := u.clock.fired.filter fun r => !(r.kind.owner == 3 && r.slot == slot.val) } }
    (s.Due ⟨.armPoint, slot.val, T⟩ → c.state = .pending →
      exec (.armPointCrossing slot) s = .next (put (s.unfire ⟨.armPoint, slot.val, T⟩)
        { c with state := .armed, flags := c.flags ||| CommitFlag.armed }))
    ∧ (s.Due ⟨.windowStart, slot.val, T⟩ → c.state = .armed →
      exec (.windowStartCrossing slot) s = .next (put (s.unfire ⟨.windowStart, slot.val, T⟩)
        { c with phase := .opened }))
    ∧ (s.Due ⟨.windowEnd, slot.val, T⟩ →
      let u := s.unfire ⟨.windowEnd, slot.val, T⟩
      (c.state = .armed → exec (.windowEndCrossing slot) s = .next (ended u .notDispatched))
      ∧ (c.state = .active → c.periods = 0 →
          exec (.windowEndCrossing slot) s = .next (ended u .shortfall))
      ∧ (c.state = .active → 0 < c.periods → c.tolerance * c.periods < c.shortPeriods * 100 →
          exec (.windowEndCrossing slot) s = .next (ended u .shortfall))
      ∧ (c.state = .active → 0 < c.periods → c.shortPeriods * 100 ≤ c.tolerance * c.periods →
          exec (.windowEndCrossing slot) s = .next (ended u .met)))

/-! ### Protection and supervision (10) -/

/-- SITE_TRIP. An assertion while the latch is CLEAR sets it and TRIP, makes every setpoint 0 and every
command OPEN with CONNECTED, ENERGIZING and ENERGIZED ports HELD and their sessions kept, gives the open
command of a CLOSING port without ending CLOSING, whatever its feedback shows (log 37), and interrupts the
ACTIVE commitment: no session ends and no plan changes; with the latch SET it sets TRIP alone. A deassertion
leaves the latch. An assertion of a line that is asserted changes nothing (log 1). CLEAR_TRIP: TRIP_ACTIVE
while the line is asserted; with the latch SET it clears it and takes every HELD port to CONNECTED with its
session kept; with the latch CLEAR it changes nothing. TRIP stays. -/
def Obligations.TripAndClearTrip : Prop :=
  (∀ s : State,
    (s.protection.line = true → exec .siteTripAssertion s = .next s)
    ∧ (s.protection.line = false → s.protection.latch = true → exec .siteTripAssertion s = .next
        { s with protection := ⟨true, true⟩, siteFlags := s.siteFlags ||| SiteFlag.trip })
    ∧ (s.protection.line = false → s.protection.latch = false → s.PortsOk → ∃ t : State,
        exec .siteTripAssertion s = .next t
        ∧ t.protection = ⟨true, true⟩ ∧ t.siteFlags = s.siteFlags ||| SiteFlag.trip
        ∧ t.supervision = s.supervision ∧ t.engine = s.engine
        ∧ (∀ n : PortNo, let p := s.port n; let r := t.port n
          p.PowerOff s.now r ∧ r.command = .opened
          ∧ (p.state = .connected ∨ p.state = .energizing ∨ p.state = .energized → r.state = .held
              ∧ r.session = p.session ∧ r.confirmation = .stopped ∧ r.openDelay = .stopped)
          ∧ (p.state = .closing → r.quiet = .stopped ∧ r.limit = .stopped ∧ r.state = .closing
              ∧ r.session = p.session ∧ r.pendingTarget = p.pendingTarget ∧ r.flags = p.flags
              ∧ r.lastTransition = p.lastTransition)
          ∧ (p.state ≠ .connected → p.state ≠ .energizing → p.state ≠ .energized → p.state ≠ .closing →
              r.state = p.state ∧ r.session = p.session)
          ∧ (p.command = .closed → p.feedback = .closed → p.state ≠ .offline →
              r.weld = .running 200 0))
        ∧ t.buses = s.buses ∧ t.plans = s.plans
        ∧ ∀ i c, s.activeCommit = some (i, c) → s.commit i = some c → t.commit i = some { c with
            state := .interrupted, outcome := some .interrupted, endTime := some s.now
            flags := c.flags ||| CommitFlag.ended })
    ∧ exec .siteTripDeassertion s = .next { s with protection := ⟨false, s.protection.latch⟩ })
  ∧ (∀ (h : ReqHeader) (s : State), s.takes ⟨h, .clearTrip⟩ = true →
    let q : Request := ⟨h, .clearTrip⟩
    (s.protection.line = true → exec (.clearTrip h) s = .next (s.answered q s .tripActive .none))
    ∧ (s.protection.line = false → s.protection.latch = false →
        exec (.clearTrip h) s = .next (s.answered q s .ok (.tripCleared false 0)))
    ∧ (s.protection.line = false → s.protection.latch = true → ∃ u : State,
        exec (.clearTrip h) s = .next (s.answered q u .ok (.tripCleared false
          (allPorts.filter fun n => (s.port n).state == .held).length))
        ∧ u = { s with ports := u.ports, protection := ⟨false, false⟩, ring := u.ring }
        ∧ ∀ n : PortNo,
          ((s.port n).state = .held → (s.port n).held = .zero → u.port n = { (s.port n).timersOf (u.port n)
            with state := .connected, pendingTarget := none, faultCode := none })
          ∧ ((s.port n).state ≠ .held → u.port n = (s.port n).timersOf (u.port n))))

/-- KEEPALIVE restarts the timer with the live interval and makes supervision SUPERVISED while the engine
is RUNNING, and changes nothing while it is STOPPED. An expiry makes SUPERVISED LAPSED, with every export
setpoint 0 and the timer restarted, and LAPSED FALLBACK, with every import setpoint at most its recorded
tier-A grant and the timer IDLE. Each change of state sets SUPERVISION. An expiry is taken once the timer has
counted to its length (log 3); of a timer that is stopped, or that a KEEPALIVE taken first has restarted, it
changes nothing (log 1). -/
def Obligations.SupervisionKeepsAndLapses : Prop :=
  ∀ s : State,
    let running : Timer := .running (s.site.live.supervision * 1000) 0
    (∀ h : ReqHeader, s.takes ⟨h, .keepalive⟩ = true →
      (s.engine.running = true → exec (.keepalive h) s = .next (s.answered ⟨h, .keepalive⟩
        { s with
          supervision := ⟨.supervised, running⟩
          siteFlags := if s.supervision.state = .supervised then s.siteFlags
            else s.siteFlags ||| SiteFlag.supervision }
        .ok (.supervision s.supervision.state .supervised (some s.site.live.supervision))))
      ∧ (s.engine.running = false → s.supervision.timer = .stopped → exec (.keepalive h) s
          = .next (s.answered ⟨h, .keepalive⟩ s .ok
            (.supervision s.supervision.state s.supervision.state none))))
    ∧ (s.supervision.timer = .stopped → exec .supervisionTimerExpiry s = .next s)
    ∧ (∀ length elapsed, s.supervision.timer = .running length elapsed → elapsed < length →
        exec .supervisionTimerExpiry s = .next s)
    ∧ (∀ length elapsed, s.supervision.timer = .running length elapsed → length ≤ elapsed →
        s.supervision.state = .supervised → ∃ t : State,
        exec .supervisionTimerExpiry s = .next t
        ∧ t = { s with
          ports := t.ports, supervision := ⟨.lapsed, running⟩
          siteFlags := s.siteFlags ||| SiteFlag.supervision }
        ∧ ∀ n : PortNo, (t.port n).state = (s.port n).state ∧ (t.port n).session = (s.port n).session
          ∧ ((s.port n).held.dir = .exp → (s.port n).PowerOff s.now (t.port n))
          ∧ ((s.port n).held.dir ≠ .exp → (t.port n).held = (s.port n).held))
    ∧ (∀ length elapsed, s.supervision.timer = .running length elapsed → length ≤ elapsed →
        s.supervision.state = .lapsed → ∃ t : State,
        exec .supervisionTimerExpiry s = .next t
        ∧ t = { s with
          ports := t.ports, supervision := ⟨.fallback, .stopped⟩
          siteFlags := s.siteFlags ||| SiteFlag.supervision }
        ∧ ∀ n : PortNo, (t.port n).state = (s.port n).state ∧ (t.port n).session = (s.port n).session
          ∧ ((s.port n).held.dir = .imp →
              (t.port n).held = .make .imp (min (s.port n).held.mag s.engine.ports[n].tierA))
          ∧ ((s.port n).held.dir ≠ .imp → (t.port n).held = (s.port n).held))

/-! ### Rings and attention (11) -/

/-- Writes of the register window. A base (low six bits 0) and a size (both pointers 0) are taken in STOPPED
alone; the threshold is clamped to 1 to 64 and acts at once on the count, the hold time to 1 to 1,000; a
pointer that is not below its ring's size is ignored; the acknowledge's bit 0 clears the completion-pending
flag; the mask keeps its five bits (log 17). The register window: the offset and width of each register,
what a read by the controller gives, least significant byte first, with bit 0 of the ring control the enable
bit and bit 1 reading 0, no read of the interrupt acknowledge, the command that each write is, and the
values after power-on. A ring control write that sets both bits is the ring reset (log 38). The status word
of 0 at power-on rests on SITE_TRIP deasserted at the first sample of `State.reset` (log 9). That bits 31 to
8 of the status word and bits 31 to 2 of the ring control read 0 is the model's choice (log 44). The ring
control register. Enable in STOPPED makes the rings RUNNING when both bases are set and both sizes are 16 to
4,096, and starts a fetch burst where one can start; it is ignored otherwise; disable in RUNNING makes them
STOPPED with buffer, burst and write kept; the ring reset empties the buffer, abandons what is in flight,
clears the pointers, the count, the timer, the flag and the enable bit, and keeps bases, sizes, threshold,
hold time and mask. That the enable bit stays set in FETCH_ERROR is the model's choice (log 17). -/
def Obligations.RegisterWindowAndRingControl : Prop :=
  (∀ (a : Addr) (v : Word) (s : State),
    let base (r : RingRegs) : RingRegs := { r with base := a &&& ~~~63#64, baseSet := true }
    let size (r : RingRegs) : RingRegs := { r with size := v.toNat, write := 0, read := 0 }
    (s.ring.state = .stopped →
      exec (.ringBaseWrite .request a) s
        = .next { s with ring := { s.ring with request := base s.ring.request } }
      ∧ exec (.ringBaseWrite .completion a) s
        = .next { s with ring := { s.ring with completion := base s.ring.completion } }
      ∧ exec (.ringSizeWrite .request v) s
        = .next { s with ring := { s.ring with request := size s.ring.request } }
      ∧ exec (.ringSizeWrite .completion v) s
        = .next { s with ring := { s.ring with completion := size s.ring.completion } })
    ∧ (s.ring.state ≠ .stopped → ∀ i, exec (.ringBaseWrite i a) s = .next s
        ∧ exec (.ringSizeWrite i v) s = .next s)
    ∧ (let t := max 1 (min 64 v.toNat)
      (s.ring.unreported < t → exec (.completionThresholdWrite v) s
        = .next { s with ring := { s.ring with threshold := t } })
      ∧ (t ≤ s.ring.unreported → exec (.completionThresholdWrite v) s = .next { s with
          ring := { s.ring with
            threshold := t, pendingFlag := true, unreported := 0, holdTimer := .stopped } }))
    ∧ exec (.completionHoldTimeWrite v) s
        = .next { s with ring := { s.ring with holdTime := max 1 (min 1000 v.toNat) } }
    ∧ exec (.attentionMaskWrite v) s = .next { s with mask := v.extractLsb' 0 5 }
    ∧ (v.getLsbD 0 = true → exec (.interruptAcknowledge v) s
        = .next { s with ring := { s.ring with pendingFlag := false } })
    ∧ (v.getLsbD 0 = false → exec (.interruptAcknowledge v) s = .next s)
    ∧ (v.toNat < s.ring.completion.size → exec (.completionReadPointerWrite v) s = .next { s with
        ring := { s.ring with completion := { s.ring.completion with read := v.toNat } } })
    ∧ (s.ring.completion.size ≤ v.toNat → exec (.completionReadPointerWrite v) s = .next s)
    ∧ (s.ring.request.size ≤ v.toNat → exec (.requestWritePointerWrite v) s = .next s))
  ∧ ((windowRegs.map fun r => (r.offset, r.bytes)) = [(0x00, 8), (0x08, 4), (0x0C, 4), (0x10, 4), (0x18, 8),
      (0x20, 4), (0x24, 4), (0x28, 4), (0x2C, 4), (0x30, 4), (0x34, 4), (0x38, 4), (0x3C, 4), (0x40, 4)]
  ∧ (∀ s : State, let reads (o n v : Nat) : Prop := s.readWindow o = some (leBytes n v)
    reads 0x00 8 s.ring.request.base.toNat ∧ reads 0x08 4 s.ring.request.size
    ∧ reads 0x0C 4 s.ring.request.write ∧ reads 0x10 4 s.ring.request.read
    ∧ reads 0x18 8 s.ring.completion.base.toNat ∧ reads 0x20 4 s.ring.completion.size
    ∧ reads 0x24 4 s.ring.completion.write ∧ reads 0x28 4 s.ring.completion.read
    ∧ reads 0x2C 4 (if s.ring.enable = true then 1 else 0) ∧ reads 0x30 4 s.ring.threshold
    ∧ reads 0x34 4 s.ring.holdTime ∧ reads 0x38 4 s.mask.toNat ∧ s.readWindow 0x3C = none
    ∧ reads 0x40 4 s.statusWord.toNat
    ∧ ∀ o, (∀ r ∈ windowRegs, r.offset ≠ o) → s.readWindow o = none)
  ∧ (∀ v : Addr, let low : Word := v.setWidth 32
    let writes (o : Nat) (i : Option Instr) : Prop := (windowRegAt o).bind (WindowReg.write v) = i
    writes 0x00 (some (.ringBaseWrite .request v)) ∧ writes 0x08 (some (.ringSizeWrite .request low))
    ∧ writes 0x0C (some (.requestWritePointerWrite low)) ∧ writes 0x10 none
    ∧ writes 0x18 (some (.ringBaseWrite .completion v)) ∧ writes 0x20 (some (.ringSizeWrite .completion low))
    ∧ writes 0x24 none ∧ writes 0x28 (some (.completionReadPointerWrite low))
    ∧ (v.getLsbD 1 = true → writes 0x2C (some .ringReset))
    ∧ (v.getLsbD 1 = false → v.getLsbD 0 = true → writes 0x2C (some .ringEnable))
    ∧ (v.getLsbD 1 = false → v.getLsbD 0 = false → writes 0x2C (some .ringDisable))
    ∧ writes 0x30 (some (.completionThresholdWrite low)) ∧ writes 0x34 (some (.completionHoldTimeWrite low))
    ∧ writes 0x38 (some (.attentionMaskWrite low)) ∧ writes 0x3C (some (.interruptAcknowledge low))
    ∧ writes 0x40 none)
  ∧ ∀ r, State.reset.windowValue r = match r with
    | .threshold => some 1
    | .holdTime => some 10
    | .acknowledge => none
    | _ => some 0)
  ∧ (∀ s : State,
    let waiting := (s.ring.request.write + s.ring.request.size - s.ring.request.read) % s.ring.request.size
    (s.ring.state = .stopped → s.ring.request.Usable → s.ring.completion.Usable →
      exec .ringEnable s = .next { s with
        ring := { s.ring with
          state := .running, enable := true
          burst := if s.ring.burst = none ∧ s.ring.buffer.length ≤ 3 ∧ 0 < waiting
            then some ⟨(List.range (min (12 - s.ring.buffer.length) waiting)).map fun k =>
              (s.ring.request.read + k) % s.ring.request.size⟩
            else s.ring.burst } })
    ∧ ((s.ring.state ≠ .stopped ∨ ¬ s.ring.request.Usable ∨ ¬ s.ring.completion.Usable) →
        exec .ringEnable s = .next s)
    ∧ (s.ring.state = .running → exec .ringDisable s
        = .next { s with ring := { s.ring with state := .stopped, enable := false } })
    ∧ (s.ring.state ≠ .running → exec .ringDisable s = .next s)
    ∧ exec .ringReset s = .next { s with
        ring := { s.ring with
          state := .stopped, enable := false, buffer := [], burst := none, writing := none
          request := { s.ring.request with write := 0, read := 0 }
          completion := { s.ring.completion with write := 0, read := 0 }
          unreported := 0, holdTimer := .stopped, pendingFlag := false } }
    ∧ s.statusWord.toNat =
        (match s.ring.state with | .stopped => 0 | .running => 1 | .fetchError => 2)
        + (if s.clock.mode = .set then 4 else 0) + (if s.engine.running = true then 8 else 0)
        + (if s.protection.latch = true then 16 else 0)
        + (match s.supervision.state with | .supervised => 0 | .lapsed => 32 | .fallback => 64)
        + (if s.ring.pendingFlag = true then 128 else 0))

/-- Fetch bursts. A burst starts when the rings are RUNNING, none is in flight, the buffer holds 3 or fewer
and the request ring is not empty: one read of n consecutive entries from the read pointer onwards, wrapping
at the ring's end, with n the lesser of 12 less the buffer and the waiting requests; at its end the requests
are appended and the read pointer advances, and a further burst can start; an error drops the burst, makes
FETCH_ERROR and sets RING_ERROR. The model's choices: the enable bit stays set in FETCH_ERROR (log 17), a
pointer does not wrap at a size of 0 (log 42), a burst of another length is none that is in flight (log 23),
the end or the error of a burst when none is in flight changes nothing (log 1), and a burst of 0 or of more
than 12 requests spells no event and faults (log 19). Completion writes and the interrupt count. A write
that is done advances the completion write pointer and raises the count, the first one starting the hold
timer; at the threshold, or at the hold timer's expiry, the completion-pending flag is set, the count
becomes 0 and the timer stops. A write error advances nothing, makes FETCH_ERROR with the enable bit kept
(log 17) and sets RING_ERROR. With no write in flight, and with a stopped hold timer, nothing changes (log
1). -/
def Obligations.BurstsAndCompletionWrites : Prop :=
  (∀ (v : Word) (rs : List Request) (s : State),
    let starts (r : Ring) (b : Option FetchBurst) : Prop :=
      let waiting := (r.request.write + r.request.size - r.request.read) % r.request.size
      (r.state = .running → r.burst = none → r.buffer.length ≤ 3 → 0 < waiting →
        b = some ⟨(List.range (min (12 - r.buffer.length) waiting)).map fun k =>
          (r.request.read + k) % r.request.size⟩)
      ∧ ((r.state ≠ .running ∨ r.burst ≠ none ∨ 3 < r.buffer.length ∨ waiting = 0) → b = r.burst)
    let inFlight (n : Nat) : Prop := ∃ b, s.ring.burst = some b ∧ b.entries.length = n
    (v.toNat < s.ring.request.size → ∃ b : Option FetchBurst,
      let r := { s.ring with request := { s.ring.request with write := v.toNat } }
      exec (.requestWritePointerWrite v) s = .next { s with ring := { r with burst := b } }
      ∧ starts r b)
    ∧ (burstOk rs = true → inFlight rs.length → ∃ b : Option FetchBurst,
      let r := { s.ring with
        buffer := s.ring.buffer ++ rs, burst := none
        request := { s.ring.request with
          read := (s.ring.request.read + rs.length) % s.ring.request.size } }
      exec (.fetchBurstEnd rs) s = .next { s with ring := { r with burst := b } } ∧ starts r b)
    ∧ (burstOk rs = true → ¬ inFlight rs.length → exec (.fetchBurstEnd rs) s = .next s)
    ∧ (burstOk rs = false → exec (.fetchBurstEnd rs) s = .fault .illFormed)
    ∧ (s.ring.burst ≠ none → exec .fetchError s = .next { s with
        ring := { s.ring with burst := none, state := .fetchError }
        siteFlags := s.siteFlags ||| SiteFlag.ringError })
    ∧ (s.ring.burst = none → exec .fetchError s = .next s))
  ∧ (∀ s : State,
    (s.ring.writing = none → exec .completionWriteDone s = .next s ∧ exec .completionWriteError s = .next s)
    ∧ (s.ring.writing ≠ none →
      let r := { s.ring with
        writing := none
        completion := { s.ring.completion with
          write := (s.ring.completion.write + 1) % s.ring.completion.size } }
      (s.ring.unreported + 1 < s.ring.threshold → exec .completionWriteDone s = .next { s with
        ring := { r with
          unreported := s.ring.unreported + 1
          holdTimer := if s.ring.unreported = 0 then .running s.ring.holdTime 0
            else s.ring.holdTimer } })
      ∧ (s.ring.threshold ≤ s.ring.unreported + 1 → exec .completionWriteDone s = .next { s with
        ring := { r with pendingFlag := true, unreported := 0, holdTimer := .stopped } })
      ∧ exec .completionWriteError s = .next { s with
        ring := { s.ring with writing := none, state := .fetchError }
        siteFlags := s.siteFlags ||| SiteFlag.ringError })
    ∧ (s.ring.holdTimer ≠ .stopped → exec .holdTimerExpiry s = .next { s with
        ring := { s.ring with pendingFlag := true, unreported := 0, holdTimer := .stopped } })
    ∧ (s.ring.holdTimer = .stopped → exec .holdTimerExpiry s = .next s)
    ∧ s.completionIrq = s.ring.pendingFlag)

/-- ATTENTION_CLEAR by its checks: a category, a slot or a flag outside its range refuses, a free slot draws
NOT_FOUND, and otherwise the named flags of the one record become clear and the rest is its result; the
port's GLITCH goes with both glitch records. The numbers 0 to 4 of the categories, and so the refusal above 4,
are the model's (log 6). -/
def Obligations.AttentionClearClearsNamedFlags : Prop :=
  ∀ (h : ReqHeader) (c : Byte) (f : Word) (s : State), s.takes ⟨h, .attentionClear c f⟩ = true →
    let slot := h.key.toNat
    let answers (u : State) (st : Status) (r : Result) : Prop :=
      exec (.attentionClear h c f) s = .next (s.answered ⟨h, .attentionClear c f⟩ u st r)
    let fits (category top flags : Nat) : Prop := c.toNat = category ∧ slot ≤ top ∧ f.toNat < 2 ^ flags
    (¬ (fits 0 0 6 ∨ fits 1 23 6 ∨ fits 2 191 10 ∨ fits 3 511 1 ∨ fits 4 15 4) →
      answers s .outOfRange .none)
    ∧ (fits 0 0 6 → let g := s.siteFlags &&& ~~~(f.setWidth 6)
        answers { s with siteFlags := g } .ok (.flags g.toNat))
    ∧ (fits 1 23 6 → ∃ (n : PortNo) (r : Port), n.val = slot
        ∧ answers { s with ports := s.ports.set n r } .ok (.flags r.flags.toNat)
        ∧ r = { s.port n with flags := r.flags, ma := r.ma, mb := r.mb }
        ∧ r.flags = (s.port n).flags &&& ~~~(f.setWidth 6)
        ∧ r.ma = { (s.port n).ma with glitch := (s.port n).ma.glitch && !f.getLsbD 3 }
        ∧ r.mb = { (s.port n).mb with glitch := (s.port n).mb.glitch && !f.getLsbD 3 })
    ∧ (fits 2 191 10 → s.bus slot = none → answers s .notFound .none)
    ∧ (∀ b, fits 2 191 10 → s.bus slot = some b → let g := b.flags &&& ~~~(f.setWidth 10)
        answers { s with buses := s.buses.put slot { b with flags := g } } .ok (.flags g.toNat))
    ∧ (fits 3 511 1 → s.plan slot = none → answers s .notFound .none)
    ∧ (∀ p, fits 3 511 1 → s.plan slot = some p → let g := p.final && !f.getLsbD 0
        answers { s with plans := s.plans.put slot { p with final := g } } .ok (.flags g.toNat))
    ∧ (fits 4 15 4 → s.commit slot = none → answers s .notFound .none)
    ∧ (∀ d, fits 4 15 4 → s.commit slot = some d → let g := d.flags &&& ~~~(f.setWidth 4)
        answers { s with commits := s.commits.put slot { d with flags := g } } .ok (.flags g.toNat))

/-- ATTENTION_SCAN: a cursor above 745 refuses; otherwise the entries are those of the positions from the
cursor up to the next cursor that hold a set flag, at most 8, and the scan stops short of 745 only with 8.
ATTENTION_IRQ is asserted exactly while a record of a masked category holds a set flag. The numbers of the
categories in the entries are the model's (log 6). -/
def Obligations.AttentionScanAndInterrupt : Prop :=
  ∀ (h : ReqHeader) (s : State),
    (s.takes ⟨h, .attentionScan⟩ = true →
      (745 < h.key.toNat → exec (.attentionScan h) s
        = .next (s.answered ⟨h, .attentionScan⟩ s .outOfRange .none))
      ∧ (h.key.toNat ≤ 745 → ∃ (cursor : Nat) (es : List ScanEntry),
        exec (.attentionScan h) s = .next (s.answered ⟨h, .attentionScan⟩ s .ok (.scan cursor es))
        ∧ h.key.toNat ≤ cursor ∧ cursor ≤ 745
        ∧ es = (List.range' h.key.toNat (cursor - h.key.toNat)).filterMap s.scanAt
        ∧ es.length ≤ 8 ∧ (es.length < 8 → cursor = 745)
        ∧ (es.length = 8 → 0 < cursor ∧ s.scanAt (cursor - 1) ≠ none)))
    ∧ (s.scanAt 0 = if s.siteFlags = 0 then none else some ⟨0, 0, s.siteFlags.toNat⟩)
    ∧ (∀ n : PortNo, s.scanAt (n.val + 1)
        = if (s.port n).flags = 0 then none else some ⟨1, n.val, (s.port n).flags.toNat⟩)
    ∧ (∀ i : BusSlot, s.scanAt (i.val + 25) = match s.bus i.val with
        | some b => if b.flags = 0 then none else some ⟨2, i.val, b.flags.toNat⟩
        | none => none)
    ∧ (∀ i : PlanSlot, s.scanAt (i.val + 217) = match s.plan i.val with
        | some p => if p.final = true then some ⟨3, i.val, 1⟩ else none
        | none => none)
    ∧ (∀ i : CommitSlot, s.scanAt (i.val + 729) = match s.commit i.val with
        | some c => if c.flags = 0 then none else some ⟨4, i.val, c.flags.toNat⟩
        | none => none)
    ∧ (s.attentionIrq = true ↔
        (s.mask.getLsbD 0 = true ∧ s.siteFlags ≠ 0)
        ∨ (s.mask.getLsbD 1 = true ∧ ∃ n : PortNo, (s.port n).flags ≠ 0)
        ∨ (s.mask.getLsbD 2 = true ∧ ∃ r ∈ s.buses.rows, r.2.flags ≠ 0)
        ∨ (s.mask.getLsbD 3 = true ∧ ∃ r ∈ s.plans.rows, r.2.final = true)
        ∨ (s.mask.getLsbD 4 = true ∧ ∃ r ∈ s.commits.rows, r.2.flags ≠ 0))

/-! ### Lookups -/

/-- SITE_LOOKUP, PORT_LOOKUP, ALLOC_LOOKUP and COMMIT_LOOKUP change no state and answer with the fields of
what they name (the numbers of selectors: log 6; an ALLOC_LOOKUP is marked absent before a computation; the
age of a report that is not held is absent: log 35). That byte 7 of COMMIT_LOOKUP's key is ignored is the
model's choice (log 39). The bytes of PORT_LOOKUP's two views: where each field of section 11.6 stands,
least significant byte first, an absent optional field 0. The fault code's byte is its position plus one
(log 31). That the bytes V2G capable and glitch record are 1 for yes or set and 0 otherwise is the model's
choice (log 43), and so are the zeros of bits that the layout does not name (log 44). -/
def Obligations.LookupsAnswerFromState : Prop :=
  (∀ (h : ReqHeader) (sel : Byte) (port : Word) (s : State),
    let answers (i : Instr) (b : ReqBody) (st : Status) (r : Result) : Prop :=
      exec i s = .next (s.answered ⟨h, b⟩ s st r)
    (s.takes ⟨h, .siteLookup sel port⟩ = true →
      let gives := answers (.siteLookup h sel port) (.siteLookup sel port)
      (sel = 0 → gives .ok (.siteParams s.site.live s.site.loadPending))
      ∧ (sel = 1 → gives .ok (.siteParams s.site.staged s.site.loadPending))
      ∧ (∀ n : PortNo, sel = 2 → port.toNat = n.val → gives .ok
          (.ratings s.site.stagedRatings[n] s.site.liveRatings[n] s.site.loadPending))
      ∧ (sel = 3 → ∃ v : TimeAndLoad, gives .ok (.timeAndLoad v)
          ∧ v.mode = s.clock.mode ∧ v.time = s.now ∧ v.day = s.clock.day ∧ v.report = s.site.report
          ∧ v.staleOpen = s.site.staleOpen ∧ v.base = s.site.lastBase
          ∧ v.age = s.site.report.map (fun r => s.now - r.time)
          ∧ (s.clock.mode = .unset → v.boundary = none)
          ∧ (s.clock.mode = .set →
              v.boundary = nextBoundary s.clock.day s.site.live.rolloverOffset))
      ∧ ((3 < sel.toNat ∨ (sel = 2 ∧ 23 < port.toNat)) → gives .outOfRange .none))
    ∧ (s.takes ⟨h, .portLookup port⟩ = true →
      let gives := answers (.portLookup h port) (.portLookup port)
      (23 < port.toNat → gives .outOfRange .none)
      ∧ (∀ n : PortNo, port.toNat = n.val → h.flags.getLsbD 1 = true →
          gives .ok (.portView (portView1 (s.port n))))
      ∧ (∀ n : PortNo, port.toNat = n.val → h.flags.getLsbD 1 = false →
          gives .ok (.portView (portView0 (s.port n) s.site.liveRatings[n] (s.boundNumber n)))))
    ∧ (s.takes ⟨h, .allocLookup sel port⟩ = true →
      let gives := answers (.allocLookup h sel port) (.allocLookup sel port)
      (sel = 0 → gives .ok (.allocSummary s.engine.running s.engine.number s.engine.summary))
      ∧ (∀ n : PortNo, sel = 1 → port.toNat = n.val → s.engine.summary = none →
          gives .ok (.allocPort none))
      ∧ (∀ n : PortNo, sel = 1 → port.toNat = n.val → s.engine.summary ≠ none →
          gives .ok (.allocPort (some (s.engine.ports[n], (s.port n).residue))))
      ∧ ((1 < sel.toNat ∨ (sel = 1 ∧ 23 < port.toNat)) → gives .outOfRange .none))
    ∧ (s.takes ⟨h, .commitLookup⟩ = true →
      let gives := answers (.commitLookup h) .commitLookup
      let slot := (h.key.extractLsb' 0 16).toNat
      let gen := (h.key.extractLsb' 16 8).toNat
      (15 < slot → gives .outOfRange .none)
      ∧ (slot ≤ 15 → (s.commit slot = none ∨ ∃ c, s.commit slot = some c ∧ c.generation ≠ gen) →
          gives .staleId .none)
      ∧ ∀ c, slot ≤ 15 → s.commit slot = some c → c.generation = gen →
        (h.flags.getLsbD 1 = false → gives .ok (.commitView0
          ⟨⟨slot, gen⟩, c.windowStart, c.windowEnd, c.armPoint, c.target, c.tolerance, c.state, c.phase,
            c.headroom, c.headroomLow, c.outcome, c.endTime, c.flags, s.dispatch.filtered,
            s.activeCommit.map Prod.fst⟩))
        ∧ (h.flags.getLsbD 1 = true → gives .ok (.commitView1
          ⟨⟨slot, gen⟩, c.source, c.baseline, c.baseline.map (fun bl => bl - (c.target : Int)), c.activation,
            c.periods, c.shortPeriods, c.relief, c.delivered, c.carry⟩))))
  ∧ (∀ (p : Port) (r : Ratings) (number : Nat),
    let v0 := portView0 p r number
    let v1 := portView1 p
    let in0 (o n v : Nat) : Prop := (v0.drop o).take n = leBytes n v
    let in1 (o n v : Nat) : Prop := (v1.drop o).take n = leBytes n v
    let bit (b : Bool) : Nat := if b then 1 else 0
    let dir (d : Dir) : Nat := match d with | .imp => 0 | .exp => 1 | .none => 2
    let level (l : Level) : Nat := match l with | .low => 0 | .high => 1
    v0.length = 47 ∧ v1.length = 53
    ∧ in0 0 1 p.number.val
    ∧ in0 1 1 (match p.state with
        | .offline => 0 | .vacant => 1 | .detecting => 2 | .identifying => 3 | .connected => 4
        | .energizing => 5 | .energized => 6 | .closing => 7 | .held => 8 | .faulted => 9)
    ∧ (p.pendingTarget = none → in0 2 1 0) ∧ (p.pendingTarget = some .offline → in0 2 1 1)
    ∧ (p.pendingTarget = some .reidentify → in0 2 1 2)
    ∧ (p.lastTransition = none → in0 3 1 0 ∧ in0 4 1 0 ∧ in0 5 4 0)
    ∧ (∀ x, p.lastTransition = some x →
        in0 3 1 (match x.target with | .offline => 1 | .vacant => 2 | .reidentify => 3)
        ∧ in0 4 1 (match x.outcome with | .reached => 0 | .dropped => 1 | .cancelled => 2) ∧ in0 5 4 x.time)
    ∧ in0 9 3 r.imp ∧ in0 12 2 r.exp ∧ in0 14 1 p.energyPerCount ∧ in0 15 1 p.filterThreshold
    ∧ in0 16 1 (match p.taken with | .none => 0 | .plugged => 1 | .ready => 2 | .fault => 3)
    ∧ in0 17 3 p.held.mag ∧ in0 20 1 (dir p.held.dir) ∧ in0 21 3 p.live.mag ∧ in0 24 1 (dir p.live.dir)
    ∧ in0 25 1 (dir p.lastDir) ∧ in0 26 4 (p.zeroSince.getD 0) ∧ in0 30 1 (p.residue % 256).toNat
    ∧ in0 31 1 (match p.command with | .opened => 0 | .closed => 1)
    ∧ in0 32 1 (match p.feedback with | .opened => 0 | .closed => 1)
    ∧ in0 33 1 (match p.faultCode with
        | none => 0 | some .failClose => 1 | some .drop => 2 | some .weld => 3 | some .meterDirection => 4)
    ∧ in0 34 1 p.flags.toNat
    ∧ in0 35 1 (match p.session.map Session.binding with
        | none => 0 | some (.bound _) => 1 | some (.unidentified .noAnswer) => 2
        | some (.unidentified .unknownBus) => 3 | some (.unidentified .duplicateBus) => 4)
    ∧ in0 36 2 number ∧ in0 38 4 ((p.session.map Session.start).getD 0)
    ∧ in0 42 3 ((p.session.map Session.importCap).getD 0) ∧ in0 45 2 ((p.session.map Session.exportCap).getD 0)
    ∧ in1 0 1 p.number.val
    ∧ in1 1 1 (bit (p.session.bind Session.announced).isSome + 2 * bit p.claimed.isSome
        + 4 * bit p.lastFault.isSome + 8 * bit p.lastApplied.isSome + 16 * bit p.zeroSince.isSome)
    ∧ in1 2 4 p.sessionImport ∧ in1 6 4 p.sessionExport
    ∧ (∀ a, p.session.bind Session.announced = some a →
        in1 10 4 a.maxImport ∧ in1 14 4 a.maxExport ∧ in1 18 1 (bit a.v2g))
    ∧ (p.session.bind Session.announced = none → in1 10 4 0 ∧ in1 14 4 0 ∧ in1 18 1 0)
    ∧ (p.session ≠ none → in1 19 1 2) ∧ (p.session = none → p.state = .identifying → in1 19 1 1)
    ∧ (p.session = none → p.state ≠ .identifying → in1 19 1 0)
    ∧ in1 20 1 p.attempts ∧ in1 21 2 p.checkErrors ∧ in1 23 2 p.discards ∧ in1 25 2 (p.claimed.getD 0)
    ∧ (∀ x, p.lastFault = some x → in1 27 1 x.code ∧ in1 28 4 x.time)
    ∧ (p.lastFault = none → in1 27 1 0 ∧ in1 28 4 0)
    ∧ in1 32 1 p.wrongRun ∧ in1 33 2 p.stray ∧ in1 35 2 p.idle
    ∧ in1 37 1 (bit p.ma.glitch) ∧ in1 38 1 (bit p.mb.glitch)
    ∧ in1 39 1 (level p.ma.output) ∧ in1 40 1 p.ma.counter ∧ in1 41 1 (level p.mb.output) ∧ in1 42 1 p.mb.counter
    ∧ (∀ x, p.lastApplied = some x → in1 43 1 (dir x.dir) ∧ in1 44 4 x.time)
    ∧ (p.lastApplied = none → in1 43 1 0 ∧ in1 44 4 0)
    ∧ (p.stall = .stopped → in1 48 1 0 ∧ in1 49 2 0 ∧ in1 51 2 0)
    ∧ ∀ l e, p.stall = .running l e → in1 48 1 1 ∧ in1 49 2 (l / 1000) ∧ in1 51 2 (e / 1000))

/-! ### Encodings -/

/-- A message that is sent as R92 and R93 lay it out is received as it was sent, ENQUIRE as an unknown
type, and a message with any one byte after its type changed fails its check. -/
def Obligations.MessagesAreReceivedAsSent : Prop :=
  (∀ m : Announce, receive (Message.announce m).bytes = .message (.announce m))
  ∧ (∀ i e : Word, receive (Message.limit i e).bytes = .message (.limit i e))
  ∧ (∀ c : Byte, receive (Message.faultReport c).bytes = .message (.faultReport c))
  ∧ (∀ (p : Byte) (d : Half) (v : Byte), receive (Message.enquire p d v).bytes = .unknownType)
  ∧ ∀ (m : Message) (k : Nat) (b : Byte), (∀ p d v, m ≠ .enquire p d v) → 0 < k → k < m.bytes.length →
      m.bytes[k]? ≠ some b → receive (m.bytes.set k b) = .checkError

/-- A stored step, given in PLAN_LOOKUP's 14 bytes and read back as a PLAN_SUBMIT step, is the same step:
every kind, target within the capacity, cap of 100 W to 150,000 W in units of 100 W, and pair of times. The
request record: tag in bytes 0 and 1, kind in byte 2, flags in byte 3, key in bytes 4 to 7 and payload from
byte 8, PLAN_SUBMIT's steps at bytes 8, 22, 36 and 50. A record's 64 bytes and its fields give each other,
and a record of a kind without payload, of PLAN_SUBMIT or of an unknown kind spells its request; the fields
of the other kinds have no layout (log 5). The completion header stands in bytes 0 to 9. An enumerated field
of a result holds its value's place in the list where the chapter first gives it, counting from 0; an absent
field holds no number. Which list that is, is the model's reading (log 6). -/
def Obligations.RecordsReadBack : Prop :=
  (∀ (st : PlanStep) (capacity : Nat), st.value < 2 ^ 32 →
    (st.kind = .importTo → st.value ≤ capacity) → st.cap % 100 = 0 → 100 ≤ st.cap → st.cap ≤ 150000 →
    (∀ t, st.notBefore = some t → t < 2 ^ 32) → (∀ t, st.endBy = some t → t < 2 ^ 32) →
    st.bytes.length = 14 ∧ (rawStepOfBytes st.bytes).store capacity = some st)
  ∧ ((∀ r : RequestRecord, r.payload.length = 56 → r.bytes.length = 64 ∧ requestRecordOfBytes r.bytes = r)
  ∧ (∀ bs : List Byte, bs.length = 64 →
    let r := requestRecordOfBytes bs
    let field (o n : Nat) : List Byte := (bs.drop o).take n
    let hdr : ReqHeader := ⟨r.tag, r.flags, r.key⟩
    let step (o : Nat) : RawStep := rawStepOfBytes (field o 14)
    r.bytes = bs ∧ field 0 2 = leBytes 2 r.tag.toNat ∧ field 2 1 = [r.kind] ∧ field 3 1 = [r.flags]
    ∧ field 4 4 = leBytes 4 r.key.toNat ∧ field 8 56 = r.payload
    ∧ (r.kind = 13 →
        requestOfBytes bs = some ⟨hdr, .planSubmit (step 8) (step 22) (step 36) (step 50)⟩)
    ∧ (∀ o ∈ [8, 22, 36, 50], field o 2 = leBytes 2 (step o).head.toNat
        ∧ field (o + 2) 4 = leBytes 4 (step o).value.toNat
        ∧ field (o + 6) 4 = leBytes 4 (step o).notBefore.toNat
        ∧ field (o + 10) 4 = leBytes 4 (step o).endBy.toNat)
    ∧ ((r.kind = 0 ∨ 33 < r.kind.toNat) → requestOfBytes bs = some ⟨hdr, .unknownKind r.kind⟩)
    ∧ ∀ b ∈ [ReqBody.busRetire, .busLookup, .busPlans, .busUnblock, .departureClear, .planCancel, .planRetire,
        .planLookup, .allocStart, .allocStop, .commitWithdraw, .commitDispatch, .commitRelease, .commitLookup,
        .commitRetire, .clearTrip, .keepalive, .attentionScan],
      r.kind = b.kind → requestOfBytes bs = some ⟨hdr, b⟩)
  ∧ ∀ c : Completion, c.header.length = 10 ∧ c.header.take 2 = leBytes 2 c.tag.toNat
    ∧ (c.header.drop 2).take 1 = [c.kind] ∧ (c.header.drop 4).take 2 = leBytes 2 c.status.code
    ∧ (c.header.drop 6).take 4 = leBytes 4 c.time
    ∧ ∀ bs, c.result = .busView bs ∨ c.result = .portView bs →
        (c.header.drop 3).take 1 = [BitVec.ofNat 8 bs.length])
  ∧ (([ClockMode.unset, .set].map ClockMode.code = [0, 1]
    ∧ [DepState.pending, .overdue, .taken none].map DepState.position = [0, 1, 2]
    ∧ [PlanClass.priority, .standard].map PlanClass.code = [0, 1]
    ∧ [StepKind.importTo, .exportTo, .holdUntil].map StepKind.code = [0, 1, 2]
    ∧ [StepCond.timedWait, .soeWait, .active].map StepCond.code = [0, 1, 2]
    ∧ [PlanState.queued, .running, .paused, .done, .stopped, .cancelled, .returned].map PlanState.code
        = [0, 1, 2, 3, 4, 5, 6]
    ∧ [PlanOutcome.complete, .deadline, .busFault, .cancelled, .busBlocked].map PlanOutcome.code = [0, 1, 2, 3, 4]
    ∧ [PortTarget.offline, .reidentify].map PortTarget.pendingPosition = [some 0, some 1]
    ∧ [SplitTier.b, .c, .none].map SplitTier.code = [0, 1, 2]
    ∧ [CommitState.pending, .armed, .active, .met, .shortfall, .interrupted, .notDispatched, .withdrawn].map
        CommitState.code = [0, 1, 2, 3, 4, 5, 6, 7]
    ∧ [CommitState.met, .shortfall, .interrupted, .notDispatched, .withdrawn].map CommitState.outcomeCode
        = [some 0, some 1, some 2, some 3, some 4]
    ∧ [WindowPhase.ahead, .opened].map WindowPhase.code = [0, 1]
    ∧ [DispatchSource.request, .line].map DispatchSource.code = [0, 1]
    ∧ [SupState.supervised, .lapsed, .fallback].map SupState.code = [0, 1, 2])
  ∧ (∀ v : TimeAndLoad, (Result.timeAndLoad v).numbers = [v.mode.code])
  ∧ (∀ (i n : Nat) (e : Option Nat) (c : SoeSource), (Result.enrolled i n e c).numbers = [c.code])
  ∧ (∀ (n a b c : Nat) (y : Bool) (f x : Nat) (e : Option Nat) (k : SoeSource),
      (Result.busFields n a b c y f x e k).numbers = [k.code])
  ∧ (∀ (n m : Nat) (i : SlotId) (c : PlanClass) (st : PlanState) (rest : List (SlotId × PlanClass × PlanState)),
      (Result.planLists n m []).numbers = []
      ∧ (Result.planLists n m ((i, c, st) :: rest)).numbers
          = c.code :: st.code :: (Result.planLists n m rest).numbers)
  ∧ (∀ (i t e : Nat) (y : Bool) (r : Readiness) (k : Option Int), (Result.departure i t e y r k).numbers = [r.code])
  ∧ (∀ d : DepState, (Result.departureCleared (some d)).numbers = [d.position]
      ∧ (Result.departureCleared none).numbers = [])
  ∧ (∀ (i : SlotId) (st : PlanState) (p : Option Nat) (l : List (Nat × Nat)),
      (Result.submitted i st p l).numbers = [st.code])
  ∧ (∀ (i : SlotId) (st : PlanState) (o : PlanOutcome) (t : Option Nat) (a b : Nat),
      (Result.planEnded i st (some o) t a b).numbers = [st.code, o.code]
      ∧ (Result.planEnded i st none t a b).numbers = [st.code])
  ∧ (∀ (v : PlanView) (c : StepCond) (o : PlanOutcome),
      (v.cond = some c → v.outcome = none → (Result.planView v).numbers = [v.cls.code, c.code, v.state.code])
      ∧ (v.cond = none → v.outcome = some o → (Result.planView v).numbers = [v.cls.code, v.state.code, o.code])
      ∧ (v.cond = none → v.outcome = none → (Result.planView v).numbers = [v.cls.code, v.state.code]))
  ∧ (∀ st : PortState, (Result.portMoved st none).numbers = [st.code] ∧ (Result.portState st).numbers = [st.code]
      ∧ (Result.portMoved st (some .offline)).numbers = [st.code, 0]
      ∧ (Result.portMoved st (some .reidentify)).numbers = [st.code, 1])
  ∧ (∀ (run : Bool) (n : Nat) (m : Summary),
      (Result.allocSummary run n none).numbers = [if run then 1 else 0]
      ∧ (Result.allocSummary run n (some m)).numbers = [if run then 1 else 0, m.supervision.code])
  ∧ (∀ (r : PortResult) (k : Int),
      (Result.allocPort (some (r, k))).numbers = [r.split.code, r.published.dir.code]
      ∧ (Result.allocPort none).numbers = [])
  ∧ (∀ (i : SlotId) (st : CommitState) (ph : WindowPhase) (a : Nat),
      (Result.offered i st ph a).numbers = [st.code, ph.code])
  ∧ (∀ (o : CommitState) (k p q d : Nat), o.outcomeCode = some k → (Result.released o p q d).numbers = [k])
  ∧ (∀ (v : CommitView0) (o : CommitState) (k : Nat),
      let level := if v.lineLevel then 0 else 1
      (v.outcome = none → (Result.commitView0 v).numbers = [v.state.code, v.phase.code, level])
      ∧ (v.outcome = some o → o.outcomeCode = some k →
          (Result.commitView0 v).numbers = [v.state.code, v.phase.code, k, level]))
  ∧ (∀ (v : CommitView1) (x : DispatchSource),
      (v.source = none → (Result.commitView1 v).numbers = [])
      ∧ (v.source = some x → (Result.commitView1 v).numbers = [x.code]))
  ∧ (∀ n : Nat, (Result.tripCleared true n).numbers = [0] ∧ (Result.tripCleared false n).numbers = [1])
  ∧ (∀ (a b : SupState) (l : Option Nat), (Result.supervision a b l).numbers = [a.code, b.code])
  ∧ ∀ (n : Nat) (l : List ScanEntry), (Result.scan n l).numbers = l.map ScanEntry.category)

/-! ### Invariants of every step -/

/-- Every invariant below holds of the state after power-on. -/
def Obligations.ResetMeetsTheInvariants : Prop :=
  State.reset.TablesOk ∧ State.reset.PortsOk ∧ State.reset.Agrees ∧ State.reset.ring.Ok
  ∧ State.reset.Ahead ∧ State.reset.OneActive ∧ State.reset.ListsAgree ∧ State.reset.PowersOk

/-- Every step keeps the tables in their canonical form, within their slots and with no bus number twice.
Every step keeps lists and plans in agreement: every slot in a bus's priority or standard list holds a
listed plan of that bus and class, in one place alone, 8 at most, and at most one of them RUNNING. Every
step keeps every registration later than depot time, and at most one commitment ACTIVE. -/
def Obligations.StepsKeepTablesAndRegistrations : Prop :=
  (∀ s t : State, s.TablesOk → step s = .next t → t.TablesOk)
  ∧ (∀ s t : State, s.TablesOk → s.ListsAgree → step s = .next t → t.ListsAgree)
  ∧ (∀ s t : State, s.TablesOk → s.Ahead → s.OneActive → step s = .next t → t.Ahead ∧ t.OneActive)

/-- Every step keeps every port record one that the part can hold: session, setpoint, pending target and
fault code fit its state, each timer runs in its own state alone, and every quantity is in its range. Every
step keeps the powers in their ranges: ratings and held setpoints in multiples of 100 W up to 150,000 W of
frame counts up to 65,535. Every step keeps locations and bound sessions in agreement with each other. -/
def Obligations.StepsKeepPortsAndLocations : Prop :=
  (∀ s t : State, s.TablesOk → s.PortsOk → step s = .next t → t.PortsOk)
  ∧ (∀ s t : State, s.TablesOk → s.PortsOk → s.Agrees → s.PowersOk → step s = .next t → t.PowersOk)
  ∧ (∀ s t : State, s.TablesOk → s.PortsOk → s.Agrees → step s = .next t → t.Agrees)

/-- Every step keeps the Ring Interface consistent: at most 12 requests in the buffer and the burst in
flight, RUNNING only with the enable bit and usable rings, pointers below their sizes, the count below the
threshold, and the hold timer running exactly while the count is above 0. -/
def Obligations.StepsKeepRings : Prop :=
  ∀ s t : State, s.ring.Ok → step s = .next t → t.ring.Ok
end

