-- ==== Sys2Proof/Laws/State.lean ====
section
/-! SUPPORT. What each named update of the state leaves alone: one lemma per field per update. -/

namespace Sys2Proof.Machine

open Sys2Proof

/-! ### State.modRing -/

@[simp] theorem modRing_clock (s : State) (f : Ring → Ring) : (s.modRing f).clock = s.clock := rfl
@[simp] theorem modRing_site (s : State) (f : Ring → Ring) : (s.modRing f).site = s.site := rfl
@[simp] theorem modRing_siteFlags (s : State) (f : Ring → Ring) : (s.modRing f).siteFlags = s.siteFlags := rfl
@[simp] theorem modRing_buses (s : State) (f : Ring → Ring) : (s.modRing f).buses = s.buses := rfl
@[simp] theorem modRing_plans (s : State) (f : Ring → Ring) : (s.modRing f).plans = s.plans := rfl
@[simp] theorem modRing_planGens (s : State) (f : Ring → Ring) : (s.modRing f).planGens = s.planGens := rfl
@[simp] theorem modRing_ports (s : State) (f : Ring → Ring) : (s.modRing f).ports = s.ports := rfl
@[simp] theorem modRing_engine (s : State) (f : Ring → Ring) : (s.modRing f).engine = s.engine := rfl
@[simp] theorem modRing_commits (s : State) (f : Ring → Ring) : (s.modRing f).commits = s.commits := rfl
@[simp] theorem modRing_commitGens (s : State) (f : Ring → Ring) : (s.modRing f).commitGens = s.commitGens := rfl
@[simp] theorem modRing_dispatch (s : State) (f : Ring → Ring) : (s.modRing f).dispatch = s.dispatch := rfl
@[simp] theorem modRing_protection (s : State) (f : Ring → Ring) : (s.modRing f).protection = s.protection := rfl
@[simp] theorem modRing_supervision (s : State) (f : Ring → Ring) : (s.modRing f).supervision = s.supervision := rfl
@[simp] theorem modRing_ring (s : State) (f : Ring → Ring) : (s.modRing f).ring = f s.ring := rfl
@[simp] theorem modRing_mask (s : State) (f : Ring → Ring) : (s.modRing f).mask = s.mask := rfl
@[simp] theorem modRing_pending (s : State) (f : Ring → Ring) : (s.modRing f).pending = s.pending := rfl

/-! ### State.raiseSite -/

@[simp] theorem raiseSite_clock (s : State) (f : BitVec 6) : (s.raiseSite f).clock = s.clock := rfl
@[simp] theorem raiseSite_site (s : State) (f : BitVec 6) : (s.raiseSite f).site = s.site := rfl
@[simp] theorem raiseSite_siteFlags (s : State) (f : BitVec 6) : (s.raiseSite f).siteFlags = s.siteFlags ||| f := rfl
@[simp] theorem raiseSite_buses (s : State) (f : BitVec 6) : (s.raiseSite f).buses = s.buses := rfl
@[simp] theorem raiseSite_plans (s : State) (f : BitVec 6) : (s.raiseSite f).plans = s.plans := rfl
@[simp] theorem raiseSite_planGens (s : State) (f : BitVec 6) : (s.raiseSite f).planGens = s.planGens := rfl
@[simp] theorem raiseSite_ports (s : State) (f : BitVec 6) : (s.raiseSite f).ports = s.ports := rfl
@[simp] theorem raiseSite_engine (s : State) (f : BitVec 6) : (s.raiseSite f).engine = s.engine := rfl
@[simp] theorem raiseSite_commits (s : State) (f : BitVec 6) : (s.raiseSite f).commits = s.commits := rfl
@[simp] theorem raiseSite_commitGens (s : State) (f : BitVec 6) : (s.raiseSite f).commitGens = s.commitGens := rfl
@[simp] theorem raiseSite_dispatch (s : State) (f : BitVec 6) : (s.raiseSite f).dispatch = s.dispatch := rfl
@[simp] theorem raiseSite_protection (s : State) (f : BitVec 6) : (s.raiseSite f).protection = s.protection := rfl
@[simp] theorem raiseSite_supervision (s : State) (f : BitVec 6) : (s.raiseSite f).supervision = s.supervision := rfl
@[simp] theorem raiseSite_ring (s : State) (f : BitVec 6) : (s.raiseSite f).ring = s.ring := rfl
@[simp] theorem raiseSite_mask (s : State) (f : BitVec 6) : (s.raiseSite f).mask = s.mask := rfl
@[simp] theorem raiseSite_pending (s : State) (f : BitVec 6) : (s.raiseSite f).pending = s.pending := rfl

/-! ### State.putBus -/

@[simp] theorem putBus_clock (s : State) (i : Nat) (b : Bus) : (s.putBus i b).clock = s.clock := rfl
@[simp] theorem putBus_site (s : State) (i : Nat) (b : Bus) : (s.putBus i b).site = s.site := rfl
@[simp] theorem putBus_siteFlags (s : State) (i : Nat) (b : Bus) : (s.putBus i b).siteFlags = s.siteFlags := rfl
@[simp] theorem putBus_buses (s : State) (i : Nat) (b : Bus) : (s.putBus i b).buses = s.buses.put i b := rfl
@[simp] theorem putBus_plans (s : State) (i : Nat) (b : Bus) : (s.putBus i b).plans = s.plans := rfl
@[simp] theorem putBus_planGens (s : State) (i : Nat) (b : Bus) : (s.putBus i b).planGens = s.planGens := rfl
@[simp] theorem putBus_ports (s : State) (i : Nat) (b : Bus) : (s.putBus i b).ports = s.ports := rfl
@[simp] theorem putBus_engine (s : State) (i : Nat) (b : Bus) : (s.putBus i b).engine = s.engine := rfl
@[simp] theorem putBus_commits (s : State) (i : Nat) (b : Bus) : (s.putBus i b).commits = s.commits := rfl
@[simp] theorem putBus_commitGens (s : State) (i : Nat) (b : Bus) : (s.putBus i b).commitGens = s.commitGens := rfl
@[simp] theorem putBus_dispatch (s : State) (i : Nat) (b : Bus) : (s.putBus i b).dispatch = s.dispatch := rfl
@[simp] theorem putBus_protection (s : State) (i : Nat) (b : Bus) : (s.putBus i b).protection = s.protection := rfl
@[simp] theorem putBus_supervision (s : State) (i : Nat) (b : Bus) : (s.putBus i b).supervision = s.supervision := rfl
@[simp] theorem putBus_ring (s : State) (i : Nat) (b : Bus) : (s.putBus i b).ring = s.ring := rfl
@[simp] theorem putBus_mask (s : State) (i : Nat) (b : Bus) : (s.putBus i b).mask = s.mask := rfl
@[simp] theorem putBus_pending (s : State) (i : Nat) (b : Bus) : (s.putBus i b).pending = s.pending := rfl

/-! ### State.putPlan -/

@[simp] theorem putPlan_clock (s : State) (i : Nat) (p : Plan) : (s.putPlan i p).clock = s.clock := rfl
@[simp] theorem putPlan_site (s : State) (i : Nat) (p : Plan) : (s.putPlan i p).site = s.site := rfl
@[simp] theorem putPlan_siteFlags (s : State) (i : Nat) (p : Plan) : (s.putPlan i p).siteFlags = s.siteFlags := rfl
@[simp] theorem putPlan_buses (s : State) (i : Nat) (p : Plan) : (s.putPlan i p).buses = s.buses := rfl
@[simp] theorem putPlan_plans (s : State) (i : Nat) (p : Plan) : (s.putPlan i p).plans = s.plans.put i p := rfl
@[simp] theorem putPlan_planGens (s : State) (i : Nat) (p : Plan) : (s.putPlan i p).planGens = s.planGens := rfl
@[simp] theorem putPlan_ports (s : State) (i : Nat) (p : Plan) : (s.putPlan i p).ports = s.ports := rfl
@[simp] theorem putPlan_engine (s : State) (i : Nat) (p : Plan) : (s.putPlan i p).engine = s.engine := rfl
@[simp] theorem putPlan_commits (s : State) (i : Nat) (p : Plan) : (s.putPlan i p).commits = s.commits := rfl
@[simp] theorem putPlan_commitGens (s : State) (i : Nat) (p : Plan) : (s.putPlan i p).commitGens = s.commitGens := rfl
@[simp] theorem putPlan_dispatch (s : State) (i : Nat) (p : Plan) : (s.putPlan i p).dispatch = s.dispatch := rfl
@[simp] theorem putPlan_protection (s : State) (i : Nat) (p : Plan) : (s.putPlan i p).protection = s.protection := rfl
@[simp] theorem putPlan_supervision (s : State) (i : Nat) (p : Plan) : (s.putPlan i p).supervision = s.supervision := rfl
@[simp] theorem putPlan_ring (s : State) (i : Nat) (p : Plan) : (s.putPlan i p).ring = s.ring := rfl
@[simp] theorem putPlan_mask (s : State) (i : Nat) (p : Plan) : (s.putPlan i p).mask = s.mask := rfl
@[simp] theorem putPlan_pending (s : State) (i : Nat) (p : Plan) : (s.putPlan i p).pending = s.pending := rfl

/-! ### State.putCommit -/

@[simp] theorem putCommit_clock (s : State) (i : Nat) (c : Commitment) : (s.putCommit i c).clock = s.clock := rfl
@[simp] theorem putCommit_site (s : State) (i : Nat) (c : Commitment) : (s.putCommit i c).site = s.site := rfl
@[simp] theorem putCommit_siteFlags (s : State) (i : Nat) (c : Commitment) : (s.putCommit i c).siteFlags = s.siteFlags := rfl
@[simp] theorem putCommit_buses (s : State) (i : Nat) (c : Commitment) : (s.putCommit i c).buses = s.buses := rfl
@[simp] theorem putCommit_plans (s : State) (i : Nat) (c : Commitment) : (s.putCommit i c).plans = s.plans := rfl
@[simp] theorem putCommit_planGens (s : State) (i : Nat) (c : Commitment) : (s.putCommit i c).planGens = s.planGens := rfl
@[simp] theorem putCommit_ports (s : State) (i : Nat) (c : Commitment) : (s.putCommit i c).ports = s.ports := rfl
@[simp] theorem putCommit_engine (s : State) (i : Nat) (c : Commitment) : (s.putCommit i c).engine = s.engine := rfl
@[simp] theorem putCommit_commits (s : State) (i : Nat) (c : Commitment) : (s.putCommit i c).commits = s.commits.put i c := rfl
@[simp] theorem putCommit_commitGens (s : State) (i : Nat) (c : Commitment) : (s.putCommit i c).commitGens = s.commitGens := rfl
@[simp] theorem putCommit_dispatch (s : State) (i : Nat) (c : Commitment) : (s.putCommit i c).dispatch = s.dispatch := rfl
@[simp] theorem putCommit_protection (s : State) (i : Nat) (c : Commitment) : (s.putCommit i c).protection = s.protection := rfl
@[simp] theorem putCommit_supervision (s : State) (i : Nat) (c : Commitment) : (s.putCommit i c).supervision = s.supervision := rfl
@[simp] theorem putCommit_ring (s : State) (i : Nat) (c : Commitment) : (s.putCommit i c).ring = s.ring := rfl
@[simp] theorem putCommit_mask (s : State) (i : Nat) (c : Commitment) : (s.putCommit i c).mask = s.mask := rfl
@[simp] theorem putCommit_pending (s : State) (i : Nat) (c : Commitment) : (s.putCommit i c).pending = s.pending := rfl

/-! ### State.putPort -/

@[simp] theorem putPort_clock (s : State) (n : PortNo) (p : Port) : (s.putPort n p).clock = s.clock := rfl
@[simp] theorem putPort_site (s : State) (n : PortNo) (p : Port) : (s.putPort n p).site = s.site := rfl
@[simp] theorem putPort_siteFlags (s : State) (n : PortNo) (p : Port) : (s.putPort n p).siteFlags = s.siteFlags := rfl
@[simp] theorem putPort_buses (s : State) (n : PortNo) (p : Port) : (s.putPort n p).buses = s.buses := rfl
@[simp] theorem putPort_plans (s : State) (n : PortNo) (p : Port) : (s.putPort n p).plans = s.plans := rfl
@[simp] theorem putPort_planGens (s : State) (n : PortNo) (p : Port) : (s.putPort n p).planGens = s.planGens := rfl
@[simp] theorem putPort_ports (s : State) (n : PortNo) (p : Port) : (s.putPort n p).ports = s.ports.set n p := rfl
@[simp] theorem putPort_engine (s : State) (n : PortNo) (p : Port) : (s.putPort n p).engine = s.engine := rfl
@[simp] theorem putPort_commits (s : State) (n : PortNo) (p : Port) : (s.putPort n p).commits = s.commits := rfl
@[simp] theorem putPort_commitGens (s : State) (n : PortNo) (p : Port) : (s.putPort n p).commitGens = s.commitGens := rfl
@[simp] theorem putPort_dispatch (s : State) (n : PortNo) (p : Port) : (s.putPort n p).dispatch = s.dispatch := rfl
@[simp] theorem putPort_protection (s : State) (n : PortNo) (p : Port) : (s.putPort n p).protection = s.protection := rfl
@[simp] theorem putPort_supervision (s : State) (n : PortNo) (p : Port) : (s.putPort n p).supervision = s.supervision := rfl
@[simp] theorem putPort_ring (s : State) (n : PortNo) (p : Port) : (s.putPort n p).ring = s.ring := rfl
@[simp] theorem putPort_mask (s : State) (n : PortNo) (p : Port) : (s.putPort n p).mask = s.mask := rfl
@[simp] theorem putPort_pending (s : State) (n : PortNo) (p : Port) : (s.putPort n p).pending = s.pending := rfl

/-! ### State.setPort -/

@[simp] theorem setPort_clock (s : State) (n : PortNo) (f : Port → Port) : (s.setPort n f).clock = s.clock := rfl
@[simp] theorem setPort_site (s : State) (n : PortNo) (f : Port → Port) : (s.setPort n f).site = s.site := rfl
@[simp] theorem setPort_siteFlags (s : State) (n : PortNo) (f : Port → Port) : (s.setPort n f).siteFlags = s.siteFlags := rfl
@[simp] theorem setPort_buses (s : State) (n : PortNo) (f : Port → Port) : (s.setPort n f).buses = s.buses := rfl
@[simp] theorem setPort_plans (s : State) (n : PortNo) (f : Port → Port) : (s.setPort n f).plans = s.plans := rfl
@[simp] theorem setPort_planGens (s : State) (n : PortNo) (f : Port → Port) : (s.setPort n f).planGens = s.planGens := rfl
@[simp] theorem setPort_ports (s : State) (n : PortNo) (f : Port → Port) : (s.setPort n f).ports = s.ports.set n (f (s.port n)) := rfl
@[simp] theorem setPort_engine (s : State) (n : PortNo) (f : Port → Port) : (s.setPort n f).engine = s.engine := rfl
@[simp] theorem setPort_commits (s : State) (n : PortNo) (f : Port → Port) : (s.setPort n f).commits = s.commits := rfl
@[simp] theorem setPort_commitGens (s : State) (n : PortNo) (f : Port → Port) : (s.setPort n f).commitGens = s.commitGens := rfl
@[simp] theorem setPort_dispatch (s : State) (n : PortNo) (f : Port → Port) : (s.setPort n f).dispatch = s.dispatch := rfl
@[simp] theorem setPort_protection (s : State) (n : PortNo) (f : Port → Port) : (s.setPort n f).protection = s.protection := rfl
@[simp] theorem setPort_supervision (s : State) (n : PortNo) (f : Port → Port) : (s.setPort n f).supervision = s.supervision := rfl
@[simp] theorem setPort_ring (s : State) (n : PortNo) (f : Port → Port) : (s.setPort n f).ring = s.ring := rfl
@[simp] theorem setPort_mask (s : State) (n : PortNo) (f : Port → Port) : (s.setPort n f).mask = s.mask := rfl
@[simp] theorem setPort_pending (s : State) (n : PortNo) (f : Port → Port) : (s.setPort n f).pending = s.pending := rfl

/-! ### State.updPort -/

@[simp] theorem updPort_clock (s : State) (n : PortNo) (f : Port → Port) : (s.updPort n f).clock = s.clock := rfl
@[simp] theorem updPort_site (s : State) (n : PortNo) (f : Port → Port) : (s.updPort n f).site = s.site := rfl
@[simp] theorem updPort_siteFlags (s : State) (n : PortNo) (f : Port → Port) : (s.updPort n f).siteFlags = s.siteFlags := rfl
@[simp] theorem updPort_buses (s : State) (n : PortNo) (f : Port → Port) : (s.updPort n f).buses = s.buses := rfl
@[simp] theorem updPort_plans (s : State) (n : PortNo) (f : Port → Port) : (s.updPort n f).plans = s.plans := rfl
@[simp] theorem updPort_planGens (s : State) (n : PortNo) (f : Port → Port) : (s.updPort n f).planGens = s.planGens := rfl
@[simp] theorem updPort_ports (s : State) (n : PortNo) (f : Port → Port) : (s.updPort n f).ports = s.ports.set n (Port.settle s.env (s.port n) (f (s.port n))) := rfl
@[simp] theorem updPort_engine (s : State) (n : PortNo) (f : Port → Port) : (s.updPort n f).engine = s.engine := rfl
@[simp] theorem updPort_commits (s : State) (n : PortNo) (f : Port → Port) : (s.updPort n f).commits = s.commits := rfl
@[simp] theorem updPort_commitGens (s : State) (n : PortNo) (f : Port → Port) : (s.updPort n f).commitGens = s.commitGens := rfl
@[simp] theorem updPort_dispatch (s : State) (n : PortNo) (f : Port → Port) : (s.updPort n f).dispatch = s.dispatch := rfl
@[simp] theorem updPort_protection (s : State) (n : PortNo) (f : Port → Port) : (s.updPort n f).protection = s.protection := rfl
@[simp] theorem updPort_supervision (s : State) (n : PortNo) (f : Port → Port) : (s.updPort n f).supervision = s.supervision := rfl
@[simp] theorem updPort_ring (s : State) (n : PortNo) (f : Port → Port) : (s.updPort n f).ring = s.ring := rfl
@[simp] theorem updPort_mask (s : State) (n : PortNo) (f : Port → Port) : (s.updPort n f).mask = s.mask := rfl
@[simp] theorem updPort_pending (s : State) (n : PortNo) (f : Port → Port) : (s.updPort n f).pending = s.pending := rfl

/-! ### State.updPorts -/

@[simp] theorem updPorts_clock (s : State) (f : PortNo → Port → Port) : (s.updPorts f).clock = s.clock := by simp only [State.updPorts]
@[simp] theorem updPorts_site (s : State) (f : PortNo → Port → Port) : (s.updPorts f).site = s.site := by simp only [State.updPorts]
@[simp] theorem updPorts_siteFlags (s : State) (f : PortNo → Port → Port) : (s.updPorts f).siteFlags = s.siteFlags := by simp only [State.updPorts]
@[simp] theorem updPorts_buses (s : State) (f : PortNo → Port → Port) : (s.updPorts f).buses = s.buses := by simp only [State.updPorts]
@[simp] theorem updPorts_plans (s : State) (f : PortNo → Port → Port) : (s.updPorts f).plans = s.plans := by simp only [State.updPorts]
@[simp] theorem updPorts_planGens (s : State) (f : PortNo → Port → Port) : (s.updPorts f).planGens = s.planGens := by simp only [State.updPorts]
@[simp] theorem updPorts_ports (s : State) (f : PortNo → Port → Port) : (s.updPorts f).ports = Vector.ofFn fun n => Port.settle s.env s.ports[n] (f n s.ports[n]) := by simp only [State.updPorts]
@[simp] theorem updPorts_engine (s : State) (f : PortNo → Port → Port) : (s.updPorts f).engine = s.engine := by simp only [State.updPorts]
@[simp] theorem updPorts_commits (s : State) (f : PortNo → Port → Port) : (s.updPorts f).commits = s.commits := by simp only [State.updPorts]
@[simp] theorem updPorts_commitGens (s : State) (f : PortNo → Port → Port) : (s.updPorts f).commitGens = s.commitGens := by simp only [State.updPorts]
@[simp] theorem updPorts_dispatch (s : State) (f : PortNo → Port → Port) : (s.updPorts f).dispatch = s.dispatch := by simp only [State.updPorts]
@[simp] theorem updPorts_protection (s : State) (f : PortNo → Port → Port) : (s.updPorts f).protection = s.protection := by simp only [State.updPorts]
@[simp] theorem updPorts_supervision (s : State) (f : PortNo → Port → Port) : (s.updPorts f).supervision = s.supervision := by simp only [State.updPorts]
@[simp] theorem updPorts_ring (s : State) (f : PortNo → Port → Port) : (s.updPorts f).ring = s.ring := by simp only [State.updPorts]
@[simp] theorem updPorts_mask (s : State) (f : PortNo → Port → Port) : (s.updPorts f).mask = s.mask := by simp only [State.updPorts]
@[simp] theorem updPorts_pending (s : State) (f : PortNo → Port → Port) : (s.updPorts f).pending = s.pending := by simp only [State.updPorts]

/-! ### State.withdraw -/

@[simp] theorem withdraw_site (s : State) (f : Registration → Bool) : (s.withdraw f).site = s.site := rfl
@[simp] theorem withdraw_siteFlags (s : State) (f : Registration → Bool) : (s.withdraw f).siteFlags = s.siteFlags := rfl
@[simp] theorem withdraw_buses (s : State) (f : Registration → Bool) : (s.withdraw f).buses = s.buses := rfl
@[simp] theorem withdraw_plans (s : State) (f : Registration → Bool) : (s.withdraw f).plans = s.plans := rfl
@[simp] theorem withdraw_planGens (s : State) (f : Registration → Bool) : (s.withdraw f).planGens = s.planGens := rfl
@[simp] theorem withdraw_ports (s : State) (f : Registration → Bool) : (s.withdraw f).ports = s.ports := rfl
@[simp] theorem withdraw_engine (s : State) (f : Registration → Bool) : (s.withdraw f).engine = s.engine := rfl
@[simp] theorem withdraw_commits (s : State) (f : Registration → Bool) : (s.withdraw f).commits = s.commits := rfl
@[simp] theorem withdraw_commitGens (s : State) (f : Registration → Bool) : (s.withdraw f).commitGens = s.commitGens := rfl
@[simp] theorem withdraw_dispatch (s : State) (f : Registration → Bool) : (s.withdraw f).dispatch = s.dispatch := rfl
@[simp] theorem withdraw_protection (s : State) (f : Registration → Bool) : (s.withdraw f).protection = s.protection := rfl
@[simp] theorem withdraw_supervision (s : State) (f : Registration → Bool) : (s.withdraw f).supervision = s.supervision := rfl
@[simp] theorem withdraw_ring (s : State) (f : Registration → Bool) : (s.withdraw f).ring = s.ring := rfl
@[simp] theorem withdraw_mask (s : State) (f : Registration → Bool) : (s.withdraw f).mask = s.mask := rfl
@[simp] theorem withdraw_pending (s : State) (f : Registration → Bool) : (s.withdraw f).pending = s.pending := rfl

/-! ### State.register -/

@[simp] theorem register_site (s : State) (k : RegKind) (i t : Nat) : (s.register k i t).site = s.site := (apply_ite State.site _ _ _).trans (ite_self _)
@[simp] theorem register_siteFlags (s : State) (k : RegKind) (i t : Nat) : (s.register k i t).siteFlags = s.siteFlags := (apply_ite State.siteFlags _ _ _).trans (ite_self _)
@[simp] theorem register_buses (s : State) (k : RegKind) (i t : Nat) : (s.register k i t).buses = s.buses := (apply_ite State.buses _ _ _).trans (ite_self _)
@[simp] theorem register_plans (s : State) (k : RegKind) (i t : Nat) : (s.register k i t).plans = s.plans := (apply_ite State.plans _ _ _).trans (ite_self _)
@[simp] theorem register_planGens (s : State) (k : RegKind) (i t : Nat) : (s.register k i t).planGens = s.planGens := (apply_ite State.planGens _ _ _).trans (ite_self _)
@[simp] theorem register_ports (s : State) (k : RegKind) (i t : Nat) : (s.register k i t).ports = s.ports := (apply_ite State.ports _ _ _).trans (ite_self _)
@[simp] theorem register_engine (s : State) (k : RegKind) (i t : Nat) : (s.register k i t).engine = s.engine := (apply_ite State.engine _ _ _).trans (ite_self _)
@[simp] theorem register_commits (s : State) (k : RegKind) (i t : Nat) : (s.register k i t).commits = s.commits := (apply_ite State.commits _ _ _).trans (ite_self _)
@[simp] theorem register_commitGens (s : State) (k : RegKind) (i t : Nat) : (s.register k i t).commitGens = s.commitGens := (apply_ite State.commitGens _ _ _).trans (ite_self _)
@[simp] theorem register_dispatch (s : State) (k : RegKind) (i t : Nat) : (s.register k i t).dispatch = s.dispatch := (apply_ite State.dispatch _ _ _).trans (ite_self _)
@[simp] theorem register_protection (s : State) (k : RegKind) (i t : Nat) : (s.register k i t).protection = s.protection := (apply_ite State.protection _ _ _).trans (ite_self _)
@[simp] theorem register_supervision (s : State) (k : RegKind) (i t : Nat) : (s.register k i t).supervision = s.supervision := (apply_ite State.supervision _ _ _).trans (ite_self _)
@[simp] theorem register_ring (s : State) (k : RegKind) (i t : Nat) : (s.register k i t).ring = s.ring := (apply_ite State.ring _ _ _).trans (ite_self _)
@[simp] theorem register_mask (s : State) (k : RegKind) (i t : Nat) : (s.register k i t).mask = s.mask := (apply_ite State.mask _ _ _).trans (ite_self _)
@[simp] theorem register_pending (s : State) (k : RegKind) (i t : Nat) : (s.register k i t).pending = s.pending := (apply_ite State.pending _ _ _).trans (ite_self _)

/-! ### State.modBus -/

@[simp] theorem modBus_clock (s : State) (i : Nat) (f : Bus → Bus) : (s.modBus i f).clock = s.clock := by unfold State.modBus; split <;> rfl
@[simp] theorem modBus_site (s : State) (i : Nat) (f : Bus → Bus) : (s.modBus i f).site = s.site := by unfold State.modBus; split <;> rfl
@[simp] theorem modBus_siteFlags (s : State) (i : Nat) (f : Bus → Bus) : (s.modBus i f).siteFlags = s.siteFlags := by unfold State.modBus; split <;> rfl
@[simp] theorem modBus_plans (s : State) (i : Nat) (f : Bus → Bus) : (s.modBus i f).plans = s.plans := by unfold State.modBus; split <;> rfl
@[simp] theorem modBus_planGens (s : State) (i : Nat) (f : Bus → Bus) : (s.modBus i f).planGens = s.planGens := by unfold State.modBus; split <;> rfl
@[simp] theorem modBus_ports (s : State) (i : Nat) (f : Bus → Bus) : (s.modBus i f).ports = s.ports := by unfold State.modBus; split <;> rfl
@[simp] theorem modBus_engine (s : State) (i : Nat) (f : Bus → Bus) : (s.modBus i f).engine = s.engine := by unfold State.modBus; split <;> rfl
@[simp] theorem modBus_commits (s : State) (i : Nat) (f : Bus → Bus) : (s.modBus i f).commits = s.commits := by unfold State.modBus; split <;> rfl
@[simp] theorem modBus_commitGens (s : State) (i : Nat) (f : Bus → Bus) : (s.modBus i f).commitGens = s.commitGens := by unfold State.modBus; split <;> rfl
@[simp] theorem modBus_dispatch (s : State) (i : Nat) (f : Bus → Bus) : (s.modBus i f).dispatch = s.dispatch := by unfold State.modBus; split <;> rfl
@[simp] theorem modBus_protection (s : State) (i : Nat) (f : Bus → Bus) : (s.modBus i f).protection = s.protection := by unfold State.modBus; split <;> rfl
@[simp] theorem modBus_supervision (s : State) (i : Nat) (f : Bus → Bus) : (s.modBus i f).supervision = s.supervision := by unfold State.modBus; split <;> rfl
@[simp] theorem modBus_ring (s : State) (i : Nat) (f : Bus → Bus) : (s.modBus i f).ring = s.ring := by unfold State.modBus; split <;> rfl
@[simp] theorem modBus_mask (s : State) (i : Nat) (f : Bus → Bus) : (s.modBus i f).mask = s.mask := by unfold State.modBus; split <;> rfl
@[simp] theorem modBus_pending (s : State) (i : Nat) (f : Bus → Bus) : (s.modBus i f).pending = s.pending := by unfold State.modBus; split <;> rfl

/-! ### State.modPlan -/

@[simp] theorem modPlan_clock (s : State) (i : Nat) (f : Plan → Plan) : (s.modPlan i f).clock = s.clock := by unfold State.modPlan; split <;> rfl
@[simp] theorem modPlan_site (s : State) (i : Nat) (f : Plan → Plan) : (s.modPlan i f).site = s.site := by unfold State.modPlan; split <;> rfl
@[simp] theorem modPlan_siteFlags (s : State) (i : Nat) (f : Plan → Plan) : (s.modPlan i f).siteFlags = s.siteFlags := by unfold State.modPlan; split <;> rfl
@[simp] theorem modPlan_buses (s : State) (i : Nat) (f : Plan → Plan) : (s.modPlan i f).buses = s.buses := by unfold State.modPlan; split <;> rfl
@[simp] theorem modPlan_planGens (s : State) (i : Nat) (f : Plan → Plan) : (s.modPlan i f).planGens = s.planGens := by unfold State.modPlan; split <;> rfl
@[simp] theorem modPlan_ports (s : State) (i : Nat) (f : Plan → Plan) : (s.modPlan i f).ports = s.ports := by unfold State.modPlan; split <;> rfl
@[simp] theorem modPlan_engine (s : State) (i : Nat) (f : Plan → Plan) : (s.modPlan i f).engine = s.engine := by unfold State.modPlan; split <;> rfl
@[simp] theorem modPlan_commits (s : State) (i : Nat) (f : Plan → Plan) : (s.modPlan i f).commits = s.commits := by unfold State.modPlan; split <;> rfl
@[simp] theorem modPlan_commitGens (s : State) (i : Nat) (f : Plan → Plan) : (s.modPlan i f).commitGens = s.commitGens := by unfold State.modPlan; split <;> rfl
@[simp] theorem modPlan_dispatch (s : State) (i : Nat) (f : Plan → Plan) : (s.modPlan i f).dispatch = s.dispatch := by unfold State.modPlan; split <;> rfl
@[simp] theorem modPlan_protection (s : State) (i : Nat) (f : Plan → Plan) : (s.modPlan i f).protection = s.protection := by unfold State.modPlan; split <;> rfl
@[simp] theorem modPlan_supervision (s : State) (i : Nat) (f : Plan → Plan) : (s.modPlan i f).supervision = s.supervision := by unfold State.modPlan; split <;> rfl
@[simp] theorem modPlan_ring (s : State) (i : Nat) (f : Plan → Plan) : (s.modPlan i f).ring = s.ring := by unfold State.modPlan; split <;> rfl
@[simp] theorem modPlan_mask (s : State) (i : Nat) (f : Plan → Plan) : (s.modPlan i f).mask = s.mask := by unfold State.modPlan; split <;> rfl
@[simp] theorem modPlan_pending (s : State) (i : Nat) (f : Plan → Plan) : (s.modPlan i f).pending = s.pending := by unfold State.modPlan; split <;> rfl

/-! ### State.modCommit -/

@[simp] theorem modCommit_clock (s : State) (i : Nat) (f : Commitment → Commitment) : (s.modCommit i f).clock = s.clock := by unfold State.modCommit; split <;> rfl
@[simp] theorem modCommit_site (s : State) (i : Nat) (f : Commitment → Commitment) : (s.modCommit i f).site = s.site := by unfold State.modCommit; split <;> rfl
@[simp] theorem modCommit_siteFlags (s : State) (i : Nat) (f : Commitment → Commitment) : (s.modCommit i f).siteFlags = s.siteFlags := by unfold State.modCommit; split <;> rfl
@[simp] theorem modCommit_buses (s : State) (i : Nat) (f : Commitment → Commitment) : (s.modCommit i f).buses = s.buses := by unfold State.modCommit; split <;> rfl
@[simp] theorem modCommit_plans (s : State) (i : Nat) (f : Commitment → Commitment) : (s.modCommit i f).plans = s.plans := by unfold State.modCommit; split <;> rfl
@[simp] theorem modCommit_planGens (s : State) (i : Nat) (f : Commitment → Commitment) : (s.modCommit i f).planGens = s.planGens := by unfold State.modCommit; split <;> rfl
@[simp] theorem modCommit_ports (s : State) (i : Nat) (f : Commitment → Commitment) : (s.modCommit i f).ports = s.ports := by unfold State.modCommit; split <;> rfl
@[simp] theorem modCommit_engine (s : State) (i : Nat) (f : Commitment → Commitment) : (s.modCommit i f).engine = s.engine := by unfold State.modCommit; split <;> rfl
@[simp] theorem modCommit_commitGens (s : State) (i : Nat) (f : Commitment → Commitment) : (s.modCommit i f).commitGens = s.commitGens := by unfold State.modCommit; split <;> rfl
@[simp] theorem modCommit_dispatch (s : State) (i : Nat) (f : Commitment → Commitment) : (s.modCommit i f).dispatch = s.dispatch := by unfold State.modCommit; split <;> rfl
@[simp] theorem modCommit_protection (s : State) (i : Nat) (f : Commitment → Commitment) : (s.modCommit i f).protection = s.protection := by unfold State.modCommit; split <;> rfl
@[simp] theorem modCommit_supervision (s : State) (i : Nat) (f : Commitment → Commitment) : (s.modCommit i f).supervision = s.supervision := by unfold State.modCommit; split <;> rfl
@[simp] theorem modCommit_ring (s : State) (i : Nat) (f : Commitment → Commitment) : (s.modCommit i f).ring = s.ring := by unfold State.modCommit; split <;> rfl
@[simp] theorem modCommit_mask (s : State) (i : Nat) (f : Commitment → Commitment) : (s.modCommit i f).mask = s.mask := by unfold State.modCommit; split <;> rfl
@[simp] theorem modCommit_pending (s : State) (i : Nat) (f : Commitment → Commitment) : (s.modCommit i f).pending = s.pending := by unfold State.modCommit; split <;> rfl

end Sys2Proof.Machine
end

