-- ==== Sys2Proof/Laws/Ports.lean ====
section
/-! SUPPORT. What Port.settle changes of a port record, and that it gives a record the part can hold. -/

namespace Sys2Proof.Machine

open Sys2Proof

/-! ### The fields settle can change -/

theorem Port.remember_eq (e : PortEnv) (p q : Port) : Port.remember e p q =
    { q with lastDir := (Port.remember e p q).lastDir, zeroSince := (Port.remember e p q).zeroSince } := by
  unfold Port.remember; split
  · rfl
  · split
    · rfl
    · split <;> rfl

theorem Port.announceLive_eq (p q : Port) : Port.announceLive p q =
    { q with
      frameCount := (Port.announceLive p q).frameCount
      frameTimer := (Port.announceLive p q).frameTimer
      lastFrame := (Port.announceLive p q).lastFrame } := by
  unfold Port.announceLive; split <;> rfl

theorem Port.superviseOpenDelay_eq (p q : Port) : Port.superviseOpenDelay p q =
    { q with openDelay :=
      if q.state = .energized ∧ q.live.mag = 0 then
        if p.state = .energized ∧ p.live.mag = 0 then q.openDelay else .start 60000
      else .stopped } := by
  unfold Port.superviseOpenDelay; split
  · split <;> rfl
  · rfl

theorem Port.superviseStall_eq (e : PortEnv) (p q : Port) : Port.superviseStall e p q =
    { q with stall :=
      if q.stallConditions then if q.live = p.live then q.stall else .start e.stall
      else .stopped } := by
  unfold Port.superviseStall; split
  · split <;> rfl
  · rfl

theorem Port.superviseWeld_eq (p q : Port) : Port.superviseWeld p q =
    { q with weld :=
      if q.weldConditions then if p.weldConditions then q.weld else .start 200
      else .stopped } := by
  unfold Port.superviseWeld; split
  · split <;> rfl
  · rfl

/-- Everything a settled change leaves as the change made it, and its three timers. -/
theorem Port.settle_eq (e : PortEnv) (p q : Port) : Port.settle e p q =
    { q with
      lastDir := (Port.remember e p q).lastDir
      zeroSince := (Port.remember e p q).zeroSince
      frameCount := (Port.announceLive p q).frameCount
      frameTimer := (Port.announceLive p q).frameTimer
      lastFrame := (Port.announceLive p q).lastFrame
      openDelay :=
        if q.state = .energized ∧ q.live.mag = 0 then
          if p.state = .energized ∧ p.live.mag = 0 then q.openDelay else .start 60000
        else .stopped
      stall :=
        if q.stallConditions then if q.live = p.live then q.stall else .start e.stall
        else .stopped
      weld :=
        if q.weldConditions then if p.weldConditions then q.weld else .start 200
        else .stopped } := by
  unfold Port.settle
  rw [Port.remember_eq]
  generalize (Port.remember e p q).lastDir = d
  generalize (Port.remember e p q).zeroSince = z
  have h : Port.announceLive p { q with lastDir := d, zeroSince := z } =
      { q with
        lastDir := d, zeroSince := z
        frameCount := (Port.announceLive p q).frameCount
        frameTimer := (Port.announceLive p q).frameTimer
        lastFrame := (Port.announceLive p q).lastFrame } := by
    unfold Port.announceLive
    have hl : Port.live { q with lastDir := d, zeroSince := z } = q.live := rfl
    rw [hl]
    split <;> rfl
  rw [h]
  generalize (Port.announceLive p q).frameCount = c
  generalize (Port.announceLive p q).frameTimer = tm
  generalize (Port.announceLive p q).lastFrame = f
  rw [Port.superviseOpenDelay_eq, Port.superviseStall_eq, Port.superviseWeld_eq]
  rfl

@[simp] theorem Port.settle_number (e : PortEnv) (p q : Port) : (Port.settle e p q).number = q.number := by
  rw [Port.settle_eq]
@[simp] theorem Port.settle_state (e : PortEnv) (p q : Port) : (Port.settle e p q).state = q.state := by
  rw [Port.settle_eq]
@[simp] theorem Port.settle_held (e : PortEnv) (p q : Port) : (Port.settle e p q).held = q.held := by
  rw [Port.settle_eq]
@[simp] theorem Port.settle_session (e : PortEnv) (p q : Port) : (Port.settle e p q).session = q.session := by
  rw [Port.settle_eq]
@[simp] theorem Port.settle_pending (e : PortEnv) (p q : Port) :
    (Port.settle e p q).pendingTarget = q.pendingTarget := by rw [Port.settle_eq]
@[simp] theorem Port.settle_last (e : PortEnv) (p q : Port) :
    (Port.settle e p q).lastTransition = q.lastTransition := by rw [Port.settle_eq]
@[simp] theorem Port.settle_command (e : PortEnv) (p q : Port) : (Port.settle e p q).command = q.command := by
  rw [Port.settle_eq]
@[simp] theorem Port.settle_feedback (e : PortEnv) (p q : Port) :
    (Port.settle e p q).feedback = q.feedback := by rw [Port.settle_eq]
@[simp] theorem Port.settle_taken (e : PortEnv) (p q : Port) : (Port.settle e p q).taken = q.taken := by
  rw [Port.settle_eq]
@[simp] theorem Port.settle_flags (e : PortEnv) (p q : Port) : (Port.settle e p q).flags = q.flags := by
  rw [Port.settle_eq]
@[simp] theorem Port.settle_fault (e : PortEnv) (p q : Port) :
    (Port.settle e p q).faultCode = q.faultCode := by rw [Port.settle_eq]
@[simp] theorem Port.settle_residue (e : PortEnv) (p q : Port) : (Port.settle e p q).residue = q.residue := by
  rw [Port.settle_eq]
@[simp] theorem Port.settle_settling (e : PortEnv) (p q : Port) :
    (Port.settle e p q).settling = q.settling := by rw [Port.settle_eq]
@[simp] theorem Port.settle_debounce (e : PortEnv) (p q : Port) :
    (Port.settle e p q).debounce = q.debounce := by rw [Port.settle_eq]
@[simp] theorem Port.settle_quiet (e : PortEnv) (p q : Port) : (Port.settle e p q).quiet = q.quiet := by
  rw [Port.settle_eq]
@[simp] theorem Port.settle_limit (e : PortEnv) (p q : Port) : (Port.settle e p q).limit = q.limit := by
  rw [Port.settle_eq]
@[simp] theorem Port.settle_live (e : PortEnv) (p q : Port) : (Port.settle e p q).live = q.live := by
  simp [Port.live]
@[simp] theorem Port.settle_bound (e : PortEnv) (p q : Port) :
    (Port.settle e p q).boundSlot = q.boundSlot := by simp [Port.boundSlot]

/-- What a settled change makes of the open delay (R77). -/
theorem Port.settle_openDelay (e : PortEnv) (p q : Port) : (Port.settle e p q).openDelay =
    if q.state = .energized ∧ q.live.mag = 0 then
      if p.state = .energized ∧ p.live.mag = 0 then q.openDelay else .start 60000
    else .stopped := by rw [Port.settle_eq]

/-- What a settled change makes of the stall timer (R119). -/
theorem Port.settle_stall (e : PortEnv) (p q : Port) : (Port.settle e p q).stall =
    if q.stallConditions then if q.live = p.live then q.stall else .start e.stall else .stopped := by
  rw [Port.settle_eq]

/-- What a settled change makes of the weld timer (R75). -/
theorem Port.settle_weld (e : PortEnv) (p q : Port) : (Port.settle e p q).weld =
    if q.weldConditions then if p.weldConditions then q.weld else .start 200 else .stopped := by
  rw [Port.settle_eq]

/-- A settled change that changes no setpoint changes at most timers beyond what it writes. -/
theorem Port.settle_still (e : PortEnv) (p q : Port) (hh : q.held = p.held) (hl : q.live = p.live) :
    Port.settle e p q = q.timersOf (Port.settle e p q) := by
  have h1 : Port.remember e p q = q := by unfold Port.remember; rw [if_pos hh]
  have h2 : Port.announceLive p q = q := by unfold Port.announceLive; rw [if_pos hl]
  rw [Port.settle_eq, h1, h2]
  rfl

/-- A settled change changes, beyond what it writes, at most timers, direction memory and frames. -/
theorem Port.settle_frame (e : PortEnv) (p q : Port) : Port.settle e p q =
    { q.timersOf (Port.settle e p q) with
      lastDir := (Port.settle e p q).lastDir
      zeroSince := (Port.settle e p q).zeroSince
      frameCount := (Port.settle e p q).frameCount
      frameTimer := (Port.settle e p q).frameTimer
      lastFrame := (Port.settle e p q).lastFrame } := by
  rw [Port.settle_eq]
  rfl

/-- A settled change that makes the held setpoint 0 has every effect of a setpoint that becomes 0. -/
theorem Port.settle_powerOff (e : PortEnv) (p q : Port) (hz : q.held = .zero)
    (hs : q.zeroSince = p.zeroSince) (hd : q.lastDir = p.lastDir) (hf : q.frameCount = p.frameCount) :
    p.PowerOff e.now (Port.settle e p q) := by
  have hl : q.live = .zero := by unfold Port.live; rw [hz]; split <;> rfl
  have hm : q.held.mag = 0 := by rw [hz]; rfl
  refine ⟨by simpa using hz, by simpa using hl, ?_, ?_, ?_⟩
  · rw [Port.settle_eq]
    unfold Port.remember
    by_cases h : q.held = p.held
    · have hp : p.held.mag = 0 := by rw [← h, hm]
      simp [h, hp, hs]
    · by_cases hp : p.held.mag = 0
      · simp [h, hm, hp, hs]
      · simp [h, hm, hp]
  · rw [Port.settle_eq]
    unfold Port.remember
    by_cases h : q.held = p.held
    · simp [h, hd]
    · by_cases hp : p.held.mag = 0
      · simp [h, hm, hp, hd]
      · simp [h, hm, hp, hd]
  · rw [Port.settle_eq]
    unfold Port.announceLive
    rw [hl]
    by_cases h : p.live = .zero
    · simp [h, hf]
    · simp [h, Ne.symm h, Port.sendFrame, hf]

/-! ### The direction memory (R67) -/

/-- A change before settle: the held setpoint stays or falls in its direction, and the memory is left alone. -/
structure Port.Lowers (p q : Port) : Prop where
  held      : q.held = p.held ∨ (q.held.mag < p.held.mag ∧ (q.held.mag ≠ 0 → q.held.dir = p.held.dir))
  lastDir   : q.lastDir = p.lastDir
  zeroSince : q.zeroSince = p.zeroSince

theorem Port.Lowers.refl (p : Port) : p.Lowers p := ⟨.inl rfl, rfl, rfl⟩

theorem Setpoint.falls_trans {x y z : Setpoint}
    (h : y = x ∨ (y.mag < x.mag ∧ (y.mag ≠ 0 → y.dir = x.dir)))
    (k : z = y ∨ (z.mag < y.mag ∧ (z.mag ≠ 0 → z.dir = y.dir))) :
    z = x ∨ (z.mag < x.mag ∧ (z.mag ≠ 0 → z.dir = x.dir)) := by
  rcases k with rfl | k
  · exact h
  · rcases h with rfl | h
    · exact .inr k
    · exact .inr ⟨Nat.lt_trans k.1 h.1, fun e => (k.2 e).trans (h.2 (by omega))⟩

theorem Port.Lowers.trans {p q r : Port} (h : p.Lowers q) (k : q.Lowers r) : p.Lowers r :=
  ⟨Setpoint.falls_trans h.held k.held, k.lastDir.trans h.lastDir, k.zeroSince.trans h.zeroSince⟩

/-- A settled change that lowers the held setpoint moves the memory as R67 says. -/
theorem Port.settle_falls (e : PortEnv) {p q : Port} (h : p.Lowers q) (hr : p.Recalls) :
    p.HeldFalls e.now (Port.settle e p q) := by
  have hl := h.lastDir
  have hz := h.zeroSince
  refine ⟨by simpa using h.held, ?_, ?_⟩
  · rw [Port.settle_eq]
    show (Port.remember e p q).lastDir = _
    unfold Port.remember
    rcases h.held with hh | ⟨hlt, hd⟩
    · rw [if_pos hh]; exact hl
    · have hp : p.held.mag ≠ 0 := by omega
      rw [if_neg (fun he => by rw [he] at hlt; omega)]
      by_cases hq : q.held.mag = 0
      · rw [if_neg (not_not.mpr hq), if_pos hp]; exact hl
      · rw [if_pos hq]; exact (hd hq).trans (hr.moving hp).1.symm
  · rw [Port.settle_held, Port.settle_eq]
    show (Port.remember e p q).zeroSince = _
    unfold Port.remember
    rcases h.held with hh | ⟨hlt, hd⟩
    · rw [if_pos hh, hz, if_neg (by rw [hh]; tauto)]
    · have hp : p.held.mag ≠ 0 := by omega
      rw [if_neg (fun he => by rw [he] at hlt; omega)]
      by_cases hq : q.held.mag = 0
      · rw [if_neg (not_not.mpr hq), if_pos hp, if_pos ⟨hq, hp⟩]
      · rw [if_pos hq, if_neg (fun hc => hq hc.1)]; exact (hr.moving hp).2.symm

theorem Port.HeldFalls.refl (now : Nat) (p : Port) : p.HeldFalls now p :=
  ⟨.inl rfl, rfl, by rw [if_neg (by tauto)]⟩

/-- What was taken at the earlier of two changes stays; else the later one takes it. -/
theorem Port.HeldFalls.then {a b : Nat} {p q r : Port} (h : p.HeldFalls a q) (k : q.HeldFalls b r) :
    (q.held.mag = 0 → p.HeldFalls a r) ∧ (q.held.mag ≠ 0 → p.HeldFalls b r) := by
  have hh := Setpoint.falls_trans h.held k.held
  have hl := k.lastDir.trans h.lastDir
  have hz := h.zeroSince
  refine ⟨fun hq => ⟨hh, hl, ?_⟩, fun hq => ⟨hh, hl, ?_⟩⟩
  · have hr : r.held.mag = 0 := by rcases k.held with e | e <;> [rw [e]; skip] <;> omega
    rw [k.zeroSince, if_neg (fun hc => hc.2 hq), hz]
    simp [hq, hr]
  · have hp : p.held.mag ≠ 0 := by
      rcases h.held with e | e
      · rw [← e]; exact hq
      · omega
    rw [k.zeroSince, hz]
    simp [hq, hp]

theorem Port.HeldFalls.trans {now : Nat} {p q r : Port} (h : p.HeldFalls now q) (k : q.HeldFalls now r) :
    p.HeldFalls now r := by
  by_cases hq : q.held.mag = 0
  · exact (h.then k).1 hq
  · exact (h.then k).2 hq

/-- A memory that fits goes on fitting while no publication comes. -/
theorem Port.HeldFalls.recalls {now : Nat} {p q : Port} (h : p.HeldFalls now q) (hr : p.Recalls)
    (hd : p.held.mag = 0 ↔ p.held.dir = .none) : q.Recalls := by
  have hz := h.zeroSince
  refine ⟨fun hq => ?_, fun hq => ?_⟩
  · have hp : p.held.mag ≠ 0 ∧ q.held.dir = p.held.dir := by
      rcases h.held with e | e
      · rw [← e]; exact ⟨hq, rfl⟩
      · exact ⟨by omega, e.2 hq⟩
    rw [h.lastDir, hz, if_neg (fun hc => hq hc.1), hp.2]
    exact hr.moving hp.1
  · rw [h.lastDir]
    by_cases hp : p.held.mag = 0
    · rw [hz, if_neg (fun hc => hc.2 hp)]; exact hr.still hp
    · rw [hz, if_pos ⟨hq, hp⟩, (hr.moving hp).1]
      simp [hd.not.mp hp]

/-- A settled change of which the change itself leaves memory and frames alone, as a publication does. -/
theorem Port.settle_published (e : PortEnv) (p q : Port) (hl : q.lastDir = p.lastDir)
    (hz : q.zeroSince = p.zeroSince) (hn : q.number = p.number) (hc : q.frameCount = p.frameCount)
    (ht : q.frameTimer = p.frameTimer) (hf : q.lastFrame = p.lastFrame) :
    p.Published e.now (Port.settle e p q) := by
  have hm : (Port.settle e p q).lastDir = (Port.remember e p q).lastDir
      ∧ (Port.settle e p q).zeroSince = (Port.remember e p q).zeroSince
      ∧ (Port.settle e p q).frameCount = (Port.announceLive p q).frameCount
      ∧ (Port.settle e p q).frameTimer = (Port.announceLive p q).frameTimer
      ∧ (Port.settle e p q).lastFrame = (Port.announceLive p q).lastFrame := by
    rw [Port.settle_eq]; exact ⟨rfl, rfl, rfl, rfl, rfl⟩
  obtain ⟨m1, m2, m3, m4, m5⟩ := hm
  refine ⟨fun h => ?_, fun h h2 => ?_, fun h h2 => ?_, fun h h2 => ?_, fun h => ?_, fun h => ?_⟩
  all_goals simp only [Port.settle_held, Port.settle_live] at *
  · rw [m1, m2]; unfold Port.remember; rw [if_pos h]; exact ⟨hl, hz⟩
  · rw [m1, m2]; unfold Port.remember; rw [if_neg h, if_pos h2]; exact ⟨rfl, rfl⟩
  · rw [m1, m2]; unfold Port.remember
    rw [if_neg (fun hc => by rw [hc] at h; exact h2 h), if_neg (not_not.mpr h), if_pos h2]; exact ⟨hl, rfl⟩
  · rw [m1, m2]; unfold Port.remember
    split
    · exact ⟨hl, hz⟩
    · rw [if_neg (not_not.mpr h), if_neg (not_not.mpr h2)]; exact ⟨hl, hz⟩
  · rw [m3, m4, m5]; unfold Port.announceLive; rw [if_pos h]; exact ⟨hc, ht, hf⟩
  · rw [m3, m4, m5]; unfold Port.announceLive; rw [if_neg h]
    unfold Port.sendFrame
    dsimp only
    rw [hc, hn]
    exact ⟨rfl, rfl, rfl⟩

/-- A memory that fits goes on fitting at a publication. -/
theorem Port.Published.recalls {now : Nat} {p q : Port} (h : p.Published now q) (hr : p.Recalls)
    (hd : p.held.mag = 0 ↔ p.held.dir = .none) : q.Recalls := by
  refine ⟨fun hq => ?_, fun hq => ?_⟩
  · by_cases e : q.held = p.held
    · rw [(h.same e).1, (h.same e).2, e]; exact hr.moving (e ▸ hq)
    · exact h.moves e hq
  · by_cases hp : p.held.mag = 0
    · rw [(h.zero hq hp).1, (h.zero hq hp).2]; exact hr.still hp
    · rw [(h.falls hq hp).1, (h.falls hq hp).2, (hr.moving hp).1]
      simp [hd.not.mp hp]

/-! ### Records the part can hold -/

@[simp] theorem Timer.isRunning_start (ms : Nat) : (Timer.start ms).isRunning = true := rfl
@[simp] theorem Timer.isRunning_stopped : Timer.stopped.isRunning = false := rfl
@[simp] theorem Timer.expired_stopped : Timer.stopped.expired = false := rfl

/-- A timer that has just been started with a length above 0 has not expired. -/
theorem Timer.expired_start (ms : Nat) (h : 0 < ms) : (Timer.start ms).expired = false := by
  simp [Timer.start, Timer.expired]; omega

/-- A timer that has expired runs. -/
theorem Timer.isRunning_of_expired {t : Timer} (h : t.expired = true) : t.isRunning = true := by
  cases t with
  | running _ _ => rfl
  | stopped => cases h

/-- The part of Port.Timed that settle does not see to. -/
structure Port.TimedCore (p : Port) : Prop where
  settling     : p.settling.isRunning = true → p.state = .vacant
  debounce     : p.debounce.isRunning = (p.state == .detecting)
  answer       : p.answer.isRunning = true → p.state = .identifying
  confirmation : p.confirmation.isRunning = (p.state == .energizing)
  quiet        : p.quiet.isRunning = true → p.state = .closing
  limit        : p.limit.isRunning = p.quiet.isRunning

/-- Port.Ok without the timers that settle sees to. -/
structure Port.CoreOk (n : PortNo) (p : Port) : Prop where
  number    : p.number = n
  fits      : p.Fits
  timed     : p.TimedCore
  commanded : p.Commanded
  inRange   : p.InRange

theorem Port.Ok.core {n : PortNo} {p : Port} (h : p.Ok n) : p.CoreOk n :=
  ⟨h.number, h.fits,
    ⟨h.timed.settling, h.timed.debounce, h.timed.answer, h.timed.confirmation, h.timed.quiet, h.timed.limit⟩,
    h.commanded, h.inRange⟩

theorem Port.live_mag_zero {p : Port} (h : p.state = .energized) : (p.live.mag = 0) = (p.held.mag = 0) := by
  simp [Port.live, h]

/-- A settled change of a record the part can hold is one, when the change is one up to the three timers
that settle sees to. -/
theorem Port.settle_ok {n : PortNo} {e : PortEnv} {p q : Port} (hp : p.Ok n) (hq : q.CoreOk n)
    (hod : q.openDelay = p.openDelay) : (Port.settle e p q).Ok n := by
  rw [Port.settle_eq]
  obtain ⟨hn, hf, ht, hc, hr⟩ := hq
  refine ⟨hn, ⟨hf.session, hf.held, hf.dir, hf.pending, hf.target, hf.fault⟩,
    ⟨ht.settling, ht.debounce, ht.answer, ht.confirmation, ?_, ht.quiet, ht.limit, ?_, ?_⟩,
    ⟨hc.closed, hc.opened⟩,
    ⟨hr.perCount, hr.threshold, hr.counters, hr.attempts, hr.run, hr.counts, hr.energies, hr.residue⟩⟩
  · have h := hp.timed.openDelay
    show Timer.isRunning (if q.state = .energized ∧ q.live.mag = 0 then _ else _) = _
    by_cases h1 : q.state = .energized ∧ q.live.mag = 0
    · rw [if_pos h1]
      have h1' : q.held.mag = 0 := by rw [← Port.live_mag_zero h1.1]; exact h1.2
      by_cases h2 : p.state = .energized ∧ p.live.mag = 0
      · rw [if_pos h2, hod, h]
        have h2' : p.held.mag = 0 := by rw [← Port.live_mag_zero h2.1]; exact h2.2
        simp [h1.1, h1', h2.1, h2']
      · rw [if_neg h2]; simp [h1.1, h1']
    · rw [if_neg h1]
      by_cases h3 : q.state = .energized
      · have : ¬ q.held.mag = 0 := by rw [← Port.live_mag_zero h3]; exact fun h => h1 ⟨h3, h⟩
        simp [this]
      · simp [h3]
  · show Timer.isRunning (if q.stallConditions then _ else _) = true → q.stallConditions = true
    by_cases h1 : q.stallConditions = true
    · intro _; exact h1
    · rw [if_neg h1]; simp
  · show Timer.isRunning (if q.weldConditions then _ else _) = true → q.weldConditions = true
    by_cases h1 : q.weldConditions = true
    · intro _; exact h1
    · rw [if_neg h1]; simp

/-! ### The changes of a port record -/

theorem Port.Fits.zero {p : Port} (h : p.Fits) : p.zeroHeld.Fits :=
  ⟨h.session, fun h' => absurd rfl h', by simp [Port.zeroHeld, Setpoint.zero], h.pending, h.target, h.fault⟩

/-- Lowering the held setpoint to 0 keeps a record the part can hold, up to settle. -/
theorem Port.CoreOk.zeroHeld {n : PortNo} {p : Port} (h : p.CoreOk n) : p.zeroHeld.CoreOk n :=
  ⟨h.number, h.fits.zero, ⟨h.timed.1, h.timed.2, h.timed.3, h.timed.4, h.timed.5, h.timed.6⟩,
    ⟨h.commanded.1, h.commanded.2⟩, ⟨h.inRange.1, h.inRange.2, h.inRange.3, h.inRange.4, h.inRange.5,
      h.inRange.6, h.inRange.7, h.inRange.8⟩⟩

/-- A record with another setpoint of the right form, in a state that can hold one. -/
theorem Port.CoreOk.withHeld {n : PortNo} {p : Port} (h : p.CoreOk n) (x : Setpoint)
    (hs : x.mag ≠ 0 → p.held.mag ≠ 0 ∨ p.state.powered = true) (hd : x.mag = 0 ↔ x.dir = .none) :
    Port.CoreOk n { p with held := x } :=
  ⟨h.number, ⟨h.fits.session, fun hx => (hs hx).elim h.fits.held id, hd, h.fits.pending, h.fits.target,
      h.fits.fault⟩,
    ⟨h.timed.1, h.timed.2, h.timed.3, h.timed.4, h.timed.5, h.timed.6⟩,
    ⟨h.commanded.1, h.commanded.2⟩, ⟨h.inRange.1, h.inRange.2, h.inRange.3, h.inRange.4, h.inRange.5,
      h.inRange.6, h.inRange.7, h.inRange.8⟩⟩

theorem Setpoint.make_dir {d : Dir} {w : Nat} (hd : d ≠ .none) :
    (Setpoint.make d w).mag = 0 ↔ (Setpoint.make d w).dir = .none := by
  unfold Setpoint.make; split <;> simp_all [Setpoint.zero]

theorem Port.CoreOk.zeroExport {n : PortNo} {p : Port} (h : p.CoreOk n) : p.zeroExport.CoreOk n := by
  unfold Port.zeroExport; split
  · exact h.zeroHeld
  · exact h

theorem Port.CoreOk.capTo {n : PortNo} {p : Port} (h : p.CoreOk n) (d : Dir) (hd : d ≠ .none) (c : Nat) :
    (p.capTo d c).CoreOk n := by
  unfold Port.capTo; split
  · next hc =>
    refine h.withHeld _ (fun _ => Or.inl ?_) (Setpoint.make_dir hd)
    omega
  · exact h

theorem Port.CoreOk.importToTierA {n : PortNo} {p : Port} (h : p.CoreOk n) (g : Nat) :
    (p.importToTierA g).CoreOk n := by
  unfold Port.importToTierA; split
  · next hc =>
    refine h.withHeld _ (fun _ => Or.inl ?_) (Setpoint.make_dir (by decide))
    rw [Ne, h.fits.dir, hc]; decide
  · exact h

end Sys2Proof.Machine
end

