-- ==== Sys2Proof/Laws/Tables.lean ====
section
/-! SUPPORT. What placing, replacing and freeing a slot of a table do, and that each keeps its canonical form. -/

namespace Sys2Proof.Machine

open Sys2Proof

variable {α : Type}

theorem insertRow_find (k j : Nat) (v : α) (rs : List (Nat × α)) (h : ∀ r ∈ rs, r.1 ≠ k) :
    ((insertRow k v rs).find? fun r => r.1 == j)
      = if j = k then some (k, v) else rs.find? fun r => r.1 == j := by
  induction rs with
  | nil =>
    by_cases hj : j = k
    · subst hj; simp [insertRow]
    · have : ¬ k = j := fun e => hj e.symm
      simp [insertRow, hj, this]
  | cons r rs ih =>
    have hr : r.1 ≠ k := h r (by simp)
    have ih' := ih fun x hx => h x (by simp [hx])
    by_cases hk : k < r.1
    · by_cases hj : j = k
      · subst hj; simp [insertRow, hk]
      · have : ¬ k = j := fun e => hj e.symm
        simp [insertRow, hk, hj, this]
    · by_cases hj : j = k
      · subst hj
        simp only [if_true] at ih'
        simp [insertRow, hk, hr, ih']
      · simp only [hj, if_false] at ih'
        simp only [insertRow, hk, hj, if_false, List.find?_cons, ih']

theorem Table.get_put_self (t : Table α) (k : Nat) (v : α) : (t.put k v).get k = some v := by
  have h : ∀ r ∈ (t.del k).rows, r.1 ≠ k := by intro r hr; simp_all [Table.del]
  simp [Table.get, Table.put, insertRow_find k k v _ h]

theorem find_filter_ne (rs : List (Nat × α)) {k j : Nat} (h : j ≠ k) :
    ((rs.filter fun r => r.1 != k).find? fun r => r.1 == j) = rs.find? fun r => r.1 == j := by
  induction rs with
  | nil => rfl
  | cons r rs ih =>
    by_cases hk : r.1 = k
    · have hj : ¬ r.1 = j := fun e => h (e.symm.trans hk)
      rw [List.filter_cons_of_neg (by simpa using hk), ih, List.find?_cons_of_neg (by simpa using hj)]
    · rw [List.filter_cons_of_pos (by simpa using hk), List.find?_cons, List.find?_cons, ih]

theorem Table.get_del_ne (t : Table α) {k j : Nat} (h : j ≠ k) : (t.del k).get j = t.get j := by
  simp only [Table.get, Table.del, find_filter_ne t.rows h]

theorem Table.get_del_self (t : Table α) (k : Nat) : (t.del k).get k = none := by
  simp [Table.get, Table.del]

theorem Table.get_put_ne (t : Table α) {k j : Nat} (v : α) (h : j ≠ k) :
    (t.put k v).get j = t.get j := by
  have hk : ∀ r ∈ (t.del k).rows, r.1 ≠ k := by intro r hr; simp_all [Table.del]
  simp only [Table.get, Table.put, insertRow_find k j v _ hk, h, if_false]
  simp only [Table.del, find_filter_ne t.rows h]

theorem Table.get_put (t : Table α) (k j : Nat) (v : α) :
    (t.put k v).get j = if j = k then some v else t.get j := by
  split
  · next h => subst h; exact t.get_put_self _ v
  · next h => exact t.get_put_ne v h

theorem mem_insertRow (k : Nat) (v : α) (rs : List (Nat × α)) (x : Nat × α) :
    x ∈ insertRow k v rs ↔ x = (k, v) ∨ x ∈ rs := by
  induction rs with
  | nil => simp [insertRow]
  | cons r rs ih => unfold insertRow; split <;> simp [ih]; tauto

theorem insertRow_rising (k : Nat) (v : α) (rs : List (Nat × α)) (hk : ∀ r ∈ rs, r.1 ≠ k)
    (h : rs.Pairwise fun a b => a.1 < b.1) : (insertRow k v rs).Pairwise fun a b => a.1 < b.1 := by
  induction rs with
  | nil => simp [insertRow]
  | cons r rs ih =>
    rw [List.pairwise_cons] at h
    have hr : r.1 ≠ k := hk r (by simp)
    unfold insertRow
    split
    · next hlt =>
      rw [List.pairwise_cons, List.pairwise_cons]
      refine ⟨?_, h⟩
      intro a ha
      rcases List.mem_cons.mp ha with rfl | ha
      · exact hlt
      · exact Nat.lt_trans hlt (h.1 a ha)
    · next hlt =>
      rw [List.pairwise_cons]
      refine ⟨?_, ih (fun x hx => hk x (by simp [hx])) h.2⟩
      intro a ha
      rcases (mem_insertRow k v rs a).mp ha with rfl | ha
      · show r.1 < k; omega
      · exact h.1 a ha

theorem Table.del_wf (t : Table α) (k : Nat) (h : t.wf) : (t.del k).wf := List.Pairwise.filter _ h

theorem Table.put_wf (t : Table α) (k : Nat) (v : α) (h : t.wf) : (t.put k v).wf :=
  insertRow_rising k v _ (by intro r hr; simp_all [Table.del]) (t.del_wf k h)

theorem Table.mem_put (t : Table α) (k : Nat) (v : α) (x : Nat × α) :
    x ∈ (t.put k v).rows ↔ x = (k, v) ∨ (x ∈ t.rows ∧ x.1 ≠ k) := by
  simp [Table.put, mem_insertRow, Table.del]

theorem Table.mem_of_get {t : Table α} {k : Nat} {v : α} (h : t.get k = some v) : (k, v) ∈ t.rows := by
  simp only [Table.get, Option.map_eq_some_iff] at h
  obtain ⟨r, hr, rfl⟩ := h
  have h1 := List.mem_of_find?_eq_some hr
  have h2 := List.find?_some hr
  simp at h2
  subst h2
  exact h1

theorem Table.get_of_mem {t : Table α} {k : Nat} {v : α} (w : t.wf) (h : (k, v) ∈ t.rows) :
    t.get k = some v := by
  obtain ⟨rows⟩ := t
  simp only [Table.get]
  simp only [Table.wf] at w h
  induction rows with
  | nil => simp at h
  | cons r rs ih =>
    rw [List.pairwise_cons] at w
    rcases List.mem_cons.mp h with rfl | h
    · simp
    · have : r.1 ≠ k := Nat.ne_of_lt (w.1 _ h)
      simp [this]
      simpa using ih w.2 h

theorem Table.get_none {t : Table α} {k : Nat} (h : t.get k = none) : ∀ r ∈ t.rows, r.1 ≠ k := by
  simpa [Table.get] using h

theorem Table.Ok.put {n : Nat} {t : Table α} (h : t.Ok n) {k : Nat} (hk : k < n) (v : α) :
    (t.put k v).Ok n := by
  refine ⟨t.put_wf k v h.rising, ?_⟩
  intro r hr
  rcases (t.mem_put k v r).mp hr with rfl | hr
  · exact hk
  · exact h.below r hr.1

theorem Table.Ok.del {n : Nat} {t : Table α} (h : t.Ok n) (k : Nat) : (t.del k).Ok n :=
  ⟨t.del_wf k h.rising, fun r hr => h.below r (by simp [Table.del] at hr; exact hr.1)⟩

theorem Table.Ok.empty (n : Nat) : (Table.mk ([] : List (Nat × α))).Ok n :=
  ⟨List.Pairwise.nil, fun _ h => absurd h (by simp)⟩

/-- Replacing a record by one with the same summary leaves the list of summaries as it was. -/
theorem insertRow_map {β : Type} (g : α → β) (k : Nat) (v b : α) (hg : g v = g b) :
    ∀ rs : List (Nat × α), rs.Pairwise (fun a c => a.1 < c.1) → (k, b) ∈ rs →
      (insertRow k v (rs.filter fun r => r.1 != k)).map (fun r => (r.1, g r.2))
        = rs.map fun r => (r.1, g r.2) := by
  intro rs w h
  induction rs with
  | nil => simp at h
  | cons r rs ih =>
    rw [List.pairwise_cons] at w
    by_cases hr : r.1 = k
    · have hall : ∀ x ∈ rs, x.1 ≠ k := fun x hx => by have := w.1 x hx; omega
      have hf : rs.filter (fun r => r.1 != k) = rs := by
        rw [List.filter_eq_self]; intro a ha; simpa using hall a ha
      have hb : r = (k, b) := by
        rcases List.mem_cons.mp h with h | h
        · exact h.symm
        · exact absurd rfl (hall _ h)
      subst hb
      simp only [bne_self_eq_false, Bool.false_eq_true, not_false_eq_true, List.filter_cons_of_neg, hf]
      cases rs with
      | nil => simp [insertRow, hg]
      | cons y ys =>
        have : k < y.1 := w.1 y (by simp)
        simp [insertRow, this, hg]
    · have hm : (k, b) ∈ rs := by
        rcases List.mem_cons.mp h with h | h
        · exact absurd (by rw [← h]) hr
        · exact h
      have hlt : ¬ k < r.1 := by have := w.1 _ hm; simp at this; omega
      simp only [bne_iff_ne, ne_eq, hr, not_false_eq_true, List.filter_cons_of_pos]
      simp only [insertRow, hlt, if_false, List.map_cons]
      rw [ih w.2 hm]

theorem Table.map_put {β : Type} (g : α → β) {t : Table α} (w : t.wf) {k : Nat} {b v : α}
    (h : t.get k = some b) (hg : g v = g b) :
    (t.put k v).rows.map (fun r => (r.1, g r.2)) = t.rows.map fun r => (r.1, g r.2) :=
  insertRow_map g k v b hg t.rows w (Table.mem_of_get h)

theorem Table.firstFree_some {t : Table α} {n k : Nat} (h : t.firstFree n = some k) :
    k < n ∧ t.get k = none := by
  have h1 := List.mem_of_find?_eq_some h
  have h2 := List.find?_some h
  simp at h1 h2
  exact ⟨h1, h2⟩

/-- The slot that firstFree gives is the lowest free one. -/
theorem Table.firstFree_least {t : Table α} {n k : Nat} (h : t.firstFree n = some k) :
    ∀ j < k, (t.get j).isSome := by
  intro j hj
  have h' := h
  unfold Table.firstFree at h'
  rw [List.find?_eq_some_iff_getElem] at h'
  obtain ⟨_, i, hi, he, hl⟩ := h'
  simp at he
  subst he
  have := hl j hj
  simp at this
  cases hg : t.get j <;> simp_all

theorem Table.firstFree_none {t : Table α} {n : Nat} (h : t.firstFree n = none) :
    ∀ j < n, (t.get j).isSome := by
  intro j hj
  unfold Table.firstFree at h
  rw [List.find?_eq_none] at h
  have := h j (by simpa using hj)
  cases hg : t.get j <;> simp_all

theorem Table.gen_bump_self (t : Table Nat) (k : Nat) : (t.bumpGen k).gen k = (t.gen k + 1) % 256 := by
  unfold Table.bumpGen
  split
  · next h => rw [h]; simp [Table.gen, Table.get_del_self]
  · next h => simp [Table.gen, Table.get_put_self]

theorem Table.gen_bump_ne (t : Table Nat) {k j : Nat} (h : j ≠ k) : (t.bumpGen k).gen j = t.gen j := by
  unfold Table.bumpGen
  split <;> simp [Table.gen, Table.get_del_ne, Table.get_put_ne, h]

theorem Table.Ok.bump {n : Nat} {t : Table Nat} (h : t.Ok n) {k : Nat} (hk : k < n) :
    (t.bumpGen k).Ok n := by
  unfold Table.bumpGen
  split
  · exact h.del k
  · exact h.put hk _

theorem Table.get_lt {n : Nat} {t : Table α} (h : t.Ok n) {k : Nat} {v : α} (hg : t.get k = some v) :
    k < n := h.below _ (Table.mem_of_get hg)

end Sys2Proof.Machine
end

