-- ==== Sys2Proof/Laws/Moves.lean ====
section
/-! SUPPORT. The moves that every block's work is made of, each with its own proviso, and what a chain of
moves keeps: the rings, mask and queue; the tables; the port records; locations and bound sessions. -/

namespace Sys2Proof.Machine

open Sys2Proof

/-- While no publication comes (v), a change of the record of port n lets its held setpoint only fall. -/
def Port.Follows (v : Bool) (now : Nat) (n : PortNo) (p q : Port) : Prop :=
  v = true → p.Ok n → p.Recalls → p.HeldFalls now q

/-- Depot time, the clock's state and the time since the current second began are those of s. -/
structure State.SameSecond (s t : State) : Prop where
  now   : t.now = s.now
  mode  : t.clock.mode = s.clock.mode
  phase : t.clock.phase = s.clock.phase

theorem State.SameSecond.refl (s : State) : s.SameSecond s := ⟨rfl, rfl, rfl⟩

theorem State.SameSecond.trans {s t u : State} (h1 : s.SameSecond t) (h2 : t.SameSecond u) : s.SameSecond u :=
  ⟨h2.now.trans h1.now, h2.mode.trans h1.mode, h2.phase.trans h1.phase⟩

/-- t is reached from s by the primitive changes that blocks make to the records they own; depot time and its
current second stay while `still` is true, and no publication comes while `falls` is true. -/
inductive Moves : State → State → (still : Bool := true) → (falls : Bool := true) → Prop
  | refl {w v : Bool} (s : State) : Moves s s w v
  | trans {w v : Bool} {s t u : State} : Moves s t w v → Moves t u w v → Moves s u w v
  | other {w v : Bool} {s t : State} (buses : t.buses = s.buses) (plans : t.plans = s.plans)
      (planGens : t.planGens = s.planGens) (ports : t.ports = s.ports) (commits : t.commits = s.commits)
      (commitGens : t.commitGens = s.commitGens) (ring : t.ring = s.ring) (mask : t.mask = s.mask)
      (pending : t.pending = s.pending) (ahead : s.Ahead → t.Ahead)
      (same : w = true → s.SameSecond t) : Moves s t w v
  | bus {w v : Bool} {s : State} (i : Nat) (b c : Bus) (h : s.bus i = some b) (hn : c.number = b.number)
      (hl : c.location = b.location) : Moves s (s.putBus i c) w v
  | buses {w v : Bool} {s : State} (f : Nat → Bus → Bus)
      (h : ∀ k b, (f k b).number = b.number ∧ (f k b).location = b.location) :
      Moves s { s with buses := ⟨s.buses.rows.map fun r => (r.1, f r.1 r.2)⟩ } w v
  | plan {w v : Bool} {s : State} (i : Nat) (p : Plan) (h : (s.plan i).isSome ∨ i < 512) : Moves s (s.putPlan i p) w v
  | freePlan {w v : Bool} {s : State} (i : Nat) (h : (s.plan i).isSome) : Moves s (s.freePlan i) w v
  | commit {w v : Bool} {s : State} (i : Nat) (c : Commitment) (h : (s.commit i).isSome ∨ i < 16)
      (ha : c.state = .active → (∃ d, s.commit i = some d ∧ d.state = .active) ∨
        ∀ j d, s.commit j = some d → d.state ≠ .active) : Moves s (s.putCommit i c) w v
  | commits {w v : Bool} {s : State} (f : Nat → Commitment → Commitment)
      (ha : ∀ k c, (f k c).state = .active → c.state = .active) :
      Moves s { s with commits := ⟨s.commits.rows.map fun r => (r.1, f r.1 r.2)⟩ } w v
  | freeCommit {w v : Bool} {s : State} (i : Nat) (h : (s.commit i).isSome) : Moves s (s.freeCommit i) w v
  | port {w v : Bool} {s : State} (n : PortNo) (p : Port)
      (h : (s.port n).Ok n → p.Ok n ∧ p.boundSlot = (s.port n).boundSlot)
      (hf : Port.Follows v s.now n (s.port n) p) : Moves s (s.putPort n p) w v
  | ports {w v : Bool} {s : State} (ps : Vector Port 24)
      (h : ∀ n : PortNo, (s.port n).Ok n → (ps[n]).Ok n ∧ (ps[n]).boundSlot = (s.port n).boundSlot)
      (hf : ∀ n : PortNo, Port.Follows v s.now n (s.port n) ps[n]) :
      Moves s { s with ports := ps } w v
  | unbind {w v : Bool} {s : State} (n : PortNo) (i : Nat) (b c : Bus) (p : Port) (hb : (s.port n).boundSlot = some i)
      (hp : (s.port n).Ok n → p.Ok n ∧ p.boundSlot = none) (h : s.bus i = some b)
      (hn : c.number = b.number) (hl : c.location = none)
      (hf : Port.Follows v s.now n (s.port n) p) :
      Moves s ((s.putPort n p).putBus i c) w v
  | unbindLost {w v : Bool} {s : State} (n : PortNo) (i : Nat) (p : Port) (hb : (s.port n).boundSlot = some i)
      (hp : (s.port n).Ok n → p.Ok n ∧ p.boundSlot = none) (h : s.bus i = none)
      (hf : Port.Follows v s.now n (s.port n) p) :
      Moves s (s.putPort n p) w v
  | bind {w v : Bool} {s : State} (n : PortNo) (i : Nat) (b c : Bus) (p : Port)
      (hp : (s.port n).Ok n → p.Ok n ∧ p.boundSlot = some i ∧ (s.port n).boundSlot = none)
      (h : s.bus i = some b) (hb : b.location = none) (hn : c.number = b.number)
      (hl : c.location = some n)
      (hf : Port.Follows v s.now n (s.port n) p) :
      Moves s ((s.putPort n p).putBus i c) w v
  | enrol {w v : Bool} {s : State} (i : Nat) (b : Bus) (h : s.buses.firstFree 192 = some i) (hl : b.location = none)
      (hn : s.findBus b.number = none) : Moves s (s.putBus i b) w v
  | retire {w v : Bool} {s : State} (i : Nat) (b : Bus) (h : s.bus i = some b) (hl : b.location = none) :
      Moves s { s with buses := s.buses.del i } w v

/-! ### What every chain of moves keeps -/

/-- No block's work touches the Ring Interface, the attention mask or the queue. -/
theorem Moves.beside {s t : State} {w v : Bool} (h : Moves s t w v) :
    t.ring = s.ring ∧ t.mask = s.mask ∧ t.pending = s.pending := by
  induction h with
  | refl s => exact ⟨rfl, rfl, rfl⟩
  | trans _ _ h1 h2 => exact ⟨h2.1.trans h1.1, h2.2.1.trans h1.2.1, h2.2.2.trans h1.2.2⟩
  | other _ _ _ _ _ _ hr hm hp _ _ => exact ⟨hr, hm, hp⟩
  | bus => exact ⟨rfl, rfl, rfl⟩
  | buses => exact ⟨rfl, rfl, rfl⟩
  | plan => exact ⟨rfl, rfl, rfl⟩
  | freePlan => exact ⟨rfl, rfl, rfl⟩
  | commit => exact ⟨rfl, rfl, rfl⟩
  | commits => exact ⟨rfl, rfl, rfl⟩
  | freeCommit => exact ⟨rfl, rfl, rfl⟩
  | port => exact ⟨rfl, rfl, rfl⟩
  | ports => exact ⟨rfl, rfl, rfl⟩
  | unbind => exact ⟨rfl, rfl, rfl⟩
  | unbindLost => exact ⟨rfl, rfl, rfl⟩
  | bind => exact ⟨rfl, rfl, rfl⟩
  | enrol => exact ⟨rfl, rfl, rfl⟩
  | retire => exact ⟨rfl, rfl, rfl⟩

theorem State.port_putPort_self (s : State) (n : PortNo) (p : Port) : (s.putPort n p).port n = p := by
  simp [State.port, State.putPort]

theorem State.port_putPort_ne (s : State) {n m : PortNo} (p : Port) (h : m ≠ n) :
    (s.putPort n p).port m = s.port m := by
  have : (n : Nat) ≠ (m : Nat) := fun e => h (Fin.ext e).symm
  simp [State.port, State.putPort, this]

theorem State.port_putPort (s : State) (n m : PortNo) (p : Port) :
    (s.putPort n p).port m = if m = n then p else s.port m := by
  split
  · next h => subst h; exact s.port_putPort_self _ p
  · next h => exact s.port_putPort_ne p h

@[simp] theorem State.port_putBus (s : State) (i : Nat) (b : Bus) (n : PortNo) :
    (s.putBus i b).port n = s.port n := rfl

theorem State.bus_putBus (s : State) (i j : Nat) (b : Bus) :
    (s.putBus i b).bus j = if j = i then some b else s.bus j := Table.get_put s.buses i j b

@[simp] theorem State.bus_putPort (s : State) (n : PortNo) (p : Port) (i : Nat) :
    (s.putPort n p).bus i = s.bus i := rfl

/-- The port records stay ones the part can hold. -/
theorem Moves.portsOk {s t : State} {w v : Bool} (h : Moves s t w v) : s.PortsOk → t.PortsOk := by
  induction h with
  | refl s => exact id
  | trans _ _ h1 h2 => exact fun h => h2 (h1 h)
  | other _ _ _ hp => intro h n; have := h n; simpa [State.port, hp] using this
  | bus => exact id
  | buses => exact id
  | plan => exact id
  | freePlan => exact id
  | commit => exact id
  | commits => exact id
  | freeCommit => exact id
  | port n p hp =>
    intro h m; rw [State.port_putPort]; split
    · next e => subst e; exact (hp (h _)).1
    · exact h m
  | ports v hv => intro h n; exact (hv n (h n)).1
  | unbind n i b c p hb hp =>
    intro h m; rw [State.port_putBus, State.port_putPort]; split
    · next e => subst e; exact (hp (h _)).1
    · exact h m
  | unbindLost n i p hb hp =>
    intro h m; rw [State.port_putPort]; split
    · next e => subst e; exact (hp (h _)).1
    · exact h m
  | bind n i b c p hp =>
    intro h m; rw [State.port_putBus, State.port_putPort]; split
    · next e => subst e; exact (hp (h _)).1
    · exact h m
  | enrol => exact id
  | retire => exact id

theorem State.TablesOk.of_eq {s t : State} (h : s.TablesOk) (h1 : t.buses = s.buses)
    (h2 : t.plans = s.plans) (h3 : t.planGens = s.planGens) (h4 : t.commits = s.commits)
    (h5 : t.commitGens = s.commitGens) : t.TablesOk :=
  ⟨h1 ▸ h.buses, h2 ▸ h.plans, h3 ▸ h.planGens, h4 ▸ h.commits, h5 ▸ h.commitGens, h1 ▸ h.numbers⟩

theorem Table.Ok.map {α : Type} {n : Nat} {t : Table α} (h : t.Ok n) (f : Nat → α → α) :
    (Table.mk (t.rows.map fun r => (r.1, f r.1 r.2))).Ok n := by
  refine ⟨?_, ?_⟩
  · show List.Pairwise _ _
    rw [List.pairwise_map]
    exact h.rising.imp fun h => h
  · intro r hr
    obtain ⟨x, hx, rfl⟩ := List.mem_map.mp hr
    exact h.below x hx

theorem State.TablesOk.putBus {s : State} (h : s.TablesOk) {i : Nat} {b c : Bus} (hb : s.bus i = some b)
    (hn : c.number = b.number) : (s.putBus i c).TablesOk := by
  refine ⟨h.buses.put (Table.get_lt h.buses hb) c, h.plans, h.planGens, h.commits, h.commitGens, ?_⟩
  have hm := Table.map_put Bus.number h.buses.rising hb hn
  have : ((s.buses.put i c).rows.map fun r => r.2.number) = s.buses.rows.map fun r => r.2.number := by
    have := congrArg (List.map Prod.snd) hm
    simpa [List.map_map, Function.comp_def] using this
  show ((s.buses.put i c).rows.map fun r => r.2.number).Nodup
  rw [this]; exact h.numbers

/-- The tables stay in canonical form, and bus numbers distinct. -/
theorem Moves.tablesOk {s t : State} {w v : Bool} (h : Moves s t w v) : s.TablesOk → t.TablesOk := by
  induction h with
  | refl s => exact id
  | trans _ _ h1 h2 => exact fun h => h2 (h1 h)
  | other h1 h2 h3 _ h4 h5 => exact fun h => h.of_eq h1 h2 h3 h4 h5
  | bus i b c hb hn => exact fun h => h.putBus hb hn
  | buses f hf =>
    intro h
    refine ⟨h.buses.map f, h.plans, h.planGens, h.commits, h.commitGens, ?_⟩
    have := h.numbers
    simpa [List.map_map, Function.comp_def, hf] using this
  | plan i p hi =>
    intro h
    have : i < 512 := hi.elim (fun hs => by
      obtain ⟨q, hq⟩ := Option.isSome_iff_exists.mp hs; exact Table.get_lt h.plans hq) id
    exact ⟨h.buses, h.plans.put this p, h.planGens, h.commits, h.commitGens, h.numbers⟩
  | freePlan i hi =>
    intro h
    obtain ⟨q, hq⟩ := Option.isSome_iff_exists.mp hi
    exact ⟨h.buses, h.plans.del i, h.planGens.bump (Table.get_lt h.plans hq), h.commits, h.commitGens,
      h.numbers⟩
  | commit i c hi _ =>
    intro h
    have : i < 16 := hi.elim (fun hs => by
      obtain ⟨q, hq⟩ := Option.isSome_iff_exists.mp hs; exact Table.get_lt h.commits hq) id
    exact ⟨h.buses, h.plans, h.planGens, h.commits.put this c, h.commitGens, h.numbers⟩
  | commits f _ =>
    exact fun h => ⟨h.buses, h.plans, h.planGens, h.commits.map f, h.commitGens, h.numbers⟩
  | freeCommit i hi =>
    intro h
    obtain ⟨q, hq⟩ := Option.isSome_iff_exists.mp hi
    exact ⟨h.buses, h.plans, h.planGens, h.commits.del i, h.commitGens.bump (Table.get_lt h.commits hq),
      h.numbers⟩
  | port n p => exact fun h => h.of_eq rfl rfl rfl rfl rfl
  | ports v => exact fun h => h.of_eq rfl rfl rfl rfl rfl
  | @unbind _ _ s n i b c p hb hp hi hn =>
    exact fun h => (State.TablesOk.of_eq (t := s.putPort n p) h rfl rfl rfl rfl rfl).putBus hi hn
  | unbindLost n i p => exact fun h => h.of_eq rfl rfl rfl rfl rfl
  | @bind _ _ s n i b c p hp hi hb hn =>
    exact fun h => (State.TablesOk.of_eq (t := s.putPort n p) h rfl rfl rfl rfl rfl).putBus hi hn
  | @enrol _ _ s i b hf hl hn =>
    intro h
    have hk := Table.firstFree_some hf
    refine ⟨h.buses.put hk.1 b, h.plans, h.planGens, h.commits, h.commitGens, ?_⟩
    have hfresh : ∀ r ∈ s.buses.rows, r.2.number ≠ b.number := by
      simpa [State.findBus] using hn
    have hdel : (s.buses.del i).rows = s.buses.rows := by
      simp only [Table.del, List.filter_eq_self]
      intro r hr; simpa using Table.get_none hk.2 r hr
    show ((s.buses.put i b).rows.map fun r => r.2.number).Nodup
    have : ∀ rs : List (Nat × Bus), (∀ r ∈ rs, r.2.number ≠ b.number) →
        (rs.map fun r => r.2.number).Nodup → ((insertRow i b rs).map fun r => r.2.number).Nodup := by
      intro rs
      induction rs with
      | nil => intro _ _; simp [insertRow]
      | cons r rs ih =>
        intro h1 h2
        rw [List.map_cons, List.nodup_cons] at h2
        unfold insertRow
        split
        · rw [List.map_cons, List.nodup_cons, List.map_cons, List.nodup_cons]
          refine ⟨?_, h2⟩
          simp only [List.mem_cons, List.mem_map, not_or, not_exists, not_and]
          exact ⟨fun e => h1 r (by simp) e.symm, fun x hx e => h1 x (by simp [hx]) e⟩
        · rw [List.map_cons, List.nodup_cons]
          refine ⟨?_, ih (fun x hx => h1 x (by simp [hx])) h2.2⟩
          simp only [List.mem_map, not_exists, not_and]
          intro x hx e
          rcases (mem_insertRow i b rs x).mp hx with rfl | hx
          · exact h1 r (by simp) e.symm
          · exact h2.1 (List.mem_map.mpr ⟨x, hx, e⟩)
    simp only [Table.put, hdel]
    exact this _ hfresh h.numbers
  | retire i b hb hl =>
    intro h
    refine ⟨h.buses.del i, h.plans, h.planGens, h.commits, h.commitGens, ?_⟩
    exact h.numbers.sublist (List.Sublist.map _ List.filter_sublist)

theorem Table.get_map {α : Type} (t : Table α) (f : Nat → α → α) (k : Nat) :
    (Table.mk (t.rows.map fun r => (r.1, f r.1 r.2))).get k = (t.get k).map (f k) := by
  obtain ⟨rows⟩ := t
  simp only [Table.get]
  induction rows with
  | nil => rfl
  | cons r rs ih =>
    by_cases h : r.1 = k
    · subst h; simp
    · simp [h]
      simpa using ih

/-- Locations and bound sessions keep agreeing. -/
theorem Moves.agrees {s t : State} {w v : Bool} (h : Moves s t w v) : s.PortsOk → s.Agrees → t.Agrees := by
  induction h with
  | refl s => exact fun _ => id
  | trans m1 _ h1 h2 => exact fun hp h => h2 (m1.portsOk hp) (h1 hp h)
  | other h1 _ _ h2 =>
    intro _ h i n; have := h i n; simpa [State.port, State.bus, h1, h2] using this
  | @bus _ _ s i b c hb hn hl =>
    intro _ h j n
    rw [State.port_putBus, State.bus_putBus, h j n]
    split
    · next e => subst e; simp [hb, hl]
    · rfl
  | @buses _ _ s f hf =>
    intro _ h j n
    have hj := h j n
    show (s.port n).boundSlot = some j ↔ _
    rw [hj]
    simp only [State.bus, Table.get_map]
    cases hg : s.buses.get j <;> simp [hf]
  | plan => exact fun _ => id
  | freePlan => exact fun _ => id
  | commit => exact fun _ => id
  | commits => exact fun _ => id
  | freeCommit => exact fun _ => id
  | @port _ _ s n p hp =>
    intro ho h j m
    rw [State.bus_putPort, ← h j m, State.port_putPort]
    split
    · next e => subst e; rw [(hp (ho _)).2]
    · rfl
  | @ports _ _ s v hv =>
    intro ho h j m
    rw [show (State.port { s with ports := v } m).boundSlot = _ from (hv m (ho m)).2]
    exact h j m
  | @unbind _ _ s n i b c p hb hp hi hn hl =>
    intro ho h j m
    have hloc := (h i n).mp hb
    obtain ⟨b', hb', hl'⟩ := hloc
    rw [State.port_putBus, State.bus_putBus, State.port_putPort, State.bus_putPort]
    by_cases hm : m = n
    · subst hm
      rw [if_pos rfl, (hp (ho m)).2]
      by_cases hj : j = i
      · subst hj; simp [hl]
      · rw [if_neg hj, ← h j m, hb]; simp; exact fun e => hj e.symm
    · rw [if_neg hm]
      by_cases hj : j = i
      · subst hj
        rw [if_pos rfl, h j m, hb']
        simp [hl, hl']; exact fun e => hm e.symm
      · rw [if_neg hj]; exact h j m
  | @unbindLost _ _ s n i p hb hp hi =>
    intro ho h
    obtain ⟨b, hb', _⟩ := (h i n).mp hb
    rw [hi] at hb'; cases hb'
  | @bind _ _ s n i b c p hp hi hb hn hl =>
    intro ho h j m
    obtain ⟨_, hpb, hnone⟩ := hp (ho n)
    rw [State.port_putBus, State.bus_putBus, State.port_putPort, State.bus_putPort]
    by_cases hm : m = n
    · subst hm
      rw [if_pos rfl, hpb]
      by_cases hj : j = i
      · subst hj; simp [hl]
      · rw [if_neg hj, ← h j m, hnone]; simp; exact fun e => hj e.symm
    · rw [if_neg hm]
      by_cases hj : j = i
      · subst hj
        rw [if_pos rfl, h j m, hi]
        simp [hb, hl]; exact fun e => hm e.symm
      · rw [if_neg hj]; exact h j m
  | @enrol _ _ s i b hf hl hn =>
    intro _ h j m
    rw [State.port_putBus, State.bus_putBus]
    split
    · next e =>
      subst e
      rw [h j m]
      have : s.bus j = none := (Table.firstFree_some hf).2
      simp [this, hl]
    · exact h j m
  | @retire _ _ s i b hb hl =>
    intro _ h j m
    rw [show (State.port { s with buses := s.buses.del i } m).boundSlot = (s.port m).boundSlot from rfl, h j m]
    by_cases hj : j = i
    · subst hj
      rw [show State.bus { s with buses := s.buses.del j } j = none from Table.get_del_self _ _, hb]
      simp [hl]
    · rw [show State.bus { s with buses := s.buses.del i } j = s.bus j from Table.get_del_ne _ hj]

theorem State.commit_putCommit (s : State) (i j : Nat) (c : Commitment) :
    (s.putCommit i c).commit j = if j = i then some c else s.commit j := Table.get_put s.commits i j c

theorem Table.get_del_some {α : Type} (t : Table α) {k j : Nat} {v : α} (h : (t.del k).get j = some v) :
    t.get j = some v := by
  by_cases e : j = k
  · subst e; rw [Table.get_del_self] at h; cases h
  · rwa [Table.get_del_ne _ e] at h

/-- Registrations stay ahead of depot time. -/
theorem Moves.ahead {s t : State} {w v : Bool} (h : Moves s t w v) : s.Ahead → t.Ahead := by
  induction h with
  | refl s => exact id
  | trans _ _ h1 h2 => exact fun h => h2 (h1 h)
  | other _ _ _ _ _ _ _ _ _ ha _ => exact ha
  | bus => exact id
  | buses => exact id
  | plan => exact id
  | freePlan => exact id
  | commit => exact id
  | commits => exact id
  | freeCommit => exact id
  | port => exact id
  | ports => exact id
  | unbind => exact id
  | unbindLost => exact id
  | bind => exact id
  | enrol => exact id
  | retire => exact id

/-- At most one commitment stays ACTIVE. -/
theorem Moves.oneActive {s t : State} {w v : Bool} (h : Moves s t w v) : s.OneActive → t.OneActive := by
  induction h with
  | refl s => exact id
  | trans _ _ h1 h2 => exact fun h => h2 (h1 h)
  | other _ _ _ _ hc =>
    intro h i j c d; have := h i j c d; simpa [State.commit, hc] using this
  | bus => exact id
  | buses => exact id
  | plan => exact id
  | freePlan => exact id
  | @commit _ _ s i x hi hx =>
    intro h j k c d hj hk hc hd
    rw [State.commit_putCommit] at hj hk
    split at hj
    · next e1 =>
      split at hk
      · next e2 => rw [e1, e2]
      · cases hj
        rcases hx hc with ⟨y, hy, hya⟩ | hno
        · rw [e1]; exact h i k y d hy hk hya hd
        · exact absurd hd (hno k d hk)
    · split at hk
      · next e2 =>
        cases hk
        rcases hx hd with ⟨y, hy, hya⟩ | hno
        · rw [e2]; exact h j i c y hj hy hc hya
        · exact absurd hc (hno j c hj)
      · exact h j k c d hj hk hc hd
  | @commits _ _ s f hf =>
    intro h j k c d hj hk hc hd
    have gm (n : Nat) : State.commit { s with commits := ⟨s.commits.rows.map fun r => (r.1, f r.1 r.2)⟩ } n
        = (s.commit n).map (f n) := Table.get_map s.commits f n
    rw [gm] at hj hk
    obtain ⟨c', hc', rfl⟩ := Option.map_eq_some_iff.mp hj
    obtain ⟨d', hd', rfl⟩ := Option.map_eq_some_iff.mp hk
    exact h j k c' d' hc' hd' (hf _ _ hc) (hf _ _ hd)
  | freeCommit i =>
    intro h j k c d hj hk
    exact h j k c d (Table.get_del_some _ hj) (Table.get_del_some _ hk)
  | port => exact id
  | ports => exact id
  | unbind => exact id
  | unbindLost => exact id
  | bind => exact id
  | enrol => exact id
  | retire => exact id

/-- A chain of which less is said is a chain. -/
theorem Moves.weaken {s t : State} {w v w' v' : Bool} (h : Moves s t w v) (hw : w' = true → w = true)
    (hv : v' = true → v = true) : Moves s t w' v' := by
  induction h with
  | refl s => exact .refl s
  | trans _ _ h1 h2 => exact .trans (h1 hw hv) (h2 hw hv)
  | other a b c d e f g h i j k => exact .other a b c d e f g h i j fun e => k (hw e)
  | bus i b c h1 h2 h3 => exact .bus i b c h1 h2 h3
  | buses f h1 => exact .buses f h1
  | plan i p h1 => exact .plan i p h1
  | freePlan i h1 => exact .freePlan i h1
  | commit i c h1 h2 => exact .commit i c h1 h2
  | commits f h1 => exact .commits f h1
  | freeCommit i h1 => exact .freeCommit i h1
  | port n p h1 h2 => exact .port n p h1 fun e => h2 (hv e)
  | ports ps h1 h2 => exact .ports ps h1 fun n e => h2 n (hv e)
  | unbind n i b c p h1 h2 h3 h4 h5 h6 => exact .unbind n i b c p h1 h2 h3 h4 h5 fun e => h6 (hv e)
  | unbindLost n i p h1 h2 h3 h6 => exact .unbindLost n i p h1 h2 h3 fun e => h6 (hv e)
  | bind n i b c p h1 h2 h3 h4 h5 h6 => exact .bind n i b c p h1 h2 h3 h4 h5 fun e => h6 (hv e)
  | enrol i b h1 h2 h3 => exact .enrol i b h1 h2 h3
  | retire i b h1 h2 => exact .retire i b h1 h2

/-- A chain that leaves depot time alone is a chain. -/
theorem Moves.any {s t : State} {w v w' : Bool} (h : Moves s t w v) (hw : w = true) : Moves s t w' v :=
  h.weaken (fun _ => hw) id

/-- A chain without a publication is a chain. -/
theorem Moves.wide {s t : State} {w v : Bool} (h : Moves s t w) : Moves s t w v := h.weaken id fun _ => rfl

/-- Depot time, the clock's state and the current second stay. -/
theorem Moves.sameSecond {s t : State} {w v : Bool} (h : Moves s t w v) (hw : w = true) : s.SameSecond t := by
  induction h with
  | refl s => exact .refl s
  | trans _ _ h1 h2 => exact (h1 hw).trans (h2 hw)
  | other _ _ _ _ _ _ _ _ _ _ k => exact k hw
  | bus => exact ⟨rfl, rfl, rfl⟩
  | buses => exact ⟨rfl, rfl, rfl⟩
  | plan => exact ⟨rfl, rfl, rfl⟩
  | freePlan => exact ⟨rfl, rfl, rfl⟩
  | commit => exact ⟨rfl, rfl, rfl⟩
  | commits => exact ⟨rfl, rfl, rfl⟩
  | freeCommit => exact ⟨rfl, rfl, rfl⟩
  | port => exact ⟨rfl, rfl, rfl⟩
  | ports => exact ⟨rfl, rfl, rfl⟩
  | unbind => exact ⟨rfl, rfl, rfl⟩
  | unbindLost => exact ⟨rfl, rfl, rfl⟩
  | bind => exact ⟨rfl, rfl, rfl⟩
  | enrol => exact ⟨rfl, rfl, rfl⟩
  | retire => exact ⟨rfl, rfl, rfl⟩

/-- Depot time stays. -/
theorem Moves.now {s t : State} {w v : Bool} (h : Moves s t w v) (hw : w = true) : t.now = s.now :=
  (h.sameSecond hw).now

/-- Without a publication every held setpoint only falls, and the memory follows it (R66, R67). -/
theorem Moves.falls {s t : State} {w v : Bool} (h : Moves s t w v) (hw : w = true) (hv : v = true) :
    s.PortsOk → s.Recalls → ∀ n : PortNo, (s.port n).HeldFalls s.now (t.port n) := by
  induction h with
  | refl s => exact fun _ _ n => .refl _ _
  | trans m1 m2 h1 h2 =>
    intro ho hr n
    have f1 := h1 hw hv ho hr
    have f2 := h2 hw hv (m1.portsOk ho) (fun m => (f1 m).recalls (hr m) (ho m).fits.dir) n
    rw [m1.now hw] at f2
    exact (f1 n).trans f2
  | @other _ _ s t _ _ _ hp =>
    intro _ _ n
    have : t.port n = s.port n := by unfold State.port; rw [hp]
    rw [this]; exact .refl _ _
  | bus => exact fun _ _ n => .refl _ _
  | buses => exact fun _ _ n => .refl _ _
  | plan => exact fun _ _ n => .refl _ _
  | freePlan => exact fun _ _ n => .refl _ _
  | commit => exact fun _ _ n => .refl _ _
  | commits => exact fun _ _ n => .refl _ _
  | freeCommit => exact fun _ _ n => .refl _ _
  | port n p hp hf =>
    intro ho hr m; rw [State.port_putPort]; split
    · next e => subst e; exact hf hv (ho _) (hr _)
    · exact .refl _ _
  | ports ps hp hf => exact fun ho hr n => hf n hv (ho n) (hr n)
  | unbind n i b c p hb hp h hn hl hf =>
    intro ho hr m; rw [State.port_putBus, State.port_putPort]; split
    · next e => subst e; exact hf hv (ho _) (hr _)
    · exact .refl _ _
  | unbindLost n i p hb hp h hf =>
    intro ho hr m; rw [State.port_putPort]; split
    · next e => subst e; exact hf hv (ho _) (hr _)
    · exact .refl _ _
  | bind n i b c p hp h hb hn hl hf =>
    intro ho hr m; rw [State.port_putBus, State.port_putPort]; split
    · next e => subst e; exact hf hv (ho _) (hr _)
    · exact .refl _ _
  | enrol => exact fun _ _ n => .refl _ _
  | retire => exact fun _ _ n => .refl _ _

/-- Without a publication the memory goes on fitting. -/
theorem Moves.recalls {s t : State} {w v : Bool} (h : Moves s t w v) (hw : w = true) (hv : v = true)
    (ho : s.PortsOk) (hr : s.Recalls) : t.Recalls :=
  fun n => (h.falls hw hv ho hr n).recalls (hr n) (ho n).fits.dir

end Sys2Proof.Machine
end

