-- ==== Sys2Proof/Laws/Blocks.lean ====
section
/-! SUPPORT. Every operation of the Plan Table, the Readiness Evaluator, the Reserve Unit, the Site
Profile and the ports is a chain of moves. -/

namespace Sys2Proof.Machine

open Sys2Proof

/-! ### Ports -/

theorem Moves.updPort {s : State} {v : Bool} (n : PortNo) (f : Port → Port)
    (h : (s.port n).Ok n → (f (s.port n)).CoreOk n ∧ (f (s.port n)).openDelay = (s.port n).openDelay
      ∧ (f (s.port n)).boundSlot = (s.port n).boundSlot)
    (hl : v = true → (s.port n).Ok n → (s.port n).Lowers (f (s.port n)) := by
      exact fun _ _ => ⟨.inl rfl, rfl, rfl⟩) : Moves s (s.updPort n f) true v :=
  .port n _ (fun ho => ⟨Port.settle_ok ho (h ho).1 (h ho).2.1, by simp [(h ho).2.2]⟩)
    fun hv ho => Port.settle_falls s.env (hl hv ho)

/-- The held setpoint and the direction memory are left alone. -/
def Port.Steady (p q : Port) : Prop := q.held = p.held ∧ q.lastDir = p.lastDir ∧ q.zeroSince = p.zeroSince

theorem Port.Steady.trans {p q r : Port} (h : p.Steady q) (k : q.Steady r) : p.Steady r :=
  ⟨k.1.trans h.1, k.2.1.trans h.2.1, k.2.2.trans h.2.2⟩

theorem Port.Steady.falls {p q : Port} (h : p.Steady q) (now : Nat) : p.HeldFalls now q :=
  ⟨.inl h.1, h.2.1, by rw [h.1, h.2.2, if_neg (by tauto)]⟩

theorem Port.Steady.lowers {p q : Port} (h : p.Steady q) : p.Lowers q := ⟨.inl h.1, h.2.1, h.2.2⟩

/-- A change of a port record that leaves the held setpoint and the direction memory as they are. -/
theorem Moves.setPort {s : State} {v : Bool} (n : PortNo) (f : Port → Port)
    (h : (s.port n).Ok n → (f (s.port n)).Ok n ∧ (f (s.port n)).boundSlot = (s.port n).boundSlot)
    (hs : (s.port n).Steady (f (s.port n)) := by exact ⟨rfl, rfl, rfl⟩) : Moves s (s.setPort n f) true v :=
  .port n _ h fun _ _ _ => hs.falls s.now

theorem Moves.updPorts {s : State} {v : Bool} (f : PortNo → Port → Port)
    (h : ∀ n, (s.port n).Ok n → (f n (s.port n)).CoreOk n
      ∧ (f n (s.port n)).openDelay = (s.port n).openDelay
      ∧ (f n (s.port n)).boundSlot = (s.port n).boundSlot)
    (hl : v = true → ∀ n, (s.port n).Ok n → (s.port n).Lowers (f n (s.port n)) := by
      exact fun _ _ _ => ⟨.inl rfl, rfl, rfl⟩) : Moves s (s.updPorts f) true v := by
  have e (n : PortNo) : (Vector.ofFn fun n : PortNo => Port.settle s.env s.ports[n] (f n s.ports[n]))[n]
      = Port.settle s.env (s.port n) (f n (s.port n)) := by simp [State.port]
  refine .ports _ (fun n ho => ?_) fun n hv ho => ?_
  · rw [e]; exact ⟨Port.settle_ok ho (h n ho).1 (h n ho).2.1, by simp [(h n ho).2.2]⟩
  · rw [e]; exact Port.settle_falls s.env (hl hv n ho)

/-! ### Lowerings of the held setpoint -/

/-- A held setpoint that becomes 0. -/
theorem Port.Lowers.to_zero {n : PortNo} {p q : Port} (ho : p.CoreOk n) (h : q.held = .zero)
    (hd : q.lastDir = p.lastDir) (hz : q.zeroSince = p.zeroSince) : p.Lowers q := by
  refine ⟨?_, hd, hz⟩
  by_cases hm : p.held.mag = 0
  · have := ho.fits.dir.mp hm
    left; rw [h]; cases hh : p.held; simp_all [Setpoint.zero]
  · right; rw [h]
    exact ⟨Nat.pos_of_ne_zero hm, fun e => absurd rfl e⟩

theorem Port.CoreOk.lowers_zeroHeld {n : PortNo} {p : Port} (ho : p.CoreOk n) : p.Lowers p.zeroHeld :=
  .to_zero ho rfl rfl rfl

theorem Port.CoreOk.lowers_zeroExport {n : PortNo} {p : Port} (ho : p.CoreOk n) : p.Lowers p.zeroExport := by
  unfold Port.zeroExport; split
  · exact ho.lowers_zeroHeld
  · exact .refl p

/-- A setpoint made of a smaller power in its own direction. -/
theorem Setpoint.make_falls {x : Setpoint} {w : Nat} (h : w < x.mag) :
    Setpoint.make x.dir w = x
      ∨ ((Setpoint.make x.dir w).mag < x.mag ∧ ((Setpoint.make x.dir w).mag ≠ 0 →
        (Setpoint.make x.dir w).dir = x.dir)) := by
  right
  unfold Setpoint.make
  split
  · exact ⟨by show 0 < x.mag; omega, fun e => absurd rfl e⟩
  · exact ⟨h, fun _ => rfl⟩

theorem Port.lowers_capTo (p : Port) (d : Dir) (c : Nat) : p.Lowers (p.capTo d c) := by
  unfold Port.capTo; split
  · next h =>
    refine ⟨?_, rfl, rfl⟩
    rw [← h.1]
    exact Setpoint.make_falls (by unfold down100; omega)
  · exact .refl p

theorem Port.CoreOk.lowers_importToTierA {n : PortNo} {p : Port} (ho : p.CoreOk n) (g : Nat) :
    p.Lowers (p.importToTierA g) := by
  unfold Port.importToTierA; split
  · next h =>
    refine ⟨?_, rfl, rfl⟩
    by_cases hg : p.held.mag ≤ g
    · left
      have hm : p.held.mag ≠ 0 := by rw [Ne, ho.fits.dir, h]; decide
      rw [Nat.min_eq_left hg]
      unfold Setpoint.make
      rw [if_neg hm]
      cases hh : p.held; simp_all
    · rw [← h]
      exact Setpoint.make_falls (by omega)
  · exact .refl p

/-- Fields that no part of Port.Ok and no binding depends on. -/
theorem Port.Ok.raise {n : PortNo} {p : Port} (h : p.Ok n) (f : BitVec 6) : (p.raise f).Ok n :=
  ⟨h.1, ⟨h.2.1, h.2.2, h.2.3, h.2.4, h.2.5, h.2.6⟩,
    ⟨h.3.1, h.3.2, h.3.3, h.3.4, h.3.5, h.3.6, h.3.7, h.3.8, h.3.9⟩, ⟨h.4.1, h.4.2⟩,
    ⟨h.5.1, h.5.2, h.5.3, h.5.4, h.5.5, h.5.6, h.5.7, h.5.8⟩⟩

theorem Port.CoreOk.raise {n : PortNo} {p : Port} (h : p.CoreOk n) (f : BitVec 6) : (p.raise f).CoreOk n :=
  ⟨h.1, ⟨h.2.1, h.2.2, h.2.3, h.2.4, h.2.5, h.2.6⟩,
    ⟨h.3.1, h.3.2, h.3.3, h.3.4, h.3.5, h.3.6⟩, ⟨h.4.1, h.4.2⟩,
    ⟨h.5.1, h.5.2, h.5.3, h.5.4, h.5.5, h.5.6, h.5.7, h.5.8⟩⟩

/-- A port that enters a state with a session, setpoint and command that fit it. -/
theorem Port.enter_core {n : PortNo} {p : Port} (st : PortState) (number : p.number = n)
    (range : p.InRange) (session : p.session.isSome = st.inSession)
    (held : p.held.mag ≠ 0 → st.powered = true) (dir : p.held.mag = 0 ↔ p.held.dir = .none)
    (pending : st = .closing → p.pendingTarget.isSome = true ∧ p.pendingTarget ≠ some .vacant)
    (fault : st = .faulted → p.faultCode.isSome = true) (closed : st.powered = true → p.command = .closed)
    (opened : p.command = .closed → st.powered = true ∨ st = .closing) : (p.enter st).CoreOk n := by
  refine ⟨number, ⟨session, held, dir, ?_, ?_, ?_⟩, ⟨?_, ?_, ?_, ?_, ?_, ?_⟩, ⟨closed, ?_⟩,
    ⟨range.1, range.2, range.3, range.4, range.5, range.6, range.7, range.8⟩⟩
  · show Option.isSome (if st = .closing then p.pendingTarget else none) = (st == .closing)
    split <;> simp_all
  · show (if st = .closing then p.pendingTarget else none) ≠ some .vacant
    split <;> simp_all
  · show Option.isSome (if st = .faulted then p.faultCode else none) = (st == .faulted)
    split <;> simp_all
  · show Timer.isRunning (if st = .vacant then _ else _) = true → st = .vacant
    split <;> simp_all
  · show Timer.isRunning (if st = .detecting then _ else _) = (st == .detecting)
    split <;> simp_all
  · show Timer.isRunning (if st = .identifying then p.answer else .stopped) = true → st = .identifying
    split <;> simp_all
  · show Timer.isRunning (if st = .energizing then _ else _) = (st == .energizing)
    split <;> simp_all
  · show Timer.isRunning (if st = .closing then _ else _) = true → st = .closing
    split <;> simp_all
  · show Timer.isRunning (if st = .closing then _ else _) = Timer.isRunning (if st = .closing then _ else _)
    split <;> simp_all
  · intro hc
    rcases opened hc with h | h
    · exact Or.inl h
    · right; show Timer.isRunning (if st = .closing then _ else _) = true
      rw [if_pos h]; rfl

theorem Port.dropSession_facts {n : PortNo} {p : Port} (h : p.Ok n) :
    p.dropSession.number = n ∧ p.dropSession.InRange ∧ p.dropSession.session = none
      ∧ p.dropSession.held = .zero ∧ p.dropSession.command = .opened
      ∧ p.dropSession.openDelay = p.openDelay ∧ p.dropSession.pendingTarget = p.pendingTarget := by
  have hz : p.session = none → p.held = .zero ∧ p.command = .opened := by
    intro hs
    have h1 := h.fits.session; rw [hs] at h1
    have hst : p.state.inSession = false := h1.symm
    have hm : p.held.mag = 0 := by
      by_contra hne
      have := h.fits.held hne
      cases hp : p.state <;> simp_all [PortState.inSession, PortState.powered]
    have hc : p.command = .opened := by
      cases hcc : p.command with
      | opened => rfl
      | closed =>
        rcases h.commanded.opened hcc with h2 | h2
        · cases hp : p.state <;> simp_all [PortState.inSession, PortState.powered]
        · have := h.timed.quiet h2; simp [this, PortState.inSession] at hst
    refine ⟨?_, hc⟩
    have hd := h.fits.dir.mp hm
    cases hh : p.held; simp_all [Setpoint.zero]
  unfold Port.dropSession
  split
  · next hs => exact ⟨h.number, h.inRange, hs, (hz hs).1, (hz hs).2, rfl, rfl⟩
  · exact ⟨h.number, ⟨h.5.1, h.5.2, h.5.3, h.5.4, h.5.5,
      ⟨h.5.6.1, Nat.zero_le _, h.5.6.2.2.1, h.5.6.2.2.2⟩, h.5.7,
      ⟨by show (-100 : Int) ≤ 0; omega, by show (0 : Int) ≤ 99; omega⟩⟩, rfl, rfl, rfl, rfl, rfl⟩

/-! ### Records -/

theorem Moves.modBus {s : State} (i : Nat) (f : Bus → Bus)
    (h : ∀ b, (f b).number = b.number ∧ (f b).location = b.location) : Moves s (s.modBus i f) := by
  unfold State.modBus; split
  · next b hb => exact .bus i b _ hb (h b).1 (h b).2
  · exact .refl s

theorem Moves.modPlan {s : State} (i : Nat) (f : Plan → Plan) : Moves s (s.modPlan i f) := by
  unfold State.modPlan; split
  · next p hp => exact .plan i _ (Or.inl (by simp [hp]))
  · exact .refl s

theorem Moves.modCommit {s : State} (i : Nat) (f : Commitment → Commitment)
    (h : ∀ c, (f c).state = .active → c.state = .active) : Moves s (s.modCommit i f) := by
  unfold State.modCommit; split
  · next p hp => exact .commit i _ (Or.inl (by simp [hp])) fun e => Or.inl ⟨p, hp, h p e⟩
  · exact .refl s

theorem Moves.raiseSite {s : State} (f : BitVec 6) : Moves s (s.raiseSite f) :=
  .other rfl rfl rfl rfl rfl rfl rfl rfl rfl id fun _ => ⟨rfl, rfl, rfl⟩

theorem Moves.withdraw {s : State} (f : Registration → Bool) : Moves s (s.withdraw f) :=
  .other rfl rfl rfl rfl rfl rfl rfl rfl rfl (fun h r hr => h r (List.mem_filter.mp hr).1) fun _ => ⟨rfl, rfl, rfl⟩

/-- A registration that is taken lies ahead of depot time (R3). -/
theorem State.register_ahead (s : State) (k : RegKind) (i t : Nat) (h : s.Ahead) : (s.register k i t).Ahead := by
  unfold State.register
  split
  · next hlt =>
    intro r hr
    rcases List.mem_append.mp hr with hr | hr
    · exact h r hr
    · cases List.mem_singleton.mp hr; exact hlt
  · exact h

theorem Moves.register {s : State} (k : RegKind) (i t : Nat) : Moves s (s.register k i t) :=
  .other (by simp) (by simp) (by simp) (by simp) (by simp) (by simp) (by simp) (by simp) (by simp)
    (s.register_ahead k i t) fun _ => by unfold State.register; split <;> exact ⟨rfl, rfl, rfl⟩

theorem Moves.foldl {α : Type} (f : State → α → State) (h : ∀ s a, Moves s (f s a)) (l : List α) (s : State) :
    Moves s (l.foldl f s) := by
  induction l generalizing s with
  | nil => exact .refl s
  | cons a l ih => exact .trans (h s a) (ih _)

@[simp] theorem Bus.raise_number (b : Bus) (f : BitVec 10) : (b.raise f).number = b.number := rfl
@[simp] theorem Bus.raise_location (b : Bus) (f : BitVec 10) : (b.raise f).location = b.location := rfl
@[simp] theorem Bus.raiseIf_number (b : Bus) (c : Bool) (f : BitVec 10) :
    (b.raiseIf c f).number = b.number := by unfold Bus.raiseIf; split <;> rfl
@[simp] theorem Bus.raiseIf_location (b : Bus) (c : Bool) (f : BitVec 10) :
    (b.raiseIf c f).location = b.location := by unfold Bus.raiseIf; split <;> rfl
@[simp] theorem Bus.setReadiness_number (b : Bus) (r : Readiness) (x : Option Int) :
    (b.setReadiness r x).number = b.number := by simp [Bus.setReadiness]
@[simp] theorem Bus.setReadiness_location (b : Bus) (r : Readiness) (x : Option Int) :
    (b.setReadiness r x).location = b.location := by simp [Bus.setReadiness]

/-! ### Plan Table -/

theorem State.finalise_moves (s : State) (i : Nat) (st : PlanState) (o : PlanOutcome) :
    Moves s (s.finalise i st o) := by
  unfold State.finalise; split
  · next p hp =>
    exact ((Moves.plan i _ (Or.inl (by simp [hp]))).trans
      (Moves.modBus p.busSlot (Bus.unlist i) fun b => ⟨rfl, rfl⟩)).trans (Moves.withdraw _)
  · exact .refl s

theorem State.releasePower_moves (s : State) (b : Nat) : Moves s (s.releasePower b) := by
  unfold State.releasePower; split
  · split
    · refine .updPort _ _ (fun ho => ⟨(ho.core.importToTierA _).zeroExport, ?_, ?_⟩)
        fun _ ho => (ho.core.lowers_importToTierA _).trans (ho.core.importToTierA _).lowers_zeroExport
      · unfold Port.zeroExport Port.importToTierA; split <;> split <;> rfl
      · unfold Port.zeroExport Port.importToTierA; split <;> split <;> rfl
    · exact .refl s
  · exact .refl s

theorem State.setCond_moves (s : State) (i : Nat) (c : StepCond) : Moves s (s.setCond i c) := .modPlan _ _

theorem State.enterCondition_moves (s : State) (b i : Nat) (bus : Bus) (st : PlanStep) :
    Moves s (s.enterCondition b i bus st) := by
  unfold State.enterCondition
  split
  · exact (s.setCond_moves i _).trans (Moves.register _ _ _)
  · split
    · exact (s.setCond_moves i _).trans (Moves.modBus b (Bus.raise BusFlag.soeUnknown) fun b => ⟨rfl, rfl⟩)
    · exact s.setCond_moves i _

theorem State.registerHold_moves (s : State) (i : Nat) (st : PlanStep) : Moves s (s.registerHold i st) := by
  unfold State.registerHold; split
  · exact .register _ _ _
  · exact .refl s

theorem State.registerEndBy_moves (s : State) (i : Nat) (st : PlanStep) :
    Moves s (s.registerEndBy i st) := by
  unfold State.registerEndBy; split
  · exact .register _ _ _
  · exact .refl s

theorem State.beginStep_moves (s : State) (b i : Nat) (bus : Bus) (st : PlanStep) :
    Moves s (s.beginStep b i bus st).1 := by
  unfold State.beginStep
  split
  · exact .refl s
  · have h1 := s.registerHold_moves i st
    dsimp only
    split
    · exact h1.trans ((State.finalise_moves _ i _ _).trans (State.releasePower_moves _ b))
    · exact h1.trans ((State.registerEndBy_moves _ i st).trans (State.enterCondition_moves _ b i bus st))

theorem State.selectPlan_moves (s : State) (bus : Bus) : Moves s (s.selectPlan bus).1 := by
  unfold State.selectPlan
  split
  · split
    · exact .modPlan _ _
    · exact .refl s
  · exact .refl s

theorem State.withdrawPlan_moves (s : State) (i : Nat) : Moves s (s.withdrawPlan i) := .withdraw _

theorem State.endStep_moves (s : State) (b i : Nat) (bus : Bus) (p : Plan) :
    Moves s (s.endStep b i bus p).1 := by
  unfold State.endStep
  refine .trans (s.withdrawPlan_moves i) (.trans (State.releasePower_moves _ b) ?_)
  simp only
  split
  · exact State.finalise_moves _ i _ _
  · split
    · exact .modPlan _ _
    · exact .modPlan _ _

theorem planTask_moves (b : Nat) (t : PlanTask) (s : State) : Moves s (planTask b t s).1 := by
  unfold planTask
  split
  · exact .refl s
  · next bus _ =>
    cases t with
    | select => exact s.selectPlan_moves bus
    | start i =>
      simp only
      split
      · split
        · exact s.beginStep_moves b i bus _
        · exact .refl s
      · exact .refl s
    | finish i =>
      simp only
      split
      · exact s.endStep_moves b i bus _
      · exact .refl s

theorem runTasks_moves (b n : Nat) (t : PlanTask) (s : State) : Moves s (runTasks b n t s) := by
  induction n generalizing t s with
  | zero => exact .refl s
  | succ n ih =>
    have h := planTask_moves b t s
    unfold runTasks
    cases hp : planTask b t s with
    | mk s' o =>
      rw [hp] at h
      cases o with
      | none => exact h
      | some t' => exact h.trans (ih t' s')

theorem State.selection_moves (s : State) (b : Nat) : Moves s (s.selection b) := runTasks_moves b _ _ s

theorem State.stepEnd_moves (s : State) (b i : Nat) : Moves s (s.stepEnd b i) := runTasks_moves b _ _ s

theorem State.deadline_moves (s : State) (b i : Nat) : Moves s (s.deadline b i) :=
  .trans (.trans (s.finalise_moves i _ _) (State.releasePower_moves _ b)) (State.selection_moves _ b)

theorem State.testStep_moves (s : State) (k : StepKind → Bool) (b : Nat) : Moves s (s.testStep k b) := by
  unfold State.testStep
  split
  · exact .refl s
  · split
    · exact .refl s
    · split
      · exact .refl s
      · split
        · exact .refl s
        · split
          · exact s.stepEnd_moves b _
          · exact .refl s

theorem State.preempt_moves (s : State) (b : Nat) : Moves s (s.preempt b) := by
  unfold State.preempt
  split
  · exact .refl s
  · split
    · exact .refl s
    · split
      · exact .refl s
      · split
        · exact .refl s
        · split
          · exact s.stepEnd_moves b _
          · exact .refl s

theorem State.pauseRunning_moves (s : State) (b : Nat) : Moves s (s.pauseRunning b) := by
  unfold State.pauseRunning
  split
  · exact .refl s
  · split
    · exact .refl s
    · exact .trans (.modPlan _ _) (State.withdrawPlan_moves _ _)

theorem State.returnWalk_moves (s : State) (b : Nat) : Moves s (s.returnWalk b) := by
  unfold State.returnWalk
  split
  · exact .refl s
  · simp only
    refine .trans ?_ (.foldl _ (fun t i => t.finalise_moves i _ _) _ _)
    split
    · exact s.finalise_moves _ _ _
    · exact .refl s

/-! ### Readiness Evaluator -/

theorem State.withdrawDeparture_moves (s : State) (i : Nat) : Moves s (s.withdrawDeparture i) := .withdraw _

theorem State.registerLockout_moves (s : State) (i t : Nat) : Moves s (s.registerLockout i t) := by
  unfold State.registerLockout; simp only; split
  · exact .register _ _ _
  · exact .refl s

theorem State.registerDeparture_moves (s : State) (i t : Nat) : Moves s (s.registerDeparture i t) :=
  .trans (.register _ _ _) (State.registerLockout_moves _ i t)

theorem State.withdrawExport_moves (s : State) (i : Nat) : Moves s (s.withdrawExport i) := by
  unfold State.withdrawExport; split
  · split
    · refine .updPort _ _ (fun ho => ⟨ho.core.zeroExport, ?_, ?_⟩) fun _ ho => ho.core.lowers_zeroExport
      · unfold Port.zeroExport; split <;> rfl
      · unfold Port.zeroExport; split <;> rfl
    · exact .refl s
  · exact .refl s

theorem State.withdrawIfIneligible_moves (s : State) (i : Nat) : Moves s (s.withdrawIfIneligible i) := by
  unfold State.withdrawIfIneligible; split
  · split
    · exact .refl s
    · exact s.withdrawExport_moves i
  · exact .refl s

theorem State.takeCheck_moves (s : State) (i : Nat) : Moves s (s.takeCheck i) := by
  unfold State.takeCheck
  split
  · exact .refl s
  · next b hb =>
    split
    · exact .refl s
    · simp only
      split
      · exact .refl s
      · split
        · exact .trans (.bus i b _ hb (by simp) (by simp)) (.withdraw _)
        · exact .bus i b _ hb (by simp) (by simp)
      · split
        · exact .trans (.bus i b _ hb (by simp) (by simp)) (.withdraw _)
        · exact .refl s

theorem State.awayIfPending_moves (s : State) (i : Nat) : Moves s (s.awayIfPending i) := by
  refine Moves.modBus i _ fun b => ?_
  constructor <;> (split <;> (try split) <;> simp)

theorem Bus.closeDeficit_beside (now g : Nat) (b : Bus) :
    (b.closeDeficit now g).number = b.number ∧ (b.closeDeficit now g).location = b.location := by
  unfold Bus.closeDeficit
  split
  · split
    · simp
    · exact ⟨rfl, rfl⟩
  · exact ⟨rfl, rfl⟩

theorem State.readinessCount_moves (s : State) (i : Nat) : Moves s (s.readinessCount i) := by
  unfold State.readinessCount
  refine (Moves.modBus i (Bus.closeDeficit s.now s.site.live.guardTime)
    (Bus.closeDeficit_beside _ _)).trans ?_
  dsimp only
  split
  · split
    · exact State.withdrawExport_moves _ i
    · exact .refl _
  · exact .refl _

end Sys2Proof.Machine
end

