-- ==== Sys2Proof/Laws/Sessions.lean ====
section
/-! SUPPORT. Session ends, port faults, CLOSING, bindings and meter counts are chains of moves. -/

namespace Sys2Proof.Machine

open Sys2Proof

/-! ### Records without a session -/

/-- A record without session, power or closed command: what dropSession leaves. -/
structure Port.Bare (n : PortNo) (p : Port) : Prop where
  number  : p.number = n
  range   : p.InRange
  session : p.session = none
  held    : p.held = .zero
  command : p.command = .opened

theorem Port.Ok.dropped {n : PortNo} {p : Port} (h : p.Ok n) : p.dropSession.Bare n :=
  have f := Port.dropSession_facts h
  ⟨f.1, f.2.1, f.2.2.1, f.2.2.2.1, f.2.2.2.2.1⟩

/-- What dropSession leaves has its setpoint at 0 and the direction memory as it was. -/
theorem Port.Ok.drop_lowers {n : PortNo} {p q : Port} (h : p.Ok n) (hq : q.held = p.dropSession.held)
    (hd : q.lastDir = p.dropSession.lastDir) (hz : q.zeroSince = p.dropSession.zeroSince) : p.Lowers q := by
  have e : p.dropSession.lastDir = p.lastDir ∧ p.dropSession.zeroSince = p.zeroSince := by
    unfold Port.dropSession; split <;> exact ⟨rfl, rfl⟩
  exact .to_zero h.core (hq.trans h.dropped.held) (hd.trans e.1) (hz.trans e.2)

theorem Port.Bare.boundSlot {n : PortNo} {p : Port} (h : p.Bare n) : p.boundSlot = none := by
  simp [Port.boundSlot, h.session]

/-- In a state without a session a record is bare. -/
theorem Port.Ok.bare {n : PortNo} {p : Port} (h : p.Ok n) (hs : p.state.inSession = false) : p.Bare n := by
  have hse : p.session = none := by
    have := h.fits.session; rw [hs] at this; simpa using this
  have hd := h.dropped
  have : p.dropSession = p := by simp [Port.dropSession, hse]
  rwa [this] at hd

/-- A bare record that enters a state without a session. -/
theorem Port.Bare.enter {n : PortNo} {p : Port} (h : p.Bare n) (st : PortState)
    (hs : st.inSession = false) (hf : st = .faulted → p.faultCode.isSome = true) : (p.enter st).CoreOk n := by
  have hp : st.powered = false := by cases st <;> simp_all [PortState.inSession, PortState.powered]
  have hc : st ≠ .closing := by rintro rfl; simp [PortState.inSession] at hs
  refine Port.enter_core st h.number h.range (by rw [h.session, hs]; rfl) ?_ ?_ (fun e => absurd e hc) hf ?_ ?_
  · rw [h.held]; intro hx; exact absurd rfl hx
  · rw [h.held]; simp [Setpoint.zero]
  · rw [hp]; simp
  · rw [h.command]; simp

@[simp] theorem Port.enter_openDelay (st : PortState) (p : Port) : (p.enter st).openDelay = p.openDelay := rfl
@[simp] theorem Port.enter_session (st : PortState) (p : Port) : (p.enter st).session = p.session := rfl
@[simp] theorem Port.enter_boundSlot (st : PortState) (p : Port) : (p.enter st).boundSlot = p.boundSlot := rfl
@[simp] theorem Port.enter_state (st : PortState) (p : Port) : (p.enter st).state = st := rfl
@[simp] theorem Port.raise_openDelay (f : BitVec 6) (p : Port) : (p.raise f).openDelay = p.openDelay := rfl
@[simp] theorem Port.raise_session (f : BitVec 6) (p : Port) : (p.raise f).session = p.session := rfl
@[simp] theorem Port.raise_boundSlot (f : BitVec 6) (p : Port) : (p.raise f).boundSlot = p.boundSlot := rfl

/-- What endTransition can change. -/
theorem Port.endTransition_eq (t : PortTarget) (o : TransitionOutcome) (now : Nat) (p : Port) :
    p.endTransition t o now = { p with
      lastTransition := some ⟨t, o, now⟩, pendingTarget := none
      flags := (p.endTransition t o now).flags } := by
  unfold Port.endTransition; dsimp only; split <;> rfl

theorem Port.endTransition_openDelay (t : PortTarget) (o : TransitionOutcome) (now : Nat) (p : Port) :
    (p.endTransition t o now).openDelay = p.openDelay := by rw [Port.endTransition_eq]

theorem Port.endTransition_session (t : PortTarget) (o : TransitionOutcome) (now : Nat) (p : Port) :
    (p.endTransition t o now).session = p.session := by rw [Port.endTransition_eq]

theorem Port.endTransition_faultCode (t : PortTarget) (o : TransitionOutcome) (now : Nat) (p : Port) :
    (p.endTransition t o now).faultCode = p.faultCode := by rw [Port.endTransition_eq]

theorem Port.Bare.endTransition {n : PortNo} {p : Port} (h : p.Bare n) (t : PortTarget)
    (o : TransitionOutcome) (now : Nat) : (p.endTransition t o now).Bare n := by
  rw [Port.endTransition_eq]
  exact ⟨h.number, ⟨h.2.1, h.2.2, h.2.3, h.2.4, h.2.5, h.2.6, h.2.7, h.2.8⟩, h.session, h.held, h.command⟩

/-- A bare record that begins an exchange. -/
theorem Port.Bare.beginExchange {n : PortNo} {p : Port} (h : p.Bare n) (d : Nat) :
    (p.beginExchange d).CoreOk n := by
  have c := h.enter .identifying rfl (by simp)
  refine ⟨c.number, ⟨c.fits.1, c.fits.2, c.fits.3, c.fits.4, c.fits.5, c.fits.6⟩,
    ⟨c.timed.1, c.timed.2, fun x => ?_, c.timed.4, c.timed.5, c.timed.6⟩,
    ⟨c.commanded.1, c.commanded.2⟩,
    ⟨c.5.1, c.5.2, c.5.3, by show 1 ≤ 3; omega, c.5.5,
      ⟨c.5.6.1, c.5.6.2.1, Nat.zero_le _, Nat.zero_le _⟩, c.5.7, c.5.8⟩⟩
  exact rfl

@[simp] theorem Port.beginExchange_openDelay (d : Nat) (p : Port) :
    (p.beginExchange d).openDelay = p.openDelay := rfl
@[simp] theorem Port.beginExchange_session (d : Nat) (p : Port) :
    (p.beginExchange d).session = p.session := rfl

/-! ### Blocking faults and session end -/

theorem State.dropPower_moves (s : State) (i : Nat) : Moves s (s.dropPower i) := by
  unfold State.dropPower; split
  · split
    · exact .updPort _ _ (fun ho => ⟨ho.core.zeroHeld, rfl, rfl⟩) fun _ ho => ho.core.lowers_zeroHeld
    · exact .refl s
  · exact .refl s

theorem State.blockBus_moves (s : State) (i : Nat) (r : FaultReason) : Moves s (s.blockBus i r) := by
  unfold State.blockBus; split
  · exact .refl s
  · next b hb =>
    split
    · exact (Moves.bus i b (b.blockWith r s.now) hb rfl rfl).trans
        ((State.returnWalk_moves _ i).trans (State.dropPower_moves _ i))
    · exact .bus i b _ hb rfl rfl

/-- The bus's part of a session end, after its location is cleared. -/
theorem State.afterDetach_moves (s : State) (i : Nat) (u : Bool) :
    Moves s (let s1 := (s.pauseRunning i).modBus i (Bus.raise BusFlag.unplugged)
             if u then s1.takeCheck i else s1.awayIfPending i) := by
  refine (s.pauseRunning_moves i).trans ((Moves.modBus i (Bus.raise BusFlag.unplugged)
    fun b => ⟨rfl, rfl⟩).trans ?_)
  dsimp only
  split
  · exact State.takeCheck_moves _ i
  · exact State.awayIfPending_moves _ i

/-- A session end, for a change f of state that suits a record without a session. -/
theorem State.endSession_moves (s : State) (n : PortNo) (u : Bool) (f : Port → Port)
    (h : (s.port n).Ok n → (f (s.port n).dropSession).CoreOk n
      ∧ (f (s.port n).dropSession).openDelay = (s.port n).openDelay
      ∧ (f (s.port n).dropSession).session = none ∧ (s.port n).Lowers (f (s.port n).dropSession)) :
    Moves s (s.endSession n u f) := by
  have hq : (s.port n).Ok n →
      (Port.settle s.env (s.port n) (f (s.port n).dropSession)).Ok n
        ∧ (Port.settle s.env (s.port n) (f (s.port n).dropSession)).boundSlot = none := fun ho =>
    ⟨Port.settle_ok ho (h ho).1 (h ho).2.1, by simp [Port.boundSlot, (h ho).2.2.1]⟩
  have hf : Port.Follows true s.now n (s.port n)
      (Port.settle s.env (s.port n) (f (s.port n).dropSession)) := fun _ ho =>
    Port.settle_falls s.env (h ho).2.2.2
  unfold State.endSession
  dsimp only
  split
  · next i hi =>
    unfold State.detachBus
    refine Moves.trans (t := (s.updPort n fun p => f p.dropSession).modBus i fun b =>
      { b with location := none }) ?_ (State.afterDetach_moves _ i u)
    unfold State.modBus
    rw [show (s.updPort n fun p => f p.dropSession).bus i = s.bus i from rfl]
    split
    · next b hb => exact .unbind n i b _ _ hi hq hb rfl rfl hf
    · next hb => exact .unbindLost n i _ hi hq hb hf
  · next hi => exact .port n _ (fun ho => ⟨(hq ho).1, by rw [(hq ho).2, hi]⟩) hf

/-! ### Port faults and CLOSING -/

theorem Port.Bare.dropTransition {n : PortNo} {p : Port} (h : p.Bare n) (now : Nat) :
    (p.dropTransition now).Bare n ∧ (p.dropTransition now).openDelay = p.openDelay := by
  unfold Port.dropTransition; split
  · exact ⟨h.endTransition _ _ _, Port.endTransition_openDelay _ _ _ _⟩
  · exact ⟨h, rfl⟩

theorem Port.Bare.endIdentification {n : PortNo} {p : Port} (h : p.Bare n) :
    p.endIdentification.Bare n ∧ p.endIdentification.openDelay = p.openDelay := by
  have r := h.range
  unfold Port.endIdentification; split
  · exact ⟨⟨h.number, ⟨r.1, r.2, r.3, Nat.zero_le _, r.5, r.6, r.7, r.8⟩, h.session, h.held, h.command⟩, rfl⟩
  · exact ⟨h, rfl⟩

theorem Port.Bare.intoFault {n : PortNo} {p : Port} (h : p.Bare n) (c : PortFault) :
    (p.intoFault c).CoreOk n := by
  have r := h.range
  have hb : Port.Bare n { p with held := .zero, command := .opened, faultCode := some c } :=
    ⟨h.number, ⟨r.1, r.2, r.3, r.4, r.5, r.6, r.7, r.8⟩, h.session, rfl, rfl⟩
  have he := hb.enter .faulted rfl (fun _ => rfl)
  refine Port.CoreOk.raise ?_ _
  exact ⟨he.1, ⟨he.2.1, he.2.2, he.2.3, he.2.4, he.2.5, he.2.6⟩,
    ⟨he.3.1, he.3.2, he.3.3, he.3.4, he.3.5, he.3.6⟩, ⟨he.4.1, he.4.2⟩,
    ⟨he.5.1, he.5.2, he.5.3, he.5.4, he.5.5, he.5.6, he.5.7, he.5.8⟩⟩

theorem Port.Bare.faultInto {n : PortNo} {p : Port} (h : p.Bare n) (c : PortFault) (now : Nat) :
    (p.faultInto c now).CoreOk n ∧ (p.faultInto c now).openDelay = p.openDelay
      ∧ (p.faultInto c now).session = none := by
  have h1 := h.dropTransition now
  have h2 := h1.1.endIdentification
  exact ⟨h2.1.intoFault c, h2.2.trans h1.2, h2.1.session⟩

theorem Port.faultInto_memory (c : PortFault) (now : Nat) (p : Port) : (p.faultInto c now).held = .zero
    ∧ (p.faultInto c now).lastDir = p.lastDir ∧ (p.faultInto c now).zeroSince = p.zeroSince := by
  refine ⟨rfl, ?_⟩
  show (Port.endIdentification (Port.dropTransition now p)).lastDir = _
    ∧ (Port.endIdentification (Port.dropTransition now p)).zeroSince = _
  unfold Port.endIdentification Port.dropTransition
  split <;> split <;> (try rw [Port.endTransition_eq]) <;> exact ⟨rfl, rfl⟩

theorem State.portFault_moves (s : State) (n : PortNo) (c : PortFault) : Moves s (s.portFault n c) := by
  unfold State.portFault; split
  · exact .refl s
  · refine s.endSession_moves n false _ fun ho => ?_
    have hd := Port.dropSession_facts ho
    have hf := ho.dropped.faultInto c s.now
    refine ⟨hf.1, hf.2.1.trans hd.2.2.2.2.2.1, hf.2.2, ?_⟩
    have e := Port.faultInto_memory c s.now (s.port n).dropSession
    exact ho.drop_lowers (e.1.trans ho.dropped.held.symm) e.2.1 e.2.2

theorem Port.Ok.endInto {n : PortNo} {p : Port} (h : p.Ok n) (t : PortTarget) (o : TransitionOutcome)
    (now : Nat) (st : PortState) (hs : st.inSession = false) (hf : st ≠ .faulted) :
    ((p.dropSession.endTransition t o now).enter st).CoreOk n
      ∧ ((p.dropSession.endTransition t o now).enter st).openDelay = p.openDelay
      ∧ ((p.dropSession.endTransition t o now).enter st).session = none
      ∧ p.Lowers ((p.dropSession.endTransition t o now).enter st) := by
  refine ⟨(h.dropped.endTransition t o now).enter st hs (fun e => absurd e hf), ?_, ?_,
    h.drop_lowers (by rw [Port.endTransition_eq]; rfl) (by rw [Port.endTransition_eq]; rfl)
      (by rw [Port.endTransition_eq]; rfl)⟩
  · rw [Port.enter_openDelay, Port.endTransition_openDelay]; exact (Port.dropSession_facts h).2.2.2.2.2.1
  · rw [Port.enter_session, Port.endTransition_session]; exact h.dropped.session

theorem State.closingEnd_moves (s : State) (n : PortNo) : Moves s (s.closingEnd n) := by
  unfold State.closingEnd
  dsimp only
  split
  · exact .refl s
  · split
    · refine s.endSession_moves n false _ fun ho =>
        ⟨(ho.dropped.endTransition _ _ _).beginExchange _, ?_, ?_,
          ho.drop_lowers (by rw [Port.endTransition_eq]; rfl) (by rw [Port.endTransition_eq]; rfl)
            (by rw [Port.endTransition_eq]; rfl)⟩
      · rw [Port.beginExchange_openDelay, Port.endTransition_openDelay]
        exact (Port.dropSession_facts ho).2.2.2.2.2.1
      · rw [Port.beginExchange_session, Port.endTransition_session]; exact ho.dropped.session
    · exact s.endSession_moves n false _ fun ho => ho.endInto _ _ _ _ rfl (by decide)
  · exact s.endSession_moves n false _ fun ho => ho.endInto _ _ _ _ rfl (by decide)

/-- A command opened with CLOSING's timers stopped. -/
theorem Port.CoreOk.open {n : PortNo} {p : Port} (h : p.CoreOk n) (hp : p.state.powered = false) :
    Port.CoreOk n { p with command := .opened, quiet := .stopped, limit := .stopped } := by
  refine ⟨h.1, ⟨h.2.1, h.2.2, h.2.3, h.2.4, h.2.5, h.2.6⟩,
    ⟨h.3.1, h.3.2, h.3.3, h.3.4, fun e => ?_, rfl⟩, ⟨fun e => ?_, fun e => ?_⟩,
    ⟨h.5.1, h.5.2, h.5.3, h.5.4, h.5.5, h.5.6, h.5.7, h.5.8⟩⟩
  · cases e
  · exact absurd e (by simpa using hp)
  · cases e

theorem State.commandOpen_moves (s : State) (n : PortNo)
    (h : (s.port n).Ok n → (s.port n).state.powered = false) : Moves s (s.commandOpen n) :=
  .updPort n _ fun ho => ⟨ho.core.open (h ho), rfl, rfl⟩

theorem State.closingOpen_moves (s : State) (n : PortNo) : Moves s (s.closingOpen n) := by
  unfold State.closingOpen
  split
  · exact s.closingEnd_moves n
  · exact .refl s

theorem State.giveOpen_moves (s : State) (n : PortNo)
    (h : (s.port n).Ok n → (s.port n).state.powered = false) : Moves s (s.giveOpen n) :=
  (s.commandOpen_moves n h).trans (State.closingOpen_moves _ n)

theorem State.unplug_moves (s : State) (n : PortNo) : Moves s (s.unplug n) := by
  unfold State.unplug
  dsimp only
  split
  · exact s.endSession_moves n true _ fun ho => ho.endInto _ _ _ _ rfl (by decide)
  · exact s.endSession_moves n true _ fun ho => ho.endInto _ _ _ _ rfl (by decide)
  · exact s.endSession_moves n true _ fun ho =>
      ⟨ho.dropped.enter .vacant rfl (by simp), (Port.dropSession_facts ho).2.2.2.2.2.1, ho.dropped.session,
        ho.drop_lowers rfl rfl rfl⟩

/-! ### Opening a session -/

theorem State.openState_cases (s : State) : s.openState = .held ∨ s.openState = .connected := by
  unfold State.openState; split <;> simp

/-- A bare record that opens a session. -/
theorem Port.Bare.openWith {n : PortNo} {p : Port} (h : p.Bare n) (x : Session) (c : Option Nat)
    (st : PortState) (hst : st = .held ∨ st = .connected) :
    (({ p.openWith x with claimed := c }).enter st).CoreOk n := by
  have hp : st.powered = false := by rcases hst with rfl | rfl <;> rfl
  have hc : st ≠ .closing := by rcases hst with rfl | rfl <;> simp
  have hf : st ≠ .faulted := by rcases hst with rfl | rfl <;> simp
  have r := h.range
  refine Port.enter_core st h.number ?_ ?_ ?_ ?_ (fun e => absurd e hc) (fun e => absurd e hf) ?_ ?_
  · exact ⟨r.1, r.2, r.3, r.4, Nat.zero_le _, ⟨Nat.zero_le _, r.6.2.1, r.6.2.2.1, r.6.2.2.2⟩,
      ⟨Nat.zero_le _, Nat.zero_le _⟩, r.8⟩
  · rcases hst with rfl | rfl <;> rfl
  · show p.held.mag ≠ 0 → _
    rw [h.held]; intro hx; exact absurd rfl hx
  · show p.held.mag = 0 ↔ p.held.dir = .none
    rw [h.held]; simp [Setpoint.zero]
  · rw [hp]; simp
  · show p.command = .closed → _
    rw [h.command]; simp

theorem State.openUnidentified_moves (s : State) (n : PortNo) (r : UnidReason) (c : Option Nat)
    (h : (s.port n).Ok n → (s.port n).state.inSession = false) : Moves s (s.openUnidentified n r c) := by
  unfold State.openUnidentified
  refine .updPort n _ fun ho => ⟨?_, rfl, ?_⟩
  · exact Port.CoreOk.raise ((ho.bare (h ho)).openWith _ _ _ s.openState_cases) _
  · rw [(ho.bare (h ho)).boundSlot]; rfl

@[simp] theorem Bus.rebase_beside (tol r : Nat) (b : Bus) :
    (b.rebase tol r).number = b.number ∧ (b.rebase tol r).location = b.location := by
  unfold Bus.rebase
  dsimp only
  split
  · split <;> simp
  · simp

theorem Bus.bindTo_beside (n : PortNo) (tol : Nat) (m : Announce) (b : Bus) :
    (b.bindTo n tol m).number = b.number ∧ (b.bindTo n tol m).location = some n := by
  unfold Bus.bindTo
  dsimp only
  split <;> simp

theorem State.reportFaultLevel_moves (s : State) (n : PortNo) (i : Nat) :
    Moves s (s.reportFaultLevel n i) := by
  unfold State.reportFaultLevel; split
  · exact s.blockBus_moves i _
  · exact .refl s

theorem State.bindSession_moves (s : State) (n : PortNo) (i : Nat) (b : Bus) (m : Announce)
    (hb : s.bus i = some b) (hl : b.location = none)
    (h : (s.port n).Ok n → (s.port n).state.inSession = false) : Moves s (s.bindSession n i b m) := by
  unfold State.bindSession
  dsimp only
  refine Moves.trans ?_ ((State.reportFaultLevel_moves _ n i).trans (State.selection_moves _ i))
  unfold State.modBus
  rw [show (s.updPort n fun p => (p.openWith (boundSession i b (announceValues m) s.now)).enter
    s.openState).bus i = s.bus i from rfl, hb]
  refine .bind n i b _ _ (fun ho => ?_) hb hl (Bus.bindTo_beside n _ m b).1 (Bus.bindTo_beside n _ m b).2
    fun _ _ => Port.settle_falls s.env ⟨.inl rfl, rfl, rfl⟩
  have hbare := ho.bare (h ho)
  exact ⟨Port.settle_ok ho (hbare.openWith _ (s.port n).claimed _ s.openState_cases) rfl, by simp; rfl,
    hbare.boundSlot⟩

theorem State.judgeAnnounce_moves (s : State) (n : PortNo) (m : Announce) (ht : s.TablesOk)
    (h : (s.port n).Ok n → (s.port n).state.inSession = false) : Moves s (s.judgeAnnounce n m) := by
  unfold State.judgeAnnounce
  split
  · exact s.openUnidentified_moves n _ _ h
  · next i b hf =>
    split
    · exact s.openUnidentified_moves n _ _ h
    · next hl =>
      have hm : (i, b) ∈ s.buses.rows := List.mem_of_find?_eq_some hf
      exact s.bindSession_moves n i b m (Table.get_of_mem ht.buses.rising hm) (by simpa using hl) h

end Sys2Proof.Machine
end

