-- ==== Sys2Proof/Laws/Ends.lean ====
section
/-! SUPPORT. Everything a session end does (R78), said once, for the events that end sessions. -/

namespace Sys2Proof.Machine

open Sys2Proof

theorem State.plan_putPlan (s : State) (i j : Nat) (p : Plan) :
    (s.putPlan i p).plan j = if j = i then some p else s.plan j := Table.get_put s.plans i j p

theorem State.modBus_some {s : State} {i : Nat} {b : Bus} (h : s.bus i = some b) (f : Bus → Bus) :
    s.modBus i f = s.putBus i (f b) := by
  unfold State.modBus; rw [h]

theorem State.modPlan_some {s : State} {i : Nat} {p : Plan} (h : s.plan i = some p) (f : Plan → Plan) :
    s.modPlan i f = s.putPlan i (f p) := by
  unfold State.modPlan; rw [h]

/-- The RUNNING plan of a bus has a record. -/
theorem State.runningPlan_plan {s : State} {b : Bus} {j : Nat} (h : s.runningPlan b = some j) :
    ∃ p, s.plan j = some p ∧ p.state = .running := by
  unfold State.runningPlan at h
  have := List.find?_some h
  split at this
  · next p hp => exact ⟨p, hp, by simpa using this⟩
  · simp at this

/-- What the pause of a bus's RUNNING plan changes. -/
theorem State.pauseRunning_eq {s : State} {i : Nat} {b : Bus} (h : s.bus i = some b) :
    (s.runningPlan b = none ∧ s.pauseRunning i = s)
    ∨ ∃ j p, s.runningPlan b = some j ∧ s.plan j = some p
        ∧ s.pauseRunning i = (s.putPlan j { p with state := .paused, cond := none }).withdrawPlan j := by
  unfold State.pauseRunning
  rw [h]
  dsimp only
  cases hr : s.runningPlan b with
  | none => exact .inl ⟨rfl, rfl⟩
  | some j =>
    obtain ⟨p, hp, -⟩ := State.runningPlan_plan hr
    exact .inr ⟨j, p, rfl, hp, by simp only [State.modPlan_some hp]⟩

/-- A flag raised under a condition, as one field. -/
theorem Bus.raiseIf_eq (b : Bus) (c : Bool) (f : BitVec 10) :
    b.raiseIf c f = { b with flags := if c then b.flags ||| f else b.flags } := by
  unfold Bus.raiseIf Bus.raise; split <;> rfl

/-- A readiness state that is set, field by field. -/
theorem Bus.setReadiness_eq (b : Bus) (r : Readiness) (x : Option Int) : b.setReadiness r x =
    { b with
      readiness := r, slack := x
      flags := if b.readiness != r then b.flags ||| BusFlag.readiness else b.flags } := by
  unfold Bus.setReadiness; rw [Bus.raiseIf_eq]

/-- The record after a departure-take check that takes the part. -/
def Bus.afterTake (b : Bus) (d : Departure) : Bus :=
  ({ b with departure := some { d with state := .taken b.soe } }.raise BusFlag.departureTaken).setReadiness
    .none none

/-- The departure-take check by its conditions (R126). -/
theorem State.takeCheck_eq {s : State} {i : Nat} {b : Bus} (h : s.bus i = some b) :
    s.takeCheck i = match b.departure with
      | none => s
      | some d =>
        if (d.state = .pending ∨ d.state = .overdue) ∧ d.tDep ≤ s.now + s.site.live.takeWindow then
          (s.putBus i (b.afterTake d)).withdrawDeparture i
        else if d.state = .pending then s.putBus i (b.setReadiness .away none)
        else s := by
  unfold State.takeCheck
  rw [h]
  dsimp only
  cases b.departure with
  | none => rfl
  | some d =>
    dsimp only
    cases hst : d.state with
    | taken a => simp
    | pending =>
      by_cases hw : d.tDep - s.site.live.takeWindow ≤ s.now
      · have hw' : d.tDep ≤ s.now + s.site.live.takeWindow := by omega
        simp [hw, hw', Bus.afterTake]
      · have hw' : ¬ d.tDep ≤ s.now + s.site.live.takeWindow := by omega
        simp [hw, hw']
    | overdue =>
      by_cases hw : d.tDep - s.site.live.takeWindow ≤ s.now
      · have hw' : d.tDep ≤ s.now + s.site.live.takeWindow := by omega
        simp [hw, hw', Bus.afterTake]
      · have hw' : ¬ d.tDep ≤ s.now + s.site.live.takeWindow := by omega
        simp [hw, hw']

theorem Bus.AfterSession.still {b : Bus} (h : ∀ d, b.departure = some d → d.state ≠ .pending) :
    b.AfterSession b :=
  ⟨fun k => absurd rfl k, fun _ ⟨d, hd, hp⟩ => absurd hp (h d hd), fun _ _ => ⟨rfl, rfl, rfl⟩⟩

/-- R126: a take has the effects of one. -/
theorem Bus.afterTake_afterSession (b : Bus) {d : Departure} (hd : b.departure = some d)
    (hs : d.state = .pending ∨ d.state = .overdue) : b.AfterSession (b.afterTake d) := by
  have hne : (b.afterTake d).departure ≠ b.departure := by
    rw [hd]; simp only [Bus.afterTake, Bus.setReadiness_eq, Bus.raise]
    intro h
    have h := congrArg (Option.map Departure.state) h
    rcases hs with hs | hs <;> simp [hs] at h
  refine ⟨fun _ => ?_, fun h => absurd h hne, fun h => absurd h hne⟩
  simp only [Bus.afterTake, Bus.setReadiness_eq, Bus.raise]
  by_cases h : b.readiness = .none <;> simp [h]

/-- R129: a bus whose part stays PENDING is AWAY. -/
theorem Bus.away_afterSession (b : Bus) {d : Departure} (hd : b.departure = some d) (hs : d.state = .pending) :
    b.AfterSession (b.setReadiness .away none) := by
  have he : (b.setReadiness .away none).departure = b.departure := by simp only [Bus.setReadiness_eq]
  refine ⟨fun h => absurd he h, fun _ _ => ?_, fun _ h => absurd hs (h d hd)⟩
  simp only [Bus.setReadiness_eq]
  by_cases h : b.readiness = .away <;> simp [h]

/-- Everything the departure-take check does to the bus's record, and that it changes nothing else but the
registrations of the bus's departure. -/
theorem State.takeCheck_spec {s : State} {i : Nat} {b : Bus} (h : s.bus i = some b) :
    ∃ c : Bus, (s.takeCheck i).bus i = some c
      ∧ (∀ k, k ≠ i → (s.takeCheck i).bus k = s.bus k)
      ∧ c = { b with flags := c.flags, departure := c.departure, readiness := c.readiness, slack := c.slack }
      ∧ (∀ k, b.flags.getLsbD k = true → c.flags.getLsbD k = true)
      ∧ (b.departure = none → c.departure = none)
      ∧ b.AfterSession c
      ∧ (∀ d, b.departure = some d → ∃ e taken, c.departure = some e
          ∧ d.AfterUnplug s.now s.site.live.takeWindow b.soe e taken
          ∧ (taken = true → c.readiness = .none ∧ c.slack = none ∧ c.flags.getLsbD 8 = true
              ∧ ∀ r ∈ (s.takeCheck i).clock.regs, ¬ (r.kind.owner = 2 ∧ r.slot = i))
          ∧ (taken = false → d.state = .pending → c.readiness = .away ∧ c.slack = none))
      ∧ (∀ r ∈ (s.takeCheck i).clock.regs, r ∈ s.clock.regs)
      ∧ s.takeCheck i = { s with clock := (s.takeCheck i).clock, buses := (s.takeCheck i).buses } := by
  have hput : ∀ (c : Bus) (k : Nat), (s.putBus i c).bus k = if k = i then some c else s.bus k :=
    fun c k => Table.get_put s.buses i k c
  have hwd : ∀ (t : State) (k : Nat), (t.withdrawDeparture i).bus k = t.bus k := fun _ _ => rfl
  rw [State.takeCheck_eq h]
  cases hd : b.departure with
  | none => exact ⟨b, h, fun _ _ => rfl, rfl, fun _ x => x, fun _ => hd, .still (by simp [hd]), by simp,
      fun _ x => x, rfl⟩
  | some d =>
    dsimp only
    by_cases hc : (d.state = .pending ∨ d.state = .overdue) ∧ d.tDep ≤ s.now + s.site.live.takeWindow
    · rw [if_pos hc]
      refine ⟨b.afterTake d, by rw [hwd, hput, if_pos rfl], fun k hk => by rw [hwd, hput, if_neg hk], ?_, ?_,
        by simp, b.afterTake_afterSession hd hc.1, ?_, ?_, rfl⟩
      · simp only [Bus.afterTake, Bus.setReadiness_eq, Bus.raise]
      · intro k hk
        simp only [Bus.afterTake, Bus.setReadiness_eq, Bus.raise]
        split <;> simp [hk]
      · intro d' hd'
        obtain rfl : d' = d := (Option.some.inj hd').symm
        refine ⟨{ d' with state := .taken b.soe }, true,
          by simp only [Bus.afterTake, Bus.setReadiness_eq, Bus.raise], ⟨by simp [hc], rfl⟩,
          fun _ => ⟨by simp [Bus.afterTake, Bus.setReadiness_eq], by simp [Bus.afterTake, Bus.setReadiness_eq],
            ?_, ?_⟩, by simp⟩
        · simp only [Bus.afterTake, Bus.setReadiness_eq, Bus.raise, BusFlag.departureTaken, BusFlag.readiness]
          split <;> simp
        · intro r hr ho
          have := (List.mem_filter.mp hr).2
          simp [ofRecord, ho.1, ho.2] at this
      · intro r hr; exact (List.mem_filter.mp hr).1
    · rw [if_neg hc]
      by_cases hp : d.state = .pending
      · rw [if_pos hp]
        refine ⟨b.setReadiness .away none, by rw [hput, if_pos rfl], fun k hk => by rw [hput, if_neg hk], ?_, ?_,
          by simp, b.away_afterSession hd hp, ?_, fun _ x => x, rfl⟩
        · simp only [Bus.setReadiness_eq]
        · intro k hk
          simp only [Bus.setReadiness_eq]
          split <;> simp [hk]
        · intro d' hd'
          obtain rfl : d' = d := (Option.some.inj hd').symm
          refine ⟨d', false, by simp only [Bus.setReadiness_eq, hd], ⟨by simpa using hc, rfl⟩, by simp,
            fun _ _ => by simp [Bus.setReadiness_eq]⟩
      · rw [if_neg hp]
        refine ⟨b, h, fun _ _ => rfl, rfl, fun _ x => x, by simp, .still (by simp [hd, hp]), ?_, fun _ x => x, rfl⟩
        intro d' hd'
        obtain rfl : d' = d := (Option.some.inj hd').symm
        exact ⟨d', false, hd, ⟨by simpa using hc, rfl⟩, by simp, fun _ hp' => absurd hp' hp⟩

/-- What a session end without an unplug does to a PENDING part: its readiness state alone (R129). -/
theorem State.awayIfPending_spec {s : State} {i : Nat} {b : Bus} (h : s.bus i = some b) :
    ∃ c : Bus, (s.awayIfPending i).bus i = some c
      ∧ (∀ k, k ≠ i → (s.awayIfPending i).bus k = s.bus k)
      ∧ c = { b with flags := c.flags, departure := b.departure, readiness := c.readiness, slack := c.slack }
      ∧ (∀ k, b.flags.getLsbD k = true → c.flags.getLsbD k = true)
      ∧ b.AfterSession c
      ∧ s.awayIfPending i = { s with buses := (s.awayIfPending i).buses } := by
  have hput : ∀ (c : Bus) (k : Nat), (s.putBus i c).bus k = if k = i then some c else s.bus k :=
    fun c k => Table.get_put s.buses i k c
  unfold State.awayIfPending
  rw [State.modBus_some h]
  refine ⟨_, by rw [hput, if_pos rfl], fun k hk => by rw [hput, if_neg hk], ?_, ?_, ?_, rfl⟩
  · split
    · split
      · simp only [Bus.setReadiness_eq]
      · rfl
    · rfl
  · intro k hk
    split
    · split
      · simp only [Bus.setReadiness_eq]; split <;> simp [hk]
      · exact hk
    · exact hk
  · split
    · next d hd =>
      split
      · next hp => exact b.away_afterSession hd hp
      · next hp => exact .still (by simp [hd, hp])
    · next hd => exact .still (by simp [hd])

/-- Everything the bus's part of a session end does (R78 item 2, R29). -/
theorem State.detachBus_spec {s : State} {i : Nat} {b : Bus} (h : s.bus i = some b) (unplug : Bool) :
    ∃ c : Bus, (s.detachBus i unplug).bus i = some c
      ∧ (∀ k, k ≠ i → (s.detachBus i unplug).bus k = s.bus k)
      ∧ c = { b with
          location := none, flags := c.flags, departure := c.departure
          readiness := c.readiness, slack := c.slack }
      ∧ c.flags.getLsbD 1 = true
      ∧ (b.departure = none → c.departure = none)
      ∧ (unplug = false → c.departure = b.departure)
      ∧ (b.raise BusFlag.unplugged).AfterSession c
      ∧ (∀ d, unplug = true → b.departure = some d → ∃ e taken, c.departure = some e
          ∧ d.AfterUnplug s.now s.site.live.takeWindow b.soe e taken
          ∧ (taken = true → c.readiness = .none ∧ c.slack = none ∧ c.flags.getLsbD 8 = true
              ∧ ∀ r ∈ (s.detachBus i unplug).clock.regs, ¬ (r.kind.owner = 2 ∧ r.slot = i))
          ∧ (taken = false → d.state = .pending → c.readiness = .away ∧ c.slack = none))
      ∧ (∀ j p, s.runningPlan b = some j → s.plan j = some p →
          (s.detachBus i unplug).plan j = some { p with state := .paused, cond := none }
          ∧ ∀ r ∈ (s.detachBus i unplug).clock.regs, ¬ (r.kind.owner = 1 ∧ r.slot = j))
      ∧ (∀ j, s.runningPlan b ≠ some j → (s.detachBus i unplug).plan j = s.plan j)
      ∧ s.detachBus i unplug = { s with
          clock := (s.detachBus i unplug).clock, buses := (s.detachBus i unplug).buses
          plans := (s.detachBus i unplug).plans } := by
  have hput : ∀ (u : State) (c : Bus) (k : Nat), (u.putBus i c).bus k = if k = i then some c else u.bus k :=
    fun u c k => Table.get_put u.buses i k c
  -- the state in which the unplug check runs
  obtain ⟨u, hu, huc, hub, huk, hun, hus, hpl, hpk, hfr⟩ : ∃ u : State,
      s.detachBus i unplug = (if unplug then u.takeCheck i else u.awayIfPending i)
      ∧ (∀ r ∈ u.clock.regs, r ∈ s.clock.regs)
      ∧ u.bus i = some ({ b with location := none }.raise BusFlag.unplugged)
      ∧ (∀ k, k ≠ i → u.bus k = s.bus k) ∧ u.now = s.now ∧ u.site = s.site
      ∧ (∀ j p, s.runningPlan b = some j → s.plan j = some p →
          u.plan j = some { p with state := .paused, cond := none }
          ∧ ∀ r ∈ u.clock.regs, ¬ (r.kind.owner = 1 ∧ r.slot = j))
      ∧ (∀ j, s.runningPlan b ≠ some j → u.plan j = s.plan j)
      ∧ u = { s with clock := u.clock, buses := u.buses, plans := u.plans } := by
    have h1 : (s.modBus i fun b => { b with location := none }) = s.putBus i { b with location := none } :=
      State.modBus_some h _
    have hb1 : (s.putBus i { b with location := none }).bus i = some { b with location := none } := by
      rw [hput, if_pos rfl]
    have hrun : (s.putBus i { b with location := none }).runningPlan { b with location := none }
        = s.runningPlan b := rfl
    rcases State.pauseRunning_eq hb1 with ⟨hn, he⟩ | ⟨j, p, hj, hp, he⟩
    · rw [hrun] at hn
      refine ⟨_, by unfold State.detachBus; rfl, ?_⟩
      rw [h1, he, State.modBus_some hb1]
      refine ⟨fun _ x => x, by rw [hput, if_pos rfl], fun k hk => by rw [hput, if_neg hk, hput, if_neg hk], rfl,
        rfl, by simp [hn], fun j _ => rfl, rfl⟩
    · rw [hrun] at hj
      have hp' : s.plan j = some p := hp
      refine ⟨_, by unfold State.detachBus; rfl, ?_⟩
      rw [h1, he]
      have hb2 : (((s.putBus i { b with location := none }).putPlan j
          { p with state := .paused, cond := none }).withdrawPlan j).bus i
          = some { b with location := none } := hb1
      rw [State.modBus_some hb2]
      refine ⟨fun r hr => (List.mem_filter.mp hr).1, by rw [hput, if_pos rfl],
        fun k hk => by rw [hput, if_neg hk]; exact (hput s _ k).trans (if_neg hk), rfl,
        rfl, ?_, ?_, rfl⟩
      · intro j' p' hj' hp''
        obtain rfl : j = j' := Option.some.inj (hj.symm.trans hj')
        obtain rfl : p = p' := Option.some.inj (hp'.symm.trans hp'')
        refine ⟨(Table.get_put s.plans j j _).trans (if_pos rfl), ?_⟩
        intro r hr ho
        have := (List.mem_filter.mp hr).2
        simp [ofRecord, ho.1, ho.2] at this
      · intro j' hj'
        have : j' ≠ j := fun hh => hj' (by rw [hh, hj])
        exact (Table.get_put s.plans j j' _).trans (if_neg this)
  have hfl : ({ b with location := none }.raise BusFlag.unplugged).flags.getLsbD 1 = true := by
    simp [Bus.raise, BusFlag.unplugged]
  cases unplug with
  | true =>
    simp only [if_true] at hu
    obtain ⟨c, hc, hk, hcf, hfl', hdn, has, hds, hrg, hrest⟩ := State.takeCheck_spec hub
    have hplans : (u.takeCheck i).plans = u.plans := by rw [hrest]
    rw [hu]
    refine ⟨c, hc, fun k hk' => (hk k hk').trans (huk k hk'), ?_, hfl' 1 hfl, hdn, by simp,
      ⟨has.taken, has.away, has.kept⟩, ?_, ?_, ?_, ?_⟩
    · rw [hcf]; rfl
    · intro d _ hd
      rw [← hun, ← hus]
      exact hds d hd
    · intro j p hj hp
      refine ⟨by unfold State.plan; rw [hplans]; exact (hpl j p hj hp).1, fun r hr => ?_⟩
      exact (hpl j p hj hp).2 r (hrg r hr)
    · intro j hj
      unfold State.plan; rw [hplans]; exact hpk j hj
    · rw [hrest, hfr]
  | false =>
    simp only [Bool.false_eq_true, if_false] at hu
    obtain ⟨c, hc, hk, hcf, hfl', has, hrest⟩ := State.awayIfPending_spec hub
    have hplans : (u.awayIfPending i).plans = u.plans := by rw [hrest]
    have hclk : (u.awayIfPending i).clock = u.clock := by rw [hrest]
    rw [hu]
    refine ⟨c, hc, fun k hk' => (hk k hk').trans (huk k hk'), ?_, hfl' 1 hfl, ?_, ?_,
      ⟨has.taken, has.away, has.kept⟩, by simp, ?_, ?_, ?_⟩
    · rw [hcf]; rfl
    · intro hd; rw [hcf]; exact hd
    · intro _; rw [hcf]; rfl
    · intro j p hj hp
      refine ⟨by unfold State.plan; rw [hplans]; exact (hpl j p hj hp).1, fun r hr => ?_⟩
      rw [hclk] at hr
      exact (hpl j p hj hp).2 r hr
    · intro j hj
      unfold State.plan; rw [hplans]; exact hpk j hj
    · rw [hrest, hfr]

/-- The ports after a settled change of one. -/
theorem State.port_updPort (s : State) (n m : PortNo) (f : Port → Port) : (s.updPort n f).port m =
    if m = n then Port.settle s.env (s.port n) (f (s.port n)) else s.port m := by
  unfold State.updPort State.putPort State.port
  show (s.ports.set n _)[m] = _
  rw [Fin.getElem_fin, Vector.getElem_set]
  simp only [Fin.ext_iff, eq_comm]
  rfl

/-- The ports after a change of one without the effects of settle. -/
theorem State.port_setPort (s : State) (n m : PortNo) (f : Port → Port) : (s.setPort n f).port m =
    if m = n then f (s.port n) else s.port m := by
  unfold State.setPort State.putPort State.port
  show (s.ports.set n _)[m] = _
  rw [Fin.getElem_fin, Vector.getElem_set]
  simp only [Fin.ext_iff, eq_comm]
  rfl

/-- R78: a session end with a port change f that keeps what dropSession did has every effect of one. -/
theorem State.endSession_ends {s : State} {n : PortNo} {unplug : Bool} {f : Port → Port}
    (hs : (s.port n).session ≠ none)
    (hf : let p := (s.port n).dropSession
      (f p).held = p.held ∧ (f p).lastDir = p.lastDir ∧ (f p).zeroSince = p.zeroSince
      ∧ (f p).frameCount = p.frameCount ∧ (f p).session = p.session ∧ (f p).command = p.command
      ∧ (f p).residue = p.residue ∧ (f p).idle = p.idle ∧ (f p).stray = p.stray
      ∧ (f p).wrongRun = p.wrongRun ∧ (f p).sessionImport = p.sessionImport
      ∧ (f p).sessionExport = p.sessionExport) :
    s.SessionEnds n unplug (s.endSession n unplug f)
    ∧ (s.endSession n unplug f).port n = Port.settle s.env (s.port n) (f (s.port n).dropSession) := by
  obtain ⟨x, hx⟩ := Option.ne_none_iff_exists'.mp hs
  have hd : (s.port n).dropSession = { s.port n with
      held := .zero, command := .opened, residue := 0, session := none, idle := 0 } := by
    unfold Port.dropSession; rw [hx]
  obtain ⟨f1, f2, f3, f4, f5, f6, f7, f8, f9, f10, f11, f12⟩ := hf
  rw [hd] at f1 f2 f3 f4 f5 f6 f7 f8 f9 f10 f11 f12
  have hport : ∀ m, (s.updPort n fun p => f p.dropSession).port m =
      if m = n then Port.settle s.env (s.port n) (f (s.port n).dropSession) else s.port m :=
    fun m => State.port_updPort s n m _
  have hpo := Port.settle_powerOff s.env (s.port n) (f (s.port n).dropSession)
    (by rw [hd]; exact f1) (by rw [hd]; exact f3) (by rw [hd]; exact f2) (by rw [hd]; exact f4)
  have hses : ∀ t : State, t.port n = Port.settle s.env (s.port n) (f (s.port n).dropSession) →
      (s.port n).PowerOff s.now (t.port n)
      ∧ ((t.port n).session = none ∧ (t.port n).command = .opened ∧ (t.port n).residue = 0)
      ∧ ((t.port n).idle = 0 ∧ (t.port n).stray = (s.port n).stray ∧ (t.port n).wrongRun = (s.port n).wrongRun
        ∧ (t.port n).sessionImport = (s.port n).sessionImport
        ∧ (t.port n).sessionExport = (s.port n).sessionExport) := by
    intro t ht
    rw [ht]
    refine ⟨hpo, ⟨?_, ?_, ?_⟩, ?_⟩
    · rw [Port.settle_session, hd, f5]
    · rw [Port.settle_command, hd, f6]
    · rw [Port.settle_residue, hd, f7]
    · rw [hd] at *
      rw [Port.settle_eq]
      exact ⟨f8, f9, f10, f11, f12⟩
  unfold State.endSession
  cases hb : (s.port n).boundSlot with
  | none =>
    dsimp only
    have hp : (s.updPort n fun p => f p.dropSession).port n = _ := (hport n).trans (if_pos rfl)
    obtain ⟨h1, h2, h3⟩ := hses _ hp
    refine ⟨⟨h1, h2, h3, fun m hm => (hport m).trans (if_neg hm), by simp [hb], by simp [hb],
      fun _ _ => rfl, fun _ _ => rfl, rfl⟩, hp⟩
  | some i =>
    dsimp only
    cases hbus : s.bus i with
    | none =>
      have hnone : (s.updPort n fun p => f p.dropSession).detachBus i unplug
          = s.updPort n fun p => f p.dropSession := by
        have hn : (s.updPort n fun p => f p.dropSession).bus i = none := hbus
        unfold State.detachBus State.modBus State.pauseRunning State.takeCheck State.awayIfPending State.modBus
        simp [hn]
      rw [hnone]
      have hp : (s.updPort n fun p => f p.dropSession).port n = _ := (hport n).trans (if_pos rfl)
      obtain ⟨h1, h2, h3⟩ := hses _ hp
      refine ⟨⟨h1, h2, h3, fun m hm => (hport m).trans (if_neg hm), ?_, ?_, fun _ _ => rfl, fun _ _ => rfl,
        rfl⟩, hp⟩
      · intro i' b hi' hb'
        obtain rfl : i = i' := Option.some.inj (hb.symm.trans hi')
        rw [hbus] at hb'; simp at hb'
      · intro i' b j p hi' hb'
        obtain rfl : i = i' := Option.some.inj (hb.symm.trans hi')
        rw [hbus] at hb'; simp at hb'
    | some b =>
      have hbus' : (s.updPort n fun p => f p.dropSession).bus i = some b := hbus
      obtain ⟨c, hc, hk, hcf, hfl, hdn, hdk, has, hds, hpl, hpk, hfr⟩ := State.detachBus_spec hbus' unplug
      have hports : ∀ m, ((s.updPort n fun p => f p.dropSession).detachBus i unplug).port m
          = (s.updPort n fun p => f p.dropSession).port m := by
        intro m
        unfold State.port
        rw [show ((s.updPort n fun p => f p.dropSession).detachBus i unplug).ports
          = (s.updPort n fun p => f p.dropSession).ports by rw [hfr]]
      have hp := (hports n).trans ((hport n).trans (if_pos rfl))
      obtain ⟨h1, h2, h3⟩ := hses _ hp
      have hrun : (s.updPort n fun p => f p.dropSession).runningPlan b = s.runningPlan b := rfl
      refine ⟨⟨h1, h2, h3, fun m hm => (hports m).trans ((hport m).trans (if_neg hm)), ?_, ?_, ?_, ?_, ?_⟩, hp⟩
      · intro i' b' hi' hb'
        obtain rfl : i = i' := Option.some.inj (hb.symm.trans hi')
        obtain rfl : b = b' := Option.some.inj (hbus.symm.trans hb')
        exact ⟨c, hc, hcf, hfl, hdn, hdk, has, hds⟩
      · intro i' b' j p hi' hb' hj hp'
        obtain rfl : i = i' := Option.some.inj (hb.symm.trans hi')
        obtain rfl : b = b' := Option.some.inj (hbus.symm.trans hb')
        exact hpl j p hj hp'
      · intro j hj
        exact hpk j (hj i b hb hbus)
      · intro k hk'
        exact hk k fun hki => hk' (by rw [hki, hb])
      · rw [hfr]; rfl

theorem Port.dropSession_none {p : Port} (h : p.session = none) : p.dropSession = p := by
  unfold Port.dropSession; rw [h]

/-- What R79's port part writes, field by field. -/
theorem Port.faultInto_eq (code : PortFault) (now : Nat) (p : Port) : p.faultInto code now =
    { p with
      held := .zero, command := .opened, state := .faulted, settling := .stopped, debounce := .stopped
      answer := .stopped, confirmation := .stopped, quiet := .stopped, limit := .stopped
      pendingTarget := none, faultCode := some code
      lastTransition := match p.pendingTarget with
        | some t => some ⟨t, .dropped, now⟩
        | none => p.lastTransition
      attempts := if p.state = .identifying then 0 else p.attempts
      flags := (match p.pendingTarget with
        | some _ => p.flags ||| PortFlag.stateReached
        | none => p.flags) ||| PortFlag.fault } := by
  unfold Port.faultInto Port.intoFault Port.dropTransition Port.endIdentification Port.endTransition
  cases p.pendingTarget with
  | none => dsimp only; split <;> simp_all [Port.enter, Port.raise]
  | some t => dsimp only; by_cases h : p.state = .identifying <;> simp [h, Port.enter, Port.raise]

/-- R79: a port fault that is taken has every effect of one. -/
theorem State.portFault_faults {s : State} {n : PortNo} {code : PortFault}
    (ho : (s.port n).state ≠ .offline) (hf : (s.port n).state ≠ .faulted) :
    s.PortFaults n code (s.portFault n code) := by
  have hport : (s.portFault n code).port n
      = Port.settle s.env (s.port n) (Port.faultInto code s.now (s.port n).dropSession) := by
    unfold State.portFault
    rw [if_neg (by simp [ho, hf])]
    unfold State.endSession
    cases hb : (s.port n).boundSlot with
    | none => exact (State.port_updPort s n n _).trans (if_pos rfl)
    | some i =>
      dsimp only
      have hpp : ∀ (u : State), (u.detachBus i false).ports = u.ports := by
        intro u
        cases hu : u.bus i with
        | none =>
          unfold State.detachBus State.modBus State.pauseRunning State.awayIfPending State.modBus
          simp [hu]
        | some b => obtain ⟨c, hc⟩ := State.detachBus_spec hu false; rw [hc.2.2.2.2.2.2.2.2.2.2]
      unfold State.port
      rw [hpp]
      exact (State.port_updPort s n n _).trans (if_pos rfl)
  have hpend : (s.port n).dropSession.pendingTarget = (s.port n).pendingTarget
      ∧ (s.port n).dropSession.lastTransition = (s.port n).lastTransition
      ∧ (s.port n).dropSession.attempts = (s.port n).attempts
      ∧ (s.port n).dropSession.state = (s.port n).state
      ∧ (s.port n).dropSession.lastDir = (s.port n).lastDir
      ∧ (s.port n).dropSession.zeroSince = (s.port n).zeroSince
      ∧ (s.port n).dropSession.frameCount = (s.port n).frameCount := by
    unfold Port.dropSession; split <;> exact ⟨rfl, rfl, rfl, rfl, rfl, rfl, rfl⟩
  obtain ⟨d1, d2, d3, d4, d5, d6, d7⟩ := hpend
  have hpo : (s.port n).PowerOff s.now ((s.portFault n code).port n) := by
    rw [hport]
    have := Port.settle_powerOff s.env (s.port n) (Port.faultInto code s.now (s.port n).dropSession)
      (by rw [Port.faultInto_eq]) (by rw [Port.faultInto_eq]; exact d6) (by rw [Port.faultInto_eq]; exact d5)
      (by rw [Port.faultInto_eq]; exact d7)
    exact this
  have hne : ¬ ((s.port n).state = .offline ∨ (s.port n).state = .faulted) := by simp [ho, hf]
  refine ⟨hpo, ?_, ?_, ?_, ?_, ?_, ?_, ?_, ?_⟩
  · rw [hport, Port.settle_state, Port.settle_fault, Port.settle_command, Port.settle_flags, Port.faultInto_eq]
    refine ⟨rfl, rfl, rfl, ?_⟩
    simp [PortFlag.fault]
  · rw [hport, Port.settle_eq, Port.faultInto_eq]
    refine ⟨rfl, rfl, rfl, rfl, ?_, rfl, rfl, ?_⟩
    · simp
    · simp [Port.stallConditions]
  · rw [hport, Port.settle_pending, Port.faultInto_eq]
  · intro g hg
    rw [hport, Port.settle_last, Port.settle_flags, Port.faultInto_eq, d1, hg]
    refine ⟨rfl, ?_⟩
    simp [PortFlag.fault, PortFlag.stateReached]
  · intro hg
    rw [hport, Port.settle_last, Port.faultInto_eq, d1, hg]
    exact d2
  · rw [hport, Port.settle_eq, Port.faultInto_eq, d3, d4]
  · intro hs
    unfold State.portFault
    rw [if_neg hne]
    have hc0 : (s.port n).dropSession.held = .zero ∧ (s.port n).dropSession.command = .opened := by
      obtain ⟨x, hx⟩ := Option.ne_none_iff_exists'.mp hs
      unfold Port.dropSession; rw [hx]; exact ⟨rfl, rfl⟩
    exact (State.endSession_ends hs (by
      dsimp only
      rw [Port.faultInto_eq]
      exact ⟨hc0.1.symm, rfl, rfl, rfl, rfl, hc0.2.symm, rfl, rfl, rfl, rfl, rfl, rfl⟩)).1
  · intro hs
    have hb : (s.port n).boundSlot = none := by unfold Port.boundSlot; rw [hs]
    unfold State.portFault
    rw [if_neg hne]
    unfold State.endSession
    rw [hb]
    dsimp only
    have hp := (State.port_updPort s n n fun p => Port.faultInto code s.now p.dropSession).trans (if_pos rfl)
    rw [hp]
    rfl

end Sys2Proof.Machine
end

