-- ==== Sys2Proof/Laws/Loads.lean ====
section
/-! SUPPORT. What a load does: the registrations of a record under a withdrawal and a registration, and each
of the four effects of R9's load on what it touches. -/

namespace Sys2Proof.Machine

open Sys2Proof

/-- The registrations in the set that a test selects, in their order. -/
def State.regsOf (s : State) (sel : Registration → Bool) : List Registration := s.clock.regs.filter sel

theorem State.regsOf_withdraw (s : State) (f sel : Registration → Bool) :
    (s.withdraw f).regsOf sel = s.regsOf fun r => sel r && !f r := by
  unfold State.regsOf State.withdraw; rw [List.filter_filter]

theorem State.regsOf_withdraw_out (s : State) {f sel : Registration → Bool}
    (h : ∀ r, sel r = true → f r = false) : (s.withdraw f).regsOf sel = s.regsOf sel := by
  unfold State.regsOf State.withdraw
  rw [List.filter_filter]
  apply List.filter_congr; intro r _
  cases hs : sel r
  · rfl
  · simp [h r hs]

theorem State.regsOf_withdraw_all (s : State) {f sel : Registration → Bool}
    (h : ∀ r, sel r = true → f r = true) : (s.withdraw f).regsOf sel = [] := by
  unfold State.regsOf State.withdraw
  rw [List.filter_filter, List.filter_eq_nil_iff]
  intro r _ hc
  rw [Bool.and_eq_true] at hc
  simp [h r hc.1] at hc

theorem State.regsOf_register (s : State) (k : RegKind) (i t : Nat) (sel : Registration → Bool) :
    (s.register k i t).regsOf sel
      = s.regsOf sel ++ if s.now < t ∧ sel ⟨k, i, t⟩ = true then [⟨k, i, t⟩] else [] := by
  unfold State.regsOf State.register
  by_cases h : s.now < t
  · rw [if_pos h]; simp only [List.filter_append, h, true_and]
    cases hs : sel ⟨k, i, t⟩ <;> simp [hs]
  · rw [if_neg h, if_neg (fun hc => h hc.1), List.append_nil]

theorem State.regsOf_register_out (s : State) (k : RegKind) (i t : Nat) {sel : Registration → Bool}
    (h : sel ⟨k, i, t⟩ = false) : (s.register k i t).regsOf sel = s.regsOf sel := by
  rw [State.regsOf_register]; simp [h]

/-- A registration changes the set of registrations alone. -/
theorem State.register_eq (s : State) (k : RegKind) (i t : Nat) : s.register k i t =
    { s with clock := { s.clock with regs := (s.register k i t).clock.regs } } := by
  unfold State.register; split <;> rfl

/-- Nothing differs but the registrations, and no crossing has come to wait. -/
structure State.OnlyRegs (s t : State) : Prop where
  rest  : t = { s with clock := { s.clock with regs := t.clock.regs, fired := t.clock.fired } }
  fired : t.clock.fired.Sublist s.clock.fired

theorem State.OnlyRegs.refl (s : State) : s.OnlyRegs s := ⟨rfl, List.Sublist.refl _⟩

theorem State.OnlyRegs.trans {s t u : State} (h : s.OnlyRegs t) (k : t.OnlyRegs u) : s.OnlyRegs u :=
  ⟨by rw [k.rest]; conv_lhs => rw [h.rest], k.fired.trans h.fired⟩

theorem State.withdraw_onlyRegs (s : State) (f : Registration → Bool) : s.OnlyRegs (s.withdraw f) :=
  ⟨rfl, List.filter_sublist⟩

theorem State.register_onlyRegs (s : State) (k : RegKind) (i t : Nat) : s.OnlyRegs (s.register k i t) := by
  unfold State.register; split
  · exact ⟨rfl, List.Sublist.refl _⟩
  · exact .refl s

theorem State.registerLockout_onlyRegs (s : State) (i t : Nat) : s.OnlyRegs (s.registerLockout i t) := by
  unfold State.registerLockout; dsimp only; split
  · exact s.register_onlyRegs _ _ _
  · exact .refl s

theorem State.OnlyRegs.now {s t : State} (h : s.OnlyRegs t) : t.now = s.now := by rw [h.rest]; rfl

theorem State.OnlyRegs.site {s t : State} (h : s.OnlyRegs t) : t.site = s.site := by rw [h.rest]

theorem State.OnlyRegs.commits {s t : State} (h : s.OnlyRegs t) : t.commits = s.commits := by rw [h.rest]

/-- R124: the registrations of a bus's lockout point, as they stand under a window. -/
def lockoutRegs (now window slot tDep : Nat) : List Registration :=
  if 0 < window ∧ window ≤ tDep ∧ now < tDep - window then [⟨.lockout, slot, tDep - window⟩] else []

theorem State.reloadLockoutPoint_onlyRegs (s : State) (i : Nat) (b : Bus) :
    s.OnlyRegs (s.reloadLockoutPoint i b) := by
  unfold State.reloadLockoutPoint
  split
  · split
    · exact (s.withdraw_onlyRegs _).trans (State.registerLockout_onlyRegs _ _ _)
    · exact .refl s
  · exact .refl s

theorem State.regsOf_reloadLockoutPoint_out (s : State) (i : Nat) (b : Bus) {sel : Registration → Bool}
    (h : ∀ r, sel r = true → (r.kind == .lockout && r.slot == i) = false) :
    (s.reloadLockoutPoint i b).regsOf sel = s.regsOf sel := by
  unfold State.reloadLockoutPoint
  split
  · split
    · unfold State.registerLockout; dsimp only; split
      · rw [State.regsOf_register_out _ _ _ _ (by
          cases hs : sel ⟨.lockout, i, _⟩
          · rfl
          · have := h _ hs; simp at this)]
        exact State.regsOf_withdraw_out _ h
      · exact State.regsOf_withdraw_out _ h
    · rfl
  · rfl

/-- R124: for one bus with a PENDING part, only the lockout point under the live window stays. -/
theorem State.regsOf_reloadLockoutPoint (s : State) {i : Nat} {b : Bus} {d : Departure}
    (hd : b.departure = some d) (hp : d.state = .pending) :
    (s.reloadLockoutPoint i b).regsOf (fun r => r.kind == .lockout && r.slot == i)
      = lockoutRegs s.now s.site.live.lockoutWindow i d.tDep := by
  unfold State.reloadLockoutPoint
  rw [hd]; dsimp only; rw [if_pos hp]
  have hw : (s.withdraw (ofKind .lockout i)).regsOf (fun r => r.kind == .lockout && r.slot == i) = [] :=
    State.regsOf_withdraw_all _ fun r hr => hr
  unfold State.registerLockout lockoutRegs; dsimp only
  by_cases h : 0 < s.site.live.lockoutWindow ∧ s.site.live.lockoutWindow ≤ d.tDep
  · rw [if_pos (by exact h), State.regsOf_register, hw]
    by_cases h2 : s.now < d.tDep - s.site.live.lockoutWindow
    · rw [if_pos ⟨h2, by simp⟩, if_pos ⟨h.1, h.2, h2⟩]; rfl
    · rw [if_neg (fun hc => h2 hc.1), if_neg (fun hc => h2 hc.2.2)]; rfl
  · rw [if_neg (by exact h), hw, if_neg (fun hc => h ⟨hc.1, hc.2.1⟩)]

/-- R124: a new lockout window, over the rows of the Bus Table. -/
theorem State.reloadLockoutRows (l : List (Nat × Bus)) : ∀ (s : State), (l.map Prod.fst).Nodup →
    let t := l.foldl (fun t r => t.reloadLockoutPoint r.1 r.2) s
    s.OnlyRegs t
    ∧ (∀ sel, (∀ r : Registration, sel r = true → r.kind ≠ .lockout) → t.regsOf sel = s.regsOf sel)
    ∧ (∀ i, i ∉ l.map Prod.fst → t.regsOf (fun r => r.kind == .lockout && r.slot == i)
        = s.regsOf fun r => r.kind == .lockout && r.slot == i)
    ∧ ∀ i b, (i, b) ∈ l →
      (∀ d, b.departure = some d → d.state = .pending →
        t.regsOf (fun r => r.kind == .lockout && r.slot == i)
          = lockoutRegs s.now s.site.live.lockoutWindow i d.tDep)
      ∧ ((∀ d, b.departure = some d → d.state ≠ .pending) →
        t.regsOf (fun r => r.kind == .lockout && r.slot == i)
          = s.regsOf fun r => r.kind == .lockout && r.slot == i) := by
  induction l with
  | nil => intro s _; exact ⟨.refl s, fun _ _ => rfl, fun _ _ => rfl, fun _ _ h => by cases h⟩
  | cons x l ih =>
    intro s hn
    rw [List.map_cons, List.nodup_cons] at hn
    have o := s.reloadLockoutPoint_onlyRegs x.1 x.2
    obtain ⟨h1, h2, h3, h4⟩ := ih (s.reloadLockoutPoint x.1 x.2) hn.2
    dsimp only at h1 h2 h3 h4 ⊢
    rw [List.foldl_cons]
    have other : ∀ i, i ≠ x.1 → (s.reloadLockoutPoint x.1 x.2).regsOf
        (fun r => r.kind == .lockout && r.slot == i) = s.regsOf fun r => r.kind == .lockout && r.slot == i :=
      fun i hi => State.regsOf_reloadLockoutPoint_out _ _ _ fun r hr => by
        simp only [Bool.and_eq_true, beq_iff_eq] at hr
        simp [hr.2, hi]
    refine ⟨o.trans h1, fun sel hs => ?_, fun i hi => ?_, fun i b hb => ?_⟩
    · rw [h2 sel hs]
      exact State.regsOf_reloadLockoutPoint_out _ _ _ fun r hr => by simp [hs r hr]
    · rw [List.map_cons, List.mem_cons, not_or] at hi
      rw [h3 i hi.2, other i hi.1]
    · rcases List.mem_cons.mp hb with rfl | hb
      · rw [h3 i hn.1]
        refine ⟨fun d hd hp => State.regsOf_reloadLockoutPoint s hd hp, fun hp => ?_⟩
        unfold State.reloadLockoutPoint
        split
        · next d hd => rw [if_neg (hp d hd)]
        · rfl
      · have hi : i ≠ x.1 := fun e => hn.1 (e ▸ List.mem_map.mpr ⟨_, hb, rfl⟩)
        have := h4 i b hb
        rw [o.now, o.site, other i hi] at this
        exact this

/-- Nothing differs but the registrations and the commitments, and no crossing has come to wait. -/
structure State.OnlyReserve (s t : State) : Prop where
  rest  : t = { s with
    commits := t.commits, clock := { s.clock with regs := t.clock.regs, fired := t.clock.fired } }
  fired : t.clock.fired.Sublist s.clock.fired

theorem State.OnlyReserve.trans {s t u : State} (h : s.OnlyReserve t) (k : t.OnlyReserve u) :
    s.OnlyReserve u :=
  ⟨by rw [k.rest]; conv_lhs => rw [h.rest], k.fired.trans h.fired⟩

theorem State.OnlyRegs.reserve {s t : State} (h : s.OnlyRegs t) : s.OnlyReserve t :=
  ⟨by rw [h.commits]; exact h.rest, h.fired⟩

theorem State.modCommit_onlyReserve (s : State) (i : Nat) (f : Commitment → Commitment) :
    s.OnlyReserve (s.modCommit i f) := by
  unfold State.modCommit; split
  · exact ⟨rfl, List.Sublist.refl _⟩
  · exact ⟨rfl, List.Sublist.refl _⟩

theorem State.OnlyReserve.now {s t : State} (h : s.OnlyReserve t) : t.now = s.now := by rw [h.rest]; rfl

@[simp] theorem State.regsOf_modCommit (s : State) (i : Nat) (f : Commitment → Commitment)
    (sel : Registration → Bool) : (s.modCommit i f).regsOf sel = s.regsOf sel := by
  unfold State.modCommit; split <;> rfl

theorem State.commit_modCommit (s : State) (i j : Nat) (f : Commitment → Commitment) :
    (s.modCommit i f).commit j = if j = i then (s.commit j).map f else s.commit j := by
  unfold State.modCommit
  split
  · next c hc =>
    show (s.putCommit i (f c)).commit j = _
    unfold State.putCommit State.commit
    rw [Table.get_put]
    by_cases h : j = i
    · subst h; rw [if_pos rfl, if_pos rfl, show s.commits.get j = some c from hc]; rfl
    · rw [if_neg h, if_neg h]
  · next hc =>
    by_cases h : j = i
    · subst h; rw [if_pos rfl, hc]; rfl
    · rw [if_neg h]

/-- R161: for one PENDING commitment, under a new arm lead. -/
theorem State.reloadArmPoint_spec (s : State) {lead i : Nat} {c : Commitment} (hc : s.commit i = some c) :
    let t := s.reloadArmPoint lead i c
    let point := c.windowStart - lead
    let starts (r : Registration) : Bool := (r.kind == .armPoint || r.kind == .windowStart) && r.slot == i
    s.OnlyReserve t
    ∧ (∀ j, j ≠ i → t.commit j = s.commit j)
    ∧ (∀ sel, (∀ r : Registration, sel r = true → starts r = false) → t.regsOf sel = s.regsOf sel)
    ∧ (s.now < point → t.commit i = some { c with armPoint := point }
        ∧ t.regsOf starts = [⟨.armPoint, i, point⟩, ⟨.windowStart, i, c.windowStart⟩])
    ∧ (point ≤ s.now → t.commit i = some ({ c with armPoint := point }.arm)
        ∧ t.regsOf (fun r => r.kind == .armPoint && r.slot == i) = []
        ∧ t.regsOf (fun r => r.kind == .windowStart && r.slot == i)
          = s.regsOf fun r => r.kind == .windowStart && r.slot == i) := by
  dsimp only
  unfold State.reloadArmPoint armPointOf
  dsimp only
  have w := (s.withdraw_onlyRegs (ofKind .armPoint i)).reserve
  have hw : (s.withdraw (ofKind .armPoint i)).commit i = some c := hc
  split
  · next h =>
    refine ⟨(((w.trans (State.modCommit_onlyReserve _ _ _)).trans
      (State.register_onlyRegs _ _ _ _).reserve).trans (State.withdraw_onlyRegs _ _).reserve).trans
      (State.register_onlyRegs _ _ _ _).reserve, fun j hj => ?_, fun sel hs => ?_, fun _ => ⟨?_, ?_⟩,
      fun hc => absurd h (by omega)⟩
    · rw [State.register_eq]
      show (State.commit (State.register _ _ _ _) j) = _
      rw [State.register_eq]
      show (State.modCommit _ _ _).commit j = _
      rw [State.commit_modCommit, if_neg hj]; rfl
    · have e : ∀ k : RegKind, (k = .armPoint ∨ k = .windowStart) → ∀ r, sel r = true → ofKind k i r = false := by
        intro k hk r hr
        have := hs r hr
        rcases hk with rfl | rfl <;> cases h1 : r.kind <;> simp_all [ofKind]
      have f : ∀ (k : RegKind) (x : Nat), (k = .armPoint ∨ k = .windowStart) → sel ⟨k, i, x⟩ = false := by
        intro k x hk
        cases h1 : sel ⟨k, i, x⟩
        · rfl
        · have := e k hk _ h1; simp [ofKind] at this
      rw [State.regsOf_register_out _ _ _ _ (f _ _ (.inr rfl)), State.regsOf_withdraw_out _ (e _ (.inr rfl)),
        State.regsOf_register_out _ _ _ _ (f _ _ (.inl rfl)), State.regsOf_modCommit,
        State.regsOf_withdraw_out _ (e _ (.inl rfl))]
    · rw [State.register_eq]
      show (State.commit (State.register _ _ _ _) i) = _
      rw [State.register_eq]
      show (State.modCommit _ _ _).commit i = _
      rw [State.commit_modCommit, if_pos rfl, hw]; rfl
    · have hn : s.now < c.windowStart := by omega
      rw [State.regsOf_register, if_pos ⟨by
        rw [(State.withdraw_onlyRegs _ _).now, (State.register_onlyRegs _ _ _ _).now,
          (State.modCommit_onlyReserve _ _ _).now, w.now]; exact hn, by simp⟩]
      have key : ((((s.withdraw (ofKind .armPoint i)).modCommit i fun x =>
            { x with armPoint := c.windowStart - lead }).register .armPoint i (c.windowStart - lead)).withdraw
            (ofKind .windowStart i)).regsOf
            (fun r => (r.kind == .armPoint || r.kind == .windowStart) && r.slot == i)
          = [⟨.armPoint, i, c.windowStart - lead⟩] := by
        rw [State.regsOf_withdraw]
        have e : (fun r : Registration => ((r.kind == .armPoint || r.kind == .windowStart) && r.slot == i)
            && !ofKind .windowStart i r) = fun r => r.kind == .armPoint && r.slot == i := by
          funext r; cases h1 : r.kind <;> cases h2 : r.slot == i <;> simp_all [ofKind] <;> rfl
        rw [e, State.regsOf_register, State.regsOf_modCommit]
        have z := State.regsOf_withdraw_all s (f := ofKind .armPoint i)
          (sel := fun r => r.kind == .armPoint && r.slot == i) fun r hr => hr
        rw [show State.regsOf _ _ = [] from z, if_pos ⟨by
          rw [(State.modCommit_onlyReserve _ _ _).now]; exact h, by simp⟩]; rfl
      rw [key]; rfl
  · next h =>
    refine ⟨(w.trans (State.modCommit_onlyReserve _ _ _)).trans (State.modCommit_onlyReserve _ _ _),
      fun j hj => ?_, fun sel hs => ?_, fun hc => absurd hc h, fun _ => ⟨?_, ?_, ?_⟩⟩
    · rw [State.commit_modCommit, if_neg hj, State.commit_modCommit, if_neg hj]; rfl
    · rw [State.regsOf_modCommit, State.regsOf_modCommit]
      exact State.regsOf_withdraw_out _ fun r hr => by
        have := hs r hr
        cases h1 : r.kind <;> simp_all [ofKind]
    · rw [State.commit_modCommit, if_pos rfl, State.commit_modCommit, if_pos rfl, hw]; rfl
    · rw [State.regsOf_modCommit, State.regsOf_modCommit]
      exact State.regsOf_withdraw_all _ fun r hr => hr
    · rw [State.regsOf_modCommit, State.regsOf_modCommit]
      exact State.regsOf_withdraw_out _ fun r hr => by
        simp only [Bool.and_eq_true, beq_iff_eq] at hr
        simp [ofKind, hr.1]

/-- R161: a new arm lead, over the rows of the commitment table. -/
theorem State.reloadArmRows (lead : Nat) (l : List (Nat × Commitment)) : ∀ (s : State),
    (l.map Prod.fst).Nodup → (∀ i c, (i, c) ∈ l → s.commit i = some c) →
    let t := l.foldl (fun t r => if r.2.state = .pending then t.reloadArmPoint lead r.1 r.2 else t) s
    s.OnlyReserve t
    ∧ (∀ j, j ∉ l.map Prod.fst → t.commit j = s.commit j)
    ∧ (∀ sel, (∀ r : Registration, sel r = true → r.kind ≠ .armPoint ∧ r.kind ≠ .windowStart) →
        t.regsOf sel = s.regsOf sel)
    ∧ (∀ sel, (∀ r : Registration, sel r = true → r.slot ∉ l.map Prod.fst) → t.regsOf sel = s.regsOf sel)
    ∧ ∀ i c, (i, c) ∈ l →
      let point := c.windowStart - lead
      let starts (r : Registration) : Bool := (r.kind == .armPoint || r.kind == .windowStart) && r.slot == i
      (c.state ≠ .pending → t.commit i = some c ∧ t.regsOf starts = s.regsOf starts)
      ∧ (c.state = .pending → s.now < point → t.commit i = some { c with armPoint := point }
        ∧ t.regsOf starts = [⟨.armPoint, i, point⟩, ⟨.windowStart, i, c.windowStart⟩])
      ∧ (c.state = .pending → point ≤ s.now → t.commit i = some ({ c with armPoint := point }.arm)
        ∧ t.regsOf (fun r => r.kind == .armPoint && r.slot == i) = []
        ∧ t.regsOf (fun r => r.kind == .windowStart && r.slot == i)
          = s.regsOf fun r => r.kind == .windowStart && r.slot == i) := by
  induction l with
  | nil =>
    intro s _ _
    exact ⟨⟨rfl, List.Sublist.refl _⟩, fun _ _ => rfl, fun _ _ => rfl, fun _ _ => rfl, fun _ _ h => by cases h⟩
  | cons x l ih =>
    intro s hn hm
    rw [List.map_cons, List.nodup_cons] at hn
    have hx : s.commit x.1 = some x.2 := hm x.1 x.2 (List.mem_cons_self ..)
    obtain ⟨o, q1, q2, q3, q4⟩ : ∃ o : s.OnlyReserve
        (if x.2.state = .pending then s.reloadArmPoint lead x.1 x.2 else s),
        (∀ j, j ≠ x.1 → (if x.2.state = .pending then s.reloadArmPoint lead x.1 x.2 else s).commit j
          = s.commit j)
        ∧ (∀ sel, (∀ r : Registration, sel r = true →
            ((r.kind == .armPoint || r.kind == .windowStart) && r.slot == x.1) = false) →
          (if x.2.state = .pending then s.reloadArmPoint lead x.1 x.2 else s).regsOf sel = s.regsOf sel)
        ∧ (x.2.state = .pending → (if x.2.state = .pending then s.reloadArmPoint lead x.1 x.2 else s)
            = s.reloadArmPoint lead x.1 x.2)
        ∧ (x.2.state ≠ .pending → (if x.2.state = .pending then s.reloadArmPoint lead x.1 x.2 else s) = s) := by
      by_cases hp : x.2.state = .pending
      · rw [if_pos hp]
        obtain ⟨a, b, c, _, _⟩ := s.reloadArmPoint_spec (lead := lead) hx
        exact ⟨a, b, c, fun _ => rfl, fun h => absurd hp h⟩
      · rw [if_neg hp]
        exact ⟨⟨rfl, List.Sublist.refl _⟩, fun _ _ => rfl, fun _ _ => rfl, fun h => absurd h hp, fun _ => rfl⟩
    obtain ⟨h1, h2, h3, h4, h5⟩ := ih (if x.2.state = .pending then s.reloadArmPoint lead x.1 x.2 else s) hn.2
      fun i c hc => by
        rw [q1 i fun e => hn.1 (e ▸ List.mem_map.mpr ⟨_, hc, rfl⟩)]
        exact hm i c (List.mem_cons_of_mem _ hc)
    dsimp only at h1 h2 h3 h4 h5 ⊢
    rw [List.foldl_cons]
    refine ⟨o.trans h1, fun j hj => ?_, fun sel hs => ?_, fun sel hs => ?_, fun i c hc => ?_⟩
    · rw [List.map_cons, List.mem_cons, not_or] at hj
      rw [h2 j hj.2, q1 j hj.1]
    · rw [h3 sel hs]
      exact q2 sel fun r hr => by simp [(hs r hr).1, (hs r hr).2]
    · have hs' : ∀ r : Registration, sel r = true → r.slot ∉ l.map Prod.fst := fun r hr hc =>
        hs r hr (by rw [List.map_cons]; exact List.mem_cons_of_mem _ hc)
      rw [h4 sel hs']
      exact q2 sel fun r hr => by
        have : r.slot ≠ x.1 := fun e => hs r hr (by rw [e, List.map_cons]; exact List.mem_cons_self ..)
        simp [this]
    · rcases List.mem_cons.mp hc with e | hc
      · have keep : ∀ sel, (∀ r : Registration, sel r = true → r.slot = i) →
            (List.foldl (fun t r => if r.2.state = .pending then t.reloadArmPoint lead r.1 r.2 else t)
              (if x.2.state = .pending then s.reloadArmPoint lead x.1 x.2 else s) l).regsOf sel
            = (if x.2.state = .pending then s.reloadArmPoint lead x.1 x.2 else s).regsOf sel :=
          fun sel hs => h4 sel fun r hr => by rw [hs r hr]; rw [← e] at hn; exact hn.1
        have slot : ∀ (f : Registration → Bool) (r : Registration), (f r && r.slot == i) = true → r.slot = i :=
          fun f r hr => by simp only [Bool.and_eq_true, beq_iff_eq] at hr; exact hr.2
        rw [h2 i (by rw [← e] at hn; exact hn.1)]
        rw [keep _ (slot _), keep _ (slot _), keep _ (slot _)]
        subst e
        refine ⟨fun hp => ?_, fun hp => ?_, fun hp => ?_⟩
        · rw [q4 hp]; exact ⟨hx, rfl⟩
        · rw [q3 hp]; exact (s.reloadArmPoint_spec hx).2.2.2.1
        · rw [q3 hp]; exact (s.reloadArmPoint_spec hx).2.2.2.2
      · have hi : i ≠ x.1 := fun e => hn.1 (e ▸ List.mem_map.mpr ⟨_, hc, rfl⟩)
        have other : ∀ f : Registration → Bool,
            (if x.2.state = .pending then s.reloadArmPoint lead x.1 x.2 else s).regsOf
              (fun r => f r && r.slot == i) = s.regsOf fun r => f r && r.slot == i :=
          fun f => q2 _ fun r hr => by
            simp only [Bool.and_eq_true, beq_iff_eq] at hr
            simp [hr.2, hi]
        have := h5 i c hc
        have e1 := other fun r => r.kind == .armPoint || r.kind == .windowStart
        have e3 := other fun r => r.kind == .windowStart
        rw [o.now, e1, e3] at this
        exact this

end Sys2Proof.Machine
end

