-- ==== Sys2Proof/Laws/Chains.lean ====
section
/-! SUPPORT. What a chain of selections, step begins and step ends of one bus leaves alone (R46, R47, R54,
R55), said once for every event that tests a step or selects a plan. -/

namespace Sys2Proof.Machine

open Sys2Proof

/-- What a chain of a bus b in slot k makes of the state: of the bus its lists and flags, of the port it is at a
released setpoint, its memory and its frames, and elsewhere plans, lists and registrations alone. -/
structure State.ChainOf (k : Nat) (b : Bus) (s t : State) : Prop where
  bus   : ∃ c, t.bus k = some c ∧ c = { b with prioList := c.prioList, stdList := c.stdList, flags := c.flags }
  ports : ∀ m, b.location ≠ some m → t.port m = s.port m
  port  : ∀ n, t.port n = ((s.port n).timersOf (t.port n)).setpointOf (t.port n)
  quiet : ∀ n, (t.port n).quiet = (s.port n).quiet
  now   : t.now = s.now
  rest  : t = { s with clock := t.clock, buses := t.buses, plans := t.plans, ports := t.ports }

/-- A change of the state that is one of a chain. -/
def State.Chained (k : Nat) (s t : State) : Prop := ∀ b, s.bus k = some b → s.ChainOf k b t

variable {k : Nat}

theorem State.Chained.refl (s : State) : s.Chained k s :=
  fun b hb => ⟨⟨b, hb, rfl⟩, fun _ _ => rfl, fun _ => rfl, fun _ => rfl, rfl, rfl⟩

theorem State.Chained.trans {s t u : State} (h1 : s.Chained k t) (h2 : t.Chained k u) : s.Chained k u := by
  intro b hb
  obtain ⟨⟨c, hc, hce⟩, p1, q1, r1, n1, e1⟩ := h1 b hb
  obtain ⟨⟨d, hd, hde⟩, p2, q2, r2, n2, e2⟩ := h2 c hc
  refine ⟨⟨d, hd, by rw [hde, hce]⟩, fun m hm => (p2 m (by rw [hce]; exact hm)).trans (p1 m hm), fun n => ?_,
    fun n => (r2 n).trans (r1 n), n2.trans n1, ?_⟩
  · rw [q2, q1]; rfl
  · rw [e2, e1]

/-- Plans and registrations are a chain's to change. -/
theorem State.Chained.beside {s t : State} (hb : t.buses = s.buses) (hp : t.ports = s.ports) (hn : t.now = s.now)
    (hr : t = { s with clock := t.clock, buses := t.buses, plans := t.plans, ports := t.ports }) :
    s.Chained k t := by
  have hport : ∀ m, t.port m = s.port m := fun m => by unfold State.port; rw [hp]
  refine fun b h => ⟨⟨b, ?_, rfl⟩, fun m _ => hport m, fun n => ?_, fun n => ?_, hn, hr⟩
  · unfold State.bus; rw [hb]; exact h
  · rw [hport]; rfl
  · rw [hport]

theorem State.modPlan_chained (s : State) (i : Nat) (f : Plan → Plan) : s.Chained k (s.modPlan i f) := by
  unfold State.modPlan; split
  · exact .beside rfl rfl rfl rfl
  · exact .refl s

theorem State.register_chained (s : State) (r : RegKind) (i v : Nat) : s.Chained k (s.register r i v) := by
  rw [State.register_eq]; exact .beside rfl rfl rfl rfl

theorem State.withdrawPlan_chained (s : State) (i : Nat) : s.Chained k (s.withdrawPlan i) :=
  .beside rfl rfl rfl rfl

theorem State.putPlan_chained (s : State) (i : Nat) (p : Plan) : s.Chained k (s.putPlan i p) :=
  .beside rfl rfl rfl rfl

/-- A change of a bus's lists and flags. -/
theorem State.modBus_chained (s : State) (i : Nat) (f : Bus → Bus)
    (hf : ∀ b, f b = { b with prioList := (f b).prioList, stdList := (f b).stdList, flags := (f b).flags }) :
    s.Chained k (s.modBus i f) := by
  intro b hb
  cases hi : s.bus i with
  | none =>
    have e : s.modBus i f = s := by unfold State.modBus; rw [hi]
    rw [e]; exact State.Chained.refl s b hb
  | some c =>
    rw [State.modBus_some hi]
    refine ⟨?_, fun _ _ => rfl, fun _ => rfl, fun _ => rfl, rfl, rfl⟩
    have e : (s.putBus i (f c)).bus k = if k = i then some (f c) else s.bus k := Table.get_put s.buses i k _
    by_cases hk : k = i
    · subst hk
      obtain rfl : c = b := Option.some.inj (hi.symm.trans hb)
      exact ⟨f c, by rw [e, if_pos rfl], hf c⟩
    · exact ⟨b, by rw [e, if_neg hk]; exact hb, rfl⟩

theorem State.finalise_chained (s : State) (i : Nat) (st : PlanState) (o : PlanOutcome) :
    s.Chained k (s.finalise i st o) := by
  unfold State.finalise; split
  · exact (s.putPlan_chained i _).trans
      ((State.modBus_chained _ _ (Bus.unlist i) fun _ => rfl).trans (State.withdrawPlan_chained _ i))
  · exact .refl s

/-- A lowering of the port of the bus itself. -/
theorem State.updPort_chained (s : State) {b : Bus} {n : PortNo} (hb : s.bus k = some b) (hl : b.location = some n)
    (f : Port → Port) (hf : ∀ p, f p = { p with held := (f p).held }) : s.ChainOf k b (s.updPort n f) := by
  have hp : ∀ m, (s.updPort n f).port m
      = ((s.port m).timersOf ((s.updPort n f).port m)).setpointOf ((s.updPort n f).port m)
        ∧ ((s.updPort n f).port m).quiet = (s.port m).quiet := by
    intro m
    rw [State.port_updPort]
    split
    · next h => subst h; rw [Port.settle_eq, hf]; exact ⟨rfl, rfl⟩
    · exact ⟨rfl, rfl⟩
  refine ⟨⟨b, hb, rfl⟩, fun m hm => (State.port_updPort s n m f).trans (if_neg fun h => hm ?_), fun m => (hp m).1,
    fun m => (hp m).2, rfl, rfl⟩
  rw [h, hl]

theorem Port.zeroExport_held (p : Port) : p.zeroExport = { p with held := p.zeroExport.held } := by
  unfold Port.zeroExport Port.zeroHeld; split <;> rfl

theorem Port.importToTierA_held (g : Nat) (p : Port) :
    p.importToTierA g = { p with held := (p.importToTierA g).held } := by
  unfold Port.importToTierA; split <;> rfl

theorem State.releasePower_chained (s : State) : s.Chained k (s.releasePower k) := by
  intro b hb
  unfold State.releasePower
  rw [hb]
  dsimp only
  cases hl : b.location with
  | none => exact State.Chained.refl s b hb
  | some n =>
    exact State.updPort_chained s hb hl _ fun p => by rw [Port.zeroExport_held, Port.importToTierA_held]

theorem State.withdrawExport_chained (s : State) : s.Chained k (s.withdrawExport k) := by
  intro b hb
  unfold State.withdrawExport
  rw [hb]
  dsimp only
  cases hl : b.location with
  | none => exact State.Chained.refl s b hb
  | some n => exact State.updPort_chained s hb hl _ Port.zeroExport_held

theorem planTask_chained (t : PlanTask) (s : State) : s.Chained k (planTask k t s).1 := by
  unfold planTask
  split
  · exact .refl s
  · next bus _ =>
    cases t with
    | select =>
      show s.Chained k (s.selectPlan bus).1
      unfold State.selectPlan
      split
      · split
        · exact s.modPlan_chained _ _
        · exact .refl s
      · exact .refl s
    | start i =>
      dsimp only
      split
      · split
        · next st _ =>
          unfold State.beginStep
          split
          · exact .refl s
          · have h1 : s.Chained k (s.registerHold i st) := by
              unfold State.registerHold; split
              · exact s.register_chained _ _ _
              · exact .refl s
            dsimp only
            split
            · exact h1.trans ((State.finalise_chained _ _ _ _).trans (State.releasePower_chained _))
            · refine h1.trans (.trans (t := State.registerEndBy i st (s.registerHold i st)) ?_ ?_)
              · unfold State.registerEndBy; split
                · exact State.register_chained _ _ _ _
                · exact .refl _
              · unfold State.enterCondition State.setCond
                split
                · exact (State.modPlan_chained _ _ _).trans (State.register_chained _ _ _ _)
                · split
                  · exact (State.modPlan_chained _ _ _).trans (State.modBus_chained _ _ _ fun _ => rfl)
                  · exact State.modPlan_chained _ _ _
        · exact .refl s
      · exact .refl s
    | finish i =>
      dsimp only
      split
      · unfold State.endStep
        have h1 : s.Chained k ((s.withdrawPlan i).releasePower k) :=
          (s.withdrawPlan_chained i).trans (State.releasePower_chained _)
        dsimp only
        split
        · exact h1.trans (State.finalise_chained _ _ _ _)
        · split
          · exact h1.trans (State.modPlan_chained _ _ _)
          · exact h1.trans (State.modPlan_chained _ _ _)
      · exact .refl s

/-- R46, R54, R55: everything a chain of plan tasks leaves alone. -/
theorem runTasks_chained (fuel : Nat) (t : PlanTask) (s : State) : s.Chained k (runTasks k fuel t s) := by
  induction fuel generalizing t s with
  | zero => exact .refl s
  | succ m ih =>
    have h := planTask_chained (k := k) t s
    unfold runTasks
    cases hp : planTask k t s with
    | mk s' o =>
      rw [hp] at h
      cases o with
      | none => exact h
      | some t' => exact h.trans (ih t' s')

/-- R50, R51, R116: what a test of the current step leaves alone, whether the step ends or stays. -/
theorem State.testStep_chained (kinds : StepKind → Bool) (s : State) : s.Chained k (s.testStep kinds k) := by
  unfold State.testStep
  repeat' split
  all_goals first | exact .refl s | exact runTasks_chained _ _ s

end Sys2Proof.Machine
end

