-- ==== Sys2Proof/Laws/Counts.lean ====
section
/-! SUPPORT. Meter counts, commitments, loads, crossings and the allocation computation are chains of
moves. -/

namespace Sys2Proof.Machine

open Sys2Proof

/-! ### Changes of a port record that settle does not see -/

/-- The fields of a port record that Port.Ok reads besides its ranges. -/
structure Port.Like (p q : Port) : Prop where
  number : q.number = p.number
  state : q.state = p.state
  pendingTarget : q.pendingTarget = p.pendingTarget
  held : q.held = p.held
  command : q.command = p.command
  feedback : q.feedback = p.feedback
  session : q.session = p.session
  faultCode : q.faultCode = p.faultCode
  settling : q.settling.isRunning = p.settling.isRunning
  debounce : q.debounce.isRunning = p.debounce.isRunning
  answer : q.answer.isRunning = p.answer.isRunning
  confirmation : q.confirmation.isRunning = p.confirmation.isRunning
  openDelay : q.openDelay.isRunning = p.openDelay.isRunning
  weld : q.weld.isRunning = p.weld.isRunning
  quiet : q.quiet.isRunning = p.quiet.isRunning
  limit : q.limit.isRunning = p.limit.isRunning
  stall : q.stall.isRunning = true → p.stallConditions = true

theorem Port.Like.stallConditions {p q : Port} (e : p.Like q) : q.stallConditions = p.stallConditions := by
  have hb : q.boundSlot = p.boundSlot := by simp [Port.boundSlot, e.session]
  have hl : q.live = p.live := by simp [Port.live, e.state, e.held]
  simp [Port.stallConditions, e.state, hb, hl]

/-- A record alike another that the part can hold, with its own fields in their ranges. -/
theorem Port.Ok.like {n : PortNo} {p q : Port} (h : p.Ok n) (e : p.Like q) (r : q.InRange) :
    q.Ok n ∧ q.boundSlot = p.boundSlot := by
  refine ⟨⟨e.number.trans h.number, ⟨?_, ?_, ?_, ?_, ?_, ?_⟩, ⟨?_, ?_, ?_, ?_, ?_, ?_, ?_, ?_, ?_⟩, ⟨?_, ?_⟩, r⟩,
    by simp [Port.boundSlot, e.session]⟩
  · rw [e.session, e.state]; exact h.fits.session
  · rw [e.held, e.state]; exact h.fits.held
  · rw [e.held]; exact h.fits.dir
  · rw [e.pendingTarget, e.state]; exact h.fits.pending
  · rw [e.pendingTarget]; exact h.fits.target
  · rw [e.faultCode, e.state]; exact h.fits.fault
  · rw [e.settling, e.state]; exact h.timed.settling
  · rw [e.debounce, e.state]; exact h.timed.debounce
  · rw [e.answer, e.state]; exact h.timed.answer
  · rw [e.confirmation, e.state]; exact h.timed.confirmation
  · rw [e.openDelay, e.state, e.held]; exact h.timed.openDelay
  · rw [e.quiet, e.state]; exact h.timed.quiet
  · rw [e.limit, e.quiet]; exact h.timed.limit
  · rw [e.stallConditions]; exact e.stall
  · rw [e.weld, Port.weldConditions, e.command, e.feedback, e.state]; exact h.timed.weld
  · rw [e.state, e.command]; exact h.commanded.closed
  · rw [e.command, e.state, e.quiet]; exact h.commanded.opened

/-- Every record is alike itself. -/
theorem Port.Ok.like_refl {n : PortNo} {p : Port} (h : p.Ok n) : p.Like p :=
  ⟨rfl, rfl, rfl, rfl, rfl, rfl, rfl, rfl, rfl, rfl, rfl, rfl, rfl, rfl, rfl, rfl, h.timed.stall⟩

/-- A change of port n to an alike record. -/
theorem Moves.alike {s : State} (n : PortNo) (f : Port → Port)
    (h : (s.port n).Ok n → (s.port n).Like (f (s.port n)) ∧ (f (s.port n)).InRange)
    (hs : (s.port n).Steady (f (s.port n)) := by exact ⟨rfl, rfl, rfl⟩) : Moves s (s.setPort n f) := .setPort n f (fun ho => ho.like (h ho).1 (h ho).2) hs

/-! ### Meter lines and counts -/

theorem Port.Ok.setLine {n : PortNo} {p : Port} (h : p.Ok n) (l : MeterLine) (f : LineFilter → LineFilter)
    (hf : ∀ x, x.counter ≤ 255 → (f x).counter ≤ 255) :
    p.Like (p.setLine l f) ∧ (p.setLine l f).InRange := by
  have r := h.inRange
  have s := h.timed.stall
  cases l
  · exact ⟨⟨rfl, rfl, rfl, rfl, rfl, rfl, rfl, rfl, rfl, rfl, rfl, rfl, rfl, rfl, rfl, rfl, s⟩,
      ⟨r.1, r.2, ⟨hf _ r.3.1, r.3.2⟩, r.4, r.5, r.6, r.7, r.8⟩⟩
  · exact ⟨⟨rfl, rfl, rfl, rfl, rfl, rfl, rfl, rfl, rfl, rfl, rfl, rfl, rfl, rfl, rfl, rfl, s⟩,
      ⟨r.1, r.2, ⟨r.3.1, hf _ r.3.2⟩, r.4, r.5, r.6, r.7, r.8⟩⟩

theorem Port.setLine_steady (p : Port) (l : MeterLine) (f : LineFilter → LineFilter) :
    p.Steady (p.setLine l f) := by cases l <;> exact ⟨rfl, rfl, rfl⟩

theorem Port.countStray_steady (p : Port) : p.Steady p.countStray := by
  unfold Port.countStray; dsimp only; split <;> exact ⟨rfl, rfl, rfl⟩

theorem Port.restartQuiet_steady (p : Port) : p.Steady p.restartQuiet := by
  unfold Port.restartQuiet; split <;> exact ⟨rfl, rfl, rfl⟩

theorem Port.bookCount_steady (p : Port) (d : Dir) (now : Nat) : p.Steady (p.bookCount d now) := by
  cases d <;> exact ⟨rfl, rfl, rfl⟩

theorem Port.restartStall_steady (p : Port) (e : PortEnv) : p.Steady (p.restartStall e) := by
  unfold Port.restartStall; split <;> exact ⟨rfl, rfl, rfl⟩

theorem Port.takeTrickle_steady (p : Port) (w : Nat) : p.Steady (p.takeTrickle w) := by
  unfold Port.takeTrickle
  split
  · split
    · split <;> exact ⟨rfl, rfl, rfl⟩
    · exact ⟨rfl, rfl, rfl⟩
  · exact ⟨rfl, rfl, rfl⟩

theorem Port.Ok.countStray {n : PortNo} {p : Port} (h : p.Ok n) : (p.countStray).Ok n := by
  have r := h.inRange
  have hk : Port.Ok n { p with stray := addHalf p.stray 1 } :=
    (h.like (q := { p with stray := addHalf p.stray 1 })
      ⟨rfl, rfl, rfl, rfl, rfl, rfl, rfl, rfl, rfl, rfl, rfl, rfl, rfl, rfl, rfl, rfl, h.timed.stall⟩
      ⟨r.1, r.2, r.3, r.4, r.5, ⟨Nat.min_le_right _ _, r.6.2⟩, r.7, r.8⟩).1
  unfold Port.countStray; dsimp only; split
  · exact hk.raise _
  · exact hk

theorem Port.countStray_session (p : Port) : p.countStray.session = p.session := by
  unfold Port.countStray; dsimp only; split <;> rfl

theorem Port.Ok.restartQuiet {n : PortNo} {p : Port} (h : p.Ok n) : p.restartQuiet.Ok n := by
  have r := h.inRange
  unfold Port.restartQuiet; split
  · next hq =>
    exact (h.like (q := { p with quiet := .start 1000 })
      ⟨rfl, rfl, rfl, rfl, rfl, rfl, rfl, rfl, rfl, rfl, rfl, rfl, rfl, rfl, hq.symm, rfl, h.timed.stall⟩
      ⟨r.1, r.2, r.3, r.4, r.5, r.6, r.7, r.8⟩).1
  · exact h

theorem Port.restartQuiet_session (p : Port) : p.restartQuiet.session = p.session := by
  unfold Port.restartQuiet; split <;> rfl

theorem Port.Ok.bookCount {n : PortNo} {p : Port} (h : p.Ok n) (d : Dir) (now : Nat) :
    (p.bookCount d now).Ok n ∧ (p.bookCount d now).boundSlot = p.boundSlot := by
  have r := h.inRange
  cases d
  · exact h.like ⟨rfl, rfl, rfl, rfl, rfl, rfl, rfl, rfl, rfl, rfl, rfl, rfl, rfl, rfl, rfl, rfl, h.timed.stall⟩
      ⟨r.1, r.2, r.3, r.4, r.5, r.6, ⟨Nat.min_le_right _ _, r.7.2⟩, r.8⟩
  · exact h.like ⟨rfl, rfl, rfl, rfl, rfl, rfl, rfl, rfl, rfl, rfl, rfl, rfl, rfl, rfl, rfl, rfl, h.timed.stall⟩
      ⟨r.1, r.2, r.3, r.4, r.5, r.6, ⟨r.7.1, Nat.min_le_right _ _⟩, r.8⟩
  · exact h.like ⟨rfl, rfl, rfl, rfl, rfl, rfl, rfl, rfl, rfl, rfl, rfl, rfl, rfl, rfl, rfl, rfl, h.timed.stall⟩
      ⟨r.1, r.2, r.3, r.4, r.5, r.6, r.7, r.8⟩

theorem Port.Ok.restartStall {n : PortNo} {p : Port} (h : p.Ok n) (e : PortEnv) :
    (p.restartStall e).Ok n ∧ (p.restartStall e).boundSlot = p.boundSlot := by
  have r := h.inRange
  unfold Port.restartStall; split
  · next hc =>
    exact h.like ⟨rfl, rfl, rfl, rfl, rfl, rfl, rfl, rfl, rfl, rfl, rfl, rfl, rfl, rfl, rfl, rfl, fun _ => hc⟩
      ⟨r.1, r.2, r.3, r.4, r.5, r.6, r.7, r.8⟩
  · exact ⟨h, rfl⟩

theorem Port.Ok.moveRun {n : PortNo} {p : Port} (h : p.Ok n) (w : Bool) :
    (p.moveRun w).Ok n ∧ (p.moveRun w).boundSlot = p.boundSlot := by
  have r := h.inRange
  refine h.like ⟨rfl, rfl, rfl, rfl, rfl, rfl, rfl, rfl, rfl, rfl, rfl, rfl, rfl, rfl, rfl, rfl, h.timed.stall⟩
      ⟨r.1, r.2, r.3, r.4, ?_, r.6, r.7, r.8⟩
  show (if w = true then min (p.wrongRun + 1) 4 else 0) ≤ 4
  split <;> omega

theorem Bus.moveSoe_beside (d : Dir) (e : Nat) (b : Bus) :
    (b.moveSoe d e).number = b.number ∧ (b.moveSoe d e).location = b.location := by
  unfold Bus.moveSoe; split
  · exact ⟨rfl, rfl⟩
  · cases d <;> simp

theorem State.bookPlan_moves (s : State) (i : Nat) (d : Dir) (e : Nat) : Moves s (s.bookPlan i d e) := by
  unfold State.bookPlan; split
  · split
    · exact .modPlan _ _
    · exact .refl s
  · exact .refl s

theorem State.useAllowance_moves (s : State) (i e : Nat) : Moves s (s.useAllowance i e) := by
  unfold State.useAllowance; split
  · next b hb =>
    dsimp only
    split
    · exact (Moves.bus i b ({ b with exportUsed := addWord b.exportUsed e }.raise BusFlag.allowanceUsed)
        hb rfl rfl).trans (State.withdrawExport_moves _ i)
    · exact .bus i b _ hb rfl rfl
  · exact .refl s

theorem State.applyToBus_moves (s : State) (i : Nat) (d : Dir) (e : Nat) : Moves s (s.applyToBus i d e) := by
  unfold State.applyToBus
  have h1 : Moves s ((s.bookPlan i d e).modBus i (Bus.moveSoe d e)) :=
    (s.bookPlan_moves i d e).trans (Moves.modBus i (Bus.moveSoe d e) (Bus.moveSoe_beside d e))
  refine h1.trans ?_
  generalize (s.bookPlan i d e).modBus i (Bus.moveSoe d e) = s1
  dsimp only
  split
  · exact (s1.useAllowance_moves i e).trans ((State.testStep_moves _ _ i).trans (State.readinessCount_moves _ i))
  · exact (s1.testStep_moves _ i).trans (State.readinessCount_moves _ i)

theorem State.applyToSession_moves (s : State) (o : Option Nat) (d : Dir) (e : Nat) :
    Moves s (s.applyToSession o d e) := by
  unfold State.applyToSession; split
  · exact s.applyToBus_moves _ _ _
  · exact .refl s

theorem State.checkRun_moves (s : State) (n : PortNo) (w : Bool) : Moves s (s.checkRun n w) := by
  unfold State.checkRun; split
  · exact s.portFault_moves n _
  · exact .refl s

theorem Port.boundSlot_of_session {p q : Port} (h : q.session = p.session) : q.boundSlot = p.boundSlot := by
  simp [Port.boundSlot, h]

theorem State.appliedCount_moves (s : State) (n : PortNo) (d : Dir) : Moves s (s.appliedCount n d) := by
  unfold State.appliedCount
  have h1 : Moves s (s.setPort n fun q => (q.bookCount d s.now).restartQuiet) :=
    .setPort n _ (fun ho => ⟨(ho.bookCount d s.now).1.restartQuiet,
      (Port.boundSlot_of_session (Port.restartQuiet_session _)).trans (ho.bookCount d s.now).2⟩)
      ((Port.bookCount_steady _ d s.now).trans (Port.restartQuiet_steady _))
  refine h1.trans ?_
  generalize s.setPort n (fun q => (q.bookCount d s.now).restartQuiet) = s1
  dsimp only
  refine (s1.applyToSession_moves (s.port n).boundSlot d (s.port n).energyPerCount).trans ?_
  generalize s1.applyToSession (s.port n).boundSlot d (s.port n).energyPerCount = s2
  refine Moves.trans ?_ (State.checkRun_moves _ n _)
  exact .setPort n _ (fun ho =>
    have a := ho.restartStall s2.env
    have b := a.1.moveRun ((s.port n).isWrong d)
    ⟨b.1, b.2.trans a.2⟩) ((Port.restartStall_steady _ s2.env).trans ⟨rfl, rfl, rfl⟩)

theorem State.count_moves (s : State) (n : PortNo) (d : Dir) : Moves s (s.count n d) := by
  unfold State.count
  dsimp only
  split
  · refine .alike n _ fun ho => ?_
    have r := ho.inRange
    exact ⟨⟨rfl, rfl, rfl, rfl, rfl, rfl, rfl, rfl, rfl, rfl, rfl, rfl, rfl, rfl, rfl, rfl, ho.timed.stall⟩,
      ⟨r.1, r.2, r.3, r.4, r.5, ⟨r.6.1, Nat.min_le_right _ _, r.6.2.2⟩, r.7, r.8⟩⟩
  · split
    · exact .setPort n _ (fun ho => ⟨ho.countStray.restartQuiet, (Port.boundSlot_of_session
        (Port.restartQuiet_session _)).trans (Port.boundSlot_of_session (Port.countStray_session _))⟩)
        ((Port.countStray_steady _).trans (Port.restartQuiet_steady _))
    · exact s.appliedCount_moves n d

theorem State.lineMoved_moves (s : State) (n : PortNo) (l : MeterLine) (v : Level) :
    Moves s (s.lineMoved n l v) := by
  unfold State.lineMoved
  exact (Moves.alike n _ (fun ho => ho.setLine l _ fun x _ => Nat.zero_le _)
    (Port.setLine_steady _ l _)).trans (State.count_moves _ n _)

/-! ### Reserve Unit -/

theorem State.endCommit_moves (s : State) (i : Nat) (o : CommitState) : o ≠ .active → Moves s (s.endCommit i o) :=
  fun ho => (Moves.modCommit i _ fun c => by
    dsimp only
    split <;> exact fun e => absurd e ho).trans (.withdraw _)

theorem State.endNormally_moves (s : State) (i : Nat) (c : Commitment) : Moves s (s.endNormally i c) :=
  s.endCommit_moves i _ (by unfold Commitment.normalOutcome; split <;> (try split) <;> decide)

theorem State.interruptActive_moves (s : State) : Moves s s.interruptActive := by
  unfold State.interruptActive; split
  · exact s.endCommit_moves _ _ (by decide)
  · exact .refl s

theorem State.activeCommit_none {s : State} (h : s.activeCommit = none) (j : Nat) (d : Commitment)
    (hd : s.commit j = some d) : d.state ≠ .active := by
  intro e
  have hm := Table.mem_of_get hd
  unfold State.activeCommit at h
  rw [List.find?_eq_none] at h
  exact h _ hm (by simp [e])

theorem State.activate_moves (s : State) (i : Nat) (src : DispatchSource) (h : s.activeCommit = none) :
    Moves s (s.activate i src) := by
  unfold State.activate State.modCommit
  split
  · next c hc => exact .commit i _ (Or.inl (by simp [hc])) fun _ => Or.inr (State.activeCommit_none h)
  · exact .refl s

theorem State.reserveReads_moves (s : State) : Moves s s.reserveReads :=
  .commits (fun _ c => match c.state with
    | .armed => c.takeHeadroom (s.headroomOf c) s.engine.number
    | .active => c.account s.recordedNet s.site.live.allocPeriod
    | _ => c) fun k c => by
      split
      · next e => unfold Commitment.takeHeadroom; dsimp only; split <;> exact fun h => h
      · next e => exact fun _ => e
      · exact id

theorem State.registerOffer_moves (s : State) (i a b c : Nat) : Moves s (s.registerOffer i a b c) :=
  (Moves.register _ _ _).trans ((Moves.register _ _ _).trans (Moves.register _ _ _))

theorem State.reloadArmPoint_moves (s : State) (lead i : Nat) (c : Commitment) :
    Moves s (s.reloadArmPoint lead i c) := by
  unfold State.reloadArmPoint
  have h1 : Moves s ((s.withdraw (ofKind .armPoint i)).modCommit i fun x =>
      { x with armPoint := armPointOf c.windowStart lead }) := (Moves.withdraw _).trans (.modCommit i _ fun _ h => h)
  refine h1.trans ?_
  dsimp only
  split
  · exact (Moves.register _ _ _).trans ((Moves.withdraw _).trans (Moves.register _ _ _))
  · exact .modCommit i _ fun c e => by cases e

/-! ### The load -/

theorem Moves.clock {s : State} {w : Bool} (c : Clock) (h : s.Ahead → ∀ r ∈ c.regs, c.time < r.time)
    (hn : w = true → c.time = s.clock.time ∧ c.mode = s.clock.mode ∧ c.phase = s.clock.phase) : Moves s { s with clock := c } w :=
  .other rfl rfl rfl rfl rfl rfl rfl rfl rfl h fun e => ⟨(hn e).1, (hn e).2.1, (hn e).2.2⟩

theorem Moves.site {s : State} (x : Site) : Moves s { s with site := x } :=
  .other rfl rfl rfl rfl rfl rfl rfl rfl rfl id fun _ => ⟨rfl, rfl, rfl⟩

theorem State.resetExportUsed_moves (s : State) : Moves s s.resetExportUsed :=
  .buses (fun _ b => { b with exportUsed := 0 }) fun _ _ => ⟨rfl, rfl⟩

theorem State.raiseDay_moves (s : State) (d : Int) : Moves s (s.raiseDay d) :=
  (Moves.clock { s.clock with day := d } id fun _ => ⟨rfl, rfl, rfl⟩).trans (State.resetExportUsed_moves _)

theorem State.registerBoundary_moves (s : State) : Moves s s.registerBoundary := by
  unfold State.registerBoundary; split
  · exact .register _ _ _
  · exact .refl s

theorem State.reloadOffset_moves (s : State) (old : SiteParams) : Moves s (s.reloadOffset old) := by
  unfold State.reloadOffset
  dsimp only
  split
  · exact .refl s
  · refine (Moves.withdraw (s := s) (ofKind .rollover 0)).trans ?_
    split
    · exact (State.raiseDay_moves _ _).trans (State.registerBoundary_moves _)
    · exact State.registerBoundary_moves _

theorem Port.takeTrickle_ok {n : PortNo} {p : Port} (h : p.Ok n) (w : Nat) :
    (p.takeTrickle w).Ok n ∧ (p.takeTrickle w).boundSlot = p.boundSlot := by
  unfold Port.takeTrickle
  split
  · next x hx =>
    split
    · next r hr =>
      split
      · have hb : ({ p with session := some { x with importCap := w } } : Port).boundSlot = p.boundSlot := by
          simp [Port.boundSlot, hx, hr]
        refine ⟨⟨h.1, ⟨?_, h.2.2, h.2.3, h.2.4, h.2.5, h.2.6⟩,
          ⟨h.3.1, h.3.2, h.3.3, h.3.4, h.3.5, h.3.6, h.3.7, fun e => ?_, h.3.9⟩, ⟨h.4.1, h.4.2⟩,
          ⟨h.5.1, h.5.2, h.5.3, h.5.4, h.5.5, h.5.6, h.5.7, h.5.8⟩⟩, hb⟩
        · have := h.fits.session; rw [hx] at this; exact this
        · have h1 := h.timed.stall e
          unfold Port.stallConditions at h1 ⊢
          rw [hb]; exact h1
      · exact ⟨h, rfl⟩
    · exact ⟨h, rfl⟩
  · exact ⟨h, rfl⟩

theorem State.reloadTrickle_moves (s : State) (old : SiteParams) : Moves s (s.reloadTrickle old) := by
  unfold State.reloadTrickle; split
  · exact .refl s
  · have e (n : PortNo) : (s.ports.map (Port.takeTrickle s.site.live.tricklePower))[n]
        = (s.port n).takeTrickle s.site.live.tricklePower := by simp [State.port]
    refine .ports _ (fun n ho => ?_) fun n _ _ _ => ?_
    · rw [e]; exact Port.takeTrickle_ok ho _
    · rw [e]; exact (Port.takeTrickle_steady _ _).falls _

theorem State.reloadLockoutPoint_moves (s : State) (i : Nat) (b : Bus) :
    Moves s (s.reloadLockoutPoint i b) := by
  unfold State.reloadLockoutPoint; split
  · split
    · exact (Moves.withdraw _).trans (State.registerLockout_moves _ i _)
    · exact .refl s
  · exact .refl s

theorem State.reloadLockout_moves (s : State) (old : SiteParams) : Moves s (s.reloadLockout old) := by
  unfold State.reloadLockout; split
  · exact .refl s
  · exact Moves.foldl (fun t (r : Nat × Bus) => t.reloadLockoutPoint r.1 r.2)
      (fun t r => t.reloadLockoutPoint_moves r.1 r.2) _ s

theorem State.reloadArmLead_moves (s : State) (old : SiteParams) : Moves s (s.reloadArmLead old) := by
  unfold State.reloadArmLead; split
  · exact .refl s
  · refine Moves.foldl (fun t (r : Nat × Commitment) => if r.2.state = .pending then
      t.reloadArmPoint s.site.live.armLead r.1 r.2 else t) (fun t r => ?_) _ s
    split
    · exact t.reloadArmPoint_moves _ r.1 r.2
    · exact .refl t

theorem State.load_moves (s : State) : Moves s s.load :=
  (Moves.site (s := s) _).trans ((State.reloadOffset_moves s.copyStaged _).trans
    ((State.reloadTrickle_moves _ _).trans ((State.reloadLockout_moves _ _).trans
      (State.reloadArmLead_moves _ _))))

theorem State.loadIfStopped_moves (s : State) : Moves s s.loadIfStopped := by
  unfold State.loadIfStopped; split
  · exact .refl s
  · exact s.load_moves

theorem State.takeBase_moves (s : State) : Moves s s.takeBase := by
  unfold State.takeBase
  have h : Moves s { s with site :=
      { s.site with lastBase := some s.effectiveBase, staleOpen := s.effectiveBase.fallback } } := .site _
  dsimp only
  split
  · exact h.trans (.raiseSite _)
  · exact h

theorem Moves.engine {s : State} (e : Engine) : Moves s { s with engine := e } :=
  .other rfl rfl rfl rfl rfl rfl rfl rfl rfl id fun _ => ⟨rfl, rfl, rfl⟩

theorem Moves.protection {s : State} (p : Protection) : Moves s { s with protection := p } :=
  .other rfl rfl rfl rfl rfl rfl rfl rfl rfl id fun _ => ⟨rfl, rfl, rfl⟩

/-! ### Crossings and changes of depot time -/

theorem State.actNotBefore_moves (s : State) (i : Nat) : Moves s (s.actNotBefore i) := by
  unfold State.actNotBefore
  split
  · exact .refl s
  · next p hp =>
    have hs : (s.plan i).isSome ∨ i < 512 := Or.inl (by simp [hp])
    split
    · split
      · split
        · exact (Moves.plan i { p with cond := some .soeWait } hs).trans
            (Moves.modBus _ (Bus.raise BusFlag.soeUnknown) fun _ => ⟨rfl, rfl⟩)
        · exact .plan i _ hs
      · exact .refl s
    · exact .refl s

theorem State.actHoldUntil_moves (s : State) (i : Nat) : Moves s (s.actHoldUntil i) := by
  unfold State.actHoldUntil; split
  · split
    · exact s.stepEnd_moves _ i
    · exact .refl s
  · exact .refl s

theorem State.actEndBy_moves (s : State) (i : Nat) : Moves s (s.actEndBy i) := by
  unfold State.actEndBy; split
  · split
    · exact s.deadline_moves _ i
    · exact .refl s
  · exact .refl s

theorem State.actDeparture_moves (s : State) (i : Nat) : Moves s (s.actDeparture i) := by
  unfold State.actDeparture
  split
  · next b hb =>
    split
    · next d hd =>
      split
      · refine (Moves.bus i b _ hb ?_ ?_).trans (State.withdrawDeparture_moves _ i)
        · rw [Bus.setReadiness_number]
        · rw [Bus.setReadiness_location]
      · exact .refl s
    · exact .refl s
  · exact .refl s

theorem State.actWindowEnd_moves (s : State) (i : Nat) : Moves s (s.actWindowEnd i) := by
  unfold State.actWindowEnd; split
  · split
    · exact s.endCommit_moves i _ (by decide)
    · exact s.endNormally_moves i _
    · exact .refl s
  · exact .refl s

theorem State.handOver_moves (s : State) (r : Registration) : Moves s (s.handOver r) := by
  unfold State.handOver
  split
  · exact (s.raiseDay_moves _).trans (State.registerBoundary_moves _)
  · exact s.actNotBefore_moves _
  · exact s.actEndBy_moves _
  · exact s.actHoldUntil_moves _
  · exact s.actDeparture_moves _
  · exact s.withdrawExport_moves _
  · refine .modCommit _ _ fun c => ?_
    split
    · exact fun e => by cases e
    · exact id
  · refine .modCommit _ _ fun c => ?_
    split <;> exact id
  · exact s.actWindowEnd_moves _

theorem State.unfire_moves (s : State) (r : Registration) : Moves s (s.unfire r) := .clock _ id fun _ => ⟨rfl, rfl, rfl⟩

theorem State.handOverAll_moves (n : Nat) (s : State) : Moves s (s.handOverAll n) := by
  induction n generalizing s with
  | zero => exact .refl s
  | succ n ih =>
    unfold State.handOverAll
    split
    · exact .refl s
    · exact (s.unfire_moves _).trans ((State.handOver_moves _ _).trans (ih _))

theorem State.settleCrossings_moves (s : State) : Moves s s.settleCrossings := s.handOverAll_moves _

/-- A change of depot time to a value that no registration has reached. -/
theorem State.setDepotTime_moves (s : State) (t : Nat) (h : t ≤ s.now) : Moves s (s.setDepotTime t) false :=
  .clock _ (fun ha r hr => Nat.lt_of_le_of_lt h (ha r hr)) (fun e => by cases e)

/-- A change of depot time, with the firing of what it reaches. -/
theorem State.reach_moves (s u : State) (f : Registration → Bool) (hu : u = { s with clock := u.clock })
    (hr : u.clock.regs = s.clock.regs)
    (hf : ∀ r : Registration, s.now < r.time → f r = false → u.now < r.time) :
    Moves s (u.fire f) false := by
  rw [hu]
  refine Moves.clock _ (fun ha r hm => ?_) (fun e => by cases e)
  have hm := List.mem_filter.mp hm
  exact hf r (ha r (hr ▸ hm.1)) (by simpa using hm.2)

theorem State.advanceSecond_moves (s : State) : Moves s s.advanceSecond false := by
  unfold State.advanceSecond
  refine (s.settleCrossings_moves.any rfl).trans ?_
  dsimp only
  split
  · refine State.reach_moves _ (s.settleCrossings.setDepotTime (s.settleCrossings.now + 1)) _ rfl rfl
      fun r h1 h2 => ?_
    have h2 : r.time ≠ s.settleCrossings.now + 1 := by simpa using h2
    show s.settleCrossings.now + 1 < r.time
    omega
  · exact State.setDepotTime_moves _ _ (Nat.le_refl _)

theorem State.firstTime_moves (s : State) (v : Nat) : Moves s (s.firstTime v) false := by
  unfold State.firstTime
  refine (State.reach_moves s { s.setDepotTime v with clock :=
      { (s.setDepotTime v).clock with mode := .set, day := dayFormula v s.site.live.rolloverOffset } }
    (fun r => decide (r.time ≤ v)) rfl rfl fun r _ h2 => ?_).trans
    (((State.settleCrossings_moves _).any rfl).trans ((State.registerBoundary_moves _).any rfl))
  show v < r.time
  simpa using h2

theorem State.jumpTo_moves (s : State) (v : Nat) : Moves s (s.jumpTo v) false := by
  unfold State.jumpTo
  refine (s.settleCrossings_moves.any rfl).trans ((State.reach_moves _ (s.settleCrossings.setDepotTime v)
    (fun r => decide (r.time ≤ v)) rfl rfl fun r _ h2 => ?_).trans
    (((State.settleCrossings_moves _).any rfl).trans ((Moves.raiseSite SiteFlag.timeJump).any rfl)))
  show v < r.time
  simpa using h2

theorem State.stepBack_moves (s : State) (v : Nat) (h : v ≤ s.now) : Moves s (s.stepBack v) false :=
  (s.settleCrossings_moves.any rfl).trans (State.setDepotTime_moves _ v (by
    rw [s.settleCrossings_moves.now rfl]; exact h))

/-! The second restarts at every change of depot time (R1, R2). -/

theorem State.firstTime_restarts (s : State) (v : Nat) :
    (s.firstTime v).clock.mode = .set ∧ (s.firstTime v).clock.phase = 0 :=
  have h := ((State.settleCrossings_moves _).trans (State.registerBoundary_moves _)).sameSecond rfl
  ⟨h.mode, h.phase⟩

theorem State.stepBack_restarts (s : State) (v : Nat) :
    (s.stepBack v).clock.mode = s.clock.mode ∧ (s.stepBack v).clock.phase = 0 :=
  ⟨(s.settleCrossings_moves.sameSecond rfl).mode, rfl⟩

theorem State.jumpTo_restarts (s : State) (v : Nat) :
    (s.jumpTo v).clock.mode = s.clock.mode ∧ (s.jumpTo v).clock.phase = 0 :=
  have h := ((State.settleCrossings_moves _).trans (Moves.raiseSite SiteFlag.timeJump)).sameSecond rfl
  ⟨h.mode.trans (s.settleCrossings_moves.sameSecond rfl).mode, h.phase⟩

/-! ### The allocation computation -/

theorem State.workReadiness_moves (s : State) : Moves s s.workReadiness :=
  .buses (fun _ b => b.setReadiness (s.readinessNow b).1 (s.readinessNow b).2) fun _ _ => by simp

theorem State.prepared_moves (s : State) : Moves s s.prepared :=
  s.load_moves.trans ((State.takeBase_moves _).trans (State.workReadiness_moves _))

theorem clampInt_range {lo hi : Int} (h : lo ≤ hi) (v : Int) : lo ≤ clampInt lo hi v ∧ clampInt lo hi v ≤ hi := by
  unfold clampInt; omega

theorem Share.residue_range (x : Share) : -100 ≤ x.residue ∧ x.residue ≤ 99 := by
  unfold Share.residue; split
  · omega
  · exact clampInt_range (by omega) _

theorem State.newResidue_range (s : State) (w : Working) (n : PortNo)
    (h : -100 ≤ (s.port n).residue ∧ (s.port n).residue ≤ 99) :
    -100 ≤ s.newResidue w n ∧ s.newResidue w n ≤ 99 := by
  unfold State.newResidue; split
  · exact Share.residue_range _
  · exact Share.residue_range _
  · unfold State.carried; split
    · exact h
    · omega

theorem formSetpoint_dir (latch removed : Bool) (i e : Nat) :
    (formSetpoint latch removed i e).mag = 0 ↔ (formSetpoint latch removed i e).dir = .none := by
  unfold formSetpoint; split
  · simp [Setpoint.zero]
  · split
    · exact Setpoint.make_dir (by decide)
    · exact Setpoint.make_dir (by decide)

/-- A publication of a setpoint of the right form. -/
theorem Port.Ok.publish {n : PortNo} {p : Port} (h : p.Ok n) (latch : Bool) (sp : Setpoint)
    (hd : sp.mag = 0 ↔ sp.dir = .none) : (p.publish latch sp).CoreOk n
      ∧ (p.publish latch sp).openDelay = p.openDelay ∧ (p.publish latch sp).session = p.session := by
  have hc := h.core
  have r := h.inRange
  unfold Port.publish
  split
  · next hst =>
    split
    · have hs : p.session.isSome = true := by rw [h.fits.session, hst]; rfl
      dsimp only
      split
      · exact ⟨Port.enter_core _ h.number ⟨r.1, r.2, r.3, r.4, r.5, r.6, r.7, r.8⟩ hs (fun _ => rfl) hd
          (fun e => by cases e) (fun e => by cases e) (fun _ => rfl) (fun _ => Or.inl rfl), rfl, rfl⟩
      · exact ⟨Port.enter_core _ h.number ⟨r.1, r.2, r.3, r.4, r.5, r.6, r.7, r.8⟩ hs (fun _ => rfl) hd
          (fun e => by cases e) (fun e => by cases e) (fun _ => rfl) (fun _ => Or.inl rfl), rfl, rfl⟩
    · exact ⟨hc, rfl, rfl⟩
  · next hst => exact ⟨hc.withHeld _ (fun _ => Or.inr (by rw [hst]; rfl)) hd, rfl, rfl⟩
  · next hst => exact ⟨hc.withHeld _ (fun _ => Or.inr (by rw [hst]; rfl)) hd, rfl, rfl⟩
  · exact ⟨hc, rfl, rfl⟩

/-- A record with another residue in range. -/
theorem Port.CoreOk.withResidue {n : PortNo} {p : Port} (h : p.CoreOk n) (x : Int)
    (hx : -100 ≤ x ∧ x ≤ 99) : Port.CoreOk n { p with residue := x } :=
  ⟨h.1, ⟨h.2.1, h.2.2, h.2.3, h.2.4, h.2.5, h.2.6⟩,
    ⟨h.3.1, h.3.2, h.3.3, h.3.4, h.3.5, h.3.6⟩, ⟨h.4.1, h.4.2⟩,
    ⟨h.5.1, h.5.2, h.5.3, h.5.4, h.5.5, h.5.6, h.5.7, hx⟩⟩

theorem State.portResult_published_dir (s : State) (w : Working) (n : PortNo) :
    (s.portResult w n).published.mag = 0 ↔ (s.portResult w n).published.dir = .none := by
  unfold State.portResult; exact formSetpoint_dir _ _ _ _

theorem State.publishAll_moves (s : State) (w : Working) : Moves s (s.publishAll w) true false := by
  refine .updPorts _ (fun n ho => ?_) fun e => by cases e
  have h := ho.publish s.protection.latch _ (s.portResult_published_dir w n)
  exact ⟨h.1.withResidue _ (s.newResidue_range w n ho.inRange.residue), h.2.1,
    Port.boundSlot_of_session h.2.2⟩

theorem State.compute_moves (s : State) : Moves s s.compute true false := by
  unfold State.compute
  refine s.prepared_moves.wide.trans ((State.publishAll_moves _ s.prepared.work).trans ?_)
  exact ((Moves.engine _).trans (State.reserveReads_moves
    ((s.prepared.publishAll s.prepared.work).recordAll s.prepared s.prepared.work))).wide

/-! ### Supervision, the engine and the latch -/

theorem State.superviseAs_moves (s : State) (st : SupState) (t : Timer) : Moves s (s.superviseAs st t) := by
  unfold State.superviseAs
  have h : Moves s { s with supervision := ⟨st, t⟩ } := .other rfl rfl rfl rfl rfl rfl rfl rfl rfl id fun _ => ⟨rfl, rfl, rfl⟩
  dsimp only
  split
  · exact h
  · exact h.trans (.raiseSite _)

theorem State.startEngine_moves (s : State) : Moves s s.startEngine true false :=
  (Moves.engine _).wide.trans ((State.superviseAs_moves _ _ _).wide.trans (State.compute_moves _))

theorem State.stopEngine_moves (s : State) : Moves s s.stopEngine := by
  unfold State.stopEngine
  refine (Moves.engine s.engine.stop).trans (Moves.trans
    (Moves.updPorts (fun _ p => { p.zeroHeld with residue := 0 })
      (fun n ho => ⟨ho.core.zeroHeld.withResidue 0 (by omega), rfl, rfl⟩)
      fun _ n ho => .to_zero ho.core rfl rfl rfl) ?_)
  exact (State.interruptActive_moves _).trans ((State.superviseAs_moves _ _ _).trans (State.load_moves _))

theorem State.keepAlive_moves (s : State) : Moves s s.keepAlive := by
  unfold State.keepAlive; split
  · exact s.superviseAs_moves _ _
  · exact .refl s

theorem Port.zeroExport_beside (p : Port) : p.zeroExport.openDelay = p.openDelay
    ∧ p.zeroExport.boundSlot = p.boundSlot := by unfold Port.zeroExport; split <;> exact ⟨rfl, rfl⟩

theorem Port.importToTierA_beside (p : Port) (g : Nat) : (p.importToTierA g).openDelay = p.openDelay
    ∧ (p.importToTierA g).boundSlot = p.boundSlot := by unfold Port.importToTierA; split <;> exact ⟨rfl, rfl⟩

theorem State.supervisionExpiry_moves (s : State) : Moves s s.supervisionExpiry := by
  unfold State.supervisionExpiry
  split
  · exact (s.superviseAs_moves _ _).trans (.updPorts _ (fun n ho =>
      ⟨ho.core.zeroExport, (Port.zeroExport_beside _).1, (Port.zeroExport_beside _).2⟩)
      fun _ _ ho => ho.core.lowers_zeroExport)
  · exact (s.superviseAs_moves _ _).trans (.updPorts _ (fun n ho =>
      ⟨ho.core.importToTierA _, (Port.importToTierA_beside _ _).1, (Port.importToTierA_beside _ _).2⟩)
      fun _ _ ho => ho.core.lowers_importToTierA _)
  · exact s.superviseAs_moves _ _

theorem Port.Ok.trip {n : PortNo} {p : Port} (h : p.Ok n) :
    p.trip.CoreOk n ∧ p.trip.openDelay = p.openDelay ∧ p.trip.session = p.session := by
  have r := h.inRange
  have hin (hs : p.state.inSession = true) :
      ({ p.zeroHeld with command := .opened }.enter .held).CoreOk n := by
    refine Port.enter_core _ h.number ⟨r.1, r.2, r.3, r.4, r.5, r.6, r.7, r.8⟩ ?_ (fun e => absurd rfl e)
      (by show Setpoint.zero.mag = 0 ↔ Setpoint.zero.dir = .none; simp [Setpoint.zero])
      (fun e => by cases e) (fun e => by cases e) (fun e => by cases e) (fun e => by cases e)
    show p.session.isSome = true
    rw [h.fits.session, hs]
  unfold Port.trip
  split
  · next hs => exact ⟨hin (by rw [hs]; rfl), rfl, rfl⟩
  · next hs => exact ⟨hin (by rw [hs]; rfl), rfl, rfl⟩
  · next hs => exact ⟨hin (by rw [hs]; rfl), rfl, rfl⟩
  · exact ⟨h.core.zeroHeld, rfl, rfl⟩
  · next h1 h2 h3 h4 =>
    have hp : p.state.powered = false := by cases hs : p.state <;> simp_all [PortState.powered]
    have hz := h.core.zeroHeld
    refine ⟨⟨hz.1, ⟨hz.2.1, hz.2.2, hz.2.3, hz.2.4, hz.2.5, hz.2.6⟩,
      ⟨hz.3.1, hz.3.2, hz.3.3, hz.3.4, hz.3.5, hz.3.6⟩, ⟨fun e => ?_, fun e => by cases e⟩,
      ⟨hz.5.1, hz.5.2, hz.5.3, hz.5.4, hz.5.5, hz.5.6, hz.5.7, hz.5.8⟩⟩, rfl, rfl⟩
    exact absurd e (by show ¬ p.state.powered = true; simp [hp])

theorem Port.trip_memory (p : Port) :
    p.trip.held = .zero ∧ p.trip.lastDir = p.lastDir ∧ p.trip.zeroSince = p.zeroSince := by
  unfold Port.trip; split <;> exact ⟨rfl, rfl, rfl⟩

theorem State.tripClosing_moves (s : State) (n : PortNo) : Moves s (s.tripClosing n) := by
  unfold State.tripClosing; split
  · next h => exact s.commandOpen_moves n fun _ => by rw [h.1]; rfl
  · exact .refl s

theorem State.trip_moves (s : State) : Moves s s.trip := by
  unfold State.trip
  refine (Moves.protection ⟨true, true⟩).trans ((Moves.raiseSite SiteFlag.trip).trans (Moves.trans
    (Moves.updPorts (fun _ p => p.trip)
      (fun n ho => ⟨ho.trip.1, ho.trip.2.1, Port.boundSlot_of_session ho.trip.2.2⟩)
      fun _ n ho => .to_zero ho.core (Port.trip_memory _).1 (Port.trip_memory _).2.1 (Port.trip_memory _).2.2) ?_))
  exact (Moves.foldl _ (fun t n => t.tripClosing_moves n) _ _).trans (State.interruptActive_moves _)

theorem Port.Ok.unhold {n : PortNo} {p : Port} (h : p.Ok n) :
    p.unhold.CoreOk n ∧ p.unhold.openDelay = p.openDelay ∧ p.unhold.session = p.session := by
  have r := h.inRange
  unfold Port.unhold; split
  · next hs =>
    refine ⟨Port.enter_core _ h.number ⟨r.1, r.2, r.3, r.4, r.5, r.6, r.7, r.8⟩ ?_ (fun e => ?_) h.fits.dir
      (fun e => by cases e) (fun e => by cases e) (fun e => by cases e) (fun e => ?_), rfl, rfl⟩
    · rw [h.fits.session, hs]; rfl
    · have := h.fits.held e; rw [hs] at this; cases this
    · rcases h.commanded.opened e with h1 | h1
      · rw [hs] at h1; cases h1
      · have := h.timed.quiet h1; rw [hs] at this; cases this
  · exact ⟨h.core, rfl, rfl⟩

theorem State.clearLatch_moves (s : State) : Moves s s.clearLatch :=
  (Moves.protection ⟨s.protection.line, false⟩).trans (.updPorts _
    (fun _ ho => ⟨ho.unhold.1, ho.unhold.2.1, Port.boundSlot_of_session ho.unhold.2.2⟩)
    fun _ _ _ => by unfold Port.unhold; split <;> exact ⟨.inl rfl, rfl, rfl⟩)

end Sys2Proof.Machine
end

