-- ==== Sys2Proof/Laws/Commands.lean ====
section
/-! SUPPORT. Every command but POWER_ON is a chain of moves beside the Ring Interface and the mask, and
what follows: the port records, the tables and the locations stay sound. -/

namespace Sys2Proof.Machine

open Sys2Proof

/-! ### What the requests' blocks do -/

theorem applySetTime_moves (s : State) (v : Word) : Moves s (applySetTime v s).state false := by
  unfold applySetTime
  dsimp only
  split
  · exact s.firstTime_moves _
  · split
    · exact .refl s
    · split
      · next h1 => exact s.stepBack_moves _ (Nat.le_of_lt h1)
      · split
        · exact s.setDepotTime_moves _ (Nat.le_refl _)
        · exact s.jumpTo_moves _

/-- R2: a SET_TIME that is taken leaves the clock SET at the start of a second. -/
theorem applySetTime_restarts (s : State) (v : Word) (h : (applySetTime v s).status = .ok) :
    (applySetTime v s).state.clock.mode = .set ∧ (applySetTime v s).state.clock.phase = 0 := by
  unfold applySetTime at h ⊢
  dsimp only at h ⊢
  split
  · exact s.firstTime_restarts _
  · next hm =>
    simp only [hm] at h
    split at h
    · cases h
    · rw [if_neg ‹_›]
      split
      · exact hm ▸ s.stepBack_restarts _
      · split
        · exact ⟨hm, rfl⟩
        · exact hm ▸ s.jumpTo_restarts _

/-- R2: the end of a second changes nothing before its 1,000 ms have passed. -/
theorem execDepotTimeAdvance_early (s : State) (h : s.clock.phase < 1000) : execDepotTimeAdvance s = .next s := by
  unfold execDepotTimeAdvance Clock.secondOver
  split
  · rfl
  · rw [if_neg (by simpa using h)]

theorem applySiteConfigure_moves (s : State) (f : SitePatch) : Moves s (applySiteConfigure f s).state := by
  unfold applySiteConfigure; split
  · exact .refl s
  · split
    · exact .refl s
    · exact (Moves.site (s := s) _).trans (State.loadIfStopped_moves (s.stageSite f))

theorem applySiteLookup_moves (s : State) (b : Byte) (w : Word) : Moves s (applySiteLookup b w s).state := by
  unfold applySiteLookup; split <;> (try split) <;> exact .refl s

theorem applyBusEnrol_moves (s : State) (h : ReqHeader) (p : BusEnrolPayload) :
    Moves s (applyBusEnrol h p s).state := by
  unfold applyBusEnrol
  dsimp only
  split
  · exact .refl s
  · next hr =>
    split
    · next i hi =>
      refine .enrol i _ hi rfl ?_
      show s.findBus h.key.toNat = none
      unfold enrolRefusal at hr
      split at hr
      · cases hr
      · split at hr
        · cases hr
        · split at hr
          · cases hr
          · next hd => simpa using hd
    · exact .refl s

theorem BusPatch.write_beside (f : BusPatch) (b : Bus) :
    (f.write b).number = b.number ∧ (f.write b).location = b.location := ⟨rfl, rfl⟩

theorem Bus.withinCapacity_beside (b : Bus) :
    b.withinCapacity.number = b.number ∧ b.withinCapacity.location = b.location := by
  unfold Bus.withinCapacity
  exact ⟨Bus.raiseIf_number _ _ _, Bus.raiseIf_location _ _ _⟩

theorem State.newCapacity_moves (s : State) (i : Nat) : Moves s (s.newCapacity i) := by
  unfold State.newCapacity; split
  · next b hb =>
    refine (Moves.bus i b b.withinCapacity hb b.withinCapacity_beside.1 b.withinCapacity_beside.2).trans
      (Moves.trans ?_ (State.testStep_moves _ _ i))
    exact Moves.foldl (fun t i => t.modPlan i fun p =>
      { p with steps := p.steps.map (PlanStep.withinCapacity b.capacity) }) (fun t i => .modPlan _ _) _ _
  · exact .refl s

/-- A change of a session that keeps its binding. -/
theorem Port.CoreOk.mapSession {n : PortNo} {p : Port} (h : p.CoreOk n) (g : Session → Session)
    (hg : ∀ x, (g x).binding = x.binding) :
    Port.CoreOk n { p with session := p.session.map g }
      ∧ ({ p with session := p.session.map g } : Port).boundSlot = p.boundSlot := by
  refine ⟨⟨h.1, ⟨?_, h.2.2, h.2.3, h.2.4, h.2.5, h.2.6⟩,
    ⟨h.3.1, h.3.2, h.3.3, h.3.4, h.3.5, h.3.6⟩, ⟨h.4.1, h.4.2⟩,
    ⟨h.5.1, h.5.2, h.5.3, h.5.4, h.5.5, h.5.6, h.5.7, h.5.8⟩⟩, ?_⟩
  · simpa using h.fits.session
  · unfold Port.boundSlot
    cases hs : p.session with
    | none => rfl
    | some x => simp [hg]

theorem Port.capTo_beside (d : Dir) (c : Nat) (p : Port) : (p.capTo d c).openDelay = p.openDelay
    ∧ (p.capTo d c).boundSlot = p.boundSlot := by unfold Port.capTo; split <;> exact ⟨rfl, rfl⟩

theorem Session.reform_binding (b : Bus) (x : Session) : (x.reform b).binding = x.binding := by
  unfold Session.reform; split <;> rfl

theorem Port.CoreOk.reformCaps {n : PortNo} {p : Port} (h : p.CoreOk n) (b : Bus) :
    (p.reformCaps b).CoreOk n ∧ (p.reformCaps b).openDelay = p.openDelay
      ∧ (p.reformCaps b).boundSlot = p.boundSlot := by
  have h1 := h.mapSession (Session.reform b) (Session.reform_binding b)
  refine ⟨(h1.1.capTo .imp (by decide) _).capTo .exp (by decide) _, ?_, ?_⟩
  · unfold Port.reformCaps
    rw [(Port.capTo_beside _ _ _).1, (Port.capTo_beside _ _ _).1]
  · unfold Port.reformCaps
    rw [(Port.capTo_beside _ _ _).2, (Port.capTo_beside _ _ _).2, h1.2]

theorem Port.lowers_reformCaps (p : Port) (b : Bus) : p.Lowers (p.reformCaps b) := by
  unfold Port.reformCaps
  exact Port.Lowers.trans (q := { p with session := p.session.map (Session.reform b) }) ⟨.inl rfl, rfl, rfl⟩
    ((Port.lowers_capTo _ _ _).trans (Port.lowers_capTo _ _ _))

theorem State.changeSession_moves (s : State) (i : Nat) : Moves s (s.changeSession i) := by
  unfold State.changeSession; split
  · next b _ =>
    split
    · next n _ =>
      refine .updPort n _ (fun ho => ?_) fun _ ho => ?_
      · have h := ho.core.reformCaps b
        dsimp only
        split
        · exact ⟨h.1.zeroExport, (Port.zeroExport_beside _).1.trans h.2.1, (Port.zeroExport_beside _).2.trans h.2.2⟩
        · exact h
      · have h := Port.lowers_reformCaps (s.port n) b
        dsimp only
        split
        · exact h.trans (ho.core.reformCaps b).1.lowers_zeroExport
        · exact h
    · exact .refl s
  · exact .refl s

theorem Bus.change_beside (f : BusPatch) (b : Bus) :
    (b.change f).number = b.number ∧ (b.change f).location = b.location :=
  ⟨by unfold Bus.change; rw [Bus.raiseIf_number]; rfl, by unfold Bus.change; rw [Bus.raiseIf_location]; rfl⟩

theorem State.changeBus_moves (s : State) (i : Nat) (b : Bus) (f : BusPatch) (hb : s.bus i = some b) :
    Moves s (s.changeBus i b f) := by
  have h2 : ∀ u : State, Moves u (if f.capacity.isSome then u.newCapacity i else u) := fun u => by
    split
    · exact u.newCapacity_moves i
    · exact .refl u
  have h3 : ∀ u : State, Moves u
      (if b.floor < (f.write b).floor then u.testStep StepKind.isExport i else u) := fun u => by
    split
    · exact u.testStep_moves _ i
    · exact .refl u
  exact (Moves.bus i b (b.change f) hb (b.change_beside f).1 (b.change_beside f).2).trans
    ((h2 _).trans ((h3 _).trans (State.changeSession_moves _ i)))

theorem State.findBus_bus {s : State} (ht : s.TablesOk) {k i : Nat} {b : Bus} (h : s.findBus k = some (i, b)) :
    s.bus i = some b :=
  Table.get_of_mem ht.buses.rising (List.mem_of_find?_eq_some h)

theorem applyBusChange_moves (s : State) (h : ReqHeader) (f : BusPatch) (ht : s.TablesOk) :
    Moves s (applyBusChange h f s).state := by
  unfold applyBusChange; split
  · exact .refl s
  · next i b hb =>
    dsimp only
    split
    · exact .refl s
    · split
      · exact .refl s
      · exact s.changeBus_moves i b f (State.findBus_bus ht hb)

/-- Freeing a slot that is in use or free keeps the chain only when it is in use; a free one changes
nothing but its generation, so the plans of a bus are freed slot by slot, each still in use. -/
theorem freePlans_moves (l : List Nat) (s : State) (hn : l.Nodup) (h : ∀ j ∈ l, (s.plan j).isSome) :
    Moves s (l.foldl (fun t j => t.freePlan j) s) := by
  induction l generalizing s with
  | nil => exact .refl s
  | cons j l ih =>
    rw [List.nodup_cons] at hn
    refine (Moves.freePlan j (h j (by simp))).trans (ih _ hn.2 fun k hk => ?_)
    have hne : k ≠ j := fun e => hn.1 (e ▸ hk)
    show ((s.plans.del j).get k).isSome
    rw [Table.get_del_ne _ hne]
    exact h k (by simp [hk])

theorem freePlans_bus (l : List Nat) (s : State) (i : Nat) :
    (l.foldl (fun t j => t.freePlan j) s).bus i = s.bus i := by
  induction l generalizing s with
  | nil => rfl
  | cons j l ih => exact (ih _).trans rfl

theorem State.plansOf_nodup {s : State} (ht : s.TablesOk) (i : Nat) : (s.plansOf i).Nodup := by
  have h : (s.plansOf i).Pairwise (· < ·) := by
    unfold State.plansOf
    rw [List.pairwise_map]
    exact List.Pairwise.filter _ ht.plans.rising
  exact h.imp fun h => Nat.ne_of_lt h

theorem State.plansOf_used {s : State} (ht : s.TablesOk) (i j : Nat) (h : j ∈ s.plansOf i) :
    (s.plan j).isSome := by
  unfold State.plansOf at h
  obtain ⟨r, hr, rfl⟩ := List.mem_map.mp h
  have := Table.get_of_mem ht.plans.rising (k := r.1) (v := r.2) (List.mem_filter.mp hr).1
  show (s.plans.get r.1).isSome
  rw [this]; rfl

theorem State.retireBus_moves (s : State) (i : Nat) (b : Bus) (ht : s.TablesOk) (hb : s.bus i = some b)
    (hl : b.location = none) : Moves s (s.retireBus i) := by
  unfold State.retireBus
  refine (freePlans_moves _ s (State.plansOf_nodup ht i) (fun j hj => State.plansOf_used ht i j hj)).trans
    ((State.withdrawDeparture_moves _ i).trans (.retire i b ?_ hl))
  show State.bus (List.foldl _ s _) i = some b
  rw [freePlans_bus]; exact hb

theorem applyBusRetire_moves (s : State) (h : ReqHeader) (ht : s.TablesOk) :
    Moves s (applyBusRetire h s).state := by
  unfold applyBusRetire; split
  · exact .refl s
  · next i b hb =>
    split
    · exact .refl s
    · next hl =>
      split
      · exact .refl s
      · exact s.retireBus_moves i b ht (State.findBus_bus ht hb) (by simpa using hl)

theorem applyBusLookup_moves (s : State) (h : ReqHeader) : Moves s (applyBusLookup h s).state := by
  unfold applyBusLookup; split
  · exact .refl s
  · split <;> exact .refl s

theorem applyBusPlans_moves (s : State) (h : ReqHeader) : Moves s (applyBusPlans h s).state := by
  unfold applyBusPlans; split <;> exact .refl s

theorem applyBusUnblock_moves (s : State) (h : ReqHeader) (ht : s.TablesOk) :
    Moves s (applyBusUnblock h s).state := by
  unfold applyBusUnblock; split
  · exact .refl s
  · next i b hb =>
    split
    · exact .refl s
    · exact .bus i b _ (State.findBus_bus ht hb) rfl rfl

theorem State.refreshReadiness_moves (s : State) (i : Nat) : Moves s (s.refreshReadiness i) :=
  .modBus i _ fun _ => by simp

theorem State.setDeparture_moves (s : State) (i : Nat) (d : Departure) : Moves s (s.setDeparture i d) :=
  (s.withdrawDeparture_moves i).trans ((Moves.modBus i (fun b => { b with departure := some d })
    fun _ => ⟨rfl, rfl⟩).trans ((State.registerDeparture_moves _ i d.tDep).trans
      ((State.testStep_moves _ StepKind.isExport i).trans ((State.withdrawIfIneligible_moves _ i).trans
        (State.refreshReadiness_moves _ i)))))

theorem applyDepartureSet_moves (s : State) (h : ReqHeader) (t e : Word) (r : Half) :
    Moves s (applyDepartureSet h t e r s).state := by
  unfold applyDepartureSet; split
  · exact .refl s
  · split
    · exact .refl s
    · split
      · exact .refl s
      · exact s.setDeparture_moves _ _

theorem applyDepartureClear_moves (s : State) (h : ReqHeader) (ht : s.TablesOk) :
    Moves s (applyDepartureClear h s).state := by
  unfold applyDepartureClear; split
  · exact .refl s
  · next i b hb =>
    split
    · exact .refl s
    · exact (Moves.bus i b _ (State.findBus_bus ht hb) (by rw [Bus.setReadiness_number])
        (by rw [Bus.setReadiness_location])).trans (State.withdrawDeparture_moves _ i)

theorem Bus.append_beside (c : PlanClass) (j : Nat) (b : Bus) :
    (b.append c j).number = b.number ∧ (b.append c j).location = b.location := by
  cases c <;> exact ⟨rfl, rfl⟩

theorem State.placePlan_moves (s : State) (i j : Nat) (c : PlanClass) (u : Bool) (st : List PlanStep)
    (hj : j < 512) : Moves s (s.placePlan i j c u st) :=
  (Moves.plan j (newPlan (s.planGens.gen j) i c u st) (Or.inr hj)).trans
    (Moves.modBus i _ fun b => Bus.append_beside c j { b with block := .enabled })

theorem State.submitPlan_moves (s : State) (i j : Nat) (c : PlanClass) (u : Bool) (st : List PlanStep)
    (hj : j < 512) : Moves s (s.submitPlan i j c u st) := by
  have h2 : ∀ t : State, Moves t (if c = .priority then t.preempt i else t) := fun t => by
    split
    · exact t.preempt_moves i
    · exact .refl t
  exact (s.placePlan_moves i j c u st hj).trans ((h2 _).trans (State.selection_moves _ i))

theorem submitSlot_lt {u : Bool} {b : Bus} {s : State} {j : Nat} (h : submitSlot u b s = .ok j) : j < 512 := by
  unfold submitSlot at h
  split at h
  · cases h
  · split at h
    · cases h
    · split at h
      · next k hk => cases h; exact (Table.firstFree_some hk).1
      · cases h

theorem applyPlanSubmit_moves (s : State) (h : ReqHeader) (r : List RawStep) :
    Moves s (applyPlanSubmit h r s).state := by
  unfold applyPlanSubmit; split
  · exact .refl s
  · split
    · exact .refl s
    · split
      · exact .refl s
      · next j hj => exact s.submitPlan_moves _ j _ _ _ (submitSlot_lt hj)

theorem State.resolvePlan_ok {s : State} {h : ReqHeader} {j : Nat} {p : Plan}
    (e : s.resolvePlan h = .ok (j, p)) : s.plan j = some p := by
  unfold State.resolvePlan at e
  split at e
  · cases e
  · split at e
    · next q hq =>
      split at e
      · cases e; exact hq
      · cases e
    · cases e

theorem State.resolveCommit_ok {s : State} {h : ReqHeader} {j : Nat} {c : Commitment}
    (e : s.resolveCommit h = .ok (j, c)) : s.commit j = some c := by
  unfold State.resolveCommit at e
  split at e
  · cases e
  · split at e
    · next q hq =>
      split at e
      · cases e; exact hq
      · cases e
    · cases e

theorem applyPlanCancel_moves (s : State) (h : ReqHeader) : Moves s (applyPlanCancel h s).state := by
  unfold applyPlanCancel; split
  · exact .refl s
  · next j p _ =>
    split
    · show Moves s (s.cancelPlan j p)
      unfold State.cancelPlan
      refine (s.finalise_moves j .cancelled .cancelled).trans ?_
      dsimp only
      split
      · exact (State.releasePower_moves _ _).trans (State.selection_moves _ _)
      · exact .refl _
    · exact .refl s

theorem applyPlanRetire_moves (s : State) (h : ReqHeader) : Moves s (applyPlanRetire h s).state := by
  unfold applyPlanRetire; split
  · exact .refl s
  · next j p e =>
    split
    · exact .refl s
    · exact .freePlan j (by rw [State.resolvePlan_ok e]; rfl)

theorem applyPlanLookup_moves (s : State) (h : ReqHeader) : Moves s (applyPlanLookup h s).state := by
  unfold applyPlanLookup; split
  · exact .refl s
  · split
    · exact .refl s
    · split <;> exact .refl s

/-! ### Ports -/

/-- R80: a target that is refused from the port's state. -/
theorem goRefusal_none {t : PortTarget} {p : Port} (h : goRefusal t p = none) :
    p.pendingTarget = none ∧ goAction t p.state ≠ .refuse := by
  unfold goRefusal at h
  split at h
  · cases h
  · next hp =>
    split at h
    · cases h
    · next ha => exact ⟨by simpa using hp, ha⟩

theorem goAction_reach {t : PortTarget} {st : PortState} (h : goAction t st = .reach) :
    st.inSession = false ∧ t ≠ .reidentify := by
  cases t <;> cases st <;> simp_all [goAction, PortState.inSession]

theorem goAction_close {t : PortTarget} {st : PortState} (h : goAction t st = .close) :
    st.inSession = true ∧ st ≠ .closing ∧ t ≠ .vacant := by
  cases t <;> cases st <;> simp_all [goAction, PortState.inSession]

theorem Port.Ok.enterClosing {n : PortNo} {p : Port} (h : p.Ok n) (t : PortTarget) (ht : t ≠ .vacant)
    (hs : p.state.inSession = true) : (p.enterClosing t).CoreOk n := by
  have r := h.inRange
  refine Port.enter_core _ h.number ⟨r.1, r.2, r.3, r.4, r.5, r.6, r.7, r.8⟩ ?_ (fun e => absurd rfl e)
    (by show Setpoint.zero.mag = 0 ↔ Setpoint.zero.dir = .none; simp [Setpoint.zero])
    (fun _ => ⟨rfl, fun e => ht (by injection e)⟩) (fun e => by cases e) (fun e => by cases e)
    (fun _ => Or.inr rfl)
  show p.session.isSome = true
  rw [h.fits.session, hs]

theorem Port.Ok.go {n : PortNo} {p : Port} (h : p.Ok n) (t : PortTarget) (now : Nat)
    (hr : goRefusal t p = none) : (p.go t now).CoreOk n ∧ (p.go t now).openDelay = p.openDelay
      ∧ (p.go t now).boundSlot = p.boundSlot := by
  have hr := goRefusal_none hr
  unfold Port.go
  split
  · next ha => exact ⟨h.enterClosing t (goAction_close ha).2.2 (goAction_close ha).1, rfl, rfl⟩
  · next ha =>
    have hr' : goAction t p.state = .reach := by
      cases hg : goAction t p.state
      · rfl
      · exact absurd hg ha
      · exact absurd hg hr.2
    have hb := (h.bare (goAction_reach hr').1).endIdentification
    have hc := hb.1.endTransition t .reached now
    have hin : (if t = .vacant then PortState.vacant else .offline).inSession = false := by split <;> rfl
    have hfa : (if t = .vacant then PortState.vacant else .offline) ≠ .faulted := by split <;> simp
    refine ⟨hc.enter _ hin (fun e => absurd e hfa), ?_, ?_⟩
    · unfold Port.reach
      rw [Port.enter_openDelay, Port.endTransition_openDelay, hb.2]
    · unfold Port.reach
      rw [Port.enter_boundSlot, hc.boundSlot, (h.bare (goAction_reach hr').1).boundSlot]

theorem Port.Ok.lowers_go {n : PortNo} {p : Port} (h : p.Ok n) (t : PortTarget) (now : Nat) :
    p.Lowers (p.go t now) := by
  unfold Port.go
  split
  · exact .to_zero h.core rfl rfl rfl
  · unfold Port.reach Port.endIdentification
    rw [Port.endTransition_eq]
    by_cases hi : p.state = .identifying
    · rw [if_pos hi]; exact ⟨.inl rfl, rfl, rfl⟩
    · rw [if_neg hi]; exact ⟨.inl rfl, rfl, rfl⟩

theorem applyPortGo_moves (s : State) (w : Word) (b : Byte) : Moves s (applyPortGo w b s).state := by
  unfold applyPortGo; split
  · split
    · exact .refl s
    · next n t _ _ _ hr => exact .updPort n _ (fun ho => ho.go t _ hr) fun _ ho => ho.lowers_go t _
  · exact .refl s

theorem Port.Ok.cancel {n : PortNo} {p : Port} (h : p.Ok n) (t : PortTarget) (now : Nat)
    (hp : p.pendingTarget = some t) : (p.cancel t now).CoreOk n ∧ (p.cancel t now).openDelay = p.openDelay
      ∧ (p.cancel t now).boundSlot = p.boundSlot := by
  have r := h.inRange
  have hst : p.state = .closing := by have := h.fits.pending; rw [hp] at this; simpa using this.symm
  have hm : p.held.mag = 0 := by
    by_contra e; have := h.fits.held e; rw [hst] at this; cases this
  unfold Port.cancel
  rw [Port.endTransition_eq]
  refine ⟨Port.enter_core _ h.number ⟨r.1, r.2, r.3, r.4, r.5, r.6, r.7, r.8⟩ ?_ (fun e => absurd hm e)
    h.fits.dir (fun e => by cases e) (fun e => by cases e) (fun e => by cases e) (fun e => by cases e), rfl, rfl⟩
  show p.session.isSome = true
  rw [h.fits.session, hst]; rfl

theorem applyPortCancel_moves (s : State) (w : Word) : Moves s (applyPortCancel w s).state := by
  unfold applyPortCancel; split
  · exact .refl s
  · split
    · exact .refl s
    · next t ht =>
      split
      · exact .refl s
      · exact .updPort _ _ (fun ho => ho.cancel t _ ht)
          fun _ _ => by unfold Port.cancel; rw [Port.endTransition_eq]; exact ⟨.inl rfl, rfl, rfl⟩

theorem inRange_keep {lo hi old : Nat} {o : Option Word} (h : inRange lo hi o = true)
    (ho : lo ≤ old ∧ old ≤ hi) : lo ≤ keep old o ∧ keep old o ≤ hi := by
  cases o with
  | none => exact ho
  | some w => simpa [inRange, keep] using h

theorem applyPortConfigure_moves (s : State) (w : Word) (f : PortPatch) :
    Moves s (applyPortConfigure w f s).state := by
  unfold applyPortConfigure; split
  · exact .refl s
  · next n _ =>
    split
    · exact .refl s
    · next hr =>
      have hok : inRange 1 100 f.energyPerCount = true ∧ inRange 1 255 f.filterThreshold = true := by
        unfold configureRefusal at hr
        split at hr
        · cases hr
        · next h => simpa using h
      have h1 : Moves s (s.setPort n (Port.configure f)) := by
        refine Moves.alike n _ fun ho => ?_
        have r := ho.inRange
        exact ⟨⟨rfl, rfl, rfl, rfl, rfl, rfl, rfl, rfl, rfl, rfl, rfl, rfl, rfl, rfl, rfl, rfl, ho.timed.stall⟩,
          ⟨inRange_keep hok.1 r.1, inRange_keep hok.2 r.2, r.3, r.4, r.5, r.6, r.7, r.8⟩⟩
      show Moves s (s.configurePort n f)
      unfold State.configurePort
      refine h1.trans ?_
      dsimp only
      split
      · exact (Moves.site _).trans (State.loadIfStopped_moves (State.stageRatings n f _))
      · exact .refl _

theorem applyPortLookup_moves (s : State) (h : ReqHeader) (w : Word) :
    Moves s (applyPortLookup h w s).state := by
  unfold applyPortLookup; split
  · exact .refl s
  · split <;> exact .refl s

/-! ### The engine, the Reserve Unit, the latch, attention -/

theorem applyAllocStart_moves (s : State) : Moves s (applyAllocStart s).state true false := by
  unfold applyAllocStart; split
  · exact .refl s
  · split
    · exact .refl s
    · exact s.startEngine_moves

theorem applyAllocStop_moves (s : State) : Moves s (applyAllocStop s).state := by
  unfold applyAllocStop; split
  · exact s.stopEngine_moves
  · exact .refl s

theorem applyAllocLookup_moves (s : State) (b : Byte) (w : Word) : Moves s (applyAllocLookup b w s).state := by
  unfold applyAllocLookup; split <;> (try split) <;> exact .refl s

theorem applyCommitOffer_moves (s : State) (o : Offer) : Moves s (applyCommitOffer o s).state := by
  unfold applyCommitOffer; split
  · exact .refl s
  · split
    · exact .refl s
    · split
      · exact .refl s
      · next i hi =>
        exact (Moves.commit i _ (Or.inr (Table.firstFree_some hi).1) (fun e => by
          have e' : (if s.now < armPointOf o.windowStart s.site.live.armLead then CommitState.pending
            else .armed) = .active := e
          split at e' <;> cases e')).trans (State.registerOffer_moves _ _ _ _ _)

theorem applyCommitWithdraw_moves (s : State) (h : ReqHeader) : Moves s (applyCommitWithdraw h s).state := by
  unfold applyCommitWithdraw; split
  · exact .refl s
  · split
    · exact s.endCommit_moves _ _ (by decide)
    · exact .refl s

theorem applyCommitDispatch_moves (s : State) (h : ReqHeader) : Moves s (applyCommitDispatch h s).state := by
  unfold applyCommitDispatch; split
  · exact .refl s
  · split
    · exact .refl s
    · next hd =>
      refine s.activate_moves _ _ ?_
      unfold dispatchRefusal at hd
      split at hd
      · cases hd
      · split at hd
        · cases hd
        · split at hd
          · cases hd
          · next h => simpa using h

theorem applyCommitRelease_moves (s : State) (h : ReqHeader) : Moves s (applyCommitRelease h s).state := by
  unfold applyCommitRelease; split
  · exact .refl s
  · split
    · exact s.endNormally_moves _ _
    · exact .refl s

theorem applyCommitLookup_moves (s : State) (h : ReqHeader) : Moves s (applyCommitLookup h s).state := by
  unfold applyCommitLookup; split
  · exact .refl s
  · split <;> exact .refl s

theorem applyCommitRetire_moves (s : State) (h : ReqHeader) : Moves s (applyCommitRetire h s).state := by
  unfold applyCommitRetire; split
  · exact .refl s
  · next i c e =>
    split
    · exact .freeCommit i (by rw [State.resolveCommit_ok e]; rfl)
    · exact .refl s

theorem applyClearTrip_moves (s : State) : Moves s (applyClearTrip s).state := by
  unfold applyClearTrip; split
  · exact .refl s
  · split
    · exact s.clearLatch_moves
    · exact .refl s

theorem applyAttentionScan_moves (s : State) (h : ReqHeader) : Moves s (applyAttentionScan h s).state := by
  unfold applyAttentionScan; dsimp only; split <;> exact .refl s

theorem Port.Ok.clearFlags {n : PortNo} {p : Port} (h : p.Ok n) (w : Word) :
    (p.clearFlags w).Ok n ∧ (p.clearFlags w).boundSlot = p.boundSlot := by
  have r := h.inRange
  unfold Port.clearFlags
  dsimp only
  split
  · exact h.like ⟨rfl, rfl, rfl, rfl, rfl, rfl, rfl, rfl, rfl, rfl, rfl, rfl, rfl, rfl, rfl, rfl, h.timed.stall⟩
      ⟨r.1, r.2, r.3, r.4, r.5, r.6, r.7, r.8⟩
  · exact h.like ⟨rfl, rfl, rfl, rfl, rfl, rfl, rfl, rfl, rfl, rfl, rfl, rfl, rfl, rfl, rfl, rfl, h.timed.stall⟩
      ⟨r.1, r.2, r.3, r.4, r.5, r.6, r.7, r.8⟩

theorem State.clearAt_moves (s : State) (c k : Nat) (w : Word) : Moves s (s.clearAt c k w).state := by
  unfold State.clearAt
  split
  · exact .other rfl rfl rfl rfl rfl rfl rfl rfl rfl id fun _ => ⟨rfl, rfl, rfl⟩
  · split
    · exact .setPort _ _ (fun ho => ho.clearFlags w)
        (by unfold Port.clearFlags; dsimp only; split <;> exact ⟨rfl, rfl, rfl⟩)
    · exact .refl s
  · split
    · next b hb => exact .bus k b _ hb rfl rfl
    · exact .refl s
  · split
    · next p hp => exact .plan k _ (Or.inl (by simp [hp]))
    · exact .refl s
  · split
    · next p hp => exact .commit k _ (Or.inl (by simp [hp])) fun e => Or.inl ⟨p, hp, e⟩
    · exact .refl s

theorem applyAttentionClear_moves (s : State) (h : ReqHeader) (c : Byte) (w : Word) :
    Moves s (applyAttentionClear h c w s).state := by
  unfold applyAttentionClear; split
  · exact .refl s
  · split
    · exact .refl s
    · split
      · exact .refl s
      · exact s.clearAt_moves _ _ _

/-! ### Events -/

theorem State.sessionLevel_moves (s : State) (n : PortNo) (l : PilotLevel) : Moves s (s.sessionLevel n l) := by
  have hz : Moves s (s.updPort n Port.zeroHeld) :=
    .updPort n _ (fun ho => ⟨ho.core.zeroHeld, rfl, rfl⟩) fun _ ho => ho.core.lowers_zeroHeld
  unfold State.sessionLevel; split
  · exact .refl s
  · exact .refl s
  · exact hz
  · refine hz.trans ?_
    dsimp only
    split
    · exact State.blockBus_moves _ _ _
    · exact .refl _

theorem State.actPilot_moves (s : State) (n : PortNo) (l : PilotLevel) : Moves s (s.actPilot n l) := by
  have hb (st : PortState) (hs : (s.port n).state.inSession = false) (h1 : st.inSession = false)
      (h2 : st ≠ .faulted) : Moves s (s.updPort n (Port.enter st)) :=
    .updPort n _ fun ho => ⟨(ho.bare hs).enter st h1 (fun e => absurd e h2), rfl, rfl⟩
  unfold State.actPilot
  split
  · exact .refl s
  · exact .refl s
  · next hs =>
    split
    · exact hb _ (by rw [hs]; rfl) rfl (by decide)
    · exact .refl s
  · next hs =>
    split
    · exact .refl s
    · exact hb _ (by rw [hs]; rfl) rfl (by decide)
  · next hs =>
    split
    · refine .updPort n _ fun ho => ?_
      have hbare := ho.bare (by rw [hs]; rfl)
      have r := hbare.range
      have hb2 : Port.Bare n { s.port n with attempts := 0 } :=
        ⟨hbare.number, ⟨r.1, r.2, r.3, Nat.zero_le _, r.5, r.6, r.7, r.8⟩, hbare.session, hbare.held,
          hbare.command⟩
      exact ⟨hb2.enter .vacant rfl (by simp), rfl, rfl⟩
    · exact .refl s
  all_goals
    split
    · exact s.unplug_moves n
    · exact s.sessionLevel_moves n l

theorem takePilot_moves (s : State) (n : PortNo) (l : PilotLevel) :
    Moves s (s.setPort n (Port.takePilot l)) :=
  .alike n _ fun ho => ⟨⟨rfl, rfl, rfl, rfl, rfl, rfl, rfl, rfl, rfl, rfl, rfl, rfl, rfl, rfl, rfl, rfl,
    ho.timed.stall⟩, ⟨ho.5.1, ho.5.2, ho.5.3, ho.5.4, ho.5.5, ho.5.6, ho.5.7, ho.5.8⟩⟩

theorem takeFeedback_moves (s : State) (n : PortNo) (c : Contact) :
    Moves s (s.updPort n (Port.takeFeedback c)) :=
  .updPort n _ fun ho =>
    have h := ho.core
    ⟨⟨h.1, ⟨h.2.1, h.2.2, h.2.3, h.2.4, h.2.5, h.2.6⟩, ⟨h.3.1, h.3.2, h.3.3, h.3.4, h.3.5, h.3.6⟩,
      ⟨h.4.1, h.4.2⟩, ⟨h.5.1, h.5.2, h.5.3, h.5.4, h.5.5, h.5.6, h.5.7, h.5.8⟩⟩, rfl, rfl⟩

theorem State.actFeedback_moves (s : State) (n : PortNo) (c : Contact) : Moves s (s.actFeedback n c) := by
  unfold State.actFeedback
  split
  · next hs =>
    refine .updPort n _ fun ho => ⟨?_, rfl, rfl⟩
    have r := ho.inRange
    refine Port.enter_core _ ho.number ⟨r.1, r.2, r.3, r.4, r.5, r.6, r.7, r.8⟩ ?_ (fun _ => rfl) ho.fits.dir
      (fun e => by cases e) (fun e => by cases e) (fun _ => ho.commanded.closed (by rw [hs]; rfl))
      (fun _ => Or.inl rfl)
    rw [ho.fits.session, hs]; rfl
  · exact s.portFault_moves n _
  · exact s.closingOpen_moves n
  · exact .refl s

/-- The port of a running debounce, answer or open-delay timer is in that timer's state. -/
theorem Port.Ok.debouncing {n : PortNo} {p : Port} (h : p.Ok n) (hr : p.debounce.isRunning = true) :
    p.state = .detecting := by
  have := h.timed.debounce; rw [hr] at this; simpa using this.symm

theorem debounceEnd_moves (s : State) (n : PortNo) (d : Nat) (hr : (s.port n).debounce.isRunning = true) :
    Moves s (s.updPort n (Port.beginExchange d)) :=
  .updPort n _ fun ho => by
    have hb := ho.bare (by rw [ho.debouncing hr]; rfl)
    exact ⟨hb.beginExchange d, rfl, rfl⟩

theorem settlingEnd_moves (s : State) (n : PortNo) (hr : (s.port n).settling.isRunning = true) :
    Moves s (s.updPort n fun p => if seated p.taken then p.enter .detecting else { p with settling := .stopped }) := by
  refine .updPort n _ (fun ho => ?_) fun _ _ => by split <;> exact ⟨.inl rfl, rfl, rfl⟩
  have hs := ho.timed.settling hr
  have hb := ho.bare (by rw [hs]; rfl)
  split
  · exact ⟨hb.enter .detecting rfl (by simp), rfl, rfl⟩
  · have h := ho.core
    exact ⟨⟨h.1, ⟨h.2.1, h.2.2, h.2.3, h.2.4, h.2.5, h.2.6⟩, ⟨fun e => (by cases e), h.3.2, h.3.3, h.3.4, h.3.5, h.3.6⟩,
      ⟨h.4.1, h.4.2⟩, ⟨h.5.1, h.5.2, h.5.3, h.5.4, h.5.5, h.5.6, h.5.7, h.5.8⟩⟩, rfl, rfl⟩

theorem openDelay_moves (s : State) (n : PortNo) (hr : (s.port n).openDelay.isRunning = true) :
    Moves s (s.updPort n fun p => { p with command := .opened }.enter .connected) := by
  refine .updPort n _ fun ho => ⟨?_, rfl, rfl⟩
  have r := ho.inRange
  have h1 : (s.port n).state = .energized ∧ (s.port n).held.mag = 0 := by
    have := ho.timed.openDelay; rw [hr] at this; simpa using this.symm
  refine Port.enter_core _ ho.number ⟨r.1, r.2, r.3, r.4, r.5, r.6, r.7, r.8⟩ ?_ (fun e => absurd h1.2 e)
    ho.fits.dir (fun e => by cases e) (fun e => by cases e) (fun e => by cases e) (fun e => by cases e)
  show (s.port n).session.isSome = true
  rw [ho.fits.session, h1.1]; rfl

theorem weldInFaulted_moves (s : State) (n : PortNo) (hs : (s.port n).state = .faulted) :
    Moves s (s.setPort n Port.weldInFaulted) := by
  refine .setPort n _ fun ho => ⟨Port.Ok.raise ?_ _, rfl⟩
  exact ⟨ho.1, ⟨ho.2.1, ho.2.2, ho.2.3, ho.2.4, ho.2.5, by show true = _; rw [hs]; rfl⟩,
    ⟨ho.3.1, ho.3.2, ho.3.3, ho.3.4, ho.3.5, ho.3.6, ho.3.7, ho.3.8, fun e => by cases e⟩,
    ⟨ho.4.1, ho.4.2⟩, ⟨ho.5.1, ho.5.2, ho.5.3, ho.5.4, ho.5.5, ho.5.6, ho.5.7, ho.5.8⟩⟩

theorem weldStopped_moves (s : State) (n : PortNo) :
    Moves s (s.setPort n fun p => { p with weld := .stopped }) := by
  refine .setPort n _ fun ho => ⟨?_, rfl⟩
  exact ⟨ho.1, ⟨ho.2.1, ho.2.2, ho.2.3, ho.2.4, ho.2.5, ho.2.6⟩,
    ⟨ho.3.1, ho.3.2, ho.3.3, ho.3.4, ho.3.5, ho.3.6, ho.3.7, ho.3.8, fun e => by cases e⟩,
    ⟨ho.4.1, ho.4.2⟩, ⟨ho.5.1, ho.5.2, ho.5.3, ho.5.4, ho.5.5, ho.5.6, ho.5.7, ho.5.8⟩⟩

theorem stallStopped_moves (s : State) (n : PortNo) :
    Moves s (s.setPort n fun p => { p with stall := .stopped }) := by
  refine .setPort n _ fun ho => ⟨?_, rfl⟩
  exact ⟨ho.1, ⟨ho.2.1, ho.2.2, ho.2.3, ho.2.4, ho.2.5, ho.2.6⟩,
    ⟨ho.3.1, ho.3.2, ho.3.3, ho.3.4, ho.3.5, ho.3.6, ho.3.7, fun e => (by cases e), ho.3.9⟩,
    ⟨ho.4.1, ho.4.2⟩, ⟨ho.5.1, ho.5.2, ho.5.3, ho.5.4, ho.5.5, ho.5.6, ho.5.7, ho.5.8⟩⟩

theorem Port.Ok.discard {n : PortNo} {p : Port} (h : p.Ok n) : p.Like p.discard ∧ p.discard.InRange := by
  have r := h.inRange
  exact ⟨⟨rfl, rfl, rfl, rfl, rfl, rfl, rfl, rfl, rfl, rfl, rfl, rfl, rfl, rfl, rfl, rfl, h.timed.stall⟩,
    ⟨r.1, r.2, r.3, r.4, r.5, ⟨r.6.1, r.6.2.1, r.6.2.2.1, Nat.min_le_right _ _⟩, r.7, r.8⟩⟩

theorem Port.Ok.checkError {n : PortNo} {p : Port} (h : p.Ok n) :
    p.Like { p with checkErrors := addHalf p.checkErrors 1 }
      ∧ Port.InRange { p with checkErrors := addHalf p.checkErrors 1 } := by
  have r := h.inRange
  exact ⟨⟨rfl, rfl, rfl, rfl, rfl, rfl, rfl, rfl, rfl, rfl, rfl, rfl, rfl, rfl, rfl, rfl, h.timed.stall⟩,
    ⟨r.1, r.2, r.3, r.4, r.5, ⟨r.6.1, r.6.2.1, Nat.min_le_right _ _, r.6.2.2.2⟩, r.7, r.8⟩⟩

/-- Fields outside Port.Ok. -/
theorem Port.Ok.aside {n : PortNo} {p : Port} (h : p.Ok n) (q : Port) (hq : q = { p with
    frameCount := q.frameCount, frameTimer := q.frameTimer, lastFrame := q.lastFrame
    lastFault := q.lastFault, flags := q.flags }) : p.Like q ∧ q.InRange := by
  have r := h.inRange
  rw [hq]
  exact ⟨⟨rfl, rfl, rfl, rfl, rfl, rfl, rfl, rfl, rfl, rfl, rfl, rfl, rfl, rfl, rfl, rfl, h.timed.stall⟩,
    ⟨r.1, r.2, r.3, r.4, r.5, r.6, r.7, r.8⟩⟩

theorem Port.waiting_state {p : Port} (h : p.exchange = .waiting) : p.state = .identifying := by
  unfold Port.exchange at h
  split at h
  · cases h
  · split at h
    · assumption
    · cases h

theorem Port.Ok.waiting {n : PortNo} {p : Port} (h : p.Ok n) (hs : p.state = .identifying) :
    p.exchange = .waiting := by
  have := h.fits.session
  rw [hs] at this
  unfold Port.exchange
  rw [this]
  simp [PortState.inSession, hs]

theorem enquireSent_moves (s : State) (n : PortNo) : Moves s (s.setPort n fun p =>
    { p with enquire := none, answer := if p.exchange = .waiting then .start 1000 else p.answer }) := by
  refine .setPort n _ fun ho => ?_
  split
  · next hw =>
    exact ⟨⟨ho.1, ⟨ho.2.1, ho.2.2, ho.2.3, ho.2.4, ho.2.5, ho.2.6⟩,
      ⟨ho.3.1, ho.3.2, fun _ => Port.waiting_state hw, ho.3.4, ho.3.5, ho.3.6, ho.3.7, ho.3.8, ho.3.9⟩,
      ⟨ho.4.1, ho.4.2⟩, ⟨ho.5.1, ho.5.2, ho.5.3, ho.5.4, ho.5.5, ho.5.6, ho.5.7, ho.5.8⟩⟩, rfl⟩
  · exact ⟨⟨ho.1, ⟨ho.2.1, ho.2.2, ho.2.3, ho.2.4, ho.2.5, ho.2.6⟩,
      ⟨ho.3.1, ho.3.2, ho.3.3, ho.3.4, ho.3.5, ho.3.6, ho.3.7, ho.3.8, ho.3.9⟩,
      ⟨ho.4.1, ho.4.2⟩, ⟨ho.5.1, ho.5.2, ho.5.3, ho.5.4, ho.5.5, ho.5.6, ho.5.7, ho.5.8⟩⟩, rfl⟩

theorem enquireAgain_moves (s : State) (n : PortNo) (d : Nat) (ha : (s.port n).answer.isRunning = true)
    (hl : (s.port n).attempts < 3) : Moves s (s.setPort n (Port.enquireAgain d)) := by
  refine Moves.alike n _ fun ho => ?_
  have r := ho.inRange
  exact ⟨⟨rfl, rfl, rfl, rfl, rfl, rfl, rfl, rfl, rfl, rfl, ha.symm, rfl, rfl, rfl, rfl, rfl, ho.timed.stall⟩,
    ⟨r.1, r.2, r.3, by show (s.port n).attempts + 1 ≤ 3; omega, r.5, r.6, r.7, r.8⟩⟩

theorem State.limitBus_moves (s : State) (n : PortNo) (i a b : Nat) : Moves s (s.limitBus n i a b) := by
  unfold State.limitBus; split
  · next c _ =>
    refine .updPort n _ (fun ho => ?_)
      fun _ _ => Port.Lowers.trans (q := { s.port n with session := (s.port n).session.map (Session.limitTo a b) })
        ⟨.inl rfl, rfl, rfl⟩ (Port.lowers_reformCaps _ c)
    have h1 := ho.core.mapSession (Session.limitTo a b) (fun _ => rfl)
    have h2 := h1.1.reformCaps c
    exact ⟨h2.1, h2.2.1, h2.2.2.trans h1.2⟩
  · exact .refl s

theorem reportUnidentified_moves (s : State) (n : PortNo) (c t : Nat) :
    Moves s (s.updPort n (Port.reportUnidentified c t)) := by
  refine .updPort n _ (fun ho => ?_) fun _ ho => .to_zero ho.core rfl rfl rfl
  have hz := ho.core.zeroHeld
  have h0 : Port.CoreOk n ((s.port n).storeReport c t).zeroHeld :=
    ⟨hz.1, ⟨hz.2.1, hz.2.2, hz.2.3, hz.2.4, hz.2.5, hz.2.6⟩, ⟨hz.3.1, hz.3.2, hz.3.3, hz.3.4, hz.3.5, hz.3.6⟩,
      ⟨hz.4.1, hz.4.2⟩, ⟨hz.5.1, hz.5.2, hz.5.3, hz.5.4, hz.5.5, hz.5.6, hz.5.7, hz.5.8⟩⟩
  have h := h0.mapSession (fun x : Session => { x with importCap := 0 }) (fun _ => rfl)
  exact ⟨h.1, rfl, h.2⟩

theorem Port.Ok.glitchLine {n : PortNo} {p : Port} (h : p.Ok n) (l : MeterLine) :
    (p.glitchLine l).Ok n ∧ (p.glitchLine l).boundSlot = p.boundSlot := by
  have h1 := h.setLine l (LineFilter.fallBack p.recordsGlitch) fun x hx => by
    show x.counter - 1 ≤ 255; omega
  have h2 := h.like h1.1 h1.2
  unfold Port.glitchLine
  dsimp only
  split
  · exact ⟨h2.1.raise _, h2.2⟩
  · exact h2

theorem Port.glitchLine_steady (p : Port) (l : MeterLine) : p.Steady (p.glitchLine l) := by
  unfold Port.glitchLine; dsimp only; split <;> cases l <;> exact ⟨rfl, rfl, rfl⟩

theorem Port.moveBoth_steady (p : Port) : p.Steady p.moveBoth := by
  unfold Port.moveBoth; dsimp only; split <;> exact ⟨rfl, rfl, rfl⟩

theorem Port.Ok.moveBoth {n : PortNo} {p : Port} (h : p.Ok n) :
    p.moveBoth.Ok n ∧ p.moveBoth.boundSlot = p.boundSlot := by
  have r := h.inRange
  have h2 := h.like (q := { p with
    ma := { p.ma.take (flipLevel p.ma.output) with glitch := p.ma.glitch || p.recordsGlitch }
    mb := { p.mb.take (flipLevel p.mb.output) with glitch := p.mb.glitch || p.recordsGlitch } })
    ⟨rfl, rfl, rfl, rfl, rfl, rfl, rfl, rfl, rfl, rfl, rfl, rfl, rfl, rfl, rfl, rfl, h.timed.stall⟩
    ⟨r.1, r.2, ⟨Nat.zero_le _, Nat.zero_le _⟩, r.4, r.5, r.6, r.7, r.8⟩
  unfold Port.moveBoth
  dsimp only
  split
  · exact ⟨h2.1.raise _, h2.2⟩
  · exact h2

theorem raiseCounter_moves (s : State) (n : PortNo) (l : MeterLine) (v : Level)
    (hl : ¬ (s.port n).filterThreshold ≤ ((s.port n).line l).counter + 1) :
    Moves s (s.setPort n (Port.setLine l (LineFilter.raiseCounter v))) := by
  refine Moves.alike n _ (fun ho => ?_) (Port.setLine_steady _ l _)
  have r := ho.inRange
  cases l
  · exact ⟨⟨rfl, rfl, rfl, rfl, rfl, rfl, rfl, rfl, rfl, rfl, rfl, rfl, rfl, rfl, rfl, rfl, ho.timed.stall⟩,
      ⟨r.1, r.2, ⟨by show (s.port n).ma.counter + 1 ≤ 255; have := r.2; simp [Port.line] at hl; omega, r.3.2⟩,
        r.4, r.5, r.6, r.7, r.8⟩⟩
  · exact ⟨⟨rfl, rfl, rfl, rfl, rfl, rfl, rfl, rfl, rfl, rfl, rfl, rfl, rfl, rfl, rfl, rfl, ho.timed.stall⟩,
      ⟨r.1, r.2, ⟨r.3.1, by show (s.port n).mb.counter + 1 ≤ 255; have := r.2; simp [Port.line] at hl; omega⟩,
        r.4, r.5, r.6, r.7, r.8⟩⟩

/-! ### Every command -/

/-- The commands that can change depot time. -/
def keepsTime : Instr → Bool
  | .setTime _ _ | .depotTimeAdvance => false
  | _ => true

/-- What a command but POWER_ON makes of the state: a chain of moves, beside the Ring Interface and the mask. -/
def Effect (s t : State) (still falls : Bool) : Prop :=
  ∃ (r : Ring) (u : State), Moves { s with ring := r } u still falls
    ∧ t = { u with ring := t.ring, mask := t.mask }

theorem Effect.chain {s t : State} {w v : Bool} (h : Moves s t w v) : Effect s t w v := ⟨s.ring, t, h, rfl⟩

theorem Effect.moves {s t : State} (h : Moves s t) : Effect s t true true := .chain h

theorem Effect.refl {w v : Bool} (s : State) : Effect s s w v := .chain (.refl s)

theorem Effect.ring (s : State) (f : Ring → Ring) : Effect s (s.modRing f) true true := ⟨s.ring, s, .refl s, rfl⟩

theorem Effect.ringError (s : State) (f : Ring → Ring) : Effect s (s.modRing f).ringError true true :=
  ⟨s.ring, s.raiseSite SiteFlag.ringError, Moves.raiseSite _, rfl⟩

/-- The taking of a request, when its block's part is a chain of moves. -/
theorem takeRequest_effect {q : Request} {act : State → Reply} {s t : State} {w v : Bool}
    (h : takeRequest q act s = .next t)
    (ha : Moves (s.modRing Ring.pop) (act (s.modRing Ring.pop)).state w v) : Effect s t w v := by
  unfold takeRequest at h
  split at h
  · cases h; exact ⟨s.ring.pop, (act (s.modRing Ring.pop)).state, ha, rfl⟩
  · cases h; exact .refl s

theorem takeCrossing_effect {k : RegKind} {i : Nat} {s t : State} (h : takeCrossing k i s = .next t) :
    Effect s t true true := by
  unfold takeCrossing at h
  split at h
  · split at h
    · cases h; exact .moves ((State.unfire_moves _ _).trans (State.handOver_moves _ _))
    · cases h; exact .refl s
  · cases h; exact .refl s

/-- An event whose effect, when it happens, is a chain of moves. -/
theorem when_effect {c : Prop} [Decidable c] {s u t : State} {w v : Bool}
    (h : (if c then Host.Outcome.next u else .next s : Host.Outcome State Fault Refusal) = .next t)
    (hm : c → Moves s u w v) : Effect s t w v := by
  split at h
  · next hc => cases h; exact .chain (hm hc)
  · cases h; exact .refl s

theorem whenNot_effect {c : Prop} [Decidable c] {s u t : State}
    (h : (if c then Host.Outcome.next s else .next u : Host.Outcome State Fault Refusal) = .next t)
    (hm : ¬ c → Moves s u) : Effect s t true true := by
  split at h
  · cases h; exact .refl s
  · next hc => cases h; exact .moves (hm hc)

theorem whenRing_effect {c : Prop} [Decidable c] {s t : State} {f : Ring → Ring}
    (h : (if c then Host.Outcome.next (s.modRing f) else .next s : Host.Outcome State Fault Refusal)
      = .next t) : Effect s t true true := by
  split at h
  · cases h; exact .ring s f
  · cases h; exact .refl s

/-- Every command but POWER_ON that answers a next state. -/
theorem exec_effect {i : Instr} {s t : State} (hp : ∀ l, i ≠ .powerOn l) (ht : s.TablesOk)
    (h : exec i s = .next t) : Effect s t (keepsTime i) (!publishes i) := by
  have hr : (s.modRing Ring.pop).TablesOk := ht.of_eq rfl rfl rfl rfl rfl
  cases i with
  | powerOn l => exact absurd rfl (hp l)
  | depotTimeAdvance =>
    simp only [exec, execDepotTimeAdvance] at h
    split at h
    · cases h; exact .refl s
    · exact when_effect h fun _ => s.advanceSecond_moves
  | rolloverCrossing => exact takeCrossing_effect h
  | notBeforeCrossing k => exact takeCrossing_effect h
  | holdUntilCrossing k => exact takeCrossing_effect h
  | endByCrossing k => exact takeCrossing_effect h
  | departureCrossing k => exact takeCrossing_effect h
  | lockoutPointCrossing k => exact takeCrossing_effect h
  | armPointCrossing k => exact takeCrossing_effect h
  | windowStartCrossing k => exact takeCrossing_effect h
  | windowEndCrossing k => exact takeCrossing_effect h
  | setTime r v => exact takeRequest_effect h (applySetTime_moves _ _)
  | siteConfigure r f => exact takeRequest_effect h (applySiteConfigure_moves _ _)
  | siteLoadReport r w => exact takeRequest_effect h (.site _)
  | siteLookup r a b => exact takeRequest_effect h (applySiteLookup_moves _ _ _)
  | busEnrol r p => exact takeRequest_effect h (applyBusEnrol_moves _ _ _)
  | busChange r f => exact takeRequest_effect h (applyBusChange_moves _ _ _ hr)
  | busRetire r => exact takeRequest_effect h (applyBusRetire_moves _ _ hr)
  | busLookup r => exact takeRequest_effect h (applyBusLookup_moves _ _)
  | busPlans r => exact takeRequest_effect h (applyBusPlans_moves _ _)
  | busUnblock r => exact takeRequest_effect h (applyBusUnblock_moves _ _ hr)
  | departureSet r a b c => exact takeRequest_effect h (applyDepartureSet_moves _ _ _ _ _)
  | departureClear r => exact takeRequest_effect h (applyDepartureClear_moves _ _ hr)
  | planSubmit r a b c d => exact takeRequest_effect h (applyPlanSubmit_moves _ _ _)
  | planCancel r => exact takeRequest_effect h (applyPlanCancel_moves _ _)
  | planRetire r => exact takeRequest_effect h (applyPlanRetire_moves _ _)
  | planLookup r => exact takeRequest_effect h (applyPlanLookup_moves _ _)
  | portGo r a b => exact takeRequest_effect h (applyPortGo_moves _ _ _)
  | portCancel r a => exact takeRequest_effect h (applyPortCancel_moves _ _)
  | portConfigure r a f => exact takeRequest_effect h (applyPortConfigure_moves _ _ _)
  | portLookup r a => exact takeRequest_effect h (applyPortLookup_moves _ _ _)
  | allocStart r => exact takeRequest_effect h (applyAllocStart_moves _)
  | allocStop r => exact takeRequest_effect h (applyAllocStop_moves _)
  | allocLookup r a b => exact takeRequest_effect h (applyAllocLookup_moves _ _ _)
  | commitOffer r a b c d => exact takeRequest_effect h (applyCommitOffer_moves _ _)
  | commitWithdraw r => exact takeRequest_effect h (applyCommitWithdraw_moves _ _)
  | commitDispatch r => exact takeRequest_effect h (applyCommitDispatch_moves _ _)
  | commitRelease r => exact takeRequest_effect h (applyCommitRelease_moves _ _)
  | commitLookup r => exact takeRequest_effect h (applyCommitLookup_moves _ _)
  | commitRetire r => exact takeRequest_effect h (applyCommitRetire_moves _ _)
  | clearTrip r => exact takeRequest_effect h (applyClearTrip_moves _)
  | keepalive r => exact takeRequest_effect h (State.keepAlive_moves _)
  | attentionScan r => exact takeRequest_effect h (applyAttentionScan_moves _ _)
  | attentionClear r c w => exact takeRequest_effect h (applyAttentionClear_moves _ _ _ _)
  | unknownKind r k =>
    simp only [exec, execUnknownKind] at h
    split at h
    · exact takeRequest_effect h (.refl _)
    · cases h
  | allocationComputation => exact when_effect h fun _ => s.compute_moves
  | pilotLevelTaken n l =>
    exact whenNot_effect h fun _ => (takePilot_moves s n l).trans (State.actPilot_moves _ n l)
  | settlingEnd n => exact when_effect h fun hr => settlingEnd_moves s n hr
  | debounceEnd n => exact when_effect h fun hr => debounceEnd_moves s n _ hr
  | answerTimerExpiry n =>
    simp only [exec, execAnswerTimerExpiry] at h
    split at h
    · next ha =>
      split at h
      · next hl => cases h; exact .moves (enquireAgain_moves s n _ ha hl)
      · cases h
        exact .moves (s.openUnidentified_moves n _ _ fun ho => by rw [ho.timed.answer ha]; rfl)
    · cases h; exact .refl s
  | announce n m =>
    simp only [exec, execAnnounce] at h
    split at h
    · cases h; exact .refl s
    · next hw =>
      cases h
      exact .moves (s.judgeAnnounce_moves n m ht fun _ => by rw [Port.waiting_state hw]; rfl)
    · cases h; exact .moves (.alike n _ fun ho => ho.discard)
  | limit n a b =>
    simp only [exec, execLimit] at h
    split at h
    · cases h; exact .refl s
    · cases h; exact .moves (.alike n _ fun ho => ho.discard)
    · split at h
      · cases h; exact .moves (s.limitBus_moves _ _ _ _)
      · cases h; exact .moves (.alike n _ fun ho => ho.discard)
  | faultReport n c =>
    simp only [exec, execFaultReport] at h
    split at h
    · cases h; exact .refl s
    · cases h; exact .moves (.alike n _ fun ho => ho.discard)
    · split at h
      · cases h
        exact .moves ((Moves.alike n _ fun ho => ho.aside _ rfl).trans (State.blockBus_moves _ _ _))
      · cases h; exact .moves (reportUnidentified_moves s n _ _)
  | messageCheckFailure n => exact when_effect h fun _ => .alike n _ fun ho => ho.checkError
  | unknownTypeDiscard n => exact when_effect h fun _ => .alike n _ fun ho => ho.discard
  | feedbackTaken n c =>
    simp only [exec, execFeedbackTaken] at h
    split at h
    · cases h; exact .moves (s.closingOpen_moves n)
    · cases h; exact .moves ((takeFeedback_moves s n c).trans (State.actFeedback_moves _ n c))
  | confirmationTimeout n => exact when_effect h fun _ => s.portFault_moves n _
  | openDelayExpiry n => exact when_effect h fun hr => openDelay_moves s n hr
  | weldTimerExpiry n =>
    simp only [exec, execWeldTimerExpiry] at h
    split at h
    · split at h
      · next hs => cases h; exact .moves (weldInFaulted_moves s n hs)
      · cases h; exact .moves ((weldStopped_moves s n).trans (State.portFault_moves _ n _))
    · cases h; exact .refl s
  | quietTimerExpiry n =>
    exact when_effect h fun hr => s.giveOpen_moves n fun ho => by rw [ho.timed.quiet hr]; rfl
  | limitTimerExpiry n =>
    refine when_effect h fun hr => ?_
    refine (Moves.alike n (Port.raise PortFlag.closeTimeout) fun ho => ho.aside _ rfl).trans
      (State.giveOpen_moves _ n fun ho => ?_)
    have hl := ho.timed.limit
    have hst : (s.setPort n (Port.raise PortFlag.closeTimeout)).port n
        = (s.port n).raise PortFlag.closeTimeout := State.port_putPort_self s n _
    rw [hst] at hl ho ⊢
    have hr' : ((s.port n).raise PortFlag.closeTimeout).limit.isRunning = true := hr
    rw [hr'] at hl
    rw [ho.timed.quiet hl.symm]; rfl
  | setpointFrameRepeat n => exact when_effect h fun _ => .alike n _ fun ho => ho.aside _ rfl
  | filteredTransition n m =>
    cases m with
    | one l => cases h; exact .moves (s.lineMoved_moves n l _)
    | both => cases h; exact .moves (.setPort n _ (fun ho => ho.moveBoth) (Port.moveBoth_steady _))
  | lineFilterGlitch n l => exact when_effect h fun _ => .setPort n _ (fun ho => ho.glitchLine l) (Port.glitchLine_steady _ l)
  | stallTimerExpiry n =>
    simp only [exec, execStallTimerExpiry] at h
    split at h
    · split at h
      · cases h; exact .moves ((stallStopped_moves s n).trans (State.blockBus_moves _ _ _))
      · cases h; exact .moves (stallStopped_moves s n)
    · cases h; exact .refl s
  | siteTripAssertion =>
    simp only [exec, execSiteTripAssertion] at h
    split at h
    · cases h; exact .refl s
    · split at h
      · cases h; exact .moves ((Moves.protection ⟨true, true⟩).trans (.raiseSite _))
      · injection h with e; rw [← e]; exact .moves s.trip_moves
  | siteTripDeassertion => cases h; exact .moves (.protection _)
  | gridDispatchRisingEdge =>
    refine whenNot_effect h fun _ => ?_
    have h1 : Moves s (s.takeDispatch true) := .other rfl rfl rfl rfl rfl rfl rfl rfl rfl id fun _ => ⟨rfl, rfl, rfl⟩
    refine h1.trans ?_
    unfold State.risingEdge
    split
    · split
      · next hc => exact State.activate_moves _ _ _ (by simpa using (Bool.and_eq_true_iff.mp hc).1)
      · exact .raiseSite _
    · exact .raiseSite _
  | gridDispatchFallingEdge =>
    refine when_effect h fun _ => ?_
    have h1 : Moves s (s.takeDispatch false) := .other rfl rfl rfl rfl rfl rfl rfl rfl rfl id fun _ => ⟨rfl, rfl, rfl⟩
    refine h1.trans ?_
    unfold State.fallingEdge
    split
    · split
      · exact State.endNormally_moves _ _ _
      · exact .refl _
    · exact .refl _
  | supervisionTimerExpiry => exact when_effect h fun _ => s.supervisionExpiry_moves
  | requestWritePointerWrite v => exact whenRing_effect h
  | completionReadPointerWrite v => exact whenRing_effect h
  | ringBaseWrite i a => exact whenRing_effect h
  | ringSizeWrite i a => exact whenRing_effect h
  | ringEnable => exact whenRing_effect h
  | ringDisable => exact whenRing_effect h
  | ringReset => cases h; exact .ring s _
  | completionThresholdWrite v => cases h; exact .ring s _
  | completionHoldTimeWrite v => cases h; exact .ring s _
  | attentionMaskWrite v => cases h; exact ⟨s.ring, s, .refl s, rfl⟩
  | interruptAcknowledge v => exact whenRing_effect h
  | fetchBurstEnd rs =>
    simp only [exec, execFetchBurstEnd] at h
    split at h
    · exact whenRing_effect h
    · cases h
  | fetchError =>
    simp only [exec, execFetchError] at h
    split at h
    · cases h; exact .ringError s _
    · cases h; exact .refl s
  | completionWriteDone => exact whenRing_effect h
  | completionWriteError =>
    simp only [exec, execCompletionWriteError] at h
    split at h
    · cases h; exact .ringError s _
    · cases h; exact .refl s
  | holdTimerExpiry => exact whenRing_effect h
  | enquireSent n => exact when_effect h fun _ => enquireSent_moves s n
  | meterLineSample n l v =>
    simp only [exec, execMeterLineSample] at h
    split at h
    · split at h
      · cases h; exact .moves (.setPort n _ (fun ho => ho.glitchLine l) (Port.glitchLine_steady _ l))
      · cases h; exact .moves (.alike n _ (fun ho => ho.setLine l _ fun _ hx => hx) (Port.setLine_steady _ l _))
    · split at h
      · cases h; exact .moves (s.lineMoved_moves n l v)
      · next hl => cases h; exact .moves (raiseCounter_moves s n l v hl)

theorem Effect.tablesOk {s t : State} {w v : Bool} (h : Effect s t w v) (ht : s.TablesOk) : t.TablesOk := by
  obtain ⟨r, u, hm, e⟩ := h
  have hu := hm.tablesOk (ht.of_eq rfl rfl rfl rfl rfl)
  rw [e]; exact hu.of_eq rfl rfl rfl rfl rfl

theorem Effect.portsOk {s t : State} {w v : Bool} (h : Effect s t w v) (hp : s.PortsOk) : t.PortsOk := by
  obtain ⟨r, u, hm, e⟩ := h
  have hu := hm.portsOk (s := { s with ring := r }) hp
  rw [e]; exact hu

theorem Effect.agrees {s t : State} {w v : Bool} (h : Effect s t w v) (hp : s.PortsOk) (ha : s.Agrees) : t.Agrees := by
  obtain ⟨r, u, hm, e⟩ := h
  have hu := hm.agrees (s := { s with ring := r }) hp ha
  rw [e]; exact hu

theorem Effect.ahead {s t : State} {w v : Bool} (h : Effect s t w v) (ha : s.Ahead) : t.Ahead := by
  obtain ⟨r, u, hm, e⟩ := h
  have hu := hm.ahead (s := { s with ring := r }) ha
  rw [e]; exact hu

theorem Effect.oneActive {s t : State} {w v : Bool} (h : Effect s t w v) (ha : s.OneActive) : t.OneActive := by
  obtain ⟨r, u, hm, e⟩ := h
  have hu := hm.oneActive (s := { s with ring := r }) ha
  rw [e]; exact hu

/-- Every command but POWER_ON leaves the queue as it finds it. -/
theorem Effect.pending {s t : State} {w v : Bool} (h : Effect s t w v) : t.pending = s.pending := by
  obtain ⟨r, u, hm, e⟩ := h
  rw [e]; exact hm.beside.2.2

end Sys2Proof.Machine
end

