-- ==== Sys2Proof/Laws/Memory.lean ====
section
/-! SUPPORT. The direction memory and the frames (R67, R87): what a command without a publication, a change of
depot time and a computation make of every port's held setpoint, direction memory and frames. -/

namespace Sys2Proof.Machine

open Sys2Proof

/-! ### Commands without a publication -/

theorem Effect.falls {s t : State} (h : Effect s t true true) (ho : s.PortsOk) (hr : s.Recalls) (n : PortNo) :
    (s.port n).HeldFalls s.now (t.port n) := by
  obtain ⟨r, u, hm, e⟩ := h
  have hu := hm.falls (s := { s with ring := r }) rfl rfl ho hr n
  rw [e]; exact hu

/-- Every command but POWER_ON, those that publish and those that change depot time. -/
theorem exec_falls {i : Instr} {s t : State} (hp : ∀ l, i ≠ .powerOn l) (hk : keepsTime i = true)
    (hq : publishes i = false) (ht : s.TablesOk) (ho : s.PortsOk) (hr : s.Recalls) (h : exec i s = .next t)
    (n : PortNo) : (s.port n).HeldFalls s.now (t.port n) := by
  have e := exec_effect hp ht h
  rw [hk, hq] at e
  exact e.falls ho hr n

/-! ### Changes of depot time -/

/-- A change of the clock alone leaves every port record. -/
theorem State.port_of_ports {s t : State} (h : t.ports = s.ports) (n : PortNo) : t.port n = s.port n := by
  unfold State.port; rw [h]

theorem State.registerBoundary_ports (s : State) : s.registerBoundary.ports = s.ports := by
  unfold State.registerBoundary; split
  · rw [State.register_eq]
  · rfl

theorem State.settleCrossings_falls (s : State) (ho : s.PortsOk) (hr : s.Recalls) (n : PortNo) :
    (s.port n).HeldFalls s.now (s.settleCrossings.port n) := s.settleCrossings_moves.falls rfl rfl ho hr n

theorem State.advanceSecond_falls (s : State) (ho : s.PortsOk) (hr : s.Recalls) (n : PortNo) :
    (s.port n).HeldFalls s.now (s.advanceSecond.port n) := by
  have h := s.settleCrossings_falls ho hr n
  unfold State.advanceSecond
  dsimp only
  split <;> exact h

/-- Crossings handed over after a change of depot time. -/
theorem State.crossings_falls {s u : State} (hu : u.ports = s.ports) (ho : s.PortsOk) (hr : s.Recalls)
    (n : PortNo) : (s.port n).HeldFalls u.now (u.settleCrossings.port n) ∧ u.settleCrossings.now = u.now := by
  refine ⟨?_, u.settleCrossings_moves.now rfl⟩
  rw [← State.port_of_ports hu n]
  exact u.settleCrossings_falls (fun m => by rw [State.port_of_ports hu]; exact ho m)
    (fun m => by rw [State.port_of_ports hu]; exact hr m) n

/-- R2, R4: SET_TIME hands crossings over before its change of depot time, after it, or both. -/
theorem applySetTime_falls (s : State) (v : Word) (ho : s.PortsOk) (hr : s.Recalls) (n : PortNo) :
    (s.port n).HeldFalls s.now ((applySetTime v s).state.port n)
    ∨ (s.port n).HeldFalls (applySetTime v s).state.now ((applySetTime v s).state.port n) := by
  unfold applySetTime
  dsimp only
  split
  · right
    obtain ⟨h, hn⟩ := State.crossings_falls (s := s) (u := State.fire (fun r => decide (r.time ≤ v.toNat))
      { s.setDepotTime v.toNat with clock := { (s.setDepotTime v.toNat).clock with
          mode := .set, day := dayFormula v.toNat s.site.live.rolloverOffset } }) rfl ho hr n
    show (s.port n).HeldFalls (State.registerBoundary (State.settleCrossings _)).now
      ((State.registerBoundary (State.settleCrossings _)).port n)
    rw [(State.registerBoundary_moves _).now rfl]
    rw [State.port_of_ports (State.registerBoundary_ports _), hn]
    exact h
  · split
    · exact .inl (.refl _ _)
    · split
      · exact .inl (s.settleCrossings_falls ho hr n)
      · split
        · exact .inl (.refl _ _)
        · have h1 := s.settleCrossings_falls ho hr
          have ho' := s.settleCrossings_moves.portsOk ho
          have hr' := s.settleCrossings_moves.recalls rfl rfl ho hr
          obtain ⟨h2, hn⟩ := State.crossings_falls (s := s.settleCrossings)
            (u := State.fire (fun r => decide (r.time ≤ v.toNat)) (s.settleCrossings.setDepotTime v.toNat)) rfl
            ho' hr' n
          by_cases hq : (s.settleCrossings.port n).held.mag = 0
          · exact .inl (((h1 n).then h2).1 hq)
          · right
            have := ((h1 n).then h2).2 hq
            rw [← hn] at this
            exact this

/-! ### Computations -/

/-- A new trickle power changes, of a port record, the session alone (R98). -/
theorem State.reloadTrickle_port (s : State) (o : SiteParams) (n : PortNo) :
    ∃ x, (s.reloadTrickle o).port n = { s.port n with session := x } := by
  unfold State.reloadTrickle; split
  · exact ⟨_, rfl⟩
  · have e : State.port { s with ports := s.ports.map (Port.takeTrickle s.site.live.tricklePower) } n
        = (s.port n).takeTrickle s.site.live.tricklePower := by simp [State.port]
    rw [e]
    unfold Port.takeTrickle
    repeat' split
    all_goals exact ⟨_, rfl⟩

/-- A fold of changes that leave the ports leaves the ports. -/
theorem foldl_ports {α : Type} (f : State → α → State) (h : ∀ s x, (f s x).ports = s.ports) (l : List α) (s : State) :
    (l.foldl f s).ports = s.ports := by
  induction l generalizing s with
  | nil => rfl
  | cons x l ih => exact (ih (f s x)).trans (h s x)

theorem State.reloadLockout_ports (s : State) (o : SiteParams) : (s.reloadLockout o).ports = s.ports := by
  unfold State.reloadLockout; split
  · rfl
  · exact foldl_ports _ (fun t x => by rw [(t.reloadLockoutPoint_onlyRegs x.1 x.2).rest]) _ s

theorem State.reloadArmLead_ports (s : State) (o : SiteParams) : (s.reloadArmLead o).ports = s.ports := by
  unfold State.reloadArmLead; split
  · rfl
  · refine foldl_ports _ (fun t x => ?_) _ s
    split
    · unfold State.reloadArmPoint State.modCommit
      dsimp only
      repeat' split
      all_goals first | rfl | (rw [State.register_eq]; rw [State.register_eq]; rfl)
    · rfl

theorem State.reloadOffset_ports (s : State) (o : SiteParams) : (s.reloadOffset o).ports = s.ports := by
  unfold State.reloadOffset; dsimp only; split
  · rfl
  · rw [State.registerBoundary_ports]; split <;> rfl

/-- A load changes, of a port record, the session alone (R98). -/
theorem State.load_port (s : State) (n : PortNo) : ∃ x, s.load.port n = { s.port n with session := x } := by
  obtain ⟨x, hx⟩ := (s.copyStaged.reloadOffset s.site.live).reloadTrickle_port s.site.live n
  refine ⟨x, ?_⟩
  unfold State.load
  rw [State.port_of_ports (State.reloadArmLead_ports _ _), State.port_of_ports (State.reloadLockout_ports _ _), hx,
    State.port_of_ports (State.reloadOffset_ports _ _)]
  rfl

theorem State.prepared_port (s : State) (n : PortNo) :
    ∃ x, s.prepared.port n = { s.port n with session := x } := by
  obtain ⟨x, hx⟩ := s.load_port n
  refine ⟨x, ?_⟩
  show s.load.takeBase.port n = _
  rw [← hx]
  unfold State.takeBase
  dsimp only
  split <;> rfl

theorem State.compute_port (s : State) (n : PortNo) : s.compute.port n = Port.settle s.prepared.env
    (s.prepared.port n) { (s.prepared.port n).publish s.prepared.protection.latch
      (s.prepared.portResult s.prepared.work n).published with
      residue := s.prepared.newResidue s.prepared.work n } := by
  show (Vector.ofFn fun m : PortNo => _)[n] = _
  simp [State.port]

/-- What a publication writes besides settle: none of the fields that settle keeps. -/
theorem Port.publish_beside (l : Bool) (x : Setpoint) (p : Port) : (p.publish l x).lastDir = p.lastDir
    ∧ (p.publish l x).zeroSince = p.zeroSince ∧ (p.publish l x).number = p.number
    ∧ (p.publish l x).frameCount = p.frameCount ∧ (p.publish l x).frameTimer = p.frameTimer
    ∧ (p.publish l x).lastFrame = p.lastFrame := by
  unfold Port.publish
  split
  · split
    · dsimp only; split <;> exact ⟨rfl, rfl, rfl, rfl, rfl, rfl⟩
    · exact ⟨rfl, rfl, rfl, rfl, rfl, rfl⟩
  all_goals exact ⟨rfl, rfl, rfl, rfl, rfl, rfl⟩

theorem Port.Published.refl (now : Nat) (p : Port) : p.Published now p :=
  ⟨fun _ => ⟨rfl, rfl⟩, fun h => absurd rfl h, fun h k => absurd h k, fun _ _ => ⟨rfl, rfl⟩,
    fun _ => ⟨rfl, rfl, rfl⟩, fun h => absurd rfl h⟩

/-- R67, R87: a computation is a publication at every port. -/
theorem State.compute_published (s : State) (n : PortNo) : (s.port n).Published s.now (s.compute.port n) := by
  obtain ⟨x, hx⟩ := s.prepared_port n
  have hn : s.prepared.now = s.now := s.prepared_moves.now rfl
  rw [State.compute_port]
  obtain ⟨b1, b2, b3, b4, b5, b6⟩ := Port.publish_beside s.prepared.protection.latch
    (s.prepared.portResult s.prepared.work n).published (s.prepared.port n)
  have h := Port.settle_published s.prepared.env (s.prepared.port n)
    { (s.prepared.port n).publish s.prepared.protection.latch
      (s.prepared.portResult s.prepared.work n).published with
      residue := s.prepared.newResidue s.prepared.work n } b1 b2 b3 b4 b5 b6
  generalize Port.settle s.prepared.env _ _ = q at h ⊢
  rw [show s.prepared.env.now = s.now from hn, hx] at h
  exact ⟨h.same, h.moves, h.falls, h.zero, h.quiet, h.frame⟩

theorem State.startEngine_published (s : State) (n : PortNo) :
    (s.port n).Published s.now (s.startEngine.port n) := by
  unfold State.startEngine
  have h := State.compute_published (State.superviseAs .supervised
    (State.supervisionStart { s with engine := { s.engine with running := true } })
    { s with engine := { s.engine with running := true } }) n
  have e : (State.superviseAs .supervised
      (State.supervisionStart { s with engine := { s.engine with running := true } })
      { s with engine := { s.engine with running := true } }).port n = s.port n := by
    unfold State.superviseAs; dsimp only; split <;> rfl
  have e2 : (State.superviseAs .supervised
      (State.supervisionStart { s with engine := { s.engine with running := true } })
      { s with engine := { s.engine with running := true } }).now = s.now := by
    unfold State.superviseAs; dsimp only; split <;> rfl
  rw [e, e2] at h
  exact h

end Sys2Proof.Machine
end

