-- ==== Sys2Proof/Laws/Orders.lean ====
section
/-! SUPPORT. Insertion sort, the clock's hand-over order, and the free slot of a table. -/

namespace Sys2Proof.Machine

open Sys2Proof

theorem insertBy_perm {α : Type} (le : α → α → Bool) (x : α) (l : List α) :
    (insertBy le x l).Perm (x :: l) := by
  induction l with
  | nil => exact .refl _
  | cons y ys ih =>
    unfold insertBy; split
    · exact (List.Perm.cons y ih).trans (List.Perm.swap x y ys)
    · exact .refl _

/-- A sorted list holds what it was sorted from. -/
theorem sortBy_perm {α : Type} (le : α → α → Bool) (xs : List α) : (sortBy le xs).Perm xs := by
  have : ∀ (xs acc : List α), (xs.foldl (fun acc x => insertBy le x acc) acc).Perm (xs ++ acc) := by
    intro xs; induction xs with
    | nil => intro acc; exact .refl _
    | cons x xs ih =>
      intro acc
      exact (ih _).trans ((List.Perm.append_left xs (insertBy_perm le x acc)).trans List.perm_middle)
  simpa [sortBy] using this xs []

theorem insertBy_sorted {α : Type} (le : α → α → Bool) (tot : ∀ a b, le a b = true ∨ le b a = true)
    (tr : ∀ a b c, le a b = true → le b c = true → le a c = true) (x : α) (l : List α)
    (h : l.Pairwise fun a b => le a b = true) : (insertBy le x l).Pairwise fun a b => le a b = true := by
  induction l with
  | nil => simp [insertBy]
  | cons y ys ih =>
    rw [List.pairwise_cons] at h
    unfold insertBy; split
    · next hle =>
      rw [List.pairwise_cons]
      refine ⟨fun z hz => ?_, ih h.2⟩
      rcases List.mem_cons.mp ((insertBy_perm le x ys).mem_iff.mp hz) with rfl | hz
      · exact hle
      · exact h.1 z hz
    · next hle =>
      have hxy : le x y = true := (tot x y).resolve_right (by simpa using hle)
      rw [List.pairwise_cons, List.pairwise_cons]
      refine ⟨fun z hz => ?_, h⟩
      rcases List.mem_cons.mp hz with rfl | hz
      · exact hxy
      · exact tr _ _ _ hxy (h.1 z hz)

/-- A sorted list is in order, when the order is total and transitive. -/
theorem sortBy_sorted {α : Type} (le : α → α → Bool) (tot : ∀ a b, le a b = true ∨ le b a = true)
    (tr : ∀ a b c, le a b = true → le b c = true → le a c = true) (xs : List α) :
    (sortBy le xs).Pairwise fun a b => le a b = true := by
  have : ∀ (xs acc : List α), (acc.Pairwise fun a b => le a b = true) →
      (xs.foldl (fun acc x => insertBy le x acc) acc).Pairwise fun a b => le a b = true := by
    intro xs; induction xs with
    | nil => intro acc h; exact h
    | cons x xs ih => intro acc h; exact ih _ (insertBy_sorted le tot tr x acc h)
  exact this xs [] .nil

/-- Among elements that the order does not separate, an insertion comes last. -/
theorem insertBy_filter {α : Type} (le : α → α → Bool) (p : α → Bool)
    (tr : ∀ a b c, le a b = true → le b c = true → le a c = true)
    (same : ∀ a b, p a = true → p b = true → le a b = true) (x : α) (l : List α)
    (h : l.Pairwise fun a b => le a b = true) :
    (insertBy le x l).filter p = l.filter p ++ [x].filter p := by
  induction l with
  | nil => rfl
  | cons y ys ih =>
    rw [List.pairwise_cons] at h
    unfold insertBy; split
    · simp only [List.filter_cons, ih h.2]; split <;> rfl
    · next hle =>
      by_cases hx : p x = true
      · have none : ∀ z ∈ y :: ys, ¬ p z = true := by
          intro z hz hp
          rcases List.mem_cons.mp hz with rfl | hz
          · exact hle (same _ _ hp hx)
          · exact hle (tr _ _ _ (h.1 z hz) (same _ _ hp hx))
        rw [List.filter_cons_of_pos hx, List.filter_eq_nil_iff.mpr none, List.filter_cons_of_pos hx]; rfl
      · rw [List.filter_cons_of_neg hx, List.filter_cons_of_neg hx]; simp

/-- Sorting keeps the order of elements that the order does not separate. -/
theorem sortBy_filter {α : Type} (le : α → α → Bool) (p : α → Bool)
    (tot : ∀ a b, le a b = true ∨ le b a = true)
    (tr : ∀ a b c, le a b = true → le b c = true → le a c = true)
    (same : ∀ a b, p a = true → p b = true → le a b = true) (xs : List α) :
    (sortBy le xs).filter p = xs.filter p := by
  have : ∀ (xs acc : List α), (acc.Pairwise fun a b => le a b = true) →
      (xs.foldl (fun acc x => insertBy le x acc) acc).filter p = acc.filter p ++ xs.filter p := by
    intro xs; induction xs with
    | nil => intro acc _; simp
    | cons x xs ih =>
      intro acc h
      rw [List.foldl_cons, ih _ (insertBy_sorted le tot tr x acc h), insertBy_filter le p tr same x acc h,
        List.append_assoc, ← List.filter_append]; rfl
  simpa [sortBy] using this xs [] .nil

theorem handOverBefore_total (a b : Registration) :
    handOverBefore a b = true ∨ handOverBefore b a = true := by
  unfold handOverBefore
  by_cases h : a.kind.owner = b.kind.owner
  · by_cases h2 : a.time = b.time
    · simp [h, h2]; omega
    · have : ¬ b.time = a.time := fun e => h2 e.symm
      simp [h, h2, this]
  · have : ¬ b.kind.owner = a.kind.owner := fun e => h e.symm
    simp [h, this]

theorem handOverBefore_trans (a b c : Registration) (h1 : handOverBefore a b = true)
    (h2 : handOverBefore b c = true) : handOverBefore a c = true := by
  revert h1 h2
  unfold handOverBefore
  split <;> split <;> split <;> (try split) <;> (try split) <;> (try split) <;> simp_all <;> omega

/-- A free slot below which every slot is in use is the first free one. -/
theorem Table.firstFree_eq {α : Type} {t : Table α} {n k : Nat} (hk : k < n) (hf : t.get k = none)
    (hl : ∀ j, j < k → (t.get j).isSome) : t.firstFree n = some k := by
  unfold Table.firstFree
  rw [List.find?_range_eq_some]
  refine ⟨by simp [hf], by simpa using hk, fun j hj => ?_⟩
  have := hl j hj
  cases hg : t.get j <;> simp_all

/-- A table whose slots are all in use has no free one. -/
theorem Table.firstFree_full {α : Type} {t : Table α} {n : Nat} (h : ∀ j, j < n → (t.get j).isSome) :
    t.firstFree n = none := by
  unfold Table.firstFree
  rw [List.find?_eq_none]
  intro j hj
  have := h j (by simpa using hj)
  cases hg : t.get j <;> simp_all

end Sys2Proof.Machine
end

