-- ==== Sys2Proof/Laws/PerInstr.lean ====
section
/-! SUPPORT. RequestKind, constructor by constructor: a request's command carries its request whole. -/

namespace Sys2Proof.Laws.RequestKind

open Sys2Proof Sys2Proof.Machine

/-- R188, R194: a request's command is a command of the table exactly when its request is one that can be
fetched, and a request of a known kind has a kind number of 1 to 33. -/
def Statement (i : Instr) : Prop := ∀ q, i.request = some q →
  i.wellFormed = q.body.wellFormed
  ∧ ((∀ k, q.body ≠ .unknownKind k) → 1 ≤ q.body.kind.toNat ∧ q.body.kind.toNat ≤ 33)
  ∧ (∀ k, q.body = .unknownKind k → i.wellFormed = true → q.body.kind.toNat = 0 ∨ 33 < q.body.kind.toNat)

/-- A command of an event has no request. -/
theorem Statement.of_none {i : Instr} (h : i.request = none) : Statement i := by
  intro q hq; rw [h] at hq; exact absurd hq (by simp)

/-- A command of a request of a known kind. -/
theorem Statement.of_known {i : Instr} {h : ReqHeader} {b : ReqBody} (hi : i.request = some ⟨h, b⟩)
    (hw : i.wellFormed = b.wellFormed) (hk : ∀ k, b ≠ .unknownKind k)
    (hn : 1 ≤ b.kind.toNat ∧ b.kind.toNat ≤ 33) : Statement i := by
  intro q hq
  obtain rfl : (⟨h, b⟩ : Request) = q := Option.some.inj (hi.symm.trans hq)
  exact ⟨hw, fun _ => hn, fun k e => absurd e (hk k)⟩

theorem powerOn (lines : LineLevels) : Statement (.powerOn lines) := .of_none rfl

theorem depotTimeAdvance : Statement .depotTimeAdvance := .of_none rfl

theorem rolloverCrossing : Statement .rolloverCrossing := .of_none rfl

theorem notBeforeCrossing (slot : PlanSlot) : Statement (.notBeforeCrossing slot) := .of_none rfl

theorem holdUntilCrossing (slot : PlanSlot) : Statement (.holdUntilCrossing slot) := .of_none rfl

theorem endByCrossing (slot : PlanSlot) : Statement (.endByCrossing slot) := .of_none rfl

theorem departureCrossing (slot : BusSlot) : Statement (.departureCrossing slot) := .of_none rfl

theorem lockoutPointCrossing (slot : BusSlot) : Statement (.lockoutPointCrossing slot) := .of_none rfl

theorem armPointCrossing (slot : CommitSlot) : Statement (.armPointCrossing slot) := .of_none rfl

theorem windowStartCrossing (slot : CommitSlot) : Statement (.windowStartCrossing slot) := .of_none rfl

theorem windowEndCrossing (slot : CommitSlot) : Statement (.windowEndCrossing slot) := .of_none rfl

theorem setTime (h : ReqHeader) (v : Word) : Statement (.setTime h v) :=
  .of_known rfl rfl (fun _ => by simp) (by simp [ReqBody.kind])

theorem siteConfigure (h : ReqHeader) (f : SitePatch) : Statement (.siteConfigure h f) :=
  .of_known rfl rfl (fun _ => by simp) (by simp [ReqBody.kind])

theorem siteLoadReport (h : ReqHeader) (watts : Word) : Statement (.siteLoadReport h watts) :=
  .of_known rfl rfl (fun _ => by simp) (by simp [ReqBody.kind])

theorem siteLookup (h : ReqHeader) (selector : Byte) (port : Word) : Statement (.siteLookup h selector port) :=
  .of_known rfl rfl (fun _ => by simp) (by simp [ReqBody.kind])

theorem busEnrol (h : ReqHeader) (p : BusEnrolPayload) : Statement (.busEnrol h p) :=
  .of_known rfl rfl (fun _ => by simp) (by simp [ReqBody.kind])

theorem busChange (h : ReqHeader) (p : BusPatch) : Statement (.busChange h p) :=
  .of_known rfl rfl (fun _ => by simp) (by simp [ReqBody.kind])

theorem busRetire (h : ReqHeader) : Statement (.busRetire h) :=
  .of_known rfl rfl (fun _ => by simp) (by simp [ReqBody.kind])

theorem busLookup (h : ReqHeader) : Statement (.busLookup h) :=
  .of_known rfl rfl (fun _ => by simp) (by simp [ReqBody.kind])

theorem busPlans (h : ReqHeader) : Statement (.busPlans h) :=
  .of_known rfl rfl (fun _ => by simp) (by simp [ReqBody.kind])

theorem busUnblock (h : ReqHeader) : Statement (.busUnblock h) :=
  .of_known rfl rfl (fun _ => by simp) (by simp [ReqBody.kind])

theorem departureSet (h : ReqHeader) (tDep eReq : Word) (route : Half) : Statement (.departureSet h tDep eReq route) :=
  .of_known rfl rfl (fun _ => by simp) (by simp [ReqBody.kind])

theorem departureClear (h : ReqHeader) : Statement (.departureClear h) :=
  .of_known rfl rfl (fun _ => by simp) (by simp [ReqBody.kind])

theorem planSubmit (h : ReqHeader) (s1 s2 s3 s4 : RawStep) : Statement (.planSubmit h s1 s2 s3 s4) :=
  .of_known rfl rfl (fun _ => by simp) (by simp [ReqBody.kind])

theorem planCancel (h : ReqHeader) : Statement (.planCancel h) :=
  .of_known rfl rfl (fun _ => by simp) (by simp [ReqBody.kind])

theorem planRetire (h : ReqHeader) : Statement (.planRetire h) :=
  .of_known rfl rfl (fun _ => by simp) (by simp [ReqBody.kind])

theorem planLookup (h : ReqHeader) : Statement (.planLookup h) :=
  .of_known rfl rfl (fun _ => by simp) (by simp [ReqBody.kind])

theorem portGo (h : ReqHeader) (port : Word) (target : Byte) : Statement (.portGo h port target) :=
  .of_known rfl rfl (fun _ => by simp) (by simp [ReqBody.kind])

theorem portCancel (h : ReqHeader) (port : Word) : Statement (.portCancel h port) :=
  .of_known rfl rfl (fun _ => by simp) (by simp [ReqBody.kind])

theorem portConfigure (h : ReqHeader) (port : Word) (p : PortPatch) : Statement (.portConfigure h port p) :=
  .of_known rfl rfl (fun _ => by simp) (by simp [ReqBody.kind])

theorem portLookup (h : ReqHeader) (port : Word) : Statement (.portLookup h port) :=
  .of_known rfl rfl (fun _ => by simp) (by simp [ReqBody.kind])

theorem allocStart (h : ReqHeader) : Statement (.allocStart h) :=
  .of_known rfl rfl (fun _ => by simp) (by simp [ReqBody.kind])

theorem allocStop (h : ReqHeader) : Statement (.allocStop h) :=
  .of_known rfl rfl (fun _ => by simp) (by simp [ReqBody.kind])

theorem allocLookup (h : ReqHeader) (selector : Byte) (port : Word) : Statement (.allocLookup h selector port) :=
  .of_known rfl rfl (fun _ => by simp) (by simp [ReqBody.kind])

theorem commitOffer (h : ReqHeader) (windowStart windowEnd target tolerance : Word) : Statement (.commitOffer h windowStart windowEnd target tolerance) :=
  .of_known rfl rfl (fun _ => by simp) (by simp [ReqBody.kind])

theorem commitWithdraw (h : ReqHeader) : Statement (.commitWithdraw h) :=
  .of_known rfl rfl (fun _ => by simp) (by simp [ReqBody.kind])

theorem commitDispatch (h : ReqHeader) : Statement (.commitDispatch h) :=
  .of_known rfl rfl (fun _ => by simp) (by simp [ReqBody.kind])

theorem commitRelease (h : ReqHeader) : Statement (.commitRelease h) :=
  .of_known rfl rfl (fun _ => by simp) (by simp [ReqBody.kind])

theorem commitLookup (h : ReqHeader) : Statement (.commitLookup h) :=
  .of_known rfl rfl (fun _ => by simp) (by simp [ReqBody.kind])

theorem commitRetire (h : ReqHeader) : Statement (.commitRetire h) :=
  .of_known rfl rfl (fun _ => by simp) (by simp [ReqBody.kind])

theorem clearTrip (h : ReqHeader) : Statement (.clearTrip h) :=
  .of_known rfl rfl (fun _ => by simp) (by simp [ReqBody.kind])

theorem keepalive (h : ReqHeader) : Statement (.keepalive h) :=
  .of_known rfl rfl (fun _ => by simp) (by simp [ReqBody.kind])

theorem attentionScan (h : ReqHeader) : Statement (.attentionScan h) :=
  .of_known rfl rfl (fun _ => by simp) (by simp [ReqBody.kind])

theorem attentionClear (h : ReqHeader) (category : Byte) (flags : Word) : Statement (.attentionClear h category flags) :=
  .of_known rfl rfl (fun _ => by simp) (by simp [ReqBody.kind])

theorem unknownKind (h : ReqHeader) (kind : Byte) : Statement (.unknownKind h kind) := by
  intro q hq
  obtain rfl : (⟨h, .unknownKind kind⟩ : Request) = q := Option.some.inj hq
  refine ⟨rfl, fun e => absurd rfl (e kind), fun k e hw => ?_⟩
  have : (kind.toNat == 0 || decide (33 < kind.toNat)) = true := hw
  simpa [ReqBody.kind] using this

theorem allocationComputation : Statement .allocationComputation := .of_none rfl

theorem pilotLevelTaken (port : PortNo) (level : PilotLevel) : Statement (.pilotLevelTaken port level) := .of_none rfl

theorem settlingEnd (port : PortNo) : Statement (.settlingEnd port) := .of_none rfl

theorem debounceEnd (port : PortNo) : Statement (.debounceEnd port) := .of_none rfl

theorem answerTimerExpiry (port : PortNo) : Statement (.answerTimerExpiry port) := .of_none rfl

theorem announce (port : PortNo) (m : Announce) : Statement (.announce port m) := .of_none rfl

theorem limit (port : PortNo) (maxImport maxExport : Word) : Statement (.limit port maxImport maxExport) := .of_none rfl

theorem faultReport (port : PortNo) (code : Byte) : Statement (.faultReport port code) := .of_none rfl

theorem messageCheckFailure (port : PortNo) : Statement (.messageCheckFailure port) := .of_none rfl

theorem unknownTypeDiscard (port : PortNo) : Statement (.unknownTypeDiscard port) := .of_none rfl

theorem feedbackTaken (port : PortNo) (level : Contact) : Statement (.feedbackTaken port level) := .of_none rfl

theorem confirmationTimeout (port : PortNo) : Statement (.confirmationTimeout port) := .of_none rfl

theorem openDelayExpiry (port : PortNo) : Statement (.openDelayExpiry port) := .of_none rfl

theorem weldTimerExpiry (port : PortNo) : Statement (.weldTimerExpiry port) := .of_none rfl

theorem quietTimerExpiry (port : PortNo) : Statement (.quietTimerExpiry port) := .of_none rfl

theorem limitTimerExpiry (port : PortNo) : Statement (.limitTimerExpiry port) := .of_none rfl

theorem setpointFrameRepeat (port : PortNo) : Statement (.setpointFrameRepeat port) := .of_none rfl

theorem filteredTransition (port : PortNo) (moved : MovedLines) : Statement (.filteredTransition port moved) := .of_none rfl

theorem lineFilterGlitch (port : PortNo) (line : MeterLine) : Statement (.lineFilterGlitch port line) := .of_none rfl

theorem stallTimerExpiry (port : PortNo) : Statement (.stallTimerExpiry port) := .of_none rfl

theorem siteTripAssertion : Statement .siteTripAssertion := .of_none rfl

theorem siteTripDeassertion : Statement .siteTripDeassertion := .of_none rfl

theorem gridDispatchRisingEdge : Statement .gridDispatchRisingEdge := .of_none rfl

theorem gridDispatchFallingEdge : Statement .gridDispatchFallingEdge := .of_none rfl

theorem supervisionTimerExpiry : Statement .supervisionTimerExpiry := .of_none rfl

theorem requestWritePointerWrite (v : Word) : Statement (.requestWritePointerWrite v) := .of_none rfl

theorem completionReadPointerWrite (v : Word) : Statement (.completionReadPointerWrite v) := .of_none rfl

theorem ringBaseWrite (ring : RingId) (addr : Addr) : Statement (.ringBaseWrite ring addr) := .of_none rfl

theorem ringSizeWrite (ring : RingId) (entries : Word) : Statement (.ringSizeWrite ring entries) := .of_none rfl

theorem ringEnable : Statement .ringEnable := .of_none rfl

theorem ringDisable : Statement .ringDisable := .of_none rfl

theorem ringReset : Statement .ringReset := .of_none rfl

theorem completionThresholdWrite (v : Word) : Statement (.completionThresholdWrite v) := .of_none rfl

theorem completionHoldTimeWrite (v : Word) : Statement (.completionHoldTimeWrite v) := .of_none rfl

theorem attentionMaskWrite (v : Word) : Statement (.attentionMaskWrite v) := .of_none rfl

theorem interruptAcknowledge (v : Word) : Statement (.interruptAcknowledge v) := .of_none rfl

theorem fetchBurstEnd (requests : List Request) : Statement (.fetchBurstEnd requests) := .of_none rfl

theorem fetchError : Statement .fetchError := .of_none rfl

theorem completionWriteDone : Statement .completionWriteDone := .of_none rfl

theorem completionWriteError : Statement .completionWriteError := .of_none rfl

theorem holdTimerExpiry : Statement .holdTimerExpiry := .of_none rfl

theorem enquireSent (port : PortNo) : Statement (.enquireSent port) := .of_none rfl

theorem meterLineSample (port : PortNo) (line : MeterLine) (level : Level) : Statement (.meterLineSample port line level) := .of_none rfl

end Sys2Proof.Laws.RequestKind
end

