-- ==== Sys2Proof/Laws/Requests.lean ====
section
/-! SUPPORT. A request's command, taken or waiting; operand reads; crossings that are due; lookups. -/

namespace Sys2Proof.Machine

open Sys2Proof

/-- A request that cannot be taken changes nothing. -/
theorem takeRequest_waits {q : Request} {act : State → Reply} {s : State} (h : s.takes q = false) :
    takeRequest q act s = .next s := by
  unfold takeRequest; rw [h]; simp

/-- A request that is taken is answered with its block's reply. -/
theorem takeRequest_taken {q : Request} {act : State → Reply} {s : State} (h : s.takes q = true) :
    takeRequest q act s = .next (finishRequest q (act (s.modRing Ring.pop))) := by
  unfold takeRequest; rw [if_pos h]

/-- A request that is taken is answered from the state its block leaves, when that keeps the rings. -/
theorem takeRequest_reply {q : Request} {act : State → Reply} {s : State} (h : s.takes q = true) {r : Reply}
    (he : act (s.modRing Ring.pop) = r) (hr : r.state.ring = s.ring.pop) :
    takeRequest q act s = .next (s.answered q r.state r.status r.result) := by
  rw [takeRequest_taken h, he]
  unfold finishRequest State.answered completionOf State.modRing
  rw [hr]

/-- A request that is taken is answered from u, when its block leaves u beside the rings. -/
theorem takeRequest_answered {q : Request} {act : State → Reply} {s : State} (h : s.takes q = true) (u : State)
    (st : Status) (res : Result) (he : act (s.modRing Ring.pop) = ⟨{ u with ring := s.ring.pop }, st, res⟩) :
    takeRequest q act s = .next (s.answered q u st res) := by
  rw [takeRequest_taken h, he]; rfl

/-- R188: when the executor takes a request. -/
theorem State.takes_iff (s : State) (q : Request) : s.takes q = true ↔
    s.ring.state = .running ∧ s.ring.writing = none ∧ s.ring.completion.full = false
      ∧ s.ring.buffer.head? = some q := by
  unfold State.takes Ring.executorFree
  simp [and_assoc]

theorem State.findBus_none {s : State} {k : Nat} :
    s.findBus k = none ↔ ∀ r ∈ s.buses.rows, r.2.number ≠ k := by
  simp [State.findBus]

/-- R3: the crossing command of a due registration hands it over. -/
theorem takeCrossing_due {s : State} {r : Registration} (h : s.Due r) {k : RegKind} {i : Nat} (hk : r.kind = k)
    (hi : r.slot = i) : takeCrossing k i s = .next ((s.unfire r).handOver r) := by
  subst hk; subst hi
  unfold takeCrossing; rw [show s.nextCrossing r.kind.owner = some r from h]; simp

theorem portOf_eq {w : Word} {n : PortNo} (h : w.toNat = n.val) : portOf w = some n := by
  unfold portOf; rw [dif_pos (by rw [h]; exact n.2)]; congr 1; exact Fin.ext h

theorem portOf_none {w : Word} (h : 23 < w.toNat) : portOf w = none := by
  unfold portOf; rw [dif_neg (by omega)]

theorem targetOf_none {b : Byte} (h : 2 < b.toNat) : targetOf b = none := by
  unfold targetOf
  split <;> first | omega | rfl

end Sys2Proof.Machine
end

