-- ==== Sys2Proof/Tests/Slice0.lean ====
section
/-! SUPPORT. Small checks of the model on fixed values: the ill-formed commands that the check refuses, and
one or two theorems for the commands, each with states that meet the hypotheses of the statements about it,
at the boundaries of their clauses. -/

namespace Sys2Proof.Tests

open Sys2Proof Sys2Proof.Machine

set_option Elab.async false

/-! ### Helpers -/

/-- A header with a key, and flags. -/
def hd (key : Nat) (flags : Nat := 0) : ReqHeader := ⟨7, BitVec.ofNat 8 flags, BitVec.ofNat 32 key⟩

/-- The rings RUNNING with one request at the head of the buffer. -/
def ringWith (q : Request) : Ring :=
  { Ring.powerOn with
    state := .running, enable := true, buffer := [q]
    request := ⟨64, true, 16, 1, 1⟩, completion := ⟨4096, true, 16, 0, 0⟩ }

/-- The state with this request at the head of the buffer. -/
def asked (i : Instr) (s : State) : State :=
  match i.request with
  | some q => { s with ring := ringWith q }
  | none => s

/-- The outcome is a next state that meets a check. -/
def nextWith (o : Host.Outcome State Fault Refusal) (f : State → Bool) : Bool :=
  match o with
  | .next t => f t
  | _ => false

/-- The request's command, taken, completes with this status and leaves a state that meets a check. -/
def gives (i : Instr) (s : State) (st : Status) (f : State → Bool := fun _ => true) : Bool :=
  nextWith (exec i (asked i s)) fun t =>
    decide (t.ring.writing.map (fun w => w.record.status) = some st) && f t

/-- The request's command, taken, completes with this result. -/
def answers (i : Instr) (s : State) (r : Result) : Bool :=
  nextWith (exec i (asked i s)) fun t => decide (t.ring.writing.map (fun w => w.record.result) = some r)

/-- The command leads to a state that meets a check. -/
def leads (i : Instr) (s : State) (f : State → Bool) : Bool := nextWith (exec i s) f

/-- The command is no command of the table. -/
def faults (i : Instr) (s : State) : Bool :=
  match exec i s with
  | .fault .illFormed => true
  | _ => false

/-- The command changes nothing. -/
def still (i : Instr) (s : State) : Bool := nextWith (exec i s) fun t => decide (t = s)

/-- The request's command, taken, is refused with this status and changes nothing but the rings. -/
def refuses (i : Instr) (s : State) (st : Status) : Bool :=
  gives i s st fun t => decide ({ t with ring := s.ring } = s)

/-- The clock SET at a time. -/
def at_ (now : Nat) (s : State := State.reset) : State :=
  { s with clock := { s.clock with mode := .set, time := now } }

def p0 : PortNo := 0

/-- Port 0 changed. -/
def port0 (f : Port → Port) (s : State) : State := { s with ports := s.ports.set 0 (f s.ports[0]) }

/-- The bus record of slot i. -/
def bus (i : Nat) (b : Bus) (s : State) : State := { s with buses := s.buses.put i b }

/-- The plan record of slot i. -/
def plan (i : Nat) (p : Plan) (s : State) : State := { s with plans := s.plans.put i p }

/-- The commitment record of slot i. -/
def commit (i : Nat) (c : Commitment) (s : State) : State := { s with commits := s.commits.put i c }

/-- An enrolled bus, number 7, of 300,000 Wh, half full. -/
def bus7 : Bus :=
  { number := 7, capacity := 300000, importCap := 100000, exportCap := 50000, v2g := true, floor := 30000
    allowance := 100000, exportUsed := 0, soe := some 150000, source := .enrolled, discrepancy := none
    location := none, block := .enabled, faultReason := none, faultTime := none, faultCount := 0
    departure := none, readiness := .none, slack := none, prioList := [], stdList := [], flags := 0 }

/-- A QUEUED plan of bus slot 0. -/
def plan1 (cls : PlanClass) (steps : List PlanStep) : Plan :=
  { generation := 0, busSlot := 0, cls := cls, unblock := false, steps := steps, current := 1, cond := none
    state := .queued, outcome := none, imported := 0, exported := 0, finish := none, final := false }

def toFull : PlanStep := ⟨.importTo, 200000, 50000, none, none⟩
def hold9 : PlanStep := ⟨.holdUntil, 9000, 50000, none, none⟩

/-- An ARMED commitment with its window from 2,000 to 3,000, open. -/
def commit1 : Commitment :=
  { generation := 0, windowStart := 2000, windowEnd := 3000, armPoint := 1100, target := 50000, tolerance := 10
    state := .armed, phase := .opened, headroom := none, headroomLow := false, source := none
    baseline := none, activation := none, periods := 0, shortPeriods := 0, relief := none, delivered := 0
    carry := 0, outcome := none, endTime := none, flags := 1 }

/-- An ACTIVE commitment. -/
def active1 (periods short : Nat) : Commitment :=
  { commit1 with
    state := .active, source := some .line, baseline := some 80000, activation := some 2000
    periods := periods, shortPeriods := short }

/-- A bound session of bus slot 0. -/
def session0 : Session := ⟨.bound 0, 100, some ⟨120000, 40000, true⟩, 100000, 40000⟩

/-- Port 0 in a session with bus 7, in a state, with a setpoint. -/
def inSession (st : PortState) (sp : Setpoint) (s : State) : State :=
  bus 0 { bus7 with location := some 0 } (port0 (fun p => { p with
    state := st, session := some session0, held := sp, taken := .ready, pilotLine := .ready
    lastDir := sp.dir
    command := if st.powered then .closed else .opened
    feedback := if st = .energized then .closed else .opened }) s)

/-- The engine RUNNING with its timer and supervision started. -/
def engineOn (s : State) : State :=
  { s with engine := { s.engine with running := true, timer := .running 5000 5000, number := 3 }
           supervision := ⟨.supervised, .running 30000 0⟩ }

/-- Ratings of 150,000 W import and 60,000 W export at every port, a feeder limit, no base load. -/
def ratedTo (feeder : Nat) (s : State) : State :=
  let r : Vector Ratings 24 := Vector.replicate 24 ⟨150000, 60000⟩
  let p : SiteParams := { SiteParams.powerOn with feederLimit := feeder, fallbackBase := 0 }
  { s with site := { s.site with staged := p, live := p, stagedRatings := r, liveRatings := r } }

/-- The same with a feeder of 1,000,000 W. -/
def rated (s : State) : State := ratedTo 1000000 s

/-- Port n ENERGIZED at a setpoint of 0 in a session with the bus of slot i. -/
def seat (n : PortNo) (i : Nat) (b : Bus) (s : State) : State :=
  bus i { b with location := some n } { s with ports := s.ports.set n { s.port n with
    state := .energized, session := some { session0 with binding := .bound i }, taken := .ready
    pilotLine := .ready, command := .closed, feedback := .closed, openDelay := .running 60000 0 } }

/-- The plan of slot i, of a bus, RUNNING its first step in step condition ACTIVE. -/
def runs (i busSlot : Nat) (cls : PlanClass) (st : PlanStep) (s : State) : State :=
  plan i { plan1 cls [st] with busSlot := busSlot, state := .running, cond := some .active } s

/-! ### Ill-formed commands -/

theorem illFormed_unknownKind_known : (Instr.unknownKind (hd 0) 5).wellFormed = false := by decide
theorem illFormed_unknownKind_top : (Instr.unknownKind (hd 0) 33).wellFormed = false := by decide
theorem wellFormed_unknownKind_zero : (Instr.unknownKind (hd 0) 0).wellFormed = true := by decide
theorem wellFormed_unknownKind_above : (Instr.unknownKind (hd 0) 34).wellFormed = true := by decide
theorem illFormed_burst_empty : (Instr.fetchBurstEnd []).wellFormed = false := by decide
theorem illFormed_burst_long :
    (Instr.fetchBurstEnd (List.replicate 13 ⟨hd 0, .keepalive⟩)).wellFormed = false := by decide
theorem illFormed_burst_request :
    (Instr.fetchBurstEnd [⟨hd 0, .keepalive⟩, ⟨hd 0, .unknownKind 1⟩]).wellFormed = false := by decide
theorem wellFormed_burst :
    (Instr.fetchBurstEnd (List.replicate 12 ⟨hd 0, .keepalive⟩)).wellFormed = true := by decide

/-! ### Steps and the executor -/

theorem test_step_front :
    nextWith (step { State.reset with pending := [.attentionMaskWrite 255, .ringReset] })
      (fun t => decide (t.mask = 31 ∧ t.pending = [.ringReset])) = true := by decide +kernel

theorem test_step_idle :
    nextWith (step (at_ 5)) (fun t => decide (t.clock.phase = 1 ∧ t.now = 5)) = true := by decide +kernel

/-- A taken request, and the three ways in which the executor waits. -/
theorem test_executor :
    (gives (.keepalive (hd 0)) State.reset .ok (fun t => decide (t.ring.buffer = [])) = true)
    ∧ still (.keepalive (hd 0)) State.reset = true
    ∧ (let s := asked (.keepalive (hd 0)) State.reset
       still (.keepalive (hd 1)) s = true
       ∧ still (.keepalive (hd 0)) { s with ring := { s.ring with
          completion := { s.ring.completion with write := 15 } } } = true
       ∧ still (.keepalive (hd 0)) { s with ring := { s.ring with
          writing := some ⟨0, ⟨0, 31, .ok, 0, .none⟩⟩ } } = true) := by decide +kernel

theorem test_unknownKind :
    (gives (.unknownKind (hd 0) 34) State.reset .unknownKind = true)
    ∧ (gives (.unknownKind (hd 0) 0) State.reset .unknownKind = true)
    ∧ faults (.unknownKind (hd 0) 33) State.reset = true := by decide +kernel

theorem test_powerOn :
    leads (.powerOn ⟨true, false, Vector.replicate 24 (.high, .low)⟩) { State.reset with pending := [.ringReset] }
      (fun t => decide (t.siteFlags = 2 ∧ t.protection = ⟨true, true⟩ ∧ t.pending = [.ringReset]
        ∧ (t.port 23).ma.output = .high)) = true := by decide +kernel

/-! ### Depot time -/

/-- SET at a time, with the second over. -/
def secondOver (now : Nat) : State := { at_ now with clock := { (at_ now).clock with phase := 1000 } }

theorem test_depotTimeAdvance :
    still .depotTimeAdvance State.reset = true
    ∧ leads .depotTimeAdvance
        { at_ 99 with clock := { (secondOver 99).clock with regs := [⟨.departure, 3, 100⟩, ⟨.endBy, 4, 100⟩, ⟨.armPoint, 1, 101⟩] } }
        (fun t => decide (t.now = 100 ∧ t.clock.fired = [⟨.endBy, 4, 100⟩, ⟨.departure, 3, 100⟩]
          ∧ t.clock.regs = [⟨.armPoint, 1, 101⟩])) = true
    ∧ still .depotTimeAdvance { at_ 99 with clock := { (at_ 99).clock with phase := 999 } } = true
    ∧ leads .depotTimeAdvance (secondOver 4294967295) (fun t => decide (t.now = 4294967295)) = true := by
  decide +kernel

theorem test_setTime :
    gives (.setTime (hd 0) 1000) State.reset .ok
        (fun t => decide (t.now = 1000 ∧ t.clock.mode = .set ∧ t.clock.day = -1)) = true
    ∧ refuses (.setTime (hd 0) 939) (at_ 1000) .timeBackward = true
    ∧ gives (.setTime (hd 0) 940) (at_ 1000) .ok (fun t => decide (t.now = 940)) = true
    ∧ gives (.setTime (hd 0) 1000) (secondOver 1000) .ok
        (fun t => decide (t.now = 1000 ∧ t.siteFlags = 0) && still .depotTimeAdvance t) = true
    ∧ gives (.setTime (hd 0) 1001) (at_ 1000) .ok (fun t => decide (t.now = 1001 ∧ t.siteFlags = 8)) = true := by
  decide +kernel

theorem test_rolloverCrossing :
    leads .rolloverCrossing
      (bus 0 { bus7 with exportUsed := 5000 }
        { at_ 100800 with clock := { (at_ 100800).clock with fired := [⟨.rollover, 0, 100800⟩] } })
      (fun t => decide (t.clock.day = 1 ∧ (t.bus 0).map Bus.exportUsed = some 0
        ∧ t.clock.mode = .set ∧ t.clock.phase = 0
        ∧ t.clock.regs = [⟨.rollover, 0, 187200⟩] ∧ t.clock.fired = [])) = true
    ∧ nextBoundary 0 14400 = some 100800 ∧ nextBoundary 49710 0 = none := by decide +kernel

/-! ### The site -/

def noSite : SitePatch :=
  ⟨none, none, none, none, none, none, none, none, none, none, none, none, none, none, none, none, none⟩

theorem test_siteConfigure :
    refuses (.siteConfigure (hd 0) { noSite with baseHold := some 601 }) State.reset .outOfRange = true
    ∧ gives (.siteConfigure (hd 0) noSite) State.reset .ok = true
    ∧ gives (.siteConfigure (hd 0) noSite) (engineOn State.reset) .staged = true
    ∧ gives (.siteConfigure (hd 0) { noSite with baseHold := some 600 }) (engineOn State.reset) .staged
        (fun t => decide (t.site.staged.baseHold = 600 ∧ t.site.live.baseHold = 60 ∧ t.site.loadPending)) = true
    ∧ gives (.siteConfigure (hd 0) { noSite with baseHold := some 1 }) State.reset .ok
        (fun t => decide (t.site.live.baseHold = 1 ∧ t.site.loadPending = false)) = true := by decide +kernel

theorem test_siteLoadReport :
    gives (.siteLoadReport (hd 0) 4000001) (at_ 50) .ok
      (fun t => decide (t.site.report = some ⟨4000000, 50⟩)) = true
    ∧ gives (.siteLoadReport (hd 0) 3999999) State.reset .ok
      (fun t => decide (t.site.report = some ⟨3999999, 0⟩)) = true := by decide +kernel

/-- A report at the hold time is fresh; one second later, and with none held, the fallback is taken. -/
theorem test_baseLoad :
    (let held (t : Nat) : State := { at_ t with site := { (at_ t).site with report := some ⟨9, 100⟩ } }
     (held 160).takeBase.site.lastBase = some ⟨9, false⟩
     ∧ (held 161).takeBase.site.lastBase = some ⟨500000, true⟩ ∧ (held 161).takeBase.siteFlags = 1
     ∧ (at_ 100).takeBase.site.lastBase = some ⟨500000, true⟩) := by decide +kernel

theorem test_siteLookup :
    answers (.siteLookup (hd 0) 0 0) State.reset (.siteParams .powerOn false) = true
    ∧ answers (.siteLookup (hd 0) 1 0) State.reset (.siteParams .powerOn false) = true
    ∧ answers (.siteLookup (hd 0) 2 23) State.reset (.ratings ⟨0, 0⟩ ⟨0, 0⟩ false) = true
    ∧ refuses (.siteLookup (hd 0) 2 24) State.reset .outOfRange = true
    ∧ refuses (.siteLookup (hd 0) 4 0) State.reset .outOfRange = true
    ∧ answers (.siteLookup (hd 0) 3 0) State.reset
        (.timeAndLoad ⟨.unset, 0, 0, none, none, none, false, none⟩) = true
    ∧ answers (.siteLookup (hd 0) 3 0) (at_ 7)
        (.timeAndLoad ⟨.set, 7, 0, some 100800, none, none, false, none⟩) = true := by decide +kernel

/-! ### Full tables -/

/-- A table whose n slots all hold a record. -/
def full {α : Type} (n : Nat) (x : α) : Table α := ⟨(List.range n).map fun i => (i, x)⟩

theorem full_get {α : Type} (n j : Nat) (x : α) (h : j < n) : (full n x).get j = some x := by
  have : (List.range n).find? (fun i => i == j) = some j := by
    rw [List.find?_range_eq_some]
    refine ⟨by simp, by simpa using h, fun i hi => ?_⟩
    have : i ≠ j := by omega
    simpa using this
  unfold Table.get full
  rw [List.find?_map]
  simp only [Function.comp_def, this]
  rfl

/-- BUS_ENROL, PLAN_SUBMIT and COMMIT_OFFER refuse at a full table. -/
theorem test_tablesFull :
    (∀ j, j < 192 → (({ State.reset with buses := full 192 bus7 } : State).bus j).isSome)
    ∧ (∀ j, j < 512 → (({ State.reset with plans := full 512 (plan1 .standard []) } : State).plan j).isSome)
    ∧ (∀ j, j < 16 → (({ State.reset with commits := full 16 commit1 } : State).commit j).isSome)
    ∧ refuses (.commitOffer (hd 0) 2000 3000 1000 100)
        { at_ 100 with commits := full 16 commit1 } .tableFull = true := by
  refine ⟨fun j h => ?_, fun j h => ?_, fun j h => ?_, by decide +kernel⟩
  · exact Option.isSome_of_eq_some (full_get 192 j bus7 h)
  · exact Option.isSome_of_eq_some (full_get 512 j (plan1 .standard []) h)
  · exact Option.isSome_of_eq_some (full_get 16 j commit1 h)

/-! ### The Bus Table -/

def enrol7 : BusEnrolPayload := ⟨10000, 150000, 60000, true, 10000, 10000, some 10001⟩

theorem test_busEnrol_refusals :
    refuses (.busEnrol (hd 0) enrol7) State.reset .outOfRange = true
    ∧ refuses (.busEnrol (hd 65536) enrol7) State.reset .outOfRange = true
    ∧ refuses (.busEnrol (hd 7) { enrol7 with floor := 10001 }) State.reset .outOfRange = true
    ∧ refuses (.busEnrol (hd 7) { enrol7 with capacity := 9999 }) State.reset .outOfRange = true
    ∧ refuses (.busEnrol (hd 7) enrol7) (bus 191 bus7 State.reset) .duplicate = true := by decide +kernel

theorem test_busEnrol_creates :
    gives (.busEnrol (hd 65535) enrol7) (bus 0 bus7 State.reset) .ok (fun t => decide
      ((t.bus 1).map (fun b => (b.number, b.soe, b.source, b.flags)) = some (65535, some 10000, .enrolled, 64)))
      = true
    ∧ gives (.busEnrol (hd 1) { enrol7 with initialSoe := none, capacity := 600000 }) State.reset .ok (fun t => decide
      ((t.bus 0).map (fun b => (b.number, b.soe, b.source, b.flags)) = some (1, none, .unknown, 0))) = true := by
  decide +kernel

theorem test_busChange :
    refuses (.busChange (hd 8) ⟨none, none, none, none, none, none⟩) (bus 0 bus7 State.reset) .notFound = true
    ∧ refuses (.busChange (hd 7) ⟨some 29999, none, none, none, none, none⟩) (bus 0 bus7 State.reset) .outOfRange
      = true
    ∧ refuses (.busChange (hd 7) ⟨none, none, none, none, none, none⟩) (bus 0 bus7 State.reset) .ok = true
    ∧ gives (.busChange (hd 7) ⟨none, some 5, none, none, none, some 90000⟩)
        (bus 0 { bus7 with exportUsed := 90000 } State.reset) .ok
        (fun t => decide ((t.bus 0).map (fun b => (b.importCap, b.allowance, b.flags)) = some (5, 90000, 512)))
      = true := by decide +kernel

/-- SoE falls to a lower capacity, and stays below a higher one. -/
theorem test_busChange_capacity :
    gives (.busChange (hd 7) ⟨some 149999, none, none, none, none, none⟩) (bus 0 bus7 State.reset) .ok
      (fun t => decide ((t.bus 0).map (fun b => (b.soe, b.flags, b.source)) = some (some 149999, 64, .enrolled)))
      = true
    ∧ gives (.busChange (hd 7) ⟨some 150000, none, none, none, none, none⟩) (bus 0 bus7 State.reset) .ok
      (fun t => decide ((t.bus 0).map (fun b => (b.soe, b.flags)) = some (some 150000, 0))) = true := by
  decide +kernel

theorem test_busRetire :
    let done : Plan := { plan1 .standard [toFull] with state := .done, final := true }
    let gone : Departure := ⟨9000, 1, 0, .pending, false⟩
    refuses (.busRetire (hd 8)) (bus 0 bus7 State.reset) .notFound = true
    ∧ refuses (.busRetire (hd 7)) (bus 0 { bus7 with location := some 0 } State.reset) .busPlugged = true
    ∧ refuses (.busRetire (hd 7)) (bus 0 { bus7 with stdList := [3] } State.reset) .plansPending = true
    ∧ gives (.busRetire (hd 7)) (plan 3 done (bus 0 { bus7 with departure := some gone } { at_ 5 with
        planGens := ⟨[(3, 255)]⟩, clock := { (at_ 5).clock with regs := [⟨.departure, 0, 9000⟩] } })) .ok
        (fun t => decide (t.buses = ⟨[]⟩ ∧ t.plans = ⟨[]⟩ ∧ t.planGens = ⟨[]⟩ ∧ t.clock.regs = [])) = true := by
  decide +kernel

theorem test_busUnblock :
    refuses (.busUnblock (hd 8)) (bus 0 bus7 State.reset) .notFound = true
    ∧ refuses (.busUnblock (hd 7)) (bus 0 bus7 State.reset) .notBlocked = true
    ∧ gives (.busUnblock (hd 7)) (bus 0 { bus7 with block := .blocked, faultCount := 2 } State.reset) .ok
        (fun t => decide ((t.bus 0).map (fun b => (b.block, b.faultCount)) = some (.enabled, 2))) = true := by
  decide +kernel

/-- A blocking fault of a located and of an unlocated bus, and one more at the greatest count. -/
theorem test_blockingFault :
    (let s := State.blockBus 0 .energyStall (inSession .energized ⟨5000, .imp⟩ (at_ 100))
     (s.bus 0).map (fun b => (b.block, b.faultTime, b.faultCount, b.flags)) = some (.blocked, some 100, 1, 8)
     ∧ (s.port p0).held = .zero ∧ (s.port p0).state = .energized)
    ∧ ((State.blockBus 0 .pilotFault (bus 0 bus7 State.reset)).bus 0).map Bus.faultReason = some (some .pilotFault)
    ∧ ((State.blockBus 0 .pilotFault (bus 0 { bus7 with block := .blocked, faultCount := 65535 } State.reset)).bus 0)
      = some { bus7 with block := .blocked, faultCount := 65535 } := by decide +kernel

/-- By number and by slot; bytes that are absent are free values, so the view is compared by its length. -/
theorem test_busLookup :
    refuses (.busLookup (hd 192 1)) (bus 191 bus7 State.reset) .outOfRange = true
    ∧ refuses (.busLookup (hd 190 1)) (bus 191 bus7 State.reset) .notFound = true
    ∧ refuses (.busLookup (hd 8)) (bus 191 bus7 State.reset) .notFound = true
    ∧ refuses (.busLookup (hd 191 3)) (bus 191 bus7 State.reset) .ok = true
    ∧ refuses (.busLookup (hd 7)) (bus 191 bus7 State.reset) .ok = true := by decide +kernel

theorem test_busPlans :
    refuses (.busPlans (hd 192 1)) (bus 0 bus7 State.reset) .outOfRange = true
    ∧ refuses (.busPlans (hd 1 1)) (bus 0 bus7 State.reset) .notFound = true
    ∧ answers (.busPlans (hd 7)) (plan 4 (plan1 .priority [toFull]) (plan 3 (plan1 .standard [toFull])
        (bus 0 { bus7 with prioList := [4], stdList := [3] } State.reset)))
        (.planLists 1 1 [(⟨4, 0⟩, .priority, .queued), (⟨3, 0⟩, .standard, .queued)]) = true
    ∧ answers (.busPlans (hd 0 1)) (bus 0 bus7 State.reset) (.planLists 0 0 []) = true := by decide +kernel

/-! ### Charge plans -/

/-- A step record: kind, cap in 100 W, times present, value and times. -/
def raw (kind units : Nat) (value : Nat) (nb eb : Option Nat) : RawStep :=
  ⟨BitVec.ofNat 16 (kind * 16384 + (if nb.isSome then 8192 else 0) + (if eb.isSome then 4096 else 0) + units),
    BitVec.ofNat 32 value, BitVec.ofNat 32 (nb.getD 0), BitVec.ofNat 32 (eb.getD 0)⟩

def noStep : RawStep := ⟨0, 0, 0, 0⟩

theorem test_planSubmit_refusals :
    let r := raw 0 500 200000 none none
    let blocked := bus 0 { bus7 with block := .blocked } State.reset
    refuses (.planSubmit (hd 8 9) r noStep noStep noStep) (bus 0 bus7 State.reset) .notFound = true
    ∧ refuses (.planSubmit (hd 7 10) r noStep noStep noStep) (bus 0 bus7 State.reset) .outOfRange = true
    ∧ refuses (.planSubmit (hd 7 1) r noStep noStep noStep) (bus 0 bus7 State.reset) .outOfRange = true
    ∧ refuses (.planSubmit (hd 7 17) r noStep noStep noStep) (bus 0 bus7 State.reset) .outOfRange = true
    ∧ refuses (.planSubmit (hd 7 9) r noStep noStep noStep) blocked .busBlocked = true
    ∧ refuses (.planSubmit (hd 7 9) r noStep noStep noStep)
        (bus 0 { bus7 with stdList := [1, 2, 3, 4, 5, 6, 7, 8] } State.reset) .listFull = true := by decide +kernel

/-- On an unlocated blocked bus with UNBLOCK; on a located bus, where the plan runs; and with a hold that
a priority plan ends. -/
theorem test_planSubmit_places :
    gives (.planSubmit (hd 7 13) (raw 0 500 200000 none none) noStep noStep noStep)
        (bus 0 { bus7 with block := .blocked } State.reset) .ok
        (fun t => decide (t.plan 0 = some { plan1 .standard [⟨.importTo, 200000, 50000, none, none⟩] with unblock := true }
          ∧ (t.bus 0).map (fun b => (b.stdList, b.block)) = some ([0], .enabled))) = true
    ∧ gives (.planSubmit (hd 7 8) (raw 0 500 200000 none none) noStep noStep noStep)
        (inSession .connected .zero (at_ 100)) .ok
        (fun t => decide ((t.plan 0).map (fun p => (p.state, p.cond)) = some (.running, some .active))) = true
    ∧ gives (.planSubmit (hd 7 8) (raw 0 500 200000 none none) noStep noStep noStep)
        (plan 0 { plan1 .standard [hold9, toFull] with state := .running, cond := some .active }
          (bus 0 { bus7 with location := some 0, stdList := [0] } (inSession .connected .zero (at_ 100)))) .ok
        (fun t => decide ((t.plan 0).map (fun p => (p.state, p.current)) = some (.paused, 2)
          ∧ (t.plan 1).map (fun p => p.state) = some .running)) = true := by decide +kernel

theorem test_carriedSteps :
    (raw 3 1 0 none none).store 300000 = none ∧ (raw 0 0 0 none none).store 300000 = none
    ∧ (raw 0 1501 300001 (some 5) none).store 300000 = some ⟨.importTo, 300000, 150000, some 5, none⟩
    ∧ (raw 1 1 300001 none (some 6)).store 300000 = some ⟨.exportTo, 300001, 100, none, some 6⟩
    ∧ (raw 2 4095 300001 none none).store 300000 = some ⟨.holdUntil, 300001, 150000, none, none⟩ := by
  decide +kernel

theorem test_planCancel :
    let queued := plan 511 (plan1 .standard [toFull]) (bus 0 { bus7 with stdList := [511] } (at_ 100))
    let running := plan 511 { plan1 .standard [toFull] with state := .running, cond := some .active }
      (bus 0 { bus7 with location := some 0, stdList := [511] } (inSession .energized ⟨5000, .imp⟩ (at_ 100)))
    refuses (.planCancel (hd 512)) queued .outOfRange = true
    ∧ refuses (.planCancel (hd 510)) queued .staleId = true
    ∧ refuses (.planCancel (hd (511 + 65536))) queued .staleId = true
    ∧ refuses (.planCancel (hd 511)) (plan 511 { plan1 .standard [toFull] with state := .done } queued) .planFinal = true
    ∧ gives (.planCancel (hd 511)) queued .ok
        (fun t => decide ((t.plan 511).map (fun p => (p.state, p.finish, p.final)) = some (.cancelled, some 100, true)
          ∧ (t.bus 0).map Bus.stdList = some [])) = true
    ∧ gives (.planCancel (hd 511)) running .ok
        (fun t => decide ((t.port p0).held = .zero ∧ (t.plan 511).map Plan.state = some .cancelled)) = true := by
  decide +kernel

theorem test_planRetire :
    let done := plan 511 { plan1 .standard [toFull] with state := .done, generation := 255 }
      { State.reset with planGens := ⟨[(511, 255)]⟩ }
    let id := 511 + 255 * 65536
    refuses (.planRetire (hd 512)) done .outOfRange = true
    ∧ refuses (.planRetire (hd 511)) done .staleId = true
    ∧ refuses (.planRetire (hd id)) (plan 511 { plan1 .standard [toFull] with generation := 255 } done) .planActive = true
    ∧ gives (.planRetire (hd id)) done .ok (fun t => decide (t.plan 511 = none ∧ t.planGens.gen 511 = 0)) = true
    ∧ answers (.planRetire (hd id)) done (.freed 511 0) = true := by decide +kernel

theorem test_planLookup :
    let s := plan 0 (plan1 .standard [⟨.importTo, 200000, 50000, some 5, some 9000⟩])
      (bus 0 { bus7 with stdList := [0] } State.reset)
    let zero14 : List Byte := List.replicate 14 0
    refuses (.planLookup (hd 512)) s .outOfRange = true
    ∧ refuses (.planLookup (hd 1)) s .staleId = true
    ∧ answers (.planLookup (hd 0)) s (.planView ⟨⟨0, 0⟩, 0, 7, .standard, false, 1, 1, none, .queued, none, none,
        0, 0, false, some 1⟩) = true
    ∧ answers (.planLookup (hd 0 2)) s
        (.planSteps ⟨0, 0⟩ ([0xF4, 0x31, 0x40, 0x0D, 0x03, 0, 5, 0, 0, 0, 0x28, 0x23, 0, 0] ++ zero14)) = true
    ∧ answers (.planLookup (hd 0 6)) s (.planSteps ⟨0, 0⟩ (zero14 ++ zero14)) = true := by decide +kernel

/-- Selection, the step's end conditions at their boundary, and each point of a step's begin. -/
theorem test_selection :
    let s := plan 0 (plan1 .standard [toFull]) (bus 0 { bus7 with location := some 0, stdList := [0] } State.reset)
    (planTask 0 .select s).2 = some (.start 0) ∧ ((planTask 0 .select s).1.plan 0).map Plan.state = some .running
    ∧ (planTask 0 .select (bus 0 { bus7 with stdList := [0] } s)).2 = none
    ∧ (planTask 0 .select (bus 0 { bus7 with location := some 0 } s)).2 = none
    ∧ (planTask 0 .select (bus 0 { bus7 with location := some 0, block := .blocked, stdList := [0] } s)).2 = none
    ∧ stepEnded 0 { bus7 with soe := some 200000 } toFull = true
    ∧ stepEnded 0 { bus7 with soe := some 199999 } toFull = false
    ∧ stepEnded 0 { bus7 with soe := none } toFull = false
    ∧ stepEnded 0 { bus7 with soe := some 30000 } ⟨.exportTo, 10, 100, none, none⟩ = true
    ∧ stepEnded 0 { bus7 with soe := some 30001 } ⟨.exportTo, 30000, 100, none, none⟩ = false
    ∧ stepEnded 9000 bus7 hold9 = true ∧ stepEnded 8999 bus7 hold9 = false := by decide +kernel

theorem test_stepBegin :
    let s (st : PlanStep) (soe : Option Nat) : State := plan 0 { plan1 .standard [st] with state := .running }
      (bus 0 { bus7 with location := some 0, stdList := [0], soe := soe } (at_ 100))
    let went (st : PlanStep) (soe : Option Nat) := ((planTask 0 (.start 0) (s st soe)).1.plan 0).map fun p => (p.state, p.cond)
    (planTask 0 (.start 0) (s toFull (some 200000))).2 = some (.finish 0)
    ∧ went { toFull with endBy := some 100 } (some 5) = some (.stopped, none)
    ∧ went { toFull with notBefore := some 101, endBy := some 101 } (some 5) = some (.running, some .timedWait)
    ∧ went { toFull with notBefore := some 100 } none = some (.running, some .soeWait)
    ∧ went toFull (some 199999) = some (.running, some .active)
    ∧ went hold9 none = some (.running, some .active) := by decide +kernel

/-- The end of a last step, of a step that gives way and of one that goes on; the release of power. -/
theorem test_stepEnd :
    let s (current : Nat) (prio : List Nat) : State :=
      plan 0 { plan1 .standard [toFull, hold9] with state := .running, cond := some .active, current := current }
        (bus 0 { bus7 with location := some 0, prioList := prio, stdList := [0] }
          (inSession .energized ⟨5000, .exp⟩ (at_ 100)))
    let went (current : Nat) (prio : List Nat) :=
      ((planTask 0 (.finish 0) (s current prio)).1.plan 0).map fun p => (p.state, p.current)
    went 2 [] = some (.done, 2) ∧ went 1 [5] = some (.paused, 2) ∧ went 1 [] = some (.running, 2)
    ∧ ((planTask 0 (.finish 0) (s 1 [])).1.port p0).held = .zero
    ∧ ((State.releasePower 0 (inSession .energized ⟨5000, .imp⟩ { State.reset with
        engine := { State.reset.engine with ports := Vector.replicate 24 { PortResult.zero with tierA := 4900 } } })).port p0).held
      = ⟨4900, .imp⟩
    ∧ ((State.releasePower 0 (inSession .energized .zero State.reset)).port p0).held = .zero := by decide +kernel

theorem test_notBeforeCrossing :
    let fired : State := { at_ 100 with clock := { (at_ 100).clock with fired := [⟨.notBefore, 0, 100⟩] } }
    let s (soe : Option Nat) (st : PlanState) : State :=
      plan 0 { plan1 .standard [{ toFull with notBefore := some 100 }] with state := st, cond := some .timedWait }
        (bus 0 { bus7 with location := some 0, stdList := [0], soe := soe } fired)
    leads (.notBeforeCrossing 0) (s none .running) (fun t => decide ((t.plan 0).map Plan.cond = some (some .soeWait)
        ∧ (t.bus 0).map Bus.flags = some 128 ∧ t.clock.fired = [])) = true
    ∧ leads (.notBeforeCrossing 0) (s (some 5) .running)
        (fun t => decide ((t.plan 0).map Plan.cond = some (some .active))) = true
    ∧ leads (.notBeforeCrossing 0) (s none .paused) (fun t => decide (t.clock.fired = [])) = true
    ∧ still (.notBeforeCrossing 1) (s none .running) = true := by decide +kernel

theorem test_holdUntilCrossing :
    let fired : State := { at_ 9000 with clock := { (at_ 9000).clock with fired := [⟨.holdUntil, 0, 9000⟩] } }
    leads (.holdUntilCrossing 0) (plan 0 { plan1 .standard [hold9] with state := .running, cond := some .active }
        (bus 0 { bus7 with location := some 0, stdList := [0] } (inSession .connected .zero fired)))
        (fun t => decide ((t.plan 0).map (fun p => (p.state, p.finish)) = some (.done, some 9000))) = true
    ∧ leads (.holdUntilCrossing 0) (plan 0 (plan1 .standard [hold9]) fired)
        (fun t => decide ((t.plan 0).map Plan.state = some .queued)) = true := by decide +kernel

theorem test_endByCrossing :
    let fired : State := { at_ 100 with clock := { (at_ 100).clock with fired := [⟨.endBy, 0, 100⟩] } }
    leads (.endByCrossing 0) (plan 0 { plan1 .standard [toFull] with state := .running, cond := some .active }
        (bus 0 { bus7 with location := some 0, stdList := [0] } (inSession .energized ⟨5000, .imp⟩ fired)))
        (fun t => decide ((t.plan 0).map (fun p => (p.state, p.outcome)) = some (.stopped, some .deadline))) = true
    ∧ leads (.endByCrossing 0) (plan 0 (plan1 .standard [toFull]) fired)
        (fun t => decide ((t.plan 0).map Plan.state = some .queued)) = true := by decide +kernel

/-! ### Charging ports -/

theorem test_portGo_refusals :
    let s (st : PortState) := port0 (fun p => { p with state := st }) State.reset
    refuses (.portGo (hd 0) 24 0) State.reset .outOfRange = true
    ∧ refuses (.portGo (hd 0) 23 3) State.reset .outOfRange = true
    ∧ refuses (.portGo (hd 0) 0 0) (port0 (fun p => { p with pendingTarget := some .offline }) State.reset) .portBusy = true
    ∧ refuses (.portGo (hd 0) 0 1) (s .vacant) .portState = true
    ∧ refuses (.portGo (hd 0) 0 2) (s .held) .portState = true
    ∧ refuses (.portGo (hd 0) 0 0) (s .closing) .portState = true
    ∧ refuses (.portGo (hd 0) 0 1) (port0 (fun p => { p with state := .faulted, feedback := .closed }) State.reset)
        .welded = true := by decide +kernel

theorem test_portGo_acts :
    gives (.portGo (hd 0) 23 1) (at_ 9) .ok (fun t => decide ((t.port 23).state = .vacant
        ∧ (t.port 23).lastTransition = some ⟨.vacant, .reached, 9⟩ ∧ (t.port 23).flags = 1
        ∧ (t.port 23).settling = .running 500 0)) = true
    ∧ gives (.portGo (hd 0) 0 0) (port0 (fun p => { p with state := .faulted, faultCode := some .weld }) State.reset) .ok
        (fun t => decide ((t.port p0).state = .offline ∧ (t.port p0).faultCode = none)) = true
    ∧ gives (.portGo (hd 0) 0 2) (inSession .energized ⟨5000, .exp⟩ (at_ 9)) .accepted
        (fun t => decide ((t.port p0).state = .closing ∧ (t.port p0).held = .zero ∧ (t.port p0).command = .closed
          ∧ (t.port p0).zeroSince = some 9 ∧ (t.port p0).limit = .running 5000 0)) = true
    ∧ gives (.portGo (hd 0) 0 0) (inSession .held .zero (at_ 9)) .accepted
        (fun t => decide ((t.port p0).pendingTarget = some .offline)) = true := by decide +kernel

/-- A port in CLOSING with target OFFLINE, before or after its open command. -/
def closing (before : Bool) (fb : Contact) (s : State) : State :=
  let t := inSession .energized .zero s
  port0 (fun p => { p with
    state := .closing, pendingTarget := some .offline, feedback := fb
    command := if before then .closed else .opened
    quiet := if before then .running 1000 1000 else .stopped
    limit := if before then .running 5000 5000 else .stopped }) t

theorem test_portCancel :
    refuses (.portCancel (hd 0) 24) State.reset .outOfRange = true
    ∧ refuses (.portCancel (hd 0) 23) State.reset .nothingPending = true
    ∧ refuses (.portCancel (hd 0) 0) (closing false .closed (at_ 9)) .tooLate = true
    ∧ gives (.portCancel (hd 0) 0) (closing true .closed (at_ 9)) .ok (fun t => decide ((t.port p0).state = .connected
        ∧ (t.port p0).command = .opened ∧ (t.port p0).lastTransition = some ⟨.offline, .cancelled, 9⟩
        ∧ (t.port p0).weld = .running 200 0 ∧ (t.port p0).flags = 0)) = true := by decide +kernel

theorem test_portConfigure :
    refuses (.portConfigure (hd 0) 24 ⟨none, none, none, none⟩) State.reset .outOfRange = true
    ∧ refuses (.portConfigure (hd 0) 0 ⟨none, none, some 101, none⟩) State.reset .outOfRange = true
    ∧ refuses (.portConfigure (hd 0) 0 ⟨none, none, none, some 0⟩) State.reset .outOfRange = true
    ∧ refuses (.portConfigure (hd 0) 0 ⟨none, none, some 1, none⟩) (inSession .connected .zero State.reset) .portInUse
      = true
    ∧ gives (.portConfigure (hd 0) 23 ⟨none, none, some 100, some 255⟩) State.reset .ok (fun t => decide
        ((t.port 23).energyPerCount = 100 ∧ (t.port 23).filterThreshold = 255 ∧ t.site = State.reset.site)) = true
    ∧ gives (.portConfigure (hd 0) 23 ⟨some 150001, some 199, none, none⟩) (engineOn State.reset) .staged
        (fun t => decide (t.site.stagedRatings[23] = ⟨150000, 100⟩ ∧ t.site.liveRatings[23] = ⟨0, 0⟩)) = true
    ∧ gives (.portConfigure (hd 0) 0 ⟨some 99, some 60001, none, none⟩) (inSession .connected .zero State.reset) .ok
        (fun t => decide (t.site.liveRatings[0] = ⟨0, 60000⟩ ∧ t.site.loadPending = false)) = true
    ∧ gives (.portConfigure (hd 0) 0 ⟨some 200, none, some 100, some 1⟩) State.reset .ok
        (fun t => decide (t.site.liveRatings[0] = ⟨200, 0⟩ ∧ (t.port 0).energyPerCount = 100
          ∧ (t.port 0).filterThreshold = 1 ∧ t.engine = State.reset.engine)) = true := by decide +kernel

theorem test_portLookup :
    refuses (.portLookup (hd 0) 24) State.reset .outOfRange = true
    ∧ refuses (.portLookup (hd 0) 23) State.reset .ok = true
    ∧ refuses (.portLookup (hd 0 2) 0) (inSession .connected .zero State.reset) .ok = true := by decide +kernel

/-- Every move of a port without a session at a taken level. -/
theorem test_pilotLevel_noSession :
    let s (st : PortState) (taken : PilotLevel) (settling : Timer) : State :=
      port0 (fun p => { p with state := st, taken := taken, settling := settling }) State.reset
    let goes (l : PilotLevel) (s : State) (st : PortState) : Bool :=
      leads (.pilotLevelTaken 0 l) s fun t => decide ((t.port p0).state = st ∧ (t.port p0).taken = l)
    still (.pilotLevelTaken 0 .none) State.reset = true
    ∧ goes .ready (s .offline .none .stopped) .offline = true
    ∧ goes .ready (s .vacant .none .stopped) .detecting = true
    ∧ goes .plugged (s .vacant .none (.running 500 499)) .vacant = true
    ∧ goes .fault (s .vacant .none .stopped) .vacant = true
    ∧ goes .plugged (s .detecting .ready .stopped) .detecting = true
    ∧ goes .fault (s .detecting .ready .stopped) .vacant = true
    ∧ goes .none (s .identifying .ready .stopped) .vacant = true
    ∧ goes .fault (s .identifying .ready .stopped) .identifying = true
    ∧ goes .ready (s .faulted .none .stopped) .faulted = true := by decide +kernel

/-- The four levels taken in a session; an unplug in CLOSING for either target; an unplug within the take
window, and one second earlier. -/
theorem test_pilotLevel_session :
    let s := inSession .energized ⟨5000, .exp⟩ (at_ 100)
    leads (.pilotLevelTaken 0 .none) s (fun t => decide ((t.port p0).state = .vacant ∧ (t.port p0).session = none
        ∧ (t.bus 0).map (fun b => (b.location, b.flags)) = some (none, 2))) = true
    ∧ leads (.pilotLevelTaken 0 .plugged) s (fun t => decide ((t.port p0).held = .zero
        ∧ (t.port p0).openDelay = .running 60000 0 ∧ (t.port p0).session = some session0)) = true
    ∧ leads (.pilotLevelTaken 0 .fault) s (fun t => decide ((t.port p0).held = .zero
        ∧ (t.bus 0).map Bus.faultReason = some (some .pilotFault))) = true
    ∧ leads (.pilotLevelTaken 0 .ready) (port0 (fun p => { p with taken := .plugged }) s)
        (fun t => decide ((t.port p0).held = ⟨5000, .exp⟩)) = true
    ∧ leads (.pilotLevelTaken 0 .none) (closing true .closed (at_ 100)) (fun t => decide ((t.port p0).state = .offline
        ∧ (t.port p0).lastTransition = some ⟨.offline, .reached, 100⟩)) = true
    ∧ leads (.pilotLevelTaken 0 .none)
        (port0 (fun p => { p with pendingTarget := some .reidentify }) (closing true .closed (at_ 100)))
        (fun t => decide ((t.port p0).state = .vacant
          ∧ (t.port p0).lastTransition = some ⟨.reidentify, .dropped, 100⟩)) = true
    ∧ (let s (now : Nat) : State := bus 0 { bus7 with
          location := some 0, departure := some ⟨9000, 1000, 3, .pending, false⟩ } (inSession .connected .zero (at_ now))
      leads (.pilotLevelTaken 0 .none) (s 5400) (fun t => decide ((t.bus 0).map (fun b =>
          (b.departure.map Departure.state, b.readiness)) = some (some (.taken (some 150000)), .none))) = true
      ∧ leads (.pilotLevelTaken 0 .none) (s 5399) (fun t => decide ((t.bus 0).map (fun b =>
          (b.departure.map Departure.state, b.readiness)) = some (some .pending, .away))) = true) := by decide +kernel

theorem test_settlingEnd :
    let s (l : PilotLevel) : State :=
      port0 (fun p => { p with state := .vacant, taken := l, settling := .running 500 500 }) State.reset
    leads (.settlingEnd 0) (s .ready) (fun t => decide ((t.port p0).state = .detecting
        ∧ (t.port p0).debounce = .running 1000 0)) = true
    ∧ leads (.settlingEnd 0) (s .fault)
        (fun t => decide ((t.port p0).state = .vacant ∧ (t.port p0).settling = .stopped)) = true
    ∧ still (.settlingEnd 0) State.reset = true := by decide +kernel

theorem test_debounceEnd :
    leads (.debounceEnd 0) (port0 (fun p => { p with
        state := .detecting, taken := .ready, debounce := .running 1000 1000, discards := 4 }) State.reset)
        (fun t => decide ((t.port p0).state = .identifying ∧ (t.port p0).attempts = 1 ∧ (t.port p0).discards = 0
          ∧ (t.port p0).enquire = some ⟨0, 0, 1⟩ ∧ (t.port p0).answer = .stopped)) = true
    ∧ still (.debounceEnd 0) State.reset = true := by decide +kernel

theorem test_feedbackTaken :
    still (.feedbackTaken 0 .opened) State.reset = true
    ∧ leads (.feedbackTaken 0 .closed) (inSession .energizing ⟨5000, .imp⟩ (at_ 100)) (fun t => decide
        ((t.port p0).state = .energized ∧ (t.port p0).live = ⟨5000, .imp⟩ ∧ (t.port p0).frameCount = 1
          ∧ (t.port p0).stall = .running 60000 0)) = true
    ∧ leads (.feedbackTaken 0 .closed) (inSession .energizing .zero (at_ 100)) (fun t => decide
        ((t.port p0).openDelay = .running 60000 0 ∧ (t.port p0).frameCount = 0)) = true
    ∧ leads (.feedbackTaken 0 .opened) (inSession .energized ⟨5000, .imp⟩ (at_ 100)) (fun t => decide
        ((t.port p0).state = .faulted ∧ (t.port p0).faultCode = some .drop ∧ (t.port p0).flags = 2
          ∧ (t.bus 0).map Bus.location = some none)) = true
    ∧ leads (.feedbackTaken 0 .closed) (inSession .connected .zero (at_ 100))
        (fun t => decide ((t.port p0).weld = .running 200 0)) = true := by decide +kernel

/-- CLOSING ends after its open command: at OFFLINE, in IDENTIFYING, or dropped at a FAULT level. -/
theorem test_closingEnds :
    let s (g : PortTarget) (l : PilotLevel) : State :=
      port0 (fun p => { p with pendingTarget := some g, taken := l }) (closing false .closed (at_ 100))
    leads (.feedbackTaken 0 .opened) (s .offline .ready) (fun t => decide ((t.port p0).state = .offline
        ∧ (t.port p0).session = none ∧ (t.port p0).flags = 1)) = true
    ∧ leads (.feedbackTaken 0 .opened) (s .reidentify .plugged) (fun t => decide ((t.port p0).state = .identifying
        ∧ (t.port p0).attempts = 1 ∧ (t.port p0).lastTransition = some ⟨.reidentify, .reached, 100⟩)) = true
    ∧ leads (.feedbackTaken 0 .opened) (s .reidentify .fault) (fun t => decide ((t.port p0).state = .vacant
        ∧ (t.port p0).lastTransition = some ⟨.reidentify, .dropped, 100⟩)) = true := by decide +kernel

theorem test_confirmationTimeout :
    still (.confirmationTimeout 0) State.reset = true
    ∧ leads (.confirmationTimeout 0)
        (port0 (fun p => { p with confirmation := .running 200 200 }) (inSession .energizing ⟨5000, .imp⟩ (at_ 9)))
        (fun t => decide ((t.port p0).state = .faulted ∧ (t.port p0).faultCode = some .failClose
          ∧ (t.port p0).session = none)) = true := by decide +kernel

theorem test_openDelayExpiry :
    still (.openDelayExpiry 0) State.reset = true
    ∧ leads (.openDelayExpiry 0)
        (port0 (fun p => { p with openDelay := .running 60000 60000 }) (inSession .energized .zero (at_ 9)))
        (fun t => decide ((t.port p0).state = .connected ∧ (t.port p0).command = .opened
          ∧ (t.port p0).session = some session0 ∧ (t.port p0).weld = .running 200 0)) = true := by decide +kernel

theorem test_weldTimerExpiry :
    still (.weldTimerExpiry 0) State.reset = true
    ∧ leads (.weldTimerExpiry 0) (port0 (fun p => { p with
        state := .vacant, feedback := .closed, weld := .running 200 200 }) State.reset)
        (fun t => decide ((t.port p0).state = .faulted ∧ (t.port p0).faultCode = some .weld)) = true
    ∧ leads (.weldTimerExpiry 0) (port0 (fun p => { p with
        state := .faulted, faultCode := some .drop, feedback := .closed, weld := .running 200 200 }) State.reset)
        (fun t => decide ((t.port p0).faultCode = some .weld ∧ (t.port p0).flags = 2
          ∧ (t.port p0).weld = .stopped)) = true := by decide +kernel

theorem test_quietTimerExpiry :
    still (.quietTimerExpiry 0) State.reset = true
    ∧ leads (.quietTimerExpiry 0) (closing true .closed (at_ 9)) (fun t => decide ((t.port p0).state = .closing
        ∧ (t.port p0).command = .opened ∧ (t.port p0).limit = .stopped ∧ (t.port p0).weld = .running 200 0)) = true
    ∧ leads (.quietTimerExpiry 0) (closing true .opened (at_ 9)) (fun t => decide ((t.port p0).state = .offline
        ∧ (t.port p0).flags = 1)) = true := by decide +kernel

theorem test_limitTimerExpiry :
    still (.limitTimerExpiry 0) State.reset = true
    ∧ leads (.limitTimerExpiry 0) (closing true .closed (at_ 9)) (fun t => decide ((t.port p0).state = .closing
        ∧ (t.port p0).flags = 16 ∧ (t.port p0).quiet = .stopped)) = true
    ∧ leads (.limitTimerExpiry 0) (closing true .opened (at_ 9)) (fun t => decide ((t.port p0).state = .offline
        ∧ (t.port p0).flags = 17)) = true := by decide +kernel

theorem test_setpointFrameRepeat :
    leads (.setpointFrameRepeat 23) State.reset (fun t => decide ((t.port 23).frameCount = 1
      ∧ (t.port 23).lastFrame = some ⟨23, .zero, 1⟩)) = true
    ∧ leads (.setpointFrameRepeat 0) (port0 (fun p => { p with frameCount := 65535 }) State.reset)
      (fun t => decide ((t.port p0).frameCount = 0)) = true := by decide +kernel

/-! ### The identification exchange -/

/-- Port 0 waiting for its answer. -/
def waiting (attempts : Nat) (s : State) : State :=
  port0 (fun p => { p with state := .identifying, taken := .ready, attempts := attempts
                           answer := .running 1000 1000, enquire := some ⟨0, 0, 1⟩ }) s

def announce7 : Announce := ⟨7, 200000, 300000, 120000, 40000, 1⟩

theorem test_enquireSent :
    still (.enquireSent 0) State.reset = true
    ∧ leads (.enquireSent 0) (waiting 1 State.reset) (fun t => decide ((t.port p0).enquire = none
        ∧ (t.port p0).answer = .running 1000 0)) = true := by decide +kernel

theorem test_answerTimerExpiry :
    still (.answerTimerExpiry 0) State.reset = true
    ∧ leads (.answerTimerExpiry 0) (waiting 2 State.reset) (fun t => decide ((t.port p0).attempts = 3
        ∧ (t.port p0).answer = .running 1000 0)) = true
    ∧ leads (.answerTimerExpiry 0) (waiting 3 (at_ 9)) (fun t => decide ((t.port p0).state = .connected
        ∧ (t.port p0).session = some ⟨.unidentified .noAnswer, 9, none, 7000, 0⟩ ∧ (t.port p0).flags = 4)) = true := by
  decide +kernel

theorem test_announce_unidentified :
    leads (.announce 0 announce7) (waiting 1 State.reset) (fun t => decide ((t.port p0).claimed = some 7
        ∧ (t.port p0).session = some ⟨.unidentified .unknownBus, 0, none, 7000, 0⟩)) = true
    ∧ leads (.announce 0 announce7) (bus 0 { bus7 with location := some 1 }
          { waiting 1 State.reset with protection := ⟨true, true⟩ })
        (fun t => decide ((t.port p0).state = .held
          ∧ (t.port p0).session = some ⟨.unidentified .duplicateBus, 0, none, 7000, 0⟩)) = true
    ∧ leads (.announce 0 announce7) (inSession .connected .zero State.reset)
        (fun t => decide ((t.port p0).discards = 1)) = true
    ∧ still (.announce 0 announce7) State.reset = true := by decide +kernel

/-- A report apart by more than the tolerance and one within it; a capacity apart by more than 5 in 100. -/
theorem test_announce_binds :
    leads (.announce 0 announce7) (bus 0 bus7 (waiting 1 (at_ 9))) (fun t => decide ((t.port p0).state = .connected
        ∧ (t.port p0).session = some { session0 with start := 9 }
        ∧ (t.bus 0).map (fun b => (b.location, b.soe, b.source, b.discrepancy, b.flags))
          = some (some 0, some 200000, .reported, some ⟨200000, 150000⟩, 17))) = true
    ∧ leads (.announce 0 { announce7 with soe := 152000, capacity := 315000 }) (bus 0 bus7 (waiting 1 (at_ 9)))
        (fun t => decide ((t.bus 0).map (fun b => (b.soe, b.flags)) = some (some 152000, 1))) = true
    ∧ leads (.announce 0 { announce7 with soe := 4294967295, capacity := 315001 }) (bus 0 bus7 (waiting 1 (at_ 9)))
        (fun t => decide ((t.bus 0).map (fun b => (b.soe, b.source, b.flags)) = some (some 150000, .enrolled, 33)))
      = true
    ∧ leads (.announce 0 { announce7 with soe := 300001 }) (bus 0 bus7
          (port0 (fun p => { p with taken := .fault }) (waiting 1 (at_ 9))))
        (fun t => decide ((t.bus 0).map (fun b => (b.soe, b.block, b.flags)) = some (some 300000, .blocked, 89)))
      = true := by decide +kernel

theorem test_limit :
    leads (.limit 0 4999 0) (inSession .energized ⟨5000, .imp⟩ State.reset) (fun t => decide
        ((t.port p0).held = ⟨4900, .imp⟩ ∧ (t.port p0).session.map Session.importCap = some 4999
          ∧ (t.port p0).session.map Session.exportCap = some 0)) = true
    ∧ leads (.limit 0 5000 0) (inSession .energized ⟨5000, .imp⟩ State.reset)
        (fun t => decide ((t.port p0).held = ⟨5000, .imp⟩)) = true
    ∧ leads (.limit 0 0 99) (inSession .energized ⟨5000, .exp⟩ State.reset)
        (fun t => decide ((t.port p0).held = .zero)) = true
    ∧ leads (.limit 0 1 1) (waiting 1 State.reset) (fun t => decide ((t.port p0).discards = 1)) = true
    ∧ still (.limit 0 1 1) State.reset = true := by decide +kernel

theorem test_faultReport :
    leads (.faultReport 0 9) (inSession .energized ⟨5000, .imp⟩ (at_ 8)) (fun t => decide
        ((t.port p0).lastFault = some ⟨9, 8⟩ ∧ (t.port p0).held = .zero
          ∧ (t.bus 0).map Bus.faultReason = some (some .busReported))) = true
    ∧ leads (.faultReport 0 9) (port0 (fun p => { p with session := some ⟨.unidentified .noAnswer, 0, none, 7000, 0⟩ })
          (inSession .energized ⟨5000, .imp⟩ (at_ 8)))
        (fun t => decide ((t.port p0).held = .zero ∧ (t.port p0).session.map Session.importCap = some 0)) = true
    ∧ leads (.faultReport 0 9) (waiting 1 State.reset) (fun t => decide ((t.port p0).discards = 1)) = true := by
  decide +kernel

theorem test_messageCheckFailure :
    leads (.messageCheckFailure 0) (port0 (fun p => { p with checkErrors := 65535 }) (waiting 1 State.reset))
      (fun t => decide ((t.port p0).checkErrors = 65535)) = true
    ∧ leads (.messageCheckFailure 0) (waiting 1 State.reset) (fun t => decide ((t.port p0).checkErrors = 1)) = true
    ∧ still (.messageCheckFailure 0) State.reset = true := by decide +kernel

theorem test_unknownTypeDiscard :
    leads (.unknownTypeDiscard 0) (waiting 1 State.reset) (fun t => decide ((t.port p0).discards = 1)) = true
    ∧ still (.unknownTypeDiscard 0) State.reset = true
    ∧ still (.unknownTypeDiscard 0) (port0 (fun p => { p with state := .faulted }) State.reset) = true := by
  decide +kernel

/-- ANNOUNCE of bus 7 as its 21 bytes: the type, the fields most significant byte first, the check byte. -/
theorem test_announce_bytes :
    (Message.announce announce7).bytes = [0x02, 0x00, 0x07, 0x00, 0x03, 0x0D, 0x40, 0x00, 0x04, 0x93, 0xE0,
      0x00, 0x01, 0xD4, 0xC0, 0x00, 0x00, 0x9C, 0x40, 0x01, 0xBE]
    ∧ receive (Message.announce announce7).bytes = .message (.announce announce7)
    ∧ receive ((Message.announce announce7).bytes.set 1 9) = .checkError
    ∧ receive (Message.enquire 1 2 3).bytes = .unknownType := by decide +kernel

/-! ### Metering -/

/-- Idle, stray with its sixteenth, and applied in either direction. -/
theorem test_filteredTransition :
    let s (sp : Setpoint) := inSession .energized sp (at_ 100)
    leads (.filteredTransition 0 (.one .ma)) State.reset (fun t => decide ((t.port p0).idle = 1
        ∧ (t.port p0).ma.output = .high)) = true
    ∧ leads (.filteredTransition 0 (.one .ma)) (port0 (fun p => { p with stray := 15 }) (inSession .connected .zero State.reset))
        (fun t => decide ((t.port p0).stray = 16 ∧ (t.port p0).flags = 32)) = true
    ∧ leads (.filteredTransition 0 (.one .ma)) (s ⟨5000, .imp⟩) (fun t => decide ((t.port p0).sessionImport = 10
        ∧ (t.port p0).lastApplied = some ⟨.imp, 100⟩ ∧ (t.port p0).wrongRun = 0
        ∧ (t.bus 0).map (fun b => (b.soe, b.source)) = some (some 150010, .integrated))) = true
    ∧ leads (.filteredTransition 0 (.one .mb)) (bus 0 { bus7 with location := some 0, exportUsed := 99990 } (s ⟨5000, .exp⟩))
        (fun t => decide ((t.port p0).sessionExport = 10 ∧ (t.port p0).held = .zero
          ∧ (t.bus 0).map (fun b => (b.soe, b.exportUsed, b.flags)) = some (some 149990, 100000, 512))) = true
    ∧ leads (.filteredTransition 0 (.one .ma)) (bus 0 { bus7 with location := some 0, soe := some 299991 } (s .zero))
        (fun t => decide ((t.bus 0).map (fun b => (b.soe, b.flags)) = some (some 300000, 64))) = true := by
  decide +kernel

/-- The third wrong-direction count in a row leaves the state, the fourth faults the port; the plan books. -/
theorem test_wrongDirection :
    let s (run : Nat) : State := plan 0 { plan1 .standard [toFull] with state := .running, cond := some .active }
      (bus 0 { bus7 with location := some 0, stdList := [0] }
        (port0 (fun p => { p with wrongRun := run }) (inSession .energized ⟨5000, .imp⟩ (at_ 100))))
    leads (.filteredTransition 0 (.one .mb)) (s 2) (fun t => decide ((t.port p0).state = .energized
        ∧ (t.port p0).wrongRun = 3 ∧ (t.plan 0).map Plan.exported = some 10)) = true
    ∧ leads (.filteredTransition 0 (.one .mb)) (s 3) (fun t => decide ((t.port p0).state = .faulted
        ∧ (t.port p0).faultCode = some .meterDirection ∧ (t.plan 0).map Plan.state = some .paused)) = true := by
  decide +kernel

theorem test_meterLineSample :
    let s (c : Nat) (st : PortState) : State :=
      port0 (fun p => { p with state := st, ma := { p.ma with counter := c } }) State.reset
    leads (.meterLineSample 0 .ma .high) (s 8 .vacant) (fun t => decide ((t.port p0).ma.counter = 9
        ∧ (t.port p0).ma.output = .low)) = true
    ∧ leads (.meterLineSample 0 .ma .high) (s 9 .vacant) (fun t => decide ((t.port p0).ma.counter = 0
        ∧ (t.port p0).ma.output = .high ∧ (t.port p0).idle = 1)) = true
    ∧ leads (.meterLineSample 0 .ma .low) (s 1 .vacant) (fun t => decide ((t.port p0).ma.counter = 0
        ∧ (t.port p0).ma.glitch ∧ (t.port p0).flags = 8)) = true
    ∧ leads (.meterLineSample 0 .ma .low) (s 1 .offline)
        (fun t => decide ((t.port p0).ma.counter = 0 ∧ (t.port p0).flags = 0)) = true
    ∧ still (.meterLineSample 0 .ma .low) State.reset = true := by decide +kernel

theorem test_lineFilterGlitch :
    leads (.lineFilterGlitch 0 .mb) (port0 (fun p => { p with state := .vacant, mb := { p.mb with counter := 1 } }) State.reset)
      (fun t => decide ((t.port p0).mb.counter = 0 ∧ (t.port p0).flags = 8)) = true
    ∧ still (.lineFilterGlitch 0 .mb) State.reset = true
    ∧ leads (.filteredTransition 0 .both) (port0 (fun p => { p with state := .vacant }) State.reset)
      (fun t => decide ((t.port p0).idle = 0 ∧ (t.port p0).ma.output = .high ∧ (t.port p0).mb.glitch
        ∧ (t.port p0).flags = 8)) = true
    ∧ leads (.filteredTransition 0 .both) State.reset
      (fun t => decide ((t.port p0).flags = 0 ∧ (t.port p0).ma.glitch = false)) = true := by decide +kernel

theorem test_stallTimerExpiry :
    still (.stallTimerExpiry 0) State.reset = true
    ∧ leads (.stallTimerExpiry 0)
        (port0 (fun p => { p with stall := .running 60000 60000 }) (inSession .energized ⟨5000, .imp⟩ (at_ 9)))
        (fun t => decide ((t.port p0).held = .zero ∧ (t.port p0).openDelay = .running 60000 0
          ∧ (t.bus 0).map Bus.faultReason = some (some .energyStall))) = true
    ∧ (let held (w : Nat) := (((inSession .energized ⟨4000, .imp⟩ (at_ 9)).updPort 0 fun p =>
          { p with held := ⟨w, .imp⟩ }).port p0).stall
       held 5000 = .running 60000 0 ∧ held 4999 = .stopped) := by decide +kernel

/-- R120: an expiry before its time, and one behind a count that restarted the timer, do nothing. -/
theorem test_stallTimerExpiry_restarted :
    let s (e : Nat) : State :=
      port0 (fun p => { p with stall := .running 60000 e }) (inSession .energized ⟨5000, .imp⟩ (at_ 9))
    still (.stallTimerExpiry 0) (s 59999) = true
    ∧ leads (.filteredTransition 0 (.one .ma)) (s 60000) (fun t =>
        decide ((t.port p0).stall = .running 60000 0) && still (.stallTimerExpiry 0) t) = true := by decide +kernel

/-! ### Route readiness -/

theorem test_departureSet :
    let s := bus 0 bus7 (at_ 1000)
    refuses (.departureSet (hd 8) 9000 1 2) s .notFound = true
    ∧ refuses (.departureSet (hd 7) 9000 1 2) (bus 0 bus7 State.reset) .timeUnset = true
    ∧ refuses (.departureSet (hd 7) 1000 1 2) s .outOfRange = true
    ∧ gives (.departureSet (hd 7) 8200 300001 2) s .ok (fun t => decide ((t.bus 0).map (fun b => (b.departure, b.readiness, b.flags))
        = some (some ⟨8200, 300000, 2, .pending, true⟩, .away, 4) ∧ t.clock.regs = [⟨.departure, 0, 8200⟩])) = true
    ∧ gives (.departureSet (hd 7) 8201 1 2) s .ok (fun t => decide
        (t.clock.regs = [⟨.departure, 0, 8201⟩, ⟨.lockout, 0, 1001⟩])) = true
    ∧ gives (.departureSet (hd 7) 8201 150000 2) (rated (inSession .energized ⟨5000, .exp⟩ (at_ 1000))) .ok
        (fun t => decide ((t.port p0).held = .zero ∧ (t.bus 0).map (fun b => (b.readiness, b.slack))
          = some (.ready, some 6301))) = true := by decide +kernel

theorem test_departureClear :
    let d : Departure := ⟨9000, 1, 2, .pending, false⟩
    refuses (.departureClear (hd 8)) (bus 0 bus7 State.reset) .notFound = true
    ∧ refuses (.departureClear (hd 7)) (bus 0 bus7 State.reset) .ok = true
    ∧ gives (.departureClear (hd 7)) (bus 0 { bus7 with departure := some d, readiness := .away }
        { at_ 5 with clock := { (at_ 5).clock with regs := [⟨.departure, 0, 9000⟩, ⟨.departure, 1, 9000⟩] } }) .ok
        (fun t => decide ((t.bus 0).map (fun b => (b.departure, b.readiness, b.flags)) = some (none, .none, 4)
          ∧ t.clock.regs = [⟨.departure, 1, 9000⟩])) = true := by decide +kernel

theorem test_departureCrossing :
    let s (st : DepState) : State := bus 191 { bus7 with departure := some ⟨9000, 1, 2, st, false⟩ } { at_ 9000 with
      clock := { (at_ 9000).clock with fired := [⟨.departure, 191, 9000⟩] } }
    leads (.departureCrossing 191) (s .pending) (fun t => decide ((t.bus 191).map (fun b => (b.readiness, b.flags))
        = some (.overdue, 4) ∧ (t.bus 191).map (fun b => b.departure.map Departure.state) = some (some .overdue))) = true
    ∧ leads (.departureCrossing 191) (s (.taken none)) (fun t => decide ((t.bus 191).map Bus.flags = some 0)) = true := by
  decide +kernel

theorem test_lockoutPointCrossing :
    let fired : State := { at_ 100 with clock := { (at_ 100).clock with fired := [⟨.lockout, 0, 100⟩] } }
    leads (.lockoutPointCrossing 0) (inSession .energized ⟨5000, .exp⟩ fired)
        (fun t => decide ((t.port p0).held = .zero ∧ (t.port p0).zeroSince = some 100)) = true
    ∧ leads (.lockoutPointCrossing 0) (inSession .energized ⟨5000, .imp⟩ fired)
        (fun t => decide ((t.port p0).held = ⟨5000, .imp⟩)) = true
    ∧ leads (.lockoutPointCrossing 0) (bus 0 bus7 fired) (fun t => decide (t.clock.fired = [])) = true := by
  decide +kernel

/-- READY; LATE without power; ON_TRACK, AT_RISK and LATE about their bounds; the need at its window. -/
theorem test_figures :
    figures 0 0 0 100 5 5 100 100 = ⟨.ready, some 100, 0⟩
    ∧ figures 0 0 0 100 6 5 99 100 = ⟨.late, none, 0⟩
    ∧ figures 0 0 64 100 1100 100 100000 100000 = ⟨.onTrack, some 64, 36000⟩
    ∧ figures 0 0 65 100 1100 100 100000 100000 = ⟨.atRisk, some 64, 36000⟩
    ∧ figures 0 65 65 100 1100 100 100000 100000 = ⟨.late, some (-1), 100000⟩
    ∧ figures 0 100 65 100 1100 100 100000 100000 = ⟨.late, some (-36), 100000⟩ := by decide +kernel

/-- Each condition of export eligibility, failing alone. -/
theorem test_exportEligible :
    let s := rated (inSession .energized .zero (at_ 1000))
    let b : Bus := { bus7 with location := some 0 }
    let d (t : Nat) (st : DepState) : Departure := ⟨t, 1000, 0, st, false⟩
    s.exportEligible 0 b = true
    ∧ s.exportEligible 0 bus7 = false ∧ s.exportEligible 1 b = false
    ∧ (port0 (fun p => { p with session := some { session0 with exportCap := 0 } }) s).exportEligible 0 b = false
    ∧ (inSession .energized .zero (at_ 1000)).exportEligible 0 b = false
    ∧ s.exportEligible 0 { b with soe := none } = false ∧ s.exportEligible 0 { b with soe := some 30000 } = false
    ∧ s.exportEligible 0 { b with departure := some (d 8200 .pending) } = false
    ∧ s.exportEligible 0 { b with departure := some (d 8201 .pending) } = true
    ∧ s.exportEligible 0 { b with departure := some (d 8200 .overdue) } = true
    ∧ s.exportEligible 0 { b with exportUsed := 100000 } = false ∧ s.exportEligible 0 { b with block := .blocked } = false
    ∧ (port0 (fun p => { p with taken := .plugged }) s).exportEligible 0 b = false
    ∧ ({ s with supervision := ⟨.lapsed, .stopped⟩ } : State).exportEligible 0 b = false
    ∧ ({ s with protection := ⟨false, true⟩ } : State).exportEligible 0 b = false := by decide +kernel

/-! ### Power allocation -/

/-- A computation that closes a contactor, one that publishes to a closed one, and a reversal too soon. -/
theorem test_allocationComputation :
    let running : Plan := { plan1 .standard [toFull] with state := .running, cond := some .active }
    let s (st : PortState) (sp : Setpoint) : State := plan 0 running
      (bus 0 { bus7 with location := some 0, stdList := [0] } (engineOn (rated (inSession st sp (at_ 1000)))))
    still .allocationComputation State.reset = true
    ∧ leads .allocationComputation (s .connected .zero) (fun t => decide ((t.port p0).held = ⟨50000, .imp⟩
        ∧ (t.port p0).state = .energizing ∧ (t.port p0).confirmation = .running 200 0 ∧ t.engine.number = 4
        ∧ t.engine.summary.map (fun x => (x.importTotal, x.available)) = some (50000, 980000))) = true
    ∧ leads .allocationComputation (s .energized ⟨100, .imp⟩) (fun t => decide ((t.port p0).live = ⟨50000, .imp⟩)) = true
    ∧ leads .allocationComputation (s .energized ⟨100, .exp⟩) (fun t => decide ((t.port p0).live = .zero
        ∧ t.engine.ports[0].restRemoved)) = true
    ∧ leads .allocationComputation { s .energized ⟨100, .imp⟩ with protection := ⟨false, true⟩ }
        (fun t => decide (t.engine.ports[0].published = .zero)) = true := by decide +kernel

/-- The account of one period of an ACTIVE commitment, short of its target. -/
theorem test_computation_relief :
    leads .allocationComputation (commit 15 { active1 4 1 with baseline := some 40000, carry := 3599 } (engineOn (rated (at_ 1000))))
      (fun t => decide ((t.commit 15).map (fun c => (c.relief, c.periods, c.shortPeriods, c.delivered, c.carry))
        = some (some 40000, 5, 2, 56, 1999))) = true := by decide +kernel

theorem test_allocStart :
    refuses (.allocStart (hd 0)) State.reset .timeUnset = true
    ∧ refuses (.allocStart (hd 0)) (engineOn (at_ 5)) .allocState = true
    ∧ answers (.allocStart (hd 0)) (rated (at_ 5)) (.allocTotals 1 980000 0 0 0) = true := by decide +kernel

theorem test_allocStop :
    refuses (.allocStop (hd 0)) State.reset .allocState = true
    ∧ gives (.allocStop (hd 0)) (commit 0 (active1 1 0) (engineOn (inSession .energized ⟨5000, .imp⟩ (at_ 5)))) .ok
        (fun t => decide ((t.port p0).held = .zero ∧ t.engine.running = false ∧ t.engine.number = 3
          ∧ (t.commit 0).map Commitment.state = some .interrupted ∧ t.supervision = ⟨.supervised, .stopped⟩)) = true := by
  decide +kernel

theorem test_allocLookup :
    answers (.allocLookup (hd 0) 0 0) State.reset (.allocSummary false 0 none) = true
    ∧ answers (.allocLookup (hd 0) 1 23) State.reset (.allocPort none) = true
    ∧ refuses (.allocLookup (hd 0) 1 24) State.reset .outOfRange = true
    ∧ refuses (.allocLookup (hd 0) 2 0) State.reset .outOfRange = true
    ∧ answers (.allocLookup (hd 0) 1 0)
        { State.reset with engine := { State.reset.engine with
          summary := some ⟨0, 0, ⟨0, true⟩, 0, 0, 0, 0, 0, .supervised, false⟩ } }
        (.allocPort (some (.zero, 0))) = true := by decide +kernel

/-- A split that exceeds its budget, with and without residues, and one that does not. -/
theorem test_split :
    (serveTier 1000 [(0, 700, 0), (1, 700, 0), (2, 700, 0)]).map (fun x => (x.got, x.residue))
      = [(400, -67), (300, 33), (300, 33)]
    ∧ (serveTier 0 [(0, 100, 99), (1, 100, -100)]).map (fun x => (x.got, x.residue)) = [(0, -100), (0, 99)]
    ∧ (serveTier 200 [(0, 100, 50), (1, 100, 0)]).map (fun x => (x.got, x.residue)) = [(100, 0), (100, 0)] := by
  decide +kernel

/-! ### Grid reserve commitments -/

theorem test_commitOffer_refusals :
    refuses (.commitOffer (hd 0) 2000 3000 1000 100) State.reset .timeUnset = true
    ∧ refuses (.commitOffer (hd 0) 3000 3000 1000 100) (at_ 5) .outOfRange = true
    ∧ refuses (.commitOffer (hd 0) 1 14402 1000 100) (at_ 5) .outOfRange = true
    ∧ refuses (.commitOffer (hd 0) 2000 3000 999 100) (at_ 5) .outOfRange = true
    ∧ refuses (.commitOffer (hd 0) 2000 3000 1000 101) (at_ 5) .outOfRange = true
    ∧ refuses (.commitOffer (hd 0) 2000 3000 1000 100) (at_ 3000) .outOfRange = true := by decide +kernel

/-- Before the arm point, at it, and at the window start. -/
theorem test_commitOffer_arms :
    let made (now : Nat) (st : CommitState) (ph : WindowPhase) (fl : BitVec 4) (regs : List RegKind) : Bool :=
      gives (.commitOffer (hd 0) 2000 16400 2000000 0) (at_ now) .ok (fun t => decide
        ((t.commit 0).map (fun c => (c.state, c.phase, c.flags, c.armPoint)) = some (st, ph, fl, 1100)
          ∧ t.clock.regs.map Registration.kind = regs))
    made 1099 .pending .ahead 0 [.armPoint, .windowStart, .windowEnd] = true
    ∧ made 1100 .armed .ahead 1 [.windowStart, .windowEnd] = true
    ∧ made 1999 .armed .ahead 1 [.windowStart, .windowEnd] = true
    ∧ made 2000 .armed .opened 1 [.windowEnd] = true := by decide +kernel

theorem test_commitWithdraw :
    refuses (.commitWithdraw (hd 16)) State.reset .outOfRange = true
    ∧ refuses (.commitWithdraw (hd 15)) State.reset .staleId = true
    ∧ refuses (.commitWithdraw (hd (15 + 65536))) (commit 15 commit1 State.reset) .staleId = true
    ∧ refuses (.commitWithdraw (hd 15)) (commit 15 (active1 0 0) State.reset) .commitState = true
    ∧ gives (.commitWithdraw (hd 15)) (commit 15 commit1 (at_ 9)) .ok (fun t => decide ((t.commit 15).map (fun c =>
        (c.state, c.endTime, c.flags)) = some (.withdrawn, some 9, 1))) = true := by decide +kernel

theorem test_commitRelease :
    refuses (.commitRelease (hd 16)) State.reset .outOfRange = true
    ∧ refuses (.commitRelease (hd 0)) (commit 0 commit1 State.reset) .commitState = true
    ∧ answers (.commitRelease (hd 0)) (commit 0 (active1 10 1) (at_ 9)) (.released .met 10 1 0) = true
    ∧ answers (.commitRelease (hd 0)) (commit 0 (active1 10 2) (at_ 9)) (.released .shortfall 10 2 0) = true
    ∧ answers (.commitRelease (hd 0)) (commit 0 (active1 0 0) (at_ 9)) (.released .shortfall 0 0 0) = true := by
  decide +kernel

theorem test_commitRetire :
    refuses (.commitRetire (hd 16)) State.reset .outOfRange = true
    ∧ refuses (.commitRetire (hd 0)) (commit 0 commit1 State.reset) .commitState = true
    ∧ refuses (.commitRetire (hd 0)) (commit 0 (active1 0 0) State.reset) .commitState = true
    ∧ answers (.commitRetire (hd (255 * 65536)))
        (commit 0 { commit1 with state := .met, generation := 255 } { State.reset with commitGens := ⟨[(0, 255)]⟩ })
        (.freed 0 0) = true := by decide +kernel

theorem test_commitDispatch :
    let s := engineOn (at_ 2500)
    let r := Instr.commitDispatch (hd 0)
    refuses (.commitDispatch (hd 16)) s .outOfRange = true
    ∧ refuses r (commit 0 { commit1 with state := .pending } s) .commitState = true
    ∧ refuses r (commit 0 { commit1 with phase := .ahead } s) .notInWindow = true
    ∧ refuses r (commit 1 (active1 0 0) (commit 0 commit1 s)) .reserveBusy = true
    ∧ refuses r (commit 0 commit1 (at_ 2500)) .allocState = true
    ∧ refuses r (commit 0 commit1 { s with supervision := ⟨.lapsed, .stopped⟩ }) .supervisionLapsed = true
    ∧ refuses r (commit 0 commit1 { s with protection := ⟨false, true⟩ }) .tripActive = true
    ∧ gives r (commit 0 commit1 s) .ok (fun t => decide ((t.commit 0).map (fun c =>
        (c.state, c.source, c.baseline, c.flags)) = some (.active, some .request, some 0, 5))) = true := by decide +kernel

theorem test_commitLookup :
    refuses (.commitLookup (hd 16)) State.reset .outOfRange = true
    ∧ refuses (.commitLookup (hd 0)) State.reset .staleId = true
    ∧ answers (.commitLookup (hd 0)) (commit 0 commit1 State.reset) (.commitView0
        ⟨⟨0, 0⟩, 2000, 3000, 1100, 50000, 10, .armed, .opened, none, false, none, none, 1, false, none⟩) = true
    ∧ answers (.commitLookup (hd 0 2)) (commit 0 (active1 1 0) State.reset) (.commitView1
        ⟨⟨0, 0⟩, some .line, some 80000, some 30000, some 2000, 1, 0, none, 0, 0⟩) = true := by decide +kernel

/-- The earliest window is taken, then the lowest slot; an edge with none, or when not supervised, is ignored. -/
theorem test_gridDispatchRisingEdge :
    let s := engineOn (at_ 2500)
    let three := commit 0 { commit1 with windowStart := 2001 } (commit 2 commit1 (commit 5 commit1 s))
    leads .gridDispatchRisingEdge three (fun t => decide (t.activeCommit.map Prod.fst = some 2
        ∧ t.dispatch = ⟨true, true, none⟩)) = true
    ∧ leads .gridDispatchRisingEdge s (fun t => decide (t.siteFlags = 16)) = true
    ∧ leads .gridDispatchRisingEdge { three with supervision := ⟨.fallback, .stopped⟩ }
        (fun t => decide (t.siteFlags = 16 ∧ t.commits = three.commits)) = true
    ∧ still .gridDispatchRisingEdge { s with dispatch := ⟨true, true, none⟩ } = true := by decide +kernel

theorem test_gridDispatchFallingEdge :
    let s : State := { at_ 2500 with dispatch := ⟨true, true, none⟩ }
    still .gridDispatchFallingEdge State.reset = true
    ∧ leads .gridDispatchFallingEdge s (fun t => decide (t.dispatch = ⟨false, false, none⟩)) = true
    ∧ leads .gridDispatchFallingEdge (commit 3 { active1 1 0 with source := some .request } s)
        (fun t => decide ((t.commit 3).map Commitment.state = some .active)) = true
    ∧ leads .gridDispatchFallingEdge (commit 3 (active1 1 0) s)
        (fun t => decide ((t.commit 3).map (fun c => (c.state, c.flags)) = some (.met, 9))) = true := by decide +kernel

theorem test_armPointCrossing :
    let fired : State := { at_ 1100 with clock := { (at_ 1100).clock with fired := [⟨.armPoint, 15, 1100⟩] } }
    leads (.armPointCrossing 15) (commit 15 { commit1 with state := .pending, phase := .ahead, flags := 0 } fired)
      (fun t => decide ((t.commit 15).map (fun c => (c.state, c.flags)) = some (.armed, 1))) = true := by decide +kernel

theorem test_windowStartCrossing :
    let fired : State := { at_ 2000 with clock := { (at_ 2000).clock with fired := [⟨.windowStart, 0, 2000⟩] } }
    leads (.windowStartCrossing 0) (commit 0 { commit1 with phase := .ahead } fired)
      (fun t => decide ((t.commit 0).map Commitment.phase = some .opened)) = true := by decide +kernel

theorem test_windowEndCrossing :
    let fired : State := { at_ 3000 with clock := { (at_ 3000).clock with fired := [⟨.windowEnd, 0, 3000⟩] } }
    let ends (c : Commitment) (o : CommitState) : Bool := leads (.windowEndCrossing 0) (commit 0 c fired)
      (fun t => decide ((t.commit 0).map (fun c => (c.state, c.outcome, c.endTime)) = some (o, some o, some 3000)))
    ends commit1 .notDispatched = true ∧ ends (active1 0 0) .shortfall = true
    ∧ ends (active1 10 2) .shortfall = true ∧ ends (active1 10 1) .met = true := by decide +kernel

/-! ### Protection and supervision -/

theorem test_siteTrip :
    let s := engineOn (inSession .energized ⟨5000, .exp⟩ (at_ 9))
    still .siteTripAssertion { s with protection := ⟨true, true⟩ } = true
    ∧ leads .siteTripAssertion { s with protection := ⟨false, true⟩ } (fun t => decide (t.siteFlags = 2
        ∧ (t.port p0).state = .energized)) = true
    ∧ leads .siteTripAssertion (commit 0 (active1 1 0) s) (fun t => decide ((t.port p0).state = .held
        ∧ (t.port p0).held = .zero ∧ (t.port p0).command = .opened ∧ (t.port p0).session = some session0
        ∧ (t.port p0).weld = .running 200 0 ∧ (t.commit 0).map Commitment.state = some .interrupted
        ∧ t.protection = ⟨true, true⟩)) = true
    ∧ leads .siteTripAssertion (closing true .closed (at_ 9)) (fun t => decide ((t.port p0).state = .closing
        ∧ (t.port p0).quiet = .stopped ∧ (t.port p0).command = .opened)) = true
    ∧ leads .siteTripDeassertion { s with protection := ⟨true, true⟩ }
        (fun t => decide (t.protection = ⟨false, true⟩)) = true := by decide +kernel

theorem test_clearTrip :
    refuses (.clearTrip (hd 0)) { State.reset with protection := ⟨true, true⟩ } .tripActive = true
    ∧ refuses (.clearTrip (hd 0)) State.reset .ok = true
    ∧ answers (.clearTrip (hd 0)) { inSession .held .zero State.reset with protection := ⟨false, true⟩ }
        (.tripCleared false 1) = true
    ∧ gives (.clearTrip (hd 0)) { inSession .held .zero State.reset with protection := ⟨false, true⟩ } .ok
        (fun t => decide ((t.port p0).state = .connected ∧ t.protection = ⟨false, false⟩)) = true := by decide +kernel

theorem test_keepalive :
    refuses (.keepalive (hd 0)) State.reset .ok = true
    ∧ gives (.keepalive (hd 0)) { engineOn State.reset with supervision := ⟨.fallback, .stopped⟩ } .ok
        (fun t => decide (t.supervision = ⟨.supervised, .running 30000 0⟩ ∧ t.siteFlags = 4)) = true
    ∧ gives (.keepalive (hd 0)) (engineOn State.reset) .ok (fun t => decide (t.siteFlags = 0)) = true := by decide +kernel

theorem test_supervisionTimerExpiry :
    let s (st : SupState) (sp : Setpoint) : State :=
      { inSession .energized sp (engineOn (at_ 9)) with supervision := ⟨st, .running 30000 30000⟩ }
    still .supervisionTimerExpiry State.reset = true
    ∧ still .supervisionTimerExpiry { engineOn State.reset with supervision := ⟨.lapsed, .running 30000 29999⟩ } = true
    ∧ gives (.keepalive (hd 0)) (s .supervised ⟨5000, .exp⟩) .ok (still .supervisionTimerExpiry) = true
    ∧ leads .supervisionTimerExpiry (s .supervised ⟨5000, .exp⟩) (fun t => decide ((t.port p0).held = .zero
        ∧ t.supervision = ⟨.lapsed, .running 30000 0⟩ ∧ t.siteFlags = 4)) = true
    ∧ leads .supervisionTimerExpiry (s .supervised ⟨5000, .imp⟩)
        (fun t => decide ((t.port p0).held = ⟨5000, .imp⟩)) = true
    ∧ leads .supervisionTimerExpiry (s .lapsed ⟨5000, .imp⟩) (fun t => decide ((t.port p0).held = .zero
        ∧ t.supervision = ⟨.fallback, .stopped⟩)) = true := by decide +kernel

/-! ### Rings -/

theorem test_ringBaseAndSize :
    leads (.ringBaseWrite .completion 0x12345678FF) State.reset
      (fun t => decide (t.ring.completion.base = 0x12345678C0 ∧ t.ring.completion.baseSet)) = true
    ∧ leads (.ringSizeWrite .request 16) { State.reset with ring := { Ring.powerOn with request := ⟨0, false, 32, 5, 6⟩ } }
      (fun t => decide (t.ring.request = ⟨0, false, 16, 0, 0⟩)) = true
    ∧ still (.ringBaseWrite .request 64) { State.reset with ring := { Ring.powerOn with state := .running } } = true
    ∧ still (.ringSizeWrite .request 64) { State.reset with ring := { Ring.powerOn with state := .fetchError } } = true := by
  decide +kernel

theorem test_thresholdAndHoldTime :
    leads (.completionThresholdWrite 65) State.reset (fun t => decide (t.ring.threshold = 64)) = true
    ∧ leads (.completionThresholdWrite 0) State.reset (fun t => decide (t.ring.threshold = 1)) = true
    ∧ leads (.completionThresholdWrite 3) { State.reset with ring := { Ring.powerOn with
          unreported := 3, threshold := 9, holdTimer := .running 10 1 } }
        (fun t => decide (t.ring.pendingFlag ∧ t.ring.unreported = 0 ∧ t.ring.holdTimer = .stopped)) = true
    ∧ leads (.completionHoldTimeWrite 1001) State.reset (fun t => decide (t.ring.holdTime = 1000)) = true
    ∧ leads (.completionHoldTimeWrite 0) State.reset (fun t => decide (t.ring.holdTime = 1)) = true := by decide +kernel

theorem test_maskAndAcknowledge :
    leads (.attentionMaskWrite 0xFFFFFFFF) State.reset (fun t => decide (t.mask = 31)) = true
    ∧ leads (.interruptAcknowledge 3) { State.reset with ring := { Ring.powerOn with pendingFlag := true } }
        (fun t => decide (t.ring.pendingFlag = false)) = true
    ∧ still (.interruptAcknowledge 2) { State.reset with ring := { Ring.powerOn with pendingFlag := true } } = true := by
  decide +kernel

/-- Rings that are usable, with k requests waiting in the request ring. -/
def usable (st : RingState) (k : Nat) : State := { State.reset with ring := { Ring.powerOn with
  state := st, enable := st == .running, request := ⟨64, true, 16, k, 0⟩, completion := ⟨4096, true, 16, 0, 0⟩ } }

theorem test_pointers :
    leads (.requestWritePointerWrite 15) (usable .running 0)
      (fun t => decide (t.ring.request.write = 15 ∧ t.ring.burst = some ⟨List.range 12⟩)) = true
    ∧ still (.requestWritePointerWrite 16) (usable .running 0) = true
    ∧ leads (.requestWritePointerWrite 3)
      { State.reset with ring := { (usable .running 0).ring with request := ⟨64, true, 16, 14, 14⟩ } }
      (fun t => decide (t.ring.burst = some ⟨[14, 15, 0, 1, 2]⟩)) = true
    ∧ leads (.completionReadPointerWrite 15) (usable .running 0) (fun t => decide (t.ring.completion.read = 15)) = true
    ∧ still (.completionReadPointerWrite 16) (usable .running 0) = true := by decide +kernel

theorem test_ringControl :
    leads .ringEnable (usable .stopped 3) (fun t => decide (t.ring.state = .running ∧ t.ring.enable
        ∧ t.ring.burst = some ⟨[0, 1, 2]⟩)) = true
    ∧ still .ringEnable State.reset = true ∧ still .ringEnable (usable .fetchError 3) = true
    ∧ leads .ringDisable (usable .running 3) (fun t => decide (t.ring.state = .stopped ∧ t.ring.enable = false)) = true
    ∧ still .ringDisable (usable .stopped 3) = true
    ∧ leads .ringReset { usable .fetchError 3 with siteFlags := 32, mask := 5 } (fun t => decide
        (t.ring = { Ring.powerOn with request := ⟨64, true, 16, 0, 0⟩, completion := ⟨4096, true, 16, 0, 0⟩ }
          ∧ t.siteFlags = 32 ∧ t.mask = 5)) = true := by decide +kernel

theorem test_statusWord :
    State.reset.statusWord = 0
    ∧ ({ engineOn (at_ 5) with
          protection := ⟨false, true⟩, supervision := ⟨.fallback, .stopped⟩
          ring := { Ring.powerOn with state := .fetchError, pendingFlag := true } } : State).statusWord = 0xDE := by
  decide +kernel

theorem test_fetchBurstEnd :
    let q : Request := ⟨hd 0, .keepalive⟩
    let s : State := { usable .running 3 with ring := { (usable .running 3).ring with burst := some ⟨[0, 1]⟩ } }
    leads (.fetchBurstEnd [q, q]) s (fun t => decide (t.ring.buffer = [q, q] ∧ t.ring.request.read = 2
        ∧ t.ring.burst = some ⟨[2]⟩)) = true
    ∧ still (.fetchBurstEnd [q]) s = true
    ∧ faults (.fetchBurstEnd []) s = true
    ∧ leads (.fetchBurstEnd [q, q]) { s with ring := { s.ring with state := .stopped, buffer := [q, q] } }
        (fun t => decide (t.ring.buffer.length = 4 ∧ t.ring.burst = none)) = true := by decide +kernel

theorem test_fetchError :
    still .fetchError State.reset = true
    ∧ leads .fetchError { usable .running 3 with ring := { (usable .running 3).ring with burst := some ⟨[0, 1]⟩ } }
        (fun t => decide (t.ring.state = .fetchError ∧ t.ring.burst = none ∧ t.siteFlags = 32)) = true := by decide +kernel

/-- A write in flight at the last entry, with a count below and at one less than the threshold. -/
def writing (count threshold : Nat) : State := { usable .running 0 with ring := { (usable .running 0).ring with
  completion := ⟨4096, true, 16, 15, 3⟩, writing := some ⟨15, ⟨7, 31, .ok, 0, .none⟩⟩
  unreported := count, threshold := threshold } }

theorem test_completionWriteDone :
    still .completionWriteDone State.reset = true
    ∧ leads .completionWriteDone (writing 0 2) (fun t => decide (t.ring.unreported = 1 ∧ t.ring.completion.write = 0
        ∧ t.ring.holdTimer = .running 10 0 ∧ t.ring.pendingFlag = false ∧ t.ring.writing = none)) = true
    ∧ leads .completionWriteDone (writing 1 2) (fun t => decide (t.ring.unreported = 0 ∧ t.ring.pendingFlag)) = true := by
  decide +kernel

theorem test_completionWriteError :
    still .completionWriteError State.reset = true
    ∧ leads .completionWriteError (writing 0 2) (fun t => decide (t.ring.completion.write = 15 ∧ t.ring.writing = none
        ∧ t.ring.state = .fetchError ∧ t.siteFlags = 32)) = true := by decide +kernel

theorem test_holdTimerExpiry :
    still .holdTimerExpiry State.reset = true
    ∧ leads .holdTimerExpiry { State.reset with ring := { Ring.powerOn with unreported := 1, holdTimer := .running 10 10 } }
        (fun t => decide (t.completionIrq ∧ t.ring.unreported = 0 ∧ t.ring.holdTimer = .stopped)) = true := by decide +kernel

/-! ### Attention -/

/-- Flags in each category. -/
def flagged : State :=
  commit 15 commit1 (plan 511 { plan1 .standard [] with final := true }
    (bus 191 { bus7 with flags := 3 } (port0 (fun p => { p with flags := 8, ma := { p.ma with glitch := true } })
      { State.reset with siteFlags := 32 })))

theorem test_attentionScan :
    refuses (.attentionScan (hd 746)) flagged .outOfRange = true
    ∧ answers (.attentionScan (hd 745)) flagged (.scan 745 []) = true
    ∧ answers (.attentionScan (hd 728)) flagged (.scan 745 [⟨3, 511, 1⟩, ⟨4, 15, 1⟩]) = true
    ∧ [0, 1, 24, 216, 728, 744].map (fun k => (flagged.scanAt k).map ScanEntry.flags)
      = [some 32, some 8, none, some 3, some 1, some 1] := by decide +kernel

/-- Eight entries end the scan behind the last of them. -/
theorem test_attentionScan_eight :
    answers (.attentionScan (hd 0)) { State.reset with ports := State.reset.ports.map fun p => { p with flags := 1 } }
      (.scan 9 [⟨1, 0, 1⟩, ⟨1, 1, 1⟩, ⟨1, 2, 1⟩, ⟨1, 3, 1⟩, ⟨1, 4, 1⟩, ⟨1, 5, 1⟩, ⟨1, 6, 1⟩, ⟨1, 7, 1⟩]) = true := by
  decide +kernel

theorem test_attentionClear_refusals :
    refuses (.attentionClear (hd 0) 5 0) flagged .outOfRange = true
    ∧ refuses (.attentionClear (hd 1) 0 0) flagged .outOfRange = true
    ∧ refuses (.attentionClear (hd 0) 0 64) flagged .outOfRange = true
    ∧ refuses (.attentionClear (hd 24) 1 0) flagged .outOfRange = true
    ∧ refuses (.attentionClear (hd 190) 2 1023) flagged .notFound = true
    ∧ refuses (.attentionClear (hd 510) 3 1) flagged .notFound = true
    ∧ refuses (.attentionClear (hd 0) 4 15) flagged .notFound = true := by decide +kernel

theorem test_attentionClear_clears :
    gives (.attentionClear (hd 0) 0 63) flagged .ok (fun t => decide (t.siteFlags = 0)) = true
    ∧ gives (.attentionClear (hd 0) 1 8) flagged .ok
        (fun t => decide ((t.port p0).flags = 0 ∧ (t.port p0).ma.glitch = false)) = true
    ∧ answers (.attentionClear (hd 191) 2 1) flagged (.flags 2) = true
    ∧ answers (.attentionClear (hd 511) 3 1) flagged (.flags 0) = true
    ∧ answers (.attentionClear (hd 15) 4 8) flagged (.flags 1) = true := by decide +kernel

theorem test_attentionIrq :
    flagged.attentionIrq = false
    ∧ [1, 2, 4, 8, 16].map (fun m => ({ flagged with mask := BitVec.ofNat 5 m } : State).attentionIrq)
      = [true, true, true, true, true]
    ∧ ({ State.reset with mask := 31 } : State).attentionIrq = false := by decide +kernel

/-! ### Encodings and invariants -/

theorem test_stepRecord :
    let st : PlanStep := ⟨.exportTo, 300001, 150000, some 5, some 4294967295⟩
    st.bytes = [0xDC, 0x75, 0xE1, 0x93, 0x04, 0x00, 0x05, 0x00, 0x00, 0x00, 0xFF, 0xFF, 0xFF, 0xFF]
    ∧ (rawStepOfBytes st.bytes).store 300000 = some st := by decide +kernel

/-- A table of one row holds its record alone. -/
theorem one_row {α : Type} (j i : Nat) (x y : α) (h : (Table.mk [(j, x)]).get i = some y) : i = j ∧ y = x := by
  unfold Table.get at h
  by_cases hi : j = i
  · subst hi; simp at h; exact ⟨rfl, h.symm⟩
  · simp [hi] at h

/-- A state in which port 0 is ENERGIZED with the bus of slot 0. -/
def charging : State := engineOn (inSession .energized ⟨5000, .imp⟩ (at_ 100))

theorem charging_bus (i : Nat) (b : Bus) (h : charging.bus i = some b) :
    i = 0 ∧ b = { bus7 with location := some 0 } := by
  have h' : (Table.mk [(0, { bus7 with location := some 0 })] : Table Bus).get i = some b := h
  exact one_row 0 i _ b h'

/-- It meets every invariant about tables, locations and registrations. -/
theorem witness_tables : charging.TablesOk ∧ charging.Agrees ∧ charging.Ahead ∧ charging.OneActive := by
  refine ⟨⟨⟨by decide +kernel, by decide +kernel⟩, ⟨by decide +kernel, by decide +kernel⟩,
    ⟨by decide +kernel, by decide +kernel⟩, ⟨by decide +kernel, by decide +kernel⟩,
    ⟨by decide +kernel, by decide +kernel⟩, by decide +kernel⟩, fun i n => ?_, ?_, ?_⟩
  · have hp : ∀ n : PortNo, (charging.port n).boundSlot = if n = 0 then some 0 else none := by decide +kernel
    rw [hp]
    constructor
    · intro h
      split at h
      · next hn => subst hn; cases h; exact ⟨_, rfl, rfl⟩
      · cases h
    · rintro ⟨b, hb, hl⟩
      obtain ⟨rfl, rfl⟩ := charging_bus i b hb
      cases hl; rfl
  · intro r h; cases h
  · intro i j c d h; cases h

/-- And the one about port records. -/
theorem witness_ports : charging.PortsOk := by
  have h1 : ∀ n : PortNo, (charging.port n).number = n
      ∧ (charging.port n).session.isSome = (charging.port n).state.inSession
      ∧ ((charging.port n).held.mag ≠ 0 → (charging.port n).state.powered = true)
      ∧ ((charging.port n).held.mag = 0 ↔ (charging.port n).held.dir = .none)
      ∧ (charging.port n).pendingTarget = none ∧ ((charging.port n).state == .closing) = false
      ∧ (charging.port n).faultCode.isSome = ((charging.port n).state == .faulted) := by decide +kernel
  have h2 : ∀ n : PortNo, (charging.port n).settling = .stopped ∧ (charging.port n).debounce = .stopped
      ∧ (charging.port n).answer = .stopped ∧ (charging.port n).confirmation = .stopped
      ∧ (charging.port n).openDelay = .stopped ∧ (charging.port n).quiet = .stopped
      ∧ (charging.port n).limit = .stopped ∧ (charging.port n).stall = .stopped
      ∧ (charging.port n).weld = .stopped ∧ ((charging.port n).state == .detecting) = false
      ∧ ((charging.port n).state == .energizing) = false
      ∧ ((charging.port n).state == .energized && (charging.port n).held.mag == 0) = false := by decide +kernel
  have h3 : ∀ n : PortNo, ((charging.port n).state.powered = true → (charging.port n).command = .closed)
      ∧ ((charging.port n).command = .closed → (charging.port n).state.powered = true) := by decide +kernel
  have h4 : ∀ n : PortNo, (1 ≤ (charging.port n).energyPerCount ∧ (charging.port n).energyPerCount ≤ 100)
      ∧ (1 ≤ (charging.port n).filterThreshold ∧ (charging.port n).filterThreshold ≤ 255)
      ∧ ((charging.port n).ma.counter ≤ 255 ∧ (charging.port n).mb.counter ≤ 255)
      ∧ (charging.port n).attempts ≤ 3 ∧ (charging.port n).wrongRun ≤ 4
      ∧ ((charging.port n).stray ≤ 65535 ∧ (charging.port n).idle ≤ 65535 ∧ (charging.port n).checkErrors ≤ 65535
        ∧ (charging.port n).discards ≤ 65535)
      ∧ ((charging.port n).sessionImport ≤ maxWord ∧ (charging.port n).sessionExport ≤ maxWord)
      ∧ (-100 ≤ (charging.port n).residue ∧ (charging.port n).residue ≤ 99) := by decide +kernel
  intro n
  obtain ⟨a1, a2, a3, a4, a5, a6, a7⟩ := h1 n
  obtain ⟨b1, b2, b3, b4, b5, b6, b7, b8, b9, b10, b11, b12⟩ := h2 n
  obtain ⟨c1, c2⟩ := h3 n
  obtain ⟨d1, d2, d3, d4, d5, d6, d7, d8⟩ := h4 n
  exact ⟨a1, ⟨a2, a3, a4, by rw [a5, a6]; rfl, by rw [a5]; simp, a7⟩,
    ⟨by rw [b1]; simp [Timer.isRunning], by rw [b2, b10]; rfl, by rw [b3]; simp [Timer.isRunning],
      by rw [b4, b11]; rfl, by rw [b5, b12]; rfl, by rw [b6]; simp [Timer.isRunning], by rw [b6, b7],
      by rw [b8]; simp [Timer.isRunning], by rw [b9]; simp [Timer.isRunning]⟩,
    ⟨c1, fun h => .inl (c2 h)⟩, ⟨d1, d2, d3, d4, d5, d6, d7, d8⟩⟩

/-- Running rings that meet the invariant of the Ring Interface. -/
theorem witness_rings : (usable .running 3).ring.Ok := by
  refine ⟨by decide +kernel, fun _ => ⟨rfl, ⟨rfl, by decide +kernel⟩, ⟨rfl, by decide +kernel⟩⟩, ?_, .inr ?_, .inr ?_,
    by decide +kernel, by decide +kernel, by decide +kernel, by decide +kernel⟩
  · intro h; cases h
  · exact ⟨by decide +kernel, by decide +kernel⟩
  · exact ⟨by decide +kernel, by decide +kernel⟩


/-! ### Crossings in order, and the load -/

/-- A forward jump that passes a crossing and leaves one ahead. -/
theorem test_setTime_jump :
    gives (.setTime (hd 0) 2000) (bus 0 { bus7 with departure := some ⟨1500, 1, 2, .pending, false⟩ }
        { at_ 1000 with clock := { (at_ 1000).clock with regs := [⟨.departure, 0, 1500⟩, ⟨.armPoint, 1, 2001⟩] } }) .ok
      (fun t => decide (t.now = 2000 ∧ t.siteFlags = 8 ∧ t.clock.regs = [⟨.armPoint, 1, 2001⟩] ∧ t.clock.fired = []
        ∧ (t.bus 0).map Bus.readiness = some .overdue)) = true := by decide +kernel

/-- Two crossings of one record at one time keep the order of their registration. -/
theorem test_sameRecordOrder :
    let s (rs : List Registration) : State := { at_ 99 with clock := { (secondOver 99).clock with regs := rs } }
    let keeps (rs : List Registration) : Bool := leads .depotTimeAdvance (s rs) fun t => decide (t.clock.fired = rs)
    keeps [⟨.endBy, 4, 100⟩, ⟨.holdUntil, 4, 100⟩] = true ∧ keeps [⟨.holdUntil, 4, 100⟩, ⟨.endBy, 4, 100⟩] = true := by
  decide +kernel

/-- The load of one staged field. -/
def loaded (f : SiteParams → SiteParams) (s : State) : State :=
  State.load { s with site := { s.site with staged := f s.site.live, loadPending := true } }

/-- A new offset with a rollover and without, and in an UNSET clock. -/
theorem test_load_offset :
    let s : State := bus 0 { bus7 with exportUsed := 5 } { at_ 100000 with clock :=
      { (at_ 100000).clock with day := 0, regs := [⟨.rollover, 0, 100800⟩] } }
    let went (o : Nat) := let t := loaded (fun p => { p with rolloverOffset := o }) s
      (t.clock.day, t.clock.regs, (t.bus 0).map Bus.exportUsed, t.site.loadPending)
    went 0 = (1, [⟨.rollover, 0, 172800⟩], some 0, false)
    ∧ went 20000 = (0, [⟨.rollover, 0, 106400⟩], some 5, false)
    ∧ went 14400 = (0, [⟨.rollover, 0, 100800⟩], some 5, false)
    ∧ (loaded (fun p => { p with rolloverOffset := 0 }) State.reset).clock = State.reset.clock := by decide +kernel

/-- A new trickle power, without and with a FAULT_REPORT. -/
theorem test_load_trickle :
    let s (f : Option FaultReport) : State := port0 (fun p => { p with
      state := .connected, session := some ⟨.unidentified .noAnswer, 0, none, 7000, 0⟩, lastFault := f }) State.reset
    let cap (f : Option FaultReport) :=
      ((loaded (fun p => { p with tricklePower := 22000 }) (s f)).port p0).session.map Session.importCap
    cap none = some 22000 ∧ cap (some ⟨1, 0⟩) = some 7000 := by decide +kernel

/-- A new lockout window for a PENDING part: ahead, passed, and none. -/
theorem test_load_lockout :
    let s : State := bus 0 { bus7 with departure := some ⟨9000, 1, 2, .pending, false⟩ } { at_ 1000 with
      clock := { (at_ 1000).clock with regs := [⟨.departure, 0, 9000⟩, ⟨.lockout, 0, 1800⟩] } }
    let regs (w : Nat) := (loaded (fun p => { p with lockoutWindow := w }) s).clock.regs
    regs 7999 = [⟨.departure, 0, 9000⟩, ⟨.lockout, 0, 1001⟩] ∧ regs 8000 = [⟨.departure, 0, 9000⟩]
    ∧ regs 0 = [⟨.departure, 0, 9000⟩] ∧ regs 7200 = [⟨.departure, 0, 9000⟩, ⟨.lockout, 0, 1800⟩] := by
  decide +kernel

/-- A PENDING commitment with its three registrations. -/
def pendingAt (now : Nat) : State := commit 1 { commit1 with state := .pending, phase := .ahead, flags := 0 }
  { at_ now with clock := { (at_ now).clock with
      regs := [⟨.armPoint, 1, 1100⟩, ⟨.windowStart, 1, 2000⟩, ⟨.windowEnd, 1, 3000⟩] } }

/-- A new arm lead with the arm point ahead, and at now. -/
theorem test_load_armLead :
    let went (lead : Nat) := let t := loaded (fun p => { p with armLead := lead }) (pendingAt 1000)
      ((t.commit 1).map fun c => (c.armPoint, c.state, c.flags), t.clock.regs)
    went 100 = (some (1900, .pending, 0), [⟨.windowEnd, 1, 3000⟩, ⟨.armPoint, 1, 1900⟩, ⟨.windowStart, 1, 2000⟩])
    ∧ went 999 = (some (1001, .pending, 0), [⟨.windowEnd, 1, 3000⟩, ⟨.armPoint, 1, 1001⟩, ⟨.windowStart, 1, 2000⟩])
    ∧ went 1000 = (some (1000, .armed, 1), [⟨.windowStart, 1, 2000⟩, ⟨.windowEnd, 1, 3000⟩]) := by decide +kernel

/-- That state meets the premise of the statement about the load. -/
theorem witness_load : (pendingAt 1000).TablesOk :=
  ⟨⟨by decide +kernel, by decide +kernel⟩, ⟨by decide +kernel, by decide +kernel⟩, ⟨by decide +kernel, by decide +kernel⟩,
    ⟨by decide +kernel, by decide +kernel⟩, ⟨by decide +kernel, by decide +kernel⟩, by decide +kernel⟩

/-! ### Lists, BUS_CHANGE and blocking -/

/-- Bus 7 at port 0 with two plans listed and a departure part. -/
def listing : Bus :=
  { bus7 with location := some 0, stdList := [0, 1], departure := some ⟨9000, 200000, 2, .pending, false⟩ }

/-- Port 0 ENERGIZED with that bus, which runs a STANDARD step. -/
def running (sp : Setpoint) (st : PlanStep) : State :=
  runs 0 0 .standard st (plan 1 (plan1 .standard [hold9]) (bus 0 listing (inSession .energized sp (at_ 1000))))

theorem running_lists : (running ⟨5000, .imp⟩ toFull).ListsAgree := by
  intro i b h
  have h' : (Table.mk [(0, listing)]).get i = some b := h
  obtain ⟨rfl, rfl⟩ := one_row 0 i listing b h'
  have p0 : (running ⟨5000, .imp⟩ toFull).plan 0
      = some { plan1 .standard [toFull] with state := .running, cond := some .active } := by decide +kernel
  have p1 : (running ⟨5000, .imp⟩ toFull).plan 1 = some (plan1 .standard [hold9]) := by decide +kernel
  have two : ∀ j ∈ ([] ++ [0, 1] : List Nat), j = 0 ∨ j = 1 := by decide
  refine ⟨fun j hj => (by cases hj), fun j hj => ?_, by decide +kernel, by decide +kernel, ?_⟩
  · rcases two j hj with rfl | rfl
    · exact ⟨_, p0, rfl, rfl, rfl⟩
    · exact ⟨_, p1, rfl, rfl, rfl⟩
  · have only : ∀ j p, j ∈ ([] ++ [0, 1] : List Nat) → (running ⟨5000, .imp⟩ toFull).plan j = some p →
        p.state = .running → j = 0 := by
      intro j p hj hp sp
      rcases two j hj with rfl | rfl
      · rfl
      · rw [p1] at hp; cases hp; cases sp
    intro j k p q hj hk hp hq sp sq
    rw [only j p hj hp sp, only k q hk hq sq]

/-- The RUNNING plan is STOPPED and the waiting one RETURNED. -/
theorem test_blockingFault_lists :
    let t := State.blockBus 0 .energyStall (running ⟨5000, .imp⟩ toFull)
    ((t.plan 0).map fun p => (p.state, p.outcome, p.finish, p.final)) = some (.stopped, some .busFault, some 1000, true)
    ∧ ((t.plan 1).map fun p => (p.state, p.outcome)) = some (.returned, some .busBlocked)
    ∧ (t.bus 0).map (fun b => (b.block, b.stdList)) = some (.blocked, []) := by decide +kernel

/-- An applied count at that state moves the RUNNING plan. -/
theorem test_countedInPlan :
    leads (.filteredTransition 0 (.one .ma)) (running ⟨5000, .imp⟩ toFull) (fun t => decide
      ((t.plan 0).map (fun p => (p.imported, p.exported)) = some (10, 0)
        ∧ (t.bus 0).map (fun b => (b.soe, b.source)) = some (some 150010, .integrated))) = true := by decide +kernel

/-- A capacity at SoE ends an IMPORT_TO step whose target it lowers; one above it only lowers the target. -/
theorem test_busChange_capacityEndsStep :
    let asks (c : Nat) := Instr.busChange (hd 7) ⟨some (BitVec.ofNat 32 c), none, none, none, none, none⟩
    gives (asks 150000) (running ⟨5000, .imp⟩ toFull) .ok (fun t => decide
      ((t.plan 0).map (fun p => (p.state, p.steps.map PlanStep.value)) = some (.done, [150000])
        ∧ (t.plan 1).map Plan.state = some .running ∧ (t.port p0).held = .zero
        ∧ (t.bus 0).map (fun b => b.departure.map fun d => (d.eReq, d.reqClamped)) = some (some (150000, true)))) = true
    ∧ gives (asks 150001) (running ⟨5000, .imp⟩ toFull) .ok (fun t => decide
      ((t.plan 0).map (fun p => (p.state, p.steps.map PlanStep.value)) = some (.running, [150001])
        ∧ (t.port p0).held = ⟨5000, .imp⟩)) = true := by decide +kernel

/-- A lower import cap lowers the session cap and the setpoint; the same at the setpoint leaves it. -/
theorem test_busChange_caps :
    let asks (c : Nat) := Instr.busChange (hd 7) ⟨none, some (BitVec.ofNat 32 c), none, none, none, none⟩
    let s := inSession .energized ⟨5000, .imp⟩ (at_ 9)
    gives (asks 4999) s .ok (fun t => decide ((t.port p0).held = ⟨4900, .imp⟩
      ∧ (t.port p0).session.map Session.importCap = some 4999)) = true
    ∧ gives (asks 5000) s .ok (fun t => decide ((t.port p0).held = ⟨5000, .imp⟩)) = true
    ∧ answers (asks 5000) s (.busFields 7 300000 5000 50000 true 30000 100000 (some 150000) .enrolled) = true := by
  decide +kernel

/-- A floor raised to SoE ends an EXPORT_TO step and the export; one below it leaves both. -/
theorem test_busChange_floor :
    let asks (f : Nat) := Instr.busChange (hd 7) ⟨none, none, none, none, some (BitVec.ofNat 32 f), none⟩
    let s : State := runs 0 0 .standard ⟨.exportTo, 1000, 5000, none, none⟩
      (bus 0 { bus7 with location := some 0, stdList := [0] } (inSession .energized ⟨5000, .exp⟩ (at_ 9)))
    gives (asks 150000) s .ok (fun t => decide ((t.plan 0).map Plan.state = some .done ∧ (t.port p0).held = .zero)) = true
    ∧ gives (asks 149999) s .ok
      (fun t => decide ((t.plan 0).map Plan.state = some .running ∧ (t.port p0).held = ⟨5000, .exp⟩)) = true
    ∧ gives (asks 150000) (inSession .energized ⟨5000, .exp⟩ (at_ 9)) .ok
      (fun t => decide ((t.port p0).held = .zero)) = true := by decide +kernel

/-- The class and the count of a submission at their bounds. -/
theorem test_planSubmit_header :
    let r := raw 0 500 200000 none none
    refuses (.planSubmit (hd 7 41) r r r r) (bus 0 bus7 State.reset) .outOfRange = true
    ∧ refuses (.planSubmit (hd 7 11) r r r r) (bus 0 bus7 State.reset) .outOfRange = true
    ∧ gives (.planSubmit (hd 7 32) r r r r) (bus 0 bus7 State.reset) .ok
        (fun t => decide ((t.plan 0).map (fun p => (p.cls, p.steps.length)) = some (.priority, 4))) = true
    ∧ gives (.planSubmit (hd 7 9) r r r r) (bus 0 bus7 State.reset) .ok
        (fun t => decide ((t.plan 0).map (fun p => (p.cls, p.steps.length)) = some (.standard, 1))) = true := by
  decide +kernel

/-! ### CLOSING -/

/-- A trip finds the feedback of a CLOSING port OPEN: CLOSING stays, and the taking of OPEN ends it. -/
theorem test_trip_closing :
    let s := closing true .opened (at_ 9)
    let tripped (t : State) : Bool := decide ((t.port p0).state = .closing ∧ (t.port p0).command = .opened
      ∧ (t.port p0).quiet = .stopped ∧ (t.port p0).session = some session0
      ∧ (t.port p0).pendingTarget = some .offline ∧ (t.port p0).flags = 0)
    leads .siteTripAssertion s tripped = true
    ∧ nextWith (exec .siteTripAssertion s) (fun t => leads (.feedbackTaken 0 .opened) t fun u => decide
        ((u.port p0).state = .offline ∧ (u.port p0).session = none ∧ (u.port p0).flags = 1)) = true
    ∧ still (.feedbackTaken 0 .opened) s = true := by decide +kernel

/-- REIDENTIFY at the timers' expiry with the feedback OPEN: reached at PLUGGED, dropped at FAULT. -/
theorem test_closingTimers_reidentify :
    let s (l : PilotLevel) : State :=
      port0 (fun p => { p with pendingTarget := some .reidentify, taken := l }) (closing true .opened (at_ 9))
    let goes (i : Instr) (l : PilotLevel) (st : PortState) (attempts : Nat) (o : TransitionOutcome) (f : BitVec 6) : Bool :=
      leads i (s l) fun t => decide ((t.port p0).state = st ∧ (t.port p0).attempts = attempts
        ∧ (t.port p0).lastTransition = some ⟨.reidentify, o, 9⟩ ∧ (t.port p0).flags = f ∧ (t.port p0).session = none)
    goes (.quietTimerExpiry 0) .plugged .identifying 1 .reached 1 = true
    ∧ goes (.quietTimerExpiry 0) .fault .vacant 0 .dropped 1 = true
    ∧ goes (.limitTimerExpiry 0) .ready .identifying 1 .reached 17 = true
    ∧ goes (.limitTimerExpiry 0) .fault .vacant 0 .dropped 17 = true := by decide +kernel

/-! ### The computation, stage by stage -/

/-- Two buses with floors, the second with less slack, and an unidentified session. -/
def floors (feeder : Nat) : State :=
  let b (number eReq : Nat) : Bus := { bus7 with number := number, departure := some ⟨5500, eReq, 1, .pending, false⟩ }
  let s := seat 1 1 (b 8 240000) (seat 0 0 (b 7 200000) (engineOn (ratedTo feeder (at_ 1000))))
  { s with ports := s.ports.set 2 { s.port 2 with
      state := .connected, taken := .ready, session := some ⟨.unidentified .noAnswer, 0, none, 7000, 0⟩ } }

/-- The tier-A grants of ports 0 to 2, with the tier-A total and the budget. -/
def tierAs (t : State) : List Nat × Option (Nat × Nat) :=
  ([0, 1, 2].map fun n : PortNo => t.engine.ports[n].tierA, t.engine.summary.map fun x => (x.tierATotal, x.budget))

/-- All fit; the second of the order does not; nothing is left for the third. -/
theorem test_tierA :
    leads .allocationComputation (floors 1000000)
      (fun t => decide (tierAs t = ([50000, 90000, 7000], some (147000, 833000)))) = true
    ∧ leads .allocationComputation (floors 120050)
      (fun t => decide (tierAs t = ([10000, 90000, 0], some (100000, 50)))) = true
    ∧ leads .allocationComputation (floors 1000000) (fun t => decide
      ((t.bus 0).map (fun b => (b.readiness, b.slack)) = some (.onTrack, some 1800)
        ∧ (t.bus 1).map (fun b => (b.readiness, b.slack, b.flags)) = some (.atRisk, some 360, 4))) = true := by
  decide +kernel

/-- The budget under FALLBACK and under an ACTIVE commitment. -/
theorem test_budget :
    leads .allocationComputation { floors 1000000 with supervision := ⟨.fallback, .stopped⟩ }
      (fun t => decide ((tierAs t).2 = some (147000, 0))) = true
    ∧ leads .allocationComputation (commit 0 { active1 0 0 with baseline := some 200000 } (floors 1000000))
      (fun t => decide ((tierAs t).2 = some (147000, 3000))) = true
    ∧ leads .allocationComputation (commit 0 { active1 0 0 with baseline := some (-200000) } (floors 1000000))
      (fun t => decide ((tierAs t).2 = some (147000, 0))) = true := by decide +kernel

/-- A port that runs a PRIORITY import and one that runs a STANDARD import, with a carried residue. -/
def tiers (split : SplitTier) : State :=
  let s := runs 0 0 .priority toFull (runs 1 1 .standard toFull
    (seat 1 1 { bus7 with number := 8, stdList := [1] } (seat 0 0 { bus7 with prioList := [0] }
      (engineOn (ratedTo 80050 (at_ 1000))))))
  { s with
    ports := s.ports.set 1 { s.port 1 with residue := 40 }
    engine := { s.engine with ports := s.engine.ports.set 1 { PortResult.zero with split := split } } }

/-- Tier B whole, tier C cut to the rest of the budget, with and without the residue of its tier. -/
theorem test_tiers :
    let went (t : State) := [0, 1].map fun n : PortNo =>
      (t.engine.ports[n].split, t.engine.ports[n].splitGrant, (t.port n).residue)
    leads .allocationComputation (tiers .c) (fun t => decide (went t = [(.b, 50000, 0), (.c, 10000, 90)])) = true
    ∧ leads .allocationComputation (tiers .b) (fun t => decide (went t = [(.b, 50000, 0), (.c, 10000, 50)])) = true := by
  decide +kernel

/-- Two eligible buses, the first with a plan export. -/
def exporting (s : State) : State :=
  runs 0 0 .standard ⟨.exportTo, 1000, 20000, none, none⟩ (seat 1 1 { bus7 with number := 8, soe := some 200000 }
    (seat 0 0 { bus7 with stdList := [0] } (engineOn (rated s))))

/-- The plan export, and reserve exports in the order of surplus. -/
theorem test_exports :
    let went (t : State) := [0, 1].map fun n : PortNo =>
      (t.engine.ports[n].planExport, t.engine.ports[n].reserveExport, t.engine.ports[n].published)
    let active (x : Nat) := commit 0 { active1 0 0 with baseline := some 0, target := x } (exporting (at_ 2500))
    leads .allocationComputation (exporting (at_ 2500))
      (fun t => decide (went t = [(20000, 0, ⟨20000, .exp⟩), (0, 0, .zero)])) = true
    ∧ leads .allocationComputation (active 30001)
      (fun t => decide (went t = [(20000, 0, ⟨20000, .exp⟩), (0, 10100, ⟨10100, .exp⟩)])) = true
    ∧ leads .allocationComputation (active 70000)
      (fun t => decide (went t = [(20000, 10000, ⟨30000, .exp⟩), (0, 40000, ⟨40000, .exp⟩)])) = true
    ∧ leads .allocationComputation { active 70000 with supervision := ⟨.lapsed, .running 30000 0⟩ }
      (fun t => decide (went t = [(0, 0, .zero), (0, 0, .zero)])) = true := by decide +kernel

/-- The reversal rest one second before its end, and at it; and the latch. -/
theorem test_rest :
    let s (since : Nat) : State :=
      let u := exporting (at_ 2500)
      { u with ports := u.ports.set 0 { u.port 0 with lastDir := .imp, zeroSince := some since } }
    let went (t : State) := (t.engine.ports[p0].restRemoved, t.engine.ports[p0].published)
    leads .allocationComputation (s 2491) (fun t => decide (went t = (true, .zero))) = true
    ∧ leads .allocationComputation (s 2490) (fun t => decide (went t = (false, ⟨20000, .exp⟩))) = true
    ∧ leads .allocationComputation { exporting (at_ 2500) with protection := ⟨false, true⟩ }
      (fun t => decide (went t = (false, .zero))) = true := by decide +kernel

/-- The headroom of an ARMED commitment at its target and below it; a departure before the window end counts
nothing. -/
theorem test_headroom :
    let s (target : Nat) : State := commit 0 { commit1 with target := target } (exporting (at_ 2500))
    let went (t : State) : Option (Option Headroom × Bool × BitVec 4) :=
      (t.commit 0).map fun c => (c.headroom, c.headroomLow, c.flags)
    leads .allocationComputation (s 80000) (fun t => decide (went t = some (some ⟨80000, 4⟩, false, 1))) = true
    ∧ leads .allocationComputation (s 80001) (fun t => decide (went t = some (some ⟨80000, 4⟩, true, 3))) = true
    ∧ leads .allocationComputation (commit 0 { commit1 with windowEnd := 20001 } (bus 1 { bus7 with
          number := 8, location := some 1, departure := some ⟨20000, 1, 2, .pending, false⟩ } (exporting (at_ 2500))))
        (fun t => decide ((went t).map Prod.fst = some (some ⟨40000, 4⟩))) = true := by decide +kernel

/-- An ACTIVE and an ARMED commitment there, with the premises of the statements about them. -/
theorem witness_reserve :
    (let s := commit 0 (active1 0 0) (exporting (at_ 2500)); s.TablesOk ∧ s.OneActive ∧ s.supervision.state = .supervised)
    ∧ (let s := commit 0 commit1 (exporting (at_ 2500))
       s.TablesOk ∧ (s.prepared.commit 0).map Commitment.state = some .armed ∧ s.engine.timer ≠ .stopped) := by
  refine ⟨⟨⟨⟨by decide +kernel, by decide +kernel⟩, ⟨by decide +kernel, by decide +kernel⟩,
      ⟨by decide +kernel, by decide +kernel⟩, ⟨by decide +kernel, by decide +kernel⟩,
      ⟨by decide +kernel, by decide +kernel⟩, by decide +kernel⟩, fun i j c d hi hj _ _ => ?_, rfl⟩,
    ⟨⟨by decide +kernel, by decide +kernel⟩, ⟨by decide +kernel, by decide +kernel⟩,
      ⟨by decide +kernel, by decide +kernel⟩, ⟨by decide +kernel, by decide +kernel⟩,
      ⟨by decide +kernel, by decide +kernel⟩, by decide +kernel⟩, by decide +kernel, by decide +kernel⟩
  have hi' : (Table.mk [(0, active1 0 0)]).get i = some c := hi
  have hj' : (Table.mk [(0, active1 0 0)]).get j = some d := hj
  exact (one_row 0 i _ c hi').1.trans (one_row 0 j _ d hj').1.symm

/-- The states of a departure part at a computation. -/
theorem test_computationReads :
    let went (st : DepState) := ((bus 0 { bus7 with departure := some ⟨9000, 1, 2, st, false⟩ } (at_ 1000)).prepared.bus 0).map
      fun b => (b.readiness, b.slack, b.flags)
    went .pending = some (.away, none, 4) ∧ went .overdue = some (.overdue, none, 4)
    ∧ went (.taken none) = some (.none, none, 0) := by decide +kernel

/-- The state with floors meets the premises of the statements about the computation. -/
theorem witness_floors : (floors 1000000).TablesOk ∧ (floors 1000000).Agrees ∧ (floors 1000000).OneActive := by
  refine ⟨⟨⟨by decide +kernel, by decide +kernel⟩, ⟨by decide +kernel, by decide +kernel⟩,
    ⟨by decide +kernel, by decide +kernel⟩, ⟨by decide +kernel, by decide +kernel⟩,
    ⟨by decide +kernel, by decide +kernel⟩, by decide +kernel⟩, fun i n => ?_, fun i j c d h => (by cases h)⟩
  have hp : ∀ n : PortNo, ((floors 1000000).port n).boundSlot
      = if n = 0 then some 0 else if n = 1 then some 1 else none := by decide +kernel
  have b0 : ((floors 1000000).bus 0).map Bus.location = some (some 0) := by decide +kernel
  have b1 : ((floors 1000000).bus 1).map Bus.location = some (some 1) := by decide +kernel
  have slots : (floors 1000000).buses.rows.map Prod.fst = [0, 1] := by decide +kernel
  have two : ∀ b, (floors 1000000).bus i = some b → i = 0 ∨ i = 1 := by
    intro b h
    obtain ⟨r, hr, -⟩ := Option.map_eq_some_iff.1 h
    have hi : r.1 = i := by simpa using List.find?_some hr
    have : r.1 ∈ (floors 1000000).buses.rows.map Prod.fst := List.mem_map_of_mem (List.mem_of_find?_eq_some hr)
    rw [slots, hi] at this
    simpa using this
  rw [hp]
  constructor
  · intro h
    split at h
    · next hn => subst hn; cases h; exact Option.map_eq_some_iff.1 b0
    · split at h
      · next hn => subst hn; cases h; exact Option.map_eq_some_iff.1 b1
      · cases h
  · rintro ⟨b, hb, hl⟩
    rcases two b hb with rfl | rfl
    · rw [hb, Option.map_some, hl] at b0; cases b0; rfl
    · rw [hb, Option.map_some, hl] at b1; cases b1; rfl

/-- Takings back down the order, and two rounds of handing out. -/
theorem test_split_steps :
    (serveTier 100 [(0, 100, 99), (1, 100, 99)]).map (fun x => (x.port, x.got, x.residue)) = [(1, 0, 99), (0, 100, 0)]
    ∧ ((serveTier 1900 [(0, 1000, -100), (1, 1000, -100)]).map fun x => (x.port, x.got, x.residue))
      = [(0, 1000, 0), (1, 900, -50)] := by decide +kernel

/-- A dispatch that activates, with the premises of the statement about it. -/
theorem witness_dispatch :
    let s := asked (.commitDispatch (hd 3)) (commit 3 commit1 (engineOn (at_ 2500)))
    s.TablesOk ∧ s.takes ⟨hd 3, .commitDispatch⟩ = true ∧ s.dispatch.filtered = false ∧ s.reserveReady = true :=
  ⟨⟨⟨by decide +kernel, by decide +kernel⟩, ⟨by decide +kernel, by decide +kernel⟩, ⟨by decide +kernel, by decide +kernel⟩,
    ⟨by decide +kernel, by decide +kernel⟩, ⟨by decide +kernel, by decide +kernel⟩, by decide +kernel⟩,
    by decide +kernel, by decide +kernel, by decide +kernel⟩

/-- The charging state meets the invariants about lists and powers. -/
theorem witness_lists : charging.ListsAgree := by
  intro i b h
  obtain ⟨rfl, rfl⟩ := charging_bus i b h
  exact ⟨fun j hj => (by cases hj), fun j hj => (by cases hj), by decide +kernel, by decide +kernel,
    fun j k p q hj => (by cases hj)⟩

theorem witness_powers : charging.PowersOk := by
  have rates : ∀ n : PortNo, charging.site.stagedRatings[n] = ⟨0, 0⟩ ∧ charging.site.liveRatings[n] = ⟨0, 0⟩ := by
    decide +kernel
  have held : ∀ n : PortNo, (charging.port n).held.mag % 100 = 0 ∧ (charging.port n).held.mag ≤ 60000
      ∧ (charging.port n).frameCount ≤ 65535 ∧ charging.engine.ports[n].tierA % 100 = 0 := by decide +kernel
  have caps : ∀ n : PortNo, (charging.port n).session = if n = 0 then some session0 else none := by decide +kernel
  refine ⟨fun n => ?_, fun n => ?_, by decide +kernel, ?_, fun n => (held n).2.2.2, fun n => ?_, ?_, fun n => (held n).2.2.1⟩
  · rw [(rates n).1]; exact ⟨rfl, by decide, rfl, by decide⟩
  · rw [(rates n).2]; exact ⟨rfl, by decide, rfl, by decide⟩
  · intro i b h
    obtain ⟨rfl, rfl⟩ := charging_bus i b h
    decide +kernel
  · exact ⟨(held n).1, fun _ => Nat.le_trans (held n).2.1 (by decide), fun _ => (held n).2.1⟩
  · intro n x h
    rw [caps] at h
    split at h
    · cases h
      refine ⟨by decide +kernel, fun i a b hi ha hb => ?_, fun why h => by cases h⟩
      obtain ⟨rfl, rfl⟩ := charging_bus i b hb
      cases ha
      decide +kernel
    · cases h

/-! ### Records and the register window -/

theorem test_window :
    let s : State := { usable .running 3 with mask := 0x15 }
    s.readWindow 0x00 = some [0x40, 0, 0, 0, 0, 0, 0, 0] ∧ s.readWindow 0x08 = some [16, 0, 0, 0]
    ∧ s.readWindow 0x0C = some [3, 0, 0, 0] ∧ s.readWindow 0x18 = some [0, 0x10, 0, 0, 0, 0, 0, 0]
    ∧ s.readWindow 0x2C = some [1, 0, 0, 0] ∧ s.readWindow 0x38 = some [0x15, 0, 0, 0]
    ∧ s.readWindow 0x3C = none ∧ s.readWindow 0x40 = some [1, 0, 0, 0] ∧ s.readWindow 0x14 = none
    ∧ s.readWindow 0x44 = none := by decide +kernel

theorem test_windowWrites :
    [0, 1, 2, 3].map controlWrite = [.ringDisable, .ringEnable, .ringReset, .ringReset]
    ∧ (windowRegAt 0x28).bind (WindowReg.write 5) = some (.completionReadPointerWrite 5)
    ∧ (windowRegAt 0x24).bind (WindowReg.write 5) = none := by decide +kernel

/-- A PLAN_SUBMIT record of one step, a record without payload, and one of an unknown kind. -/
theorem test_requestRecords :
    requestOfBytes ([0x07, 0x00, 13, 9, 7, 0, 0, 0] ++ [0xF4, 0x01, 0x40, 0x0D, 0x03, 0, 0, 0, 0, 0, 0, 0, 0, 0]
        ++ List.replicate 42 0)
      = some ⟨hd 7 9, .planSubmit (raw 0 500 200000 none none) noStep noStep noStep⟩
    ∧ requestOfBytes ([0x07, 0x00, 31, 0, 1, 2, 3, 4] ++ List.replicate 56 0xFF) = some ⟨hd 0x04030201, .keepalive⟩
    ∧ requestOfBytes ([0x07, 0x00, 34, 0, 0, 0, 0, 0] ++ List.replicate 56 0) = some ⟨hd 0, .unknownKind 34⟩
    ∧ requestOfBytes ([0x07, 0x00, 33, 0, 0, 0, 0, 0] ++ List.replicate 56 0) = none := by decide +kernel

/-! ### Direction memory, counts that end steps, readiness at session ends -/

/-- The charging state meets the invariant of the direction memory. -/
theorem witness_recalls : charging.Recalls := by
  have h : ∀ n : PortNo, ((charging.port n).held.mag ≠ 0 → (charging.port n).lastDir = (charging.port n).held.dir
        ∧ (charging.port n).zeroSince = none)
      ∧ ((charging.port n).held.mag = 0 → (charging.port n).zeroSince = none ∧ (charging.port n).lastDir = .none) := by
    decide +kernel
  exact fun n => ⟨(h n).1, fun hq => by rw [(h n).2 hq |>.1, (h n).2 hq |>.2]; simp⟩

/-- A publication that falls to 0, one at 0 again, one that takes the other direction, and a lowering. -/
theorem test_memory :
    let m (t : State) := ((t.port p0).lastDir, (t.port p0).zeroSince, (t.port p0).frameCount, (t.port p0).frameTimer)
    let c : State := port0 (fun p => { p with frameTimer := .running 1000 700 }) charging
    let z : State := port0 (fun p => { p with held := .zero, zeroSince := some 90 }) c
    let u : State := exporting (at_ 2500)
    leads .allocationComputation c (fun t => decide (m t = (.imp, some 100, 1, .running 1000 0))) = true
    ∧ leads .allocationComputation z (fun t => decide (m t = (.imp, some 90, 0, .running 1000 700))) = true
    ∧ leads .allocationComputation (port0 (fun p => { p with lastDir := .imp, zeroSince := some 2490 }) u)
        (fun t => decide (m t = (.exp, none, 1, .running 1000 0))) = true
    ∧ leads (.pilotLevelTaken 0 .plugged) c (fun t => decide (m t = (.imp, some 100, 1, .running 1000 0))) = true := by
  decide +kernel

/-- A count ends an IMPORT_TO step at its target and an EXPORT_TO step at its target, and none 1 Wh before. -/
theorem test_countEndsStep :
    let plans (t : State) := ((t.plan 0).map Plan.state, (t.plan 1).map Plan.state)
    let imp (x : Nat) : State := running ⟨5000, .imp⟩ ⟨.importTo, x, 50000, none, none⟩
    let exp (x : Nat) : State := runs 0 0 .standard ⟨.exportTo, x, 5000, none, none⟩
      (bus 0 { bus7 with location := some 0, stdList := [0] } (inSession .energized ⟨5000, .exp⟩ (at_ 9)))
    leads (.filteredTransition 0 (.one .ma)) (imp 150010)
      (fun t => decide (plans t = (some .done, some .running) ∧ (t.port p0).held = .zero)) = true
    ∧ leads (.filteredTransition 0 (.one .ma)) (imp 150011)
      (fun t => decide (plans t = (some .running, some .queued) ∧ (t.port p0).held = ⟨5000, .imp⟩)) = true
    ∧ leads (.filteredTransition 0 (.one .mb)) (exp 149990)
      (fun t => decide ((t.plan 0).map (fun p => (p.state, p.exported)) = some (.done, 10)
        ∧ (t.port p0).held = .zero)) = true
    ∧ leads (.filteredTransition 0 (.one .mb)) (exp 149989)
      (fun t => decide ((t.plan 0).map Plan.state = some .running ∧ (t.port p0).held = ⟨5000, .exp⟩)) = true := by
  decide +kernel

/-- A count closes the deficit or not, brings SoE to the floor or not, and restarts the quiet timer. -/
theorem test_countReadiness :
    let due (eReq : Nat) : State := bus 0 { bus7 with
      location := some 0, departure := some ⟨9000, eReq, 2, .pending, false⟩, readiness := .late }
      (inSession .energized ⟨5000, .imp⟩ (at_ 1000))
    let floored (f : Nat) : State := bus 0 { bus7 with location := some 0, floor := f }
      (inSession .energized ⟨5000, .exp⟩ (at_ 1000))
    let r (t : State) : Option (Readiness × Option Int × BitVec 10) :=
      (t.bus 0).map fun b => (b.readiness, b.slack, b.flags)
    leads (.filteredTransition 0 (.one .ma)) (due 150010) (fun t => decide
      (r t = some (.ready, some (8000 - ((due 0).site.live.guardTime : Int)), 4))) = true
    ∧ leads (.filteredTransition 0 (.one .ma)) (due 150011) (fun t => decide (r t = some (.late, none, 0))) = true
    ∧ leads (.filteredTransition 0 (.one .mb)) (floored 149990) (fun t => decide ((t.port p0).held = .zero)) = true
    ∧ leads (.filteredTransition 0 (.one .mb)) (floored 149989)
      (fun t => decide ((t.port p0).held = ⟨5000, .exp⟩)) = true
    ∧ leads (.filteredTransition 0 (.one .ma)) (port0 (fun p => { p with quiet := .running 1000 999 })
        (closing true .closed (at_ 100))) (fun t => decide ((t.port p0).quiet = .running 1000 0)) = true := by
  decide +kernel

/-- The fourth wrong-direction count ends the session and leaves a PENDING part's bus AWAY, with READINESS at a
change alone; a bus without a part keeps its readiness. -/
theorem test_countFaults :
    let s (r : Readiness) (d : Option Departure) : State := bus 0 { bus7 with
      location := some 0, departure := d, readiness := r, slack := some 5 }
      (port0 (fun p => { p with wrongRun := 3 }) (inSession .energized ⟨5000, .exp⟩ (at_ 1000)))
    let went (t : State) := ((t.port p0).state, (t.bus 0).map fun b => (b.readiness, b.slack, b.flags))
    leads (.filteredTransition 0 (.one .ma)) (s .onTrack (some ⟨9000, 200000, 2, .pending, false⟩))
      (fun t => decide (went t = (.faulted, some (.away, none, 6)))) = true
    ∧ leads (.filteredTransition 0 (.one .ma)) (s .away (some ⟨9000, 200000, 2, .pending, false⟩))
      (fun t => decide (went t = (.faulted, some (.away, none, 2)))) = true
    ∧ leads (.filteredTransition 0 (.one .ma)) (s .none none)
      (fun t => decide (went t = (.faulted, some (.none, some 5, 2)))) = true := by decide +kernel

/-- A session that CLOSING or an unplug ends: AWAY, taken at the edge of the window, OVERDUE and kept outside it. -/
theorem test_sessionEndReadiness :
    let d (st : DepState) : Departure := ⟨9000, 200000, 2, st, false⟩
    let s (now : Nat) (st : DepState) (r : Readiness) (q : Bool) : State := bus 0 { bus7 with
      location := some 0, departure := some (d st), readiness := r }
      (if q then port0 (fun p => { p with quiet := .stopped }) (closing true .closed (at_ now))
        else inSession .energized ⟨5000, .imp⟩ (at_ now))
    let edge := 9000 - State.reset.site.live.takeWindow
    let went (t : State) : Option (Readiness × Option PortNo × BitVec 10) :=
      (t.bus 0).map fun b => (b.readiness, b.location, b.flags)
    leads (.feedbackTaken 0 .opened) (s 100 .pending .ready true) (fun t => decide (went t = some (.away, none, 6))) = true
    ∧ leads (.feedbackTaken 0 .opened) (s 9100 .overdue .overdue true)
      (fun t => decide (went t = some (.overdue, none, 2))) = true
    ∧ leads (.pilotLevelTaken 0 .none) (s edge .pending .ready false)
      (fun t => decide (went t = some (.none, none, 262))) = true
    ∧ leads (.pilotLevelTaken 0 .none) (s (edge - 1) .pending .away false)
      (fun t => decide (went t = some (.away, none, 2))) = true := by decide +kernel

/-- A departure whose required energy reaches SoE ends a RUNNING EXPORT_TO step; 1 Wh below, the step and the
export of a bus still eligible stay. -/
theorem test_departureSet_floor :
    let s : State := runs 0 0 .standard ⟨.exportTo, 1000, 5000, none, none⟩
      (bus 0 { bus7 with location := some 0, stdList := [0] }
        (engineOn (rated (inSession .energized ⟨5000, .exp⟩ (at_ 1000)))))
    let went (t : State) := ((t.plan 0).map Plan.state, (t.port p0).held)
    gives (.departureSet (hd 7) 90000 150000 2) s .ok (fun t => decide (went t = (some .done, .zero))) = true
    ∧ gives (.departureSet (hd 7) 90000 149999 2) s .ok
      (fun t => decide (went t = (some .running, ⟨5000, .exp⟩))) = true
    ∧ gives (.departureSet (hd 7) 1001 149999 2) s .ok
      (fun t => decide (went t = (some .running, .zero))) = true := by decide +kernel

/-- Enumerated fields of results: an absent one holds no number, and the outcome field counts in its own list. -/
theorem test_resultNumbers :
    (Result.planLists 1 1 [(⟨3, 0⟩, .priority, .running), (⟨4, 0⟩, .standard, .paused)]).numbers = [0, 1, 1, 2]
    ∧ (Result.planEnded ⟨3, 0⟩ .stopped (some .busFault) none 0 0).numbers = [4, 2]
    ∧ (Result.offered ⟨3, 0⟩ .armed .opened 0).numbers = [1, 1]
    ∧ (Result.released .shortfall 1 1 0).numbers = [1]
    ∧ (Result.departureCleared (some (.taken none))).numbers = [2]
    ∧ (Result.portMoved .closing (some .reidentify)).numbers = [7, 1]
    ∧ (Result.tripCleared false 3).numbers = [1] := by decide

end Sys2Proof.Tests
end

section
/-! The Bus Table's requests BUS_ENROL and BUS_RETIRE (02): each operation's rules, then the two statements. -/

namespace Sys2Proof.Machine

open Sys2Proof

/-! ### Requests that are refused -/

/-- A request that its block refuses leaves the state as it was, beside the rings. -/
theorem takeRequest_refused {q : Request} {act : State → Reply} {s : State} (h : s.takes q = true) {st : Status}
    (he : act (s.modRing Ring.pop) = refuse (s.modRing Ring.pop) st) :
    takeRequest q act s = .next (s.answered q s st .none) :=
  takeRequest_answered h s st .none he

theorem State.findBus_isSome {s : State} {k : Nat} :
    (s.findBus k).isSome = true ↔ ∃ r ∈ s.buses.rows, r.2.number = k := by
  simp [State.findBus]

/-! ### BUS_ENROL: the four checks (R19) -/

theorem busFieldsOk_iff {capacity importCap exportCap floor allowance : Nat} :
    busFieldsOk capacity importCap exportCap floor allowance = true ↔
      10000 ≤ capacity ∧ capacity ≤ 600000 ∧ importCap ≤ 150000 ∧ exportCap ≤ 60000 ∧ floor ≤ capacity
        ∧ allowance ≤ capacity := by
  simp [busFieldsOk, and_assoc]

/-- R17: the ranges of the configurable fields, over BUS_ENROL's payload. -/
abbrev enrolFieldsOk (p : BusEnrolPayload) : Bool :=
  busFieldsOk p.capacity.toNat p.importCap.toNat p.exportCap.toNat p.floor.toNat p.allowance.toNat

section Checks

variable {number : Nat} {p : BusEnrolPayload} {s : State}

theorem enrolRefusal_of_bad_number (hk : ¬ (1 ≤ number ∧ number ≤ 65535)) :
    enrolRefusal number p s = some .outOfRange := by
  have hbad : number = 0 ∨ 65535 < number := by omega
  rw [enrolRefusal, if_pos hbad]

/-- A number in range leaves the checks of the fields, of the number's use and of the room in the table. -/
theorem enrolRefusal_of_number (hk : 1 ≤ number ∧ number ≤ 65535) :
    enrolRefusal number p s =
      if !enrolFieldsOk p then some .outOfRange
      else if (s.findBus number).isSome then some .duplicate
      else if (s.buses.firstFree 192).isNone then some .tableFull
      else none := by
  have hgood : ¬ (number = 0 ∨ 65535 < number) := by omega
  rw [enrolRefusal, if_neg hgood]

theorem enrolRefusal_of_bad_fields (hk : 1 ≤ number ∧ number ≤ 65535) (hf : ¬ enrolFieldsOk p = true) :
    enrolRefusal number p s = some .outOfRange := by
  rw [enrolRefusal_of_number hk, if_pos (by simpa using hf)]

theorem enrolRefusal_of_enrolled (hk : 1 ≤ number ∧ number ≤ 65535) (hf : enrolFieldsOk p = true)
    (he : ∃ r ∈ s.buses.rows, r.2.number = number) : enrolRefusal number p s = some .duplicate := by
  rw [enrolRefusal_of_number hk, if_neg (by simpa using hf), if_pos (State.findBus_isSome.mpr he)]

/-- A new number with fields in range leaves the check of the room alone. -/
theorem enrolRefusal_of_new (hk : 1 ≤ number ∧ number ≤ 65535) (hf : enrolFieldsOk p = true)
    (he : ¬ ∃ r ∈ s.buses.rows, r.2.number = number) :
    enrolRefusal number p s = if (s.buses.firstFree 192).isNone then some .tableFull else none := by
  rw [enrolRefusal_of_number hk, if_neg (by simpa using hf), if_neg (mt State.findBus_isSome.mp he)]

end Checks

/-! ### BUS_ENROL: the reply and the new record (R18 to R20) -/

/-- The taking of BUS_ENROL, by its arm of exec. -/
theorem exec_busEnrol (h : ReqHeader) (p : BusEnrolPayload) (s : State) :
    exec (.busEnrol h p) s = takeRequest ⟨h, .busEnrol p⟩ (applyBusEnrol h p) s := rfl

theorem applyBusEnrol_refused {h : ReqHeader} {p : BusEnrolPayload} {s : State} {st : Status}
    (hr : enrolRefusal h.key.toNat p s = some st) : applyBusEnrol h p s = refuse s st := by
  simp only [applyBusEnrol, hr]

theorem applyBusEnrol_created {h : ReqHeader} {p : BusEnrolPayload} {s : State} {i : Nat}
    (hr : enrolRefusal h.key.toNat p s = none) (hi : s.buses.firstFree 192 = some i) :
    applyBusEnrol h p s = ⟨s.putBus i (newBus h.key.toNat p), .ok,
      .enrolled i h.key.toNat (newBus h.key.toNat p).soe (newBus h.key.toNat p).source⟩ := by
  simp only [applyBusEnrol, hr, hi]

/-- A BUS_ENROL that one of its checks refuses; the rings have no part in the checks. -/
theorem exec_busEnrol_refused {h : ReqHeader} {p : BusEnrolPayload} {s : State} {st : Status}
    (ht : s.takes ⟨h, .busEnrol p⟩ = true) (hr : enrolRefusal h.key.toNat p s = some st) :
    exec (.busEnrol h p) s = .next (s.answered ⟨h, .busEnrol p⟩ s st .none) := by
  rw [exec_busEnrol]
  exact takeRequest_refused ht (applyBusEnrol_refused hr)

theorem exec_busEnrol_created {h : ReqHeader} {p : BusEnrolPayload} {s : State} {i : Nat}
    (ht : s.takes ⟨h, .busEnrol p⟩ = true) (hr : enrolRefusal h.key.toNat p s = none)
    (hi : s.buses.firstFree 192 = some i) :
    exec (.busEnrol h p) s = .next (s.answered ⟨h, .busEnrol p⟩
      { s with buses := s.buses.put i (newBus h.key.toNat p) } .ok
      (.enrolled i h.key.toNat (newBus h.key.toNat p).soe (newBus h.key.toNat p).source)) := by
  rw [exec_busEnrol]
  exact takeRequest_answered ht _ _ _ (applyBusEnrol_created hr hi)

theorem newBus_source (number : Nat) (p : BusEnrolPayload) :
    (newBus number p).source = if p.initialSoe.isSome then .enrolled else .unknown := by
  unfold newBus
  cases p.initialSoe <;> rfl

/-- R20: SOE_CLAMPED stands exactly when the initial SoE is above the capacity. -/
theorem newBus_flags (number : Nat) (p : BusEnrolPayload) :
    (newBus number p).flags =
      if ∃ w, p.initialSoe = some w ∧ p.capacity.toNat < w.toNat then BusFlag.soeClamped else 0 := by
  unfold newBus
  cases p.initialSoe with
  | none => simp
  | some w => simp

/-- Settles O10: a case for each check that refuses, and one for the request that passes all four. -/
theorem busEnrolChecksThenCreates : Obligations.BusEnrolChecksThenCreates := by
  intro h p s ht
  dsimp only
  rw [← busFieldsOk_iff]
  refine ⟨fun hk => ?badNumber, fun hk hf => ?badFields, fun hk hf he => ?enrolled,
    fun hk hf he hfull => ?full, fun i hk hf he hi hfree hlow => ?created⟩
  case badNumber => exact exec_busEnrol_refused ht (enrolRefusal_of_bad_number hk)
  case badFields => exact exec_busEnrol_refused ht (enrolRefusal_of_bad_fields hk hf)
  case enrolled => exact exec_busEnrol_refused ht (enrolRefusal_of_enrolled hk hf he)
  case full =>
    have hnone : s.buses.firstFree 192 = none := Table.firstFree_full hfull
    have hr : enrolRefusal h.key.toNat p s = some .tableFull := by
      rw [enrolRefusal_of_new hk hf he, hnone]; rfl
    exact exec_busEnrol_refused ht hr
  case created =>
    have hslot : s.buses.firstFree 192 = some i := Table.firstFree_eq hi hfree hlow
    have hr : enrolRefusal h.key.toNat p s = none := by
      rw [enrolRefusal_of_new hk hf he, hslot]; rfl
    exact ⟨newBus h.key.toNat p, exec_busEnrol_created ht hr hslot, rfl, rfl, rfl, rfl, rfl, rfl, rfl, rfl, rfl,
      newBus_source _ _, rfl, rfl, rfl, rfl, rfl, rfl, rfl, rfl, rfl, rfl, rfl, newBus_flags _ _⟩

/-! ### BUS_RETIRE: the plans of the slot are freed (R24, R38) -/

theorem freePlans_plan (l : List Nat) (s : State) (j : Nat) :
    (l.foldl (fun t k => t.freePlan k) s).plan j = if j ∈ l then none else s.plan j := by
  induction l generalizing s with
  | nil => rfl
  | cons k l ih =>
    rw [List.foldl_cons, ih]
    by_cases hjk : j = k
    · subst hjk
      have hfreed : (s.freePlan j).plan j = none := Table.get_del_self _ _
      simp [hfreed]
    · have hkept : (s.freePlan k).plan j = s.plan j := Table.get_del_ne _ hjk
      simp [hkept, hjk]

/-- Each slot of a list without repetition is freed once, so its generation rises by one. -/
theorem freePlans_gen (l : List Nat) (s : State) (hn : l.Nodup) (j : Nat) :
    (l.foldl (fun t k => t.freePlan k) s).planGens.gen j =
      if j ∈ l then (s.planGens.gen j + 1) % 256 else s.planGens.gen j := by
  induction l generalizing s with
  | nil => rfl
  | cons k l ih =>
    obtain ⟨hk, hl⟩ := List.nodup_cons.mp hn
    rw [List.foldl_cons, ih _ hl]
    by_cases hjk : j = k
    · subst hjk
      have hraised : (s.freePlan j).planGens.gen j = (s.planGens.gen j + 1) % 256 := Table.gen_bump_self _ _
      simp [hk, hraised]
    · have hkept : (s.freePlan k).planGens.gen j = s.planGens.gen j := Table.gen_bump_ne _ hjk
      simp [hkept, hjk]

theorem freePlans_frame (l : List Nat) (s : State) :
    l.foldl (fun t k => t.freePlan k) s =
      { s with
        plans := (l.foldl (fun t k => t.freePlan k) s).plans
        planGens := (l.foldl (fun t k => t.freePlan k) s).planGens } := by
  induction l generalizing s with
  | nil => rfl
  | cons k l ih => exact ih (s.freePlan k)

theorem State.mem_plansOf {s : State} (ht : s.TablesOk) {i j : Nat} :
    j ∈ s.plansOf i ↔ ∃ p, s.plan j = some p ∧ p.busSlot = i := by
  unfold State.plansOf
  rw [List.mem_map]
  constructor
  · rintro ⟨⟨k, p⟩, hr, rfl⟩
    obtain ⟨hrow, hslot⟩ := List.mem_filter.mp hr
    exact ⟨p, Table.get_of_mem ht.plans.rising hrow, by simpa using hslot⟩
  · rintro ⟨p, hp, hslot⟩
    exact ⟨(j, p), List.mem_filter.mpr ⟨Table.mem_of_get hp, by simpa using hslot⟩, rfl⟩

/-! ### BUS_RETIRE: the state a retirement leaves (R24) -/

theorem retireBus_bus_self (s : State) (i : Nat) : (s.retireBus i).bus i = none := Table.get_del_self _ _

theorem retireBus_bus_ne (s : State) {i j : Nat} (hj : j ≠ i) : (s.retireBus i).bus j = s.bus j :=
  (Table.get_del_ne _ hj).trans (freePlans_bus (s.plansOf i) s j)

theorem retireBus_plan (s : State) (i j : Nat) :
    (s.retireBus i).plan j = if j ∈ s.plansOf i then none else s.plan j :=
  freePlans_plan (s.plansOf i) s j

theorem retireBus_gen {s : State} (ht : s.TablesOk) (i j : Nat) :
    (s.retireBus i).planGens.gen j =
      if j ∈ s.plansOf i then (s.planGens.gen j + 1) % 256 else s.planGens.gen j :=
  freePlans_gen (s.plansOf i) s (State.plansOf_nodup ht i) j

/-- R24: no registration of the slot's departure part stays in the set. -/
theorem retireBus_regs (s : State) (i : Nat) :
    ∀ r ∈ (s.retireBus i).clock.regs, ¬ (r.kind.owner = 2 ∧ r.slot = i) := by
  intro r hr
  have hkept : (!ofRecord 2 i r) = true := (List.mem_filter.mp hr).2
  simpa [ofRecord, imp_iff_not_or] using hkept

theorem retireBus_frame (s : State) (i : Nat) :
    s.retireBus i =
      { s with
        clock := (s.retireBus i).clock, buses := (s.retireBus i).buses
        plans := (s.retireBus i).plans, planGens := (s.retireBus i).planGens } := by
  unfold State.retireBus
  rw [freePlans_frame]
  rfl

/-! ### BUS_RETIRE: the three checks (R24) -/

/-- The taking of BUS_RETIRE, by its arm of exec. -/
theorem exec_busRetire (h : ReqHeader) (s : State) :
    exec (.busRetire h) s = takeRequest ⟨h, .busRetire⟩ (applyBusRetire h) s := rfl

section Reply

variable {h : ReqHeader} {s : State} {i : Nat} {b : Bus}

theorem applyBusRetire_notFound (hf : s.findBus h.key.toNat = none) :
    applyBusRetire h s = refuse s .notFound := by
  simp only [applyBusRetire, hf]

/-- A number that is enrolled leaves the checks of the location and of the lists. -/
theorem applyBusRetire_found (hf : s.findBus h.key.toNat = some (i, b)) :
    applyBusRetire h s =
      if b.location.isSome then refuse s .busPlugged
      else if b.listedPlans ≠ [] then refuse s .plansPending
      else ⟨s.retireBus i, .ok, .retired i (s.plansOf i).length⟩ := by
  simp only [applyBusRetire, hf]

theorem applyBusRetire_plugged (hf : s.findBus h.key.toNat = some (i, b)) (hl : b.location ≠ none) :
    applyBusRetire h s = refuse s .busPlugged := by
  rw [applyBusRetire_found hf, if_pos (Option.isSome_iff_ne_none.mpr hl)]

theorem applyBusRetire_pending (hf : s.findBus h.key.toNat = some (i, b)) (hl : b.location = none)
    (hp : b.listedPlans ≠ []) : applyBusRetire h s = refuse s .plansPending := by
  rw [applyBusRetire_found hf, if_neg (by simp [hl]), if_pos hp]

theorem applyBusRetire_retired (hf : s.findBus h.key.toNat = some (i, b)) (hl : b.location = none)
    (hp : b.listedPlans = []) :
    applyBusRetire h s = ⟨s.retireBus i, .ok, .retired i (s.plansOf i).length⟩ := by
  rw [applyBusRetire_found hf, if_neg (by simp [hl]), if_neg (not_not_intro hp)]

end Reply

theorem exec_busRetire_refused {h : ReqHeader} {s : State} {st : Status}
    (ht : s.takes ⟨h, .busRetire⟩ = true)
    (hr : applyBusRetire h (s.modRing Ring.pop) = refuse (s.modRing Ring.pop) st) :
    exec (.busRetire h) s = .next (s.answered ⟨h, .busRetire⟩ s st .none) := by
  rw [exec_busRetire]
  exact takeRequest_refused ht hr

/-- A BUS_RETIRE that passes its checks retires the bus, with the request gone from the buffer. -/
theorem exec_busRetire_retired {h : ReqHeader} {s : State} {i : Nat} {b : Bus}
    (ht : s.takes ⟨h, .busRetire⟩ = true) (hf : s.findBus h.key.toNat = some (i, b))
    (hl : b.location = none) (hp : b.listedPlans = []) :
    exec (.busRetire h) s = .next (s.answered ⟨h, .busRetire⟩ ((s.modRing Ring.pop).retireBus i) .ok
      (.retired i (s.plansOf i).length)) := by
  rw [exec_busRetire]
  have hring : ((s.modRing Ring.pop).retireBus i).ring = s.ring.pop := by rw [retireBus_frame]; rfl
  exact takeRequest_reply ht (applyBusRetire_retired hf hl hp) hring

/-- Settles O12: a case for each check that refuses, and the retirement's effect field by field. -/
theorem busRetireFreesSlotAndPlans : Obligations.BusRetireFreesSlotAndPlans := by
  intro h s ht hok
  refine ⟨fun hn => ?unknown, fun i b hf =>
    ⟨fun hl => ?plugged, fun hl hp => ?pending, fun hl hprio hstd => ?retired⟩⟩
  case unknown => exact exec_busRetire_refused ht (applyBusRetire_notFound (State.findBus_none.mpr hn))
  case plugged => exact exec_busRetire_refused ht (applyBusRetire_plugged hf hl)
  case pending => exact exec_busRetire_refused ht (applyBusRetire_pending hf hl hp)
  case retired =>
    have hempty : b.listedPlans = [] := by rw [Bus.listedPlans, hprio, hstd]; rfl
    have hcount : (s.plansOf i).length = (s.plans.rows.filter fun r => r.2.busSlot == i).length :=
      List.length_map _
    have hok' : (s.modRing Ring.pop).TablesOk := ⟨hok.buses, hok.plans, hok.planGens, hok.commits,
      hok.commitGens, hok.numbers⟩
    refine ⟨(s.modRing Ring.pop).retireBus i, hcount ▸ exec_busRetire_retired ht hf hl hempty,
      retireBus_bus_self _ i, fun j hj => retireBus_bus_ne _ hj, fun j p hp hslot => ?freed,
      fun j hother => ?kept, retireBus_regs _ i, retireBus_frame _ i⟩
    case freed =>
      have hmem : j ∈ (s.modRing Ring.pop).plansOf i := (State.mem_plansOf hok').mpr ⟨p, hp, hslot⟩
      rw [retireBus_plan, retireBus_gen hok', if_pos hmem, if_pos hmem]
      exact ⟨rfl, rfl⟩
    case kept =>
      have hmem : j ∉ (s.modRing Ring.pop).plansOf i := fun hm =>
        have ⟨p, hp, hslot⟩ := (State.mem_plansOf hok').mp hm
        hother p hp hslot
      rw [retireBus_plan, retireBus_gen hok', if_neg hmem, if_neg hmem]
      exact ⟨rfl, rfl⟩

end Sys2Proof.Machine
end

section
/-! The charging port's request PORT_CANCEL (04): the record a cancel leaves, the reply of each check, then the
statement. -/

namespace Sys2Proof.Machine

open Sys2Proof

/-! ### The record a cancel leaves (R83) -/

/-- R81, R83: in CLOSING the open command has been given exactly when the quiet timer is stopped. -/
theorem Port.openGiven_iff_of_closing {p : Port} (hc : p.state = .closing) :
    p.openGiven = true ↔ p.quiet = .stopped := by
  rw [Port.openGiven, hc]
  cases p.quiet with
  | stopped => simp [Timer.isRunning]
  | running length elapsed => simp [Timer.isRunning]

/-- R83: what a cancel writes, beside the timers that the entry into CONNECTED stops. -/
theorem Port.cancel_eq (t : PortTarget) (now : Nat) (p : Port) :
    p.cancel t now =
      { p.timersOf (p.cancel t now) with
        state := .connected, pendingTarget := none, command := .opened, faultCode := none
        lastTransition := some ⟨t, .cancelled, now⟩ } := rfl

/-- R66: a port outside ENERGIZED has the live setpoint 0. -/
theorem Port.live_of_not_energized {p : Port} (h : p.state ≠ .energized) : p.live = .zero := if_neg h

/-- A cancel in CLOSING keeps the live setpoint at 0. -/
theorem Port.cancel_live {t : PortTarget} {now : Nat} {p : Port} (hc : p.state = .closing) :
    (p.cancel t now).live = p.live := by
  have hcancelled : (p.cancel t now).state ≠ .energized := by
    rw [Port.cancel_eq]; simp
  have hclosing : p.state ≠ .energized := by rw [hc]; simp
  rw [Port.live_of_not_energized hcancelled, Port.live_of_not_energized hclosing]

section Settled

variable {e : PortEnv} {t : PortTarget} {now : Nat} {p : Port}

/-- A settled cancel in CLOSING moves no setpoint, so beyond what it writes it changes timers alone. -/
theorem Port.settle_cancel (hc : p.state = .closing) :
    Port.settle e p (p.cancel t now) =
      { p.timersOf (Port.settle e p (p.cancel t now)) with
        state := .connected, pendingTarget := none, command := .opened, faultCode := none
        lastTransition := some ⟨t, .cancelled, now⟩ } := by
  have hstill := Port.settle_still e p (p.cancel t now) rfl (Port.cancel_live hc)
  generalize Port.settle e p (p.cancel t now) = r at hstill ⊢
  calc r = (p.cancel t now).timersOf r := hstill
    _ = _ := by rw [Port.cancel_eq]; rfl

/-- R75, R83: a contactor that the cancel commands open, and that still shows CLOSED, is watched for a weld. -/
theorem Port.settle_cancel_weld (hcmd : p.command = .closed) (hfb : p.feedback = .closed) :
    (Port.settle e p (p.cancel t now)).weld = .running 200 0 := by
  have hafter : (p.cancel t now).weldConditions = true := by
    rw [Port.cancel_eq]
    simp [Port.weldConditions, Port.timersOf, hfb]
  have hbefore : ¬ p.weldConditions = true := by simp [Port.weldConditions, hcmd]
  rw [Port.settle_weld, if_pos hafter, if_neg hbefore]
  rfl

end Settled

/-! ### PORT_CANCEL: the reply of each check -/

/-- The taking of PORT_CANCEL, by its arm of exec. -/
theorem exec_portCancel (h : ReqHeader) (port : Word) (s : State) :
    exec (.portCancel h port) s = takeRequest ⟨h, .portCancel port⟩ (applyPortCancel port) s := rfl

theorem applyPortCancel_outOfRange {port : Word} {s : State} (hp : 23 < port.toNat) :
    applyPortCancel port s = refuse s .outOfRange := by
  simp only [applyPortCancel, portOf_none hp]

section Reply

variable {port : Word} {s : State} {n : PortNo} {t : PortTarget}

theorem applyPortCancel_nothingPending (hn : port.toNat = n.val) (ht : (s.port n).pendingTarget = none) :
    applyPortCancel port s = refuse s .nothingPending := by
  simp only [applyPortCancel, portOf_eq hn, ht]

theorem applyPortCancel_tooLate (hn : port.toNat = n.val) (ht : (s.port n).pendingTarget = some t)
    (hg : (s.port n).openGiven = true) : applyPortCancel port s = refuse s .tooLate := by
  simp only [applyPortCancel, portOf_eq hn, ht, hg, if_true]

/-- R83: a cancel that is taken changes the port's record alone, and answers with CONNECTED. -/
theorem applyPortCancel_taken (hn : port.toNat = n.val) (ht : (s.port n).pendingTarget = some t)
    (hg : ¬ (s.port n).openGiven = true) :
    applyPortCancel port s = ⟨s.updPort n (Port.cancel t s.now), .ok, .portState .connected⟩ := by
  have hstate : ((s.updPort n (Port.cancel t s.now)).port n).state = .connected := by
    rw [State.port_updPort, if_pos rfl, Port.settle_state]
    rfl
  simp only [applyPortCancel, portOf_eq hn, ht, if_neg hg, hstate]

end Reply

/-- Settles O21: a case for each check that refuses, and the settled record of a cancel that is taken. -/
theorem portCancelByChecks : Obligations.PortCancelByChecks := by
  intro h port s htakes
  refine ⟨fun hp => ?outOfRange, fun n hn => ⟨fun hnone => ?nothingPending, fun t ht =>
    ⟨fun hc hq => ?tooLate, fun hc hq => ?taken⟩⟩⟩
  case outOfRange => exact takeRequest_refused htakes (applyPortCancel_outOfRange hp)
  case nothingPending => exact takeRequest_refused htakes (applyPortCancel_nothingPending hn hnone)
  case tooLate =>
    have hgiven : (s.port n).openGiven = true := (Port.openGiven_iff_of_closing hc).mpr hq
    exact takeRequest_refused htakes (applyPortCancel_tooLate hn ht hgiven)
  case taken =>
    have hopen : ¬ (s.port n).openGiven = true := mt (Port.openGiven_iff_of_closing hc).mp hq
    refine ⟨Port.settle s.env (s.port n) ((s.port n).cancel t s.now), ?reply, Port.settle_cancel hc,
      Port.settle_quiet _ _ _, Port.settle_limit _ _ _, Port.settle_cancel_weld⟩
    case reply =>
      exact takeRequest_answered htakes _ _ _
        (applyPortCancel_taken (s := s.modRing Ring.pop) hn ht hopen)

end Sys2Proof.Machine
end

section
/-! The Reserve Unit's request COMMIT_OFFER (09): its registrations, its range check, the reply of each check, then
the statement. -/

namespace Sys2Proof.Machine

open Sys2Proof

/-! ### The registrations of an offer (R3, R159) -/

/-- R3: a registration adds its threshold at the end of the set when that lies ahead, and does nothing else. -/
theorem State.register_append (k : RegKind) (slot time : Nat) (s : State) :
    s.register k slot time =
      { s with clock := { s.clock with
          regs := s.clock.regs ++ (if s.now < time then [⟨k, slot, time⟩] else []) } } := by
  by_cases hahead : s.now < time
  · rw [State.register, if_pos hahead, if_pos hahead]
  · rw [State.register, if_neg hahead, if_neg hahead, List.append_nil]

/-- R159: an offer registers what of its three times lies ahead, in the order of the table. -/
theorem State.registerOffer_eq (i point ws we : Nat) (s : State) :
    s.registerOffer i point ws we =
      { s with clock := { s.clock with
          regs := s.clock.regs
            ++ (if s.now < point then [⟨.armPoint, i, point⟩] else [])
            ++ (if s.now < ws then [⟨.windowStart, i, ws⟩] else [])
            ++ (if s.now < we then [⟨.windowEnd, i, we⟩] else []) } } := by
  simp only [State.registerOffer, State.register_append]
  rfl

/-! ### The new record (R159) -/

/-- R159: an offer whose window end lies ahead places its record and always registers that end. -/
theorem State.offerIn_eq {i : Nat} {o : Offer} {s : State} (hend : s.now < o.windowEnd) :
    s.offerIn i o =
      { s with
        commits := s.commits.put i (newCommitment (s.commitGens.gen i) s.now s.site.live.armLead o)
        clock := { s.clock with
          regs := s.clock.regs
            ++ (if s.now < armPointOf o.windowStart s.site.live.armLead then
                [⟨.armPoint, i, armPointOf o.windowStart s.site.live.armLead⟩] else [])
            ++ (if s.now < o.windowStart then [⟨.windowStart, i, o.windowStart⟩] else [])
            ++ [⟨.windowEnd, i, o.windowEnd⟩] } } := by
  have hreg : (if s.now < o.windowEnd then [Registration.mk .windowEnd i o.windowEnd] else []) =
      [⟨.windowEnd, i, o.windowEnd⟩] := if_pos hend
  rw [← hreg]
  exact State.registerOffer_eq _ _ _ _ _

theorem State.offerIn_commit (i : Nat) (o : Offer) (s : State) :
    (s.offerIn i o).commit i = some (newCommitment (s.commitGens.gen i) s.now s.site.live.armLead o) := by
  rw [State.offerIn, State.registerOffer_eq]
  exact Table.get_put_self _ _ _

theorem State.offerIn_result (i : Nat) (o : Offer) (s : State) :
    offerResult i (s.offerIn i o) =
      let c := newCommitment (s.commitGens.gen i) s.now s.site.live.armLead o
      .offered ⟨i, c.generation⟩ c.state c.phase c.armPoint := by
  rw [offerResult, State.offerIn_commit]

/-! ### The three checks (R159) -/

theorem Offer.ok_iff {now : Nat} {o : Offer} :
    o.ok now = true ↔
      o.windowStart < o.windowEnd ∧ o.windowEnd - o.windowStart ≤ 14400 ∧ now < o.windowEnd
        ∧ 1000 ≤ o.target ∧ o.target ≤ 2000000 ∧ o.tolerance ≤ 100 := by
  simp [Offer.ok, and_assoc]

/-- The taking of COMMIT_OFFER, by its arm of exec. -/
theorem exec_commitOffer (h : ReqHeader) (ws we x tol : Word) (s : State) :
    exec (.commitOffer h ws we x tol) s =
      takeRequest ⟨h, .commitOffer ws we x tol⟩
        (applyCommitOffer ⟨ws.toNat, we.toNat, x.toNat, tol.toNat⟩) s := rfl

section Reply

variable {o : Offer} {s : State}

theorem applyCommitOffer_timeUnset (hm : s.clock.mode = .unset) :
    applyCommitOffer o s = refuse s .timeUnset := by
  rw [applyCommitOffer, if_pos hm]

theorem applyCommitOffer_outOfRange (hset : ¬ s.clock.mode = .unset) (hr : ¬ o.ok s.now = true) :
    applyCommitOffer o s = refuse s .outOfRange := by
  rw [applyCommitOffer, if_neg hset, if_pos (by simpa using hr)]

theorem applyCommitOffer_tableFull (hset : ¬ s.clock.mode = .unset) (hr : o.ok s.now = true)
    (hf : s.commits.firstFree 16 = none) : applyCommitOffer o s = refuse s .tableFull := by
  rw [applyCommitOffer, if_neg hset, if_neg (by simp [hr]), hf]

theorem applyCommitOffer_offered {i : Nat} (hset : ¬ s.clock.mode = .unset) (hr : o.ok s.now = true)
    (hf : s.commits.firstFree 16 = some i) :
    applyCommitOffer o s = ⟨s.offerIn i o, .ok, offerResult i (s.offerIn i o)⟩ := by
  rw [applyCommitOffer, if_neg hset, if_neg (by simp [hr]), hf]

end Reply

/-- Settles O44: a case for each check that refuses, and one for the offer that passes all three. -/
theorem commitOfferArmsByTime : Obligations.CommitOfferArmsByTime := by
  intro h ws we x tol s ht
  have hset (hm : s.clock.mode = .set) : ¬ s.clock.mode = .unset := by simp [hm]
  dsimp only
  rw [exec_commitOffer]
  refine ⟨fun hm => ?timeUnset, fun hm hr => ?outOfRange, fun hm hr hfull => ?tableFull,
    fun k hm hr hk hfree hlow => ⟨newCommitment (s.commitGens.gen k) s.now s.site.live.armLead
      ⟨ws.toNat, we.toNat, x.toNat, tol.toNat⟩, rfl, ?offered⟩⟩
  case timeUnset => exact takeRequest_refused ht (applyCommitOffer_timeUnset hm)
  case outOfRange => exact takeRequest_refused ht (applyCommitOffer_outOfRange (hset hm) (mt Offer.ok_iff.mp hr))
  case tableFull =>
    have hnone : s.commits.firstFree 16 = none := Table.firstFree_full hfull
    exact takeRequest_refused ht (applyCommitOffer_tableFull (hset hm) (Offer.ok_iff.mpr hr) hnone)
  case offered =>
    have hslot : s.commits.firstFree 16 = some k := Table.firstFree_eq hk hfree hlow
    have ⟨_, _, hend, _⟩ := hr
    have hreply := applyCommitOffer_offered (s := s.modRing Ring.pop)
      (o := ⟨ws.toNat, we.toNat, x.toNat, tol.toNat⟩) (hset hm) (Offer.ok_iff.mpr hr) hslot
    rw [State.offerIn_result, State.offerIn_eq hend] at hreply
    exact takeRequest_answered ht _ _ _ hreply

end Sys2Proof.Machine
end

section
/-! The executor and the rings (11): what a request's block leaves beside its own part of the state, and what every
command keeps of the Ring Interface; with the step, the empty queue and power-on. -/

namespace Sys2Proof.Machine

open Sys2Proof

/-! ### What a block leaves alone -/

/-- A block's part of an event leaves the rings, the mask and the queue as they are. -/
structure State.Beside (s t : State) : Prop where
  ring    : t.ring = s.ring
  mask    : t.mask = s.mask
  pending : t.pending = s.pending

theorem State.Beside.refl (s : State) : s.Beside s := ⟨rfl, rfl, rfl⟩

theorem State.Beside.trans {s t u : State} (h : s.Beside t) (k : t.Beside u) : s.Beside u :=
  ⟨k.ring.trans h.ring, k.mask.trans h.mask, k.pending.trans h.pending⟩

theorem Moves.besides {s t : State} {w v : Bool} (h : Moves s t w v) : s.Beside t :=
  ⟨h.beside.1, h.beside.2.1, h.beside.2.2⟩

theorem State.putBus_beside (s : State) (i : Nat) (b : Bus) : s.Beside (s.putBus i b) := ⟨rfl, rfl, rfl⟩

/-- A part of an event that takes place under a condition. -/
theorem State.Beside.ite {c : Prop} [Decidable c] {s t u : State} (h : s.Beside t) (k : s.Beside u) :
    s.Beside (if c then t else u) := by
  split
  · exact h
  · exact k

theorem State.changeBus_beside (s : State) (i : Nat) (b : Bus) (f : BusPatch) : s.Beside (s.changeBus i b f) := by
  have hwritten := s.putBus_beside i (b.change f)
  have hcap := State.Beside.ite (c := f.capacity.isSome = true)
    (State.newCapacity_moves (s.putBus i (b.change f)) i).besides (.refl _)
  have hfloor (u : State) := State.Beside.ite (c := b.floor < (f.write b).floor)
    (State.testStep_moves u StepKind.isExport i).besides (.refl u)
  exact hwritten.trans (hcap.trans ((hfloor _).trans (State.changeSession_moves _ i).besides))

theorem State.retireBus_beside (s : State) (i : Nat) : s.Beside (s.retireBus i) := by
  rw [retireBus_frame]; exact ⟨rfl, rfl, rfl⟩

theorem applyBusChange_beside (h : ReqHeader) (f : BusPatch) (s : State) : s.Beside (applyBusChange h f s).state := by
  unfold applyBusChange
  split
  · exact .refl s
  · dsimp only
    split
    · exact .refl s
    · split
      · exact .refl s
      · exact s.changeBus_beside _ _ f

theorem applyBusRetire_beside (h : ReqHeader) (s : State) : s.Beside (applyBusRetire h s).state := by
  unfold applyBusRetire
  split
  · exact .refl s
  · split
    · exact .refl s
    · split
      · exact .refl s
      · exact s.retireBus_beside _

theorem applyBusUnblock_beside (h : ReqHeader) (s : State) : s.Beside (applyBusUnblock h s).state := by
  unfold applyBusUnblock
  split
  · exact .refl s
  · split
    · exact .refl s
    · exact s.putBus_beside _ _

theorem applyDepartureClear_beside (h : ReqHeader) (s : State) : s.Beside (applyDepartureClear h s).state := by
  unfold applyDepartureClear
  split
  · exact .refl s
  · split
    · exact .refl s
    · exact (s.putBus_beside _ _).trans (State.withdrawDeparture_moves _ _).besides

theorem State.bindSession_beside (s : State) (n : PortNo) (i : Nat) (b : Bus) (m : Announce) :
    s.Beside (s.bindSession n i b m) := by
  unfold State.bindSession
  refine .trans ⟨?_, ?_, ?_⟩ ((State.reportFaultLevel_moves _ n i).besides.trans (State.selection_moves _ i).besides)
  all_goals simp

theorem State.judgeAnnounce_beside (s : State) (n : PortNo) (m : Announce) : s.Beside (s.judgeAnnounce n m) := by
  unfold State.judgeAnnounce
  split
  · exact ⟨rfl, rfl, rfl⟩
  · split
    · exact ⟨rfl, rfl, rfl⟩
    · exact s.bindSession_beside n _ _ m

/-! ### The block that a request goes to -/

/-- R188: what the block of a request's command makes of the state; a command that takes no request has no block. -/
def requestBlock : Instr → State → Reply
  | .setTime _ v => applySetTime v
  | .siteConfigure _ f => applySiteConfigure f
  | .siteLoadReport _ watts => applySiteLoadReport watts
  | .siteLookup _ selector port => applySiteLookup selector port
  | .busEnrol h p => applyBusEnrol h p
  | .busChange h p => applyBusChange h p
  | .busRetire h => applyBusRetire h
  | .busLookup h => applyBusLookup h
  | .busPlans h => applyBusPlans h
  | .busUnblock h => applyBusUnblock h
  | .departureSet h tDep eReq route => applyDepartureSet h tDep eReq route
  | .departureClear h => applyDepartureClear h
  | .planSubmit h s1 s2 s3 s4 => applyPlanSubmit h [s1, s2, s3, s4]
  | .planCancel h => applyPlanCancel h
  | .planRetire h => applyPlanRetire h
  | .planLookup h => applyPlanLookup h
  | .portGo _ port target => applyPortGo port target
  | .portCancel _ port => applyPortCancel port
  | .portConfigure _ port p => applyPortConfigure port p
  | .portLookup h port => applyPortLookup h port
  | .allocStart _ => applyAllocStart
  | .allocStop _ => applyAllocStop
  | .allocLookup _ selector port => applyAllocLookup selector port
  | .commitOffer _ windowStart windowEnd target tolerance =>
    applyCommitOffer ⟨windowStart.toNat, windowEnd.toNat, target.toNat, tolerance.toNat⟩
  | .commitWithdraw h => applyCommitWithdraw h
  | .commitDispatch h => applyCommitDispatch h
  | .commitRelease h => applyCommitRelease h
  | .commitLookup h => applyCommitLookup h
  | .commitRetire h => applyCommitRetire h
  | .clearTrip _ => applyClearTrip
  | .keepalive _ => applyKeepalive
  | .attentionScan h => applyAttentionScan h
  | .attentionClear h category flags => applyAttentionClear h category flags
  | _ => fun s => refuse s .unknownKind

/-- R188: a request's command is the taking of the request by its block. -/
theorem exec_request {i : Instr} {q : Request} (s : State) (hq : i.request = some q) (hw : i.wellFormed = true) :
    exec i s = takeRequest q (requestBlock i) s := by
  cases i
  case unknownKind h k =>
    cases hq
    have hk : unknownKindOk k = true := hw
    simp only [exec, execUnknownKind, hk, if_true]
    rfl
  all_goals first | (cases hq; rfl) | cases hq

theorem requestBlock_beside (i : Instr) (s : State) : s.Beside (requestBlock i s).state := by
  cases i with
  | busChange h f => exact applyBusChange_beside h f s
  | busRetire h => exact applyBusRetire_beside h s
  | busUnblock h => exact applyBusUnblock_beside h s
  | departureClear h => exact applyDepartureClear_beside h s
  | setTime _ v => exact (applySetTime_moves s v).besides
  | siteConfigure _ f => exact (applySiteConfigure_moves s f).besides
  | siteLoadReport _ w => exact ⟨rfl, rfl, rfl⟩
  | siteLookup _ b w => exact (applySiteLookup_moves s b w).besides
  | busEnrol h p => exact (applyBusEnrol_moves s h p).besides
  | busLookup h => exact (applyBusLookup_moves s h).besides
  | busPlans h => exact (applyBusPlans_moves s h).besides
  | departureSet h t e r => exact (applyDepartureSet_moves s h t e r).besides
  | planSubmit h a b c d => exact (applyPlanSubmit_moves s h _).besides
  | planCancel h => exact (applyPlanCancel_moves s h).besides
  | planRetire h => exact (applyPlanRetire_moves s h).besides
  | planLookup h => exact (applyPlanLookup_moves s h).besides
  | portGo _ w b => exact (applyPortGo_moves s w b).besides
  | portCancel _ w => exact (applyPortCancel_moves s w).besides
  | portConfigure _ w f => exact (applyPortConfigure_moves s w f).besides
  | portLookup h w => exact (applyPortLookup_moves s h w).besides
  | allocStart _ => exact (applyAllocStart_moves s).besides
  | allocStop _ => exact (applyAllocStop_moves s).besides
  | allocLookup _ b w => exact (applyAllocLookup_moves s b w).besides
  | commitOffer _ a b c d => exact (applyCommitOffer_moves s _).besides
  | commitWithdraw h => exact (applyCommitWithdraw_moves s h).besides
  | commitDispatch h => exact (applyCommitDispatch_moves s h).besides
  | commitRelease h => exact (applyCommitRelease_moves s h).besides
  | commitLookup h => exact (applyCommitLookup_moves s h).besides
  | commitRetire h => exact (applyCommitRetire_moves s h).besides
  | clearTrip _ => exact (applyClearTrip_moves s).besides
  | keepalive _ => exact (State.keepAlive_moves s).besides
  | attentionScan h => exact (applyAttentionScan_moves s h).besides
  | attentionClear h c w => exact (applyAttentionClear_moves s h c w).besides
  | _ => exact .refl s

/-! ### Taken whole, or not at all -/

theorem Ring.startBurst_eq (r : Ring) : r.startBurst = { r with burst := r.startBurst.burst } := by
  unfold Ring.startBurst
  split <;> rfl

theorem Ring.post_eq (c : Completion) (r : Ring) :
    r.post c = { r with writing := some ⟨r.completion.write, c⟩, burst := (r.post c).burst } :=
  Ring.startBurst_eq _

/-- R188: a request is not taken when one of the four conditions fails. -/
theorem State.takes_false {s : State} {q : Request}
    (h : s.ring.state ≠ .running ∨ s.ring.writing ≠ none ∨ s.ring.completion.full = true
      ∨ s.ring.buffer.head? ≠ some q) : s.takes q = false := by
  rw [Bool.eq_false_iff, ne_eq, State.takes_iff]
  rintro ⟨hrun, hwrite, hroom, hhead⟩
  obtain h | h | h | h := h
  · exact h hrun
  · exact h hwrite
  · simp [hroom] at h
  · exact h hhead

theorem unknownKindOk_iff {k : Byte} : unknownKindOk k = true ↔ k = 0 ∨ 33 < k.toNat := by
  rw [unknownKindOk, Bool.or_eq_true, decide_eq_true_iff, beq_iff_eq, ← BitVec.toNat_inj]
  rfl

/-- Settles O3: a request's command is the taking of the request by its block, which leaves the rings alone. -/
theorem executorTakesRequestsInOrder : Obligations.ExecutorTakesRequestsInOrder := by
  refine ⟨fun i q s hq hw ht => ?taken, fun i q s hq hw hn => ?waits, fun h k s => ⟨fun hk ht => ?unknown, ?known⟩⟩
  case taken =>
    have hb := requestBlock_beside i (s.modRing Ring.pop)
    refine ⟨(requestBlock i (s.modRing Ring.pop)).state, (requestBlock i (s.modRing Ring.pop)).status,
      (requestBlock i (s.modRing Ring.pop)).result, ?_, hb.mask, hb.pending, ?_, ?_⟩
    · rw [exec_request s hq hw]
      exact takeRequest_reply ht rfl hb.ring
    · simp only [State.answered]
      rw [Ring.post_eq]; rfl
    · simp only [State.answered]
      rw [Ring.post_eq]; rfl
  case waits => rw [exec_request s hq hw, takeRequest_waits (State.takes_false hn)]
  case unknown =>
    have hw : (Instr.unknownKind h k).wellFormed = true := unknownKindOk_iff.mpr hk
    rw [exec_request s rfl hw]
    exact takeRequest_refused ht rfl
  case known =>
    intro h0 h33
    have hk : ¬ unknownKindOk k = true := by
      rw [unknownKindOk_iff]; exact not_or.mpr ⟨h0, Nat.not_lt.mpr h33⟩
    simp only [exec, execUnknownKind, if_neg hk]

/-! ### The Ring Interface's own operations keep it consistent -/

theorem Ring.Ok.startBurst {r : Ring} (h : r.Ok) : r.startBurst.Ok := by
  unfold Ring.startBurst
  split
  · next hc =>
    refine ⟨?_, h.running, h.stopped, h.request, h.completion, h.threshold, h.holdTime, h.count, h.timer⟩
    simp only [Option.map_some, Option.getD_some, FetchBurst.count, RingRegs.entriesFrom, List.length_map,
      List.length_range]
    omega
  · exact h

theorem Ring.Ok.pop {r : Ring} (h : r.Ok) : r.pop.Ok := by
  refine ⟨?_, h.running, h.stopped, h.request, h.completion, h.threshold, h.holdTime, h.count, h.timer⟩
  have hb := h.buffer
  have hl : r.pop.buffer.length ≤ r.buffer.length := by simp [Ring.pop]
  exact (Nat.add_le_add_right hl _).trans hb

theorem Ring.Ok.post {r : Ring} (h : r.Ok) (c : Completion) : (r.post c).Ok :=
  Ring.Ok.startBurst (r := { r with writing := some ⟨r.completion.write, c⟩ })
    ⟨h.buffer, h.running, h.stopped, h.request, h.completion, h.threshold, h.holdTime, h.count, h.timer⟩

theorem Ring.Ok.report {r : Ring} (h : r.Ok) : r.report.Ok :=
  ⟨h.buffer, h.running, h.stopped, h.request, h.completion, h.threshold, h.holdTime,
    Nat.lt_of_lt_of_le Nat.zero_lt_one h.threshold.1, rfl⟩

/-- R189: the check against the threshold restores what a raised count or a lowered threshold has left open. -/
theorem Ring.Ok.checkCount {r : Ring} (hb : r.buffer.length + (r.burst.map FetchBurst.count).getD 0 ≤ 12)
    (hrun : r.state = .running → r.enable = true ∧ r.request.Usable ∧ r.completion.Usable)
    (hstop : r.state = .stopped → r.enable = false) (hreq : r.request.Ok) (hcomp : r.completion.Ok)
    (ht : 1 ≤ r.threshold ∧ r.threshold ≤ 64) (hh : 1 ≤ r.holdTime ∧ r.holdTime ≤ 1000)
    (htimer : r.holdTimer.isRunning = decide (0 < r.unreported)) : r.checkCount.Ok := by
  unfold Ring.checkCount
  split
  · exact ⟨hb, hrun, hstop, hreq, hcomp, ht, hh, Nat.lt_of_lt_of_le Nat.zero_lt_one ht.1, rfl⟩
  · next hlow => exact ⟨hb, hrun, hstop, hreq, hcomp, ht, hh, Nat.lt_of_not_le hlow, htimer⟩

theorem RingRegs.Ok.advanceRead {r : RingRegs} (h : r.Ok) (n : Nat) : (r.advanceRead n).Ok := by
  obtain h0 | ⟨hw, hr⟩ := h
  · exact .inl h0
  · exact .inr ⟨hw, Nat.mod_lt _ (Nat.zero_lt_of_lt hw)⟩

theorem RingRegs.Ok.advanceWrite {r : RingRegs} (h : r.Ok) : r.advanceWrite.Ok := by
  obtain h0 | ⟨hw, hr⟩ := h
  · exact .inl h0
  · exact .inr ⟨Nat.mod_lt _ (Nat.zero_lt_of_lt hw), hr⟩

theorem Ring.Ok.endWrite {r : Ring} (h : r.Ok) : r.endWrite.Ok := by
  refine Ring.Ok.checkCount h.buffer h.running h.stopped h.request h.completion.advanceWrite h.threshold h.holdTime ?_
  have ht := h.timer
  by_cases h0 : r.unreported = 0
  · simp [h0]
  · have hpos : 0 < r.unreported := Nat.pos_of_ne_zero h0
    simpa [h0, hpos] using ht

theorem clampReg_range {lo hi : Nat} (h : lo ≤ hi) (v : Word) : lo ≤ clampReg lo hi v ∧ clampReg lo hi v ≤ hi := by
  unfold clampReg; omega

theorem RingRegs.Ok.zero (r : RingRegs) : RingRegs.Ok { r with write := 0, read := 0 } := by
  by_cases h : r.size = 0
  · exact .inl h
  · exact .inr ⟨Nat.pos_of_ne_zero h, Nat.pos_of_ne_zero h⟩

theorem Ring.Ok.reset {r : Ring} (h : r.Ok) : r.reset.Ok :=
  ⟨Nat.zero_le 12, (fun hrun => by cases hrun), fun _ => rfl, .zero _, .zero _, h.threshold, h.holdTime,
    Nat.lt_of_lt_of_le Nat.zero_lt_one h.threshold.1, rfl⟩

theorem RingRegs.usable_iff {r : RingRegs} : r.usable = true ↔ r.Usable := by
  simp [RingRegs.usable, RingRegs.Usable, and_assoc]

/-- R184: a register write outside RUNNING that leaves the ring's registers usable pointers. -/
theorem Ring.Ok.modRegs {r : Ring} (h : r.Ok) (hs : r.state = .stopped) (i : RingId) (f : RingRegs → RingRegs)
    (hf : ∀ x, x.Ok → (f x).Ok) : (r.modRegs i f).Ok := by
  have hno : ¬ r.state = .running := by simp [hs]
  cases i with
  | request =>
    exact ⟨h.buffer, fun hrun => absurd hrun hno, h.stopped, hf _ h.request, h.completion, h.threshold,
      h.holdTime, h.count, h.timer⟩
  | completion =>
    exact ⟨h.buffer, fun hrun => absurd hrun hno, h.stopped, h.request, hf _ h.completion, h.threshold,
      h.holdTime, h.count, h.timer⟩

theorem Ring.Ok.endBurst {r : Ring} (h : r.Ok) {rs : List Request}
    (hn : r.burst.map FetchBurst.count = some rs.length) : (r.endBurst rs).Ok := by
  have hb := h.buffer
  rw [hn] at hb
  refine Ring.Ok.startBurst ⟨?_, h.running, h.stopped, h.request.advanceRead _, h.completion, h.threshold,
    h.holdTime, h.count, h.timer⟩
  simpa using hb

/-- R187: an error drops what was in flight and stops the rings in FETCH_ERROR. -/
theorem Ring.Ok.error {r : Ring} (h : r.Ok) (b : Option FetchBurst) (w : Option CompletionWrite)
    (hb : b = r.burst ∨ b = none) : Ring.Ok { r with state := .fetchError, burst := b, writing := w } := by
  refine ⟨?_, (fun hrun => by cases hrun), (fun hstop => by cases hstop), h.request, h.completion, h.threshold,
    h.holdTime, h.count, h.timer⟩
  obtain rfl | rfl := hb
  · exact h.buffer
  · exact (Nat.le_add_right _ _).trans h.buffer

theorem Ring.Ok.powerOn : Ring.powerOn.Ok :=
  ⟨Nat.zero_le 12, (fun h => by cases h), fun _ => rfl, .inl rfl, .inl rfl, by decide, by decide, by decide, rfl⟩

/-! ### Every command keeps the Ring Interface consistent -/

theorem takeRequest_ringOk {q : Request} {act : State → Reply} {s t : State} (ha : ∀ u : State, u.Beside (act u).state)
    (h : takeRequest q act s = .next t) (hs : s.ring.Ok) : t.ring.Ok := by
  unfold takeRequest at h
  split at h
  · cases h
    have hring : (act (s.modRing Ring.pop)).state.ring = s.ring.pop := (ha _).ring
    simp only [finishRequest, modRing_ring, hring]
    exact hs.pop.post _
  · cases h; exact hs

theorem takeCrossing_beside {k : RegKind} {i : Nat} {s t : State} (h : takeCrossing k i s = .next t) :
    s.Beside t := by
  unfold takeCrossing at h
  split at h
  · split at h
    · cases h; exact ((State.unfire_moves _ _).trans (State.handOver_moves _ _)).besides
    · cases h; exact .refl s
  · cases h; exact .refl s

/-- An event that leaves the rings alone, when it happens and when it does not. -/
theorem ite_beside {c : Prop} [Decidable c] {s u v t : State}
    (h : (if c then Host.Outcome.next u else .next v : Host.Outcome State Fault Refusal) = .next t)
    (hu : s.Beside u) (hv : s.Beside v) : s.Beside t := by
  split at h
  · cases h; exact hu
  · cases h; exact hv

/-- A ring event whose operation keeps the rings consistent under the event's condition. -/
theorem ite_ringOk {c : Prop} [Decidable c] {s t : State} {f : Ring → Ring}
    (h : (if c then Host.Outcome.next (s.modRing f) else .next s : Host.Outcome State Fault Refusal) = .next t)
    (hs : s.ring.Ok) (hf : c → (f s.ring).Ok) : t.ring.Ok := by
  split at h
  · next hc => cases h; exact hf hc
  · cases h; exact hs

/-- The events of the Ring Interface itself (11). -/
def ringEvent : Instr → Bool
  | .requestWritePointerWrite _ | .completionReadPointerWrite _ | .ringBaseWrite _ _ | .ringSizeWrite _ _
  | .ringEnable | .ringDisable | .ringReset | .completionThresholdWrite _ | .completionHoldTimeWrite _
  | .attentionMaskWrite _ | .interruptAcknowledge _ | .fetchBurstEnd _ | .fetchError | .completionWriteDone
  | .completionWriteError | .holdTimerExpiry => true
  | _ => false

/-- An event of another block than the Ring Interface leaves the rings, the mask and the queue alone. -/
theorem exec_event_beside {i : Instr} {s t : State} (hp : ∀ l, i ≠ .powerOn l)
    (ho : (i.request.isSome || ringEvent i) = false) (h : exec i s = .next t) : s.Beside t := by
  cases i with
  | powerOn l => exact absurd rfl (hp l)
  | depotTimeAdvance =>
    simp only [exec, execDepotTimeAdvance] at h
    split at h
    · cases h; exact .refl s
    · exact ite_beside h s.advanceSecond_moves.besides (.refl s)
  | rolloverCrossing => exact takeCrossing_beside h
  | notBeforeCrossing _ => exact takeCrossing_beside h
  | holdUntilCrossing _ => exact takeCrossing_beside h
  | endByCrossing _ => exact takeCrossing_beside h
  | departureCrossing _ => exact takeCrossing_beside h
  | lockoutPointCrossing _ => exact takeCrossing_beside h
  | armPointCrossing _ => exact takeCrossing_beside h
  | windowStartCrossing _ => exact takeCrossing_beside h
  | windowEndCrossing _ => exact takeCrossing_beside h
  | allocationComputation => exact ite_beside h s.compute_moves.besides (.refl s)
  | pilotLevelTaken n l =>
    exact ite_beside h (.refl s) ((takePilot_moves s n l).trans (State.actPilot_moves _ n l)).besides
  | settlingEnd n => exact ite_beside h ⟨rfl, rfl, rfl⟩ (.refl s)
  | debounceEnd n => exact ite_beside h ⟨rfl, rfl, rfl⟩ (.refl s)
  | answerTimerExpiry n =>
    simp only [exec, execAnswerTimerExpiry] at h
    split at h
    · exact ite_beside h ⟨rfl, rfl, rfl⟩ ⟨rfl, rfl, rfl⟩
    · cases h; exact .refl s
  | announce n m =>
    simp only [exec, execAnnounce] at h
    split at h
    · cases h; exact .refl s
    · cases h; exact s.judgeAnnounce_beside n m
    · cases h; exact ⟨rfl, rfl, rfl⟩
  | limit n a b =>
    simp only [exec, execLimit] at h
    split at h
    · cases h; exact .refl s
    · cases h; exact ⟨rfl, rfl, rfl⟩
    · split at h
      · cases h; exact (s.limitBus_moves _ _ _ _).besides
      · cases h; exact ⟨rfl, rfl, rfl⟩
  | faultReport n c =>
    simp only [exec, execFaultReport] at h
    split at h
    · cases h; exact .refl s
    · cases h; exact ⟨rfl, rfl, rfl⟩
    · split at h
      · cases h
        exact ((Moves.alike n _ fun ho => ho.aside _ rfl).trans (State.blockBus_moves _ _ _)).besides
      · cases h; exact ⟨rfl, rfl, rfl⟩
  | messageCheckFailure n => exact ite_beside h ⟨rfl, rfl, rfl⟩ (.refl s)
  | unknownTypeDiscard n => exact ite_beside h ⟨rfl, rfl, rfl⟩ (.refl s)
  | feedbackTaken n c =>
    exact ite_beside h (s.closingOpen_moves n).besides
      ((takeFeedback_moves s n c).trans (State.actFeedback_moves _ n c)).besides
  | confirmationTimeout n => exact ite_beside h (s.portFault_moves n _).besides (.refl s)
  | openDelayExpiry n => exact ite_beside h ⟨rfl, rfl, rfl⟩ (.refl s)
  | weldTimerExpiry n =>
    simp only [exec, execWeldTimerExpiry] at h
    split at h
    · exact ite_beside h ⟨rfl, rfl, rfl⟩ ((weldStopped_moves s n).trans (State.portFault_moves _ n _)).besides
    · cases h; exact .refl s
  | quietTimerExpiry n =>
    exact ite_beside h (.trans (t := s.commandOpen n) ⟨rfl, rfl, rfl⟩ (State.closingOpen_moves _ n).besides) (.refl s)
  | limitTimerExpiry n =>
    exact ite_beside h (.trans (t := (s.setPort n (Port.raise PortFlag.closeTimeout)).commandOpen n) ⟨rfl, rfl, rfl⟩
      (State.closingOpen_moves _ n).besides) (.refl s)
  | setpointFrameRepeat n => exact ite_beside h ⟨rfl, rfl, rfl⟩ (.refl s)
  | filteredTransition n m =>
    cases m with
    | one l => cases h; exact (s.lineMoved_moves n l _).besides
    | both => cases h; exact ⟨rfl, rfl, rfl⟩
  | lineFilterGlitch n l => exact ite_beside h ⟨rfl, rfl, rfl⟩ (.refl s)
  | stallTimerExpiry n =>
    simp only [exec, execStallTimerExpiry] at h
    split at h
    · split at h
      · cases h; exact ((stallStopped_moves s n).trans (State.blockBus_moves _ _ _)).besides
      · cases h; exact ⟨rfl, rfl, rfl⟩
    · cases h; exact .refl s
  | siteTripAssertion =>
    simp only [exec, execSiteTripAssertion] at h
    split at h
    · cases h; exact .refl s
    · exact ite_beside h ⟨rfl, rfl, rfl⟩ s.trip_moves.besides
  | siteTripDeassertion => cases h; exact ⟨rfl, rfl, rfl⟩
  | gridDispatchRisingEdge =>
    refine ite_beside h (.refl s) (.trans (t := s.takeDispatch true) ⟨rfl, rfl, rfl⟩ ?_)
    unfold State.risingEdge
    split
    · exact .ite ⟨modCommit_ring _ _ _, modCommit_mask _ _ _, modCommit_pending _ _ _⟩ ⟨rfl, rfl, rfl⟩
    · exact ⟨rfl, rfl, rfl⟩
  | gridDispatchFallingEdge =>
    refine ite_beside h (.trans (t := s.takeDispatch false) ⟨rfl, rfl, rfl⟩ ?_) (.refl s)
    unfold State.fallingEdge
    split
    · exact .ite (State.endNormally_moves _ _ _).besides (.refl _)
    · exact .refl _
  | supervisionTimerExpiry => exact ite_beside h s.supervisionExpiry_moves.besides (.refl s)
  | enquireSent n => exact ite_beside h ⟨rfl, rfl, rfl⟩ (.refl s)
  | meterLineSample n l v =>
    simp only [exec, execMeterLineSample] at h
    split at h
    · exact ite_beside h ⟨rfl, rfl, rfl⟩ ⟨rfl, rfl, rfl⟩
    · exact ite_beside h (s.lineMoved_moves n l v).besides ⟨rfl, rfl, rfl⟩
  | _ => cases ho

/-- An event of the Ring Interface keeps it consistent. -/
theorem exec_ringEvent_ok {i : Instr} {s t : State} (hr : ringEvent i = true) (hs : s.ring.Ok)
    (h : exec i s = .next t) : t.ring.Ok := by
  cases i with
  | requestWritePointerWrite v =>
    refine ite_ringOk h hs fun hv => Ring.Ok.startBurst (r := { s.ring with request := _ })
      ⟨hs.buffer, hs.running, hs.stopped, ?_, hs.completion, hs.threshold, hs.holdTime, hs.count, hs.timer⟩
    obtain h0 | ⟨_, hread⟩ := hs.request
    · exact .inl h0
    · exact .inr ⟨hv, hread⟩
  | completionReadPointerWrite v =>
    refine ite_ringOk h hs fun hv =>
      ⟨hs.buffer, hs.running, hs.stopped, hs.request, ?_, hs.threshold, hs.holdTime, hs.count, hs.timer⟩
    obtain h0 | ⟨hwrite, _⟩ := hs.completion
    · exact .inl h0
    · exact .inr ⟨hwrite, hv⟩
  | ringBaseWrite j a => exact ite_ringOk h hs fun hst => hs.modRegs hst j _ fun _ hx => hx
  | ringSizeWrite j n =>
    exact ite_ringOk h hs fun hst => hs.modRegs hst j _ fun x _ => RingRegs.Ok.zero { x with size := n.toNat }
  | ringEnable =>
    refine ite_ringOk h hs fun ⟨_, hreq, hcomp⟩ => Ring.Ok.startBurst
      (r := { s.ring with state := .running, enable := true })
      ⟨hs.buffer, fun _ => ⟨rfl, RingRegs.usable_iff.mp hreq, RingRegs.usable_iff.mp hcomp⟩, (fun hst => by cases hst),
        hs.request, hs.completion, hs.threshold, hs.holdTime, hs.count, hs.timer⟩
  | ringDisable =>
    exact ite_ringOk h hs fun _ => ⟨hs.buffer, (fun hrun => by cases hrun), fun _ => rfl, hs.request, hs.completion,
      hs.threshold, hs.holdTime, hs.count, hs.timer⟩
  | ringReset => cases h; exact hs.reset
  | completionThresholdWrite v =>
    cases h
    exact Ring.Ok.checkCount hs.buffer hs.running hs.stopped hs.request hs.completion
      (clampReg_range (by decide) v) hs.holdTime hs.timer
  | completionHoldTimeWrite v =>
    cases h
    exact ⟨hs.buffer, hs.running, hs.stopped, hs.request, hs.completion, hs.threshold,
      clampReg_range (by decide) v, hs.count, hs.timer⟩
  | attentionMaskWrite v => cases h; exact hs
  | interruptAcknowledge v =>
    exact ite_ringOk h hs fun _ => ⟨hs.buffer, hs.running, hs.stopped, hs.request, hs.completion, hs.threshold,
      hs.holdTime, hs.count, hs.timer⟩
  | fetchBurstEnd rs =>
    simp only [exec, execFetchBurstEnd] at h
    split at h
    · exact ite_ringOk h hs fun hn => hs.endBurst hn
    · cases h
  | fetchError =>
    simp only [exec, execFetchError] at h
    split at h
    · cases h; exact hs.error none _ (.inr rfl)
    · cases h; exact hs
  | completionWriteDone => exact ite_ringOk h hs fun _ => hs.endWrite
  | completionWriteError =>
    simp only [exec, execCompletionWriteError] at h
    split at h
    · cases h; exact hs.error _ none (.inl rfl)
    · cases h; exact hs
  | holdTimerExpiry => exact ite_ringOk h hs fun _ => hs.report
  | _ => cases hr

theorem unknownKind_next {r : ReqHeader} {k : Byte} {s t : State} (h : exec (.unknownKind r k) s = .next t) :
    (Instr.unknownKind r k).wellFormed = true := by
  simp only [exec, execUnknownKind] at h
  split at h
  · next hk => exact hk
  · cases h

/-- A request's command that answers a next state is well formed. -/
theorem wellFormed_of_next {i : Instr} {q : Request} {s t : State} (hq : i.request = some q)
    (h : exec i s = .next t) : i.wellFormed = true := by
  cases i with
  | unknownKind r k => exact unknownKind_next h
  | fetchBurstEnd rs => cases hq
  | _ => rfl

theorem exec_ringOk {i : Instr} {s t : State} (hs : s.ring.Ok) (h : exec i s = .next t) : t.ring.Ok := by
  cases hq : i.request with
  | some q =>
    rw [exec_request s hq (wellFormed_of_next hq h)] at h
    exact takeRequest_ringOk (requestBlock_beside i) h hs
  | none =>
    by_cases hp : ∃ l, i = .powerOn l
    · obtain ⟨l, rfl⟩ := hp
      cases h; exact .powerOn
    · cases hr : ringEvent i with
      | true => exact exec_ringEvent_ok hr hs h
      | false => rw [(exec_event_beside (fun l e => hp ⟨l, e⟩) (by rw [hq, hr]; rfl) h).ring]; exact hs

theorem Timer.tick_isRunning (t : Timer) : t.tick.isRunning = t.isRunning := by
  cases t <;> rfl

/-- Settles O60: a millisecond ages the hold timer alone, and every command keeps the Ring Interface consistent. -/
theorem stepsKeepRings : Obligations.StepsKeepRings := by
  intro s t hs h
  unfold step at h
  split at h
  · cases h
    exact ⟨hs.buffer, hs.running, hs.stopped, hs.request, hs.completion, hs.threshold, hs.holdTime, hs.count,
      (Timer.tick_isRunning _).trans hs.timer⟩
  · next c rest _ => exact exec_ringOk (s := { s with pending := rest }) hs h

/-! ### The step, one millisecond and power-on -/

/-- Settles O1: the step's equation on a queue with a front command. -/
theorem stepRunsFrontCommand : Obligations.StepRunsFrontCommand := fun _ _ => rfl

theorem filterTick_same {α : Type} [DecidableEq α] {limit : Nat} {line output : α} (c : Option (Candidate α))
    (h : line = output) : filterTick limit line output c = none := if_pos h

theorem filterTick_ages {α : Type} [DecidableEq α] {limit : Nat} {line output : α} {k : Candidate α}
    (h : line ≠ output) (hk : k.level = line) :
    filterTick limit line output (some k) = some ⟨line, min limit (k.age + 1)⟩ := by
  simp [filterTick, h, hk]

theorem filterTick_starts {α : Type} [DecidableEq α] {limit : Nat} {line output : α} {c : Option (Candidate α)}
    (h : line ≠ output) (hk : ∀ k, c = some k → k.level ≠ line) :
    filterTick limit line output c = some ⟨line, 0⟩ := by
  cases c with
  | none => simp [filterTick, h]
  | some k => simp [filterTick, h, hk k rfl]

/-- R69, R75, R165: the three cases of one millisecond of a level filter. -/
theorem filterTick_cases {α : Type} [DecidableEq α] (limit : Nat) (line output : α) (c : Option (Candidate α)) :
    (line = output → filterTick limit line output c = none)
    ∧ (∀ k, line ≠ output → c = some k → k.level = line →
      filterTick limit line output c = some ⟨line, min limit (k.age + 1)⟩)
    ∧ (line ≠ output → (∀ k, c = some k → k.level ≠ line) →
      filterTick limit line output c = some ⟨line, 0⟩) :=
  ⟨filterTick_same c, fun k hne hc hk => by rw [hc]; exact filterTick_ages hne hk, filterTick_starts⟩

theorem Clock.tick_eq (c : Clock) :
    c.tick = { c with phase := if c.mode = .set then min 1000 (c.phase + 1) else c.phase } := by
  rcases c with ⟨_ | _, _, _, _, _, _⟩ <;> rfl

theorem State.tick_port (s : State) (n : PortNo) : s.tick.port n = (s.port n).tick := by
  simp [State.port, State.tick]

theorem Timer.tick_eq (t : Timer) :
    t.tick = match t with | .stopped => .stopped | .running l e => .running l (min l (e + 1)) := by
  cases t <;> rfl

/-- Settles O2: the three cases of a level filter, and what the tick of each record leaves. -/
theorem emptyQueuePassesOneMillisecond : Obligations.EmptyQueuePassesOneMillisecond := by
  intro s hs
  have hstep : step s = .next s.tick := by unfold step; rw [hs]
  refine ⟨s.tick, hstep, rfl, s.clock.tick_eq,
    congrArg (fun x => { s.engine with timer := x }) (Timer.tick_eq _),
    congrArg (fun x => { s.supervision with timer := x }) (Timer.tick_eq _),
    congrArg (fun x => { s.ring with holdTimer := x }) (Timer.tick_eq _), rfl, filterTick_cases 100 _ _ _,
    fun n => ?_⟩
  rw [State.tick_port]
  refine ⟨?_, filterTick_cases 50 _ _ _, filterTick_cases 20 _ _ _⟩
  simp only [Port.tick, Timer.tick_eq] <;> rfl

theorem poweredOn_port (l : LineLevels) (q : List Instr) (n : PortNo) :
    (poweredOn l q).port n = Port.powerOn n l.meter[n] := by
  simp [State.port, poweredOn]

/-- Settles O4: each field of the state that POWER_ON leaves. -/
theorem powerOnState : Obligations.PowerOnState := by
  intro l s
  refine ⟨poweredOn l s.pending, rfl, rfl, rfl, rfl, fun n => ⟨?_, ?_⟩, rfl, rfl, rfl, rfl, rfl, rfl, rfl, rfl, rfl,
    rfl, fun n => ?_, rfl, rfl, rfl, rfl, fun n => ?_, rfl, rfl, rfl, rfl, rfl, rfl⟩
  · simp [poweredOn, State.reset]
  · simp [poweredOn, State.reset]
  · rw [poweredOn_port]; rfl
  · simp only [poweredOn, State.reset, Fin.getElem_fin, Vector.getElem_replicate]; rfl

theorem reset_port (n : PortNo) : State.reset.port n = Port.powerOn n (.low, .low) := by
  simp [State.port, State.reset]

theorem Port.powerOn_ok (n : PortNo) (m : Level × Level) : (Port.powerOn n m).Ok n where
  number := rfl
  fits := ⟨rfl, fun h => absurd rfl h, ⟨fun _ => rfl, fun _ => rfl⟩, rfl, by simp [Port.powerOn], rfl⟩
  timed := by
    refine ⟨?_, rfl, ?_, rfl, rfl, ?_, rfl, ?_, ?_⟩ <;> (intro h; cases h)
  commanded := ⟨fun h => (by cases h), fun h => (by cases h)⟩
  inRange := by
    refine ⟨?_, ?_, ?_, ?_, ?_, ?_, ?_, ?_⟩ <;> simp [Port.powerOn, LineFilter.powerOn, maxWord]

theorem Table.get_empty {α : Type} (k : Nat) : (Table.mk ([] : List (Nat × α))).get k = none := rfl

theorem Setpoint.Ok.zero : Setpoint.zero.Ok := ⟨rfl, fun _ => Nat.zero_le _, fun _ => Nat.zero_le _⟩

/-- A powered-on port has every power at 0 and no session. -/
theorem reset_powersOk : State.reset.PowersOk where
  staged n := by simp [State.reset, Ratings.Ok]
  live n := by simp [State.reset, Ratings.Ok]
  trickle := by decide
  buses i b h := nomatch (Table.get_empty i).symm.trans h
  tierA n := by simp [State.reset, PortResult.zero]
  held n := by rw [reset_port]; exact .zero
  caps n x h := by rw [reset_port] at h; cases h
  frames n := by rw [reset_port]; exact Nat.zero_le _

/-- Settles O57: the tables are empty, every port is OFFLINE with its timers stopped, and nothing is registered. -/
theorem resetMeetsTheInvariants : Obligations.ResetMeetsTheInvariants := by
  refine ⟨⟨.empty _, .empty _, .empty _, .empty _, .empty _, List.nodup_nil⟩, fun n => ?_, fun i n => ?_, .powerOn,
    fun r hr => (by cases hr), fun i j c d hc => ?_, fun i b hb => ?_, reset_powersOk⟩
  · rw [reset_port]; exact Port.powerOn_ok n _
  · rw [reset_port]
    exact ⟨fun h => (by cases h), fun ⟨b, hb, _⟩ => nomatch (Table.get_empty i).symm.trans hb⟩
  · exact nomatch (Table.get_empty i).symm.trans hc
  · exact nomatch (Table.get_empty i).symm.trans hb

end Sys2Proof.Machine
end

section
/-! The proportional split (08, R147 to R150): one pass of a round as a whole, the sums of a split, the shares each
pass moves, then the statement. -/

namespace Sys2Proof.Machine

open Sys2Proof

/-! ### One pass down an order -/

/-- One pass down an order of shares: the first c shares that are selected move by f. -/
def passWith (sel : Share → Bool) (f : Nat → Nat) : Nat → List Share → List Share
  | _, [] => []
  | 0, xs => xs
  | c + 1, x :: xs =>
    if sel x then { x with got := f x.got } :: passWith sel f c xs else x :: passWith sel f (c + 1) xs

/-- R148: the shares from which 100 W can be taken back. -/
def Share.spare (x : Share) : Bool := decide (100 ≤ x.got)

/-- R149: the shares to which 100 W can be handed. -/
def Share.short (x : Share) : Bool := decide (x.got < x.req)

theorem passWith_zero (sel : Share → Bool) (f : Nat → Nat) (xs : List Share) : passWith sel f 0 xs = xs := by
  cases xs <;> rfl

/-- R148: a pass takes back from as many shares as the excess has begun hundreds. -/
theorem takePass_eq (q total : Nat) (xs : List Share) :
    takePass q total xs = passWith Share.spare (· - 100) ((total - q + 99) / 100) xs := by
  induction xs generalizing total with
  | nil => cases (total - q + 99) / 100 <;> rfl
  | cons x xs ih =>
    by_cases hq : q < total
    · obtain ⟨c, hc⟩ : ∃ c, (total - q + 99) / 100 = c + 1 := ⟨(total - q + 99) / 100 - 1, by omega⟩
      have hc' : (total - 100 - q + 99) / 100 = c := by omega
      by_cases hx : 100 ≤ x.got
      · rw [takePass, if_pos ⟨hq, hx⟩, ih, hc, hc', passWith, if_pos (by simpa [Share.spare] using hx)]
      · rw [takePass, if_neg (fun h => hx h.2), ih, hc, passWith, if_neg (by simpa [Share.spare] using hx)]
    · have hc : (total - q + 99) / 100 = 0 := by omega
      rw [takePass, if_neg (fun h => hq h.1), ih, hc, passWith_zero, passWith_zero]

/-- R149: a round hands out to as many shares as there are whole hundreds left. -/
theorem givePass_eq (left : Nat) (xs : List Share) :
    givePass left xs = passWith Share.short (· + 100) (left / 100) xs := by
  induction xs generalizing left with
  | nil => cases left / 100 <;> rfl
  | cons x xs ih =>
    by_cases hl : 100 ≤ left
    · obtain ⟨c, hc⟩ : ∃ c, left / 100 = c + 1 := ⟨left / 100 - 1, by omega⟩
      have hc' : (left - 100) / 100 = c := by omega
      by_cases hx : x.got < x.req
      · rw [givePass, if_pos ⟨hl, hx⟩, ih, hc, hc', passWith, if_pos (by simpa [Share.short] using hx)]
      · rw [givePass, if_neg (fun h => hx h.2), ih, hc, passWith, if_neg (by simpa [Share.short] using hx)]
    · have hc : left / 100 = 0 := by omega
      rw [givePass, if_neg (fun h => hl h.1), ih, hc, passWith_zero, passWith_zero]

section Pass

variable {sel : Share → Bool} {f : Nat → Nat}

/-- A pass changes no port, request or adjusted share. -/
theorem passWith_map {α : Type} (g : Share → α) (hg : ∀ x w, g { x with got := w } = g x) (c : Nat) (xs : List Share) :
    (passWith sel f c xs).map g = xs.map g := by
  induction xs generalizing c with
  | nil => cases c <;> rfl
  | cons x xs ih =>
    cases c with
    | zero => rw [passWith_zero]
    | succ c =>
      rw [passWith]
      split
      · rw [List.map_cons, List.map_cons, ih, hg]
      · rw [List.map_cons, List.map_cons, ih]

/-- What holds of every share, and of every selected share once moved, holds after a pass. -/
theorem passWith_forall {P : Share → Prop} (hm : ∀ x, sel x = true → P x → P { x with got := f x.got }) (c : Nat)
    {xs : List Share} (h : ∀ x ∈ xs, P x) : ∀ y ∈ passWith sel f c xs, P y := by
  induction xs generalizing c with
  | nil => cases c <;> exact h
  | cons x xs ih =>
    have htail : ∀ c, ∀ y ∈ passWith sel f c xs, P y := fun c => ih c fun y hy => h y (List.mem_cons_of_mem _ hy)
    have hhead : P x := h x (List.mem_cons_self ..)
    cases c with
    | zero => rw [passWith_zero]; exact h
    | succ c =>
      rw [passWith]
      split
      · next hs => exact List.forall_mem_cons.mpr ⟨hm x hs hhead, htail c⟩
      · exact List.forall_mem_cons.mpr ⟨hhead, htail (c + 1)⟩

theorem sharesTotal_cons (x : Share) (xs : List Share) : sharesTotal (x :: xs) = x.got + sharesTotal xs := by
  simp [sharesTotal]

/-- The power that a pass moves: 100 W for each share it moves. -/
theorem sharesTotal_give (c : Nat) (xs : List Share) :
    sharesTotal (passWith sel (· + 100) c xs) = sharesTotal xs + 100 * min c (xs.countP sel) := by
  induction xs generalizing c with
  | nil => cases c <;> simp [passWith]
  | cons x xs ih =>
    cases c with
    | zero => simp [passWith_zero]
    | succ c =>
      rw [passWith]
      by_cases hs : sel x = true
      · rw [if_pos hs, sharesTotal_cons, sharesTotal_cons, ih, List.countP_cons_of_pos hs]
        dsimp only
        omega
      · rw [if_neg hs, sharesTotal_cons, sharesTotal_cons, ih, List.countP_cons_of_neg hs]
        omega

theorem sharesTotal_take (c : Nat) (xs : List Share) :
    sharesTotal (passWith Share.spare (· - 100) c xs) + 100 * min c (xs.countP Share.spare) = sharesTotal xs := by
  induction xs generalizing c with
  | nil => cases c <;> simp [passWith]
  | cons x xs ih =>
    cases c with
    | zero => simp [passWith_zero]
    | succ c =>
      rw [passWith]
      by_cases hs : x.spare = true
      · have hx : 100 ≤ x.got := by simpa [Share.spare] using hs
        have := ih c
        rw [if_pos hs, sharesTotal_cons, sharesTotal_cons, List.countP_cons_of_pos hs]
        dsimp only
        omega
      · have := ih (c + 1)
        rw [if_neg hs, sharesTotal_cons, sharesTotal_cons, List.countP_cons_of_neg hs]
        omega

/-- The shares whose ports stand in a list, moved by f. -/
def movedAt (ports : List PortNo) (f : Nat → Nat) (xs : List Share) : List Share :=
  xs.map fun y => if y.port ∈ ports then { y with got := f y.got } else y

theorem movedAt_nil (f : Nat → Nat) (xs : List Share) : movedAt [] f xs = xs := by
  simp [movedAt]

/-- A port that no share of the list has moves nothing. -/
theorem movedAt_cons_ne {n : PortNo} {ports : List PortNo} {xs : List Share} (h : n ∉ xs.map Share.port) :
    movedAt (n :: ports) f xs = movedAt ports f xs := by
  refine List.map_congr_left fun y hy => ?_
  have hne : y.port ≠ n := fun e => h (List.mem_map.mpr ⟨y, hy, e⟩)
  simp [hne]

/-- Over shares of distinct ports, a pass moves the first c selected shares and no other. -/
theorem passWith_moved (c : Nat) {xs : List Share} (hn : (xs.map Share.port).Nodup) :
    passWith sel f c xs = movedAt (((xs.filter sel).take c).map Share.port) f xs := by
  induction xs generalizing c with
  | nil => cases c <;> rfl
  | cons x xs ih =>
    rw [List.map_cons, List.nodup_cons] at hn
    obtain ⟨hx, hn⟩ := hn
    cases c with
    | zero => simp [passWith_zero, movedAt_nil]
    | succ c =>
      rw [passWith]
      by_cases hs : sel x = true
      · rw [if_pos hs, ih c hn, List.filter_cons_of_pos hs, List.take_succ_cons, List.map_cons,
          ← movedAt_cons_ne (ports := ((xs.filter sel).take c).map Share.port) hx]
        simp [movedAt]
      · have hnot : x.port ∉ (((xs.filter sel).take (c + 1)).map Share.port) := by
          intro hm
          obtain ⟨y, hy, e⟩ := List.mem_map.mp hm
          exact hx (List.mem_map.mpr ⟨y, List.mem_of_mem_filter (List.mem_of_mem_take hy), e⟩)
        rw [if_neg hs, ih (c + 1) hn, List.filter_cons_of_neg hs]
        simp only [movedAt, List.map_cons, if_neg hnot]

end Pass

/-! ### Orders of shares -/

theorem sharesTotal_perm {xs ys : List Share} (h : xs.Perm ys) : sharesTotal xs = sharesTotal ys :=
  (h.map Share.got).sum_nat

theorem movedAt_perm {xs ys : List Share} (h : xs.Perm ys) (ports : List PortNo) (f : Nat → Nat) :
    (movedAt ports f xs).Perm (movedAt ports f ys) := h.map _

theorem takeOrder_total (a b : Share) : takeOrder a b = true ∨ takeOrder b a = true := by
  simp only [takeOrder, Bool.or_eq_true, Bool.and_eq_true, decide_eq_true_iff]; omega

theorem takeOrder_trans (a b c : Share) (h : takeOrder a b = true) (k : takeOrder b c = true) :
    takeOrder a c = true := by
  simp only [takeOrder, Bool.or_eq_true, Bool.and_eq_true, decide_eq_true_iff] at *; omega

theorem giveOrder_total (a b : Share) : giveOrder a b = true ∨ giveOrder b a = true := by
  simp only [giveOrder, Bool.or_eq_true, Bool.and_eq_true, decide_eq_true_iff]; omega

theorem giveOrder_trans (a b c : Share) (h : giveOrder a b = true) (k : giveOrder b c = true) :
    giveOrder a c = true := by
  simp only [giveOrder, Bool.or_eq_true, Bool.and_eq_true, decide_eq_true_iff] at *; omega

/-- A sorted list of shares of distinct ports is strictly sorted. -/
theorem sortBy_strict {le : Share → Share → Bool} (tot : ∀ a b, le a b = true ∨ le b a = true)
    (tr : ∀ a b c, le a b = true → le b c = true → le a c = true) {xs : List Share}
    (hn : (xs.map Share.port).Nodup) :
    (sortBy le xs).Pairwise fun a b => le a b = true ∧ a.port ≠ b.port := by
  have hports : ((sortBy le xs).map Share.port).Nodup := ((sortBy_perm le xs).map Share.port).nodup_iff.mpr hn
  exact (sortBy_sorted le tot tr xs).and (List.pairwise_map.mp hports)

/-! ### The sums of a split -/

/-- A share that a split can hold: a multiple of 100 W within a request that is one. -/
structure Share.Whole (x : Share) : Prop where
  got    : x.got % 100 = 0
  req    : x.req % 100 = 0
  within : x.got ≤ x.req

theorem Share.Whole.give {x : Share} (h : x.Whole) (hs : x.short = true) :
    Share.Whole { x with got := x.got + 100 } := by
  obtain ⟨hg, hr, hw⟩ := h
  have hlt : x.got < x.req := by simpa [Share.short] using hs
  refine ⟨?_, hr, ?_⟩ <;> dsimp only <;> omega

theorem Share.Whole.take {x : Share} (h : x.Whole) (hs : x.spare = true) :
    Share.Whole { x with got := x.got - 100 } := by
  obtain ⟨hg, hr, hw⟩ := h
  have hle : 100 ≤ x.got := by simpa [Share.spare] using hs
  refine ⟨?_, hr, ?_⟩ <;> dsimp only <;> omega

/-- A sum of multiples of 100 W above 0 has a share of 100 W or more. -/
theorem countP_spare_pos {xs : List Share} (h : ∀ x ∈ xs, x.Whole) (hs : 0 < sharesTotal xs) :
    0 < xs.countP Share.spare := by
  by_contra hc
  have hnone : ∀ x ∈ xs, x.got = 0 := fun x hx => by
    have hnot : ¬ x.spare = true := fun hspare => hc (List.countP_pos_iff.mpr ⟨x, hx, hspare⟩)
    have hlt : x.got < 100 := by simpa [Share.spare] using hnot
    have hmod := (h x hx).got
    omega
  have : sharesTotal xs = 0 := List.sum_eq_zero fun w hw => by
    obtain ⟨x, hx, rfl⟩ := List.mem_map.mp hw
    exact hnone x hx
  omega

/-- Shares that together are below the requests have one below its request. -/
theorem countP_short_pos {xs : List Share} (hs : sharesTotal xs < (xs.map Share.req).sum) :
    0 < xs.countP Share.short := by
  by_contra hc
  have hall : ∀ x ∈ xs, x.req ≤ x.got := fun x hx => by
    have hnot : ¬ x.short = true := fun hshort => hc (List.countP_pos_iff.mpr ⟨x, hx, hshort⟩)
    simpa [Share.short] using hnot
  have : (xs.map Share.req).sum ≤ (xs.map Share.got).sum := List.sum_le_sum hall
  exact absurd hs (Nat.not_lt.mpr this)

/-- R148: taking back ends with the sum at or below Q, when the passes are enough. -/
theorem takeBack_total (q n : Nat) {xs : List Share} (h : ∀ x ∈ xs, x.Whole) (hn : sharesTotal xs ≤ q + 100 * n) :
    sharesTotal (takeBack q n xs) ≤ q := by
  induction n generalizing xs with
  | zero => exact hn
  | succ n ih =>
    rw [takeBack]
    split
    · next hq =>
      rw [takePass_eq]
      refine ih (passWith_forall (fun x hs hx => hx.take hs) _ h) ?_
      have hpos := countP_spare_pos h (by omega)
      have htake := sharesTotal_take ((sharesTotal xs - q + 99) / 100) xs
      omega
    · next hq => exact Nat.not_lt.mp hq

theorem takeBack_forall {P : Share → Prop} (hm : ∀ x : Share, x.spare = true → P x → P { x with got := x.got - 100 })
    (q n : Nat) {xs : List Share} (h : ∀ x ∈ xs, P x) : ∀ y ∈ takeBack q n xs, P y := by
  induction n generalizing xs with
  | zero => exact h
  | succ n ih =>
    rw [takeBack]
    split
    · rw [takePass_eq]; exact ih (passWith_forall hm _ h)
    · exact h

theorem takeBack_map {α : Type} (g : Share → α) (hg : ∀ x w, g { x with got := w } = g x) (q n : Nat)
    (xs : List Share) : (takeBack q n xs).map g = xs.map g := by
  induction n generalizing xs with
  | zero => rfl
  | succ n ih =>
    rw [takeBack]
    split
    · rw [ih, takePass_eq, passWith_map g hg]
    · rfl

/-- One round of R149. -/
def handRound (q : Nat) (xs : List Share) : List Share := givePass (q - sharesTotal xs) (sortBy giveOrder xs)

theorem handOut_succ (q n : Nat) (xs : List Share) : handOut q (n + 1) xs =
    if 100 ≤ q - sharesTotal xs then handOut q n (handRound q xs) else xs := rfl

theorem handRound_eq (q : Nat) (xs : List Share) : handRound q xs =
    passWith Share.short (· + 100) ((q - sharesTotal xs) / 100) (sortBy giveOrder xs) := givePass_eq _ _

theorem handRound_map {α : Type} (g : Share → α) (hg : ∀ x w, g { x with got := w } = g x) (q : Nat)
    (xs : List Share) : ((handRound q xs).map g).Perm (xs.map g) := by
  rw [handRound_eq, passWith_map g hg]
  exact (sortBy_perm _ _).map g

theorem handRound_forall {P : Share → Prop} (hm : ∀ x : Share, x.short = true → P x → P { x with got := x.got + 100 })
    (q : Nat) {xs : List Share} (h : ∀ x ∈ xs, P x) : ∀ y ∈ handRound q xs, P y := by
  rw [handRound_eq]
  exact passWith_forall hm _ fun x hx => h x ((sortBy_perm _ _).mem_iff.mp hx)

/-- A round hands out at most what is left, and 100 W at least while a share is below its request. -/
theorem handRound_total {q : Nat} {xs : List Share} (hq : sharesTotal xs ≤ q) (hl : 100 ≤ q - sharesTotal xs)
    (hr : q < (xs.map Share.req).sum) :
    sharesTotal xs + 100 ≤ sharesTotal (handRound q xs) ∧ sharesTotal (handRound q xs) ≤ q := by
  have hperm := sortBy_perm giveOrder xs
  have hsum := sharesTotal_perm hperm
  have hpos : 0 < (sortBy giveOrder xs).countP Share.short := by
    rw [hperm.countP_eq]; exact countP_short_pos (by omega)
  rw [handRound_eq, sharesTotal_give]
  omega

/-- R149: rounds end with less than 100 W left, when they are enough. -/
theorem handOut_total (q n : Nat) {xs : List Share} (hq : sharesTotal xs ≤ q) (hn : q - sharesTotal xs < 100 * n + 100)
    (hr : q < (xs.map Share.req).sum) :
    sharesTotal (handOut q n xs) ≤ q ∧ q - sharesTotal (handOut q n xs) < 100 := by
  induction n generalizing xs with
  | zero => exact ⟨hq, hn⟩
  | succ n ih =>
    rw [handOut_succ]
    split
    · next hl =>
      have hround := handRound_total hq hl hr
      have hreq : ((handRound q xs).map Share.req).sum = (xs.map Share.req).sum :=
        (handRound_map Share.req (fun _ _ => rfl) q xs).sum_nat
      exact ih hround.2 (by omega) (by rw [hreq]; exact hr)
    · next hl => exact ⟨hq, Nat.lt_of_not_le hl⟩

theorem handOut_forall {P : Share → Prop} (hm : ∀ x : Share, x.short = true → P x → P { x with got := x.got + 100 })
    (q n : Nat) {xs : List Share} (h : ∀ x ∈ xs, P x) : ∀ y ∈ handOut q n xs, P y := by
  induction n generalizing xs with
  | zero => exact h
  | succ n ih =>
    rw [handOut_succ]
    split
    · exact ih (handRound_forall hm q h)
    · exact h

theorem handOut_map {α : Type} (g : Share → α) (hg : ∀ x w, g { x with got := w } = g x) (q n : Nat)
    (xs : List Share) : ((handOut q n xs).map g).Perm (xs.map g) := by
  induction n generalizing xs with
  | zero => exact .refl _
  | succ n ih =>
    rw [handOut_succ]
    split
    · exact (ih _).trans (handRound_map g hg q xs)
    · exact .refl _

/-! ### The split of a tier -/

/-- R147: the first shares of a tier's ports. -/
def firstShares (q : Nat) (xs : List (PortNo × Nat × Int)) : List Share :=
  xs.map fun x => shareOf q (xs.map fun x => x.2.1).sum x.1 x.2.1 x.2.2

theorem shareOf_whole (q total : Nat) (n : PortNo) {req : Nat} (residue : Int) (h : req % 100 = 0) :
    (shareOf q total n req residue).Whole := by
  refine ⟨?_, h, ?_⟩
  · simp only [shareOf, down100]; omega
  · simp only [shareOf, down100]; omega

theorem firstShares_whole (q : Nat) {xs : List (PortNo × Nat × Int)} (h : ∀ x ∈ xs, x.2.1 % 100 = 0) :
    ∀ y ∈ firstShares q xs, y.Whole := by
  intro y hy
  obtain ⟨x, hx, rfl⟩ := List.mem_map.mp hy
  exact shareOf_whole _ _ _ _ (h x hx)

theorem firstShares_map {α : Type} (g : PortNo × Nat → α) (q : Nat) (xs : List (PortNo × Nat × Int)) :
    (firstShares q xs).map (fun y => g (y.port, y.req)) = xs.map fun x => g (x.1, x.2.1) := by
  simp [firstShares, shareOf]

theorem serveTier_whole {q : Nat} {xs : List (PortNo × Nat × Int)} (h : (xs.map fun x => x.2.1).sum ≤ q) :
    serveTier q xs = xs.map fun x => ⟨x.1, x.2.1, x.2.1, x.2.1⟩ := if_pos h

theorem serveTier_split {q : Nat} {xs : List (PortNo × Nat × Int)} (h : q < (xs.map fun x => x.2.1).sum) :
    serveTier q xs = splitShares q (firstShares q xs) := if_neg (Nat.not_le.mpr h)

theorem splitShares_forall {P : Share → Prop} (q : Nat) {xs : List Share}
    (ht : ∀ x : Share, x.spare = true → P x → P { x with got := x.got - 100 })
    (hg : ∀ x : Share, x.short = true → P x → P { x with got := x.got + 100 }) (h : ∀ x ∈ xs, P x) :
    ∀ y ∈ splitShares q xs, P y :=
  handOut_forall hg _ _ (takeBack_forall ht _ _ fun x hx => h x ((sortBy_perm _ _).mem_iff.mp hx))

theorem splitShares_map {α : Type} (g : Share → α) (hg : ∀ x w, g { x with got := w } = g x) (q : Nat)
    (xs : List Share) : ((splitShares q xs).map g).Perm (xs.map g) := by
  refine (handOut_map g hg _ _ _).trans ?_
  rw [takeBack_map g hg]
  exact (sortBy_perm _ _).map g

/-- The shares after the taking back are within Q. -/
theorem takenBack_total (q : Nat) {xs : List Share} (h : ∀ x ∈ xs, x.Whole) :
    sharesTotal (takeBack q (sharesTotal xs / 100 + 1) (sortBy takeOrder xs)) ≤ q := by
  have hperm := sortBy_perm takeOrder xs
  refine takeBack_total q _ (fun x hx => h x (hperm.mem_iff.mp hx)) ?_
  rw [sharesTotal_perm hperm]
  omega

theorem splitShares_total {q : Nat} {xs : List Share} (h : ∀ x ∈ xs, x.Whole) (hr : q < (xs.map Share.req).sum) :
    sharesTotal (splitShares q xs) ≤ q ∧ q - sharesTotal (splitShares q xs) < 100 := by
  refine handOut_total q _ (takenBack_total q h) (by omega) ?_
  rw [takeBack_map Share.req (fun _ _ => rfl), ((sortBy_perm takeOrder xs).map Share.req).sum_nat]
  exact hr

theorem firstShares_req (q : Nat) (xs : List (PortNo × Nat × Int)) :
    ((firstShares q xs).map Share.req).sum = (xs.map fun x => x.2.1).sum :=
  congrArg List.sum (firstShares_map Prod.snd q xs)

/-- R146, R147: a tier serves its ports and requests, whatever the shares. -/
theorem serveTier_perm (q : Nat) (xs : List (PortNo × Nat × Int)) :
    ((serveTier q xs).map fun y => (y.port, y.req)).Perm (xs.map fun x => (x.1, x.2.1)) := by
  by_cases h : (xs.map fun x => x.2.1).sum ≤ q
  · rw [serveTier_whole h, List.map_map]; exact .refl _
  · rw [serveTier_split (Nat.lt_of_not_le h)]
    refine (splitShares_map (fun y : Share => (y.port, y.req)) (fun _ _ => rfl) q _).trans ?_
    exact .of_eq (firstShares_map id q xs)

theorem serveTier_forall_whole (q : Nat) {xs : List (PortNo × Nat × Int)} (h : ∀ x ∈ xs, x.2.1 % 100 = 0) :
    ∀ y ∈ serveTier q xs, y.Whole := by
  by_cases hq : (xs.map fun x => x.2.1).sum ≤ q
  · rw [serveTier_whole hq]
    intro y hy
    obtain ⟨x, hx, rfl⟩ := List.mem_map.mp hy
    exact ⟨h x hx, h x hx, Nat.le_refl _⟩
  · rw [serveTier_split (Nat.lt_of_not_le hq)]
    exact splitShares_forall q (fun x hs hx => hx.take hs) (fun x hs hx => hx.give hs) (firstShares_whole q h)

theorem serveTier_total (q : Nat) {xs : List (PortNo × Nat × Int)} (h : ∀ x ∈ xs, x.2.1 % 100 = 0) :
    sharesTotal (serveTier q xs) ≤ q := by
  by_cases hq : (xs.map fun x => x.2.1).sum ≤ q
  · rw [serveTier_whole hq]
    simpa [sharesTotal, Function.comp_def] using hq
  · have hlt := Nat.lt_of_not_le hq
    rw [serveTier_split hlt]
    exact (splitShares_total (firstShares_whole q h) (by rw [firstShares_req]; exact hlt)).1

theorem serveTier_left {q : Nat} {xs : List (PortNo × Nat × Int)} (h : ∀ x ∈ xs, x.2.1 % 100 = 0)
    (hq : q < (xs.map fun x => x.2.1).sum) : q - sharesTotal (serveTier q xs) < 100 := by
  rw [serveTier_split hq]
  exact (splitShares_total (firstShares_whole q h) (by rw [firstShares_req]; exact hq)).2

theorem Share.residue_of_whole {x : Share} (h : x.got = x.req) : x.residue = 0 := if_pos h

/-! ### One pass takes back what the first shares exceed (R148) -/

theorem sum_filter_le {α : Type} (p : α → Bool) (f : α → Nat) (xs : List α) :
    ((xs.filter p).map f).sum ≤ (xs.map f).sum :=
  ((List.filter_sublist (p := p) (l := xs)).map f).sum_le_sum fun _ _ => Nat.zero_le _

/-- R147: a first share of 100 W or more is at most its raw share and 99 W. -/
theorem shareOf_got_le (q total : Nat) (n : PortNo) (req : Nat) {residue : Int} (hr : residue ≤ 99) :
    (shareOf q total n req residue).got ≤ q * req / total + 99 := by
  have hraw (raw : Nat) : down100 (min (req : Int) (raw + residue)).toNat ≤ raw + 99 := by
    simp only [down100]; omega
  exact hraw _

/-- Raw shares together are at most Q. -/
theorem raw_sum_le (q total : Nat) (reqs : List Nat) : total * (reqs.map fun r => q * r / total).sum ≤ q * reqs.sum := by
  induction reqs with
  | nil => simp
  | cons r rs ih =>
    have h := Nat.mul_div_le (q * r) total
    simp only [List.map_cons, List.sum_cons, Nat.mul_add]
    omega

theorem sum_le_of_forall_le {α : Type} {xs : List α} {f g : α → Nat} {c : Nat} (h : ∀ x ∈ xs, f x ≤ g x + c) :
    (xs.map f).sum ≤ (xs.map g).sum + c * xs.length := by
  induction xs with
  | nil => simp
  | cons x xs ih =>
    obtain ⟨hx, hxs⟩ := List.forall_mem_cons.mp h
    have := ih hxs
    simp only [List.map_cons, List.sum_cons, List.length_cons, Nat.mul_add]
    omega

theorem sharesTotal_spare (xs : List Share) (h : ∀ x ∈ xs, x.Whole) :
    sharesTotal xs = sharesTotal (xs.filter Share.spare) := by
  induction xs with
  | nil => rfl
  | cons x xs ih =>
    obtain ⟨hx, hxs⟩ := List.forall_mem_cons.mp h
    by_cases hs : x.spare = true
    · rw [List.filter_cons_of_pos hs, sharesTotal_cons, sharesTotal_cons, ih hxs]
    · have hlt : x.got < 100 := by simpa [Share.spare] using hs
      have hzero : x.got = 0 := by have := hx.got; omega
      rw [List.filter_cons_of_neg hs, sharesTotal_cons, ih hxs, hzero, Nat.zero_add]

/-- The excess of the first shares is at most 99 W for each share of 100 W or more. -/
theorem firstShares_excess {q : Nat} {xs : List (PortNo × Nat × Int)} (hw : ∀ x ∈ xs, x.2.1 % 100 = 0)
    (hr : ∀ x ∈ xs, x.2.2 ≤ 99) (hpos : 0 < (xs.map fun x => x.2.1).sum) :
    sharesTotal (firstShares q xs) ≤ q + 99 * (firstShares q xs).countP Share.spare := by
  rw [sharesTotal_spare _ (firstShares_whole q hw), List.countP_eq_length_filter]
  generalize htotal : (xs.map fun x => x.2.1).sum = total at hpos
  have hfirst : ∀ y ∈ (firstShares q xs).filter Share.spare, y.got ≤ q * y.req / total + 99 := by
    intro y hy
    obtain ⟨x, hx, rfl⟩ := List.mem_map.mp (List.mem_of_mem_filter hy)
    rw [htotal]
    exact shareOf_got_le _ _ _ _ (hr x hx)
  have hraw : ((firstShares q xs).map fun y => q * y.req / total).sum ≤ q := by
    have h := raw_sum_le q total ((firstShares q xs).map Share.req)
    rw [firstShares_req, htotal, List.map_map, Nat.mul_comm q total] at h
    exact Nat.le_of_mul_le_mul_left h hpos
  exact (sum_le_of_forall_le hfirst).trans (Nat.add_le_add_right ((sum_filter_le _ _ _).trans hraw) _)

/-- R148: one pass is enough, since each carried residue is at most 99 W. -/
theorem takeBack_once {q n : Nat} {xs : List Share} (hq : q < sharesTotal xs)
    (hexcess : sharesTotal xs ≤ q + 99 * xs.countP Share.spare) :
    takeBack q (n + 1) xs = passWith Share.spare (· - 100) ((sharesTotal xs - q + 99) / 100) xs
    ∧ sharesTotal (takeBack q (n + 1) xs) ≤ q ∧ q - sharesTotal (takeBack q (n + 1) xs) < 100 := by
  have htake := sharesTotal_take ((sharesTotal xs - q + 99) / 100) xs
  have hpass : takeBack q (n + 1) xs = passWith Share.spare (· - 100) ((sharesTotal xs - q + 99) / 100) xs := by
    rw [takeBack, if_pos hq, takePass_eq]
    cases n with
    | zero => rfl
    | succ n => rw [takeBack, if_neg (by omega)]
  rw [hpass]
  exact ⟨rfl, by omega, by omega⟩

theorem handOut_rest {q n : Nat} {xs : List Share} (h : q - sharesTotal xs < 100) : handOut q n xs = xs := by
  cases n with
  | zero => rfl
  | succ n => rw [handOut_succ, if_neg (by omega)]

theorem takeBack_rest {q n : Nat} {xs : List Share} (h : sharesTotal xs ≤ q) : takeBack q n xs = xs := by
  cases n with
  | zero => rfl
  | succ n => rw [takeBack, if_neg (by omega)]

/-- R149: what the rounds make of the shares is the last of the rounds that were run. -/
theorem handOut_rounds (q n : Nat) (xs : List Share) : ∃ rounds : Nat,
    handOut q n xs = (handRound q)^[rounds] xs
    ∧ ∀ k, k < rounds → 100 ≤ q - sharesTotal ((handRound q)^[k] xs) := by
  induction n generalizing xs with
  | zero => exact ⟨0, rfl, fun k hk => absurd hk (Nat.not_lt_zero k)⟩
  | succ n ih =>
    rw [handOut_succ]
    split
    · next hl =>
      obtain ⟨rounds, hlast, hleft⟩ := ih (handRound q xs)
      refine ⟨rounds + 1, hlast, fun k hk => ?_⟩
      cases k with
      | zero => exact hl
      | succ k => exact hleft k (Nat.lt_of_succ_lt_succ hk)
    · exact ⟨0, rfl, fun k hk => absurd hk (Nat.not_lt_zero k)⟩

theorem handRound_iterate_ports (q : Nat) {xs : List Share} (hn : (xs.map Share.port).Nodup) (k : Nat) :
    (((handRound q)^[k] xs).map Share.port).Nodup := by
  induction k with
  | zero => exact hn
  | succ k ih =>
    rw [Function.iterate_succ_apply']
    exact (handRound_map Share.port (fun _ _ => rfl) q _).nodup_iff.mpr ih

/-- R148: what an excess of the first shares takes back. -/
theorem serveTier_takes {q : Nat} {xs : List (PortNo × Nat × Int)} (hn : (xs.map Prod.fst).Nodup)
    (hw : ∀ x ∈ xs, x.2.1 % 100 = 0) (hr : ∀ x ∈ xs, x.2.2 ≤ 99) (hq : q < (xs.map fun x => x.2.1).sum)
    (hs : q < sharesTotal (firstShares q xs)) :
    serveTier q xs = movedAt (((((sortBy takeOrder (firstShares q xs)).filter Share.spare).take
      ((sharesTotal (firstShares q xs) - q + 99) / 100)).map Share.port)) (· - 100)
        (sortBy takeOrder (firstShares q xs)) := by
  have hperm := sortBy_perm takeOrder (firstShares q xs)
  have htotal := sharesTotal_perm hperm
  have hexcess := firstShares_excess (q := q) hw hr (by omega)
  rw [← htotal, ← hperm.countP_eq] at hexcess
  obtain ⟨hpass, _, hleft⟩ := takeBack_once (n := sharesTotal (firstShares q xs) / 100) (by rw [htotal]; exact hs) hexcess
  have hports : ((sortBy takeOrder (firstShares q xs)).map Share.port).Nodup := by
    rw [(hperm.map Share.port).nodup_iff, firstShares_map Prod.fst q xs]; exact hn
  rw [serveTier_split hq, splitShares, handOut_rest hleft, hpass, passWith_moved _ hports, htotal]

/-- R149: what is left by the first shares is handed out in rounds. -/
theorem serveTier_gives {q : Nat} {xs : List (PortNo × Nat × Int)} (hq : q < (xs.map fun x => x.2.1).sum)
    (hs : sharesTotal (firstShares q xs) ≤ q) :
    serveTier q xs = handOut q (q / 100 + 1) (sortBy takeOrder (firstShares q xs)) := by
  rw [serveTier_split hq, splitShares,
    takeBack_rest (by rw [sharesTotal_perm (sortBy_perm takeOrder _)]; exact hs)]

theorem takeOrder_strict {a b : Share} (h : takeOrder a b = true) (hne : a.port ≠ b.port) :
    a.remainder < b.remainder ∨ (a.remainder = b.remainder ∧ b.port.val < a.port.val) := by
  have hval : a.port.val ≠ b.port.val := fun e => hne (Fin.ext e)
  simp only [takeOrder, Bool.or_eq_true, Bool.and_eq_true, decide_eq_true_iff] at h
  omega

theorem giveOrder_strict {a b : Share} (h : giveOrder a b = true) (hne : a.port ≠ b.port) :
    b.remainder < a.remainder ∨ (a.remainder = b.remainder ∧ a.port.val < b.port.val) := by
  have hval : a.port.val ≠ b.port.val := fun e => hne (Fin.ext e)
  simp only [giveOrder, Bool.or_eq_true, Bool.and_eq_true, decide_eq_true_iff] at h
  omega

/-- Settles O40: the sums and ranges of every split, then the one pass of R148 and the rounds of R149. -/
theorem splitSharesTheBudget : Obligations.SplitSharesTheBudget := by
  refine ⟨fun q xs h => ?sums, fun q xs hn h hq => ?steps⟩
  case sums =>
    have hreq : ∀ x ∈ xs, x.2.1 % 100 = 0 := fun x hx => (h x hx).2
    refine ⟨serveTier_perm q xs, serveTier_total q hreq, fun y hy => ?_, fun hall y hy => ?_, serveTier_left hreq⟩
    · have hw := serveTier_forall_whole q hreq y hy
      exact ⟨hw.got, hw.within, y.residue_range.1, y.residue_range.2, Share.residue_of_whole⟩
    · rw [serveTier_whole hall] at hy
      obtain ⟨x, _, rfl⟩ := List.mem_map.mp hy
      rfl
  case steps =>
    have hw : ∀ x ∈ xs, x.2.1 % 100 = 0 := fun x hx => (h x hx).2.1
    have hr : ∀ x ∈ xs, x.2.2 ≤ 99 := fun x hx => (h x hx).2.2.2
    have hports : ((firstShares q xs).map Share.port).Nodup := by rw [firstShares_map Prod.fst q xs]; exact hn
    have hperm := sortBy_perm takeOrder (firstShares q xs)
    refine ⟨fun hs => ⟨sortBy takeOrder (firstShares q xs), hperm, ?_, ?_⟩, fun hs => ?_⟩
    · exact (sortBy_strict takeOrder_total takeOrder_trans hports).imp fun ⟨hle, hne⟩ => takeOrder_strict hle hne
    · rw [serveTier_takes hn hw hr hq hs]
      exact movedAt_perm hperm _ _
    · obtain ⟨rounds, hlast, hleft⟩ := handOut_rounds q (q / 100 + 1) (sortBy takeOrder (firstShares q xs))
      rw [← serveTier_gives hq hs] at hlast
      refine ⟨rounds, fun k => (handRound q)^[k] (sortBy takeOrder (firstShares q xs)), hperm, .of_eq hlast.symm,
        ?_, fun k hk => ⟨hleft k hk, sortBy giveOrder ((handRound q)^[k] (sortBy takeOrder (firstShares q xs))),
          sortBy_perm _ _, ?_, ?_⟩⟩
      · dsimp only
        rw [← hlast]
        exact serveTier_left hw hq
      · have hk := handRound_iterate_ports q ((hperm.map Share.port).nodup_iff.mpr hports) k
        exact (sortBy_strict giveOrder_total giveOrder_trans hk).imp fun ⟨hle, hne⟩ => giveOrder_strict hle hne
      · have hk := handRound_iterate_ports q ((hperm.map Share.port).nodup_iff.mpr hports) k
        have hsorted := sortBy_perm giveOrder ((handRound q)^[k] (sortBy takeOrder (firstShares q xs)))
        dsimp only
        rw [Function.iterate_succ_apply', handRound_eq, passWith_moved _ ((hsorted.map Share.port).nodup_iff.mpr hk)]
        exact movedAt_perm hsorted _ _

end Sys2Proof.Machine
end

section
/-! The load of the staged values (01 R9) as a frame, and what one allocation computation (08) leaves, field by
field. -/

namespace Sys2Proof.Machine

open Sys2Proof

/-! ### What a load leaves alone -/

/-- R9: what a load and its effects can change: the day number and the registrations of the clock, bus records,
port records and commitments. -/
def State.LoadFrame (s t : State) : Prop :=
  t = { s with
    clock := { s.clock with day := t.clock.day, regs := t.clock.regs, fired := t.clock.fired }
    buses := t.buses, ports := t.ports, commits := t.commits }

theorem State.LoadFrame.refl (s : State) : s.LoadFrame s := rfl

theorem State.LoadFrame.trans {s t u : State} (h : s.LoadFrame t) (k : t.LoadFrame u) : s.LoadFrame u := by
  unfold State.LoadFrame at h k ⊢
  rw [k, h]

theorem State.OnlyRegs.loadFrame {s t : State} (h : s.OnlyRegs t) : s.LoadFrame t := by
  unfold State.LoadFrame
  rw [h.rest]

theorem State.OnlyReserve.loadFrame {s t : State} (h : s.OnlyReserve t) : s.LoadFrame t := by
  unfold State.LoadFrame
  rw [h.rest]

theorem State.LoadFrame.foldl {α : Type} {f : State → α → State} (h : ∀ (s : State) a, s.LoadFrame (f s a)) (l : List α)
    (s : State) : s.LoadFrame (l.foldl f s) := by
  induction l generalizing s with
  | nil => exact .refl s
  | cons a l ih => exact (h s a).trans (ih _)

theorem State.registerBoundary_onlyRegs (s : State) : s.OnlyRegs s.registerBoundary := by
  unfold State.registerBoundary
  split
  · exact s.register_onlyRegs _ _ _
  · exact .refl s

theorem State.reloadOffset_frame (s : State) (old : SiteParams) : s.LoadFrame (s.reloadOffset old) := by
  unfold State.reloadOffset
  dsimp only
  split
  · exact .refl s
  · have hraise : (s.withdraw (ofKind .rollover 0)).LoadFrame
        (if (s.withdraw (ofKind .rollover 0)).clock.day < dayFormula s.now s.site.live.rolloverOffset then
          (s.withdraw (ofKind .rollover 0)).raiseDay (dayFormula s.now s.site.live.rolloverOffset)
        else s.withdraw (ofKind .rollover 0)) := by
      split
      · rfl
      · exact .refl _
    exact ((s.withdraw_onlyRegs (ofKind .rollover 0)).loadFrame.trans hraise).trans
      (State.registerBoundary_onlyRegs _).loadFrame

theorem State.reloadTrickle_frame (s : State) (old : SiteParams) : s.LoadFrame (s.reloadTrickle old) := by
  unfold State.reloadTrickle
  split
  · exact .refl s
  · rfl

theorem State.reloadLockout_frame (s : State) (old : SiteParams) : s.LoadFrame (s.reloadLockout old) := by
  unfold State.reloadLockout
  split
  · exact .refl s
  · exact .foldl (fun t (r : Nat × Bus) => (t.reloadLockoutPoint_onlyRegs r.1 r.2).loadFrame) _ s

theorem State.reloadArmPoint_frame (s : State) (lead i : Nat) (c : Commitment) :
    s.LoadFrame (s.reloadArmPoint lead i c) := by
  have hpoint := (s.withdraw_onlyRegs (ofKind .armPoint i)).reserve.trans
    (State.modCommit_onlyReserve _ i fun x => { x with armPoint := armPointOf c.windowStart lead })
  refine State.OnlyReserve.loadFrame ?_
  unfold State.reloadArmPoint
  dsimp only
  split
  · exact ((hpoint.trans (State.register_onlyRegs _ _ _ _).reserve).trans
      (State.withdraw_onlyRegs _ _).reserve).trans (State.register_onlyRegs _ _ _ _).reserve
  · exact hpoint.trans (State.modCommit_onlyReserve _ _ _)

theorem State.reloadArmLead_frame (s : State) (old : SiteParams) : s.LoadFrame (s.reloadArmLead old) := by
  unfold State.reloadArmLead
  split
  · exact .refl s
  · refine .foldl (fun t (r : Nat × Commitment) => ?_) _ s
    split
    · exact t.reloadArmPoint_frame _ _ _
    · exact .refl t

theorem State.copyStaged_load_frame (s : State) : s.copyStaged.LoadFrame s.load :=
  (((s.copyStaged.reloadOffset_frame s.site.live).trans (State.reloadTrickle_frame _ _)).trans
    (State.reloadLockout_frame _ _)).trans (State.reloadArmLead_frame _ _)

/-- R9: a load, field by field. -/
theorem State.load_eq (s : State) : s.load =
    { s with
      clock := { s.clock with day := s.load.clock.day, regs := s.load.clock.regs, fired := s.load.clock.fired }
      site := { s.site with live := s.site.staged, liveRatings := s.site.stagedRatings, loadPending := false }
      buses := s.load.buses, ports := s.load.ports, commits := s.load.commits } :=
  s.copyStaged_load_frame

theorem State.load_site (s : State) : s.load.site =
    { s.site with live := s.site.staged, liveRatings := s.site.stagedRatings, loadPending := false } := by
  rw [s.load_eq]

theorem State.load_now (s : State) : s.load.now = s.now := s.load_moves.now rfl

/-! ### Bus records under a load (R6) -/

theorem Table.get_mapRows {α : Type} (t : Table α) (f : α → α) (k : Nat) :
    (Table.mk (t.rows.map fun r => (r.1, f r.2))).get k = (t.get k).map f := Table.get_map t (fun _ => f) k

/-- R35: a bus record with its export used reset, when a rollover takes place. -/
def Bus.afterRollover (rolled : Bool) (b : Bus) : Bus := if rolled then { b with exportUsed := 0 } else b

theorem State.reloadOffset_bus (s : State) (old : SiteParams) :
    ∃ rolled, ∀ i, (s.reloadOffset old).bus i = (s.bus i).map (Bus.afterRollover rolled) := by
  have hkeep : ∀ i, s.bus i = (s.bus i).map (Bus.afterRollover false) := fun i => by
    cases s.bus i <;> rfl
  unfold State.reloadOffset
  dsimp only
  split
  · exact ⟨false, hkeep⟩
  · have hbuses (t : State) : t.registerBoundary.buses = t.buses := by rw [(State.registerBoundary_onlyRegs t).rest]
    simp only [State.bus, hbuses]
    split
    · exact ⟨true, fun i => Table.get_mapRows s.buses (fun b => { b with exportUsed := 0 }) i⟩
    · exact ⟨false, hkeep⟩

theorem State.OnlyRegs.foldl {α : Type} {f : State → α → State} (h : ∀ (s : State) a, s.OnlyRegs (f s a))
    (l : List α) (s : State) : s.OnlyRegs (l.foldl f s) := by
  induction l generalizing s with
  | nil => exact .refl s
  | cons a l ih => exact (h s a).trans (ih _)

theorem State.reloadLockout_onlyRegs (s : State) (old : SiteParams) : s.OnlyRegs (s.reloadLockout old) := by
  unfold State.reloadLockout
  split
  · exact .refl s
  · exact .foldl (fun t (r : Nat × Bus) => t.reloadLockoutPoint_onlyRegs r.1 r.2) _ s

theorem State.foldl_buses {α : Type} {f : State → α → State} (h : ∀ (s : State) a, (f s a).buses = s.buses)
    (l : List α) (s : State) : (l.foldl f s).buses = s.buses := by
  induction l generalizing s with
  | nil => rfl
  | cons a l ih => exact (ih _).trans (h s a)

theorem State.reloadArmPoint_buses (s : State) (lead i : Nat) (c : Commitment) :
    (s.reloadArmPoint lead i c).buses = s.buses := by
  unfold State.reloadArmPoint
  dsimp only
  split <;> simp

theorem State.reloadArmLead_buses (s : State) (old : SiteParams) : (s.reloadArmLead old).buses = s.buses := by
  unfold State.reloadArmLead
  split
  · rfl
  · exact State.foldl_buses (fun t (r : Nat × Commitment) => by
      split
      · exact t.reloadArmPoint_buses _ _ _
      · rfl) _ s

theorem State.load_bus (s : State) :
    ∃ rolled, ∀ i, s.load.bus i = (s.bus i).map (Bus.afterRollover rolled) := by
  obtain ⟨rolled, h⟩ := s.copyStaged.reloadOffset_bus s.site.live
  refine ⟨rolled, fun i => ?_⟩
  have hbuses : s.load.buses = (s.copyStaged.reloadOffset s.site.live).buses := by
    unfold State.load
    rw [State.reloadArmLead_buses, (State.reloadLockout_onlyRegs _ _).rest]
    unfold State.reloadTrickle
    split <;> rfl
  exact (congrArg (Table.get · i) hbuses).trans (h i)

/-! ### Sessions under a load (R98) -/

/-- R98: the session of a port under a new trickle power: its binding and its export cap stay. -/
theorem Port.takeTrickle_eq (w : Nat) (p : Port) : p.takeTrickle w = { p with session := (p.takeTrickle w).session } := by
  unfold Port.takeTrickle
  split
  · split
    · split <;> rfl
    · rfl
  · rfl

theorem Port.takeTrickle_boundSlot (w : Nat) (p : Port) : (p.takeTrickle w).boundSlot = p.boundSlot := by
  unfold Port.takeTrickle
  split
  · next x hx =>
    split
    · next why hb =>
      split
      · simp [Port.boundSlot, hx, hb]
      · rfl
    · rfl
  · rfl

theorem State.reloadTrickle_boundSlot (s : State) (old : SiteParams) (n : PortNo) :
    ((s.reloadTrickle old).port n).boundSlot = (s.port n).boundSlot := by
  unfold State.reloadTrickle
  split
  · rfl
  · simp only [State.port, Fin.getElem_fin, Vector.getElem_map]
    exact Port.takeTrickle_boundSlot _ _

theorem State.load_ports (s : State) :
    s.load.ports = ((s.copyStaged.reloadOffset s.site.live).reloadTrickle s.site.live).ports := by
  unfold State.load
  rw [State.reloadArmLead_ports, State.reloadLockout_ports]

theorem State.load_boundSlot (s : State) (n : PortNo) : (s.load.port n).boundSlot = (s.port n).boundSlot := by
  rw [State.port_of_ports s.load_ports, State.reloadTrickle_boundSlot,
    State.port_of_ports (State.reloadOffset_ports _ _)]
  rfl

/-- Locations and bound sessions agree after a load, which changes neither. -/
theorem State.load_agrees {s : State} (h : s.Agrees) : s.load.Agrees := by
  obtain ⟨rolled, hbus⟩ := s.load_bus
  intro i n
  rw [s.load_boundSlot, h i n, hbus]
  cases hb : s.bus i with
  | none => simp
  | some b =>
    have hl : (b.afterRollover rolled).location = b.location := by unfold Bus.afterRollover; split <;> rfl
    simp [hl]

/-! ### What a computation reads (R139) -/

theorem State.takeBase_eq (s : State) : s.takeBase =
    { s with
      site := { s.site with lastBase := some s.effectiveBase, staleOpen := s.effectiveBase.fallback }
      siteFlags := s.takeBase.siteFlags } := by
  unfold State.takeBase
  dsimp only
  split <;> rfl

theorem State.prepared_eq (s : State) : s.prepared =
    { s.load with
      site := { s.load.site with lastBase := some s.load.effectiveBase, staleOpen := s.load.effectiveBase.fallback }
      siteFlags := s.prepared.siteFlags, buses := s.prepared.buses } := by
  have hready : s.prepared = { s.load.takeBase with buses := s.prepared.buses } := rfl
  have hflags : s.prepared.siteFlags = s.load.takeBase.siteFlags := rfl
  rw [hflags]
  exact hready.trans (congrArg (fun t : State => { t with buses := s.prepared.buses }) s.load.takeBase_eq)

theorem State.prepared_now (s : State) : s.prepared.now = s.now := s.prepared_moves.now rfl

theorem State.prepared_engine (s : State) : s.prepared.engine = s.engine := by rw [s.prepared_eq, s.load_eq]

theorem State.prepared_supervision (s : State) : s.prepared.supervision = s.supervision := by
  rw [s.prepared_eq, s.load_eq]

theorem State.prepared_protection (s : State) : s.prepared.protection = s.protection := by
  rw [s.prepared_eq, s.load_eq]

theorem State.prepared_plans (s : State) : s.prepared.plans = s.plans := by rw [s.prepared_eq, s.load_eq]

theorem State.prepared_ports (s : State) : s.prepared.ports = s.load.ports := by rw [s.prepared_eq]

theorem State.prepared_commits (s : State) : s.prepared.commits = s.load.commits := by rw [s.prepared_eq]

theorem State.prepared_site (s : State) : s.prepared.site =
    { s.site with
      live := s.site.staged, liveRatings := s.site.stagedRatings, loadPending := false
      lastBase := some s.load.effectiveBase, staleOpen := s.load.effectiveBase.fallback } := by
  rw [s.prepared_eq, s.load_site]

/-- The base load is not read again after stage 1: the report, the hold time and the fallback are as they were. -/
theorem State.prepared_base (s : State) : s.prepared.effectiveBase = s.load.effectiveBase := by
  have hsite : s.prepared.site.report = s.load.site.report ∧ s.prepared.site.live = s.load.site.live := by
    rw [s.prepared_eq]; exact ⟨rfl, rfl⟩
  have hnow : s.prepared.now = s.load.now := s.prepared_now.trans s.load_now.symm
  simp only [State.effectiveBase, State.freshReport, hsite.1, hsite.2, hnow]

/-- R129: the record of a bus after stage 2. -/
theorem State.prepared_bus (s : State) (i : Nat) : s.prepared.bus i = (s.load.takeBase.bus i).map fun b =>
    b.setReadiness (s.load.takeBase.readinessNow b).1 (s.load.takeBase.readinessNow b).2 :=
  Table.get_mapRows s.load.takeBase.buses
    (fun b => b.setReadiness (s.load.takeBase.readinessNow b).1 (s.load.takeBase.readinessNow b).2) i

theorem State.takeBase_bus (s : State) (i : Nat) : s.takeBase.bus i = s.bus i := by
  have hbuses : s.takeBase.buses = s.buses := by rw [s.takeBase_eq]
  exact congrArg (Table.get · i) hbuses

theorem State.prepared_boundSlot (s : State) (n : PortNo) : (s.prepared.port n).boundSlot = (s.port n).boundSlot := by
  rw [State.port_of_ports s.prepared_ports, s.load_boundSlot]

theorem State.prepared_agrees {s : State} (h : s.Agrees) : s.prepared.Agrees := by
  intro i n
  rw [State.port_of_ports s.prepared_ports, State.load_agrees h i n, s.prepared_bus, State.takeBase_bus]
  cases s.load.bus i with
  | none => simp
  | some b => simp

/-! ### What a computation leaves -/

/-- R136: the taking of ALLOCATION_COMPUTATION, by its arm of exec. -/
theorem exec_allocationComputation {s : State} (hr : s.engine.running = true) (ht : s.engine.timer ≠ .stopped) :
    exec .allocationComputation s = .next s.compute := by
  have hrun : s.engine.timer.isRunning = true := by
    cases h : s.engine.timer with
    | stopped => exact absurd h ht
    | running l e => rfl
  show (if s.engine.running && s.engine.timer.isRunning then _ else _) = _
  rw [hr, hrun]
  rfl

theorem compute_of_exec {s t : State} (hr : s.engine.running = true) (ht : s.engine.timer ≠ .stopped)
    (h : exec .allocationComputation s = .next t) : t = s.compute := by
  rw [exec_allocationComputation hr ht] at h
  exact (Host.Outcome.next.inj h).symm

/-- R155: the recorded results of all ports. -/
def State.results (s : State) (w : Working) : Vector PortResult 24 := Vector.ofFn fun n => s.portResult w n

theorem State.results_get (s : State) (w : Working) (n : PortNo) : (s.results w)[n] = s.portResult w n := by
  simp [State.results]

/-- R136, R155: the state after a computation, but for the ports and the commitments. -/
theorem State.compute_eq (s : State) : s.compute =
    { s.prepared with
      ports := s.compute.ports, commits := s.compute.commits
      engine := { s.engine with
        timer := .start (s.site.staged.allocPeriod * 1000)
        number := addWord s.engine.number 1
        summary := some (s.prepared.summaryOf s.prepared.work (s.prepared.results s.prepared.work))
        ports := s.prepared.results s.prepared.work } } := by
  have hlive : s.prepared.site.live = s.site.staged := by rw [s.prepared_site]
  rw [← s.prepared_engine, ← hlive]
  rfl

theorem State.compute_summary (s : State) : s.compute.engine.summary =
    some (s.prepared.summaryOf s.prepared.work (s.prepared.results s.prepared.work)) := by
  rw [s.compute_eq]

theorem State.compute_enginePorts (s : State) : s.compute.engine.ports = s.prepared.results s.prepared.work := by
  rw [s.compute_eq]

theorem State.compute_result (s : State) (n : PortNo) :
    s.compute.engine.ports[n] = s.prepared.portResult s.prepared.work n := by
  rw [s.compute_enginePorts, State.results_get]

theorem Port.publish_session (l : Bool) (x : Setpoint) (p : Port) : (p.publish l x).session = p.session := by
  unfold Port.publish
  split
  · split
    · dsimp only; split <;> rfl
    · rfl
  · rfl
  · rfl
  · rfl

theorem State.compute_session (s : State) (n : PortNo) : (s.compute.port n).session = (s.prepared.port n).session := by
  rw [s.compute_port, Port.settle_session]
  exact Port.publish_session _ _ _

theorem State.compute_residue (s : State) (n : PortNo) :
    (s.compute.port n).residue = s.prepared.newResidue s.prepared.work n := by
  rw [s.compute_port, Port.settle_residue]

theorem State.compute_buses (s : State) : s.compute.buses = s.prepared.buses := by rw [s.compute_eq]

theorem State.compute_site (s : State) : s.compute.site = s.prepared.site := by rw [s.compute_eq]

end Sys2Proof.Machine
end

section
/-! Lists of grants and shares, and how much a computation grants (08): the totals over the ports and the bound of
every port, then the published import. -/

namespace Sys2Proof.Machine

open Sys2Proof

/-! ### Grants by port -/

theorem down100_le (w : Nat) : down100 w ≤ w := by simp only [down100]; omega

theorem Grants.of_nil (n : PortNo) : Grants.of [] n = 0 := rfl

theorem Grants.of_cons (m : PortNo) (w : Nat) (g : Grants) (n : PortNo) :
    Grants.of ((m, w) :: g) n = if m = n then w else Grants.of g n := by
  by_cases h : m = n
  · simp [Grants.of, h]
  · have hb : (m == n) = false := by simpa using h
    simp [Grants.of, hb, h]

theorem Grants.of_notMem {g : Grants} {n : PortNo} (h : n ∉ g.map Prod.fst) : Grants.of g n = 0 := by
  induction g with
  | nil => rfl
  | cons r g ih =>
    rw [List.map_cons, List.mem_cons, not_or] at h
    obtain ⟨hne, ht⟩ := h
    rw [Grants.of_cons, if_neg (Ne.symm hne), ih ht]

theorem Grants.of_mem {g : Grants} (hn : (g.map Prod.fst).Nodup) {n : PortNo} {w : Nat} (h : (n, w) ∈ g) :
    Grants.of g n = w := by
  induction g with
  | nil => exact absurd h List.not_mem_nil
  | cons r g ih =>
    obtain ⟨hr, hn⟩ := List.nodup_cons.mp hn
    rw [Grants.of_cons]
    rcases List.mem_cons.mp h with rfl | h
    · exact if_pos rfl
    · have hne : r.1 ≠ n := fun e => hr (List.mem_map.mpr ⟨_, h, e.symm⟩)
      rw [if_neg hne, ih hn h]

theorem Grants.total_cons (m : PortNo) (w : Nat) (g : Grants) : Grants.total ((m, w) :: g) = w + Grants.total g := by
  simp [Grants.total]

/-- Grants of distinct ports, added up over the ports. -/
theorem Grants.sum_of {g : Grants} (hn : (g.map Prod.fst).Nodup) : (allPorts.map (Grants.of g)).sum = g.total := by
  rw [allPorts, ← Fin.sum_univ_def]
  induction g with
  | nil => simp [Grants.of_nil, Grants.total]
  | cons r g ih =>
    obtain ⟨m, w⟩ := r
    obtain ⟨hm, hn⟩ := List.nodup_cons.mp hn
    have hsplit : ∀ n, Grants.of ((m, w) :: g) n = (if m = n then w else 0) + Grants.of g n := fun n => by
      rw [Grants.of_cons]
      split
      · next e => rw [← e, Grants.of_notMem hm, Nat.add_zero]
      · rw [Nat.zero_add]
    rw [Finset.sum_congr rfl fun n _ => hsplit n, Finset.sum_add_distrib, Finset.sum_ite_eq, ih hn, Grants.total_cons]
    simp

/-- The grants of a list of shares. -/
def sharesGrants (xs : List Share) : Grants := xs.map fun y => (y.port, y.got)

theorem shareFor_got (xs : List Share) (n : PortNo) :
    ((shareFor xs n).map Share.got).getD 0 = (sharesGrants xs).of n := by
  induction xs with
  | nil => rfl
  | cons x xs ih =>
    have hcons : sharesGrants (x :: xs) = (x.port, x.got) :: sharesGrants xs := rfl
    rw [hcons, Grants.of_cons, ← ih, shareFor, List.find?_cons]
    by_cases h : x.port = n
    · simp [h]
    · have hb : (x.port == n) = false := by simpa using h
      rw [hb, if_neg h]
      rfl

theorem sharesGrants_fst (xs : List Share) : (sharesGrants xs).map Prod.fst = xs.map Share.port := by
  simp [sharesGrants, Function.comp_def]

theorem sharesGrants_total (xs : List Share) : (sharesGrants xs).total = sharesTotal xs := by
  simp [sharesGrants, Grants.total, sharesTotal, Function.comp_def]

theorem shareFor_some {xs : List Share} {n : PortNo} {y : Share} (h : shareFor xs n = some y) :
    y ∈ xs ∧ y.port = n :=
  ⟨List.mem_of_find?_eq_some h, by simpa using List.find?_some h⟩

theorem shareFor_none {xs : List Share} {n : PortNo} (h : n ∉ xs.map Share.port) : shareFor xs n = none :=
  List.find?_eq_none.mpr fun y hy he => h (List.mem_map.mpr ⟨y, hy, by simpa using he⟩)

theorem shareFor_mem {xs : List Share} (hn : (xs.map Share.port).Nodup) {y : Share} (h : y ∈ xs) :
    shareFor xs y.port = some y := by
  induction xs with
  | nil => exact absurd h List.not_mem_nil
  | cons x xs ih =>
    obtain ⟨hx, hn⟩ := List.nodup_cons.mp hn
    rw [shareFor, List.find?_cons]
    rcases List.mem_cons.mp h with rfl | h
    · simp
    · have hb : (x.port == y.port) = false := by
        simpa using fun e : x.port = y.port => hx (e ▸ List.mem_map.mpr ⟨y, h, rfl⟩)
      rw [hb]
      exact ih hn h

/-! ### Tier A (R143) -/

theorem serveTierA_fst (q : Nat) (g : Grants) : ((serveTierA q g).map Prod.fst).Sublist (g.map Prod.fst) := by
  induction g generalizing q with
  | nil => exact .slnil
  | cons r g ih =>
    rw [serveTierA]
    split
    · exact (ih _).cons_cons _
    · exact (List.nil_sublist _).cons_cons _

theorem serveTierA_total (q : Nat) (g : Grants) : (serveTierA q g).total ≤ q := by
  induction g generalizing q with
  | nil => exact Nat.zero_le _
  | cons r g ih =>
    rw [serveTierA]
    split
    · have := ih (q - r.2)
      rw [Grants.total_cons]
      omega
    · rw [Grants.total_cons]
      exact down100_le q

/-- R143: the candidates are granted their requests while the import lasts, the first that does not fit down100 of
what is left, and every later one 0. -/
theorem serveTierA_of {g : Grants} (hn : (g.map Prod.fst).Nodup) {k : Nat} {n : PortNo} {w : Nat}
    (h : g[k]? = some (n, w)) (q : Nat) : (serveTierA q g).of n =
      if ((g.take k).map Prod.snd).sum + w ≤ q then w else down100 (q - ((g.take k).map Prod.snd).sum) := by
  induction g generalizing k q with
  | nil => exact absurd h (by simp)
  | cons r g ih =>
    obtain ⟨hr, hn⟩ := List.nodup_cons.mp hn
    cases k with
    | zero =>
      obtain rfl : r = (n, w) := by simpa using h
      rw [serveTierA]
      simp only [List.take_zero, List.map_nil, List.sum_nil, Nat.zero_add, Nat.sub_zero]
      split <;> rw [Grants.of_cons, if_pos rfl]
    | succ k =>
      have htail : g[k]? = some (n, w) := by simpa using h
      have hne : r.1 ≠ n := fun e => hr (e ▸ List.mem_map.mpr ⟨_, List.mem_of_getElem? htail, rfl⟩)
      rw [serveTierA, List.take_succ_cons, List.map_cons, List.sum_cons]
      split
      · next hle =>
        rw [Grants.of_cons, if_neg hne, ih hn htail]
        have hleft : q - r.2 - ((g.take k).map Prod.snd).sum = q - (r.2 + ((g.take k).map Prod.snd).sum) := by omega
        rw [hleft]
        exact if_congr (by omega) rfl rfl
      · next hle =>
        have hout : q - (r.2 + ((g.take k).map Prod.snd).sum) = 0 := by omega
        rw [Grants.of_cons, if_neg hne, Grants.of_nil, if_neg (by omega), hout]
        rfl

theorem serveTierA_le {g : Grants} (hn : (g.map Prod.fst).Nodup) {n : PortNo} {w : Nat} (h : (n, w) ∈ g) (q : Nat) :
    (serveTierA q g).of n ≤ w := by
  obtain ⟨k, hk⟩ := List.getElem?_of_mem h
  rw [serveTierA_of hn hk]
  split
  · exact Nat.le_refl _
  · exact (down100_le _).trans (by omega)

theorem serveTierA_notMem {g : Grants} {n : PortNo} (h : n ∉ g.map Prod.fst) (q : Nat) : (serveTierA q g).of n = 0 :=
  Grants.of_notMem fun hm => h ((serveTierA_fst q g).subset hm)

/-! ### Reserve export (R152) -/

theorem serveReserve_fst (need : Nat) (cands : List (PortNo × Int × Nat)) :
    (serveReserve need cands).map Prod.fst = cands.map Prod.fst := by
  induction cands generalizing need with
  | nil => rfl
  | cons r cands ih => rw [serveReserve, List.map_cons, List.map_cons, ih]

/-- R152: the candidates are granted their room, or what is still needed. -/
theorem serveReserve_of {cands : List (PortNo × Int × Nat)} (hn : (cands.map Prod.fst).Nodup) {k : Nat} {n : PortNo}
    {surplus : Int} {room : Nat} (h : cands[k]? = some (n, surplus, room)) (need : Nat) :
    (serveReserve need cands).of n = min room (need - ((cands.take k).map fun y => y.2.2).sum) := by
  induction cands generalizing k need with
  | nil => exact absurd h (by simp)
  | cons r cands ih =>
    obtain ⟨hr, hn⟩ := List.nodup_cons.mp hn
    cases k with
    | zero =>
      obtain rfl : r = (n, surplus, room) := by simpa using h
      rw [serveReserve, Grants.of_cons, if_pos rfl]
      simp
    | succ k =>
      have htail : cands[k]? = some (n, surplus, room) := by simpa using h
      have hne : r.1 ≠ n := fun e => hr (e ▸ List.mem_map.mpr ⟨_, List.mem_of_getElem? htail, rfl⟩)
      rw [serveReserve, Grants.of_cons, if_neg hne, ih hn htail, List.take_succ_cons, List.map_cons, List.sum_cons]
      obtain ⟨m, y, w⟩ := r
      dsimp only
      omega

theorem serveReserve_notMem {cands : List (PortNo × Int × Nat)} {n : PortNo} (h : n ∉ cands.map Prod.fst)
    (need : Nat) : (serveReserve need cands).of n = 0 :=
  Grants.of_notMem (by rw [serveReserve_fst]; exact h)

/-! ### Ports that are served (R141) -/

theorem allPorts_nodup : allPorts.Nodup := List.nodup_finRange 24

theorem mem_allPorts (n : PortNo) : n ∈ allPorts := List.mem_finRange n

theorem State.served_iff {s : State} {n : PortNo} {i : Nat} {b : Bus} : s.served n = some (i, b) ↔
    (s.port n).servable = true ∧ (s.port n).boundSlot = some i ∧ s.bus i = some b := by
  unfold State.served
  by_cases hs : (s.port n).servable = true
  · rw [if_pos hs]
    cases hb : (s.port n).boundSlot with
    | none => simp
    | some j =>
      refine ⟨fun h => ?_, fun ⟨_, hj, hbus⟩ => ?_⟩
      · obtain ⟨c, hc, he⟩ := Option.map_eq_some_iff.mp h
        obtain ⟨rfl, rfl⟩ := Prod.mk.inj he
        exact ⟨hs, rfl, hc⟩
      · obtain rfl := Option.some.inj hj
        simp [hbus]
  · rw [if_neg hs]
    exact ⟨fun h => (by cases h), fun h => absurd h.1 hs⟩

theorem State.served_location {s : State} (ha : s.Agrees) {n : PortNo} {i : Nat} {b : Bus}
    (h : s.served n = some (i, b)) : b.location = some n := by
  obtain ⟨_, hslot, hbus⟩ := State.served_iff.mp h
  obtain ⟨c, hc, hl⟩ := (ha i n).mp hslot
  obtain rfl : b = c := Option.some.inj (hbus.symm.trans hc)
  exact hl

/-! ### Candidates of tier A (R143) -/

theorem State.mem_floorCandidates {s : State} {n : PortNo} {need : Nat} {slack : Int} :
    (n, need, slack) ∈ s.floorCandidates ↔
      0 < need ∧ ∃ i b, s.served n = some (i, b) ∧ s.floorOf b = (need, slack) := by
  unfold State.floorCandidates
  simp only [List.mem_filter, List.mem_map, decide_eq_true_iff]
  constructor
  · rintro ⟨⟨m, _, hm⟩, hpos⟩
    refine ⟨hpos, ?_⟩
    split at hm
    · next i b hs =>
      obtain ⟨rfl, hf⟩ := Prod.mk.inj hm
      exact ⟨i, b, hs, hf⟩
    · obtain ⟨_, rfl, _⟩ : m = n ∧ 0 = need ∧ 0 = slack := by simpa using hm
      exact absurd hpos (Nat.lt_irrefl 0)
  · rintro ⟨hpos, i, b, hs, hf⟩
    exact ⟨⟨n, mem_allPorts n, by rw [hs]; exact congrArg (Prod.mk n) hf⟩, hpos⟩

theorem State.floorCandidates_fst (s : State) : (s.floorCandidates.map Prod.fst).Sublist allPorts := by
  have hports : ((allPorts.map fun n => match s.served n with
    | some (_, b) => (n, (s.floorOf b).1, (s.floorOf b).2)
    | none => (n, 0, 0)).map Prod.fst) = allPorts := by
    rw [List.map_map]
    refine (List.map_congr_left fun n _ => ?_).trans (List.map_id _)
    dsimp only [Function.comp]
    split <;> rfl
  exact hports ▸ List.filter_sublist.map Prod.fst

theorem State.floorCandidates_nodup (s : State) : (s.floorCandidates.map Prod.fst).Nodup :=
  s.floorCandidates_fst.nodup allPorts_nodup

/-- R143: the candidates with a floor in their order. -/
def State.floorsInOrder (s : State) : List (PortNo × Nat × Int) :=
  sortBy (fun a b => decide (a.2.2 ≤ b.2.2)) s.floorCandidates

theorem State.mem_floorsInOrder {s : State} {c : PortNo × Nat × Int} : c ∈ s.floorsInOrder ↔ c ∈ s.floorCandidates :=
  (sortBy_perm _ _).mem_iff

/-- R143: the unidentified sessions with their requests, ascending port number. -/
def State.trickles (s : State) : Grants :=
  (allPorts.map fun n => (n, s.trickleRequest n)).filter fun c => decide (0 < c.2)

theorem State.tierACandidates_eq (s : State) :
    s.tierACandidates = (s.floorsInOrder.map fun c => (c.1, c.2.1)) ++ s.trickles := rfl

theorem State.mem_trickles {s : State} {n : PortNo} {w : Nat} :
    (n, w) ∈ s.trickles ↔ 0 < w ∧ s.trickleRequest n = w := by
  unfold State.trickles
  simp only [List.mem_filter, List.mem_map, decide_eq_true_iff, Prod.mk.injEq]
  exact ⟨fun ⟨⟨m, _, hm, hw⟩, hpos⟩ => ⟨hpos, hm ▸ hw⟩, fun ⟨hpos, hw⟩ => ⟨⟨n, mem_allPorts n, rfl, hw⟩, hpos⟩⟩

theorem State.trickles_fst (s : State) : (s.trickles.map Prod.fst).Sublist allPorts := by
  have hports : (allPorts.map fun n => (n, s.trickleRequest n)).map Prod.fst = allPorts := by
    rw [List.map_map]
    exact List.map_id _
  exact hports ▸ List.filter_sublist.map Prod.fst

theorem State.trickleRequest_pos {s : State} {n : PortNo} (h : 0 < s.trickleRequest n) :
    (s.port n).servable = true ∧ (s.port n).boundSlot = none
    ∧ s.trickleRequest n = down100 (min (s.port n).sessionImportCap (s.rating n).imp) := by
  unfold State.trickleRequest at h ⊢
  split at h
  · next hc =>
    obtain ⟨hs, hb⟩ := Bool.and_eq_true_iff.mp hc
    rw [if_pos hc]
    exact ⟨hs, Option.isNone_iff_eq_none.mp hb, rfl⟩
  · exact absurd h (Nat.lt_irrefl 0)

/-- R143: no port is twice a candidate of tier A. -/
theorem State.tierACandidates_nodup (s : State) : (s.tierACandidates.map Prod.fst).Nodup := by
  have hfloors : ((s.floorsInOrder.map fun c => (c.1, c.2.1)).map Prod.fst).Nodup := by
    rw [List.map_map]
    exact ((sortBy_perm _ _).map Prod.fst).nodup_iff.mpr s.floorCandidates_nodup
  rw [State.tierACandidates_eq, List.map_append]
  refine List.Nodup.append hfloors (s.trickles_fst.nodup allPorts_nodup) fun n hf ht => ?_
  obtain ⟨⟨_, w⟩, hmem, rfl⟩ := List.mem_map.mp hf
  obtain ⟨⟨m, need, slack⟩, hc, he⟩ := List.mem_map.mp hmem
  obtain ⟨⟨m', w'⟩, hc', he'⟩ := List.mem_map.mp ht
  obtain ⟨_, i, b, hs, _⟩ := State.mem_floorCandidates.mp (State.mem_floorsInOrder.mp hc)
  obtain ⟨hpos, hw⟩ := State.mem_trickles.mp hc'
  obtain rfl : m' = m := he'.trans (congrArg Prod.fst he).symm
  have hbound := (State.served_iff.mp hs).2.1
  rw [(State.trickleRequest_pos (hw ▸ hpos)).2.1] at hbound
  exact absurd hbound (by simp)

/-- The most that the import of a port can be: the lesser of session cap and live rating. -/
def State.importTop (s : State) (n : PortNo) : Nat := min (s.port n).sessionImportCap (s.rating n).imp

/-- The most that the export of a port can be. -/
def State.exportTop (s : State) (n : PortNo) : Nat := min (s.port n).sessionExportCap (s.rating n).exp

theorem figures_need_le (now guardTime atRisk tDep eReq soe importCap rating : Nat) :
    (figures now guardTime atRisk tDep eReq soe importCap rating).need ≤ min importCap rating := by
  have hfull := down100_le (min importCap rating)
  unfold figures
  dsimp only
  split
  · exact Nat.zero_le _
  · split
    · exact Nat.zero_le _
    · dsimp only
      split
      · exact hfull
      · exact (Nat.min_le_left _ _).trans hfull

theorem State.floorOf_le {s : State} {b : Bus} {n : PortNo} (hl : b.location = some n) :
    (s.floorOf b).1 ≤ s.importTop n := by
  unfold State.floorOf
  split
  · next d m hd hm =>
    obtain rfl : m = n := Option.some.inj (hm.symm.trans hl)
    split
    · exact figures_need_le _ _ _ _ _ _ _ _
    · exact Nat.zero_le _
  · exact Nat.zero_le _

/-- R143: no request of tier A exceeds what its port can import. -/
theorem State.tierACandidates_le {s : State} (ha : s.Agrees) {n : PortNo} {w : Nat} (h : (n, w) ∈ s.tierACandidates) :
    w ≤ s.importTop n := by
  rw [State.tierACandidates_eq] at h
  rcases List.mem_append.mp h with h | h
  · obtain ⟨⟨m, need, slack⟩, hc, he⟩ := List.mem_map.mp h
    obtain ⟨rfl, rfl⟩ := Prod.mk.inj he
    obtain ⟨_, i, b, hs, hf⟩ := State.mem_floorCandidates.mp (State.mem_floorsInOrder.mp hc)
    have hle := State.floorOf_le (s := s) (State.served_location ha hs)
    rwa [hf] at hle
  · obtain ⟨hpos, hw⟩ := State.mem_trickles.mp h
    rw [← hw, (State.trickleRequest_pos (hw ▸ hpos)).2.2]
    exact down100_le _

theorem serveTierA_le_top {s : State} (ha : s.Agrees) (q : Nat) (n : PortNo) :
    (serveTierA q s.tierACandidates).of n ≤ s.importTop n := by
  by_cases h : n ∈ s.tierACandidates.map Prod.fst
  · obtain ⟨⟨m, w⟩, hm, rfl⟩ := List.mem_map.mp h
    exact (serveTierA_le s.tierACandidates_nodup hm q).trans (State.tierACandidates_le ha hm)
  · rw [serveTierA_notMem h]
    exact Nat.zero_le _

/-! ### Tiers B and C (R145, R146) -/

theorem State.tierPorts_fst (s : State) (g : Grants) (tier : SplitTier) :
    (s.tierPorts g tier).map Prod.fst = allPorts.filter fun n => (s.tierRequest g n).1 == tier := by
  unfold State.tierPorts
  rw [List.map_map]
  exact List.map_id _

theorem State.tierPorts_nodup (s : State) (g : Grants) (tier : SplitTier) :
    ((s.tierPorts g tier).map Prod.fst).Nodup := by
  rw [State.tierPorts_fst]
  exact allPorts_nodup.filter _

theorem State.mem_tierPorts {s : State} {g : Grants} {tier : SplitTier} {n : PortNo} {w : Nat} {c : Int} :
    (n, w, c) ∈ s.tierPorts g tier ↔ s.tierRequest g n = (tier, w) ∧ c = s.carried n tier := by
  unfold State.tierPorts
  simp only [List.mem_map, List.mem_filter, Prod.mk.injEq, beq_iff_eq]
  constructor
  · rintro ⟨m, ⟨_, ht⟩, rfl, rfl, rfl⟩
    exact ⟨Prod.ext ht rfl, rfl⟩
  · rintro ⟨h, rfl⟩
    exact ⟨n, ⟨mem_allPorts n, by rw [h]⟩, rfl, by rw [h], rfl⟩

theorem serveTier_ports {q : Nat} {xs : List (PortNo × Nat × Int)} :
    ((serveTier q xs).map Share.port).Perm (xs.map Prod.fst) := by
  have h := (serveTier_perm q xs).map Prod.fst
  rwa [List.map_map, List.map_map] at h

theorem serveTier_nodup {q : Nat} {xs : List (PortNo × Nat × Int)} (hn : (xs.map Prod.fst).Nodup) :
    ((serveTier q xs).map Share.port).Nodup := serveTier_ports.nodup_iff.mpr hn

/-- R145: the request of a port above tier A, rounded down to 100 W. -/
theorem State.tierRequest_le (s : State) (g : Grants) (n : PortNo) :
    (s.tierRequest g n).2 % 100 = 0 ∧ (s.tierRequest g n).2 ≤ s.importTop n - g.of n
    ∧ ((s.tierRequest g n).1 ≠ .none ↔ 0 < (s.tierRequest g n).2) := by
  have hask (cap : Nat) : down100 (min (min cap (s.port n).sessionImportCap) (s.rating n).imp - g.of n) % 100 = 0
      ∧ down100 (min (min cap (s.port n).sessionImportCap) (s.rating n).imp - g.of n) ≤ s.importTop n - g.of n := by
    simp only [down100, State.importTop]; omega
  unfold State.tierRequest
  split
  · simp
  · split
    · simp
    · next cls st _ =>
      dsimp only
      split
      · next hc =>
        refine ⟨(hask st.cap).1, (hask st.cap).2, fun _ => hc.2, fun _ => ?_⟩
        dsimp only
        split <;> simp
      · simp

theorem State.tierPorts_whole (s : State) (g : Grants) (tier : SplitTier) :
    ∀ x ∈ s.tierPorts g tier, x.2.1 % 100 = 0 := by
  rintro ⟨n, w, c⟩ hx
  have hreq := (s.tierRequest_le g n).1
  rw [(State.mem_tierPorts.mp hx).1] at hreq
  exact hreq

/-- A port's grant in a tier: at most its request, and none outside its tier. -/
theorem State.tierGrant_le (s : State) (g : Grants) (tier : SplitTier) (q : Nat) (n : PortNo) :
    (sharesGrants (serveTier q (s.tierPorts g tier))).of n ≤
      if (s.tierRequest g n).1 = tier then (s.tierRequest g n).2 else 0 := by
  rw [← shareFor_got]
  cases h : shareFor (serveTier q (s.tierPorts g tier)) n with
  | none => exact Nat.zero_le _
  | some y =>
    obtain ⟨hy, rfl⟩ := shareFor_some h
    have hpair := (serveTier_perm q (s.tierPorts g tier)).mem_iff.mp (List.mem_map.mpr ⟨y, hy, rfl⟩)
    obtain ⟨⟨m, w, c⟩, hm, he⟩ := List.mem_map.mp hpair
    obtain ⟨rfl, rfl⟩ := Prod.mk.inj he
    have hreq := (State.mem_tierPorts.mp hm).1
    rw [hreq, if_pos rfl]
    exact (serveTier_forall_whole q (s.tierPorts_whole g tier) y hy).within

/-! ### The grants of one computation -/

/-- R153: the import grant of a port, by tier A and the grants of the tiers. -/
theorem importGrant_eq (g : Grants) (b c : List Share) (n : PortNo) :
    importGrant g b c n = g.of n + (sharesGrants b).of n + (sharesGrants c).of n := by
  simp only [importGrant, shareFor_got]

theorem State.work_tierA (s : State) : s.work.tierA = serveTierA (s.available s.effectiveBase) s.tierACandidates := rfl

theorem State.work_available (s : State) : s.work.available = s.available s.effectiveBase := rfl

theorem State.work_base (s : State) : s.work.base = s.effectiveBase := rfl

theorem State.work_budget (s : State) : s.work.budget = s.budget s.work.available s.work.tierA.total := rfl

theorem State.work_tierB (s : State) : s.work.tierB = serveTier s.work.budget (s.tierPorts s.work.tierA .b) := rfl

theorem State.work_tierC (s : State) : s.work.tierC =
    serveTier (s.work.budget - sharesTotal s.work.tierB) (s.tierPorts s.work.tierA .c) := rfl

theorem State.work_reserve (s : State) : s.work.reserve =
    s.reserveGrants (importGrant s.work.tierA s.work.tierB s.work.tierC) := rfl

/-- The import that a port is granted. -/
def State.importOf (s : State) (n : PortNo) : Nat := importGrant s.work.tierA s.work.tierB s.work.tierC n

theorem State.work_tierA_nodup (s : State) : (s.work.tierA.map Prod.fst).Nodup := by
  rw [s.work_tierA]
  exact (serveTierA_fst _ _).nodup s.tierACandidates_nodup

theorem State.work_tierA_total (s : State) : s.work.tierA.total ≤ s.work.available := by
  rw [s.work_tierA]
  exact serveTierA_total _ _

theorem State.work_tierB_total (s : State) : sharesTotal s.work.tierB ≤ s.work.budget := by
  rw [s.work_tierB]
  exact serveTier_total _ (s.tierPorts_whole _ _)

theorem State.work_tierC_total (s : State) : sharesTotal s.work.tierB + sharesTotal s.work.tierC ≤ s.work.budget := by
  have hb := s.work_tierB_total
  have hc : sharesTotal s.work.tierC ≤ s.work.budget - sharesTotal s.work.tierB := by
    rw [s.work_tierC]
    exact serveTier_total _ (s.tierPorts_whole _ _)
  omega

theorem State.work_tierB_nodup (s : State) : (s.work.tierB.map Share.port).Nodup := by
  rw [s.work_tierB]
  exact serveTier_nodup (s.tierPorts_nodup _ _)

theorem State.work_tierC_nodup (s : State) : (s.work.tierC.map Share.port).Nodup := by
  rw [s.work_tierC]
  exact serveTier_nodup (s.tierPorts_nodup _ _)

theorem State.budget_le (s : State) (a total : Nat) : s.budget a total ≤ a - total := by
  unfold State.budget
  split
  · exact Nat.zero_le _
  · split
    · exact Nat.sub_le_sub_right (Nat.min_le_left _ _) _
    · exact Nat.le_refl _

theorem State.budget_fallback {s : State} (h : s.supervision.state = .fallback) (a total : Nat) :
    s.budget a total = 0 := if_pos h

/-- R153: the import granted to all ports is what the tiers grant. -/
theorem State.importOf_sum (s : State) : (allPorts.map s.importOf).sum =
    s.work.tierA.total + sharesTotal s.work.tierB + sharesTotal s.work.tierC := by
  have hsplit : allPorts.map s.importOf = allPorts.map fun n =>
      s.work.tierA.of n + (sharesGrants s.work.tierB).of n + (sharesGrants s.work.tierC).of n :=
    List.map_congr_left fun n _ => importGrant_eq _ _ _ n
  have hb := Grants.sum_of (g := sharesGrants s.work.tierB) (by rw [sharesGrants_fst]; exact s.work_tierB_nodup)
  have hc := Grants.sum_of (g := sharesGrants s.work.tierC) (by rw [sharesGrants_fst]; exact s.work_tierC_nodup)
  rw [hsplit, List.sum_map_add, List.sum_map_add, Grants.sum_of s.work_tierA_nodup, hb, hc, sharesGrants_total,
    sharesGrants_total]

theorem State.importOf_sum_le (s : State) : (allPorts.map s.importOf).sum ≤ s.work.tierA.total + s.work.budget := by
  have := s.work_tierC_total
  rw [s.importOf_sum]
  omega

/-- R143, R145: no port is granted more import than its session cap and its live rating. -/
theorem State.importOf_le {s : State} (ha : s.Agrees) (n : PortNo) : s.importOf n ≤ s.importTop n := by
  have hA : s.work.tierA.of n ≤ s.importTop n := serveTierA_le_top ha _ n
  have hB : (sharesGrants s.work.tierB).of n ≤ _ := s.tierGrant_le s.work.tierA .b s.work.budget n
  have hC : (sharesGrants s.work.tierC).of n ≤ _ :=
    s.tierGrant_le s.work.tierA .c (s.work.budget - sharesTotal s.work.tierB) n
  have hreq := (s.tierRequest_le s.work.tierA n).2.1
  rw [State.importOf, importGrant_eq]
  cases ht : (s.tierRequest s.work.tierA n).1 <;> simp [ht] at hB hC <;> omega

theorem State.planExport_le (s : State) (n : PortNo) : s.planExport n ≤ down100 (s.exportTop n) := by
  unfold State.planExport
  split
  · exact Nat.zero_le _
  · split
    · exact Nat.zero_le _
    · split
      · simp only [State.exportTop, down100]; omega
      · exact Nat.zero_le _

theorem State.mem_reserveCandidates {s : State} {imports exports : PortNo → Nat} {n : PortNo} {surplus : Int}
    {room : Nat} : (n, surplus, room) ∈ s.reserveCandidates imports exports ↔
      ∃ i b, s.served n = some (i, b) ∧ s.exportEligible i b = true ∧ imports n = 0
        ∧ surplus = ((b.soe.getD 0 : Nat) : Int) - (b.dischargeFloor : Int)
        ∧ room = down100 (s.exportTop n) - exports n := by
  unfold State.reserveCandidates
  simp only [List.mem_filterMap]
  constructor
  · rintro ⟨m, _, hm⟩
    split at hm
    · cases hm
    · next i b hs =>
      split at hm
      · next hc =>
        obtain ⟨rfl, rfl, rfl⟩ := by simpa using hm
        exact ⟨i, b, hs, hc.1, hc.2, rfl, rfl⟩
      · cases hm
  · rintro ⟨i, b, hs, he, hi, rfl, rfl⟩
    refine ⟨n, mem_allPorts n, ?_⟩
    rw [hs]
    exact if_pos ⟨he, hi⟩

theorem State.reserveCandidates_fst (s : State) (imports exports : PortNo → Nat) :
    ((s.reserveCandidates imports exports).map Prod.fst).Sublist allPorts := by
  unfold State.reserveCandidates
  induction allPorts with
  | nil => exact .slnil
  | cons n l ih =>
    rw [List.filterMap_cons]
    split
    · exact ih.cons n
    · next c hc =>
      have hn : c.1 = n := by
        split at hc
        · cases hc
        · split at hc
          · rw [← Option.some.inj hc]
          · cases hc
      rw [List.map_cons, hn]
      exact ih.cons_cons n

/-- R152: the candidates in the order in which they are served. -/
def State.reserveInOrder (s : State) : List (PortNo × Int × Nat) :=
  sortBy (fun x y => decide (y.2.1 ≤ x.2.1)) (s.reserveCandidates s.importOf s.planExport)

theorem State.reserveInOrder_nodup (s : State) : (s.reserveInOrder.map Prod.fst).Nodup :=
  ((sortBy_perm _ _).map Prod.fst).nodup_iff.mpr ((s.reserveCandidates_fst _ _).nodup allPorts_nodup)

theorem State.mem_reserveInOrder {s : State} {c : PortNo × Int × Nat} :
    c ∈ s.reserveInOrder ↔ c ∈ s.reserveCandidates s.importOf s.planExport := (sortBy_perm _ _).mem_iff

/-- R152: reserve export is granted under an ACTIVE commitment and SUPERVISED alone. -/
theorem State.work_reserve_cases (s : State) :
    ((s.activeCommit = none ∨ s.supervision.state ≠ .supervised) ∧ s.work.reserve = [])
    ∨ ∃ i c, s.activeCommit = some (i, c) ∧ s.supervision.state = .supervised ∧ s.work.reserve =
        serveReserve (exportNeed (allPorts.map s.importOf).sum (allPorts.map s.planExport).sum c.capNet)
          s.reserveInOrder := by
  rw [s.work_reserve]
  unfold State.reserveGrants
  split
  · next i c hc =>
    split
    · next hs => exact .inr ⟨i, c, hc, hs, rfl⟩
    · next hs => exact .inl ⟨.inr hs, rfl⟩
  · next hc => exact .inl ⟨.inl hc, rfl⟩

theorem State.reserve_le (s : State) (n : PortNo) : s.work.reserve.of n ≤ down100 (s.exportTop n) - s.planExport n := by
  rcases s.work_reserve_cases with ⟨_, h⟩ | ⟨i, c, _, _, h⟩
  · rw [h]; exact Nat.zero_le _
  · rw [h]
    by_cases hn : n ∈ s.reserveInOrder.map Prod.fst
    · obtain ⟨⟨m, surplus, room⟩, hm, rfl⟩ := List.mem_map.mp hn
      obtain ⟨k, hk⟩ := List.getElem?_of_mem hm
      obtain ⟨_, _, _, _, _, _, hroom⟩ := State.mem_reserveCandidates.mp (State.mem_reserveInOrder.mp hm)
      rw [serveReserve_of s.reserveInOrder_nodup hk, ← hroom]
      exact Nat.min_le_left _ _
    · rw [serveReserve_notMem hn]; exact Nat.zero_le _

/-- R151, R152: no port is granted more export than its session cap and its live rating. -/
theorem State.exportOf_le (s : State) (n : PortNo) : s.planExport n + s.work.reserve.of n ≤ s.exportTop n := by
  have h1 := s.planExport_le n
  have h2 := s.reserve_le n
  have h3 := down100_le (s.exportTop n)
  omega

/-! ### What is published (R153, R154) -/

theorem Setpoint.make_imp (w : Nat) : (Setpoint.make .imp w).importW = w ∧ (Setpoint.make .imp w).exportW = 0 := by
  unfold Setpoint.make
  split
  · next h => exact ⟨h.symm, rfl⟩
  · exact ⟨rfl, rfl⟩

theorem Setpoint.make_exp (w : Nat) : (Setpoint.make .exp w).importW = 0 ∧ (Setpoint.make .exp w).exportW = w := by
  unfold Setpoint.make
  split
  · next h => exact ⟨rfl, h.symm⟩
  · exact ⟨rfl, rfl⟩

theorem formSetpoint_importW_le (l r : Bool) (i e : Nat) : (formSetpoint l r i e).importW ≤ i := by
  unfold formSetpoint
  split
  · exact Nat.zero_le _
  · split
    · exact (Setpoint.make_imp i).1.le
    · exact (Setpoint.make_exp e).1.trans_le (Nat.zero_le _)

theorem formSetpoint_exportW_le (l r : Bool) (i e : Nat) : (formSetpoint l r i e).exportW ≤ e := by
  unfold formSetpoint
  split
  · exact Nat.zero_le _
  · split
    · exact (Setpoint.make_imp i).2.trans_le (Nat.zero_le _)
    · exact (Setpoint.make_exp e).2.le

theorem State.portResult_grants (s : State) (n : PortNo) :
    (s.portResult s.work n).tierA + (s.portResult s.work n).splitGrant = s.importOf n := by
  simp only [State.portResult, State.importOf, importGrant, Nat.add_assoc]

theorem State.portResult_published (s : State) (n : PortNo) : (s.portResult s.work n).published =
    formSetpoint s.protection.latch (s.portResult s.work n).restRemoved (s.importOf n)
      (s.planExport n + s.work.reserve.of n) := by
  simp only [State.portResult, State.importOf, importGrant, Nat.add_assoc]

theorem State.publishedImport_le (s : State) (n : PortNo) :
    (s.portResult s.work n).published.importW ≤ s.importOf n := by
  rw [s.portResult_published]
  exact formSetpoint_importW_le _ _ _ _

theorem State.publishedExport_le (s : State) (n : PortNo) :
    (s.portResult s.work n).published.exportW ≤ s.exportTop n := by
  rw [s.portResult_published]
  exact (formSetpoint_exportW_le _ _ _ _).trans (s.exportOf_le n)

theorem State.results_toList (s : State) (w : Working) :
    (s.results w).toList = allPorts.map fun n => s.portResult w n := by
  unfold State.results allPorts
  rw [← List.ofFn_eq_map, ← Array.toList_ofFn]
  rfl

/-- A sum over the recorded results is one over the ports. -/
theorem State.results_sum (s : State) (w : Working) (f : PortResult → Nat) :
    ((s.results w).toList.map f).sum = (allPorts.map fun n => f (s.portResult w n)).sum := by
  rw [State.results_toList, List.map_map]
  rfl

theorem State.summaryOf_importTotal (s : State) (w : Working) : (s.summaryOf w (s.results w)).importTotal =
    (allPorts.map fun n => (s.portResult w n).published.importW).sum := by
  simp only [State.summaryOf]
  exact s.results_sum w fun r => r.published.importW

theorem State.summaryOf_import_le (s : State) :
    (s.summaryOf s.work (s.results s.work)).importTotal ≤ s.work.tierA.total + s.work.budget := by
  rw [State.summaryOf_importTotal]
  exact (List.sum_le_sum fun n _ => s.publishedImport_le n).trans s.importOf_sum_le

/-- Settles O41: the import of the tiers, then the bound of every port. -/
theorem publishedImportWithinAvailable : Obligations.PublishedImportWithinAvailable := by
  intro s t ha hr ht h
  obtain rfl := compute_of_exec hr ht h
  have hsum := s.prepared.summaryOf_import_le
  have htier := s.prepared.work_tierA_total
  have hbudget := s.prepared.budget_le s.prepared.work.available s.prepared.work.tierA.total
  rw [← State.work_budget] at hbudget
  refine ⟨_, s.compute_summary, ?_, htier, fun hf => ?_, fun n => ?_⟩
  · exact hsum.trans (by show _ ≤ s.prepared.work.available; omega)
  · have hzero : s.prepared.work.budget = 0 := State.budget_fallback hf _ _
    rw [hzero] at hsum
    exact ⟨hzero, hsum⟩
  · have himport := (s.prepared.publishedImport_le n).trans (State.importOf_le (State.prepared_agrees ha) n)
    have hexport := s.prepared.publishedExport_le n
    rw [s.compute_result, s.compute_site, Port.sessionImportCap, Port.sessionExportCap, s.compute_session]
    exact ⟨himport.trans (Nat.min_le_right _ _), himport.trans (Nat.min_le_left _ _),
      hexport.trans (Nat.min_le_right _ _), hexport.trans (Nat.min_le_left _ _)⟩

end Sys2Proof.Machine
end

section
/-! What a load leaves of the commitments (09, R161), stable orders, then tier A and the budget of a computation
(08, R142 to R144). -/

namespace Sys2Proof.Machine

open Sys2Proof

/-! ### Stable orders -/

theorem insertBy_stable {α : Type} {le : α → α → Bool} {R : α → α → Prop}
    (tot : ∀ a b, le a b = true ∨ le b a = true) (tr : ∀ a b c, le a b = true → le b c = true → le a c = true)
    {x : α} {l : List α} (h : l.Pairwise fun a b => le a b = true ∧ (le b a = true → R a b)) (hx : ∀ a ∈ l, R a x) :
    (insertBy le x l).Pairwise fun a b => le a b = true ∧ (le b a = true → R a b) := by
  induction l with
  | nil => exact List.pairwise_singleton _ _
  | cons y ys ih =>
    obtain ⟨hy, hys⟩ := List.pairwise_cons.mp h
    rw [insertBy]
    by_cases hle : le y x = true
    · rw [if_pos hle]
      refine List.pairwise_cons.mpr ⟨fun z hz => ?_, ih hys fun a ha => hx a (List.mem_cons_of_mem _ ha)⟩
      rcases List.mem_cons.mp ((insertBy_perm le x ys).mem_iff.mp hz) with rfl | hz
      · exact ⟨hle, fun _ => hx y (List.mem_cons_self ..)⟩
      · exact hy z hz
    · rw [if_neg hle]
      have hxy : le x y = true := (tot x y).resolve_right hle
      refine List.pairwise_cons.mpr ⟨fun z hz => ?_, h⟩
      rcases List.mem_cons.mp hz with rfl | hz
      · exact ⟨hxy, fun h => absurd h hle⟩
      · exact ⟨tr _ _ _ hxy (hy z hz).1, fun h => absurd (tr _ _ _ (hy z hz).1 h) hle⟩

/-- A sort keeps the order of what its order does not separate. -/
theorem sortBy_stable {α : Type} {le : α → α → Bool} {R : α → α → Prop}
    (tot : ∀ a b, le a b = true ∨ le b a = true) (tr : ∀ a b c, le a b = true → le b c = true → le a c = true)
    {xs : List α} (h : xs.Pairwise R) :
    (sortBy le xs).Pairwise fun a b => le a b = true ∧ (le b a = true → R a b) := by
  have key : ∀ (xs acc : List α), (acc.Pairwise fun a b => le a b = true ∧ (le b a = true → R a b)) →
      (∀ a ∈ acc, ∀ x ∈ xs, R a x) → xs.Pairwise R →
      (xs.foldl (fun acc x => insertBy le x acc) acc).Pairwise fun a b => le a b = true ∧ (le b a = true → R a b) := by
    intro xs
    induction xs with
    | nil => exact fun acc hacc _ _ => hacc
    | cons x xs ih =>
      intro acc hacc hcross hxs
      obtain ⟨hx, hxs⟩ := List.pairwise_cons.mp hxs
      refine ih _ (insertBy_stable tot tr hacc fun a ha => hcross a ha x (List.mem_cons_self ..)) (fun a ha y hy => ?_) hxs
      rcases List.mem_cons.mp ((insertBy_perm le x acc).mem_iff.mp ha) with rfl | ha
      · exact hx y hy
      · exact hcross a ha y (List.mem_cons_of_mem _ hy)
  exact key xs [] List.Pairwise.nil (fun a ha => absurd ha List.not_mem_nil) h

theorem allPorts_ascending : allPorts.Pairwise fun a b => a.val < b.val := List.pairwise_lt_finRange 24

/-- A list whose ports are some of all ports in ascending order. -/
theorem ascending_of_fst {α : Type} {l : List (PortNo × α)} (h : (l.map Prod.fst).Sublist allPorts) :
    l.Pairwise fun a b => a.1.val < b.1.val :=
  (List.pairwise_map (f := Prod.fst) (R := fun a b : PortNo => a.val < b.val)).mp (allPorts_ascending.sublist h)

/-! ### Commitments under a load -/

/-- The state from which a load takes the new arm lead. -/
def State.beforeArmLead (s : State) : State :=
  ((s.copyStaged.reloadOffset s.site.live).reloadTrickle s.site.live).reloadLockout s.site.live

theorem State.load_eq_reloadArmLead (s : State) : s.load = s.beforeArmLead.reloadArmLead s.site.live := rfl

theorem State.beforeArmLead_commits (s : State) : s.beforeArmLead.commits = s.commits := by
  have hoffset : (s.copyStaged.reloadOffset s.site.live).commits = s.commits := by
    unfold State.reloadOffset
    dsimp only
    split
    · rfl
    · rw [(State.registerBoundary_onlyRegs _).rest]
      split <;> rfl
  have htrickle (t : State) (old : SiteParams) : (t.reloadTrickle old).commits = t.commits := by
    unfold State.reloadTrickle
    split <;> rfl
  rw [State.beforeArmLead, (State.reloadLockout_onlyRegs _ _).rest]
  exact (htrickle _ _).trans hoffset

section Load

variable {s : State} (ht : s.TablesOk)
include ht

theorem State.load_commit_none {i : Nat} (h : s.commit i = none) : s.load.commit i = none := by
  have hbefore : s.beforeArmLead.commit i = none := (congrArg (Table.get · i) s.beforeArmLead_commits).trans h
  rw [s.load_eq_reloadArmLead, State.reloadArmLead]
  split
  · exact hbefore
  · obtain ⟨_, hother, _⟩ := State.reloadArmRows s.beforeArmLead.site.live.armLead s.beforeArmLead.commits.rows
      s.beforeArmLead (List.pairwise_map.mpr <| by
        rw [s.beforeArmLead_commits]; exact ht.commits.rising.imp fun h => Nat.ne_of_lt h)
      (fun j c hj => Table.get_of_mem (by rw [s.beforeArmLead_commits]; exact ht.commits.rising) hj)
    refine (hother i fun hm => ?_).trans hbefore
    obtain ⟨r, hr, he⟩ := List.mem_map.mp hm
    exact Table.get_none hbefore r hr he

/-- R161: a commitment under a load: one that is PENDING stays so, or is armed, and every other one stays. -/
theorem State.load_commit {i : Nat} {c : Commitment} (h : s.commit i = some c) :
    (c.state ≠ .pending ∧ s.load.commit i = some c)
    ∨ (c.state = .pending ∧ ∃ d, s.load.commit i = some d ∧ (d.state = .pending ∨ d.state = .armed)) := by
  have hbefore : s.beforeArmLead.commit i = some c := (congrArg (Table.get · i) s.beforeArmLead_commits).trans h
  rw [s.load_eq_reloadArmLead, State.reloadArmLead]
  split
  · by_cases hp : c.state = .pending
    · exact .inr ⟨hp, c, hbefore, .inl hp⟩
    · exact .inl ⟨hp, hbefore⟩
  · obtain ⟨_, _, _, _, hrow⟩ := State.reloadArmRows s.beforeArmLead.site.live.armLead s.beforeArmLead.commits.rows
      s.beforeArmLead (List.pairwise_map.mpr <| by
        rw [s.beforeArmLead_commits]; exact ht.commits.rising.imp fun h => Nat.ne_of_lt h)
      (fun j c hj => Table.get_of_mem (by rw [s.beforeArmLead_commits]; exact ht.commits.rising) hj)
    obtain ⟨hkept, hlater, hpast⟩ := hrow i c (Table.mem_of_get hbefore)
    by_cases hp : c.state = .pending
    · refine .inr ⟨hp, ?_⟩
      by_cases hn : s.beforeArmLead.now < c.windowStart - s.beforeArmLead.site.live.armLead
      · exact ⟨_, (hlater hp hn).1, .inl hp⟩
      · exact ⟨_, (hpast hp (Nat.le_of_not_lt hn)).1, .inr rfl⟩
    · exact .inl ⟨hp, (hkept hp).1⟩

theorem State.load_active {i : Nat} {c : Commitment} (hc : c.state = .active) :
    s.load.commit i = some c ↔ s.commit i = some c := by
  refine ⟨fun h => ?_, fun h => ?_⟩
  · cases hs : s.commit i with
    | none => rw [State.load_commit_none ht hs] at h; cases h
    | some d =>
      rcases State.load_commit ht hs with ⟨_, hd⟩ | ⟨_, e, he, hstate⟩
      · exact hd.symm.trans h
      · obtain rfl := Option.some.inj (he.symm.trans h)
        rw [hc] at hstate
        rcases hstate with h | h <;> cases h
  · rcases State.load_commit ht h with ⟨_, hd⟩ | ⟨hp, _⟩
    · exact hd
    · rw [hc] at hp; cases hp

theorem State.prepared_active {i : Nat} {c : Commitment} (hc : c.state = .active) :
    s.prepared.commit i = some c ↔ s.commit i = some c := by
  have h : s.prepared.commit i = s.load.commit i := congrArg (Table.get · i) s.prepared_commits
  rw [h]
  exact State.load_active ht hc

theorem State.prepared_tablesOk : s.prepared.TablesOk := Moves.tablesOk s.prepared_moves ht

/-- R167: the ACTIVE commitment, read from the table. -/
theorem State.commit_of_activeCommit {i : Nat} {c : Commitment} (h : s.activeCommit = some (i, c)) :
    s.commit i = some c ∧ c.state = .active := by
  have hmem := List.mem_of_find?_eq_some h
  have hstate := List.find?_some h
  exact ⟨Table.get_of_mem ht.commits.rising hmem, by simpa using hstate⟩

theorem State.activeCommit_eq (ho : s.OneActive) {i : Nat} {c : Commitment} (h : s.commit i = some c)
    (hc : c.state = .active) : s.activeCommit = some (i, c) := by
  cases ha : s.activeCommit with
  | none => exact absurd hc (State.activeCommit_none ha i c h)
  | some r =>
    obtain ⟨j, d⟩ := r
    obtain ⟨hd, hstate⟩ := State.commit_of_activeCommit ht ha
    obtain rfl := ho i j c d h hd hc hstate
    obtain rfl : c = d := Option.some.inj (h.symm.trans hd)
    rfl

/-- R167: the ACTIVE commitment of a computation is that of the state before it. -/
theorem State.prepared_activeCommit (ho : s.OneActive) {i : Nat} {c : Commitment} (h : s.commit i = some c)
    (hc : c.state = .active) : s.prepared.activeCommit = some (i, c) :=
  State.activeCommit_eq (State.prepared_tablesOk ht) (Moves.oneActive s.prepared_moves ho)
    ((State.prepared_active ht hc).mpr h) hc

theorem State.prepared_activeCommit_none (h : ∀ i c, s.commit i = some c → c.state ≠ .active) :
    s.prepared.activeCommit = none := by
  cases ha : s.prepared.activeCommit with
  | none => rfl
  | some r =>
    obtain ⟨hd, hstate⟩ := State.commit_of_activeCommit (State.prepared_tablesOk ht) ha
    exact absurd hstate (h r.1 r.2 ((State.prepared_active ht hstate).mp hd))

end Load

/-! ### The readiness that stage 2 sets (R129, R131) -/

/-- R131: READINESS is set where the readiness state changes. -/
theorem Bus.setReadiness_flags (b : Bus) (r : Readiness) (x : Option Int) : b.setReadiness r x =
    { b with
      readiness := r, slack := x
      flags := if r = b.readiness then b.flags else b.flags ||| BusFlag.readiness } := by
  rw [Bus.setReadiness_eq]
  by_cases h : b.readiness = r
  · simp [h]
  · simp [h, Ne.symm h]

section Readiness

variable {s : State} {b : Bus}

theorem State.readinessNow_none (h : b.departure = none) : s.readinessNow b = (.none, none) := by
  simp only [State.readinessNow, h]

variable {d : Departure} (h : b.departure = some d)
include h

theorem State.readinessNow_taken {a : Option Nat} (hd : d.state = .taken a) : s.readinessNow b = (.none, none) := by
  simp only [State.readinessNow, h, hd]

theorem State.readinessNow_overdue (hd : d.state = .overdue) : s.readinessNow b = (.overdue, none) := by
  simp only [State.readinessNow, h, hd]

theorem State.readinessNow_away (hd : d.state = .pending) (hl : b.location = none) :
    s.readinessNow b = (.away, none) := by
  simp only [State.readinessNow, h, hd, hl]

theorem State.readinessNow_here (hd : d.state = .pending) {n : PortNo} (hl : b.location = some n) :
    s.readinessNow b = ((s.figuresAt b d n).state, (s.figuresAt b d n).slack) := by
  simp only [State.readinessNow, h, hd, hl]

end Readiness

/-! ### The candidates of tier A (R143) -/

theorem Port.servable_iff {p : Port} : p.servable = true ↔ p.session ≠ none ∧ p.taken = .ready
    ∧ (p.state = .connected ∨ p.state = .energizing ∨ p.state = .energized) := by
  simp only [Port.servable, Bool.and_eq_true, Bool.or_eq_true, beq_iff_eq, Option.isSome_iff_ne_none, or_assoc]
  tauto

/-- R127: a need power has a slack. -/
theorem figures_slack_of_need {now guardTime atRisk tDep eReq soe importCap rating : Nat}
    (h : 0 < (figures now guardTime atRisk tDep eReq soe importCap rating).need) :
    ∃ x, (figures now guardTime atRisk tDep eReq soe importCap rating).slack = some x := by
  unfold figures at h ⊢
  dsimp only at h ⊢
  split at h
  · exact absurd h (Nat.lt_irrefl 0)
  · split at h
    · exact absurd h (Nat.lt_irrefl 0)
    · next hd hf => rw [if_neg hd, if_neg hf]; exact ⟨_, rfl⟩

/-- R128: the tier-A floor of a bus, when it has one. -/
theorem State.floorOf_iff {s : State} {b : Bus} {n : PortNo} (hl : b.location = some n)
    (hready : (s.port n).taken = .ready) {need : Nat} {slack : Int} (hpos : 0 < need) :
    s.floorOf b = (need, slack) ↔ b.block = .enabled ∧ ∃ d, b.departure = some d ∧ d.state = .pending
      ∧ need = (s.figuresAt b d n).need ∧ (s.figuresAt b d n).slack = some slack := by
  have hzero : ¬ ((0, 0) : Nat × Int) = (need, slack) := fun h => by
    have := congrArg Prod.fst h
    dsimp only at this
    omega
  unfold State.floorOf
  cases hd : b.departure with
  | none => simpa using hzero
  | some d =>
    simp only [hl]
    by_cases hc : d.state = .pending ∧ b.block = .enabled
    · rw [if_pos ⟨hc.1, hc.2, hready⟩]
      constructor
      · intro h
        obtain ⟨hneed, hslack⟩ := Prod.mk.inj h
        obtain ⟨x, hx⟩ := figures_slack_of_need (hneed ▸ hpos : 0 < (s.figuresAt b d n).need)
        have hx : (s.figuresAt b d n).slack = some x := hx
        rw [hx] at hslack
        exact ⟨hc.2, d, rfl, hc.1, hneed.symm, hslack ▸ hx⟩
      · rintro ⟨_, e, he, _, hneed, hslack⟩
        obtain rfl := Option.some.inj he
        rw [hslack, hneed]
        rfl
    · rw [if_neg fun h => hc ⟨h.1, h.2.1⟩]
      refine ⟨fun h => absurd h hzero, ?_⟩
      rintro ⟨hb, e, he, hp, _⟩
      obtain rfl := Option.some.inj he
      exact absurd ⟨hp, hb⟩ hc

/-- R143: the candidates of tier A with a floor. -/
theorem State.mem_floors {s : State} (ha : s.Agrees) {n : PortNo} {need : Nat} {slack : Int} :
    (n, need, slack) ∈ s.floorsInOrder ↔ 0 < need ∧ (s.port n).servable = true
      ∧ ∃ i b d, (s.port n).boundSlot = some i ∧ s.bus i = some b ∧ b.block = .enabled
        ∧ b.departure = some d ∧ d.state = .pending
        ∧ need = (s.figuresAt b d n).need ∧ (s.figuresAt b d n).slack = some slack := by
  rw [State.mem_floorsInOrder, State.mem_floorCandidates]
  refine and_congr_right fun hpos => ⟨?_, ?_⟩
  · rintro ⟨i, b, hs, hf⟩
    obtain ⟨hserv, hslot, hbus⟩ := State.served_iff.mp hs
    obtain ⟨hblock, d, hd, hp, hneed, hslack⟩ :=
      (State.floorOf_iff (State.served_location ha hs) (Port.servable_iff.mp hserv).2.1 hpos).mp hf
    exact ⟨hserv, i, b, d, hslot, hbus, hblock, hd, hp, hneed, hslack⟩
  · rintro ⟨hserv, i, b, d, hslot, hbus, hblock, hd, hp, hneed, hslack⟩
    have hs : s.served n = some (i, b) := State.served_iff.mpr ⟨hserv, hslot, hbus⟩
    exact ⟨i, b, hs, (State.floorOf_iff (State.served_location ha hs) (Port.servable_iff.mp hserv).2.1 hpos).mpr
      ⟨hblock, d, hd, hp, hneed, hslack⟩⟩

theorem State.floorsInOrder_sorted (s : State) :
    s.floorsInOrder.Pairwise fun a b => a.2.2 < b.2.2 ∨ (a.2.2 = b.2.2 ∧ a.1.val < b.1.val) := by
  refine (sortBy_stable (le := fun a b : PortNo × Nat × Int => decide (a.2.2 ≤ b.2.2)) (fun a b => ?_) (fun a b c => ?_)
    (ascending_of_fst s.floorCandidates_fst)).imp fun {a b} h => ?_
  · simp only [decide_eq_true_iff]; omega
  · simp only [decide_eq_true_iff]; omega
  · simp only [decide_eq_true_iff] at h
    obtain ⟨hle, hport⟩ := h
    rcases lt_or_eq_of_le hle with hlt | heq
    · exact .inl hlt
    · exact .inr ⟨heq, hport heq.ge⟩

/-- R143: the unidentified sessions that tier A serves. -/
theorem State.mem_trickles_iff {s : State} {n : PortNo} {w : Nat} : (n, w) ∈ s.trickles ↔ 0 < w
    ∧ (s.port n).servable = true ∧ ∃ y why, (s.port n).session = some y ∧ y.binding = .unidentified why
      ∧ w = min y.importCap s.site.liveRatings[n].imp / 100 * 100 := by
  rw [State.mem_trickles]
  refine and_congr_right fun hpos => ⟨?_, ?_⟩
  · intro hw
    obtain ⟨hserv, hunbound, heq⟩ := State.trickleRequest_pos (hw ▸ hpos)
    obtain ⟨y, hy⟩ := Option.ne_none_iff_exists'.mp (Port.servable_iff.mp hserv).1
    refine ⟨hserv, y, ?_⟩
    cases hb : y.binding with
    | bound i => simp [Port.boundSlot, hy, hb] at hunbound
    | unidentified why =>
      refine ⟨why, hy, rfl, hw.symm.trans (heq.trans ?_)⟩
      simp only [Port.sessionImportCap, hy, Option.map_some, Option.getD_some, State.rating, down100]
  · rintro ⟨hserv, y, why, hy, hb, rfl⟩
    have hunbound : (s.port n).boundSlot = none := by simp [Port.boundSlot, hy, hb]
    simp only [State.trickleRequest, hserv, hunbound, Option.isNone_none, Bool.and_self, if_true, Port.sessionImportCap,
      hy, Option.map_some, Option.getD_some, State.rating, down100]

/-! ### The summary of a computation -/

theorem State.compute_plans (s : State) : s.compute.plans = s.plans := by rw [s.compute_eq, ← s.prepared_plans]

theorem State.compute_clock (s : State) : s.compute.clock = s.prepared.clock := by rw [s.compute_eq]

/-- R155: what the summary of a computation is. -/
theorem State.summary_of_compute {s : State} {x : Summary} (h : s.compute.engine.summary = some x) :
    x = s.prepared.summaryOf s.prepared.work (s.prepared.results s.prepared.work) :=
  (Option.some.inj (s.compute_summary.symm.trans h)).symm

section Summary

variable (s : State) (w : Working) (r : Vector PortResult 24)

@[simp] theorem State.summaryOf_time : (s.summaryOf w r).time = s.now := rfl
@[simp] theorem State.summaryOf_base : (s.summaryOf w r).base = w.base := rfl
@[simp] theorem State.summaryOf_available : (s.summaryOf w r).available = w.available := rfl
@[simp] theorem State.summaryOf_tierATotal : (s.summaryOf w r).tierATotal = w.tierA.total := rfl
@[simp] theorem State.summaryOf_budget : (s.summaryOf w r).budget = w.budget := rfl
@[simp] theorem State.summaryOf_supervision : (s.summaryOf w r).supervision = s.supervision.state := rfl
@[simp] theorem State.summaryOf_commitActive : (s.summaryOf w r).commitActive = s.activeCommit.isSome := rfl

end Summary

/-- R143: the grants of tier A that the results record. -/
theorem State.compute_tierA (s : State) (n : PortNo) : s.compute.engine.ports[n].tierA = s.prepared.work.tierA.of n := by
  rw [s.compute_result]
  rfl

theorem State.compute_tierA_sum (s : State) :
    (s.compute.engine.ports.toList.map PortResult.tierA).sum = s.prepared.work.tierA.total := by
  rw [s.compute_enginePorts, State.results_sum]
  exact Grants.sum_of s.prepared.work_tierA_nodup

/-- R144: the budget under an ACTIVE commitment, and without one. -/
theorem State.budget_active {s : State} (hf : s.supervision.state ≠ .fallback) {i : Nat} {c : Commitment}
    (h : s.activeCommit = some (i, c)) (a total : Nat) : s.budget a total = min a c.capNet.toNat - total := by
  rw [State.budget, if_neg hf, h]

theorem State.budget_plain {s : State} (hf : s.supervision.state ≠ .fallback) (h : s.activeCommit = none)
    (a total : Nat) : s.budget a total = a - total := by
  rw [State.budget, if_neg hf, h]

/-- Settles O42: the state a computation reads, then the candidates of tier A in their order, and the budget. -/
theorem tierAAndBudget : Obligations.TierAAndBudget := by
  refine ⟨⟨fun s => ⟨rfl, fun i => ?reads⟩, fun s t hr ht h => ?leaves⟩, fun s t x htab hag hone hr ht h hx => ?tiers⟩
  case reads =>
    refine ⟨fun hnone => by rw [s.prepared_bus, hnone]; rfl, fun b hb => ⟨_, by rw [s.prepared_bus, hb]; rfl,
      b.setReadiness_flags _ _, fun hd => ?_, fun d hd => ⟨fun a hs => ?_, fun hs => ?_, fun hs hl => ?_,
        fun n hs hl => ?_⟩⟩⟩
    · rw [State.readinessNow_none hd]; exact ⟨rfl, rfl⟩
    · rw [State.readinessNow_taken hd hs]; exact ⟨rfl, rfl⟩
    · rw [State.readinessNow_overdue hd hs]; exact ⟨rfl, rfl⟩
    · rw [State.readinessNow_away hd hs hl]; exact ⟨rfl, rfl⟩
    · rw [State.readinessNow_here hd hs hl]; exact ⟨rfl, rfl⟩
  case leaves =>
    obtain rfl := compute_of_exec hr ht h
    exact ⟨s.compute_buses, s.compute_plans, s.compute_site, s.compute_clock⟩
  case tiers =>
    obtain rfl := compute_of_exec hr ht h
    obtain rfl := State.summary_of_compute hx
    have hagree := State.prepared_agrees hag
    have hsup : s.prepared.supervision = s.supervision := s.prepared_supervision
    refine ⟨⟨s.prepared.floorsInOrder, s.prepared.trickles, fun n need slack => ?_, s.prepared.floorsInOrder_sorted,
      fun n w => ?_, ascending_of_fst s.prepared.trickles_fst, fun k n w hk => ?_, fun n hn => ?_⟩,
      s.compute_tierA_sum.symm, fun hf => State.budget_fallback hf _ _, fun i c bl hf hc hact hbl => ?_,
      fun hf hnone => ?_⟩
    · rw [State.mem_floors hagree, Port.servable_iff]
      rfl
    · rw [State.mem_trickles_iff, Port.servable_iff]
    · rw [s.compute_tierA]
      exact serveTierA_of s.prepared.tierACandidates_nodup hk _
    · rw [s.compute_tierA]
      refine serveTierA_notMem (fun hm => ?_) _
      obtain ⟨⟨m, w⟩, hmem, rfl⟩ := List.mem_map.mp hm
      exact hn w hmem
    · have hcap : c.capNet = bl - c.target := by rw [Commitment.capNet, hbl]; rfl
      rw [← hcap]
      exact State.budget_active hf (State.prepared_activeCommit htab hone hc hact) _ _
    · exact State.budget_plain hf (State.prepared_activeCommit_none htab hnone) _ _

end Sys2Proof.Machine
end

section
/-! Export eligibility and figures (07), then tiers B and C and the exports of a computation (08, R145 to R152). -/

namespace Sys2Proof.Machine

open Sys2Proof

/-! ### Export eligibility (R133) -/

/-- R133: the ten conditions of export eligibility. -/
theorem State.exportEligible_iff {s : State} {i : Nat} {b : Bus} : s.exportEligible i b = true ↔
    ∃ n, b.location = some n ∧ (s.port n).boundSlot = some i ∧ 0 < (s.port n).sessionExportCap
      ∧ 0 < s.site.liveRatings[n].exp ∧ (∃ x, b.soe = some x ∧ b.dischargeFloor < x)
      ∧ (∀ d, b.departure = some d → d.state = .pending → s.now + s.site.live.lockoutWindow < d.tDep)
      ∧ b.exportUsed < b.allowance ∧ b.block = .enabled ∧ (s.port n).taken = .ready
      ∧ s.supervision.state = .supervised ∧ s.protection.latch = false := by
  unfold State.exportEligible
  cases hl : b.location with
  | none => simp
  | some n =>
    have hsoe : (match b.soe with
        | some soe => decide (b.dischargeFloor < soe)
        | none => false) = true ↔ ∃ x, b.soe = some x ∧ b.dischargeFloor < x := by
      cases b.soe <;> simp
    have hdep : (match b.departure with
        | some d => decide (d.state ≠ .pending) || decide (s.now + s.site.live.lockoutWindow < d.tDep)
        | none => true) = true ↔
          ∀ d, b.departure = some d → d.state = .pending → s.now + s.site.live.lockoutWindow < d.tDep := by
      cases b.departure with
      | none => simp
      | some d => by_cases hp : d.state = .pending <;> simp [hp]
    simp only [Bool.and_eq_true, beq_iff_eq, decide_eq_true_iff, Bool.not_eq_true', and_assoc, Option.some.injEq,
      exists_eq_left']
    exact and_congr_right' (and_congr_right' (and_congr_right' (and_congr hsoe (and_congr_left' hdep))))

theorem State.exportEligible_soe {s : State} {i : Nat} {b : Bus} (h : s.exportEligible i b = true) :
    ∃ x, b.soe = some x := by
  obtain ⟨_, _, _, _, _, ⟨x, hx, _⟩, _⟩ := State.exportEligible_iff.mp h
  exact ⟨x, hx⟩

/-- R132: the discharge floor of a bus. -/
theorem Bus.dischargeFloor_none {b : Bus} (h : b.departure = none) : b.dischargeFloor = b.floor := by
  simp only [Bus.dischargeFloor, h]

theorem Bus.dischargeFloor_needed {b : Bus} {d : Departure} (h : b.departure = some d)
    (hd : d.state = .pending ∨ d.state = .overdue) : b.dischargeFloor = max b.floor d.eReq := by
  rcases hd with hd | hd <;> simp [Bus.dischargeFloor, h, hd]

theorem Bus.dischargeFloor_taken {b : Bus} {d : Departure} {a : Option Nat} (h : b.departure = some d)
    (hd : d.state = .taken a) : b.dischargeFloor = b.floor := by
  simp [Bus.dischargeFloor, h, hd]

/-! ### The figures of a bus (R127) -/

theorem ceilDiv_spec {a b : Nat} (hb : 0 < b) : a ≤ ceilDiv a b * b ∧ ∀ x, a ≤ x * b → ceilDiv a b ≤ x := by
  have hmod := Nat.div_add_mod (a + b - 1) b
  have hlt := Nat.mod_lt (a + b - 1) hb
  refine ⟨?_, fun x hx => ?_⟩
  · rw [ceilDiv, Nat.mul_comm]; omega
  · rw [ceilDiv, Nat.div_le_iff_le_mul_add_pred hb, Nat.mul_comm]; omega

/-- R127: the figures of a bus whose deficit is open and whose power is above 0. -/
theorem figures_open {now guardTime atRisk tDep eReq soe importCap rating : Nat} (hd : soe < eReq)
    (hf : 0 < down100 (min importCap rating)) :
    figures now guardTime atRisk tDep eReq soe importCap rating =
      { state :=
          if (atRisk : Int) ≤ (tDep : Int) - now - guardTime
              - (ceilDiv ((eReq - soe) * 3600) (down100 (min importCap rating)) : Int) then .onTrack
          else if 0 ≤ (tDep : Int) - now - guardTime
              - (ceilDiv ((eReq - soe) * 3600) (down100 (min importCap rating)) : Int) then .atRisk
          else .late
        slack := some (clampSlack ((tDep : Int) - now - guardTime
          - (ceilDiv ((eReq - soe) * 3600) (down100 (min importCap rating)) : Int)))
        need := if (tDep : Int) - now - guardTime ≤ 0 then down100 (min importCap rating)
          else min (down100 (min importCap rating))
            (roundup100 (ceilDiv ((eReq - soe) * 3600) ((tDep : Int) - now - guardTime).toNat)) } := by
  unfold figures
  dsimp only
  rw [if_neg (by omega), if_neg (by omega)]

/-- R127: the need power within a window is the least of the powers that close the deficit in it. -/
theorem needPower_spec {deficit window full : Nat} (hw : 0 < window) (hfull : full % 100 = 0) :
    let need := min full (roundup100 (ceilDiv deficit window))
    need % 100 = 0 ∧ need ≤ full ∧ (need < full → deficit ≤ need * window)
    ∧ ∀ x, x % 100 = 0 → x ≤ full → deficit ≤ x * window → need ≤ x := by
  obtain ⟨hclose, hleast⟩ := ceilDiv_spec (a := deficit) hw
  have hround : roundup100 (ceilDiv deficit window) % 100 = 0
      ∧ ceilDiv deficit window ≤ roundup100 (ceilDiv deficit window)
      ∧ ∀ x, x % 100 = 0 → ceilDiv deficit window ≤ x → roundup100 (ceilDiv deficit window) ≤ x := by
    simp only [roundup100]
    exact ⟨by omega, by omega, fun x hx hle => by omega⟩
  obtain ⟨hmod, hge, hmin⟩ := hround
  dsimp only
  refine ⟨?_, Nat.min_le_left _ _, fun hlt => ?_, fun x hx hle hx' => ?_⟩
  · rcases Nat.le_total full (roundup100 (ceilDiv deficit window)) with h | h
    · rw [Nat.min_eq_left h]; exact hfull
    · rw [Nat.min_eq_right h]; exact hmod
  · rw [Nat.min_eq_right (by omega)]
    exact hclose.trans (Nat.mul_le_mul_right _ hge)
  · exact (Nat.min_le_right _ _).trans (hmin x hx (hleast x hx'))

/-- Settles O35: the figures by the deficit and the full power, then the conditions of R133. -/
theorem figuresAndExportEligibility : Obligations.FiguresAndExportEligibility := by
  refine ⟨fun now guardTime atRisk tDep eReq soe importCap rating => ⟨fun h => ?ready, fun h hfull => ?late,
    fun h hfull => ?opened⟩, fun s i b => ⟨State.exportEligible_iff, Bus.dischargeFloor_none,
      fun d hd hs => Bus.dischargeFloor_needed hd hs, fun d a hd hs => Bus.dischargeFloor_taken hd hs⟩⟩
  case ready =>
    have hd : eReq - soe = 0 := by omega
    simp only [figures, hd, if_true, clampSlack, clampInt]
  case late =>
    have hd : eReq - soe ≠ 0 := by omega
    have hzero : down100 (min importCap rating) = 0 := hfull
    simp only [figures, if_neg hd, hzero, if_true]
  case opened =>
    have hpos : 0 < down100 (min importCap rating) := hfull
    have hmod : down100 (min importCap rating) % 100 = 0 := by simp only [down100]; omega
    obtain ⟨hclose, hleast⟩ := ceilDiv_spec (a := (eReq - soe) * 3600) hpos
    refine ⟨_, hclose, hleast, ?_⟩
    rw [figures_open h hpos]
    refine ⟨rfl, fun hge => if_pos hge, fun hlt hge => ?_, fun hlt => ?_, fun hw => if_pos hw, fun hw => ?_⟩
    · dsimp only
      rw [if_neg (by omega), if_pos hge]
    · dsimp only
      rw [if_neg (by omega), if_neg (by omega)]
    · dsimp only
      rw [if_neg (by omega)]
      exact needPower_spec (by omega) hmod

/-! ### Ports that run an ACTIVE step -/

theorem State.activeStep_iff {s : State} {b : Bus} {cls : PlanClass} {st : PlanStep} :
    s.activeStep b = some (cls, st) ↔ ∃ j p, s.runningPlan b = some j ∧ s.plan j = some p ∧ p.cls = cls
      ∧ p.cond = some .active ∧ p.step? = some st := by
  unfold State.activeStep
  constructor
  · intro h
    split at h
    · cases h
    · next j hj =>
      split at h
      · cases h
      · next p hp =>
        split at h
        · next hc =>
          obtain ⟨y, hy, he⟩ := Option.map_eq_some_iff.mp h
          obtain ⟨rfl, rfl⟩ := Prod.mk.inj he
          exact ⟨j, p, hj, hp, rfl, hc, hy⟩
        · cases h
  · rintro ⟨j, p, hj, hp, rfl, hc, hs⟩
    rw [hj]
    dsimp only
    rw [hp]
    dsimp only
    rw [if_pos hc, hs]
    rfl

/-- The bus of a servable port runs a plan of a class with this ACTIVE step. -/
def State.Runs (s : State) (n : PortNo) (cls : PlanClass) (st : PlanStep) : Prop :=
  ∃ i b, s.served n = some (i, b) ∧ s.activeStep b = some (cls, st)

theorem State.runs_iff {s : State} {n : PortNo} {cls : PlanClass} {st : PlanStep} : s.Runs n cls st ↔
    (s.port n).servable = true ∧ ∃ i b j p, (s.port n).boundSlot = some i ∧ s.bus i = some b
      ∧ s.runningPlan b = some j ∧ s.plan j = some p ∧ p.cls = cls ∧ p.cond = some .active ∧ p.step? = some st := by
  constructor
  · rintro ⟨i, b, hs, hstep⟩
    obtain ⟨hserv, hslot, hbus⟩ := State.served_iff.mp hs
    obtain ⟨j, p, h⟩ := State.activeStep_iff.mp hstep
    exact ⟨hserv, i, b, j, p, hslot, hbus, h⟩
  · rintro ⟨hserv, i, b, j, p, hslot, hbus, h⟩
    exact ⟨i, b, State.served_iff.mpr ⟨hserv, hslot, hbus⟩, State.activeStep_iff.mpr ⟨j, p, h⟩⟩

/-! ### The requests of tiers B and C (R145) -/

/-- R145: the tier of a plan class. -/
def PlanClass.tier : PlanClass → SplitTier
  | .priority => .b
  | .standard => .c

theorem PlanClass.tier_ne_none (cls : PlanClass) : cls.tier ≠ .none := by cases cls <;> decide

/-- R145: what a port with an ACTIVE step asks above its grant of tier A. -/
def State.askAbove (s : State) (g : Grants) (n : PortNo) (st : PlanStep) : Nat :=
  (min (min st.cap (s.port n).sessionImportCap) s.site.liveRatings[n].imp - g.of n) / 100 * 100

theorem State.tierRequest_iff {s : State} {g : Grants} {n : PortNo} {cls : PlanClass} {w : Nat} :
    s.tierRequest g n = (cls.tier, w) ↔
      0 < w ∧ ∃ st, s.Runs n cls st ∧ st.kind = .importTo ∧ w = s.askAbove g n st := by
  have hnone : ¬ ((.none, 0) : SplitTier × Nat) = (cls.tier, w) := fun h =>
    cls.tier_ne_none (congrArg Prod.fst h).symm
  unfold State.tierRequest State.Runs
  cases hs : s.served n with
  | none => simpa using hnone
  | some r =>
    obtain ⟨i, b⟩ := r
    dsimp only
    cases hstep : s.activeStep b with
    | none => simpa [hstep] using hnone
    | some y =>
      obtain ⟨cls', st⟩ := y
      change (if st.kind = .importTo ∧ 0 < s.askAbove g n st then (cls'.tier, s.askAbove g n st) else (.none, 0))
        = (cls.tier, w) ↔ _
      constructor
      · intro h
        split at h
        · next hc =>
          obtain ⟨ht, rfl⟩ := Prod.mk.inj h
          have hcls : cls' = cls := by cases cls' <;> cases cls <;> first | rfl | cases ht
          exact ⟨hc.2, st, ⟨i, b, rfl, hcls ▸ hstep⟩, hc.1, rfl⟩
        · exact absurd h hnone
      · rintro ⟨hpos, st', ⟨i', b', hs', hstep'⟩, hk, hw⟩
        obtain ⟨rfl, rfl⟩ := Prod.mk.inj (Option.some.inj hs')
        obtain ⟨rfl, rfl⟩ := Prod.mk.inj (Option.some.inj (hstep.symm.trans hstep'))
        rw [if_pos ⟨hk, hw ▸ hpos⟩, hw]

/-- A port that is in no tier. -/
theorem State.tierRequest_none {s : State} {g : Grants} {n : PortNo}
    (h : ∀ w c, (n, w, c) ∉ s.tierPorts g .b ∧ (n, w, c) ∉ s.tierPorts g .c) : (s.tierRequest g n).1 = .none := by
  have hmem := h (s.tierRequest g n).2
  cases ht : (s.tierRequest g n).1 with
  | none => rfl
  | b => exact absurd (State.mem_tierPorts.mpr ⟨Prod.ext ht rfl, rfl⟩) (hmem (s.carried n .b)).1
  | c => exact absurd (State.mem_tierPorts.mpr ⟨Prod.ext ht rfl, rfl⟩) (hmem (s.carried n .c)).2

theorem State.tierPorts_ascending (s : State) (g : Grants) (tier : SplitTier) :
    (s.tierPorts g tier).Pairwise fun a b => a.1.val < b.1.val :=
  ascending_of_fst (by rw [State.tierPorts_fst]; exact List.filter_sublist)

/-- R146: the ports that hold a share of a tier. -/
theorem State.mem_shares {s : State} {g : Grants} {tier : SplitTier} {q : Nat} {n : PortNo} :
    n ∈ (serveTier q (s.tierPorts g tier)).map Share.port ↔ (s.tierRequest g n).1 = tier := by
  rw [serveTier_ports.mem_iff, State.tierPorts_fst, List.mem_filter, beq_iff_eq]
  exact ⟨fun h => h.2, fun h => ⟨mem_allPorts n, h⟩⟩

theorem State.shareFor_other {s : State} {g : Grants} {tier : SplitTier} (q : Nat) {n : PortNo}
    (h : (s.tierRequest g n).1 ≠ tier) : shareFor (serveTier q (s.tierPorts g tier)) n = none :=
  shareFor_none fun hm => h (State.mem_shares.mp hm)

/-! ### What a computation keeps of the tiers (R146, R150) -/

theorem State.portResult_split (s : State) (w : Working) (n : PortNo) :
    (s.portResult w n).split = (s.tierRequest w.tierA n).1 := by simp only [State.portResult]

theorem State.portResult_splitGrant (s : State) (w : Working) (n : PortNo) : (s.portResult w n).splitGrant =
    ((shareFor w.tierB n).map Share.got).getD 0 + ((shareFor w.tierC n).map Share.got).getD 0 := by
  simp only [State.portResult]

theorem State.shareFor_tierB_none {s : State} {n : PortNo} (h : (s.tierRequest s.work.tierA n).1 ≠ .b) :
    shareFor s.work.tierB n = none := State.shareFor_other _ h

theorem State.shareFor_tierC_none {s : State} {n : PortNo} (h : (s.tierRequest s.work.tierA n).1 ≠ .c) :
    shareFor s.work.tierC n = none := State.shareFor_other _ h

/-- A port with a share of tier B. -/
theorem State.keeps_tierB {s : State} {y : Share} (h : y ∈ s.work.tierB) :
    (s.portResult s.work y.port).split = .b ∧ (s.portResult s.work y.port).splitGrant = y.got
    ∧ s.newResidue s.work y.port = y.residue := by
  have ht : (s.tierRequest s.work.tierA y.port).1 = .b := State.mem_shares.mp (List.mem_map.mpr ⟨y, h, rfl⟩)
  have hb : shareFor s.work.tierB y.port = some y := shareFor_mem s.work_tierB_nodup h
  have hc : shareFor s.work.tierC y.port = none := State.shareFor_tierC_none (by rw [ht]; decide)
  exact ⟨by rw [State.portResult_split, ht], by rw [State.portResult_splitGrant, hb, hc]; rfl,
    by simp only [State.newResidue, hb]⟩

theorem State.keeps_tierC {s : State} {y : Share} (h : y ∈ s.work.tierC) :
    (s.portResult s.work y.port).split = .c ∧ (s.portResult s.work y.port).splitGrant = y.got
    ∧ s.newResidue s.work y.port = y.residue := by
  have ht : (s.tierRequest s.work.tierA y.port).1 = .c := State.mem_shares.mp (List.mem_map.mpr ⟨y, h, rfl⟩)
  have hb : shareFor s.work.tierB y.port = none := State.shareFor_tierB_none (by rw [ht]; decide)
  have hc : shareFor s.work.tierC y.port = some y := shareFor_mem s.work_tierC_nodup h
  exact ⟨by rw [State.portResult_split, ht], by rw [State.portResult_splitGrant, hb, hc]; simp,
    by simp only [State.newResidue, hb, hc]⟩

theorem State.keeps_none {s : State} {n : PortNo} (ht : (s.tierRequest s.work.tierA n).1 = .none) :
    (s.portResult s.work n).split = .none ∧ (s.portResult s.work n).splitGrant = 0
    ∧ s.newResidue s.work n = s.carried n .none := by
  have hb : shareFor s.work.tierB n = none := State.shareFor_tierB_none (by rw [ht]; decide)
  have hc : shareFor s.work.tierC n = none := State.shareFor_tierC_none (by rw [ht]; decide)
  exact ⟨by rw [State.portResult_split, ht], by rw [State.portResult_splitGrant, hb, hc]; rfl,
    by simp only [State.newResidue, hb, hc]⟩

theorem Share.residue_eq (y : Share) :
    y.residue = if y.got = y.req then 0 else max (-100) (min 99 (y.adj - y.got)) := rfl

theorem State.prepared_residue (s : State) (n : PortNo) : (s.prepared.port n).residue = (s.port n).residue := by
  obtain ⟨x, hx⟩ := s.prepared_port n
  rw [hx]

theorem State.prepared_carried (s : State) (n : PortNo) (tier : SplitTier) : s.prepared.carried n tier =
    if s.engine.ports[n].split = tier then (s.port n).residue else 0 := by
  rw [State.carried, s.prepared_engine, s.prepared_residue]

/-- R145: the ports of a class with their requests and residues. -/
theorem State.mem_asked {s : State} {cls : PlanClass} {n : PortNo} {w : Nat} {c : Int} :
    (n, w, c) ∈ s.prepared.tierPorts s.prepared.work.tierA cls.tier ↔ 0 < w
      ∧ c = (if s.engine.ports[n].split = cls.tier then (s.port n).residue else 0)
      ∧ ∃ st, ((s.prepared.port n).servable = true ∧ ∃ i b j p, (s.prepared.port n).boundSlot = some i
          ∧ s.prepared.bus i = some b ∧ s.prepared.runningPlan b = some j ∧ s.prepared.plan j = some p ∧ p.cls = cls
          ∧ p.cond = some .active ∧ p.step? = some st) ∧ st.kind = .importTo
        ∧ w = (min (min st.cap (s.prepared.port n).sessionImportCap) s.prepared.site.liveRatings[n].imp
            - s.compute.engine.ports[n].tierA) / 100 * 100 := by
  rw [State.mem_tierPorts, State.tierRequest_iff, s.prepared_carried, s.compute_tierA]
  constructor
  · rintro ⟨⟨hpos, st, hruns, hk, hw⟩, hc⟩
    exact ⟨hpos, hc, st, State.runs_iff.mp hruns, hk, hw⟩
  · rintro ⟨hpos, hc, st, hruns, hk, hw⟩
    exact ⟨⟨hpos, st, State.runs_iff.mpr hruns, hk, hw⟩, hc⟩

/-! ### Exports (R151, R152) -/

/-- The bus of a servable port is export-eligible. -/
def State.Exports (s : State) (n : PortNo) : Prop :=
  ∃ i b, s.served n = some (i, b) ∧ s.exportEligible i b = true

theorem State.exports_iff {s : State} {n : PortNo} : s.Exports n ↔ (s.port n).servable = true
    ∧ ∃ i b, (s.port n).boundSlot = some i ∧ s.bus i = some b ∧ s.exportEligible i b = true := by
  constructor
  · rintro ⟨i, b, hs, he⟩
    obtain ⟨hserv, hslot, hbus⟩ := State.served_iff.mp hs
    exact ⟨hserv, i, b, hslot, hbus, he⟩
  · rintro ⟨hserv, i, b, hslot, hbus, he⟩
    exact ⟨i, b, State.served_iff.mpr ⟨hserv, hslot, hbus⟩, he⟩

/-- R151: the plan export of a port. -/
theorem State.planExport_of {s : State} {n : PortNo} (he : s.Exports n) {cls : PlanClass} {st : PlanStep}
    (hr : s.Runs n cls st) (hk : st.kind = .exportTo) :
    s.planExport n = min st.cap (s.exportTop n) / 100 * 100 := by
  obtain ⟨i, b, hs, helig⟩ := he
  obtain ⟨i', b', hs', hstep⟩ := hr
  obtain ⟨rfl, rfl⟩ := Prod.mk.inj (Option.some.inj (hs.symm.trans hs'))
  unfold State.planExport
  rw [hs]
  dsimp only
  rw [hstep]
  dsimp only
  rw [if_pos ⟨hk, helig⟩, Nat.min_assoc]
  rfl

theorem State.planExport_zero {s : State} {n : PortNo}
    (h : ∀ cls st, s.Exports n → s.Runs n cls st → st.kind ≠ .exportTo) : s.planExport n = 0 := by
  unfold State.planExport
  split
  · rfl
  · next i b hs =>
    split
    · rfl
    · next cls st hstep => exact if_neg fun hc => h cls st ⟨i, b, hs, hc.2⟩ ⟨i, b, hs, hstep⟩ hc.1

/-- R152: the candidates of reserve export. -/
theorem State.mem_reserve {s : State} {n : PortNo} {surplus : Int} {room : Nat} :
    (n, surplus, room) ∈ s.reserveInOrder ↔ s.Exports n ∧ s.importOf n = 0
      ∧ room = s.exportTop n / 100 * 100 - s.planExport n
      ∧ ∃ k b soe, (s.port n).boundSlot = some k ∧ s.bus k = some b ∧ b.soe = some soe
        ∧ surplus = (soe : Int) - b.dischargeFloor := by
  rw [State.mem_reserveInOrder, State.mem_reserveCandidates]
  constructor
  · rintro ⟨i, b, hs, he, hi, hsur, hroom⟩
    obtain ⟨x, hx⟩ := State.exportEligible_soe he
    obtain ⟨_, hslot, hbus⟩ := State.served_iff.mp hs
    exact ⟨⟨i, b, hs, he⟩, hi, hroom, i, b, x, hslot, hbus, hx, by rw [hsur, hx]; rfl⟩
  · rintro ⟨⟨i, b, hs, he⟩, hi, hroom, k, c, x, hslot, hbus, hx, hsur⟩
    obtain ⟨_, hslot', hbus'⟩ := State.served_iff.mp hs
    obtain rfl : k = i := Option.some.inj (hslot.symm.trans hslot')
    obtain rfl : c = b := Option.some.inj (hbus.symm.trans hbus')
    exact ⟨k, c, hs, he, hi, by rw [hsur, hx]; rfl, hroom⟩

theorem State.reserveInOrder_sorted (s : State) :
    s.reserveInOrder.Pairwise fun a b => b.2.1 < a.2.1 ∨ (a.2.1 = b.2.1 ∧ a.1.val < b.1.val) := by
  refine (sortBy_stable (le := fun a b : PortNo × Int × Nat => decide (b.2.1 ≤ a.2.1)) (fun a b => ?_) (fun a b c => ?_)
    (ascending_of_fst (s.reserveCandidates_fst s.importOf s.planExport))).imp fun {a b} h => ?_
  · simp only [decide_eq_true_iff]; omega
  · simp only [decide_eq_true_iff]; omega
  · simp only [decide_eq_true_iff] at h
    obtain ⟨hle, hport⟩ := h
    rcases lt_or_eq_of_le hle with hlt | heq
    · exact .inl hlt
    · exact .inr ⟨heq.symm, hport heq.ge⟩

theorem State.portResult_planExport (s : State) (w : Working) (n : PortNo) :
    (s.portResult w n).planExport = s.planExport n := by simp only [State.portResult]

theorem State.portResult_reserveExport (s : State) (w : Working) (n : PortNo) :
    (s.portResult w n).reserveExport = w.reserve.of n := by simp only [State.portResult]

theorem State.compute_imports (s : State) :
    (fun n : PortNo => s.compute.engine.ports[n].tierA + s.compute.engine.ports[n].splitGrant) = s.prepared.importOf :=
  funext fun n => by rw [s.compute_result, State.portResult_grants]

theorem State.compute_planExports_sum (s : State) :
    (allPorts.map fun n => ((s.compute.engine.ports[n].planExport : Nat) : Int)).sum
      = ((allPorts.map s.prepared.planExport).sum : Nat) := by
  rw [Nat.cast_list_sum, List.map_map]
  refine congrArg List.sum (List.map_congr_left fun n _ => ?_)
  rw [s.compute_result, State.portResult_planExport]
  rfl

/-- R146 to R150: what the ports keep of tiers B and C. -/
theorem compute_tiers (s : State) :
    (∀ y ∈ s.prepared.work.tierB, s.compute.engine.ports[y.port].split = .b
      ∧ s.compute.engine.ports[y.port].splitGrant = y.got
      ∧ (s.compute.port y.port).residue = if y.got = y.req then 0 else max (-100) (min 99 (y.adj - y.got)))
    ∧ (∀ y ∈ s.prepared.work.tierC, s.compute.engine.ports[y.port].split = .c
      ∧ s.compute.engine.ports[y.port].splitGrant = y.got
      ∧ (s.compute.port y.port).residue = if y.got = y.req then 0 else max (-100) (min 99 (y.adj - y.got)))
    ∧ ∀ n : PortNo, (s.prepared.tierRequest s.prepared.work.tierA n).1 = .none →
      s.compute.engine.ports[n].split = .none ∧ s.compute.engine.ports[n].splitGrant = 0
      ∧ (s.compute.port n).residue = if s.engine.ports[n].split = .none then (s.port n).residue else 0 := by
  refine ⟨fun y hy => ?_, fun y hy => ?_, fun n hn => ?_⟩
  · rw [s.compute_result, s.compute_residue]
    exact State.keeps_tierB hy
  · rw [s.compute_result, s.compute_residue]
    exact State.keeps_tierC hy
  · rw [s.compute_result, s.compute_residue, ← s.prepared_carried n .none]
    exact State.keeps_none hn

/-- R152: the reserve export under an ACTIVE commitment. -/
theorem State.compute_reserve {s : State} (ht : s.TablesOk) (ho : s.OneActive) (hs : s.supervision.state = .supervised)
    {i : Nat} {c : Commitment} (hc : s.commit i = some c) (hact : c.state = .active) : s.prepared.work.reserve =
      serveReserve (exportNeed (allPorts.map s.prepared.importOf).sum (allPorts.map s.prepared.planExport).sum c.capNet)
        s.prepared.reserveInOrder := by
  have hcommit := State.prepared_activeCommit ht ho hc hact
  rcases s.prepared.work_reserve_cases with ⟨hnot, _⟩ | ⟨j, d, hd, _, h⟩
  · rw [hcommit, s.prepared_supervision] at hnot
    rcases hnot with h | h
    · cases h
    · exact absurd hs h
  · obtain ⟨rfl, rfl⟩ := Prod.mk.inj (Option.some.inj (hcommit.symm.trans hd))
    exact h

theorem State.compute_reserve_none {s : State} (ht : s.TablesOk)
    (h : s.supervision.state ≠ .supervised ∨ ∀ i c, s.commit i = some c → c.state ≠ .active) :
    s.prepared.work.reserve = [] := by
  rcases s.prepared.work_reserve_cases with ⟨_, hnone⟩ | ⟨j, d, hd, hsup, _⟩
  · exact hnone
  · rw [s.prepared_supervision] at hsup
    rcases h with h | h
    · exact absurd hsup h
    · rw [State.prepared_activeCommit_none ht h] at hd
      cases hd

/-- Settles O43: the requests and shares of tiers B and C, then the exports. -/
theorem tiersAndExports : Obligations.TiersAndExports := by
  refine ⟨fun s t x hag hr ht h hx => ?tiers, fun s t x htab hone hr ht h hx => ?exports⟩
  case tiers =>
    obtain rfl := compute_of_exec hr ht h
    obtain rfl := State.summary_of_compute hx
    obtain ⟨hB, hC, hnone⟩ := compute_tiers s
    refine ⟨s.prepared.tierPorts s.prepared.work.tierA .b, s.prepared.tierPorts s.prepared.work.tierA .c,
      ⟨State.tierPorts_ascending _ _ _, fun n w c => State.mem_asked (cls := .priority)⟩,
      ⟨State.tierPorts_ascending _ _ _, fun n w c => State.mem_asked (cls := .standard)⟩, hB, hC, fun n hn => ?_⟩
    exact hnone n (State.tierRequest_none hn)
  case exports =>
    obtain rfl := compute_of_exec hr ht h
    obtain rfl := State.summary_of_compute hx
    have hsup : s.prepared.supervision = s.supervision := s.prepared_supervision
    refine ⟨fun n st hex => ?_, fun n hnot => ?_, fun hno n => ?_, fun i c bl hs hc hact hbl => ?_⟩
    · obtain ⟨helig, hk, i, b, j, p, hslot, hbus, hrun, hplan, hcond, hstep⟩ := hex
      rw [s.compute_result, State.portResult_planExport]
      exact State.planExport_of (State.exports_iff.mpr helig)
        (State.runs_iff.mpr ⟨helig.1, i, b, j, p, hslot, hbus, hrun, hplan, rfl, hcond, hstep⟩) hk
    · rw [s.compute_result, State.portResult_planExport]
      refine State.planExport_zero fun cls st hex hruns hk => hnot st ?_
      obtain ⟨_, i, b, j, p, hslot, hbus, hrun, hplan, _, hcond, hstep⟩ := State.runs_iff.mp hruns
      exact ⟨State.exports_iff.mp hex, hk, i, b, j, p, hslot, hbus, hrun, hplan, hcond, hstep⟩
    · rw [s.compute_result, State.portResult_reserveExport, State.compute_reserve_none htab (by rwa [← hsup])]
      rfl
    · have hreserve := State.compute_reserve htab hone (hsup ▸ hs) hc hact
      have hcap : c.capNet = bl - c.target := by rw [Commitment.capNet, hbl]; rfl
      refine ⟨s.prepared.reserveInOrder, fun n surplus room => ?_, s.prepared.reserveInOrder_sorted,
        fun k n surplus room hk => ?_, fun n hn => ?_⟩
      · rw [State.mem_reserve, State.exports_iff, s.compute_imports, s.compute_result, State.portResult_planExport]
        rfl
      · rw [s.compute_result, State.portResult_reserveExport, hreserve, s.compute_imports, s.compute_planExports_sum, ← hcap]
        exact serveReserve_of s.prepared.reserveInOrder_nodup hk _
      · rw [s.compute_result, State.portResult_reserveExport, hreserve]
        refine serveReserve_notMem (fun hm => ?_) _
        obtain ⟨⟨m, y, room⟩, hmem, rfl⟩ := List.mem_map.mp hm
        exact hn y room hmem

end Sys2Proof.Machine
end

section
/-! What a computation publishes (08, R153 to R155), and the direction memory over every step (04, R67). -/

namespace Sys2Proof.Machine

open Sys2Proof

/-! ### Ports under a load -/

theorem Port.takeTrickle_isSome (w : Nat) (p : Port) : (p.takeTrickle w).session.isSome = p.session.isSome := by
  unfold Port.takeTrickle
  split
  · next x hx =>
    split
    · split
      · rw [hx]; rfl
      · rfl
    · rfl
  · rfl

theorem State.prepared_isSome (s : State) (n : PortNo) :
    (s.prepared.port n).session.isSome = (s.port n).session.isSome := by
  have hoffset : ((s.copyStaged.reloadOffset s.site.live).port n).session = (s.port n).session :=
    congrArg Port.session (State.port_of_ports (State.reloadOffset_ports _ _) n)
  rw [State.port_of_ports s.prepared_ports, State.port_of_ports s.load_ports, ← hoffset]
  unfold State.reloadTrickle
  split
  · rfl
  · simp only [State.port, Fin.getElem_fin, Vector.getElem_map]
    exact Port.takeTrickle_isSome _ _

theorem State.prepared_servable (s : State) (n : PortNo) :
    (s.prepared.port n).servable = (s.port n).servable := by
  obtain ⟨x, hx⟩ := s.prepared_port n
  have hsome := s.prepared_isSome n
  simp only [Port.servable, hsome]
  rw [hx]

/-! ### Ports that are not served -/

theorem State.served_none {s : State} {n : PortNo} (h : (s.port n).servable = false) : s.served n = none := by
  simp [State.served, h]

/-- R141: a port that is not servable is granted nothing. -/
theorem State.grants_not_servable {s : State} {n : PortNo} (h : (s.port n).servable = false) :
    s.importOf n = 0 ∧ s.planExport n + s.work.reserve.of n = 0 := by
  have hserved := State.served_none h
  have htier : s.tierRequest s.work.tierA n = (.none, 0) := by simp only [State.tierRequest, hserved]
  have hA : s.work.tierA.of n = 0 := by
    rw [s.work_tierA]
    refine serveTierA_notMem (fun hm => ?_) _
    obtain ⟨⟨m, w⟩, hmem, rfl⟩ := List.mem_map.mp hm
    rcases List.mem_append.mp hmem with hf | ht
    · obtain ⟨⟨k, need, slack⟩, hc, he⟩ := List.mem_map.mp hf
      obtain ⟨_, i, b, hs, _⟩ := State.mem_floorCandidates.mp (State.mem_floorsInOrder.mp hc)
      have hk : k = m := congrArg Prod.fst he
      rw [hk, hserved] at hs
      cases hs
    · have hserv := (State.mem_trickles_iff.mp ht).2.1
      rw [h] at hserv
      cases hserv
  have hno : (s.tierRequest s.work.tierA n).1 = .none := congrArg Prod.fst htier
  have hB : shareFor s.work.tierB n = none := State.shareFor_tierB_none (by rw [hno]; decide)
  have hC : shareFor s.work.tierC n = none := State.shareFor_tierC_none (by rw [hno]; decide)
  have hplan : s.planExport n = 0 := by simp only [State.planExport, hserved]
  have hreserve : s.work.reserve.of n = 0 := by
    rcases s.work_reserve_cases with ⟨_, hr⟩ | ⟨i, c, _, _, hr⟩
    · rw [hr]; rfl
    · rw [hr]
      refine serveReserve_notMem (fun hm => ?_) _
      obtain ⟨⟨m, surplus, room⟩, hmem, rfl⟩ := List.mem_map.mp hm
      obtain ⟨i, b, hs, _⟩ := State.mem_reserveCandidates.mp (State.mem_reserveInOrder.mp hmem)
      rw [hserved] at hs
      cases hs
  refine ⟨?_, by rw [hplan, hreserve]⟩
  rw [State.importOf, importGrant, hA, hB, hC]
  rfl

/-! ### The setpoint of a port (R153, R154) -/

theorem Setpoint.make_zero (d : Dir) : Setpoint.make d 0 = .zero := rfl

theorem Setpoint.make_pos {d : Dir} {w : Nat} (h : 0 < w) : Setpoint.make d w = ⟨w, d⟩ := if_neg (by omega)

theorem formSetpoint_latch (removed : Bool) (i e : Nat) : formSetpoint true removed i e = .zero := rfl

theorem formSetpoint_none (latch removed : Bool) : formSetpoint latch removed 0 0 = .zero := by
  unfold formSetpoint
  split <;> rfl

/-- R153, R154: what is published, by the grants. -/
theorem formSetpoint_eq (latch removed : Bool) (i e : Nat) : formSetpoint latch removed i e =
    if latch = true ∨ removed = true then ⟨0, .none⟩
    else if 0 < i then ⟨i, .imp⟩ else if 0 < e then ⟨e, .exp⟩ else ⟨0, .none⟩ := by
  unfold formSetpoint
  refine if_congr (by simp) rfl ?_
  split
  · next h => exact Setpoint.make_pos h
  · split
    · next h => exact Setpoint.make_pos h
    · next h => rw [Nat.eq_zero_of_not_pos h]; rfl

/-- R153: when the rest removes a grant. -/
theorem Port.restRemoves_iff {p : Port} {now rest : Nat} {d : Dir} : p.restRemoves now rest d = true ↔
    d ≠ .none ∧ p.lastDir ≠ .none ∧ d ≠ p.lastDir
      ∧ ¬ (p.held.mag = 0 ∧ ∃ z, p.zeroSince = some z ∧ rest ≤ now - z) := by
  unfold Port.restRemoves
  cases hz : p.zeroSince with
  | none => simp [and_assoc]
  | some z => simp [and_assoc, imp_iff_not_or]

theorem computedDir_eq (i e : Nat) :
    computedDir i e = if 0 < i then .imp else if 0 < e then .exp else .none := rfl

/-- A setpoint that is published above 0 was not removed, and has the computed direction. -/
theorem formSetpoint_moving {latch removed : Bool} {i e : Nat} (h : (formSetpoint latch removed i e).mag ≠ 0) :
    removed = false ∧ (formSetpoint latch removed i e).dir = computedDir i e
      ∧ (formSetpoint latch removed i e).dir ≠ .none := by
  rw [formSetpoint_eq] at h ⊢
  split at h
  · exact absurd rfl h
  · next hc =>
    have hremoved : removed = false := by simpa using fun hr => hc (.inr hr)
    rw [if_neg hc, computedDir_eq]
    split at h
    · next hi => rw [if_pos hi, if_pos hi]; exact ⟨hremoved, rfl, fun e => by cases e⟩
    · next hi =>
      split at h
      · next he => rw [if_neg hi, if_pos he, if_neg hi, if_pos he]; exact ⟨hremoved, rfl, fun e => by cases e⟩
      · exact absurd rfl h

section Ports

variable (s : State) (n : PortNo)

theorem State.published_eq :
    s.compute.engine.ports[n].published = (s.prepared.portResult s.prepared.work n).published := by
  rw [s.compute_result]

/-- What a port is but for its session, it is when a computation reads it. -/
theorem State.prepared_port_eq : ∃ x, s.prepared.port n = { s.port n with session := x } := s.prepared_port n

theorem State.computed_port : ∃ x, s.compute.port n = Port.settle s.prepared.env { s.port n with session := x }
    { Port.publish s.protection.latch s.compute.engine.ports[n].published { s.port n with session := x } with
      residue := s.prepared.newResidue s.prepared.work n } := by
  obtain ⟨x, hx⟩ := s.prepared_port n
  refine ⟨x, ?_⟩
  rw [s.compute_port, hx, s.prepared_protection, s.published_eq]

theorem State.computed_removed : s.compute.engine.ports[n].restRemoved =
    (s.port n).restRemoves s.now s.site.staged.reversalRest
      (computedDir (s.compute.engine.ports[n].tierA + s.compute.engine.ports[n].splitGrant)
        (s.compute.engine.ports[n].planExport + s.compute.engine.ports[n].reserveExport)) := by
  have hrest : s.prepared.site.live.reversalRest = s.site.staged.reversalRest := by rw [s.prepared_site]
  obtain ⟨x, hx⟩ := s.prepared_port n
  have hport : ∀ d, (s.prepared.port n).restRemoves s.now s.site.staged.reversalRest d
      = (s.port n).restRemoves s.now s.site.staged.reversalRest d := fun d => by rw [hx]; rfl
  rw [s.compute_result, ← hport, ← s.prepared_now, ← hrest]
  simp only [State.portResult, State.prepared_now]

theorem State.computed_published : s.compute.engine.ports[n].published = formSetpoint s.protection.latch
    s.compute.engine.ports[n].restRemoved
    (s.compute.engine.ports[n].tierA + s.compute.engine.ports[n].splitGrant)
    (s.compute.engine.ports[n].planExport + s.compute.engine.ports[n].reserveExport) := by
  rw [s.published_eq, s.compute_result, State.portResult_published, State.portResult_grants, s.prepared_protection,
    State.portResult_planExport, State.portResult_reserveExport]

end Ports

/-- R76: what a port in CONNECTED makes of a publication above 0. -/
theorem Port.publish_connected {p : Port} {sp : Setpoint} (hs : p.state = .connected) (ht : p.taken = .ready)
    (hp : sp.mag ≠ 0) : (p.publish false sp).held = sp ∧ (p.publish false sp).command = .closed
    ∧ (p.feedback = .opened → (p.publish false sp).state = .energizing
        ∧ (p.publish false sp).confirmation = .running 200 0 ∧ (p.publish false sp).live = .zero)
    ∧ (p.feedback = .closed → (p.publish false sp).state = .energized ∧ (p.publish false sp).live = sp) := by
  cases hf : p.feedback with
  | opened => simp [Port.publish, hs, ht, hp, hf, Port.enter, Port.live, Timer.start]
  | closed => simp [Port.publish, hs, ht, hp, hf, Port.enter, Port.live]

section Takes

variable {s : State} {n : PortNo}

/-- R154: nothing is published to a port that is not servable, nor under the latch. -/
theorem State.published_zero (h : s.protection.latch = true ∨ (s.port n).servable = false) :
    s.compute.engine.ports[n].published = .zero := by
  rw [s.published_eq, State.portResult_published, s.prepared_protection]
  rcases h with h | h
  · rw [h, formSetpoint_latch]
  · obtain ⟨hi, he⟩ := State.grants_not_servable (s := s.prepared) (n := n) (by rw [s.prepared_servable]; exact h)
    rw [hi, he, formSetpoint_none]

/-- R153: no port is published a direction other than its last before the reversal rest has passed. -/
theorem State.published_rested (h : s.compute.engine.ports[n].published.mag ≠ 0) : (s.port n).lastDir = .none
    ∨ (s.port n).lastDir = s.compute.engine.ports[n].published.dir
    ∨ ((s.port n).held.mag = 0 ∧ ∃ z, (s.port n).zeroSince = some z ∧ s.site.staged.reversalRest ≤ s.now - z) := by
  rw [s.computed_published n] at h ⊢
  obtain ⟨hremoved, hdir, hne⟩ := formSetpoint_moving h
  rw [hdir] at hne ⊢
  have hnot := Bool.eq_false_iff.mp ((s.computed_removed n).symm.trans hremoved)
  rw [Ne, Port.restRemoves_iff] at hnot
  by_contra hcon
  obtain ⟨h1, h2, h3⟩ := by simpa only [not_or] using hcon
  exact hnot ⟨hne, h1, fun e => h2 e.symm, h3⟩

/-- R76: a port in CONNECTED takes a publication above 0 when READY is taken and the latch is clear. -/
theorem State.computed_connected (hs : (s.port n).state = .connected) (ht : (s.port n).taken = .ready)
    (hl : s.protection.latch = false) (hp : s.compute.engine.ports[n].published.mag ≠ 0) :
    (s.compute.port n).held = s.compute.engine.ports[n].published ∧ (s.compute.port n).command = .closed
    ∧ ((s.port n).feedback = .opened → (s.compute.port n).state = .energizing
        ∧ (s.compute.port n).confirmation = .running 200 0 ∧ (s.compute.port n).live = .zero)
    ∧ ((s.port n).feedback = .closed → (s.compute.port n).state = .energized
        ∧ (s.compute.port n).live = s.compute.engine.ports[n].published) := by
  obtain ⟨x, hx⟩ := s.computed_port n
  have hconf (e : PortEnv) (p q : Port) : (Port.settle e p q).confirmation = q.confirmation := by
    rw [Port.settle_eq]
  rw [hx, hl, Port.settle_held, Port.settle_command, Port.settle_state, Port.settle_live, hconf]
  exact Port.publish_connected (p := { s.port n with session := x }) hs ht hp

theorem State.computed_held_still {x : Option Session} {sp : Setpoint} {latch : Bool}
    (h : Port.publish latch sp { s.port n with session := x } = { s.port n with session := x })
    (hx : s.compute.port n = Port.settle s.prepared.env { s.port n with session := x }
      { Port.publish latch sp { s.port n with session := x } with
        residue := s.prepared.newResidue s.prepared.work n }) :
    (s.compute.port n).held = (s.port n).held ∧ (s.compute.port n).state = (s.port n).state
    ∧ (s.compute.port n).command = (s.port n).command := by
  rw [hx, h]
  simp

/-- R66: every other port in CONNECTED keeps its setpoint. -/
theorem State.computed_connected_keeps (hs : (s.port n).state = .connected)
    (h : (s.port n).taken ≠ .ready ∨ s.protection.latch = true ∨ s.compute.engine.ports[n].published.mag = 0) :
    (s.compute.port n).held = (s.port n).held ∧ (s.compute.port n).state = .connected
    ∧ (s.compute.port n).command = (s.port n).command := by
  obtain ⟨x, hx⟩ := s.computed_port n
  have hnot : ¬ (s.compute.engine.ports[n].published.mag ≠ 0 ∧ (s.port n).taken = .ready
      ∧ s.protection.latch = false) := by
    rintro ⟨h1, h2, h3⟩
    rcases h with h | h | h
    · exact h h2
    · rw [h3] at h; cases h
    · exact h1 h
  rw [← hs]
  exact State.computed_held_still (by simp only [Port.publish, hs]; exact if_neg hnot) hx

/-- R66: ENERGIZING and ENERGIZED take every publication. -/
theorem State.computed_powered (hs : (s.port n).state = .energizing ∨ (s.port n).state = .energized) :
    (s.compute.port n).held = s.compute.engine.ports[n].published ∧ (s.compute.port n).state = (s.port n).state := by
  obtain ⟨x, hx⟩ := s.computed_port n
  rw [hx, Port.settle_held, Port.settle_state]
  rcases hs with hs | hs <;> simp [Port.publish, hs]

/-- R66: a port in any other state keeps its setpoint. -/
theorem State.computed_unpowered (h1 : (s.port n).state ≠ .connected) (h2 : (s.port n).state ≠ .energizing)
    (h3 : (s.port n).state ≠ .energized) :
    (s.compute.port n).held = (s.port n).held ∧ (s.compute.port n).state = (s.port n).state := by
  obtain ⟨x, hx⟩ := s.computed_port n
  have hkeep : Port.publish s.protection.latch s.compute.engine.ports[n].published { s.port n with session := x }
      = { s.port n with session := x } := by
    unfold Port.publish
    split
    · next h => exact absurd h h1
    · next h => exact absurd h h2
    · next h => exact absurd h h3
    · rfl
  obtain ⟨hheld, hstate, _⟩ := State.computed_held_still hkeep hx
  exact ⟨hheld, hstate⟩

end Takes

/-! ### The summary (R155) -/

theorem State.compute_base (s : State) : s.compute.site.lastBase = some s.prepared.work.base := by
  rw [s.compute_site, s.prepared_site, s.prepared.work_base, s.prepared_base]

theorem State.compute_available (s : State) : s.prepared.work.available =
    s.site.staged.feederLimit - s.prepared.work.base.watts - s.site.staged.margin := by
  have hlive : s.prepared.site.live = s.site.staged := by rw [s.prepared_site]
  rw [State.work_available, State.available, hlive, State.work_base]

theorem State.summaryOf_imports (s : State) (w : Working) (r : Vector PortResult 24) :
    (s.summaryOf w r).importTotal = (r.toList.map fun x => x.published.importW).sum := rfl

theorem State.summaryOf_exports (s : State) (w : Working) (r : Vector PortResult 24) :
    (s.summaryOf w r).exportTotal = (r.toList.map fun x => x.published.exportW).sum := rfl

theorem State.summaryOf_net (s : State) (w : Working) (r : Vector PortResult 24) :
    (s.summaryOf w r).net = ((s.summaryOf w r).importTotal : Int) - ((s.summaryOf w r).exportTotal : Int) := rfl

theorem State.compute_importTotal (s : State) :
    (s.prepared.summaryOf s.prepared.work (s.prepared.results s.prepared.work)).importTotal
      = (s.compute.engine.ports.toList.map fun r => r.published.importW).sum := by
  rw [s.compute_enginePorts, State.summaryOf_imports]

theorem State.compute_exportTotal (s : State) :
    (s.prepared.summaryOf s.prepared.work (s.prepared.results s.prepared.work)).exportTotal
      = (s.compute.engine.ports.toList.map fun r => r.published.exportW).sum := by
  rw [s.compute_enginePorts, State.summaryOf_exports]

theorem State.computed_total_latch {s : State} (h : s.protection.latch = true) {f : Setpoint → Nat}
    (hf : f .zero = 0) : (s.compute.engine.ports.toList.map fun r => f r.published).sum = 0 := by
  rw [s.compute_enginePorts, State.results_sum (f := fun r => f r.published)]
  refine List.sum_eq_zero fun w hw => ?_
  obtain ⟨n, _, rfl⟩ := List.mem_map.mp hw
  rw [← s.published_eq, State.published_zero (.inl h), hf]

/-! ### The direction memory over a command (R67) -/

theorem takeRequest_next {q : Request} {act : State → Reply} {s t : State} (h : takeRequest q act s = .next t) :
    t = s ∨ (s.takes q = true ∧ t = finishRequest q (act (s.modRing Ring.pop))) := by
  unfold takeRequest at h
  split at h
  · next hq => exact .inr ⟨hq, (Host.Outcome.next.inj h).symm⟩
  · exact .inl (Host.Outcome.next.inj h).symm

/-- R137: the ports under ALLOC_START are those of the computation it makes, or stay. -/
theorem applyAllocStart_published (s : State) (n : PortNo) :
    (s.port n).Published s.now ((applyAllocStart s).state.port n) := by
  unfold applyAllocStart
  split
  · exact .refl _ _
  · split
    · exact .refl _ _
    · exact s.startEngine_published n

theorem exec_published {s t : State} {i : Instr} (hi : publishes i = true) (h : exec i s = .next t) (n : PortNo) :
    (s.port n).Published s.now (t.port n) := by
  cases i with
  | allocationComputation =>
    have h : execAllocationComputation s = .next t := h
    unfold execAllocationComputation at h
    split at h
    · obtain rfl := Host.Outcome.next.inj h
      exact s.compute_published n
    · obtain rfl := Host.Outcome.next.inj h
      exact .refl _ _
  | allocStart r =>
    rcases takeRequest_next h with rfl | ⟨_, rfl⟩
    · exact .refl _ _
    · exact applyAllocStart_published (s.modRing Ring.pop) n
  | _ => cases hi

theorem exec_setTime_falls {s t : State} {r : ReqHeader} {v : Word} (ho : s.PortsOk) (hr : s.Recalls)
    (h : exec (.setTime r v) s = .next t) (n : PortNo) :
    (s.port n).HeldFalls s.now (t.port n) ∨ (s.port n).HeldFalls t.now (t.port n) := by
  rcases takeRequest_next h with rfl | ⟨_, rfl⟩
  · exact .inl (.refl _ _)
  · exact applySetTime_falls (s.modRing Ring.pop) v ho hr n

theorem exec_advance_falls {s t : State} (ho : s.PortsOk) (hr : s.Recalls)
    (h : exec .depotTimeAdvance s = .next t) (n : PortNo) : (s.port n).HeldFalls s.now (t.port n) := by
  have h : execDepotTimeAdvance s = .next t := h
  unfold execDepotTimeAdvance at h
  split at h
  · obtain rfl := Host.Outcome.next.inj h
    exact .refl _ _
  · split at h
    · obtain rfl := Host.Outcome.next.inj h
      exact s.advanceSecond_falls ho hr n
    · obtain rfl := Host.Outcome.next.inj h
      exact .refl _ _

/-- R66: at every command but POWER_ON and a publication a held setpoint only stays or falls. -/
theorem exec_held_falls {s t : State} {i : Instr} (ht : s.TablesOk) (ho : s.PortsOk) (hr : s.Recalls)
    (hq : publishes i = false) (hp : ∀ l, i ≠ .powerOn l) (h : exec i s = .next t) (n : PortNo) :
    (s.port n).HeldFalls s.now (t.port n) ∨ ((∃ r v, i = .setTime r v) ∧ (s.port n).HeldFalls t.now (t.port n)) := by
  by_cases hk : keepsTime i = true
  · exact .inl (exec_falls hp hk hq ht ho hr h n)
  · cases i with
    | setTime r v =>
      rcases exec_setTime_falls ho hr h n with h | h
      · exact .inl h
      · exact .inr ⟨⟨r, v, rfl⟩, h⟩
    | depotTimeAdvance => exact .inl (exec_advance_falls ho hr h n)
    | _ => exact absurd rfl hk

theorem Port.powerOn_recalls (n : PortNo) (m : Level × Level) : (Port.powerOn n m).Recalls :=
  ⟨fun h => absurd rfl h, fun _ => ⟨fun _ => rfl, fun _ => rfl⟩⟩

theorem exec_recalls {s t : State} {i : Instr} (ht : s.TablesOk) (ho : s.PortsOk) (hr : s.Recalls)
    (h : exec i s = .next t) : t.Recalls := by
  intro n
  have hdir := (ho n).fits.dir
  by_cases hp : ∃ l, i = .powerOn l
  · obtain ⟨l, rfl⟩ := hp
    have h : Host.Outcome.next (poweredOn l s.pending) = .next t := h
    obtain rfl := Host.Outcome.next.inj h
    rw [poweredOn_port]
    exact Port.powerOn_recalls n _
  · cases hq : publishes i with
    | true => exact (exec_published hq h n).recalls (hr n) hdir
    | false =>
      rcases exec_held_falls ht ho hr hq (fun l e => hp ⟨l, e⟩) h n with h | ⟨_, h⟩
      · exact h.recalls (hr n) hdir
      · exact h.recalls (hr n) hdir

theorem step_recalls {s t : State} (ht : s.TablesOk) (ho : s.PortsOk) (hr : s.Recalls) (h : step s = .next t) :
    t.Recalls := by
  unfold step at h
  split at h
  · obtain rfl := Host.Outcome.next.inj h
    intro n
    rw [s.tick_port]
    exact ⟨(hr n).moving, (hr n).still⟩
  · next c rest _ =>
    exact exec_recalls (s := { s with pending := rest }) ⟨ht.buses, ht.plans, ht.planGens, ht.commits, ht.commitGens,
      ht.numbers⟩ ho hr h

/-- Settles O36: what one computation leaves, field by field and port by port, then the memory over every step. -/
theorem computationPublishes : Obligations.ComputationPublishes := by
  refine ⟨fun s => ⟨fun h => ?idle, fun hr ht => ?computes⟩, fun s t hr ht h n => ?grants,
    fun s t i hi h n => exec_published hi h n, fun s t i ht ho hr hq hp h n => exec_held_falls ht ho hr hq hp h n,
    fun s t ht ho hr h => step_recalls ht ho hr h, fun n => by rw [reset_port]; exact Port.powerOn_recalls n _⟩
  case idle =>
    show execAllocationComputation s = .next s
    unfold execAllocationComputation
    rcases h with h | h
    · rw [h]; rfl
    · rw [h]; cases s.engine.running <;> rfl
  case computes =>
    have hexec := exec_allocationComputation hr ht
    have hsummary := s.compute_summary
    have hsite := s.compute_site.trans s.prepared_site
    have hengine : s.compute.engine.running = true
        ∧ s.compute.engine.timer = .running (s.site.staged.allocPeriod * 1000) 0
        ∧ s.compute.engine.number = min (s.engine.number + 1) 4294967295 := by rw [s.compute_eq]; exact ⟨hr, rfl, rfl⟩
    have hrest : s.compute.supervision = s.supervision ∧ s.compute.protection = s.protection := by
      rw [s.compute_eq]; exact ⟨s.prepared_supervision, s.prepared_protection⟩
    have hbase := s.compute_base
    have himport := s.compute_importTotal
    have hexport := s.compute_exportTotal
    have hlatch := fun hl : s.protection.latch = true =>
      And.intro (State.computed_total_latch (f := Setpoint.importW) hl rfl)
        (State.computed_total_latch (f := Setpoint.exportW) hl rfl)
    have hplans := s.compute_plans
    have hport := fun n : PortNo => And.intro (State.published_zero (s := s) (n := n))
      (And.intro (State.computed_connected (s := s) (n := n))
        (And.intro (State.computed_connected_keeps (s := s) (n := n))
          (And.intro (State.computed_powered (s := s) (n := n))
            (And.intro (State.computed_unpowered (s := s) (n := n)) (State.published_rested (s := s) (n := n))))))
    generalize s.compute = t at *
    refine ⟨t, _, hexec, by rw [hsite], by rw [hsite], by rw [hsite], by rw [hsite], hengine.1, hengine.2.1,
      hengine.2.2, hsummary, s.prepared_now, hbase, s.compute_available, himport, hexport, State.summaryOf_net _ _ _,
      congrArg Supervision.state s.prepared_supervision,
      fun hl => ⟨himport.trans (hlatch hl).1, hexport.trans (hlatch hl).2⟩, hrest.1, hrest.2, hplans, hport⟩
  case grants =>
    obtain rfl := compute_of_exec hr ht h
    refine ⟨?_, ?_⟩
    · rw [s.computed_removed n, Port.restRemoves_iff]
      rfl
    · exact (s.computed_published n).trans (formSetpoint_eq _ _ _ _)

end Sys2Proof.Machine
end

section
/-! What the Reserve Unit reads from a computation (09, R163, R168), then ALLOC_START and ALLOC_STOP (08). -/

namespace Sys2Proof.Machine

open Sys2Proof

/-! ### The Reserve Unit's reading -/

/-- R163, R168: what the Reserve Unit makes of a commitment when it reads the recorded results. -/
def State.reads (s : State) (c : Commitment) : Commitment :=
  match c.state with
  | .armed => c.takeHeadroom (s.headroomOf c) s.engine.number
  | .active => c.account s.recordedNet s.site.live.allocPeriod
  | _ => c

theorem State.reserveReads_commit (s : State) (i : Nat) : s.reserveReads.commit i = (s.commit i).map s.reads :=
  Table.get_mapRows s.commits s.reads i

section Reads

variable {s : State} {i : Nat} {c : Commitment}

theorem State.reserveReads_active (h : s.commit i = some c) (hc : c.state = .active) :
    s.reserveReads.commit i = some (c.account s.recordedNet s.site.live.allocPeriod) := by
  rw [State.reserveReads_commit, h]
  simp only [Option.map_some, State.reads, hc]

theorem State.reserveReads_armed (h : s.commit i = some c) (hc : c.state = .armed) :
    s.reserveReads.commit i = some (c.takeHeadroom (s.headroomOf c) s.engine.number) := by
  rw [State.reserveReads_commit, h]
  simp only [Option.map_some, State.reads, hc]

theorem State.recordedNet_of {x : Summary} (h : s.engine.summary = some x) : s.recordedNet = x.net := by
  simp only [State.recordedNet, h]

end Reads

theorem State.reserveReads_engine (s : State) : s.reserveReads.engine = s.engine := rfl

/-- R155: the state from which the Reserve Unit reads. -/
def State.recorded (s : State) : State :=
  (s.prepared.publishAll s.prepared.work).recordAll s.prepared s.prepared.work

theorem State.compute_eq_reads (s : State) : s.compute = s.recorded.reserveReads := rfl

theorem State.recordAll_eq (s before : State) (w : Working) : s.recordAll before w =
    { s with engine := (s.recordAll before w).engine } := rfl

theorem State.publishAll_eq (s : State) (w : Working) : s.publishAll w =
    { s with ports := (s.publishAll w).ports } := rfl

theorem State.recorded_commits (s : State) : s.recorded.commits = s.prepared.commits := by
  rw [State.recorded, State.recordAll_eq, State.publishAll_eq]

theorem State.recorded_site (s : State) : s.recorded.site = s.prepared.site := by
  rw [State.recorded, State.recordAll_eq, State.publishAll_eq]

theorem State.recorded_commit (s : State) (i : Nat) : s.recorded.commit i = s.prepared.commit i :=
  congrArg (Table.get · i) s.recorded_commits

theorem State.recorded_net (s : State) : s.recorded.recordedNet =
    (s.prepared.summaryOf s.prepared.work (s.prepared.results s.prepared.work)).net := by
  have hsummary := s.compute_summary
  rw [s.compute_eq_reads, State.reserveReads_engine] at hsummary
  exact State.recordedNet_of hsummary

theorem State.recorded_period (s : State) : s.recorded.site.live.allocPeriod = s.site.staged.allocPeriod := by
  rw [s.recorded_site, s.prepared_site]

/-- R163: the reading of headroom does not read the commitments. -/
theorem State.reserveReads_headroom (s : State) (c : Commitment) : s.reserveReads.headroomOf c = s.headroomOf c := rfl

/-- R168: one period of an ACTIVE commitment, written out. -/
theorem Commitment.account_eq (net : Int) (period : Nat) (c : Commitment) {bl : Int} (h : c.baseline = some bl) :
    c.account net period =
      { c with
        relief := some (bl - net), periods := min (c.periods + 1) 65535
        shortPeriods := if bl - net < c.target then min (c.shortPeriods + 1) 65535 else c.shortPeriods
        delivered := min (c.delivered + (c.carry + min c.target (bl - net).toNat * period) / 3600) 4294967295
        carry := (c.carry + min c.target (bl - net).toNat * period) % 3600 } := by
  simp only [Commitment.account, h, Option.getD_some, addHalf, addWord, maxWord]

/-- R163: the headroom that an ARMED commitment takes, written out. -/
theorem Commitment.takeHeadroom_eq (watts computation : Nat) (c : Commitment) : c.takeHeadroom watts computation =
    { c with
      headroom := some ⟨min watts 4294967295, computation⟩
      headroomLow := decide (watts < c.target)
      flags := if watts < c.target ∧ c.headroomLow = false then c.flags ||| CommitFlag.headroomLow else c.flags } := by
  have hc : (decide (watts < c.target) && !c.headroomLow) = true ↔ watts < c.target ∧ c.headroomLow = false := by
    simp
  unfold Commitment.takeHeadroom
  dsimp only
  by_cases h : watts < c.target ∧ c.headroomLow = false
  · rw [if_pos (hc.mpr h), if_pos h]; rfl
  · rw [if_neg fun e => h (hc.mp e), if_neg h]; rfl

/-- R163 items 1 and 2. -/
theorem State.importHeadroom_off {s : State} {n : PortNo}
    (h : s.engine.ports[n].restRemoved = true ∨ s.protection.latch = true) : s.importHeadroom n = 0 := by
  have hpub : s.asPublished n = false := by
    rcases h with h | h <;> simp only [State.asPublished, h, Bool.not_true, Bool.false_and, Bool.and_false]
  rw [State.importHeadroom, hpub]
  rfl

theorem State.importHeadroom_on {s : State} {n : PortNo}
    (h : ¬ (s.engine.ports[n].restRemoved = true ∨ s.protection.latch = true)) : s.importHeadroom n =
      s.engine.ports[n].splitGrant + (if (s.port n).session.isSome ∧ (s.port n).boundSlot = none then
        s.engine.ports[n].tierA else 0) := by
  obtain ⟨h1, h2⟩ := not_or.mp h
  have hpub : s.asPublished n = true := by
    simp only [State.asPublished, Bool.and_eq_true, Bool.not_eq_true']
    exact ⟨Bool.eq_false_iff.mpr h1, Bool.eq_false_iff.mpr h2⟩
  rw [State.importHeadroom, if_pos hpub]
  cases hx : (s.port n).session with
  | none => simp
  | some x => cases hb : x.binding <;> simp [Port.boundSlot, hx, hb]

/-- R163 item 3: a bus that leaves before the window's end gives no export. -/
theorem State.exportHeadroom_at {s : State} {windowEnd i : Nat} {b : Bus} {n : PortNo} (hl : b.location = some n) :
    s.exportHeadroom windowEnd i b = if s.exportEligible i b = true
        ∧ ¬ (∃ d, b.departure = some d ∧ d.state = .pending ∧ d.tDep < windowEnd)
      then down100 (s.exportTop n) else 0 := by
  unfold State.exportHeadroom
  rw [hl]
  dsimp only
  cases hd : b.departure with
  | none => simp [State.exportTop]
  | some d =>
    refine if_congr ?_ rfl rfl
    by_cases hp : d.state = .pending <;> simp [hp]

theorem State.exportHeadroom_away {s : State} {windowEnd i : Nat} {b : Bus} (hl : b.location = none) :
    s.exportHeadroom windowEnd i b = 0 := by
  unfold State.exportHeadroom
  rw [hl]

/-- Settles O37: what the Reserve Unit reads for the ACTIVE commitment and for an ARMED one. -/
theorem computationReliefAndHeadroom : Obligations.ComputationReliefAndHeadroom := by
  refine ⟨fun s i c bl htab hr ht hc hact hbl => ?relief, fun s t i c htab hr ht h hc harm => ?headroom⟩
  case relief =>
    have hcommit := (s.recorded_commit i).trans ((State.prepared_active htab hact).mpr hc)
    have hexec := exec_allocationComputation hr ht
    have hsummary := s.compute_summary
    have hsome : (s.prepared.summaryOf s.prepared.work (s.prepared.results s.prepared.work)).commitActive = true := by
      rw [State.summaryOf_commitActive, Option.isSome_iff_ne_none]
      exact fun hnone => State.activeCommit_none hnone i c ((State.prepared_active htab hact).mpr hc) hact
    have haccount : s.compute.commit i = some (c.account s.recorded.recordedNet s.recorded.site.live.allocPeriod) := by
      rw [s.compute_eq_reads]
      exact State.reserveReads_active hcommit hact
    rw [s.recorded_net, s.recorded_period, Commitment.account_eq _ _ c hbl] at haccount
    generalize s.compute = t at *
    generalize s.prepared.summaryOf s.prepared.work (s.prepared.results s.prepared.work) = x at *
    exact ⟨t, x, hexec, hsummary, hsome, haccount⟩
  case headroom =>
    obtain rfl := compute_of_exec hr ht h
    have hlatch : s.compute.protection = s.protection := by rw [s.compute_eq, s.prepared_protection]
    have htake : s.compute.commit i = some (c.takeHeadroom (s.compute.headroomOf c) s.compute.engine.number) := by
      rw [s.compute_eq_reads, State.reserveReads_headroom, State.reserveReads_engine]
      exact State.reserveReads_armed ((s.recorded_commit i).trans hc) harm
    rw [Commitment.takeHeadroom_eq] at htake
    generalize s.compute = t at *
    intro stopped leaves exported watts
    have hstopped : ∀ n, t.importHeadroom n = stopped n := fun n => by
      by_cases hoff : t.engine.ports[n].restRemoved = true ∨ t.protection.latch = true
      · rw [State.importHeadroom_off hoff, hlatch] at *
        exact (if_pos hoff).symm
      · rw [State.importHeadroom_on hoff, hlatch] at *
        refine Eq.trans ?_ (if_neg hoff).symm
        cases hx : (t.port n).session with
        | none => simp
        | some x => cases hb : x.binding <;> simp [Port.boundSlot, hx, hb]
    have hexported : ∀ k b, t.exportHeadroom c.windowEnd k b = exported k b := fun k b => by
      have hleaves : leaves b = false ↔
          ¬ ∃ d, b.departure = some d ∧ d.state = .pending ∧ d.tDep < c.windowEnd := by
        show (match b.departure with | some d => _ | none => false) = false ↔ _
        cases b.departure <;> simp
      show _ = (match b.location with | some n => _ | none => 0)
      cases hl : b.location with
      | none => exact State.exportHeadroom_away hl
      | some n =>
        rw [State.exportHeadroom_at hl]
        exact if_congr (and_congr_right' hleaves.symm) rfl rfl
    have hwatts : t.headroomOf c = watts := by
      show _ = (allPorts.map stopped).sum + (t.buses.rows.map fun r => exported r.1 r.2).sum
      unfold State.headroomOf
      rw [funext hstopped, funext fun r : Nat × Bus => hexported r.1 r.2]
    rw [htake, hwatts]

/-! ### Supervision and the flags of the site -/

/-- R180: a change of the supervision state sets SUPERVISION. -/
theorem State.superviseAs_eq (s : State) (st : SupState) (t : Timer) : s.superviseAs st t =
    { s with
      supervision := ⟨st, t⟩
      siteFlags := if s.supervision.state = st then s.siteFlags else s.siteFlags ||| SiteFlag.supervision } := by
  unfold State.superviseAs
  dsimp only
  split <;> rfl

theorem SiteFlag.supervision_bit (f : BitVec 6) : (f ||| SiteFlag.supervision).getLsbD 2 = true := by
  rw [BitVec.getLsbD_or]
  simp [SiteFlag.supervision]

theorem State.takeBase_flags (s : State) : s.takeBase.siteFlags = s.siteFlags
    ∨ s.takeBase.siteFlags = s.siteFlags ||| SiteFlag.baseLoadStale := by
  unfold State.takeBase
  dsimp only
  split
  · exact .inr rfl
  · exact .inl rfl

theorem State.load_flags (s : State) : s.load.siteFlags = s.siteFlags := by rw [s.load_eq]

/-- A flag of the site that is set before a computation is set after it. -/
theorem State.compute_flags {s : State} {k : Nat} (h : s.siteFlags.getLsbD k = true) :
    s.compute.siteFlags.getLsbD k = true := by
  have hcompute : s.compute.siteFlags = s.load.takeBase.siteFlags := by rw [s.compute_eq]; rfl
  rw [hcompute]
  rcases s.load.takeBase_flags with hf | hf
  · rw [hf, s.load_flags, h]
  · rw [hf, s.load_flags, BitVec.getLsbD_or, h, Bool.true_or]

/-! ### ALLOC_START (R137) -/

theorem exec_allocStart (h : ReqHeader) (s : State) :
    exec (.allocStart h) s = takeRequest ⟨h, .allocStart⟩ applyAllocStart s := rfl

/-- R137: the state that ALLOC_START's computation is made from. -/
def State.supervisedRunning (s : State) : State :=
  { s with
    engine := { s.engine with running := true }
    supervision := ⟨.supervised, .start (s.site.live.supervision * 1000)⟩
    siteFlags :=
      if s.supervision.state = .supervised then s.siteFlags else s.siteFlags ||| SiteFlag.supervision }

theorem State.startEngine_eq (s : State) : s.startEngine = s.supervisedRunning.compute := by
  rw [State.startEngine, State.superviseAs_eq]
  rfl

theorem allocTotals_of {s : State} {x : Summary} (h : s.engine.summary = some x) :
    allocTotals s = .allocTotals s.engine.number x.available x.importTotal x.exportTotal x.net := by
  simp only [allocTotals, h]

theorem State.startEngine_ring (s : State) : s.startEngine.ring = s.ring := by
  rw [s.startEngine_eq]
  exact s.supervisedRunning.compute_moves.besides.ring

/-- R137: what ALLOC_START leaves of the engine, of supervision and of the site. -/
theorem State.startEngine_spec (s : State) : ∃ x : Summary,
    s.startEngine.engine.summary = some x ∧ s.startEngine.engine.running = true
    ∧ s.startEngine.engine.number = min (s.engine.number + 1) 4294967295
    ∧ s.startEngine.engine.timer = .running (s.site.staged.allocPeriod * 1000) 0
    ∧ s.startEngine.supervision = ⟨.supervised, .running (s.site.live.supervision * 1000) 0⟩
    ∧ (s.supervision.state ≠ .supervised → s.startEngine.siteFlags.getLsbD 2 = true)
    ∧ x.time = s.now ∧ x.supervision = .supervised ∧ s.startEngine.site.live = s.site.staged := by
  rw [s.startEngine_eq]
  have hengine : s.supervisedRunning.compute.engine.running = true
      ∧ s.supervisedRunning.compute.engine.number = min (s.engine.number + 1) 4294967295
      ∧ s.supervisedRunning.compute.engine.timer = .running (s.site.staged.allocPeriod * 1000) 0 := by
    rw [State.compute_eq]; exact ⟨rfl, rfl, rfl⟩
  have hsupervision : s.supervisedRunning.prepared.supervision
      = ⟨.supervised, .running (s.site.live.supervision * 1000) 0⟩ := State.prepared_supervision _
  have hcomputed : s.supervisedRunning.compute.supervision = s.supervisedRunning.prepared.supervision := by
    rw [State.compute_eq]
  have hflags : s.supervision.state ≠ .supervised → s.supervisedRunning.siteFlags.getLsbD 2 = true := fun hs => by
    rw [State.supervisedRunning, if_neg hs]
    exact SiteFlag.supervision_bit _
  have hlive : s.supervisedRunning.compute.site.live = s.site.staged := by
    rw [State.compute_site, State.prepared_site]; rfl
  refine ⟨_, State.compute_summary _, hengine.1, hengine.2.1, hengine.2.2, hcomputed.trans hsupervision,
    fun hs => State.compute_flags (hflags hs), ?_, ?_, hlive⟩
  · rw [State.summaryOf_time]
    exact State.prepared_now _
  · rw [State.summaryOf_supervision, hsupervision]

section Start

variable {s : State}

theorem applyAllocStart_unset (h : s.clock.mode = .unset) : applyAllocStart s = refuse s .timeUnset := if_pos h

theorem applyAllocStart_running (hm : s.clock.mode = .set) (h : s.engine.running = true) :
    applyAllocStart s = refuse s .allocState := by
  rw [applyAllocStart, if_neg (by rw [hm]; decide), if_pos h]

theorem applyAllocStart_starts (hm : s.clock.mode = .set) (h : s.engine.running = false) :
    applyAllocStart s = ⟨s.startEngine, .ok, allocTotals s.startEngine⟩ := by
  rw [applyAllocStart, if_neg (by rw [hm]; decide), if_neg (by rw [h]; decide)]

end Start

/-- Settles O38: the two refusals, then the computation that ALLOC_START makes. -/
theorem allocStartComputesAtOnce : Obligations.AllocStartComputesAtOnce := by
  intro h s hq
  refine ⟨fun hm => takeRequest_refused hq (applyAllocStart_unset hm),
    fun hm hr => takeRequest_refused hq (applyAllocStart_running hm hr), fun hm hr => ?_⟩
  obtain ⟨x, hx, hspec⟩ := (s.modRing Ring.pop).startEngine_spec
  have hanswer := takeRequest_reply hq (applyAllocStart_starts (s := s.modRing Ring.pop) hm hr)
    (State.startEngine_ring _)
  dsimp only at hanswer
  rw [← exec_allocStart, allocTotals_of hx] at hanswer
  generalize (s.modRing Ring.pop).startEngine = u at *
  exact ⟨u, x, hanswer, hx, hspec⟩

/-! ### ALLOC_STOP (R138) -/

theorem exec_allocStop (h : ReqHeader) (s : State) :
    exec (.allocStop h) s = takeRequest ⟨h, .allocStop⟩ applyAllocStop s := rfl

theorem State.endCommit_onlyReserve (s : State) (i : Nat) (o : CommitState) : s.OnlyReserve (s.endCommit i o) :=
  (State.modCommit_onlyReserve _ _ _).trans (State.withdraw_onlyRegs _ _).reserve

theorem State.interruptActive_onlyReserve (s : State) : s.OnlyReserve s.interruptActive := by
  unfold State.interruptActive
  split
  · exact s.endCommit_onlyReserve _ _
  · exact ⟨rfl, List.Sublist.refl _⟩

/-- R170: the commitment that has ended. -/
theorem State.endCommit_interrupted {s : State} {i : Nat} {c : Commitment} (h : s.commit i = some c) :
    (s.endCommit i .interrupted).commits = s.commits.put i { c with
      state := .interrupted, outcome := some .interrupted, endTime := some s.now
      flags := c.flags ||| CommitFlag.ended } := by
  unfold State.endCommit State.modCommit
  rw [h]
  rfl

theorem State.register_commit (s : State) (k : RegKind) (j v i : Nat) : (s.register k j v).commit i = s.commit i :=
  congrArg (Table.get · i) (register_commits s k j v)

theorem State.withdraw_commit (s : State) (f : Registration → Bool) (i : Nat) :
    (s.withdraw f).commit i = s.commit i := rfl

/-- R161: a commitment in a slot of which no row is PENDING stays as it is under a load. -/
theorem State.load_commit_kept {s : State} {i : Nat} (h : ∀ r ∈ s.commits.rows, r.1 = i → r.2.state ≠ .pending) :
    s.load.commit i = s.commit i := by
  have hpoint (t : State) (lead j : Nat) (c : Commitment) (hj : j ≠ i) :
      (t.reloadArmPoint lead j c).commit i = t.commit i := by
    unfold State.reloadArmPoint
    dsimp only
    split
    · rw [State.register_commit, State.withdraw_commit, State.register_commit, State.commit_modCommit,
        if_neg (Ne.symm hj)]
      rfl
    · rw [State.commit_modCommit, if_neg (Ne.symm hj), State.commit_modCommit, if_neg (Ne.symm hj)]
      rfl
  have hfold (lead : Nat) : ∀ (l : List (Nat × Commitment)) (t : State), (∀ r ∈ l, r.1 = i → r.2.state ≠ .pending) →
      (l.foldl (fun t r => if r.2.state = .pending then t.reloadArmPoint lead r.1 r.2 else t) t).commit i
        = t.commit i := by
    intro l
    induction l with
    | nil => exact fun t _ => rfl
    | cons r l ih =>
      intro t hl
      obtain ⟨hr, hl⟩ := List.forall_mem_cons.mp hl
      rw [List.foldl_cons, ih _ hl]
      split
      · next hp => exact hpoint t lead r.1 r.2 fun e => hr e hp
      · rfl
  have hbefore : s.beforeArmLead.commit i = s.commit i := congrArg (Table.get · i) s.beforeArmLead_commits
  rw [s.load_eq_reloadArmLead, State.reloadArmLead]
  split
  · exact hbefore
  · rw [hfold _ _ _ (by rw [s.beforeArmLead_commits]; exact h), hbefore]

theorem State.updPorts_port (s : State) (f : PortNo → Port → Port) (n : PortNo) :
    (s.updPorts f).port n = Port.settle s.env (s.port n) (f n (s.port n)) := by
  simp only [State.port, updPorts_ports, Fin.getElem_fin, Vector.getElem_ofFn]

/-- R138: the ports and the engine stopped. -/
@[irreducible] def State.stopped (s : State) : State :=
  State.updPorts (fun _ p => { p.zeroHeld with residue := 0 }) { s with engine := s.engine.stop }

theorem State.stopped_eq (s : State) :
    s.stopped = { s with engine := s.engine.stop, ports := s.stopped.ports } := by
  rw [State.stopped]
  rfl

theorem State.stopped_port (s : State) (n : PortNo) :
    s.stopped.port n = Port.settle s.env (s.port n) { (s.port n).zeroHeld with residue := 0 } := by
  rw [State.stopped]
  exact State.updPorts_port { s with engine := s.engine.stop } (fun _ p => { p.zeroHeld with residue := 0 }) n

/-- The state that ALLOC_STOP's load starts from. -/
def State.beforeStopLoad (s : State) : State := s.stopped.interruptActive.superviseAs .supervised .stopped

theorem State.stopEngine_eq (s : State) : s.stopEngine = s.beforeStopLoad.load := by
  rw [State.stopEngine, State.beforeStopLoad, State.stopped]

theorem State.OnlyReserve.exists {s t : State} (h : s.OnlyReserve t) :
    ∃ clock commits, t = { s with clock := clock, commits := commits } := ⟨_, _, h.rest⟩

theorem State.OnlyReserve.superviseAs {s t : State} (h : s.OnlyReserve t) (st : SupState) (x : Timer) :
    ∃ clock, t.superviseAs st x = { s with
      clock := clock, commits := t.commits, supervision := ⟨st, x⟩
      siteFlags := if s.supervision.state = st then s.siteFlags else s.siteFlags ||| SiteFlag.supervision } := by
  obtain ⟨clock, commits, rfl⟩ := h.exists
  exact ⟨clock, State.superviseAs_eq _ _ _⟩

theorem State.beforeStopLoad_eq (s : State) : ∃ clock, s.beforeStopLoad = { s with
    clock := clock, commits := s.stopped.interruptActive.commits, supervision := ⟨.supervised, .stopped⟩
    siteFlags := if s.supervision.state = .supervised then s.siteFlags else s.siteFlags ||| SiteFlag.supervision
    engine := s.engine.stop, ports := s.stopped.ports } := by
  obtain ⟨clock, h⟩ := s.stopped.interruptActive_onlyReserve.superviseAs .supervised .stopped
  refine ⟨clock, ?_⟩
  rw [State.beforeStopLoad, h]
  generalize s.stopped.interruptActive.commits = commits
  rw [s.stopped_eq]

/-- R138: the ACTIVE commitment is INTERRUPTED. -/
theorem State.stopEngine_commit {s : State} {i : Nat} {c : Commitment} (ha : s.activeCommit = some (i, c))
    (hc : s.commit i = some c) : s.stopEngine.commit i = some { c with
      state := .interrupted, outcome := some .interrupted, endTime := some s.now
      flags := c.flags ||| CommitFlag.ended } := by
  have hcommits : s.stopped.commits = s.commits := by rw [s.stopped_eq]
  have hnow : s.stopped.now = s.now := by rw [s.stopped_eq]; rfl
  have hactive : s.stopped.activeCommit = some (i, c) := by rw [State.activeCommit, hcommits]; exact ha
  have hcommit : s.stopped.commit i = some c := (congrArg (Table.get · i) hcommits).trans hc
  have hended : s.beforeStopLoad.commits = s.commits.put i { c with
      state := .interrupted, outcome := some .interrupted, endTime := some s.now
      flags := c.flags ||| CommitFlag.ended } := by
    obtain ⟨clock, hbefore⟩ := s.beforeStopLoad_eq
    rw [hbefore, State.interruptActive, hactive, ← hnow, ← hcommits]
    exact State.endCommit_interrupted hcommit
  have hload : s.stopEngine.commit i = s.beforeStopLoad.commit i := by
    rw [s.stopEngine_eq]
    refine State.load_commit_kept (s := s.beforeStopLoad) fun r hr he => ?_
    rw [hended, Table.mem_put] at hr
    rcases hr with rfl | ⟨_, hne⟩
    · exact fun h => by cases h
    · exact absurd he hne
  rw [hload, State.commit, hended, Table.get_put_self]

/-- R138: what ALLOC_STOP leaves of a port. -/
theorem State.stopEngine_port (s : State) (n : PortNo) : (s.port n).PowerOff s.now (s.stopEngine.port n)
    ∧ (s.stopEngine.port n).residue = 0 ∧ (s.stopEngine.port n).state = (s.port n).state
    ∧ (s.stopEngine.port n).command = (s.port n).command
    ∧ ((s.port n).state = .energized → (s.port n).held.mag ≠ 0 →
        (s.stopEngine.port n).openDelay = .running 60000 0) := by
  obtain ⟨x, hx⟩ := s.beforeStopLoad.load_port n
  have hports : s.beforeStopLoad.ports = s.stopped.ports := by
    obtain ⟨clock, hbefore⟩ := s.beforeStopLoad_eq
    rw [hbefore]
  rw [State.port_of_ports hports, s.stopped_port] at hx
  have hoff := Port.settle_powerOff s.env (s.port n) { (s.port n).zeroHeld with residue := 0 } rfl rfl rfl rfl
  have hdelay : (s.port n).state = .energized → (s.port n).held.mag ≠ 0 →
      (Port.settle s.env (s.port n) { (s.port n).zeroHeld with residue := 0 }).openDelay = .running 60000 0 :=
    fun hs hm => by
      rw [Port.settle_openDelay, if_pos, if_neg]
      · rfl
      · simpa [Port.live, hs] using hm
      · simp [Port.live, Port.zeroHeld, hs, Setpoint.zero]
  have hkeep : (Port.settle s.env (s.port n) { (s.port n).zeroHeld with residue := 0 }).residue = 0
      ∧ (Port.settle s.env (s.port n) { (s.port n).zeroHeld with residue := 0 }).state = (s.port n).state
      ∧ (Port.settle s.env (s.port n) { (s.port n).zeroHeld with residue := 0 }).command = (s.port n).command := by
    simp [Port.zeroHeld]
  rw [s.stopEngine_eq, hx]
  generalize Port.settle s.env (s.port n) { (s.port n).zeroHeld with residue := 0 } = q at *
  exact ⟨⟨hoff.held, hoff.live, hoff.zeroSince, hoff.lastDir, hoff.frame⟩, hkeep.1, hkeep.2.1, hkeep.2.2, hdelay⟩

section Stop

variable {s : State}

theorem applyAllocStop_stopped (h : s.engine.running = false) : applyAllocStop s = refuse s .allocState := by
  rw [applyAllocStop, if_neg (by rw [h]; decide)]

theorem applyAllocStop_stops (h : s.engine.running = true) :
    applyAllocStop s = ⟨s.stopEngine, .ok, .allocNumber s.engine.number⟩ := if_pos h

end Stop

theorem State.stopEngine_engine (s : State) : s.stopEngine.engine = s.engine.stop := by
  obtain ⟨clock, hbefore⟩ := s.beforeStopLoad_eq
  rw [s.stopEngine_eq, State.load_eq, hbefore]

theorem Engine.stop_ports (e : Engine) (n : PortNo) : e.stop.ports[n] = { e.ports[n] with split := .none } := by
  simp [Engine.stop]

theorem State.stopEngine_site (s : State) : s.stopEngine.site.live = s.site.staged
    ∧ s.stopEngine.site.liveRatings = s.site.stagedRatings := by
  obtain ⟨clock, hbefore⟩ := s.beforeStopLoad_eq
  rw [s.stopEngine_eq, State.load_site, hbefore]
  exact ⟨rfl, rfl⟩

theorem State.stopEngine_beside (s : State) : s.stopEngine.supervision = ⟨.supervised, .stopped⟩
    ∧ s.stopEngine.plans = s.plans ∧ s.stopEngine.protection = s.protection ∧ s.stopEngine.ring = s.ring
    ∧ s.stopEngine.siteFlags =
        if s.supervision.state = .supervised then s.siteFlags else s.siteFlags ||| SiteFlag.supervision := by
  obtain ⟨clock, hbefore⟩ := s.beforeStopLoad_eq
  rw [s.stopEngine_eq, State.load_eq, hbefore]
  exact ⟨rfl, rfl, rfl, rfl, rfl⟩

/-- Settles O39: the refusal, then the engine, the ports and the commitment that ALLOC_STOP leaves. -/
theorem allocStopZeroesEveryPort : Obligations.AllocStopZeroesEveryPort := by
  intro h s hq
  refine ⟨fun hr => takeRequest_refused hq (applyAllocStop_stopped hr), fun hr => ?_⟩
  obtain ⟨hsup, hplans, hprot, hring, hflags⟩ := (s.modRing Ring.pop).stopEngine_beside
  obtain ⟨hlive, hratings⟩ := (s.modRing Ring.pop).stopEngine_site
  have hengine := (s.modRing Ring.pop).stopEngine_engine
  have hport := (s.modRing Ring.pop).stopEngine_port
  have hcommit := fun i c => State.stopEngine_commit (s := s.modRing Ring.pop) (i := i) (c := c)
  have hanswer := takeRequest_reply hq (applyAllocStop_stops (s := s.modRing Ring.pop) hr) hring
  dsimp only at hanswer
  rw [← exec_allocStop] at hanswer
  generalize (s.modRing Ring.pop).stopEngine = u at *
  refine ⟨u, hanswer, by rw [hengine]; rfl, by rw [hengine]; rfl, by rw [hengine]; rfl, by rw [hengine]; rfl, hsup,
    fun hs => ?_, hlive, hratings, hplans, hprot, fun n => ?_, hcommit⟩
  · rw [hflags]
    exact (congrArg (BitVec.getLsbD · 2) (if_neg hs)).trans (SiteFlag.supervision_bit _)
  · obtain ⟨hoff, hresidue, hstate, hcommand, hdelay⟩ := hport n
    exact ⟨hoff, hresidue, hstate, hcommand, by rw [hengine]; exact Engine.stop_ports _ n, hdelay⟩

end Sys2Proof.Machine
end

section
/-! Depot time (01): the end of a second, SET_TIME by its table, the rollover crossing and its boundary, and the base
load. -/

namespace Sys2Proof.Machine

open Sys2Proof

/-! ### The end of a second (R1, R3) -/

theorem State.settleCrossings_idle {s : State} (h : s.clock.fired = []) : s.settleCrossings = s := by
  rw [State.settleCrossings, h]
  rfl

theorem State.settleCrossings_now (s : State) : s.settleCrossings.now = s.now :=
  s.settleCrossings_moves.now rfl

theorem execDepotTimeAdvance_unset {s : State} (h : s.clock.mode = .unset) : execDepotTimeAdvance s = .next s := by
  simp only [execDepotTimeAdvance, h]

theorem execDepotTimeAdvance_due {s : State} (hm : s.clock.mode = .set) (hp : 1000 ≤ s.clock.phase) :
    execDepotTimeAdvance s = .next s.advanceSecond := by
  simp only [execDepotTimeAdvance, hm, Clock.secondOver, hp, decide_true, if_true]

theorem State.advanceSecond_below {s : State} (h : s.now < 4294967295) : s.advanceSecond =
    (s.settleCrossings.setDepotTime (s.now + 1)).fire fun r => r.time == s.now + 1 := by
  unfold State.advanceSecond
  dsimp only
  rw [s.settleCrossings_now]
  exact if_pos h

theorem State.advanceSecond_last {s : State} (h : s.now = 4294967295) : s.advanceSecond =
    s.settleCrossings.setDepotTime s.now := by
  unfold State.advanceSecond
  dsimp only
  rw [s.settleCrossings_now]
  exact if_neg (by rw [h]; decide)

/-- A second's end changes the clock alone, once the crossings that wait are handed over. -/
theorem State.advanceSecond_eq (s : State) :
    s.advanceSecond = { s.settleCrossings with clock := s.advanceSecond.clock }
    ∧ s.advanceSecond.clock.phase = 0 ∧ s.advanceSecond.clock.day = s.settleCrossings.clock.day
    ∧ s.advanceSecond.clock.mode = s.settleCrossings.clock.mode := by
  unfold State.advanceSecond
  dsimp only
  split <;> exact ⟨rfl, rfl, rfl, rfl⟩

/-- Registrations that fire at one time are handed over by owner and slot; those of one record keep their order. -/
theorem fired_keep_order (regs : List Registration) (time owner slot : Nat) :
    (sortBy handOverBefore (regs.filter fun r => r.time == time)).filter
        (fun r => r.kind.owner == owner && r.slot == slot)
      = (regs.filter fun r => r.time == time).filter fun r => r.kind.owner == owner && r.slot == slot := by
  have hat : ∀ l : List Registration, (∀ r ∈ l, r.time = time) →
      l.filter (fun r => r.kind.owner == owner && r.slot == slot)
        = l.filter fun r => (r.kind.owner == owner && r.slot == slot) && r.time == time := by
    intro l hl
    refine List.filter_congr fun r hr => ?_
    simp [hl r hr]
  have htime : ∀ r ∈ regs.filter (fun r => r.time == time), r.time = time := fun r hr => by
    simpa using (List.mem_filter.mp hr).2
  rw [hat _ fun r hr => htime r ((sortBy_perm _ _).mem_iff.mp hr), hat _ htime]
  refine sortBy_filter handOverBefore _ handOverBefore_total handOverBefore_trans (fun a b ha hb => ?_) _
  simp only [Bool.and_eq_true, beq_iff_eq] at ha hb
  obtain ⟨⟨hao, has⟩, hat⟩ := ha
  obtain ⟨⟨hbo, hbs⟩, hbt⟩ := hb
  simp [handOverBefore, hao, hbo, has, hbs, hat, hbt]

/-- Settles O5: the second that is not over, then the one that is, below the greatest depot time and at it. -/
theorem depotTimeAdvances : Obligations.DepotTimeAdvances := by
  intro s
  refine ⟨execDepotTimeAdvance_unset, fun _ hp => execDepotTimeAdvance_early s hp, State.settleCrossings_idle,
    fun hm hp => ⟨s.advanceSecond, execDepotTimeAdvance_due hm hp, s.advanceSecond_eq.1, s.advanceSecond_eq.2.1,
      s.advanceSecond_eq.2.2.1, s.advanceSecond_eq.2.2.2, fun hlt => ?_, fun hlast => ?_⟩⟩
  · rw [State.advanceSecond_below hlt]
    exact ⟨rfl, rfl, _, rfl, sortBy_perm _ _, sortBy_sorted _ handOverBefore_total handOverBefore_trans _,
      fired_keep_order _ _⟩
  · rw [State.advanceSecond_last hlast]
    exact ⟨rfl, rfl, rfl⟩

/-! ### SET_TIME (R2, R4) -/

theorem exec_setTime (h : ReqHeader) (v : Word) (s : State) :
    exec (.setTime h v) s = takeRequest ⟨h, .setTime v⟩ (applySetTime v) s := rfl

section Table

variable {s : State} {v : Word}

theorem applySetTime_first (hm : s.clock.mode = .unset) : applySetTime v s = timeReply s.now (s.firstTime v.toNat) := by
  simp only [applySetTime, hm]

theorem applySetTime_backward (hm : s.clock.mode = .set) (h : v.toNat + 60 < s.now) :
    applySetTime v s = refuse s .timeBackward := by
  simp only [applySetTime, hm]
  exact if_pos (by omega)

theorem applySetTime_stepBack (hm : s.clock.mode = .set) (h : s.now ≤ v.toNat + 60) (hlt : v.toNat < s.now) :
    applySetTime v s = timeReply s.now (s.stepBack v.toNat) := by
  simp only [applySetTime, hm]
  rw [if_neg (by omega), if_pos hlt]

theorem applySetTime_same (hm : s.clock.mode = .set) (h : v.toNat = s.now) :
    applySetTime v s = timeReply s.now (s.setDepotTime s.now) := by
  simp only [applySetTime, hm]
  rw [if_neg (by omega), if_neg (by omega), if_pos h]

theorem applySetTime_jump (hm : s.clock.mode = .set) (h : s.now < v.toNat) :
    applySetTime v s = timeReply s.now (s.jumpTo v.toNat) := by
  simp only [applySetTime, hm]
  rw [if_neg (by omega), if_neg (by omega), if_neg (by omega)]

end Table

theorem State.firstTime_now (s : State) (v : Nat) : (s.firstTime v).now = v := by
  unfold State.firstTime
  dsimp only
  rw [(State.registerBoundary_moves _).now rfl, State.settleCrossings_now]
  rfl

theorem State.jumpTo_now (s : State) (v : Nat) : (s.jumpTo v).now = v := by
  unfold State.jumpTo
  dsimp only
  rw [(Moves.raiseSite _).now rfl, State.settleCrossings_now]
  rfl

/-- A firing with nothing due changes nothing. -/
theorem State.fire_none {s : State} {sel : Registration → Bool} (h : ∀ r ∈ s.clock.regs, sel r = false) :
    s.fire sel = s := by
  have hkept : s.clock.regs.filter (fun r => !sel r) = s.clock.regs :=
    List.filter_eq_self.mpr fun r hr => by rw [h r hr]; rfl
  have hdue : s.clock.regs.filter sel = [] := List.filter_eq_nil_iff.mpr fun r hr => by rw [h r hr]; decide
  rw [State.fire, hkept, hdue]
  simp [sortBy]

theorem State.fire_settle_quiet {s : State} {v : Nat} (hf : s.clock.fired = []) (h : ∀ r ∈ s.clock.regs, v < r.time) :
    (s.fire fun r => decide (r.time ≤ v)).settleCrossings = s := by
  rw [State.fire_none fun r hr => decide_eq_false (Nat.not_le.mpr (h r hr)), State.settleCrossings_idle hf]

/-- R2: a first SET_TIME at which nothing is due. -/
theorem State.firstTime_quiet {s : State} {v : Nat} (hf : s.clock.fired = []) (h : ∀ r ∈ s.clock.regs, v < r.time) :
    s.firstTime v = State.registerBoundary { s with clock := { s.clock with
      time := v, phase := 0, mode := .set, day := dayFormula v s.site.live.rolloverOffset } } :=
  congrArg State.registerBoundary (State.fire_settle_quiet (s := { s with clock := { s.clock with
    time := v, phase := 0, mode := .set, day := dayFormula v s.site.live.rolloverOffset } }) hf h)

/-- R4: a forward jump at which nothing is due. -/
theorem State.jumpTo_quiet {s : State} {v : Nat} (hf : s.clock.fired = []) (h : ∀ r ∈ s.clock.regs, v < r.time) :
    s.jumpTo v = { s with
      clock := { s.clock with time := v, phase := 0 }, siteFlags := s.siteFlags ||| SiteFlag.timeJump } := by
  unfold State.jumpTo
  dsimp only
  rw [State.settleCrossings_idle hf, State.fire_settle_quiet (s := s.setDepotTime v) hf h]
  rfl

theorem SiteFlag.timeJump_bit (f : BitVec 6) : (f ||| SiteFlag.timeJump).getLsbD 3 = true := by
  rw [BitVec.getLsbD_or]
  simp [SiteFlag.timeJump]

theorem State.jumpTo_flag (s : State) (v : Nat) : (s.jumpTo v).siteFlags.getLsbD 3 = true := SiteFlag.timeJump_bit _

/-- The rings under each change of depot time. -/
theorem applySetTime_ring (s : State) (v : Word) : (applySetTime v s).state.ring = s.ring :=
  (applySetTime_moves s v).besides.ring

/-- R2: a SET_TIME that is taken is answered from the state it leaves. -/
theorem exec_setTime_reply {h : ReqHeader} {v : Word} {s u : State} (hq : s.takes ⟨h, .setTime v⟩ = true)
    (he : applySetTime v (s.modRing Ring.pop) = timeReply s.now u) (hu : u.now = v.toNat) :
    exec (.setTime h v) s = .next (s.answered ⟨h, .setTime v⟩ u .ok (.time s.now v.toNat u.clock.day)) := by
  have hring : (timeReply s.now u).state.ring = s.ring.pop := by
    rw [← he]
    exact applySetTime_ring (s.modRing Ring.pop) v
  have h := takeRequest_reply hq he hring
  rw [exec_setTime, h, timeReply, hu]

/-- R2: after a SET_TIME that is taken an advance queued right behind it changes nothing. -/
theorem exec_setTime_restarts {h : ReqHeader} {v : Word} {s : State} (hq : s.takes ⟨h, .setTime v⟩ = true)
    (hs : s.clock.mode = .unset ∨ s.now ≤ v.toNat + 60) : ∃ t, exec (.setTime h v) s = .next t
      ∧ t.clock.mode = .set ∧ t.clock.phase = 0 ∧ exec .depotTimeAdvance t = .next t := by
  have hok : (applySetTime v (s.modRing Ring.pop)).status = .ok := by
    cases hm : s.clock.mode with
    | unset => rw [applySetTime_first (s := s.modRing Ring.pop) hm]; rfl
    | set =>
      have hle : s.now ≤ v.toNat + 60 := hs.resolve_left (by rw [hm]; decide)
      rcases Nat.lt_trichotomy v.toNat s.now with hlt | heq | hgt
      · rw [applySetTime_stepBack (s := s.modRing Ring.pop) hm hle hlt]; rfl
      · rw [applySetTime_same (s := s.modRing Ring.pop) hm heq]; rfl
      · rw [applySetTime_jump (s := s.modRing Ring.pop) hm hgt]; rfl
  obtain ⟨hmode, hphase⟩ := applySetTime_restarts (s.modRing Ring.pop) v hok
  refine ⟨_, takeRequest_taken hq, hmode, hphase, execDepotTimeAdvance_early _ ?_⟩
  exact hphase.trans_lt (by decide)

/-- Settles O6: the rows of SET_TIME's table. -/
theorem setTimeByTable : Obligations.SetTimeByTable := by
  intro h v s hq
  refine ⟨fun hm => ?first, fun hm hlt => takeRequest_refused hq (applySetTime_backward (s := s.modRing Ring.pop) hm hlt),
    fun hm hle hlt => ?back, fun hm heq => ?same, fun hm hgt => ?jump, exec_setTime_restarts hq⟩
  case first =>
    refine ⟨_, exec_setTime_reply hq (applySetTime_first (s := s.modRing Ring.pop) hm) (State.firstTime_now _ _), rfl,
      State.firstTime_now _ _, (State.firstTime_moves (s.modRing Ring.pop) _).ahead, fun hf hr => ?_⟩
    rw [State.firstTime_quiet (s := s.modRing Ring.pop) hf hr]
    unfold State.registerBoundary
    split
    · rw [State.register_append]; exact ⟨rfl, rfl, rfl, rfl⟩
    · exact ⟨rfl, rfl, rfl, rfl⟩
  case back =>
    exact ⟨_, exec_setTime_reply hq (applySetTime_stepBack (s := s.modRing Ring.pop) hm hle hlt) rfl,
      (State.stepBack_moves (s.modRing Ring.pop) _ (Nat.le_of_lt hlt)).ahead, rfl, rfl⟩
  case same =>
    have hreply := exec_setTime_reply hq (applySetTime_same (s := s.modRing Ring.pop) hm heq) heq.symm
    rw [heq] at hreply
    exact hreply
  case jump =>
    exact ⟨_, exec_setTime_reply hq (applySetTime_jump (s := s.modRing Ring.pop) hm hgt) (State.jumpTo_now _ _),
      State.jumpTo_now _ _, State.jumpTo_flag _ _, (State.jumpTo_moves (s.modRing Ring.pop) _).ahead, rfl,
      State.jumpTo_quiet (s := s.modRing Ring.pop)⟩

/-! ### The rollover crossing and the next boundary (R5) -/

theorem exec_rolloverCrossing (s : State) : exec .rolloverCrossing s = takeCrossing .rollover 0 s := rfl

/-- R5: the registration of the next boundary, where there is one ahead. -/
def boundaryRegs (now : Nat) (day : Int) (offset : Nat) : List Registration :=
  match nextBoundary day offset with
  | some u => if now < u then [⟨.rollover, 0, u⟩] else []
  | none => []

theorem State.registerBoundary_eq (s : State) : s.registerBoundary = { s with clock := { s.clock with
    regs := s.clock.regs ++ boundaryRegs s.now s.clock.day s.site.live.rolloverOffset } } := by
  unfold State.registerBoundary boundaryRegs
  cases nextBoundary s.clock.day s.site.live.rolloverOffset with
  | some t => exact State.register_append _ _ _ _
  | none => simp

theorem dayFormula_gt_iff {day : Int} {offset t : Nat} :
    day < dayFormula t offset ↔ (day + 1) * 86400 + (offset : Int) ≤ t := by
  unfold dayFormula
  omega

theorem nextBoundary_some {day : Int} {offset t : Nat} (h : nextBoundary day offset = some t) :
    t ≤ 4294967295 ∧ day < dayFormula t offset ∧ ∀ u, u < t → dayFormula u offset ≤ day := by
  unfold nextBoundary at h
  dsimp only at h
  split at h
  · next hle =>
    obtain rfl := Option.some.inj h
    refine ⟨hle, dayFormula_gt_iff.mpr (Int.self_le_toNat _), fun u hu => ?_⟩
    by_contra hgt
    have := dayFormula_gt_iff.mp (Int.not_le.mp hgt)
    omega
  · cases h

theorem nextBoundary_none {day : Int} {offset : Nat} (h : nextBoundary day offset = none) {t : Nat}
    (ht : t ≤ 4294967295) : dayFormula t offset ≤ day := by
  unfold nextBoundary at h
  dsimp only at h
  split at h
  · cases h
  · next hgt =>
    by_contra hlt
    have := dayFormula_gt_iff.mp (Int.not_le.mp hlt)
    simp only [maxWord] at hgt
    omega

/-- Settles O7: what the crossing leaves, then the boundary. -/
theorem rolloverCrossingAndBoundary : Obligations.RolloverCrossingAndBoundary := by
  refine ⟨fun s T hdue => ?crossing, fun day offset => ⟨fun t => nextBoundary_some, fun h t => nextBoundary_none h⟩⟩
  case crossing =>
    refine ⟨_, (exec_rolloverCrossing s).trans (takeCrossing_due hdue rfl rfl), ?_⟩
    have hact : (s.unfire ⟨.rollover, 0, T⟩).handOver ⟨.rollover, 0, T⟩ = (s.unfire ⟨.rollover, 0, T⟩).actRollover := rfl
    rw [hact, State.actRollover, State.registerBoundary_eq]
    exact ⟨rfl, rfl, fun i => Table.get_mapRows s.buses (fun b => { b with exportUsed := 0 }) i, rfl⟩

/-! ### The base load (R11, R12) -/

theorem exec_siteLoadReport (h : ReqHeader) (w : Word) (s : State) :
    exec (.siteLoadReport h w) s = takeRequest ⟨h, .siteLoadReport w⟩ (applySiteLoadReport w) s := rfl

theorem State.takeBase_spec (s : State) : s.takeBase = { s with
    site := { s.site with lastBase := some s.effectiveBase, staleOpen := s.effectiveBase.fallback }
    siteFlags := if s.effectiveBase.fallback = true ∧ s.site.staleOpen = false
      then s.siteFlags ||| SiteFlag.baseLoadStale else s.siteFlags } := by
  unfold State.takeBase
  dsimp only
  by_cases h : s.effectiveBase.fallback = true ∧ s.site.staleOpen = false
  · rw [if_pos h, if_pos (by rw [h.1, h.2]; rfl)]; rfl
  · rw [if_neg h, if_neg (by simpa using h)]

theorem State.effectiveBase_fresh {s : State} {r : LoadReport} (hr : s.site.report = some r)
    (h : s.now ≤ r.time + s.site.live.baseHold) : s.effectiveBase = ⟨r.watts, false⟩ := by
  have hage : r.age s.now ≤ s.site.live.baseHold := by unfold LoadReport.age; omega
  simp only [State.effectiveBase, State.freshReport, hr, hage, if_true]

theorem State.effectiveBase_stale {s : State}
    (h : s.site.report = none ∨ ∃ r, s.site.report = some r ∧ r.time + s.site.live.baseHold < s.now) :
    s.effectiveBase = ⟨s.site.live.fallbackBase, true⟩ := by
  rcases h with h | ⟨r, hr, hold⟩
  · simp only [State.effectiveBase, State.freshReport, h]
  · have hage : ¬ r.age s.now ≤ s.site.live.baseHold := by unfold LoadReport.age; omega
    simp only [State.effectiveBase, State.freshReport, hr, hage, if_false]

/-- Settles O9: the report, then the effective base load. -/
theorem baseLoadReportAndFallback : Obligations.BaseLoadReportAndFallback := by
  refine ⟨fun h w s hq => ?_, fun s => ⟨s.effectiveBase, s.takeBase_spec, fun r hr hle => State.effectiveBase_fresh hr hle,
    State.effectiveBase_stale⟩⟩
  exact takeRequest_answered hq _ _ _ rfl

end Sys2Proof.Machine
end

section
/-! SITE_CONFIGURE and the load of the staged values, stage by stage (01, R9, R10). -/

namespace Sys2Proof.Machine

open Sys2Proof

/-! ### The fields of SITE_CONFIGURE (R7, R10) -/

theorem inRange_iff {lo hi : Nat} {o : Option Word} : inRange lo hi o = true ↔ Within lo hi o := by
  cases o with
  | none => exact ⟨fun _ => (fun _ h => by cases h), fun _ => rfl⟩
  | some w => simp [inRange, Within]

theorem SitePatch.ok_iff (f : SitePatch) : f.ok = true ↔
    Within 0 4000000 f.feederLimit ∧ Within 0 500000 f.margin ∧ Within 0 4000000 f.fallbackBase
    ∧ Within 1 600 f.baseHold ∧ Within 1 30 f.allocPeriod ∧ Within 2 60 f.reversalRest
    ∧ Within 0 7200 f.guardTime ∧ Within 0 14400 f.atRisk ∧ Within 0 43200 f.lockoutWindow
    ∧ Within 0 14400 f.takeWindow ∧ Within 0 22000 f.tricklePower ∧ Within 0 7200 f.armLead
    ∧ Within 5 600 f.supervision ∧ Within 0 86399 f.rolloverOffset ∧ Within 10 600 f.stallTime
    ∧ Within 0 50000 f.soeTolerance ∧ Within 0 65535 f.depotId := by
  simp only [SitePatch.ok, Bool.and_eq_true, inRange_iff, and_assoc]

theorem exec_siteConfigure (h : ReqHeader) (f : SitePatch) (s : State) :
    exec (.siteConfigure h f) s = takeRequest ⟨h, .siteConfigure f⟩ (applySiteConfigure f) s := rfl

section Reply

variable {f : SitePatch} {s : State}

theorem applySiteConfigure_refused (h : f.ok = false) : applySiteConfigure f s = refuse s .outOfRange := by
  rw [applySiteConfigure, h]
  rfl

theorem applySiteConfigure_empty (h : f.ok = true) (he : f.empty = true) :
    applySiteConfigure f s = ⟨s, s.stagedStatus, .loadPending s.site.loadPending⟩ := by
  rw [applySiteConfigure, h, he]
  rfl

theorem applySiteConfigure_running (h : f.ok = true) (he : f.empty = false) (hr : s.engine.running = true) :
    applySiteConfigure f s = ⟨s.stageSite f, .staged, .loadPending true⟩ := by
  have hrun : (s.stageSite f).engine.running = true := hr
  rw [applySiteConfigure, h, he, State.stagedStatus, State.loadIfStopped, hrun, hr]
  rfl

theorem applySiteConfigure_loads (h : f.ok = true) (he : f.empty = false) (hr : s.engine.running = false) :
    applySiteConfigure f s = ⟨(s.stageSite f).load, .ok, .loadPending false⟩ := by
  have hrun : (s.stageSite f).engine.running = false := hr
  have hpending : (s.stageSite f).load.site.loadPending = false := by rw [State.load_site]
  rw [applySiteConfigure, h, he, State.stagedStatus, State.loadIfStopped, hrun, hr]
  simp [hpending]

end Reply

/-! ### The stages of a load -/

/-- The state after a load has taken the rollover offset (R6). -/
def State.afterOffset (s : State) : State := s.copyStaged.reloadOffset s.site.live

/-- The state after a load has taken the trickle power (R98). -/
def State.afterTrickle (s : State) : State := s.afterOffset.reloadTrickle s.site.live

theorem State.beforeArmLead_eq (s : State) : s.beforeArmLead = s.afterTrickle.reloadLockout s.site.live := rfl

/-- The rollover offset has changed in a SET clock. -/
def State.OffsetMoves (s : State) : Prop :=
  s.site.live.rolloverOffset ≠ s.site.staged.rolloverOffset ∧ s.clock.mode = .set

/-- The registrations of a load but those of rollover boundaries. -/
theorem State.registerBoundary_regsOf (s : State) {sel : Registration → Bool}
    (h : ∀ r : Registration, r.kind = .rollover → sel r = false) : s.registerBoundary.regsOf sel = s.regsOf sel := by
  unfold State.registerBoundary
  split
  · exact State.regsOf_register_out _ _ _ _ (h _ rfl)
  · rfl

theorem State.afterOffset_still {s : State} (h : ¬ s.OffsetMoves) : s.afterOffset = s.copyStaged := by
  refine if_pos ?_
  by_cases ho : s.site.live.rolloverOffset = s.site.staged.rolloverOffset
  · exact .inl ho
  · refine .inr ?_
    cases hm : s.clock.mode with
    | unset => exact hm
    | set => exact absurd ⟨ho, hm⟩ h

/-- R6: the day number under a new rollover offset, before the next boundary is registered. -/
def State.offsetDay (s : State) : State :=
  if s.clock.day < dayFormula s.now s.site.staged.rolloverOffset then
    (s.copyStaged.withdraw (ofKind .rollover 0)).raiseDay (dayFormula s.now s.site.staged.rolloverOffset)
  else s.copyStaged.withdraw (ofKind .rollover 0)

theorem State.afterOffset_moved {s : State} (h : s.OffsetMoves) : s.afterOffset = s.offsetDay.registerBoundary := by
  refine if_neg (not_or.mpr ⟨h.1, ?_⟩)
  have hm : s.copyStaged.clock.mode = .set := h.2
  rw [hm]
  decide

theorem State.offsetDay_site (s : State) : s.offsetDay.site = s.copyStaged.site := by
  unfold State.offsetDay
  split <;> rfl

theorem State.offsetDay_now (s : State) : s.offsetDay.now = s.now := by
  unfold State.offsetDay
  split <;> rfl

theorem State.offsetDay_regsOf (s : State) (sel : Registration → Bool) :
    s.offsetDay.regsOf sel = (s.withdraw (ofKind .rollover 0)).regsOf sel := by
  unfold State.offsetDay
  split <;> rfl

theorem State.offsetDay_fired (s : State) : s.offsetDay.clock.fired.Sublist s.clock.fired := by
  unfold State.offsetDay
  split <;> exact List.filter_sublist

/-- R6: the next boundary alone is registered. -/
theorem State.afterOffset_boundary {s : State} (h : s.OffsetMoves) :
    s.afterOffset.regsOf (fun r => r.kind == .rollover && r.slot == 0)
      = boundaryRegs s.now s.afterOffset.clock.day s.site.staged.rolloverOffset := by
  have hnone : s.offsetDay.regsOf (fun r => r.kind == .rollover && r.slot == 0) = [] := by
    rw [State.offsetDay_regsOf]
    exact State.regsOf_withdraw_all s fun r hr => hr
  have hall : (boundaryRegs s.now s.offsetDay.clock.day s.site.staged.rolloverOffset).filter
      (fun r => r.kind == .rollover && r.slot == 0)
      = boundaryRegs s.now s.offsetDay.clock.day s.site.staged.rolloverOffset := by
    refine List.filter_eq_self.mpr fun r hr => ?_
    unfold boundaryRegs at hr
    split at hr
    · split at hr
      · rw [List.mem_singleton.mp hr]; rfl
      · exact absurd hr List.not_mem_nil
    · exact absurd hr List.not_mem_nil
  rw [State.afterOffset_moved h, State.registerBoundary_eq, s.offsetDay_site, s.offsetDay_now]
  unfold State.regsOf at hnone ⊢
  exact (List.filter_append ..).trans (by rw [hnone]; exact hall)

/-- R6: what a new offset leaves of the day number and the buses. -/
theorem State.afterOffset_rolls {s : State} (h : s.OffsetMoves)
    (hd : s.clock.day < dayFormula s.now s.site.staged.rolloverOffset) :
    s.afterOffset.clock.day = dayFormula s.now s.site.staged.rolloverOffset
    ∧ ∀ i, s.afterOffset.bus i = (s.bus i).map fun b => { b with exportUsed := 0 } := by
  rw [State.afterOffset_moved h, State.registerBoundary_eq, State.offsetDay, if_pos hd]
  exact ⟨rfl, fun i => Table.get_mapRows s.buses (fun b => { b with exportUsed := 0 }) i⟩

theorem State.afterOffset_stays {s : State}
    (h : ¬ (s.OffsetMoves ∧ s.clock.day < dayFormula s.now s.site.staged.rolloverOffset)) :
    s.afterOffset.clock.day = s.clock.day ∧ s.afterOffset.buses = s.buses := by
  by_cases hm : s.OffsetMoves
  · rw [State.afterOffset_moved hm, State.registerBoundary_eq, State.offsetDay, if_neg fun hd => h ⟨hm, hd⟩]
    exact ⟨rfl, rfl⟩
  · rw [State.afterOffset_still hm]
    exact ⟨rfl, rfl⟩

theorem State.afterOffset_regsOf (s : State) {sel : Registration → Bool}
    (h : ∀ r : Registration, r.kind = .rollover → sel r = false) : s.afterOffset.regsOf sel = s.regsOf sel := by
  by_cases hm : s.OffsetMoves
  · rw [State.afterOffset_moved hm, State.registerBoundary_regsOf _ h, State.offsetDay_regsOf]
    refine State.regsOf_withdraw_out s fun r hr => ?_
    have hne : r.kind ≠ .rollover := fun e => by rw [h r e] at hr; cases hr
    simp [ofKind, hne]
  · rw [State.afterOffset_still hm]
    rfl

theorem State.afterOffset_fired (s : State) : s.afterOffset.clock.fired.Sublist s.clock.fired := by
  by_cases hm : s.OffsetMoves
  · rw [State.afterOffset_moved hm, State.registerBoundary_eq]
    exact s.offsetDay_fired
  · rw [State.afterOffset_still hm]
    exact .refl _

theorem State.reloadTrickle_rest (s : State) (old : SiteParams) :
    s.reloadTrickle old = { s with ports := (s.reloadTrickle old).ports } := by
  unfold State.reloadTrickle
  split <;> rfl

theorem State.afterTrickle_rest (s : State) : s.afterTrickle = { s.afterOffset with ports := s.afterTrickle.ports } :=
  State.reloadTrickle_rest _ _

theorem State.afterTrickle_clock (s : State) : s.afterTrickle.clock = s.afterOffset.clock := by
  rw [s.afterTrickle_rest]

theorem State.afterTrickle_buses (s : State) : s.afterTrickle.buses = s.afterOffset.buses := by
  rw [s.afterTrickle_rest]

theorem State.afterTrickle_live (s : State) : s.afterTrickle.site.live = s.site.staged := by
  rw [s.afterTrickle_rest]
  by_cases hm : s.OffsetMoves
  · rw [State.afterOffset_moved hm, State.registerBoundary_eq]
    exact congrArg Site.live s.offsetDay_site
  · rw [State.afterOffset_still hm]
    rfl

theorem State.afterTrickle_now (s : State) : s.afterTrickle.now = s.now := by
  rw [s.afterTrickle_rest]
  exact (s.copyStaged.reloadOffset_moves s.site.live).now rfl

/-- A bus record keeps its departure part under a load. -/
theorem State.afterTrickle_bus {s : State} {i : Nat} {b : Bus} (h : s.bus i = some b) :
    ∃ c, s.afterTrickle.bus i = some c ∧ c.departure = b.departure := by
  obtain ⟨rolled, hbus⟩ := s.copyStaged.reloadOffset_bus s.site.live
  have hget : s.afterTrickle.bus i = (s.bus i).map (Bus.afterRollover rolled) :=
    (congrArg (Table.get · i) s.afterTrickle_buses).trans (hbus i)
  rw [hget, h]
  refine ⟨_, rfl, ?_⟩
  unfold Bus.afterRollover
  split <;> rfl

theorem State.afterTrickle_moves (s : State) : Moves s s.afterTrickle :=
  ((Moves.site _).trans (s.copyStaged.reloadOffset_moves s.site.live)).trans (State.reloadTrickle_moves _ _)

theorem State.reloadLockout_eq {s : State} {old : SiteParams} (h : old.lockoutWindow ≠ s.site.live.lockoutWindow) :
    s.reloadLockout old = s.buses.rows.foldl (fun t r => t.reloadLockoutPoint r.1 r.2) s := if_neg h

theorem State.reloadLockout_same {s : State} {old : SiteParams} (h : old.lockoutWindow = s.site.live.lockoutWindow) :
    s.reloadLockout old = s := if_pos h

theorem Table.Ok.nodup {α : Type} {n : Nat} {t : Table α} (h : t.Ok n) : (t.rows.map Prod.fst).Nodup :=
  List.pairwise_map.mpr (h.rising.imp fun h => Nat.ne_of_lt h)

section Registrations

variable {s : State} (ht : s.TablesOk)
include ht

theorem State.beforeArmLead_regsOf {sel : Registration → Bool} (h : ∀ r : Registration, r.kind = .lockout → sel r = false) :
    s.beforeArmLead.regsOf sel = s.afterTrickle.regsOf sel := by
  rw [s.beforeArmLead_eq]
  by_cases hw : s.site.live.lockoutWindow = s.afterTrickle.site.live.lockoutWindow
  · rw [State.reloadLockout_same hw]
  · rw [State.reloadLockout_eq hw]
    obtain ⟨_, hout, _⟩ := State.reloadLockoutRows s.afterTrickle.buses.rows s.afterTrickle
      (s.afterTrickle_moves.tablesOk ht).buses.nodup
    exact hout sel fun r hr e => by rw [h r e] at hr; cases hr

/-- R124: the lockout point of every PENDING part under a new window. -/
theorem State.beforeArmLead_lockout {i : Nat} {b : Bus} (hb : s.bus i = some b) :
    (∀ d, s.site.live.lockoutWindow ≠ s.site.staged.lockoutWindow → b.departure = some d → d.state = .pending →
      s.beforeArmLead.regsOf (fun r => r.kind == .lockout && r.slot == i)
        = lockoutRegs s.now s.site.staged.lockoutWindow i d.tDep)
    ∧ ((s.site.live.lockoutWindow = s.site.staged.lockoutWindow ∨ ∀ d, b.departure = some d → d.state ≠ .pending) →
      s.beforeArmLead.regsOf (fun r => r.kind == .lockout && r.slot == i)
        = s.afterTrickle.regsOf fun r => r.kind == .lockout && r.slot == i) := by
  obtain ⟨c, hc, hdep⟩ := State.afterTrickle_bus hb
  rw [s.beforeArmLead_eq, ← s.afterTrickle_live, ← s.afterTrickle_now, ← hdep]
  by_cases hw : s.site.live.lockoutWindow = s.afterTrickle.site.live.lockoutWindow
  · rw [State.reloadLockout_same hw]
    exact ⟨fun d hne => absurd hw hne, fun _ => rfl⟩
  · rw [State.reloadLockout_eq hw]
    obtain ⟨_, _, _, hrow⟩ := State.reloadLockoutRows s.afterTrickle.buses.rows s.afterTrickle
      (s.afterTrickle_moves.tablesOk ht).buses.nodup
    obtain ⟨hpending, hother⟩ := hrow i c (Table.mem_of_get hc)
    exact ⟨fun d _ => hpending d, fun h => hother (h.resolve_left hw)⟩

omit ht in
theorem State.beforeArmLead_onlyRegs : s.afterTrickle.OnlyRegs s.beforeArmLead := State.reloadLockout_onlyRegs _ _

omit ht in
theorem State.beforeArmLead_live : s.beforeArmLead.site.live = s.site.staged := by
  have honly : s.afterTrickle.OnlyRegs s.beforeArmLead := State.reloadLockout_onlyRegs _ _
  rw [honly.site, s.afterTrickle_live]

omit ht in
theorem State.beforeArmLead_now : s.beforeArmLead.now = s.now := by
  have honly : s.afterTrickle.OnlyRegs s.beforeArmLead := State.reloadLockout_onlyRegs _ _
  rw [honly.now, s.afterTrickle_now]

/-- R161: the commitments under a load, and the registrations beside their arm points and window starts. -/
theorem State.load_reserve :
    s.beforeArmLead.OnlyReserve s.load
    ∧ (∀ sel, (∀ r : Registration, sel r = true → r.kind ≠ .armPoint ∧ r.kind ≠ .windowStart) →
        s.load.regsOf sel = s.beforeArmLead.regsOf sel)
    ∧ ∀ i c, s.commit i = some c →
      let point := c.windowStart - s.site.staged.armLead
      let starts (r : Registration) : Bool := (r.kind == .armPoint || r.kind == .windowStart) && r.slot == i
      ((s.site.live.armLead = s.site.staged.armLead ∨ c.state ≠ .pending) →
        s.load.commit i = some c ∧ s.load.regsOf starts = s.beforeArmLead.regsOf starts)
      ∧ (s.site.live.armLead ≠ s.site.staged.armLead → c.state = .pending → s.now < point →
        s.load.commit i = some { c with armPoint := point }
        ∧ s.load.regsOf starts = [⟨.armPoint, i, point⟩, ⟨.windowStart, i, c.windowStart⟩])
      ∧ (s.site.live.armLead ≠ s.site.staged.armLead → c.state = .pending → point ≤ s.now →
        s.load.commit i = some ({ c with armPoint := point }.arm)
        ∧ s.load.regsOf (fun r => r.kind == .armPoint && r.slot == i) = []
        ∧ s.load.regsOf (fun r => r.kind == .windowStart && r.slot == i)
          = s.beforeArmLead.regsOf fun r => r.kind == .windowStart && r.slot == i) := by
  have hcommits := s.beforeArmLead_commits
  have hbefore : ∀ i, s.beforeArmLead.commit i = s.commit i := fun i => congrArg (Table.get · i) hcommits
  rw [s.load_eq_reloadArmLead, State.reloadArmLead, s.beforeArmLead_live]
  by_cases ha : s.site.live.armLead = s.site.staged.armLead
  · rw [if_pos ha]
    refine ⟨⟨rfl, .refl _⟩, fun _ _ => rfl, fun i c hc => ⟨fun _ => ⟨(hbefore i).trans hc, rfl⟩,
      fun hne => absurd ha hne, fun hne => absurd ha hne⟩⟩
  · rw [if_neg ha]
    obtain ⟨honly, _, hout, _, hrow⟩ := State.reloadArmRows s.site.staged.armLead s.beforeArmLead.commits.rows
      s.beforeArmLead (by rw [hcommits]; exact ht.commits.nodup)
      (fun j c hj => Table.get_of_mem (by rw [hcommits]; exact ht.commits.rising) hj)
    refine ⟨honly, hout, fun i c hc => ?_⟩
    obtain ⟨hkept, hlater, hpast⟩ := hrow i c (Table.mem_of_get ((hbefore i).trans hc))
    rw [s.beforeArmLead_now] at hlater hpast
    exact ⟨fun h => hkept (h.resolve_left ha), fun _ => hlater, fun _ => hpast⟩

/-- The registrations of a kind that a load leaves. -/
theorem State.load_regsOf {sel : Registration → Bool} (h : ∀ r : Registration, sel r = true →
    r.kind ≠ .rollover ∧ r.kind ≠ .lockout ∧ r.kind ≠ .armPoint ∧ r.kind ≠ .windowStart) :
    s.load.regsOf sel = s.regsOf sel := by
  have hoff (k : RegKind) (hk : k = .rollover ∨ k = .lockout) : ∀ r : Registration, r.kind = k → sel r = false := by
    intro r hr
    cases hs : sel r with
    | false => rfl
    | true =>
      obtain ⟨h1, h2, _⟩ := h r hs
      rcases hk with rfl | rfl
      · exact absurd hr h1
      · exact absurd hr h2
  obtain ⟨_, hout, _⟩ := State.load_reserve ht
  rw [hout sel fun r hr => (h r hr).2.2, State.beforeArmLead_regsOf ht (hoff _ (.inr rfl))]
  unfold State.regsOf
  rw [s.afterTrickle_clock]
  exact s.afterOffset_regsOf (hoff _ (.inl rfl))

theorem State.load_clock_day : s.load.clock.day = s.afterOffset.clock.day := by
  obtain ⟨honly, _, _⟩ := State.load_reserve ht
  rw [honly.rest, (s.beforeArmLead_onlyRegs).rest, s.afterTrickle_clock]

theorem State.load_buses : s.load.buses = s.afterOffset.buses := by
  obtain ⟨honly, _, _⟩ := State.load_reserve ht
  rw [honly.rest, (s.beforeArmLead_onlyRegs).rest, s.afterTrickle_buses]

theorem State.load_fired : s.load.clock.fired.Sublist s.clock.fired := by
  obtain ⟨honly, _, _⟩ := State.load_reserve ht
  refine (honly.fired.trans (s.beforeArmLead_onlyRegs).fired).trans ?_
  rw [s.afterTrickle_clock]
  exact s.afterOffset_fired

theorem State.load_rollover : s.load.regsOf (fun r => r.kind == .rollover && r.slot == 0)
    = s.afterOffset.regsOf fun r => r.kind == .rollover && r.slot == 0 := by
  obtain ⟨_, hout, _⟩ := State.load_reserve ht
  rw [hout _ fun r hr => ?_, State.beforeArmLead_regsOf ht fun r hr => by simp [hr]]
  · unfold State.regsOf
    rw [s.afterTrickle_clock]
  · have hk : r.kind = .rollover := by simpa using (Bool.and_eq_true_iff.mp hr).1
    exact ⟨by rw [hk]; decide, by rw [hk]; decide⟩

theorem State.load_lockout (i : Nat) : s.load.regsOf (fun r => r.kind == .lockout && r.slot == i)
    = s.beforeArmLead.regsOf fun r => r.kind == .lockout && r.slot == i := by
  obtain ⟨_, hout, _⟩ := State.load_reserve ht
  refine hout _ fun r hr => ?_
  have hk : r.kind = .lockout := by simpa using (Bool.and_eq_true_iff.mp hr).1
  exact ⟨by rw [hk]; decide, by rw [hk]; decide⟩

omit ht in
theorem State.afterTrickle_regsOf {sel : Registration → Bool}
    (h : ∀ r : Registration, r.kind = .rollover → sel r = false) : s.afterTrickle.regsOf sel = s.regsOf sel := by
  unfold State.regsOf
  rw [s.afterTrickle_clock]
  exact s.afterOffset_regsOf h

theorem State.beforeArmLead_reserve {sel : Registration → Bool}
    (h : ∀ r : Registration, sel r = true → r.kind = .armPoint ∨ r.kind = .windowStart) :
    s.beforeArmLead.regsOf sel = s.regsOf sel := by
  have hoff (k : RegKind) (hk : k = .rollover ∨ k = .lockout) : ∀ r : Registration, r.kind = k → sel r = false := by
    intro r hr
    cases hs : sel r with
    | false => rfl
    | true => rcases h r hs with e | e <;> rcases hk with rfl | rfl <;> rw [hr] at e <;> cases e
  rw [State.beforeArmLead_regsOf ht (hoff _ (.inr rfl)), State.afterTrickle_regsOf (hoff _ (.inl rfl))]

end Registrations

/-! ### Ports under a load (R98) -/

theorem State.load_port_eq (s : State) (n : PortNo) : s.load.port n =
    if s.site.live.tricklePower = s.site.staged.tricklePower then s.port n
    else (s.port n).takeTrickle s.site.staged.tricklePower := by
  have hoffset : ∀ m, s.afterOffset.port m = s.port m := fun m =>
    State.port_of_ports (State.reloadOffset_ports s.copyStaged s.site.live) m
  have hlive : s.afterOffset.site.live = s.site.staged := by
    have h := s.afterTrickle_live
    rw [s.afterTrickle_rest] at h
    exact h
  rw [State.port_of_ports s.load_ports]
  show (s.afterOffset.reloadTrickle s.site.live).port n = _
  unfold State.reloadTrickle
  rw [hlive]
  split
  · exact hoffset n
  · rw [← hoffset n]
    simp [State.port]

theorem Port.takeTrickle_new {w : Nat} {p : Port} {x : Session} {why : UnidReason} (hx : p.session = some x)
    (hb : x.binding = .unidentified why) (hf : p.lastFault = none) :
    p.takeTrickle w = { p with session := some { x with importCap := w } } := by
  simp only [Port.takeTrickle, hx, hb, hf, if_true]

theorem Port.takeTrickle_same {w : Nat} {p : Port}
    (h : p.session = none ∨ p.boundSlot ≠ none ∨ p.lastFault ≠ none) : p.takeTrickle w = p := by
  unfold Port.takeTrickle
  split
  · next x hx =>
    split
    · next why hb =>
      refine if_neg fun hf => ?_
      rcases h with h | h | h
      · rw [h] at hx; cases hx
      · exact h (by simp only [Port.boundSlot, hx, hb])
      · exact h hf
    · rfl
  · rfl

/-! ### The statement -/

theorem State.load_state (s : State) : s.load =
    { s with
      site := { s.site with live := s.site.staged, liveRatings := s.site.stagedRatings, loadPending := false }
      clock := s.load.clock, buses := s.load.buses, ports := s.load.ports, commits := s.load.commits } := by
  have h := s.load_eq
  have hclock : s.load.clock = { s.clock with
    day := s.load.clock.day, regs := s.load.clock.regs, fired := s.load.clock.fired } := congrArg State.clock h
  rw [← hclock] at h
  exact h

/-- R9, R10: what SITE_CONFIGURE answers. -/
theorem siteConfigure_stages (h : ReqHeader) (f : SitePatch) (s : State)
    (hq : s.takes ⟨h, .siteConfigure f⟩ = true) :
    (f.ok = false → exec (.siteConfigure h f) s
        = .next (s.answered ⟨h, .siteConfigure f⟩ s .outOfRange .none))
    ∧ (f.ok = true → f.empty = true → exec (.siteConfigure h f) s
        = .next (s.answered ⟨h, .siteConfigure f⟩ s (if s.engine.running then .staged else .ok)
            (.loadPending s.site.loadPending)))
    ∧ (f.ok = true → f.empty = false → s.engine.running = true → exec (.siteConfigure h f) s
        = .next (s.answered ⟨h, .siteConfigure f⟩
            { s with site := { s.site with staged := f.write s.site.staged, loadPending := true } }
            .staged (.loadPending true)))
    ∧ (f.ok = true → f.empty = false → s.engine.running = false → exec (.siteConfigure h f) s
        = .next (s.answered ⟨h, .siteConfigure f⟩ ((s.modRing Ring.pop).stageSite f).load .ok (.loadPending false))) := by
  refine ⟨fun hok => takeRequest_refused hq (applySiteConfigure_refused hok),
    fun hok he => takeRequest_answered hq s _ _ (applySiteConfigure_empty hok he),
    fun hok he hr => takeRequest_answered hq _ _ _ (applySiteConfigure_running (s := s.modRing Ring.pop) hok he hr),
    fun hok he hr => ?_⟩
  have hload := applySiteConfigure_loads (s := s.modRing Ring.pop) hok he hr
  refine takeRequest_reply hq hload ?_
  rw [State.load_eq]
  rfl

/-- Settles O8: the requests, then the load field by field. -/
theorem siteConfigureStagesOrLoads : Obligations.SiteConfigureStagesOrLoads := by
  refine ⟨⟨SitePatch.ok_iff, fun h f s hq => ?request⟩, fun s ht => ?load⟩
  case request =>
    obtain ⟨hrefused, hempty, hrunning, hloads⟩ := siteConfigure_stages h f s hq
    refine ⟨hrefused, hempty, hrunning, fun hok he hr => ⟨_, hloads hok he hr, rfl, ?_⟩⟩
    rw [State.load_state]
    exact ⟨rfl, rfl, rfl, rfl, rfl, rfl, rfl⟩
  case load =>
    have hclock : s.load.clock = { s.clock with
      day := s.load.clock.day, regs := s.load.clock.regs, fired := s.load.clock.fired } := congrArg State.clock s.load_eq
    obtain ⟨_, hout, hcommits⟩ := State.load_reserve ht
    refine ⟨s.load_state, hclock, State.load_fired ht, fun hrolls => ?rolls, fun hrolls => ?stays, fun hmoved => ?boundary,
      fun hmoved => ?noBoundary, fun n => ⟨fun x why hw hx hb hf => ?trickle, fun h => ?noTrickle⟩,
      fun i b hb => ⟨fun d hw hd hp => ?lockout, fun h => ?noLockout, ?departure⟩,
      fun i c hc => ⟨fun ha hp hn => ?later, fun ha hp hn => ?past, fun h => ?kept, ?windowEnd⟩, ?plans⟩
    case rolls =>
      obtain ⟨hday, hbus⟩ := State.afterOffset_rolls hrolls.1 hrolls.2
      exact ⟨(State.load_clock_day ht).trans hday,
        fun i => (congrArg (Table.get · i) (State.load_buses ht)).trans (hbus i)⟩
    case stays =>
      obtain ⟨hday, hbuses⟩ := State.afterOffset_stays hrolls
      exact ⟨(State.load_clock_day ht).trans hday,
        fun i => congrArg (Table.get · i) ((State.load_buses ht).trans hbuses)⟩
    case boundary =>
      rw [State.load_clock_day ht]
      exact (State.load_rollover ht).trans (State.afterOffset_boundary hmoved)
    case noBoundary =>
      refine (State.load_rollover ht).trans ?_
      rw [State.afterOffset_still hmoved]
      rfl
    case trickle => exact (s.load_port_eq n).trans ((if_neg hw).trans (Port.takeTrickle_new hx hb hf))
    case noTrickle =>
      rw [s.load_port_eq n]
      split
      · rfl
      · next hw => exact Port.takeTrickle_same (h.resolve_left hw)
    case lockout =>
      exact (State.load_lockout ht i).trans ((State.beforeArmLead_lockout ht hb).1 d hw hd hp)
    case noLockout =>
      refine (State.load_lockout ht i).trans (((State.beforeArmLead_lockout ht hb).2 h).trans ?_)
      exact State.afterTrickle_regsOf fun r hr => by simp [hr]
    case departure =>
      refine State.load_regsOf ht fun r hr => ?_
      have hk : r.kind = .departure := by simpa using (Bool.and_eq_true_iff.mp hr).1
      rw [hk]
      decide
    case later => exact (hcommits i c hc).2.1 ha hp hn
    case past =>
      obtain ⟨hcommit, hnone, hstart⟩ := (hcommits i c hc).2.2 ha hp hn
      refine ⟨hcommit, hnone, hstart.trans (State.beforeArmLead_reserve ht fun r hr => ?_)⟩
      exact .inr (by simpa using (Bool.and_eq_true_iff.mp hr).1)
    case kept =>
      obtain ⟨hcommit, hstarts⟩ := (hcommits i c hc).1 h
      refine ⟨hcommit, hstarts.trans (State.beforeArmLead_reserve ht fun r hr => ?_)⟩
      simpa using (Bool.and_eq_true_iff.mp hr).1
    case windowEnd =>
      refine State.load_regsOf ht fun r hr => ?_
      have hk : r.kind = .windowEnd := by simpa using (Bool.and_eq_true_iff.mp hr).1
      rw [hk]
      decide
    case plans =>
      refine State.load_regsOf ht fun r hr => ?_
      have hk : r.kind.owner = 1 := by simpa using hr
      cases e : r.kind <;> rw [e] at hk <;> simp [RegKind.owner] at hk ⊢

end Sys2Proof.Machine
end

section
/-! The Plan Table's chain: selection, the begin and the end of a step, final states, and the crossings of a
RUNNING plan (O15, O16, O17). -/

namespace Sys2Proof.Machine

open Sys2Proof

/-! ### What a plan update leaves -/

theorem State.plan_modPlan (s : State) (i j : Nat) (f : Plan → Plan) :
    (s.modPlan i f).plan j = if j = i then (s.plan j).map f else s.plan j := by
  cases h : s.plan i with
  | none =>
    have hm : s.modPlan i f = s := by rw [State.modPlan, h]
    rw [hm]
    split
    next hj => rw [hj, h]; rfl
    next => rfl
  | some p =>
    rw [State.modPlan_some h, State.plan_putPlan]
    split
    next hj => rw [hj, h]; rfl
    next => rfl

theorem State.bus_modBus (s : State) (i j : Nat) (f : Bus → Bus) :
    (s.modBus i f).bus j = if j = i then (s.bus j).map f else s.bus j := by
  cases h : s.bus i with
  | none =>
    have hm : s.modBus i f = s := by rw [State.modBus, h]
    rw [hm]
    split
    next hj => rw [hj, h]; rfl
    next => rfl
  | some b =>
    rw [State.modBus_some h, State.bus_putBus]
    split
    next hj => rw [hj, h]; rfl
    next => rfl

@[simp] theorem State.plan_register (s : State) (k : RegKind) (i t j : Nat) : (s.register k i t).plan j = s.plan j := by
  rw [State.plan, register_plans]; rfl

@[simp] theorem State.bus_register (s : State) (k : RegKind) (i t j : Nat) : (s.register k i t).bus j = s.bus j := by
  rw [State.bus, register_buses]; rfl

@[simp] theorem State.now_register (s : State) (k : RegKind) (i t : Nat) : (s.register k i t).now = s.now :=
  (State.register_onlyRegs s k i t).now

@[simp] theorem State.plan_withdraw (s : State) (f : Registration → Bool) (j : Nat) : (s.withdraw f).plan j = s.plan j := rfl

@[simp] theorem State.bus_withdraw (s : State) (f : Registration → Bool) (j : Nat) : (s.withdraw f).bus j = s.bus j := rfl

@[simp] theorem State.plan_modBus (s : State) (i j : Nat) (f : Bus → Bus) : (s.modBus i f).plan j = s.plan j := by
  rw [State.plan, modBus_plans]; rfl

@[simp] theorem State.bus_modPlan (s : State) (i j : Nat) (f : Plan → Plan) : (s.modPlan i f).bus j = s.bus j := by
  rw [State.bus, modPlan_buses]; rfl

@[simp] theorem State.bus_putPlan (s : State) (i j : Nat) (p : Plan) : (s.putPlan i p).bus j = s.bus j := rfl

/-- The release of power writes port records only. -/
theorem State.releasePower_rest (s : State) (b : Nat) : s.releasePower b = { s with ports := (s.releasePower b).ports } := by
  rw [State.releasePower]
  cases s.bus b with
  | none => rfl
  | some bus =>
    cases h : bus.location with
    | none => simp only [h]
    | some n => simp only [h]; rfl

theorem State.plan_releasePower (s : State) (b j : Nat) : (s.releasePower b).plan j = s.plan j := by
  rw [s.releasePower_rest]; rfl

theorem State.bus_releasePower (s : State) (b j : Nat) : (s.releasePower b).bus j = s.bus j := by
  rw [s.releasePower_rest]; rfl

/-! ### Selection -/

theorem planTask_select {s : State} {b : Nat} {bus : Bus} (hb : s.bus b = some bus) :
    planTask b .select s = s.selectPlan bus := by
  simp only [planTask, hb]

theorem State.selectPlan_head {s : State} {bus : Bus} {i : Nat} {rest : List Nat} (hl : bus.location ≠ none)
    (hk : bus.block = .enabled) (hr : s.runningPlan bus = none) (hh : bus.prioList ++ bus.stdList = i :: rest) :
    s.selectPlan bus = (s.modPlan i fun p => { p with state := .running }, some (.start i)) := by
  have hl' : bus.location.isSome = true := Option.isSome_iff_ne_none.2 hl
  rw [State.selectPlan, if_pos ⟨hl', hk, hr⟩, Bus.listedPlans, hh]

theorem State.selectPlan_none {s : State} {bus : Bus} (h : bus.location = none ∨ bus.block = .blocked
    ∨ s.runningPlan bus ≠ none ∨ bus.prioList ++ bus.stdList = []) : s.selectPlan bus = (s, none) := by
  rw [State.selectPlan]
  split
  next hc =>
    obtain ⟨hl, hk, hr⟩ := hc
    rcases h with h | h | h | h
    · rw [h] at hl; cases hl
    · rw [h] at hk; cases hk
    · exact absurd hr h
    · rw [Bus.listedPlans, h]
  next => rfl

/-! ### The begin of a step -/

theorem stepEnded_importTo {now : Nat} {b : Bus} {st : PlanStep} (h : st.kind = .importTo) :
    stepEnded now b st = true ↔ ∃ x, b.soe = some x ∧ st.value ≤ x := by
  cases hs : b.soe <;> simp [stepEnded, h, hs]

theorem stepEnded_exportTo {now : Nat} {b : Bus} {st : PlanStep} (h : st.kind = .exportTo) :
    stepEnded now b st = true ↔ ∃ x, b.soe = some x ∧ (x ≤ st.value ∨ x ≤ b.dischargeFloor) := by
  cases hs : b.soe <;> simp [stepEnded, h, hs]

theorem stepEnded_holdUntil {now : Nat} {b : Bus} {st : PlanStep} (h : st.kind = .holdUntil) :
    stepEnded now b st = true ↔ st.value ≤ now := by
  simp [stepEnded, h]

theorem PlanStep.late_iff (now : Nat) (st : PlanStep) : st.late now = true ↔ ∃ e, st.endBy = some e ∧ e ≤ now := by
  cases h : st.endBy <;> simp [PlanStep.late, h]

theorem PlanStep.early_iff (now : Nat) (st : PlanStep) : st.early now = true ↔ ∃ t, st.notBefore = some t ∧ now < t := by
  cases h : st.notBefore <;> simp [PlanStep.early, h]

theorem planTask_start {s : State} {b i : Nat} {bus : Bus} {p : Plan} {st : PlanStep} (hb : s.bus b = some bus)
    (hp : s.plan i = some p) (hst : p.step? = some st) : planTask b (.start i) s = s.beginStep b i bus st := by
  simp only [planTask, hb, hp, hst]

@[simp] theorem State.plan_registerHold (s : State) (i j : Nat) (st : PlanStep) : (s.registerHold i st).plan j = s.plan j := by
  rw [State.registerHold]
  split
  · exact State.plan_register ..
  · rfl

@[simp] theorem State.now_registerHold (s : State) (i : Nat) (st : PlanStep) : (s.registerHold i st).now = s.now := by
  rw [State.registerHold]
  split
  · exact State.now_register ..
  · rfl

@[simp] theorem State.bus_registerHold (s : State) (i j : Nat) (st : PlanStep) : (s.registerHold i st).bus j = s.bus j := by
  rw [State.registerHold]
  split
  · exact State.bus_register ..
  · rfl

@[simp] theorem State.plan_registerEndBy (s : State) (i j : Nat) (st : PlanStep) : (s.registerEndBy i st).plan j = s.plan j := by
  rw [State.registerEndBy]
  cases st.endBy with
  | none => rfl
  | some e => exact State.plan_register ..

@[simp] theorem State.bus_registerEndBy (s : State) (i j : Nat) (st : PlanStep) : (s.registerEndBy i st).bus j = s.bus j := by
  rw [State.registerEndBy]
  cases st.endBy with
  | none => rfl
  | some e => exact State.bus_register ..

@[simp] theorem State.now_registerEndBy (s : State) (i : Nat) (st : PlanStep) : (s.registerEndBy i st).now = s.now := by
  rw [State.registerEndBy]
  cases st.endBy with
  | none => rfl
  | some e => exact State.now_register ..

section Begin

variable {s : State} {b i : Nat} {bus : Bus} {p : Plan} {st : PlanStep}

theorem State.beginStep_ended (he : stepEnded s.now bus st = true) : s.beginStep b i bus st = (s, some (.finish i)) := by
  rw [State.beginStep, if_pos he]

theorem State.beginStep_late (he : ¬ stepEnded s.now bus st = true) (hl : ∃ e, st.endBy = some e ∧ e ≤ s.now) :
    s.beginStep b i bus st
      = (State.releasePower b ((s.registerHold i st).finalise i .stopped .deadline), some .select) := by
  have hl' : st.late s.now = true := (st.late_iff _).2 hl
  simp only [State.beginStep, if_neg he, if_pos hl']

/-- The state after points 1 and 2 of the begin of a step. -/
def State.timedStep (s : State) (i : Nat) (st : PlanStep) : State := (s.registerHold i st).registerEndBy i st

theorem State.beginStep_stays (he : ¬ stepEnded s.now bus st = true) (hl : ¬ ∃ e, st.endBy = some e ∧ e ≤ s.now) :
    s.beginStep b i bus st = ((s.timedStep i st).enterCondition b i bus st, none) := by
  have hl' : ¬ st.late s.now = true := fun h => hl ((st.late_iff _).1 h)
  simp only [State.beginStep, if_neg he, if_neg hl']
  rfl

theorem State.timedStep_now : (s.timedStep i st).now = s.now := by
  rw [State.timedStep, State.now_registerEndBy, State.now_registerHold]

theorem State.timedStep_plan (hp : s.plan i = some p) : (s.timedStep i st).plan i = some p := by
  rw [State.timedStep, State.plan_registerEndBy, State.plan_registerHold, hp]

theorem State.timedStep_bus (hb : s.bus b = some bus) : (s.timedStep i st).bus b = some bus := by
  rw [State.timedStep, State.bus_registerEndBy, State.bus_registerHold, hb]

theorem State.setCond_some (hp : s.plan i = some p) (c : StepCond) :
    s.setCond i c = s.putPlan i { p with cond := some c } := State.modPlan_some hp _

theorem State.enterCondition_early (hp : s.plan i = some p) {t : Nat} (ht : st.notBefore = some t) (hn : s.now < t) :
    s.enterCondition b i bus st = (s.putPlan i { p with cond := some .timedWait }).register .notBefore i t := by
  have he : st.early s.now = true := (st.early_iff _).2 ⟨t, ht, hn⟩
  rw [State.enterCondition, if_pos he, State.setCond_some hp, ht]
  rfl

theorem State.enterCondition_soeWait (hb : s.bus b = some bus) (hp : s.plan i = some p)
    (hn : ¬ ∃ t, st.notBefore = some t ∧ s.now < t) (hk : st.kind ≠ .holdUntil) (hu : bus.soe = none) :
    s.enterCondition b i bus st
      = (s.putPlan i { p with cond := some .soeWait }).putBus b (bus.raise BusFlag.soeUnknown) := by
  have he : ¬ st.early s.now = true := fun h => hn ((st.early_iff _).1 h)
  have hb' : (s.putPlan i { p with cond := some .soeWait }).bus b = some bus := hb
  rw [State.enterCondition, if_neg he, if_pos ⟨hk, hu⟩, State.setCond_some hp, State.modBus_some hb']

theorem State.enterCondition_active (hp : s.plan i = some p) (hn : ¬ ∃ t, st.notBefore = some t ∧ s.now < t)
    (hk : st.kind = .holdUntil ∨ bus.soe ≠ none) :
    s.enterCondition b i bus st = s.putPlan i { p with cond := some .active } := by
  have he : ¬ st.early s.now = true := fun h => hn ((st.early_iff _).1 h)
  have hk' : ¬ (st.kind ≠ .holdUntil ∧ bus.soe = none) := fun ⟨h1, h2⟩ => hk.elim h1 fun h => h h2
  rw [State.enterCondition, if_neg he, if_neg hk', State.setCond_some hp]

end Begin

/-- Settles O15: selection by its two outcomes, the end condition by the step's kind, and the begin of a step by
the points of R47. -/
theorem selectionBeginsSteps : Obligations.SelectionBeginsSteps := by
  refine ⟨?select, ?ended, ?begins⟩
  case select =>
    intro s b bus hb
    exact ⟨fun i rest hl hk hr hh => (planTask_select hb).trans (State.selectPlan_head hl hk hr hh),
      fun h => (planTask_select hb).trans (State.selectPlan_none h)⟩
  case ended =>
    exact fun now b st => ⟨stepEnded_importTo, stepEnded_exportTo, stepEnded_holdUntil⟩
  case begins =>
    intro s b i bus p st hb hp hst held ended passed ahead timed conditioned
    have htask := planTask_start hb hp hst
    have hnow : (s.timedStep i st).now = s.now := State.timedStep_now
    have hplan : (s.timedStep i st).plan i = some p := State.timedStep_plan hp
    have hbus : (s.timedStep i st).bus b = some bus := State.timedStep_bus hb
    refine ⟨?done, ?late, ?early, ?unknown, ?active⟩
    case done => exact fun he => htask.trans (State.beginStep_ended he)
    case late => exact fun he hl => htask.trans (State.beginStep_late he hl)
    case early =>
      intro t he hl ht hn
      rw [htask, State.beginStep_stays he hl, State.enterCondition_early hplan ht (hnow ▸ hn)]
      rfl
    case unknown =>
      intro he hl hn hk hu
      rw [htask, State.beginStep_stays he hl, State.enterCondition_soeWait hbus hplan (hnow ▸ hn) hk hu]
      rfl
    case active =>
      intro he hl hn hk
      rw [htask, State.beginStep_stays he hl, State.enterCondition_active hplan (hnow ▸ hn) hk]
      rfl

/-! ### The end of a step, and final states -/

theorem planTask_finish {s : State} {b i : Nat} {bus : Bus} {p : Plan} (hb : s.bus b = some bus)
    (hp : s.plan i = some p) : planTask b (.finish i) s = s.endStep b i bus p := by
  simp only [planTask, hb, hp]

section Release

variable {s : State} {b : Nat} {bus : Bus} {n : PortNo}

theorem State.releasePower_at (hb : s.bus b = some bus) (hl : bus.location = some n) :
    s.releasePower b = s.updPort n fun p => (p.importToTierA (s.tierAGrant n)).zeroExport := by
  simp only [State.releasePower, hb, hl]

theorem State.releasePower_away (hb : s.bus b = some bus) (hl : bus.location = none) : s.releasePower b = s := by
  simp only [State.releasePower, hb, hl]

theorem Setpoint.make_not_exp (w : Nat) : (Setpoint.make .imp w).dir ≠ .exp := by
  unfold Setpoint.make
  split <;> exact Dir.noConfusion

theorem Port.release_imp (p : Port) (g : Nat) (h : p.held.dir = .imp) :
    ((p.importToTierA g).zeroExport).held = .make .imp (min p.held.mag g) := by
  rw [Port.importToTierA, if_pos h, Port.zeroExport, if_neg (Setpoint.make_not_exp _)]

theorem Port.release_exp (p : Port) (g : Nat) (h : p.held.dir = .exp) : ((p.importToTierA g).zeroExport).held = .zero := by
  have hi : ¬ p.held.dir = .imp := by rw [h]; exact Dir.noConfusion
  rw [Port.importToTierA, if_neg hi, Port.zeroExport, if_pos h]
  rfl

theorem Port.release_none (p : Port) (g : Nat) (h : p.held.dir = .none) : ((p.importToTierA g).zeroExport).held = p.held := by
  have hi : ¬ p.held.dir = .imp := by rw [h]; exact Dir.noConfusion
  have he : ¬ p.held.dir = .exp := by rw [h]; exact Dir.noConfusion
  rw [Port.importToTierA, if_neg hi, Port.zeroExport, if_neg he]

theorem State.releasePower_held (hb : s.bus b = some bus) (hl : bus.location = some n) :
    ((s.releasePower b).port n).held = (((s.port n).importToTierA (s.tierAGrant n)).zeroExport).held := by
  rw [State.releasePower_at hb hl, State.port_updPort, if_pos rfl, Port.settle_held]

end Release

/-- The record of a plan that enters a final state. -/
def Plan.ended (st : PlanState) (o : PlanOutcome) (now : Nat) (p : Plan) : Plan :=
  { p with state := st, outcome := some o, finish := some now, cond := none, final := true }

section Final

variable {s : State} {i : Nat} {p : Plan} {b : Bus}

theorem State.finalise_eq (hp : s.plan i = some p) (hb : s.bus p.busSlot = some b) (st : PlanState) (o : PlanOutcome) :
    s.finalise i st o = ((s.putPlan i (p.ended st o s.now)).putBus p.busSlot (b.unlist i)).withdrawPlan i := by
  have hb' : (s.putPlan i (p.ended st o s.now)).bus p.busSlot = some b := hb
  simp only [State.finalise, hp]
  exact congrArg (State.withdrawPlan i) (State.modBus_some hb' _)

theorem State.finalise_plan (hp : s.plan i = some p) (st : PlanState) (o : PlanOutcome) (j : Nat) :
    (s.finalise i st o).plan j = if j = i then some (p.ended st o s.now) else s.plan j := by
  simp only [State.finalise, hp, State.withdrawPlan, State.plan_withdraw, State.plan_modBus]
  exact State.plan_putPlan s i j _

theorem State.finalise_bus (hp : s.plan i = some p) (hb : s.bus p.busSlot = some b) (st : PlanState) (o : PlanOutcome)
    (j : Nat) : (s.finalise i st o).bus j = if j = p.busSlot then some (b.unlist i) else s.bus j := by
  rw [State.finalise_eq hp hb]
  exact State.bus_putBus s p.busSlot j _

theorem State.finalise_rest (s : State) (i : Nat) (st : PlanState) (o : PlanOutcome) : s.finalise i st o =
    { s with clock := (s.finalise i st o).clock, buses := (s.finalise i st o).buses
             plans := (s.finalise i st o).plans } := by
  rw [State.finalise]
  cases hp : s.plan i with
  | none => rfl
  | some p =>
    simp only [State.modBus]
    cases h : (s.putPlan i { p with state := st, outcome := some o, finish := some s.now, cond := none, final := true }).bus
      p.busSlot <;> rfl

end Final

/-- Settles O16: the end of a step by what follows it, the release of power by the setpoint's direction, and the
fields a final state writes. -/
theorem stepEndsAndFinalPlans : Obligations.StepEndsAndFinalPlans := by
  refine ⟨?ends, ?release, ?final⟩
  case ends =>
    intro s b i bus p hb hp freed
    have htask := planTask_finish hb hp
    have hplan : freed.plan i = some p := (State.plan_releasePower _ _ _).trans hp
    refine ⟨?last, ?paused, ?next⟩
    case last =>
      intro hl
      rw [htask, State.endStep, if_pos hl]
      rfl
    case paused =>
      intro hl hc hq
      rw [htask, State.endStep, if_neg (by omega), if_pos ⟨hc, hq⟩]
      exact congrArg (·, some PlanTask.select) (State.modPlan_some hplan _)
    case next =>
      intro hl hc
      have hn : ¬ (p.cls = .standard ∧ bus.prioList ≠ []) := by
        rintro ⟨h1, h2⟩
        rcases hc with hc | hc
        · rw [h1] at hc; cases hc
        · exact h2 hc
      rw [htask, State.endStep, if_neg (by omega), if_neg hn]
      exact congrArg (·, some (PlanTask.start i)) (State.modPlan_some hplan _)
  case release =>
    intro s b bus n hb hl
    have hheld := State.releasePower_held hb hl
    refine ⟨fun h => hheld.trans (Port.release_imp _ _ h), fun h => hheld.trans (Port.release_exp _ _ h),
      fun h => hheld.trans (Port.release_none _ _ h), ?others, s.releasePower_rest b⟩
    case others =>
      intro m hm
      rw [State.releasePower_at hb hl, State.port_updPort, if_neg hm]
  case final =>
    intro s i p b st o hp hb
    refine ⟨_, rfl, ?record, ?lists, ?plans, ?buses, ?clock, s.finalise_rest i st o⟩
    case record => rw [State.finalise_plan hp, if_pos rfl]; rfl
    case lists => rw [State.finalise_bus hp hb, if_pos rfl]; rfl
    case plans => exact fun j hj => (State.finalise_plan hp st o j).trans (if_neg hj)
    case buses => exact fun j hj => (State.finalise_bus hp hb st o j).trans (if_neg hj)
    case clock => rw [State.finalise_eq hp hb]; rfl

/-! ### The crossings of a RUNNING plan -/

section Crossings

variable {s : State} {i : Nat} {p : Plan}

theorem State.actNotBefore_waiting {st : PlanStep} {b : Bus} (hp : s.plan i = some p) (hr : p.state = .running)
    (hc : p.cond = some .timedWait) (hst : p.step? = some st) (hb : s.bus p.busSlot = some b) :
    s.actNotBefore i = if st.kind ≠ .holdUntil ∧ b.soe = none then
      (s.putPlan i { p with cond := some .soeWait }).putBus p.busSlot (b.raise BusFlag.soeUnknown)
    else s.putPlan i { p with cond := some .active } := by
  have hb' : (s.putPlan i { p with cond := some .soeWait }).bus p.busSlot = some b := hb
  simp only [State.actNotBefore, hp, if_pos (And.intro hr hc), hst, hb]
  rw [State.modBus_some hb']

theorem State.actNotBefore_idle (h : ∀ p, s.plan i = some p → p.state ≠ .running) : s.actNotBefore i = s := by
  rw [State.actNotBefore]
  cases hp : s.plan i with
  | none => rfl
  | some p => exact if_neg fun hc => h p hp hc.1

theorem State.actHoldUntil_running (hp : s.plan i = some p) (hr : p.state = .running) :
    s.actHoldUntil i = s.stepEnd p.busSlot i := by
  simp only [State.actHoldUntil, hp, hr, if_true]

theorem State.actHoldUntil_idle (h : ∀ p, s.plan i = some p → p.state ≠ .running) : s.actHoldUntil i = s := by
  rw [State.actHoldUntil]
  cases hp : s.plan i with
  | none => rfl
  | some p => exact if_neg (h p hp)

theorem State.actEndBy_running (hp : s.plan i = some p) (hr : p.state = .running) :
    s.actEndBy i = s.deadline p.busSlot i := by
  simp only [State.actEndBy, hp, hr, if_true]

theorem State.actEndBy_idle (h : ∀ p, s.plan i = some p → p.state ≠ .running) : s.actEndBy i = s := by
  rw [State.actEndBy]
  cases hp : s.plan i with
  | none => rfl
  | some p => exact if_neg (h p hp)

end Crossings

/-- Settles O17: each crossing by whether its plan is RUNNING. -/
theorem planCrossings : Obligations.PlanCrossings := by
  intro s slot T
  refine ⟨?notBefore, ?holdUntil, ?endBy⟩
  case notBefore =>
    intro hd u
    have hx : exec (.notBeforeCrossing slot) s = .next (u.actNotBefore slot.val) := takeCrossing_due hd rfl rfl
    exact ⟨fun p st b hp hr hc hst hb => hx.trans (congrArg _ (State.actNotBefore_waiting (s := u) hp hr hc hst hb)),
      fun h => hx.trans (congrArg _ (State.actNotBefore_idle (s := u) h))⟩
  case holdUntil =>
    intro hd u
    have hx : exec (.holdUntilCrossing slot) s = .next (u.actHoldUntil slot.val) := takeCrossing_due hd rfl rfl
    exact ⟨fun p hp hr => hx.trans (congrArg _ (State.actHoldUntil_running (s := u) hp hr)),
      fun h => hx.trans (congrArg _ (State.actHoldUntil_idle (s := u) h))⟩
  case endBy =>
    intro hd u
    have hx : exec (.endByCrossing slot) s = .next (u.actEndBy slot.val) := takeCrossing_due hd rfl rfl
    exact ⟨fun p hp hr => hx.trans (congrArg _ (State.actEndBy_running (s := u) hp hr)),
      fun h => hx.trans (congrArg _ (State.actEndBy_idle (s := u) h))⟩

end Sys2Proof.Machine
end

section
/-! Blocking faults and the return walk (O13), PLAN_SUBMIT (O18), PLAN_CANCEL and PLAN_RETIRE (O19). -/

namespace Sys2Proof.Machine

open Sys2Proof

/-! ### The return walk without assumptions on the lists -/

/-- The buses differ in their lists alone; plans and registrations may differ. -/
structure State.Unlists (s t : State) : Prop where
  bus  : ∀ j b, s.bus j = some b → ∃ c, t.bus j = some c ∧ c = { b with prioList := c.prioList, stdList := c.stdList }
  rest : t = { s with clock := t.clock, buses := t.buses, plans := t.plans }

theorem State.Unlists.refl (s : State) : s.Unlists s := ⟨fun _ b h => ⟨b, h, rfl⟩, rfl⟩

theorem State.Unlists.trans {s t u : State} (h : s.Unlists t) (k : t.Unlists u) : s.Unlists u where
  bus := by
    intro j b hb
    obtain ⟨c, hc, ec⟩ := h.bus j b hb
    obtain ⟨d, hd, ed⟩ := k.bus j c hc
    exact ⟨d, hd, by rw [ed, ec]⟩
  rest := by
    rw [k.rest, h.rest]

theorem State.finalise_unlists (s : State) (i : Nat) (st : PlanState) (o : PlanOutcome) : s.Unlists (s.finalise i st o) where
  bus := by
    intro j b hb
    cases hp : s.plan i with
    | none => exact ⟨b, by rw [State.finalise, hp]; exact hb, rfl⟩
    | some p =>
      simp only [State.finalise, hp, State.withdrawPlan, State.bus_withdraw, State.bus_modBus]
      split
      · exact ⟨b.unlist i, by rw [State.bus_putPlan, hb]; rfl, rfl⟩
      · exact ⟨b, hb, rfl⟩
  rest := State.finalise_rest s i st o

/-- Plans become final one after the other, each with the state and outcome f gives it. -/
def State.finaliseAll (f : Nat → PlanState × PlanOutcome) (l : List Nat) (s : State) : State :=
  l.foldl (fun t j => t.finalise j (f j).1 (f j).2) s

theorem State.finaliseAll_unlists (f : Nat → PlanState × PlanOutcome) (l : List Nat) :
    ∀ s : State, s.Unlists (s.finaliseAll f l) := by
  induction l with
  | nil => exact State.Unlists.refl
  | cons j l ih => exact fun s => (State.finalise_unlists s j _ _).trans (ih _)

/-- How the return walk ends a plan, by the RUNNING plan of the bus. -/
def returnEnd (running : Option Nat) (j : Nat) : PlanState × PlanOutcome :=
  if running = some j then (.stopped, .busFault) else (.returned, .busBlocked)

/-- The order of the return walk over the listed plans. -/
def returnOrder (running : Option Nat) (l : List Nat) : List Nat := running.toList ++ l.filter fun j => running != some j

theorem State.returnWalk_eq {s : State} {i : Nat} {b : Bus} (hb : s.bus i = some b) : s.returnWalk i =
    s.finaliseAll (returnEnd (s.runningPlan b)) (returnOrder (s.runningPlan b) b.listedPlans) := by
  have hrest (t : State) : (b.listedPlans.filter fun j => s.runningPlan b != some j).foldl
      (fun u j => u.finalise j .returned .busBlocked) t
      = t.finaliseAll (returnEnd (s.runningPlan b)) (b.listedPlans.filter fun j => s.runningPlan b != some j) := by
    refine List.foldl_ext _ _ _ fun u j hj => ?_
    have hne : s.runningPlan b ≠ some j := by simpa using (List.mem_filter.1 hj).2
    rw [returnEnd, if_neg hne]
  simp only [State.returnWalk, hb, hrest, returnOrder]
  cases hr : s.runningPlan b with
  | none => rfl
  | some j =>
    rw [State.finaliseAll, State.finaliseAll, List.foldl_append]
    simp only [Option.toList_some, List.foldl_cons, List.foldl_nil, returnEnd, if_true]

/-! ### The return walk where lists and plans agree -/

/-- A bus record whose lists have lost the slots of l. -/
def Bus.unlistAll (l : List Nat) (b : Bus) : Bus :=
  { b with prioList := b.prioList.filter (· ∉ l), stdList := b.stdList.filter (· ∉ l) }

/-- A clock without the registrations of the plans of l. -/
def Clock.withoutPlans (l : List Nat) (c : Clock) : Clock :=
  { c with regs := c.regs.filter fun r => !(r.kind.owner == 1 && decide (r.slot ∈ l))
           fired := c.fired.filter fun r => !(r.kind.owner == 1 && decide (r.slot ∈ l)) }

theorem Bus.unlistAll_nil (b : Bus) : b.unlistAll [] = b := by
  simp [Bus.unlistAll]

theorem Bus.unlistAll_cons (j : Nat) (l : List Nat) (b : Bus) : b.unlistAll (j :: l) = (b.unlist j).unlistAll l := by
  have hf (m : List Nat) : m.filter (· ∉ j :: l) = (m.filter (· != j)).filter (· ∉ l) := by
    rw [List.filter_filter]
    exact List.filter_congr fun x _ => Bool.eq_iff_iff.2 (by simp [and_comm])
  rw [Bus.unlistAll, hf, hf]
  rfl

theorem Clock.withoutPlans_nil (c : Clock) : c.withoutPlans [] = c := by
  simp [Clock.withoutPlans]

theorem Clock.withoutPlans_cons (j : Nat) (l : List Nat) (c : Clock) : c.withoutPlans (j :: l) =
    Clock.withoutPlans l { c with regs := c.regs.filter fun r => !ofRecord 1 j r
                                  fired := c.fired.filter fun r => !ofRecord 1 j r } := by
  have hf (m : List Registration) : (m.filter fun r => !(r.kind.owner == 1 && decide (r.slot ∈ j :: l)))
      = (m.filter fun r => !ofRecord 1 j r).filter fun r => !(r.kind.owner == 1 && decide (r.slot ∈ l)) := by
    rw [List.filter_filter]
    refine List.filter_congr fun r _ => ?_
    by_cases h1 : r.kind.owner = 1 <;> by_cases h2 : r.slot = j <;> simp [ofRecord, h1, h2]
  rw [Clock.withoutPlans, hf, hf]
  rfl

/-- The plans of l have left bus i and become final as f says. -/
structure State.Finalised (i : Nat) (f : Nat → PlanState × PlanOutcome) (l : List Nat) (b : Bus) (s t : State) : Prop where
  bus    : t.bus i = some (b.unlistAll l)
  others : ∀ k, k ≠ i → t.bus k = s.bus k
  ended  : ∀ j p, j ∈ l → s.plan j = some p → t.plan j = some (p.ended (f j).1 (f j).2 s.now)
  plans  : ∀ j, j ∉ l → t.plan j = s.plan j
  clock  : t.clock = s.clock.withoutPlans l

theorem State.finaliseAll_finalised {i : Nat} (f : Nat → PlanState × PlanOutcome) (l : List Nat) : ∀ (s : State) (b : Bus),
    l.Nodup → s.bus i = some b → (∀ j ∈ l, ∃ p, s.plan j = some p ∧ p.busSlot = i) →
    s.Finalised i f l b (s.finaliseAll f l) := by
  induction l with
  | nil =>
    intro s b _ hb _
    exact ⟨by rw [Bus.unlistAll_nil]; exact hb, fun _ _ => rfl, (fun _ _ h => by cases h), fun _ _ => rfl,
      by rw [Clock.withoutPlans_nil]; rfl⟩
  | cons j l ih =>
    intro s b hn hb hp
    obtain ⟨hj, hn⟩ := List.nodup_cons.1 hn
    obtain ⟨p, hpj, hps⟩ := hp j (.head _)
    have hbp : s.bus p.busSlot = some b := by rw [hps]; exact hb
    have hplan := State.finalise_plan hpj (f j).1 (f j).2
    have hbus := State.finalise_bus hpj hbp (f j).1 (f j).2
    have hnow : (s.finalise j (f j).1 (f j).2).now = s.now := by rw [State.finalise_eq hpj hbp]; rfl
    have hclock : (s.finalise j (f j).1 (f j).2).clock = { s.clock with
        regs := s.clock.regs.filter fun r => !ofRecord 1 j r
        fired := s.clock.fired.filter fun r => !ofRecord 1 j r } := by rw [State.finalise_eq hpj hbp]; rfl
    have hl : ∀ k ∈ l, k ≠ j := fun k hk hkj => hj (hkj ▸ hk)
    have h := ih (s.finalise j (f j).1 (f j).2) (b.unlist j) hn (by rw [hbus, if_pos hps.symm])
      (fun k hk => by rw [hplan, if_neg (hl k hk)]; exact hp k (.tail _ hk))
    refine ⟨?bus, ?others, ?ended, ?plans, ?clock⟩
    case bus => exact h.bus.trans (by rw [Bus.unlistAll_cons])
    case others => exact fun k hk => (h.others k hk).trans (by rw [hbus, if_neg (hps ▸ hk)])
    case ended =>
      intro k q hk hq
      rcases List.mem_cons.1 hk with rfl | hk
      · rw [hpj] at hq
        cases hq
        exact (h.plans k hj).trans (by rw [hplan, if_pos rfl])
      · exact (h.ended k q hk (by rw [hplan, if_neg (hl k hk)]; exact hq)).trans (by rw [hnow])
    case plans =>
      intro k hk
      obtain ⟨hkj, hkl⟩ := not_or.1 fun h => hk (List.mem_cons.2 h)
      exact (h.plans k hkl).trans (by rw [hplan, if_neg hkj])
    case clock => exact h.clock.trans (by rw [hclock, Clock.withoutPlans_cons])

theorem State.runningPlan_mem {s : State} {b : Bus} {j : Nat} (h : s.runningPlan b = some j) : j ∈ b.listedPlans :=
  List.mem_of_find?_eq_some h

theorem mem_returnOrder {running : Option Nat} {l : List Nat} (h : ∀ j, running = some j → j ∈ l) (k : Nat) :
    k ∈ returnOrder running l ↔ k ∈ l := by
  rw [returnOrder, List.mem_append, List.mem_filter, Option.mem_toList, bne_iff_ne]
  exact ⟨fun hk => hk.elim (h k) And.left, fun hk => (em _).imp id fun hne => ⟨hk, hne⟩⟩

theorem returnOrder_nodup {running : Option Nat} {l : List Nat} (hn : l.Nodup) : (returnOrder running l).Nodup := by
  cases running with
  | none => simpa [returnOrder] using hn.filter _
  | some j =>
    rw [returnOrder, Option.toList_some]
    exact List.nodup_cons.2 ⟨fun h => by simpa using (List.mem_filter.1 h).2, hn.filter _⟩

section Lists

variable {s : State} {i j : Nat} {b : Bus} {p : Plan}

theorem Bus.ListsOk.plan (h : b.ListsOk s i) (hj : j ∈ b.listedPlans) :
    ∃ p, s.plan j = some p ∧ p.busSlot = i ∧ p.state.listed = true := by
  rcases List.mem_append.1 hj with hj | hj
  · obtain ⟨p, hp, hs, _, hl⟩ := h.priority j hj
    exact ⟨p, hp, hs, hl⟩
  · obtain ⟨p, hp, hs, _, hl⟩ := h.standard j hj
    exact ⟨p, hp, hs, hl⟩

/-- In agreeing lists the RUNNING plan is the one whose record says so. -/
theorem Bus.ListsOk.runningPlan_iff (h : b.ListsOk s i) (hj : j ∈ b.listedPlans) (hp : s.plan j = some p) :
    s.runningPlan b = some j ↔ p.state = .running := by
  constructor
  · intro hr
    obtain ⟨q, hq, hs⟩ := State.runningPlan_plan hr
    rw [hp] at hq
    cases hq
    exact hs
  · intro hs
    cases hr : s.runningPlan b with
    | none =>
      have hno := List.find?_eq_none.1 hr j hj
      rw [hp] at hno
      exact absurd (beq_iff_eq.2 hs) hno
    | some k =>
      obtain ⟨q, hq, hqs⟩ := State.runningPlan_plan hr
      exact congrArg some (h.running k j q p (State.runningPlan_mem hr) hj hq hp hqs hs)

theorem Bus.unlistAll_listed {l : List Nat} (h : ∀ k ∈ b.listedPlans, k ∈ l) :
    b.unlistAll l = { b with prioList := [], stdList := [] } := by
  have hp : b.prioList.filter (· ∉ l) = [] := List.filter_eq_nil_iff.2 fun k hk => by
    simpa using h k (List.mem_append_left _ hk)
  have hs : b.stdList.filter (· ∉ l) = [] := List.filter_eq_nil_iff.2 fun k hk => by
    simpa using h k (List.mem_append_right _ hk)
  rw [Bus.unlistAll, hp, hs]

theorem Clock.withoutPlans_congr {l m : List Nat} (h : ∀ k, k ∈ l ↔ k ∈ m) (c : Clock) :
    c.withoutPlans l = c.withoutPlans m := by
  simp only [Clock.withoutPlans, h]

/-- The return walk over agreeing lists. -/
theorem State.returnWalk_finalised (hb : s.bus i = some b) (h : b.ListsOk s i) :
    s.Finalised i (returnEnd (s.runningPlan b)) (returnOrder (s.runningPlan b) b.listedPlans) b (s.returnWalk i) := by
  rw [State.returnWalk_eq hb]
  have hmem := mem_returnOrder fun j (hj : s.runningPlan b = some j) => State.runningPlan_mem hj
  refine State.finaliseAll_finalised _ _ s b (returnOrder_nodup h.nodup) hb fun j hj => ?_
  obtain ⟨p, hp, hs, _⟩ := h.plan ((hmem j).1 hj)
  exact ⟨p, hp, hs⟩

end Lists

/-! ### A blocking fault -/

section Block

variable {s : State} {i : Nat} {b : Bus} {r : FaultReason}

theorem State.dropPower_rest (s : State) (i : Nat) : s.dropPower i = { s with ports := (s.dropPower i).ports } := by
  rw [State.dropPower]
  cases s.bus i with
  | none => rfl
  | some bus =>
    cases h : bus.location with
    | none => simp only [h]
    | some n => simp only [h]; rfl

theorem State.dropPower_port (hb : s.bus i = some b) (m : PortNo) : (s.dropPower i).port m =
    if b.location = some m then Port.settle s.env (s.port m) (s.port m).zeroHeld else s.port m := by
  cases hl : b.location with
  | none => simp only [State.dropPower, hb, hl, reduceCtorEq, if_false]
  | some n =>
    simp only [State.dropPower, hb, hl, State.port_updPort, Option.some.injEq, eq_comm (a := n)]
    split
    next h => rw [h]
    next => rfl

theorem State.blockBus_blocked (hb : s.bus i = some b) (hk : b.block = .blocked) :
    s.blockBus i r = s.putBus i { b with faultCount := addHalf b.faultCount 1 } := by
  simp only [State.blockBus, hb, hk, reduceCtorEq, if_false]

/-- The state of a blocking fault before the port drops its power. -/
def State.walked (s : State) (i : Nat) (b : Bus) (r : FaultReason) : State :=
  (s.putBus i (b.blockWith r s.now)).returnWalk i

theorem State.blockBus_enabled (hb : s.bus i = some b) (hk : b.block = .enabled) :
    s.blockBus i r = (s.walked i b r).dropPower i := by
  simp only [State.blockBus, hb, hk, if_true]
  rfl

theorem State.bus_putBus_self (s : State) (i : Nat) (b : Bus) : (s.putBus i b).bus i = some b := by
  rw [State.bus_putBus, if_pos rfl]

theorem State.walked_unlists (s : State) (i : Nat) (b : Bus) (r : FaultReason) :
    (s.putBus i (b.blockWith r s.now)).Unlists (s.walked i b r) := by
  rw [State.walked, State.returnWalk_eq (s.bus_putBus_self i _)]
  exact State.finaliseAll_unlists _ _ _

theorem State.walked_rest (s : State) (i : Nat) (b : Bus) (r : FaultReason) : s.walked i b r =
    { s with clock := (s.walked i b r).clock, buses := (s.walked i b r).buses, plans := (s.walked i b r).plans } :=
  (s.walked_unlists i b r).rest

theorem State.walked_bus (s : State) (i : Nat) (b : Bus) (r : FaultReason) : ∃ c, (s.walked i b r).bus i = some c
    ∧ c = { b.blockWith r s.now with prioList := c.prioList, stdList := c.stdList } :=
  (s.walked_unlists i b r).bus i _ (s.bus_putBus_self i _)

theorem State.walked_port (s : State) (i : Nat) (b : Bus) (r : FaultReason) (n : PortNo) :
    (s.walked i b r).port n = s.port n := by
  rw [s.walked_rest]
  rfl

theorem State.blockBus_bus (hb : s.bus i = some b) (hk : b.block = .enabled) (j : Nat) :
    (s.blockBus i r).bus j = (s.walked i b r).bus j := by
  rw [State.blockBus_enabled hb hk, State.dropPower_rest]
  rfl

theorem State.blockBus_plan (hb : s.bus i = some b) (hk : b.block = .enabled) (j : Nat) :
    (s.blockBus i r).plan j = (s.walked i b r).plan j := by
  rw [State.blockBus_enabled hb hk, State.dropPower_rest]
  rfl

theorem State.blockBus_clock (hb : s.bus i = some b) (hk : b.block = .enabled) :
    (s.blockBus i r).clock = (s.walked i b r).clock := by
  rw [State.blockBus_enabled hb hk, State.dropPower_rest]

theorem State.blockBus_rest (hb : s.bus i = some b) (hk : b.block = .enabled) : s.blockBus i r =
    { s with clock := (s.blockBus i r).clock, buses := (s.blockBus i r).buses, plans := (s.blockBus i r).plans
             ports := (s.blockBus i r).ports } := by
  rw [State.blockBus_enabled hb hk, State.dropPower_rest, s.walked_rest]

theorem State.blockBus_port (hb : s.bus i = some b) (hk : b.block = .enabled) (m : PortNo) : (s.blockBus i r).port m =
    if b.location = some m then Port.settle (s.walked i b r).env (s.port m) (s.port m).zeroHeld else s.port m := by
  obtain ⟨c, hc, ec⟩ := s.walked_bus i b r
  have hl : c.location = b.location := by rw [ec]; rfl
  rw [State.blockBus_enabled hb hk, State.dropPower_port hc, hl, s.walked_port]

/-- The walk of a blocking fault over agreeing lists. -/
theorem State.walked_finalised (hb : s.bus i = some b) (h : s.ListsAgree) :
    (s.putBus i (b.blockWith r s.now)).Finalised i (returnEnd (s.runningPlan b))
      (returnOrder (s.runningPlan b) b.listedPlans) (b.blockWith r s.now) (s.walked i b r) := by
  obtain ⟨hprio, hstd, hnodup, hlength, hrunning⟩ := h i b hb
  have hok : (b.blockWith r s.now).ListsOk (s.putBus i (b.blockWith r s.now)) i :=
    ⟨hprio, hstd, hnodup, hlength, hrunning⟩
  exact State.returnWalk_finalised (s.bus_putBus_self i _) hok

end Block

/-! ### BUS_UNBLOCK -/

section Unblock

variable {h : ReqHeader} {s : State} {i : Nat} {b : Bus}

theorem exec_busUnblock (h : ReqHeader) (s : State) :
    exec (.busUnblock h) s = takeRequest ⟨h, .busUnblock⟩ (applyBusUnblock h) s := rfl

theorem applyBusUnblock_notFound (hf : s.findBus h.key.toNat = none) : applyBusUnblock h s = refuse s .notFound := by
  simp only [applyBusUnblock, hf]

theorem applyBusUnblock_enabled (hf : s.findBus h.key.toNat = some (i, b)) (hk : b.block = .enabled) :
    applyBusUnblock h s = refuse s .notBlocked := by
  simp only [applyBusUnblock, hf, hk, if_true]

theorem applyBusUnblock_blocked (hf : s.findBus h.key.toNat = some (i, b)) (hk : b.block = .blocked) :
    applyBusUnblock h s = ⟨s.putBus i { b with block := .enabled }, .ok, .none⟩ := by
  simp only [applyBusUnblock, hf, hk, reduceCtorEq, if_false]

end Unblock

/-- Settles O13: BUS_UNBLOCK by its checks; a blocking fault by the bus's block state, and over agreeing lists the
return walk plan by plan. -/
theorem blockingAndUnblocking : Obligations.BlockingAndUnblocking := by
  refine ⟨?unblock, ?fault⟩
  case unblock =>
    intro h s hq
    have hx := exec_busUnblock h s
    refine ⟨?unknown, fun i b hf => ⟨?enabled, ?blocked⟩⟩
    case unknown =>
      exact fun hn => hx.trans (takeRequest_refused hq
        (applyBusUnblock_notFound (s := s.modRing Ring.pop) (State.findBus_none.2 hn)))
    case enabled =>
      exact fun hk => hx.trans (takeRequest_refused hq (applyBusUnblock_enabled (s := s.modRing Ring.pop) hf hk))
    case blocked =>
      exact fun hk => hx.trans (takeRequest_answered hq _ _ _
        (applyBusUnblock_blocked (s := s.modRing Ring.pop) hf hk))
  case fault =>
    intro i r s b hb
    refine ⟨fun hk => State.blockBus_blocked hb hk, fun hk => ?kept, fun hk ha => ?agreeing⟩
    case kept =>
      obtain ⟨c, hc, ec⟩ := s.walked_bus i b r
      have hbus : (s.blockBus i r).bus i = some c := (State.blockBus_bus hb hk i).trans hc
      refine ⟨?block, ?rest, ?port, ?others⟩
      case block => rw [hbus, ec]; rfl
      case rest => rw [hbus, ec]; rfl
      case port =>
        intro n hl
        rw [State.blockBus_port hb hk, if_pos hl]
        exact ⟨Port.settle_held .., Port.settle_state .., Port.settle_session ..⟩
      case others =>
        intro n hl
        rw [State.blockBus_port hb hk, if_neg hl]
    case agreeing =>
      have hw := State.walked_finalised (r := r) hb ha
      have hmem := mem_returnOrder fun j (hj : s.runningPlan b = some j) => State.runningPlan_mem hj
      refine ⟨?record, ?ended, ?plans, ?buses, ?clock, State.blockBus_rest hb hk⟩
      case record =>
        rw [State.blockBus_bus hb hk, hw.bus, Bus.unlistAll_listed (b := b.blockWith r s.now) fun k hk => (hmem k).2 hk]
        rfl
      case ended =>
        intro j p hj hp
        have hend : returnEnd (s.runningPlan b) j = if p.state = .running then (.stopped, .busFault) else
            (.returned, .busBlocked) := by
          rw [returnEnd]
          exact if_congr ((ha i b hb).runningPlan_iff hj hp) rfl rfl
        rw [State.blockBus_plan hb hk, hw.ended j p ((hmem j).2 hj) hp, hend]
        split <;> rfl
      case plans =>
        intro j hj
        rw [State.blockBus_plan hb hk, hw.plans j fun h => hj ((hmem j).1 h)]
        rfl
      case buses =>
        intro k hki
        rw [State.blockBus_bus hb hk, hw.others k hki, State.bus_putBus, if_neg hki]
      case clock =>
        rw [State.blockBus_clock hb hk, hw.clock, Clock.withoutPlans_congr hmem]
        rfl

end Sys2Proof.Machine
end

section
/-! The Plan Table's requests: PLAN_SUBMIT (O18), PLAN_CANCEL and PLAN_RETIRE (O19). -/

namespace Sys2Proof.Machine

open Sys2Proof

/-! ### What PLAN_SUBMIT reads -/

section Fields

variable {h : ReqHeader} {raws : List RawStep} {c : Nat}

theorem storeSteps_some {steps : List PlanStep} (hm : raws.map (RawStep.store c) = steps.map some) :
    storeSteps c raws = some steps := by
  induction raws generalizing steps with
  | nil =>
    cases steps with
    | nil => rfl
    | cons _ _ => cases hm
  | cons r rs ih =>
    cases steps with
    | nil => cases hm
    | cons x xs =>
      obtain ⟨hr, hrs⟩ := List.cons.inj hm
      have hxs := ih hrs
      simp only [storeSteps, hr, hxs]

theorem storeSteps_refused (hm : ∃ r ∈ raws, r.store c = none) : storeSteps c raws = none := by
  induction raws with
  | nil =>
    obtain ⟨r, hr, _⟩ := hm
    cases hr
  | cons r rs ih =>
    obtain ⟨q, hq, hn⟩ := hm
    rcases List.mem_cons.1 hq with rfl | hq
    · simp only [storeSteps, hn]
    · have hrs := ih ⟨q, hq, hn⟩
      cases hr : r.store c <;> simp only [storeSteps, hr, hrs]

theorem exists_stored (hm : ∀ r ∈ raws, r.store c ≠ none) :
    ∃ steps : List PlanStep, raws.map (RawStep.store c) = steps.map some := by
  induction raws with
  | nil => exact ⟨[], rfl⟩
  | cons r rs ih =>
    obtain ⟨steps, hs⟩ := ih fun q hq => hm q (.tail _ hq)
    obtain ⟨st, hst⟩ := Option.ne_none_iff_exists'.1 (hm r (.head _))
    exact ⟨st :: steps, by rw [List.map_cons, List.map_cons, hst, hs]⟩

/-- R44 check 2: the fields of PLAN_SUBMIT stand for a bus of capacity c. -/
def submitFits (h : ReqHeader) (raws : List RawStep) (c : Nat) : Prop :=
  h.planClass ≠ none ∧ 1 ≤ h.stepCount ∧ h.stepCount ≤ 4 ∧ ∀ r ∈ raws.take h.stepCount, r.store c ≠ none

theorem submitFields_refused (hf : ¬ submitFits h raws c) : submitFields h raws c = none := by
  cases hc : h.planClass with
  | none => simp only [submitFields, hc]
  | some cls =>
    simp only [submitFields, hc]
    split
    next => rfl
    next hn =>
      obtain ⟨h0, h4⟩ := not_or.1 hn
      have hbad : ∃ r ∈ raws.take h.stepCount, r.store c = none := by
        by_contra hall
        push Not at hall
        exact hf ⟨by rw [hc]; exact Option.some_ne_none _, by omega, by omega, hall⟩
      rw [storeSteps_refused hbad]
      rfl

theorem submitFields_stored {cls : PlanClass} {steps : List PlanStep} (hc : h.planClass = some cls)
    (h1 : 1 ≤ h.stepCount) (h4 : h.stepCount ≤ 4)
    (hm : (raws.take h.stepCount).map (RawStep.store c) = steps.map some) :
    submitFields h raws c = some (cls, steps) := by
  have hn : ¬ (h.stepCount = 0 ∨ 4 < h.stepCount) := by omega
  simp only [submitFields, hc, if_neg hn, storeSteps_some hm, Option.map_some]

theorem exists_submitFields (hf : submitFits h raws c) : ∃ x, submitFields h raws c = some x := by
  obtain ⟨hc, h1, h4, hall⟩ := hf
  obtain ⟨cls, hc⟩ := Option.ne_none_iff_exists'.1 hc
  obtain ⟨steps, hs⟩ := exists_stored hall
  exact ⟨_, submitFields_stored hc h1 h4 hs⟩

end Fields

theorem RawStep.store_refused {r : RawStep} {c : Nat}
    (h : (r.head.extractLsb' 14 2).toNat = 3 ∨ (r.head.extractLsb' 0 12).toNat = 0) : r.store c = none := by
  rcases h with h | h
  · have hk : r.kind = none := by simp only [RawStep.kind, h]
    simp only [RawStep.store, hk]
  · have hu : r.capUnits = 0 := h
    cases hk : r.kind <;> simp only [RawStep.store, hk, hu, if_true]

theorem RawStep.kind_some {r : RawStep} (h : (r.head.extractLsb' 14 2).toNat ≠ 3) : r.kind = some
    (if (r.head.extractLsb' 14 2).toNat = 0 then .importTo
      else if (r.head.extractLsb' 14 2).toNat = 1 then .exportTo else .holdUntil) := by
  have hlt := (r.head.extractLsb' 14 2).isLt
  rw [RawStep.kind]
  generalize (r.head.extractLsb' 14 2).toNat = k at *
  interval_cases k
  · rfl
  · rfl
  · rfl
  · exact absurd rfl h

theorem RawStep.store_some {r : RawStep} {c : Nat} {k : StepKind} (hk : r.kind = some k) (hu : r.capUnits ≠ 0) :
    r.store c = some
      { kind := k
        value := if k = .importTo then min r.value.toNat c else r.value.toNat
        cap := min r.capUnits 1500 * 100
        notBefore := if r.head.getLsbD 13 then some r.notBefore.toNat else none
        endBy := if r.head.getLsbD 12 then some r.endBy.toNat else none } := by
  simp only [RawStep.store, hk, if_neg hu]

theorem RawStep.store_spec (r : RawStep) (capacity : Nat) :
    let k := (r.head.extractLsb' 14 2).toNat
    let units := (r.head.extractLsb' 0 12).toNat
    ((k = 3 ∨ units = 0) → r.store capacity = none)
    ∧ (k ≠ 3 → units ≠ 0 → ∃ st, r.store capacity = some st
      ∧ st.kind = (if k = 0 then .importTo else if k = 1 then .exportTo else .holdUntil)
      ∧ st.cap = min (units * 100) 150000
      ∧ st.value = (if k = 0 then min r.value.toNat capacity else r.value.toNat)
      ∧ st.notBefore = (if r.head.getLsbD 13 then some r.notBefore.toNat else none)
      ∧ st.endBy = (if r.head.getLsbD 12 then some r.endBy.toNat else none)) := by
  intro k units
  refine ⟨RawStep.store_refused, fun hk hu => ⟨_, RawStep.store_some (RawStep.kind_some hk) hu, rfl, ?cap, ?value, rfl, rfl⟩⟩
  case cap =>
    have hmul : units * 100 = r.capUnits * 100 := rfl
    rw [hmul]
    simp only []
    omega
  case value =>
    refine if_congr ?_ rfl rfl
    change (if k = 0 then StepKind.importTo else if k = 1 then .exportTo else .holdUntil) = .importTo ↔ k = 0
    split
    next h => exact ⟨fun _ => h, fun _ => rfl⟩
    next h => exact ⟨(fun he => by split at he <;> cases he), fun h' => absurd h' h⟩

/-! ### The checks of PLAN_SUBMIT -/

section Slot

variable {u : Bool} {b : Bus} {s : State}

theorem submitSlot_shut (h : b.block = .blocked ∧ u = false) : submitSlot u b s = .error .busBlocked := if_pos h

theorem submitSlot_full (h : ¬ (b.block = .blocked ∧ u = false)) (hf : 8 ≤ b.listedPlans.length) :
    submitSlot u b s = .error .listFull := by
  rw [submitSlot, if_neg h, if_pos hf]

theorem submitSlot_none (h : ¬ (b.block = .blocked ∧ u = false)) (hf : ¬ 8 ≤ b.listedPlans.length)
    (hn : ∀ j, j < 512 → (s.plan j).isSome) : submitSlot u b s = .error .tableFull := by
  have hfree : s.plans.firstFree 512 = none := Table.firstFree_full hn
  simp only [submitSlot, if_neg h, if_neg hf, hfree]

theorem submitSlot_free (h : ¬ (b.block = .blocked ∧ u = false)) (hf : ¬ 8 ≤ b.listedPlans.length) {j : Nat}
    (hj : j < 512) (hn : s.plan j = none) (hl : ∀ m, m < j → (s.plan m).isSome) : submitSlot u b s = .ok j := by
  have hfree : s.plans.firstFree 512 = some j := Table.firstFree_eq hj hn hl
  simp only [submitSlot, if_neg h, if_neg hf, hfree]

end Slot

section Submit

variable {h : ReqHeader} {raws : List RawStep} {s : State} {k : Nat} {b : Bus}

theorem exec_planSubmit (h : ReqHeader) (r1 r2 r3 r4 : RawStep) (s : State) : exec (.planSubmit h r1 r2 r3 r4) s
    = takeRequest ⟨h, .planSubmit r1 r2 r3 r4⟩ (applyPlanSubmit h [r1, r2, r3, r4]) s := rfl

theorem applyPlanSubmit_notFound (hf : s.findBus h.key.toNat = none) : applyPlanSubmit h raws s = refuse s .notFound := by
  simp only [applyPlanSubmit, hf]

theorem applyPlanSubmit_outOfRange (hf : s.findBus h.key.toNat = some (k, b)) (hn : ¬ submitFits h raws b.capacity) :
    applyPlanSubmit h raws s = refuse s .outOfRange := by
  simp only [applyPlanSubmit, hf, submitFields_refused hn]

theorem applyPlanSubmit_refused (hf : s.findBus h.key.toNat = some (k, b)) (hn : submitFits h raws b.capacity)
    {st : Status} (hs : submitSlot h.unblock b s = .error st) : applyPlanSubmit h raws s = refuse s st := by
  obtain ⟨x, hx⟩ := exists_submitFields hn
  simp only [applyPlanSubmit, hf, hx, hs]

theorem applyPlanSubmit_placed (hf : s.findBus h.key.toNat = some (k, b)) {cls : PlanClass} {steps : List PlanStep}
    (hx : submitFields h raws b.capacity = some (cls, steps)) {j : Nat} (hs : submitSlot h.unblock b s = .ok j) :
    applyPlanSubmit h raws s = ⟨s.submitPlan k j cls h.unblock steps, .ok,
      submitResult j (s.submitPlan k j cls h.unblock steps)⟩ := by
  simp only [applyPlanSubmit, hf, hx, hs]

end Submit

/-! ### The placement of a plan -/

section Place

variable {s : State} {k j : Nat} {b : Bus} {cls : PlanClass} {unblock : Bool} {steps : List PlanStep}

theorem State.placePlan_eq (hb : s.bus k = some b) : s.placePlan k j cls unblock steps =
    (s.putPlan j (newPlan (s.planGens.gen j) k cls unblock steps)).putBus k ({ b with block := .enabled }.append cls j) := by
  have hb' : (s.putPlan j (newPlan (s.planGens.gen j) k cls unblock steps)).bus k = some b := hb
  exact State.modBus_some hb' _

theorem State.placePlan_bus (hb : s.bus k = some b) :
    (s.placePlan k j cls unblock steps).bus k = some ({ b with block := .enabled }.append cls j) := by
  rw [State.placePlan_eq hb, State.bus_putBus, if_pos rfl]

theorem State.placePlan_plan (hb : s.bus k = some b) (m : Nat) : (s.placePlan k j cls unblock steps).plan m =
    if m = j then some (newPlan (s.planGens.gen j) k cls unblock steps) else s.plan m := by
  rw [State.placePlan_eq hb]
  exact State.plan_putPlan s j m _

/-- Whether the plan of a slot is RUNNING. -/
def State.isRunning (s : State) (m : Nat) : Bool :=
  match s.plan m with
  | some p => p.state == .running
  | none => false

theorem State.runningPlan_eq (s : State) (b : Bus) : s.runningPlan b = b.listedPlans.find? s.isRunning := rfl

theorem State.isRunning_iff (s : State) (m : Nat) : s.isRunning m = true ↔ ∃ p, s.plan m = some p ∧ p.state = .running := by
  rw [State.isRunning]
  cases s.plan m with
  | none => simp
  | some p => simp

/-- The new plan is QUEUED, so the bus runs the plan it ran before. -/
theorem State.placePlan_isRunning (hb : s.bus k = some b) (hj : s.plan j = none) :
    (s.placePlan k j cls unblock steps).isRunning = s.isRunning := by
  funext m
  rw [Bool.eq_iff_iff, State.isRunning_iff, State.isRunning_iff, State.placePlan_plan hb]
  split
  next hm =>
    rw [hm, hj]
    exact ⟨(fun ⟨p, hp, hr⟩ => by cases hp; cases hr), (fun ⟨p, hp, _⟩ => by cases hp)⟩
  next => exact Iff.rfl

theorem State.placePlan_running (hb : s.bus k = some b) (hj : s.plan j = none) :
    (s.placePlan k j cls unblock steps).runningPlan ({ b with block := .enabled }.append cls j) = s.runningPlan b := by
  have hidle : s.isRunning j = false := by
    rw [State.isRunning, hj]
  rw [State.runningPlan_eq, State.placePlan_isRunning hb hj, State.runningPlan_eq, Bus.listedPlans, Bus.listedPlans]
  cases cls with
  | priority => simp only [Bus.append, List.find?_append, List.find?_cons, hidle, List.find?_nil, Option.or_none]
  | standard => simp only [Bus.append, List.find?_append, List.find?_cons, hidle, List.find?_nil, Option.or_none]

/-- The state after a PRIORITY plan has ended the hold of a RUNNING STANDARD plan (R57). -/
theorem State.preempt_eq {bus : Bus} (hb : s.bus k = some bus) : s.preempt k =
    match (s.runningPlan bus).bind fun m => (s.plan m).map fun p => (m, p) with
    | some (m, p) => if p.cls = .standard ∧ p.step?.map PlanStep.kind = some .holdUntil then s.stepEnd k m else s
    | none => s := by
  simp only [State.preempt, hb]
  cases s.runningPlan bus with
  | none => rfl
  | some m =>
    cases hp : s.plan m with
    | none => simp only [hp, Option.bind_some, Option.map_none]
    | some p => cases hst : p.step? <;> simp [hp, hst]

/-- The plan that runs has a record other than the new one. -/
theorem State.placePlan_found (hb : s.bus k = some b) (hj : s.plan j = none) :
    ((s.runningPlan b).bind fun m => ((s.placePlan k j cls unblock steps).plan m).map fun p => (m, p))
      = (s.runningPlan b).bind fun m => (s.plan m).map fun p => (m, p) := by
  cases hr : s.runningPlan b with
  | none => rfl
  | some m =>
    obtain ⟨p, hp, _⟩ := State.runningPlan_plan hr
    have hm : m ≠ j := fun hm => by rw [hm, hj] at hp; cases hp
    simp only [Option.bind_some, State.placePlan_plan hb, if_neg hm]

/-- The placed state after R57, by the class and the plan that runs. -/
def State.placedEnd (s : State) (k : Nat) (cls : PlanClass) (running : Option (Nat × Plan)) : State :=
  match cls, running with
  | .priority, some (m, p) =>
    if p.cls = .standard ∧ p.step?.map PlanStep.kind = some .holdUntil then runTasks k 256 (.finish m) s else s
  | _, _ => s

theorem State.submitPlan_eq (hb : s.bus k = some b) (hj : s.plan j = none) : s.submitPlan k j cls unblock steps =
    runTasks k 256 .select ((s.placePlan k j cls unblock steps).placedEnd k cls
      ((s.runningPlan b).bind fun m => (s.plan m).map fun p => (m, p))) := by
  have hbus := State.placePlan_bus (j := j) (cls := cls) (unblock := unblock) (steps := steps) hb
  have hpre := State.preempt_eq hbus
  rw [State.placePlan_running hb hj, State.placePlan_found hb hj] at hpre
  cases cls with
  | standard => rfl
  | priority =>
    simp only [State.submitPlan, if_true, hpre, State.placedEnd]
    cases (s.runningPlan b).bind fun m => (s.plan m).map fun p => (m, p) <;> rfl

theorem State.placedEnd_idle (cls : PlanClass) : s.placedEnd k cls none = s := by
  cases cls <;> rfl

theorem runTasks_idle {t : PlanTask} {n : Nat} (h : planTask k t s = (s, none)) : runTasks k (n + 1) t s = s := by
  simp only [runTasks, h]

end Place

/-- Settles O18: the checks of PLAN_SUBMIT in their order, the placement with what follows it, and what is read of
a carried step. -/
theorem planSubmitChecksThenPlaces : Obligations.PlanSubmitChecksThenPlaces := by
  refine ⟨?submit, RawStep.store_spec⟩
  case submit =>
    intro h r1 r2 r3 r4 s hq i q class? count read fits
    have hx := exec_planSubmit h r1 r2 r3 r4 s
    refine ⟨?unknown, ?found⟩
    case unknown =>
      exact fun hn => hx.trans (takeRequest_refused hq
        (applyPlanSubmit_notFound (s := s.modRing Ring.pop) (State.findBus_none.2 hn)))
    case found =>
      intro k b hf full shut
      refine ⟨?bad, ?shut, ?full, ?noSlot, ?placed⟩
      case bad =>
        exact fun hn => hx.trans (takeRequest_refused hq (applyPlanSubmit_outOfRange (s := s.modRing Ring.pop) hf hn))
      case shut =>
        exact fun hn hs => hx.trans (takeRequest_refused hq
          (applyPlanSubmit_refused (s := s.modRing Ring.pop) hf hn (submitSlot_shut hs)))
      case full =>
        exact fun hn hs hl => hx.trans (takeRequest_refused hq
          (applyPlanSubmit_refused (s := s.modRing Ring.pop) hf hn (submitSlot_full hs hl)))
      case noSlot =>
        exact fun hn hs hl ht => hx.trans (takeRequest_refused hq
          (applyPlanSubmit_refused (s := s.modRing Ring.pop) hf hn (submitSlot_none hs hl ht)))
      case placed =>
        intro cls steps j hn hc hm hs hl hj hfree hleast hb placed ended
        have hfields := submitFields_stored (raws := [r1, r2, r3, r4]) (c := b.capacity) hc hn.2.1 hn.2.2.1 hm
        have hplaced : (s.modRing Ring.pop).placePlan k j cls h.unblock steps = placed := by
          refine (State.placePlan_eq (s := s.modRing Ring.pop) hb).trans ?_
          cases cls <;> rfl
        have heq : (s.modRing Ring.pop).submitPlan k j cls h.unblock steps = runTasks k 256 .select ended := by
          rw [State.submitPlan_eq (s := s.modRing Ring.pop) hb hfree, hplaced]
          exact congrArg (runTasks k 256 .select) (by cases cls <;> rfl)
        have hring : ((s.modRing Ring.pop).submitPlan k j cls h.unblock steps).ring = s.ring.pop :=
          (State.submitPlan_moves (s.modRing Ring.pop) k j cls h.unblock steps hj).beside.1
        refine ⟨runTasks k 256 .select ended, ?run, rfl, ?quiet⟩
        case run =>
          rw [← heq]
          exact hx.trans (takeRequest_reply hq (applyPlanSubmit_placed (s := s.modRing Ring.pop) hf hfields
            (submitSlot_free hs hl hj hfree hleast)) hring)
        case quiet =>
          intro hloc hrun
          have hended : ended = placed := by
            change State.placedEnd placed k cls ((s.runningPlan b).bind fun m => (s.plan m).map fun p => (m, p)) = placed
            rw [hrun]
            exact State.placedEnd_idle cls
          have hbus : placed.bus k = some ({ b with block := .enabled }.append cls j) := by
            rw [← hplaced]
            exact State.placePlan_bus hb
          have hnone : ({ b with block := .enabled }.append cls j : Bus).location = none :=
            (Bus.append_beside cls j _).2.trans hloc
          rw [hended]
          exact runTasks_idle ((planTask_select hbus).trans (State.selectPlan_none (.inl hnone)))

/-! ### PLAN_CANCEL and PLAN_RETIRE -/

section Ids

variable {h : ReqHeader} {s : State} {p : Plan}

theorem State.resolvePlan_range (hk : 511 < keySlot h.key) : s.resolvePlan h = .error .outOfRange := if_pos hk

theorem State.resolvePlan_stale (hk : keySlot h.key ≤ 511)
    (hs : s.plan (keySlot h.key) = none ∨ ∃ p, s.plan (keySlot h.key) = some p ∧ p.generation ≠ keyGen h.key) :
    s.resolvePlan h = .error .staleId := by
  rw [State.resolvePlan, if_neg (by omega)]
  rcases hs with hs | ⟨p, hp, hg⟩
  · simp only [hs]
  · simp only [hp, if_neg hg]

theorem State.resolvePlan_found (hk : keySlot h.key ≤ 511) (hp : s.plan (keySlot h.key) = some p)
    (hg : p.generation = keyGen h.key) : s.resolvePlan h = .ok (keySlot h.key, p) := by
  rw [State.resolvePlan, if_neg (by omega)]
  simp only [hp, if_pos hg]

theorem exec_planCancel (h : ReqHeader) (s : State) :
    exec (.planCancel h) s = takeRequest ⟨h, .planCancel⟩ (applyPlanCancel h) s := rfl

theorem exec_planRetire (h : ReqHeader) (s : State) :
    exec (.planRetire h) s = takeRequest ⟨h, .planRetire⟩ (applyPlanRetire h) s := rfl

theorem applyPlanCancel_refused {st : Status} (hr : s.resolvePlan h = .error st) : applyPlanCancel h s = refuse s st := by
  simp only [applyPlanCancel, hr]

theorem applyPlanRetire_refused {st : Status} (hr : s.resolvePlan h = .error st) : applyPlanRetire h s = refuse s st := by
  simp only [applyPlanRetire, hr]

variable {j : Nat}

theorem applyPlanCancel_final (hr : s.resolvePlan h = .ok (j, p)) (hl : p.state.listed = false) :
    applyPlanCancel h s = refuse s .planFinal := by
  simp only [applyPlanCancel, hr, hl, Bool.false_eq_true, if_false]

theorem applyPlanCancel_listed (hr : s.resolvePlan h = .ok (j, p)) (hl : p.state.listed = true) :
    applyPlanCancel h s = ⟨s.cancelPlan j p, .ok, cancelResult j (s.cancelPlan j p)⟩ := by
  simp only [applyPlanCancel, hr, hl, if_true]

theorem State.cancelPlan_waiting (hw : p.state ≠ .running) : s.cancelPlan j p = s.finalise j .cancelled .cancelled := if_neg hw

theorem State.cancelPlan_running (hw : p.state = .running) : s.cancelPlan j p =
    runTasks p.busSlot 256 .select ((s.finalise j .cancelled .cancelled).releasePower p.busSlot) := if_pos hw

theorem cancelResult_finalised (hp : s.plan j = some p) : cancelResult j (s.finalise j .cancelled .cancelled) =
    .planEnded ⟨j, p.generation⟩ .cancelled (some .cancelled) (some s.now) p.imported p.exported := by
  have hj : (s.finalise j .cancelled .cancelled).plan j = some (p.ended .cancelled .cancelled s.now) := by
    rw [State.finalise_plan hp, if_pos rfl]
  simp only [cancelResult, hj]
  rfl

theorem State.cancelPlan_ring (s : State) (j : Nat) (p : Plan) : (s.cancelPlan j p).ring = s.ring := by
  rw [State.cancelPlan]
  split
  · exact ((State.finalise_moves ..).trans ((State.releasePower_moves ..).trans (State.selection_moves ..))).beside.1
  · exact (State.finalise_moves ..).beside.1

theorem applyPlanRetire_active (hr : s.resolvePlan h = .ok (j, p)) (hl : p.state.listed = true) :
    applyPlanRetire h s = refuse s .planActive := by
  simp only [applyPlanRetire, hr, hl, if_true]

theorem applyPlanRetire_freed (hr : s.resolvePlan h = .ok (j, p)) (hl : p.state.listed = false) :
    applyPlanRetire h s = ⟨s.freePlan j, .ok, .freed j ((s.planGens.bumpGen j).gen j)⟩ := by
  simp only [applyPlanRetire, hr, hl, Bool.false_eq_true, if_false]
  rfl

end Ids

theorem PlanState.listed_of_waiting {st : PlanState} (h : st = .queued ∨ st = .paused) : st.listed = true ∧ st ≠ .running := by
  rcases h with rfl | rfl
  · exact ⟨rfl, PlanState.noConfusion⟩
  · exact ⟨rfl, PlanState.noConfusion⟩

/-- Settles O19: both requests by the checks of the id and the plan's state. -/
theorem planCancelAndRetire : Obligations.PlanCancelAndRetire := by
  intro h s slot gen stale
  have hrange : 511 < slot → (s.modRing Ring.pop).resolvePlan h = .error .outOfRange := State.resolvePlan_range
  have hstale : slot ≤ 511 → stale → (s.modRing Ring.pop).resolvePlan h = .error .staleId :=
    State.resolvePlan_stale (s := s.modRing Ring.pop)
  have hfound : ∀ p, slot ≤ 511 → s.plan slot = some p → p.generation = gen →
      (s.modRing Ring.pop).resolvePlan h = .ok (slot, p) := fun p => State.resolvePlan_found (s := s.modRing Ring.pop)
  refine ⟨fun hq => ?cancel, fun hq => ?retire⟩
  case cancel =>
    have hx := exec_planCancel h s
    refine ⟨fun hk => hx.trans (takeRequest_refused hq (applyPlanCancel_refused (hrange hk))),
      fun hk hs => hx.trans (takeRequest_refused hq (applyPlanCancel_refused (hstale hk hs))),
      fun p hk hp hg => ⟨?final, ?waiting, ?running⟩⟩
    case final => exact fun hl => hx.trans (takeRequest_refused hq (applyPlanCancel_final (hfound p hk hp hg) hl))
    case waiting =>
      intro hw
      obtain ⟨hl, hr⟩ := PlanState.listed_of_waiting hw
      have hc := State.cancelPlan_waiting (s := s.modRing Ring.pop) (j := slot) hr
      have hres := cancelResult_finalised (s := s.modRing Ring.pop) hp
      have hreply := applyPlanCancel_listed (hfound p hk hp hg) hl
      rw [hc, hres, hg] at hreply
      exact hx.trans (takeRequest_reply hq hreply (hc ▸ State.cancelPlan_ring (s.modRing Ring.pop) slot p))
    case running =>
      intro hr
      have hl : p.state.listed = true := by rw [hr]; rfl
      have hc := State.cancelPlan_running (s := s.modRing Ring.pop) (j := slot) hr
      refine ⟨(s.modRing Ring.pop).cancelPlan slot p, ?_, hc⟩
      exact hx.trans (takeRequest_reply hq (applyPlanCancel_listed (hfound p hk hp hg) hl)
        (State.cancelPlan_ring (s.modRing Ring.pop) slot p))
  case retire =>
    have hx := exec_planRetire h s
    refine ⟨fun hk => hx.trans (takeRequest_refused hq (applyPlanRetire_refused (hrange hk))),
      fun hk hs => hx.trans (takeRequest_refused hq (applyPlanRetire_refused (hstale hk hs))),
      fun p hk hp hg => ⟨?active, ?freed⟩⟩
    case active => exact fun hl => hx.trans (takeRequest_refused hq (applyPlanRetire_active (hfound p hk hp hg) hl))
    case freed =>
      intro hl
      refine ⟨s.planGens.bumpGen slot, ?_, Table.gen_bump_self .., fun j hj => Table.gen_bump_ne _ hj⟩
      have hreply := applyPlanRetire_freed (hfound p hk hp hg) hl
      have hgen : ((s.modRing Ring.pop).planGens.bumpGen slot).gen slot = (s.planGens.gen slot + 1) % 256 :=
        Table.gen_bump_self ..
      rw [hgen] at hreply
      exact hx.trans (takeRequest_answered hq _ _ _ hreply)

end Sys2Proof.Machine
end

section
/-! BUS_LOOKUP, BUS_PLANS and PLAN_LOOKUP, and the bytes of their results (O14). -/

namespace Sys2Proof.Machine

open Sys2Proof

/-! ### Fields of a record made of blocks -/

@[simp] theorem length_leBytes (n v : Nat) : (leBytes n v).length = n := by
  induction n generalizing v with
  | zero => rfl
  | succ n ih => rw [leBytes, List.length_cons, ih]

theorem getElem?_leBytes (n v k : Nat) (h : k < n) : (leBytes n v)[k]? = some (BitVec.ofNat 8 (v / 256 ^ k)) := by
  induction n generalizing v k with
  | zero => omega
  | succ n ih =>
    cases k with
    | zero => rw [leBytes, List.getElem?_cons_zero, pow_zero, Nat.div_one]
    | succ k => rw [leBytes, List.getElem?_cons_succ, ih _ _ (by omega), Nat.div_div_eq_div_mul, pow_succ']

@[simp] theorem length_absentBytes (view offset n : Nat) : (absentBytes view offset n).length = n := by
  rw [absentBytes, List.length_map, List.length_range]

@[simp] theorem length_soe3 (v : Option Nat) : (soe3 v).length = 3 := length_leBytes _ _

@[simp] theorem length_leSigned (n : Nat) (v : Int) : (leSigned n v).length = n := length_leBytes _ _

/-- Block k of a record stands at the sum of the lengths of the blocks before it. -/
theorem field_of_blocks {α : Type} {blocks : List (List α)} {lens : List Nat} (hl : blocks.map List.length = lens) (k : Nat)
    {x : List α} (hx : blocks[k]? = some x) : (blocks.flatten.drop (lens.take k).sum).take (lens.getD k 0) = x := by
  induction blocks generalizing lens k with
  | nil => cases hx
  | cons b bs ih =>
    subst hl
    cases k with
    | zero =>
      cases hx
      rw [List.flatten_cons, List.take_zero, List.sum_nil, List.drop_zero, List.map_cons, List.getD_cons_zero, List.take_left]
    | succ k =>
      have h := ih rfl k hx
      rw [List.flatten_cons, List.map_cons, List.take_succ_cons, List.sum_cons, List.getD_cons_succ,
        List.drop_append, List.drop_of_length_le (Nat.le_add_right _ _), List.nil_append, Nat.add_sub_cancel_left]
      exact h

/-- A field within a field. -/
theorem subfield {α : Type} {l x : List α} {o n : Nat} (h : (l.drop o).take n = x) (p m : Nat) (hm : p + m ≤ n) :
    (l.drop (o + p)).take m = (x.drop p).take m := by
  rw [← h, List.drop_take, List.drop_drop, List.take_take, Nat.min_eq_left (by omega)]

theorem foldl_append_flatten {α : Type} (blocks : List (List α)) (b : List α) :
    blocks.foldl (· ++ ·) b = (b :: blocks).flatten := by
  induction blocks generalizing b with
  | nil => simp
  | cons x xs ih => rw [List.foldl_cons, ih, List.flatten_cons, List.flatten_cons, List.flatten_cons, List.append_assoc]

theorem length_of_blocks {α : Type} {blocks : List (List α)} {lens : List Nat} (hl : blocks.map List.length = lens) :
    blocks.flatten.length = lens.sum := by
  rw [List.length_flatten, hl]

/-! ### View 0 of BUS_LOOKUP -/

/-- The blocks of view 0 of BUS_LOOKUP. -/
def busBlocks0 (slot : Nat) (b : Bus) (running : Option SlotId) : List (List Byte) :=
  [leBytes 1 slot, leBytes 2 b.number, leBytes 3 b.capacity, leBytes 3 b.importCap, leBytes 2 b.exportCap,
    leBytes 3 b.floor, leBytes 3 b.allowance, leBytes 4 b.exportUsed, soe3 b.soe, leBytes 1 b.source.code,
    leBytes 1 (boolCode b.v2g), leBytes 1 (match b.location with | some n => n.val | none => 255),
    leBytes 1 b.block.code, leBytes 1 (match b.faultReason with | some r => r.code + 1 | none => 0),
    leBytes 2 b.faultCount, (match b.faultTime with | some t => leBytes 4 t | none => absentBytes 0 31 4),
    soe3 (b.discrepancy.map Discrepancy.reported), soe3 (b.discrepancy.map Discrepancy.integrated),
    (match running with
      | some i => leBytes 2 i.slot ++ leBytes 1 i.generation
      | none => leBytes 2 65535 ++ absentBytes 0 43 1),
    leBytes 1 b.prioList.length, leBytes 1 b.stdList.length, leBytes 2 b.flags.toNat]

/-- The lengths of the blocks of view 0. -/
def busLengths0 : List Nat := [1, 2, 3, 3, 2, 3, 3, 4, 3, 1, 1, 1, 1, 1, 2, 4, 3, 3, 3, 1, 1, 2]

theorem busBlocks0_lengths (slot : Nat) (b : Bus) (running : Option SlotId) :
    (busBlocks0 slot b running).map List.length = busLengths0 := by
  simp only [busBlocks0, busLengths0, List.map_cons, List.map_nil, length_leBytes, length_soe3]
  cases b.faultTime <;> cases running <;> simp

theorem busView0_eq (slot : Nat) (b : Bus) (running : Option SlotId) :
    busView0 slot b running = (busBlocks0 slot b running).flatten := by
  exact foldl_append_flatten (busBlocks0 slot b running).tail (leBytes 1 slot)

theorem busView0_field (slot : Nat) (b : Bus) (running : Option SlotId) (k : Nat) {x : List Byte}
    (hx : (busBlocks0 slot b running)[k]? = some x) :
    ((busView0 slot b running).drop (busLengths0.take k).sum).take (busLengths0.getD k 0) = x := by
  rw [busView0_eq]
  exact field_of_blocks (busBlocks0_lengths slot b running) k hx

/-! ### View 1 of BUS_LOOKUP -/

/-- The blocks of view 1 of BUS_LOOKUP after the departure part. -/
def readinessBlocks (b : Bus) : List (List Byte) :=
  [leBytes 1 b.readiness.code, leBytes 1 (boolCode b.slack.isSome),
    (match b.slack with | some v => leSigned 4 v | none => absentBytes 1 19 4)]

/-- The blocks of view 1 of a bus with a departure part. -/
def busBlocks1 (slot : Nat) (b : Bus) (d : Departure) : List (List Byte) :=
  [leBytes 1 slot, leBytes 2 b.number, leBytes 1 d.state.code, leBytes 1 (boolCode d.reqClamped), leBytes 4 d.tDep,
    leBytes 3 d.eReq, leBytes 2 d.route, (match d.state with | .taken a => soe3 a | _ => absentBytes 1 14 3)]
    ++ readinessBlocks b

/-- The blocks of view 1 of a bus without a departure part. -/
def busBlocks1None (slot : Nat) (b : Bus) : List (List Byte) :=
  [leBytes 1 slot, leBytes 2 b.number, leBytes 1 0, absentBytes 1 4 13] ++ readinessBlocks b

/-- The lengths of the blocks of view 1, with a departure part. -/
def busLengths1 : List Nat := [1, 2, 1, 1, 4, 3, 2, 3, 1, 1, 4]

/-- The lengths of the blocks of view 1, without a departure part. -/
def busLengths1None : List Nat := [1, 2, 1, 13, 1, 1, 4]

theorem readinessBlocks_lengths (b : Bus) : (readinessBlocks b).map List.length = [1, 1, 4] := by
  simp only [readinessBlocks, List.map_cons, List.map_nil, length_leBytes]
  cases b.slack <;> simp

theorem busBlocks1_lengths (slot : Nat) (b : Bus) (d : Departure) :
    (busBlocks1 slot b d).map List.length = busLengths1 := by
  rw [busBlocks1, List.map_append, readinessBlocks_lengths]
  simp only [busLengths1, List.map_cons, List.map_nil, length_leBytes]
  cases d.state <;> simp

theorem busBlocks1None_lengths (slot : Nat) (b : Bus) : (busBlocks1None slot b).map List.length = busLengths1None := by
  rw [busBlocks1None, List.map_append, readinessBlocks_lengths]
  simp [busLengths1None]

section View1

variable {slot : Nat} {b : Bus} {d : Departure}

theorem busView1_some (hd : b.departure = some d) : busView1 slot b = (busBlocks1 slot b d).flatten := by
  simp only [busView1, busBlocks1, readinessBlocks, hd, List.cons_append, List.nil_append, List.flatten_cons,
    List.flatten_nil, List.append_assoc, List.append_nil] <;> rfl

theorem busView1_none (hd : b.departure = none) : busView1 slot b = (busBlocks1None slot b).flatten := by
  simp only [busView1, busBlocks1None, readinessBlocks, hd, List.cons_append, List.nil_append, List.flatten_cons,
    List.flatten_nil, List.append_assoc, List.append_nil] <;> rfl

theorem busView1_field (hd : b.departure = some d) (k : Nat) {x : List Byte} (hx : (busBlocks1 slot b d)[k]? = some x) :
    ((busView1 slot b).drop (busLengths1.take k).sum).take (busLengths1.getD k 0) = x := by
  rw [busView1_some hd]
  exact field_of_blocks (busBlocks1_lengths slot b d) k hx

theorem busView1None_field (hd : b.departure = none) (k : Nat) {x : List Byte} (hx : (busBlocks1None slot b)[k]? = some x) :
    ((busView1 slot b).drop (busLengths1None.take k).sum).take (busLengths1None.getD k 0) = x := by
  rw [busView1_none hd]
  exact field_of_blocks (busBlocks1None_lengths slot b) k hx

/-- The fields that view 1 holds with and without a departure part. -/
theorem busView1_fixed (slot : Nat) (b : Bus) : (busView1 slot b).length = 23
    ∧ ((busView1 slot b).drop 0).take 1 = leBytes 1 slot ∧ ((busView1 slot b).drop 1).take 2 = leBytes 2 b.number
    ∧ ((busView1 slot b).drop 17).take 1 = leBytes 1 b.readiness.code
    ∧ ((busView1 slot b).drop 18).take 1 = leBytes 1 (boolCode b.slack.isSome)
    ∧ ((busView1 slot b).drop 19).take 4 = (match b.slack with | some v => leSigned 4 v | none => absentBytes 1 19 4) := by
  cases hd : b.departure with
  | none =>
    refine ⟨?_, busView1None_field hd 0 rfl, busView1None_field hd 1 rfl, busView1None_field hd 4 rfl,
      busView1None_field hd 5 rfl, busView1None_field hd 6 rfl⟩
    rw [busView1_none hd]
    exact length_of_blocks (busBlocks1None_lengths slot b)
  | some d =>
    refine ⟨?_, busView1_field hd 0 rfl, busView1_field hd 1 rfl, busView1_field hd 8 rfl,
      busView1_field hd 9 rfl, busView1_field hd 10 rfl⟩
    rw [busView1_some hd]
    exact length_of_blocks (busBlocks1_lengths slot b d)

end View1

theorem stepBytes_some (st : PlanStep) : stepBytes (some st) = leBytes 2
      (st.kind.code * 16384 + (if st.notBefore.isSome then 8192 else 0)
        + (if st.endBy.isSome then 4096 else 0) + st.cap / 100)
    ++ leBytes 4 st.value ++ stepTime 6 st.notBefore ++ stepTime 10 st.endBy := by
  have hcode (c : Bool) (n : Nat) : boolCode c * n = if c then n else 0 := by cases c <;> simp [boolCode]
  rw [stepBytes, PlanStep.bytes, hcode, hcode]

/-! ### The requests -/

section Requests

variable {h : ReqHeader} {s : State} {i : Nat} {b : Bus}

theorem exec_busLookup (h : ReqHeader) (s : State) :
    exec (.busLookup h) s = takeRequest ⟨h, .busLookup⟩ (applyBusLookup h) s := rfl

theorem exec_busPlans (h : ReqHeader) (s : State) :
    exec (.busPlans h) s = takeRequest ⟨h, .busPlans⟩ (applyBusPlans h) s := rfl

theorem exec_planLookup (h : ReqHeader) (s : State) :
    exec (.planLookup h) s = takeRequest ⟨h, .planLookup⟩ (applyPlanLookup h) s := rfl

/-- The key of BUS_LOOKUP or BUS_PLANS names bus i (R16). -/
def State.names (s : State) (h : ReqHeader) (i : Nat) (b : Bus) : Prop :=
  (h.flags.getLsbD 0 = true ∧ h.key.toNat ≤ 191 ∧ i = h.key.toNat ∧ s.bus i = some b)
  ∨ (h.flags.getLsbD 0 = false ∧ s.findBus h.key.toNat = some (i, b))

/-- The key of BUS_LOOKUP or BUS_PLANS names no bus. -/
def State.namesNone (s : State) (h : ReqHeader) : Prop :=
  (h.flags.getLsbD 0 = true ∧ h.key.toNat ≤ 191 ∧ s.bus h.key.toNat = none)
  ∨ (h.flags.getLsbD 0 = false ∧ ∀ r ∈ s.buses.rows, r.2.number ≠ h.key.toNat)

theorem State.resolveBus_range (hs : h.flags.getLsbD 0 = true) (hk : 191 < h.key.toNat) :
    s.resolveBus h = .error .outOfRange := by
  rw [State.resolveBus, if_pos hs, if_pos hk]

theorem State.resolveBus_missing (hm : s.namesNone h) : s.resolveBus h = .error .notFound := by
  rcases hm with ⟨hs, hk, hb⟩ | ⟨hs, hn⟩
  · rw [State.resolveBus, if_pos hs, if_neg (by omega)]
    simp only [hb]
  · rw [State.resolveBus, if_neg (fun h => Bool.false_ne_true (hs.symm.trans h))]
    simp only [State.findBus_none.2 hn]

theorem State.resolveBus_named (hn : s.names h i b) : s.resolveBus h = .ok (i, b) := by
  rcases hn with ⟨hs, hk, rfl, hb⟩ | ⟨hs, hf⟩
  · rw [State.resolveBus, if_pos hs, if_neg (by omega)]
    simp only [hb]
  · rw [State.resolveBus, if_neg (fun h => Bool.false_ne_true (hs.symm.trans h))]
    simp only [hf]

theorem applyBusLookup_refused {st : Status} (hr : s.resolveBus h = .error st) : applyBusLookup h s = refuse s st := by
  simp only [applyBusLookup, hr]

theorem applyBusPlans_refused {st : Status} (hr : s.resolveBus h = .error st) : applyBusPlans h s = refuse s st := by
  simp only [applyBusPlans, hr]

theorem applyBusLookup_found (hr : s.resolveBus h = .ok (i, b)) : applyBusLookup h s = ⟨s, .ok,
    .busView (if h.flags.getLsbD 1 then busView1 i b else busView0 i b ((s.runningPlan b).map s.planId))⟩ := by
  cases hv : h.flags.getLsbD 1 <;> simp only [applyBusLookup, hr, ReqHeader.view1, hv, if_true, Bool.false_eq_true, if_false]

theorem applyBusPlans_found (hr : s.resolveBus h = .ok (i, b)) : applyBusPlans h s = ⟨s, .ok,
    .planLists b.prioList.length b.stdList.length (s.planEntries b)⟩ := by
  simp only [applyBusPlans, hr]

variable {j : Nat} {p : Plan}

theorem applyPlanLookup_refused {st : Status} (hr : s.resolvePlan h = .error st) : applyPlanLookup h s = refuse s st := by
  simp only [applyPlanLookup, hr]

theorem applyPlanLookup_view0 (hr : s.resolvePlan h = .ok (j, p)) (h1 : h.flags.getLsbD 1 = false) :
    applyPlanLookup h s = ⟨s, .ok, .planView (s.planView j p)⟩ := by
  simp only [applyPlanLookup, hr, ReqHeader.view1, ReqHeader.view2, h1, Bool.false_and, Bool.false_eq_true, if_false]

theorem applyPlanLookup_view1 (hr : s.resolvePlan h = .ok (j, p)) (h1 : h.flags.getLsbD 1 = true)
    (h2 : h.flags.getLsbD 2 = false) : applyPlanLookup h s = ⟨s, .ok, .planSteps ⟨j, p.generation⟩ (stepPair p 0)⟩ := by
  simp only [applyPlanLookup, hr, ReqHeader.view1, ReqHeader.view2, h1, h2, Bool.and_false, Bool.false_eq_true, if_false,
    if_true]

theorem applyPlanLookup_view2 (hr : s.resolvePlan h = .ok (j, p)) (h1 : h.flags.getLsbD 1 = true)
    (h2 : h.flags.getLsbD 2 = true) : applyPlanLookup h s = ⟨s, .ok, .planSteps ⟨j, p.generation⟩ (stepPair p 2)⟩ := by
  simp only [applyPlanLookup, hr, ReqHeader.view2, h1, h2, Bool.and_self, if_true]

end Requests

/-- Settles O14: the requests by the resolution of their keys, and the bytes of the views by their blocks. -/
theorem busAndPlanLookups : Obligations.BusAndPlanLookups := by
  refine ⟨?buses, ?bytes, ?plans⟩
  case buses =>
    intro h s bySlot missing names
    have hrange : bySlot = true → 191 < h.key.toNat → (s.modRing Ring.pop).resolveBus h = .error .outOfRange :=
      State.resolveBus_range
    have hmissing : missing → (s.modRing Ring.pop).resolveBus h = .error .notFound :=
      State.resolveBus_missing (s := s.modRing Ring.pop)
    have hnamed : ∀ i b, names i b → (s.modRing Ring.pop).resolveBus h = .ok (i, b) := fun i b =>
      State.resolveBus_named (s := s.modRing Ring.pop)
    refine ⟨fun hq => ?lookup, fun hq => ?lists⟩
    case lookup =>
      have hx := exec_busLookup h s
      exact ⟨fun hs hk => hx.trans (takeRequest_refused hq (applyBusLookup_refused (hrange hs hk))),
        fun hm => hx.trans (takeRequest_refused hq (applyBusLookup_refused (hmissing hm))),
        fun i b hn => hx.trans (takeRequest_answered hq s _ _ (applyBusLookup_found (hnamed i b hn)))⟩
    case lists =>
      have hx := exec_busPlans h s
      exact ⟨fun hs hk => hx.trans (takeRequest_refused hq (applyBusPlans_refused (hrange hs hk))),
        fun hm => hx.trans (takeRequest_refused hq (applyBusPlans_refused (hmissing hm))),
        fun i b hn => hx.trans (takeRequest_answered hq s _ _ (applyBusPlans_found (hnamed i b hn)))⟩
  case bytes =>
    refine ⟨fun n v k => ⟨length_leBytes n v, getElem?_leBytes n v k⟩, rfl, rfl, rfl, fun i b running => ?views⟩
    case views =>
      intro v0 v1 in0 in1
      have f0 (k : Nat) {x : List Byte} (hx : (busBlocks0 i b running)[k]? = some x) := busView0_field i b running k hx
      have hlen : v0.length = 48 := by
        refine (congrArg List.length (busView0_eq i b running)).trans ?_
        exact length_of_blocks (busBlocks0_lengths i b running)
      obtain ⟨hlen1, hslot, hnumber, hready, hpresent, hslack⟩ := busView1_fixed i b
      refine ⟨hlen, hlen1, f0 0 rfl, f0 1 rfl, f0 2 rfl, f0 3 rfl, f0 4 rfl, f0 5 rfl, f0 6 rfl, f0 7 rfl, f0 8 rfl,
        f0 9 rfl, f0 10 rfl, ?location, ?away, ?block, ?reason, ?noReason, f0 14 rfl, ?time, ?reports, ?noReports,
        ?running, ?idle, f0 19 rfl, f0 20 rfl, f0 21 rfl, hslot, hnumber, ?noDeparture, ?departure, hready, hpresent, ?slack⟩
      case location => exact fun n hn => (f0 11 rfl).trans (by rw [hn])
      case away => exact fun hn => (f0 11 rfl).trans (by rw [hn])
      case block => exact (f0 12 rfl).trans (by cases b.block <;> rfl)
      case reason => exact fun r hr => (f0 13 rfl).trans (by rw [hr])
      case noReason => exact fun hr => (f0 13 rfl).trans (by rw [hr])
      case time => exact fun x hx => (f0 15 rfl).trans (by rw [hx])
      case reports => exact fun d hd => ⟨(f0 16 rfl).trans (by rw [hd]; rfl), (f0 17 rfl).trans (by rw [hd]; rfl)⟩
      case noReports => exact fun hd => ⟨(f0 16 rfl).trans (by rw [hd]; rfl), (f0 17 rfl).trans (by rw [hd]; rfl)⟩
      case running =>
        exact fun x hx => ⟨(subfield (f0 18 rfl) 0 2 (by decide)).trans (by rw [hx]; rfl),
          (subfield (f0 18 rfl) 2 1 (by decide)).trans (by rw [hx]; rfl)⟩
      case idle => exact fun hx => (subfield (f0 18 rfl) 0 2 (by decide)).trans (by rw [hx]; rfl)
      case noDeparture => exact fun hd => busView1None_field hd 2 rfl
      case departure =>
        intro d hd
        refine ⟨(busView1_field hd 2 rfl).trans ?_, busView1_field hd 3 rfl, busView1_field hd 4 rfl,
          busView1_field hd 5 rfl, busView1_field hd 6 rfl, fun a ha => (busView1_field hd 7 rfl).trans (by rw [ha]; rfl)⟩
        cases d.state <;> rfl
      case slack =>
        intro x hx
        refine hslack.trans ?_
        rw [hx]
        rfl
  case plans =>
    intro h s hq slot gen answers
    have hx := exec_planLookup h s
    refine ⟨fun hk => ?range, fun hk hs => ?stale, fun p hk hp hg => ?found⟩
    case range =>
      exact hx.trans (takeRequest_refused hq
        (applyPlanLookup_refused (State.resolvePlan_range (s := s.modRing Ring.pop) hk)))
    case stale =>
      exact hx.trans (takeRequest_refused hq
        (applyPlanLookup_refused (State.resolvePlan_stale (s := s.modRing Ring.pop) hk hs)))
    case found =>
      have hr := State.resolvePlan_found (s := s.modRing Ring.pop) hk hp hg
      refine ⟨fun h1 => ?view0, fun h1 h2 => ?view1, fun h1 h2 => ?view2, rfl, stepBytes_some⟩
      case view0 => exact hx.trans (takeRequest_answered hq s _ _ (applyPlanLookup_view0 hr h1))
      case view1 =>
        have hreply := applyPlanLookup_view1 hr h1 h2
        rw [hg] at hreply
        exact hx.trans (takeRequest_answered hq s _ _ hreply)
      case view2 =>
        have hreply := applyPlanLookup_view2 hr h1 h2
        rw [hg] at hreply
        exact hx.trans (takeRequest_answered hq s _ _ hreply)

end Sys2Proof.Machine
end

section
/-! BUS_CHANGE, stage by stage (O11). -/

namespace Sys2Proof.Machine

open Sys2Proof

/-! ### The stages -/

theorem filter_insertRow {α : Type} (k : Nat) (v : α) (rs : List (Nat × α)) :
    (insertRow k v rs).filter (fun r => r.1 != k) = rs.filter fun r => r.1 != k := by
  induction rs with
  | nil => simp [insertRow]
  | cons r rs ih =>
    rw [insertRow]
    split
    · simp
    · rw [List.filter_cons, List.filter_cons, ih]

/-- A record placed over another replaces it. -/
theorem Table.put_put {α : Type} (t : Table α) (k : Nat) (v w : α) : (t.put k v).put k w = t.put k w := by
  have h : ((t.put k v).del k).rows = (t.del k).rows := by
    rw [Table.put, Table.del, filter_insertRow, Table.del, List.filter_filter]
    exact List.filter_congr fun r _ => Bool.and_self _
  rw [Table.put, h]
  rfl

theorem State.putBus_putBus (s : State) (i : Nat) (b c : Bus) : (s.putBus i b).putBus i c = s.putBus i c := by
  have h : (s.buses.put i b).put i c = s.buses.put i c := Table.put_put ..
  exact congrArg (fun t => { s with buses := t }) h

/-- The plans of a list, each changed by f. -/
def State.modPlans (f : Plan → Plan) (l : List Nat) (s : State) : State := l.foldl (fun t i => t.modPlan i f) s

theorem State.modPlans_plan {f : Plan → Plan} (hf : ∀ p, f (f p) = f p) (l : List Nat) (j : Nat) : ∀ s : State,
    (s.modPlans f l).plan j = if j ∈ l then (s.plan j).map f else s.plan j := by
  induction l with
  | nil => exact fun s => rfl
  | cons i l ih =>
    intro s
    have hstep : (s.modPlans f (i :: l)).plan j = ((s.modPlan i f).modPlans f l).plan j := rfl
    rw [hstep, ih, State.plan_modPlan]
    by_cases hj : j = i <;> by_cases hl : j ∈ l <;> simp [hj, hl, hf, Function.comp_def]

theorem State.modPlans_rest (f : Plan → Plan) (l : List Nat) : ∀ s : State,
    s.modPlans f l = { s with plans := (s.modPlans f l).plans } := by
  induction l with
  | nil => exact fun s => rfl
  | cons i l ih =>
    intro s
    have h : s.modPlan i f = { s with plans := (s.modPlan i f).plans } := by
      rw [State.modPlan]
      cases s.plan i <;> rfl
    have hstep : s.modPlans f (i :: l) = (s.modPlan i f).modPlans f l := rfl
    rw [hstep, ih, h]

theorem PlanStep.withinCapacity_twice (c : Nat) (st : PlanStep) :
    (st.withinCapacity c).withinCapacity c = st.withinCapacity c := by
  by_cases h : st.kind = .importTo <;> simp [PlanStep.withinCapacity, h]

/-- R22: a plan within a capacity. -/
def Plan.withinCapacity (c : Nat) (p : Plan) : Plan := { p with steps := p.steps.map (PlanStep.withinCapacity c) }

theorem Plan.withinCapacity_twice (c : Nat) (p : Plan) : (p.withinCapacity c).withinCapacity c = p.withinCapacity c := by
  have h : (p.steps.map (PlanStep.withinCapacity c)).map (PlanStep.withinCapacity c)
      = p.steps.map (PlanStep.withinCapacity c) := by
    rw [List.map_map]
    exact List.map_congr_left fun st _ => PlanStep.withinCapacity_twice c st
  exact congrArg (fun l => { p with steps := l }) h

theorem State.clampPlans_eq (b : Bus) (s : State) : s.clampPlans b = s.modPlans (Plan.withinCapacity b.capacity) b.listedPlans := rfl

section Stages

variable (i : Nat) (b : Bus) (f : BusPatch) (s : State)

/-- BUS_CHANGE after the writing of the record, and of its capacity when one is carried. -/
def State.changeWritten : State :=
  if f.capacity.isSome then (s.putBus i (b.change f).withinCapacity).clampPlans (b.change f) else s.putBus i (b.change f)

/-- BUS_CHANGE after the test of an IMPORT_TO step. -/
def State.changeImport : State :=
  if f.capacity.isSome then (s.changeWritten i b f).testStep StepKind.isImport i else s.changeWritten i b f

/-- BUS_CHANGE after the test of an EXPORT_TO step. -/
def State.changeExport : State :=
  if b.floor < (f.write b).floor then (s.changeImport i b f).testStep StepKind.isExport i else s.changeImport i b f

theorem State.changeBus_eq : s.changeBus i b f = (s.changeExport i b f).changeSession i := by
  have hbus : (s.putBus i (b.change f)).bus i = some (b.change f) := s.bus_putBus_self i _
  have hcap : (if f.capacity.isSome then (s.putBus i (b.change f)).newCapacity i else s.putBus i (b.change f))
      = s.changeImport i b f := by
    rw [State.changeImport, State.changeWritten]
    split
    · simp only [State.newCapacity, hbus, State.putBus_putBus]
    · rfl
  rw [State.changeBus, hcap]
  rfl

theorem State.changeWritten_none (h : f.capacity = none) : s.changeWritten i b f = s.putBus i (b.change f) := by
  rw [State.changeWritten, h]
  rfl

theorem State.changeWritten_some (h : f.capacity ≠ none) :
    s.changeWritten i b f = (s.putBus i (b.change f).withinCapacity).clampPlans (b.change f) :=
  if_pos (Option.isSome_iff_ne_none.2 h)

theorem State.changeImport_none (h : f.capacity = none) : s.changeImport i b f = s.changeWritten i b f := by
  rw [State.changeImport, h]
  rfl

theorem State.changeImport_some (h : f.capacity ≠ none) :
    s.changeImport i b f = (s.changeWritten i b f).testStep StepKind.isImport i :=
  if_pos (Option.isSome_iff_ne_none.2 h)

theorem State.clampPlans_rest (w : Bus) : s.clampPlans w = { s with plans := (s.clampPlans w).plans } := State.modPlans_rest _ _ s

theorem State.changeWritten_bus : ∃ c, (s.changeWritten i b f).bus i = some c ∧ c.location = b.location := by
  rw [State.changeWritten]
  split
  · rw [State.clampPlans_rest]
    exact ⟨_, State.bus_putBus_self s i _, (Bus.withinCapacity_beside _).2.trans (Bus.change_beside f b).2⟩
  · exact ⟨_, State.bus_putBus_self s i _, (Bus.change_beside f b).2⟩

/-- The tests of the steps keep the record's place. -/
theorem State.changeExport_bus : ∃ c, (s.changeExport i b f).bus i = some c ∧ c.location = b.location := by
  obtain ⟨c, hc, hl⟩ := s.changeWritten_bus i b f
  have himport : (s.changeWritten i b f).Chained i (s.changeImport i b f) := by
    rw [State.changeImport]
    split
    · exact State.testStep_chained _ _
    · exact State.Chained.refl _
  have hexport : (s.changeImport i b f).Chained i (s.changeExport i b f) := by
    rw [State.changeExport]
    split
    · exact State.testStep_chained _ _
    · exact State.Chained.refl _
  obtain ⟨d, hd, ed⟩ := ((himport.trans hexport) c hc).bus
  exact ⟨d, hd, by rw [ed]; exact hl⟩

end Stages

/-! ### The written record -/

theorem Bus.change_eq (f : BusPatch) (b : Bus) : b.change f =
    if b.exportUsed < b.allowance ∧ (f.write b).allowance ≤ b.exportUsed
    then { f.write b with flags := (f.write b).flags ||| BusFlag.allowanceUsed } else f.write b := by
  rw [Bus.change, Bus.raiseIf_eq]
  by_cases h : b.exportUsed < b.allowance ∧ (f.write b).allowance ≤ b.exportUsed
  · have hd : (decide (b.exportUsed < b.allowance) && decide ((f.write b).allowance ≤ b.exportUsed)) = true := by simpa using h
    rw [if_pos h, hd]
    rfl
  · have hd : (decide (b.exportUsed < b.allowance) && decide ((f.write b).allowance ≤ b.exportUsed)) = false := by
      simpa [Bool.and_eq_false_iff] using h
    rw [if_neg h, hd]
    rfl

theorem Bus.change_rest (f : BusPatch) (b : Bus) : b.change f = { f.write b with flags := (b.change f).flags } := by
  rw [Bus.change, Bus.raiseIf_eq]

theorem Bus.withinCapacity_eq (b : Bus) : b.withinCapacity = { b with
    soe := b.soe.map fun x => min x b.capacity
    flags := if ∃ x, b.soe = some x ∧ b.capacity < x then b.flags ||| BusFlag.soeClamped else b.flags
    departure := b.departure.map (Departure.within b.capacity) } := by
  rw [Bus.withinCapacity, Bus.raiseIf_eq]
  cases hs : b.soe with
  | none => simp
  | some x => simp

/-- The clamped record of BUS_CHANGE, by the fields that the request carries. -/
theorem Bus.change_clamped (f : BusPatch) (b : Bus) : (b.change f).withinCapacity = { b.change f with
    soe := (f.write b).soe.map fun x => min x (f.write b).capacity
    flags := if ∃ x, (f.write b).soe = some x ∧ (f.write b).capacity < x
      then (b.change f).flags ||| BusFlag.soeClamped else (b.change f).flags
    departure := (f.write b).departure.map (Departure.within (f.write b).capacity) } := by
  have hsoe : (b.change f).soe = (f.write b).soe := by rw [Bus.change_rest]
  have hcap : (b.change f).capacity = (f.write b).capacity := by rw [Bus.change_rest]
  have hdep : (b.change f).departure = (f.write b).departure := by rw [Bus.change_rest]
  simp only [Bus.withinCapacity_eq, hsoe, hcap, hdep]

theorem Bus.change_listed (f : BusPatch) (b : Bus) : (b.change f).listedPlans = b.listedPlans := by
  rw [Bus.change_rest]
  rfl

theorem Bus.change_capacity (f : BusPatch) (b : Bus) : (b.change f).capacity = (f.write b).capacity := by
  rw [Bus.change_rest]

/-! ### The test of a step -/

section TestStep

variable {s : State} {i j : Nat} {c : Bus} {p : Plan} {st : PlanStep} {kinds : StepKind → Bool}

theorem State.testStep_step (hb : s.bus i = some c) (hr : s.runningPlan c = some j) (hp : s.plan j = some p)
    (hst : p.step? = some st) : s.testStep kinds i =
      if kinds st.kind = true ∧ stepEnded s.now c st = true then s.stepEnd i j else s := by
  simp only [State.testStep, hb, hr, hp, hst, Bool.and_eq_true]

theorem State.testStep_noStep (hb : s.bus i = some c) (hr : s.runningPlan c = some j) (hp : s.plan j = some p)
    (hst : p.step? = none) : s.testStep kinds i = s := by
  simp only [State.testStep, hb, hr, hp, hst]

theorem State.testStep_idle (hb : s.bus i = some c) (hr : s.runningPlan c = none) : s.testStep kinds i = s := by
  simp only [State.testStep, hb, hr]

theorem StepKind.isImport_iff (k : StepKind) : k.isImport = true ↔ k = .importTo := by
  cases k <;> simp [StepKind.isImport]

theorem StepKind.isExport_iff (k : StepKind) : k.isExport = true ↔ k = .exportTo := by
  cases k <;> simp [StepKind.isExport]

/-- w is v after the test of the RUNNING plan's step, if it is of a kind. -/
def State.Tested (i : Nat) (kind : StepKind) (v w : State) : Prop := ∀ c, v.bus i = some c →
  (∀ j p st, v.runningPlan c = some j → v.plan j = some p → p.step? = some st →
    w = if st.kind = kind ∧ stepEnded v.now c st = true then runTasks i 256 (.finish j) v else v)
  ∧ (∀ j p, v.runningPlan c = some j → v.plan j = some p → p.step? = none → w = v)
  ∧ (v.runningPlan c = none → w = v)

theorem State.testStep_tested {kind : StepKind} (hk : ∀ k, kinds k = true ↔ k = kind) (s : State) :
    State.Tested i kind s (s.testStep kinds i) := by
  intro c hb
  refine ⟨fun j p st hr hp hst => ?_, fun j p hr hp hst => State.testStep_noStep hb hr hp hst,
    fun hr => State.testStep_idle hb hr⟩
  rw [State.testStep_step hb hr hp hst]
  exact if_congr (and_congr_left' (hk st.kind)) rfl rfl

end TestStep

/-! ### The session of the bus's port -/

section Session

variable {s : State} {i : Nat} {c : Bus} {n : PortNo}

theorem State.changeSession_away (hb : s.bus i = some c) (hl : c.location = none) : s.changeSession i = s := by
  simp only [State.changeSession, hb, hl]

/-- The port's record before the effects of the change. -/
def Port.changed (c : Bus) (p : Port) : Port := if c.exportDone then (p.reformCaps c).zeroExport else p.reformCaps c

theorem State.changeSession_at (hb : s.bus i = some c) (hl : c.location = some n) :
    s.changeSession i = s.updPort n (Port.changed c) := by
  simp only [State.changeSession, hb, hl]
  rfl

theorem State.changeSession_rest (s : State) (i : Nat) :
    s.changeSession i = { s with ports := (s.changeSession i).ports } := by
  rw [State.changeSession]
  cases s.bus i with
  | none => rfl
  | some b =>
    cases h : b.location with
    | none => simp only [h]
    | some n => simp only [h]; rfl

theorem Session.reform_eq (c : Bus) (x : Session) : x.reform c = match x.announced with
    | some a => { x with importCap := min c.importCap a.maxImport
                         exportCap := if c.v2g = true ∧ a.v2g = true then min c.exportCap a.maxExport else 0 }
    | none => x := by
  rw [Session.reform]
  cases x.announced with
  | none => rfl
  | some a => simp only [sessionCaps, Bool.and_eq_true]

theorem Port.capTo_eq (d : Dir) (cap : Nat) (p : Port) : p.capTo d cap = { p with held := (p.capTo d cap).held } := by
  rw [Port.capTo]
  split <;> rfl

theorem Port.changed_eq (c : Bus) (p : Port) : p.changed c = { p with
    session := p.session.map (Session.reform c), held := (p.changed c).held } := by
  have hr : p.reformCaps c = { p with session := p.session.map (Session.reform c), held := (p.reformCaps c).held } := by
    simp only [Port.reformCaps]
    rw [Port.capTo_eq, Port.capTo_eq]
  rw [Port.changed]
  split
  · rw [Port.zeroExport_held, hr]
  · rw [hr]

theorem Port.capTo_held_other {d : Dir} {cap : Nat} {p : Port} (h : p.held.dir ≠ d) : p.capTo d cap = p :=
  if_neg fun hc => h hc.1

theorem Port.zeroExport_other {p : Port} (h : p.held.dir ≠ .exp) : p.zeroExport = p := if_neg h

section Held

variable {p : Port} (c : Bus)

/-- The port record with its session formed again. -/
def Port.reformed (c : Bus) (p : Port) : Port := { p with session := p.session.map (Session.reform c) }

theorem Port.reformCaps_eq (p : Port) : p.reformCaps c = ((p.reformed c).capTo .imp (p.reformed c).sessionImportCap).capTo
    .exp (p.reformed c).sessionExportCap := rfl

theorem Port.changed_none (h : p.held.dir = .none) : (p.changed c).held = p.held := by
  have hi : (p.reformed c).held.dir ≠ .imp := by rw [show (p.reformed c).held = p.held from rfl, h]; exact Dir.noConfusion
  have he : (p.reformed c).held.dir ≠ .exp := by rw [show (p.reformed c).held = p.held from rfl, h]; exact Dir.noConfusion
  rw [Port.changed, Port.reformCaps_eq, Port.capTo_held_other hi, Port.capTo_held_other he, Port.zeroExport_other he, ite_self]
  rfl

theorem Port.capTo_held_same {d : Dir} {cap : Nat} {q : Port} (h : q.held.dir = d) :
    (q.capTo d cap).held = if cap < q.held.mag then .make d (cap / 100 * 100) else q.held := by
  rw [Port.capTo]
  by_cases hc : cap < q.held.mag
  · rw [if_pos ⟨h, hc⟩, if_pos hc]
    rfl
  · rw [if_neg fun hx => hc hx.2, if_neg hc]

theorem Port.changed_imp (h : p.held.dir = .imp) : (p.changed c).held =
    if (p.reformed c).sessionImportCap < p.held.mag
    then .make .imp ((p.reformed c).sessionImportCap / 100 * 100) else p.held := by
  have hcap := Port.capTo_held_same (d := .imp) (cap := (p.reformed c).sessionImportCap) (q := p.reformed c) h
  have hne : ((p.reformed c).capTo .imp (p.reformed c).sessionImportCap).held.dir ≠ .exp := by
    rw [hcap]
    split
    · exact Setpoint.make_not_exp _
    · rw [show (p.reformed c).held = p.held from rfl, h]; exact Dir.noConfusion
  rw [Port.changed, Port.reformCaps_eq, Port.capTo_held_other hne, Port.zeroExport_other hne, ite_self, hcap]
  rfl

theorem Setpoint.make_dir_cases (d : Dir) (w : Nat) : Setpoint.make d w = .zero ∨ (Setpoint.make d w).dir = d := by
  rw [Setpoint.make]
  split
  · exact .inl rfl
  · exact .inr rfl

theorem Port.zeroExport_zero {q : Port} (h : q.held = .zero ∨ q.held.dir = .exp) : q.zeroExport.held = .zero := by
  rw [Port.zeroExport]
  split
  · rfl
  next hn => exact h.resolve_right hn

theorem Port.changed_exp (h : p.held.dir = .exp) : (p.changed c).held =
    if c.exportDone = true then .zero
    else if (p.reformed c).sessionExportCap < p.held.mag
    then .make .exp ((p.reformed c).sessionExportCap / 100 * 100) else p.held := by
  have hne : (p.reformed c).held.dir ≠ .imp := by
    rw [show (p.reformed c).held = p.held from rfl, h]; exact Dir.noConfusion
  have hcap := Port.capTo_held_same (d := .exp) (cap := (p.reformed c).sessionExportCap) (q := p.reformed c) h
  rw [Port.changed, Port.reformCaps_eq, Port.capTo_held_other hne]
  split
  · refine Port.zeroExport_zero ?_
    rw [hcap]
    split
    · exact Setpoint.make_dir_cases _ _
    · exact .inr h
  · exact hcap

theorem Bus.exportDone_iff : c.exportDone = true ↔
    (∃ x, c.soe = some x ∧ x ≤ c.dischargeFloor) ∨ c.allowance ≤ c.exportUsed := by
  rw [Bus.exportDone, Bus.atFloor, Bool.or_eq_true, decide_eq_true_iff]
  cases c.soe <;> simp

end Held

end Session

/-! ### BUS_CHANGE -/

section Request

variable {h : ReqHeader} {f : BusPatch} {s : State} {i : Nat} {b : Bus}

theorem exec_busChange (h : ReqHeader) (f : BusPatch) (s : State) :
    exec (.busChange h f) s = takeRequest ⟨h, .busChange f⟩ (applyBusChange h f) s := rfl

/-- R17: the fields of a bus stand. -/
def Bus.FieldsFit (b : Bus) : Prop := 10000 ≤ b.capacity ∧ b.capacity ≤ 600000 ∧ b.importCap ≤ 150000
  ∧ b.exportCap ≤ 60000 ∧ b.floor ≤ b.capacity ∧ b.allowance ≤ b.capacity

theorem Bus.fieldsFit_iff (b : Bus) : busFieldsOk b.capacity b.importCap b.exportCap b.floor b.allowance = true ↔ b.FieldsFit :=
  busFieldsOk_iff

theorem applyBusChange_notFound (hf : s.findBus h.key.toNat = none) : applyBusChange h f s = refuse s .notFound := by
  simp only [applyBusChange, hf]

theorem applyBusChange_outOfRange (hf : s.findBus h.key.toNat = some (i, b)) (hn : ¬ (f.write b).FieldsFit) :
    applyBusChange h f s = refuse s .outOfRange := by
  have hok := Bool.eq_false_iff.2 (mt (Bus.fieldsFit_iff _).1 hn)
  simp only [applyBusChange, hf, hok, Bool.not_false, if_true]

theorem applyBusChange_empty (hf : s.findBus h.key.toNat = some (i, b)) (hn : (f.write b).FieldsFit)
    (he : f.empty = true) : applyBusChange h f s = ⟨s, .ok, busFieldsResult i s⟩ := by
  have hok := (Bus.fieldsFit_iff _).2 hn
  simp only [applyBusChange, hf, hok, Bool.not_true, Bool.false_eq_true, if_false, he, if_true]

theorem applyBusChange_changed (hf : s.findBus h.key.toNat = some (i, b)) (hn : (f.write b).FieldsFit)
    (he : f.empty = false) :
    applyBusChange h f s = ⟨s.changeBus i b f, .ok, busFieldsResult i (s.changeBus i b f)⟩ := by
  have hok := (Bus.fieldsFit_iff _).2 hn
  simp only [applyBusChange, hf, hok, Bool.not_true, Bool.false_eq_true, if_false, he]

theorem busFieldsResult_eq (hb : s.bus i = some b) : busFieldsResult i s =
    .busFields b.number b.capacity b.importCap b.exportCap b.v2g b.floor b.allowance b.soe b.source := by
  simp only [busFieldsResult, hb]

theorem exec_busChange_changed (hq : s.takes ⟨h, .busChange f⟩ = true) (hf : s.findBus h.key.toNat = some (i, b))
    (hn : (f.write b).FieldsFit) (he : f.empty = false) : exec (.busChange h f) s
      = .next (s.answered ⟨h, .busChange f⟩ ((s.modRing Ring.pop).changeBus i b f) .ok
          (busFieldsResult i ((s.modRing Ring.pop).changeBus i b f))) :=
  takeRequest_reply hq (applyBusChange_changed (s := s.modRing Ring.pop) hf hn he)
    (State.changeBus_beside (s.modRing Ring.pop) i b f).ring

end Request

/-- A bus record with a capacity of its own, its SoE within it. -/
def Bus.atCapacity (c : Nat) (b : Bus) : Bus :=
  { b with
    capacity := c
    soe := b.soe.map fun x => min x c
    flags := if ∃ x, b.soe = some x ∧ c < x then b.flags ||| BusFlag.soeClamped else b.flags }

/-- BUS_CHANGE of the capacity alone, on a bus without location, departure part and plans. -/
theorem changeBus_capacity {s : State} {i : Nat} {b : Bus} {c : Word} (hl : b.location = none)
    (hd : b.departure = none) (hp : b.prioList = []) (hs : b.stdList = []) :
    s.changeBus i b ⟨some c, none, none, none, none, none⟩ = s.putBus i (b.atCapacity c.toNat) := by
  have hwritten : b.change ⟨some c, none, none, none, none, none⟩ = { b with capacity := c.toNat } := by
    rw [Bus.change_eq, if_neg fun hx => absurd hx.1 (Nat.not_lt.2 hx.2)]
    rfl
  have hclamped : ({ b with capacity := c.toNat } : Bus).withinCapacity = b.atCapacity c.toNat := by
    rw [Bus.withinCapacity_eq]
    simp only [hd, Option.map_none, Bus.atCapacity]
  have hlisted : ({ b with capacity := c.toNat } : Bus).listedPlans = [] := by
    rw [Bus.listedPlans, hp, hs]
    rfl
  have hsome : (⟨some c, none, none, none, none, none⟩ : BusPatch).capacity ≠ none := Option.some_ne_none _
  have h1 : s.changeWritten i b ⟨some c, none, none, none, none, none⟩ = s.putBus i (b.atCapacity c.toNat) := by
    rw [State.changeWritten_some i b _ s hsome, hwritten, hclamped, State.clampPlans_eq, hlisted]
    rfl
  have hidle : (s.putBus i (b.atCapacity c.toNat)).runningPlan (b.atCapacity c.toNat) = none := by
    have hnil : (b.atCapacity c.toNat).listedPlans = [] := hlisted
    rw [State.runningPlan_eq, hnil]
    rfl
  have h2 : s.changeImport i b ⟨some c, none, none, none, none, none⟩ = s.putBus i (b.atCapacity c.toNat) := by
    rw [State.changeImport_some i b _ s hsome, h1, State.testStep_idle (State.bus_putBus_self s i _) hidle]
  have h3 : s.changeExport i b ⟨some c, none, none, none, none, none⟩ = s.changeImport i b _ :=
    if_neg (Nat.lt_irrefl _)
  have hloc : (b.atCapacity c.toNat).location = none := hl
  rw [State.changeBus_eq, h3, h2, State.changeSession_away (State.bus_putBus_self s i _) hloc]

/-- Settles O11: the checks in their order; a taken change by its stages; the change of a capacity alone. -/
theorem busChangeChecksAndClamps : Obligations.BusChangeChecksAndClamps := by
  refine ⟨?general, ?capacity⟩
  case general =>
    intro h f s hq
    have hx := exec_busChange h f s
    refine ⟨?unknown, ?found⟩
    case unknown =>
      exact fun hn => hx.trans (takeRequest_refused hq
        (applyBusChange_notFound (s := s.modRing Ring.pop) (State.findBus_none.2 hn)))
    case found =>
      intro i b hf nb fits
      refine ⟨?bad, ?empty, ?changed⟩
      case bad =>
        exact fun hn => hx.trans (takeRequest_refused hq (applyBusChange_outOfRange (s := s.modRing Ring.pop) hf hn))
      case empty =>
        intro hn he hb
        have hreply := applyBusChange_empty (s := s.modRing Ring.pop) hf hn he
        rw [busFieldsResult_eq (s := s.modRing Ring.pop) hb] at hreply
        exact hx.trans (takeRequest_answered hq s _ _ hreply)
      case changed =>
        intro hn he hb written clamped tested
        have hwritten : b.change f = written := Bus.change_eq f b
        have hclamped : (b.change f).withinCapacity = clamped := by
          rw [Bus.change_clamped, hwritten]
          rfl
        have hrun := exec_busChange_changed hq hf hn he
        have hu := State.changeBus_eq i b f (s.modRing Ring.pop)
        have hrest := State.changeSession_rest ((s.modRing Ring.pop).changeExport i b f) i
        obtain ⟨c, hc, hcl⟩ := State.changeExport_bus i b f (s.modRing Ring.pop)
        have huc : ((s.modRing Ring.pop).changeBus i b f).bus i = some c := by
          rw [hu, hrest]
          exact hc
        rw [busFieldsResult_eq huc] at hrun
        refine ⟨(s.modRing Ring.pop).changeWritten i b f, (s.modRing Ring.pop).changeImport i b f,
          (s.modRing Ring.pop).changeExport i b f, (s.modRing Ring.pop).changeBus i b f, c, hrun, ?_, ?_, ?_, ?_, hc, ?_, ?_⟩
        · intro hcap
          exact ⟨hwritten ▸ State.changeWritten_none i b f _ hcap, State.changeImport_none i b f _ hcap⟩
        · intro hcap
          have hlisted : (b.change f).listedPlans = b.prioList ++ b.stdList := Bus.change_listed f b
          have hplan (j : Nat) : ((s.modRing Ring.pop).changeWritten i b f).plan j = if j ∈ b.prioList ++ b.stdList
              then (s.plan j).map (Plan.withinCapacity (f.write b).capacity) else s.plan j := by
            rw [State.changeWritten_some i b f _ hcap, State.clampPlans_eq, hlisted, Bus.change_capacity,
              State.modPlans_plan (Plan.withinCapacity_twice _)]
            rfl
          refine ⟨?_, fun j hj => (hplan j).trans (if_pos hj), fun j hj => (hplan j).trans (if_neg hj), ?_⟩
          · rw [State.changeWritten_some i b f _ hcap, hclamped]
            exact State.clampPlans_rest _ _
          · rw [State.changeImport_some i b f _ hcap]
            exact State.testStep_tested StepKind.isImport_iff _
        · intro hfl
          rw [State.changeExport, if_pos hfl]
          exact State.testStep_tested StepKind.isExport_iff _
        · exact fun hfl => if_neg (Nat.not_lt.2 hfl)
        · exact fun hl => hu.trans (State.changeSession_away hc (hcl.trans hl))
        · intro n hl p r
          have hat := State.changeSession_at hc (hcl.trans hl)
          have hr : r = Port.settle ((s.modRing Ring.pop).changeExport i b f).env p (p.changed c) := by
            change ((s.modRing Ring.pop).changeBus i b f).port n = _
            rw [hu, hat, State.port_updPort, if_pos rfl]
          have hheld : r.held = (p.changed c).held := by rw [hr, Port.settle_held]
          have hsession : r.session = p.session.map (Session.reform c) := by
            rw [hr, Port.settle_session, Port.changed_eq]
          have himport : r.sessionImportCap = (p.reformed c).sessionImportCap := by
            rw [Port.sessionImportCap, hsession]
            rfl
          have hexport : r.sessionExportCap = (p.reformed c).sessionExportCap := by
            rw [Port.sessionExportCap, hsession]
            rfl
          refine ⟨?_, ?_, ?_, fun hd => hheld.trans (Port.changed_none c hd), fun hd => ?_, fun hd => ?_⟩
          · rw [hr, hu, hat]
            rfl
          · have hframe := Port.settle_frame ((s.modRing Ring.pop).changeExport i b f).env p (p.changed c)
            rw [← hr, Port.changed_eq, ← hsession, ← hheld] at hframe
            exact hframe
          · rw [hsession]
            exact congrArg (fun g => p.session.map g) (funext fun x => Session.reform_eq c x)
          · rw [hheld, himport, Port.changed_imp c hd]
          · rw [hheld, hexport, Port.changed_exp c hd]
            exact if_congr (Bus.exportDone_iff c) rfl rfl
  case capacity =>
    intro h c s i b hq hf hb h1 h2 h3 h4 h5 h6 hl hd hp hs
    have hrun := exec_busChange_changed hq hf ⟨h1, h2, h3, h4, h5, h6⟩ rfl
    have heq := changeBus_capacity (s := s.modRing Ring.pop) (i := i) (c := c) hl hd hp hs
    refine ⟨_, hrun, ?_, ?_, ?_, ?_, ?_⟩
    · rw [heq]
      exact State.bus_putBus_self (s.modRing Ring.pop) i _
    all_goals
      rw [heq]
      rfl

end Sys2Proof.Machine
end

section
/-! Charging ports outside a session: settled changes of one record, PORT_GO (O20), PORT_CONFIGURE (O22), and the
pilot level, the settling and the debounce without a session (O23). -/

namespace Sys2Proof.Machine

open Sys2Proof

/-! ### Changes of one port record -/

theorem Timer.isRunning_iff (t : Timer) : t.isRunning = true ↔ t ≠ .stopped := by
  cases t <;> simp [Timer.isRunning]

theorem Timer.isRunning_of_ne {t : Timer} (h : t ≠ .stopped) : t.isRunning = true := (Timer.isRunning_iff t).2 h

theorem Timer.not_isRunning {t : Timer} (h : t = .stopped) : ¬ t.isRunning = true := by
  rw [h]
  exact Bool.false_ne_true

/-- A settled change writes the ports alone. -/
theorem State.updPort_eq (s : State) (n : PortNo) (f : Port → Port) :
    s.updPort n f = { s with ports := s.ports.set n (Port.settle s.env (s.port n) (f (s.port n))) } := rfl

theorem State.setPort_eq (s : State) (n : PortNo) (f : Port → Port) :
    s.setPort n f = { s with ports := s.ports.set n (f (s.port n)) } := rfl

theorem Vector.set_fin_twice {α : Type} {m : Nat} (v : Vector α m) (n : Fin m) (x y : α) :
    (v.set n x).set n y = v.set n y := by
  ext i hi
  simp only [Vector.getElem_set]
  split <;> rfl

/-- Two writes of one port record leave the second. -/
theorem State.putPort_putPort (s : State) (n : PortNo) (p q : Port) : (s.putPort n p).putPort n q = s.putPort n q :=
  congrArg (fun v => { s with ports := v }) (Vector.set_fin_twice s.ports n p q)

theorem State.updPort_setPort (s : State) (n : PortNo) (f g : Port → Port) :
    (s.setPort n f).updPort n g
      = { s with ports := s.ports.set n (Port.settle s.env (f (s.port n)) (g (f (s.port n)))) } := by
  have hp : (s.setPort n f).port n = f (s.port n) := (State.port_setPort s n n f).trans (if_pos rfl)
  rw [State.updPort, hp]
  exact State.putPort_putPort s n _ _

/-- Outside ENERGIZED before and after, a change of the record that keeps its held setpoint moves timers alone. -/
theorem Port.settle_unpowered {e : PortEnv} {p q : Port} (hh : q.held = p.held) (hp : p.state ≠ .energized)
    (hq : q.state ≠ .energized) : Port.settle e p q = q.timersOf (Port.settle e p q) :=
  Port.settle_still e p q hh (by rw [Port.live_of_not_energized hp, Port.live_of_not_energized hq])

/-- Outside ENERGIZED the open delay and the stall timer stand still. -/
theorem Port.settle_stops {e : PortEnv} {p q : Port} (hq : q.state ≠ .energized) :
    (Port.settle e p q).openDelay = .stopped ∧ (Port.settle e p q).stall = .stopped := by
  have hs : ¬ q.stallConditions = true := by
    have h : (q.state == .energized) = false := beq_eq_false_iff_ne.2 hq
    rw [Port.stallConditions, h]
    exact Bool.false_ne_true
  rw [Port.settle_openDelay, if_neg fun h => hq h.1, Port.settle_stall, if_neg hs]
  exact ⟨rfl, rfl⟩

theorem Port.settle_answer (e : PortEnv) (p q : Port) : (Port.settle e p q).answer = q.answer := by
  rw [Port.settle_eq]

theorem Port.settle_confirmation (e : PortEnv) (p q : Port) : (Port.settle e p q).confirmation = q.confirmation := by
  rw [Port.settle_eq]

theorem Port.weldConditions_iff (p : Port) : p.weldConditions = true ↔
    p.command = .opened ∧ p.feedback = .closed ∧ p.state ≠ .offline := by
  simp [Port.weldConditions, and_assoc]

/-- The weld timer starts when its conditions first hold. -/
theorem Port.settle_weld_starts {e : PortEnv} {p q : Port} (hq : q.weldConditions = true) (hp : ¬ p.weldConditions = true) :
    (Port.settle e p q).weld = .running 200 0 := by
  rw [Port.settle_weld, if_pos hq, if_neg hp]
  rfl

/-! ### PORT_GO -/

theorem goAction_reach_iff (t : PortTarget) (st : PortState) : goAction t st = .reach ↔
    (t = .offline ∧ (st = .offline ∨ st = .vacant ∨ st = .detecting ∨ st = .identifying ∨ st = .faulted))
    ∨ (t = .vacant ∧ (st = .offline ∨ st = .faulted)) := by
  cases t <;> cases st <;> simp [goAction]

theorem goAction_close_iff (t : PortTarget) (st : PortState) : goAction t st = .close ↔
    (t = .offline ∧ (st = .connected ∨ st = .energizing ∨ st = .energized ∨ st = .held))
    ∨ (t = .reidentify ∧ (st = .connected ∨ st = .energized)) := by
  cases t <;> cases st <;> simp [goAction]

theorem goAction_refuse_of {t : PortTarget} {st : PortState} (hr : goAction t st ≠ .reach) (hc : goAction t st ≠ .close) :
    goAction t st = .refuse := by
  cases h : goAction t st with
  | reach => exact absurd h hr
  | close => exact absurd h hc
  | refuse => rfl

/-- The record of a target that is reached at once, beside its timers. -/
theorem Port.reach_eq (t : PortTarget) (now : Nat) (p : Port) (hc : t ≠ .reidentify) : p.reach t now =
    { p.timersOf (p.reach t now) with
      state := if t = .vacant then .vacant else .offline
      lastTransition := some ⟨t, .reached, now⟩, pendingTarget := none, faultCode := none
      flags := p.flags ||| PortFlag.stateReached
      attempts := if p.state = .identifying then 0 else p.attempts } := by
  by_cases hi : p.state = .identifying <;> cases t <;> simp_all [Port.reach, Port.endIdentification, Port.endTransition, Port.enter, Port.raise, Port.timersOf]

theorem Port.reach_timers (t : PortTarget) (now : Nat) (p : Port) : (p.reach t now).debounce = .stopped
    ∧ (p.reach t now).answer = .stopped ∧ (p.reach t now).confirmation = .stopped ∧ (p.reach t now).quiet = .stopped
    ∧ (p.reach t now).limit = .stopped
    ∧ (p.reach t now).settling = if t = .vacant then .running 500 0 else .stopped := by
  cases t <;> exact ⟨rfl, rfl, rfl, rfl, rfl, rfl⟩

theorem Port.enterClosing_eq (t : PortTarget) (p : Port) : p.enterClosing t =
    { p.timersOf (p.enterClosing t) with
      state := .closing, pendingTarget := some t, held := .zero, faultCode := none } := rfl

section Go

variable {port : Word} {target : Byte} {s : State} {n : PortNo} {t : PortTarget}

theorem exec_portGo (h : ReqHeader) (port : Word) (target : Byte) (s : State) :
    exec (.portGo h port target) s = takeRequest ⟨h, .portGo port target⟩ (applyPortGo port target) s := rfl

theorem targetOf_eq (h : (target = 0 ∧ t = .offline) ∨ (target = 1 ∧ t = .vacant) ∨ (target = 2 ∧ t = .reidentify)) :
    targetOf target = some t := by
  rcases h with ⟨rfl, rfl⟩ | ⟨rfl, rfl⟩ | ⟨rfl, rfl⟩ <;> rfl

theorem applyPortGo_outOfRange (h : 23 < port.toNat ∨ 2 < target.toNat) : applyPortGo port target s = refuse s .outOfRange := by
  rcases h with h | h
  · simp only [applyPortGo, portOf_none h]
  · cases hp : portOf port <;> simp only [applyPortGo, hp, targetOf_none h]

theorem applyPortGo_refused (hn : port.toNat = n.val) (ht : targetOf target = some t) {st : Status}
    (hr : goRefusal t (s.port n) = some st) : applyPortGo port target s = refuse s st := by
  simp only [applyPortGo, portOf_eq hn, ht, hr]

theorem applyPortGo_taken (hn : port.toNat = n.val) (ht : targetOf target = some t) (hr : goRefusal t (s.port n) = none) :
    applyPortGo port target s = ⟨s.updPort n (Port.go t s.now),
      if goAction t (s.port n).state = .close then .accepted else .ok,
      .portMoved ((s.port n).go t s.now).state ((s.port n).go t s.now).pendingTarget⟩ := by
  have hport : (s.updPort n (Port.go t s.now)).port n = Port.settle s.env (s.port n) ((s.port n).go t s.now) :=
    (State.port_updPort s n n _).trans (if_pos rfl)
  simp only [applyPortGo, portOf_eq hn, ht, hr, hport, Port.settle_state, Port.settle_pending]

variable {p : Port}

theorem goRefusal_busy (h : p.pendingTarget ≠ none) : goRefusal t p = some .portBusy :=
  if_pos (Option.isSome_iff_ne_none.2 h)

theorem goRefusal_free (h : p.pendingTarget = none) : goRefusal t p =
    if goAction t p.state = .refuse then some .portState
    else if t = .vacant ∧ p.state = .faulted ∧ p.feedback = .closed then some .welded else none := by
  rw [goRefusal, h]
  rfl

theorem Port.go_reach {now : Nat} (h : goAction t p.state = .reach) : p.go t now = p.reach t now := by
  simp only [Port.go, h]

theorem Port.go_close {now : Nat} (h : goAction t p.state = .close) : p.go t now = p.enterClosing t := by
  simp only [Port.go, h]

end Go

theorem PortState.not_energized_of_reach {t : PortTarget} {st : PortState} (h : goAction t st = .reach) : st ≠ .energized := by
  rintro rfl
  cases t <;> cases h

section Settled

variable {e : PortEnv} {t : PortTarget} {now : Nat} {p : Port}

theorem Port.reach_state (hc : t ≠ .reidentify) : (p.reach t now).state = if t = .vacant then .vacant else .offline := by
  rw [Port.reach_eq t now p hc]

theorem Port.reach_not_energized (hc : t ≠ .reidentify) : (p.reach t now).state ≠ .energized := by
  rw [Port.reach_state hc]
  split <;> exact PortState.noConfusion

theorem Port.reach_contactor (hc : t ≠ .reidentify) :
    (p.reach t now).command = p.command ∧ (p.reach t now).feedback = p.feedback ∧ (p.reach t now).held = p.held := by
  rw [Port.reach_eq t now p hc]
  exact ⟨rfl, rfl, rfl⟩

/-- The settled record of a target that is reached at once. -/
theorem Port.settle_reach (hc : t ≠ .reidentify) (hp : p.state ≠ .energized) : Port.settle e p (p.reach t now) =
    { p.timersOf (Port.settle e p (p.reach t now)) with
      state := if t = .vacant then .vacant else .offline
      lastTransition := some ⟨t, .reached, now⟩, pendingTarget := none, faultCode := none
      flags := p.flags ||| PortFlag.stateReached
      attempts := if p.state = .identifying then 0 else p.attempts } := by
  have hstill := Port.settle_unpowered (e := e) (Port.reach_contactor (now := now) hc).2.2 hp (Port.reach_not_energized hc)
  generalize Port.settle e p (p.reach t now) = r at hstill ⊢
  calc r = (p.reach t now).timersOf r := hstill
    _ = _ := by rw [Port.reach_eq t now p hc]; rfl

/-- A settled OFFLINE leaves no weld timer. -/
theorem Port.settle_reach_offline (hc : t ≠ .reidentify) (ht : t ≠ .vacant) :
    (Port.settle e p (p.reach t now)).weld = .stopped := by
  rw [Port.settle_weld, if_neg]
  rw [Port.weldConditions_iff, Port.reach_state hc, if_neg ht]
  exact fun h => h.2.2 rfl

/-- A contactor that shows CLOSED against the command is watched once the port leaves OFFLINE. -/
theorem Port.settle_reach_weld (ht : t = .vacant) (ho : p.state = .offline) (hcmd : p.command = .opened)
    (hfb : p.feedback = .closed) : (Port.settle e p (p.reach t now)).weld = .running 200 0 := by
  have hc : t ≠ .reidentify := by rw [ht]; exact PortTarget.noConfusion
  obtain ⟨hcommand, hfeedback, _⟩ := Port.reach_contactor (p := p) (now := now) hc
  refine Port.settle_weld_starts ?_ fun h => ((Port.weldConditions_iff p).1 h).2.2 ho
  rw [Port.weldConditions_iff, hcommand, hfeedback, Port.reach_state hc, if_pos ht]
  exact ⟨hcmd, hfb, PortState.noConfusion⟩

/-- The settled record of a port that becomes CLOSING. -/
theorem Port.settle_closing : Port.settle e p (p.enterClosing t) =
    { p.timersOf (Port.settle e p (p.enterClosing t)) with
      state := .closing, pendingTarget := some t, held := .zero
      zeroSince := (Port.settle e p (p.enterClosing t)).zeroSince, faultCode := none
      frameCount := (Port.settle e p (p.enterClosing t)).frameCount
      frameTimer := (Port.settle e p (p.enterClosing t)).frameTimer
      lastFrame := (Port.settle e p (p.enterClosing t)).lastFrame } := by
  have hframe := Port.settle_frame e p (p.enterClosing t)
  have hdir := (Port.settle_powerOff e p (p.enterClosing t) rfl rfl rfl rfl).lastDir
  generalize Port.settle e p (p.enterClosing t) = r at hframe hdir ⊢
  rw [hdir] at hframe
  exact hframe

theorem Port.enterClosing_timers (t : PortTarget) (p : Port) : (p.enterClosing t).quiet = .running 1000 0
    ∧ (p.enterClosing t).limit = .running 5000 0 ∧ (p.enterClosing t).confirmation = .stopped
    ∧ (p.enterClosing t).state ≠ .energized := ⟨rfl, rfl, rfl, PortState.noConfusion⟩

end Settled

section GoReply

variable {h : ReqHeader} {port : Word} {target : Byte} {s : State} {n : PortNo} {t : PortTarget}

theorem exec_portGo_reached (hq : s.takes ⟨h, .portGo port target⟩ = true) (hn : port.toNat = n.val)
    (ht : targetOf target = some t) (hr : goRefusal t (s.port n) = none) (ha : goAction t (s.port n).state = .reach)
    (hc : t ≠ .reidentify) : exec (.portGo h port target) s = .next (s.answered ⟨h, .portGo port target⟩
      { s with ports := s.ports.set n (Port.settle s.env (s.port n) ((s.port n).reach t s.now)) } .ok
      (.portMoved ((s.port n).reach t s.now).state none)) := by
  have hreply := applyPortGo_taken (s := s.modRing Ring.pop) hn ht hr
  have hgo : ((s.modRing Ring.pop).port n).go t (s.modRing Ring.pop).now = (s.port n).reach t s.now := Port.go_reach ha
  have hpending : ((s.port n).reach t s.now).pendingTarget = none := by rw [Port.reach_eq t s.now _ hc]
  have hnc : ¬ goAction t ((s.modRing Ring.pop).port n).state = .close := fun hx => GoAction.noConfusion (ha.symm.trans hx)
  rw [hgo, hpending, if_neg hnc, State.updPort_eq, hgo] at hreply
  exact (exec_portGo h port target s).trans (takeRequest_answered hq _ _ _ hreply)

theorem exec_portGo_closing (hq : s.takes ⟨h, .portGo port target⟩ = true) (hn : port.toNat = n.val)
    (ht : targetOf target = some t) (hr : goRefusal t (s.port n) = none) (ha : goAction t (s.port n).state = .close) :
    exec (.portGo h port target) s = .next (s.answered ⟨h, .portGo port target⟩
      { s with ports := s.ports.set n (Port.settle s.env (s.port n) ((s.port n).enterClosing t)) } .accepted
      (.portMoved .closing (some t))) := by
  have hreply := applyPortGo_taken (s := s.modRing Ring.pop) hn ht hr
  have hgo : ((s.modRing Ring.pop).port n).go t (s.modRing Ring.pop).now = (s.port n).enterClosing t := Port.go_close ha
  have hc : goAction t ((s.modRing Ring.pop).port n).state = .close := ha
  rw [hgo, if_pos hc, State.updPort_eq, hgo] at hreply
  exact (exec_portGo h port target s).trans (takeRequest_answered hq _ _ _ hreply)

end GoReply

/-- Settles O20: the checks in their order, then the settled record of a target reached at once and of one that
makes the port CLOSING. -/
theorem portGoByTable : Obligations.PortGoByTable := by
  intro h port target s hq i q
  have hx := exec_portGo h port target s
  refine ⟨fun hr => hx.trans (takeRequest_refused hq (applyPortGo_outOfRange hr)), ?inRange⟩
  case inRange =>
    intro n t hn htarget p atOnce closes welded
    have ht := targetOf_eq htarget
    have hreach : goAction t p.state = .reach ↔ atOnce := goAction_reach_iff t p.state
    have hclose : goAction t p.state = .close ↔ closes := goAction_close_iff t p.state
    have hrefused {st : Status} (hr : goRefusal t p = some st) : exec i s = .next (s.answered q s st .none) :=
      hx.trans (takeRequest_refused hq (applyPortGo_refused (s := s.modRing Ring.pop) hn ht hr))
    refine ⟨fun hb => hrefused (goRefusal_busy hb), fun hf ha hc => ?portState, fun hf hw => ?welded,
      fun hf ha hw => ?reached, fun hf hc => ?closing⟩
    case portState =>
      have hr := goAction_refuse_of (mt hreach.1 ha) (mt hclose.1 hc)
      exact hrefused ((goRefusal_free hf).trans (if_pos hr))
    case welded =>
      have ha : goAction t p.state ≠ .refuse := by
        rw [hw.1, hw.2.1]
        exact GoAction.noConfusion
      exact hrefused (((goRefusal_free hf).trans (if_neg ha)).trans (if_pos hw))
    case reached =>
      have hact := hreach.2 ha
      have hnone : goRefusal t p = none :=
        ((goRefusal_free hf).trans (if_neg (by rw [hact]; exact GoAction.noConfusion))).trans (if_neg hw)
      have hne : t ≠ .reidentify := by
        rintro rfl
        exact absurd ha (by rintro (⟨h, _⟩ | ⟨h, _⟩) <;> cases h)
      have hrun := exec_portGo_reached hq hn ht hnone hact hne
      obtain ⟨hdebounce, hanswer, hconfirm, hquiet, hlimit, hsettling⟩ := Port.reach_timers t s.now p
      obtain ⟨hopen, hstall⟩ := Port.settle_stops (e := s.env) (p := p) (Port.reach_not_energized (p := p) (now := s.now) hne)
      refine ⟨Port.settle s.env p (p.reach t s.now), (Port.settle_state s.env p (p.reach t s.now)).symm ▸ hrun,
        Port.settle_reach hne (PortState.not_energized_of_reach hact), (Port.settle_debounce ..).trans hdebounce,
        (Port.settle_answer ..).trans hanswer, (Port.settle_confirmation ..).trans hconfirm, hopen,
        (Port.settle_quiet ..).trans hquiet, (Port.settle_limit ..).trans hlimit, hstall, ?offline, ?vacant,
        Port.settle_reach_weld⟩
      case offline =>
        intro ho
        have hnv : t ≠ .vacant := by rw [ho]; exact PortTarget.noConfusion
        exact ⟨(Port.settle_settling ..).trans (hsettling.trans (if_neg hnv)), Port.settle_reach_offline hne hnv⟩
      case vacant => exact fun hv => (Port.settle_settling ..).trans (hsettling.trans (if_pos hv))
    case closing =>
      have hact := hclose.2 hc
      have hnone : goRefusal t p = none := by
        refine ((goRefusal_free hf).trans (if_neg (by rw [hact]; exact GoAction.noConfusion))).trans (if_neg ?_)
        rintro ⟨rfl, _, _⟩
        rcases hc with ⟨h, _⟩ | ⟨h, _⟩ <;> cases h
      obtain ⟨hquiet, hlimit, hconfirm, hne⟩ := Port.enterClosing_timers t p
      obtain ⟨hopen, hstall⟩ := Port.settle_stops (e := s.env) (p := p) hne
      exact ⟨Port.settle s.env p (p.enterClosing t), exec_portGo_closing hq hn ht hnone hact,
        Port.settle_powerOff s.env p (p.enterClosing t) rfl rfl rfl rfl, Port.settle_closing,
        (Port.settle_quiet ..).trans hquiet, (Port.settle_limit ..).trans hlimit,
        (Port.settle_confirmation ..).trans hconfirm, hopen, hstall⟩

/-! ### PORT_CONFIGURE -/

section Configure

variable {port : Word} {f : PortPatch} {s : State} {n : PortNo}

theorem exec_portConfigure (h : ReqHeader) (port : Word) (f : PortPatch) (s : State) :
    exec (.portConfigure h port f) s = takeRequest ⟨h, .portConfigure port f⟩ (applyPortConfigure port f) s := rfl

/-- The carried fields of PORT_CONFIGURE are in their ranges. -/
def portPatchFits (f : PortPatch) : Prop := Within 1 100 f.energyPerCount ∧ Within 1 255 f.filterThreshold

theorem portPatchFits_iff (f : PortPatch) :
    (inRange 1 100 f.energyPerCount && inRange 1 255 f.filterThreshold) = true ↔ portPatchFits f := by
  rw [Bool.and_eq_true, inRange_iff, inRange_iff]
  rfl

theorem configureRefusal_unfit {p : Port} (h : ¬ portPatchFits f) : configureRefusal f p = some .outOfRange := by
  have hr : (inRange 1 100 f.energyPerCount && inRange 1 255 f.filterThreshold) = false :=
    Bool.eq_false_iff.2 (mt (portPatchFits_iff f).1 h)
  rw [configureRefusal, hr]
  rfl

theorem configureRefusal_fit {p : Port} (h : portPatchFits f) : configureRefusal f p =
    if (f.energyPerCount ≠ none ∨ f.filterThreshold ≠ none) ∧ p.state ≠ .offline then some .portInUse else none := by
  rw [configureRefusal, (portPatchFits_iff f).2 h]
  refine (if_neg Bool.false_ne_true).trans (if_congr ?_ rfl rfl)
  rw [Option.isSome_iff_ne_none, Option.isSome_iff_ne_none]

theorem applyPortConfigure_range (h : 23 < port.toNat) : applyPortConfigure port f s = refuse s .outOfRange := by
  simp only [applyPortConfigure, portOf_none h]

theorem applyPortConfigure_refused (hn : port.toNat = n.val) {st : Status} (hr : configureRefusal f (s.port n) = some st) :
    applyPortConfigure port f s = refuse s st := by
  simp only [applyPortConfigure, portOf_eq hn, hr]

theorem applyPortConfigure_unfit (h : ¬ portPatchFits f) : applyPortConfigure port f s = refuse s .outOfRange := by
  cases hp : portOf port with
  | none => simp only [applyPortConfigure, hp]
  | some n => simp only [applyPortConfigure, hp, configureRefusal_unfit h]

theorem applyPortConfigure_taken (hn : port.toNat = n.val) (hr : configureRefusal f (s.port n) = none) :
    applyPortConfigure port f s = ⟨s.configurePort n f, if carriesRating f then s.stagedStatus else .ok,
      .portConfig (s.configurePort n f).site.stagedRatings[n] ((s.configurePort n f).port n).energyPerCount
        ((s.configurePort n f).port n).filterThreshold⟩ := by
  simp only [applyPortConfigure, portOf_eq hn, hr]

theorem carriesRating_iff (f : PortPatch) : carriesRating f = true ↔ f.importRating ≠ none ∨ f.exportRating ≠ none := by
  rw [carriesRating, Bool.or_eq_true, Option.isSome_iff_ne_none, Option.isSome_iff_ne_none]

theorem stageRating_eq (top old : Nat) (o : Option Word) :
    stageRating top old o = match o with | some w => min (w.toNat / 100 * 100) top | none => old := by
  cases o <;> rfl

theorem keep_eq (old : Nat) (o : Option Word) : keep old o = match o with | some w => w.toNat | none => old := by
  cases o <;> rfl

/-- The state with the carried fields of the port written and the carried ratings staged. -/
def State.configured (n : PortNo) (f : PortPatch) (s : State) : State :=
  { s with
    ports := s.ports.set n ((s.port n).configure f)
    site := { s.site with
      stagedRatings := s.site.stagedRatings.set n (stagedAfter f s.site.stagedRatings[n]), loadPending := true } }

theorem State.configurePort_unrated (h : ¬ carriesRating f = true) :
    s.configurePort n f = { s with ports := s.ports.set n ((s.port n).configure f) } := if_neg h

theorem State.configurePort_running (h : carriesRating f = true) (hr : s.engine.running = true) :
    s.configurePort n f = s.configured n f := (if_pos h).trans (if_pos hr)

theorem State.configurePort_stopped (h : carriesRating f = true) (hr : s.engine.running = false) :
    s.configurePort n f = (s.configured n f).load :=
  (if_pos h).trans (if_neg fun hc => Bool.false_ne_true (hr.symm.trans hc))

theorem Vector.getElem_set_fin {α : Type} {m : Nat} (v : Vector α m) (n : Fin m) (x : α) : (v.set n x)[n] = x :=
  Vector.getElem_set_self _

theorem State.configured_port (n : PortNo) (f : PortPatch) (s : State) : (s.configured n f).port n = (s.port n).configure f :=
  Vector.getElem_set_fin _ n _

theorem State.configured_staged (n : PortNo) (f : PortPatch) (s : State) :
    (s.configured n f).site.stagedRatings[n] = stagedAfter f s.site.stagedRatings[n] := Vector.getElem_set_fin _ n _

end Configure

/-- Settles O22: the checks in their order, then the record written, the rating staged, and the load of a stopped
engine. -/
theorem portConfigureByChecks : Obligations.PortConfigureByChecks := by
  intro h port f s hq i q fits inRecord rated
  have hx := exec_portConfigure h port f s
  refine ⟨?outOfRange, fun n hn hfit => ⟨fun hrec hst => ?inUse, fun hfree => ?taken⟩⟩
  case outOfRange =>
    rintro (hp | hf)
    · exact hx.trans (takeRequest_refused hq (applyPortConfigure_range hp))
    · exact hx.trans (takeRequest_refused hq (applyPortConfigure_unfit hf))
  case inUse =>
    exact hx.trans (takeRequest_refused hq (applyPortConfigure_refused (s := s.modRing Ring.pop) hn
      ((configureRefusal_fit hfit).trans (if_pos ⟨hrec, hst⟩))))
  case taken =>
    have hnone : configureRefusal f (s.port n) = none :=
      (configureRefusal_fit hfit).trans (if_neg fun hc => hfree.elim (fun hr => hr hc.1) fun hs => hc.2 hs)
    have hreply := applyPortConfigure_taken (s := s.modRing Ring.pop) hn hnone
    refine ⟨(s.port n).configure f, stagedAfter f s.site.stagedRatings[n], rfl, keep_eq _ _, keep_eq _ _,
      stageRating_eq _ _ _, stageRating_eq _ _ _, fun hr => ?unrated, fun hr hrun => ?running, fun hr hrun => ?stopped⟩
    case unrated =>
      have hnr : ¬ carriesRating f = true := mt (carriesRating_iff f).1 hr
      have hstaged : stagedAfter f s.site.stagedRatings[n] = s.site.stagedRatings[n] := by
        have hi : f.importRating = none := by_contra fun hc => hr (.inl hc)
        have he : f.exportRating = none := by_contra fun hc => hr (.inr hc)
        rw [stagedAfter, hi, he]
        rfl
      have hport : ({ s.modRing Ring.pop with ports := s.ports.set n ((s.port n).configure f) } : State).port n
          = (s.port n).configure f := Vector.getElem_set_fin _ n _
      rw [State.configurePort_unrated (s := s.modRing Ring.pop) hnr, if_neg hnr] at hreply
      have hreply' := hreply.trans (congrArg (fun r : Port => (⟨_, _, .portConfig s.site.stagedRatings[n] r.energyPerCount
        r.filterThreshold⟩ : Reply)) hport)
      rw [hstaged]
      exact hx.trans (takeRequest_answered hq _ _ _ hreply')
    case running =>
      have hc := (carriesRating_iff f).2 hr
      rw [State.configurePort_running (s := s.modRing Ring.pop) hc hrun, if_pos hc, State.configured_port,
        State.configured_staged] at hreply
      have hstatus : (s.modRing Ring.pop).stagedStatus = .staged := if_pos hrun
      rw [hstatus] at hreply
      exact hx.trans (takeRequest_answered hq _ _ _ hreply)
    case stopped =>
      have hc := (carriesRating_iff f).2 hr
      have hstatus : (s.modRing Ring.pop).stagedStatus = .ok := if_neg (by simpa using hrun)
      have hsite := State.load_site ((s.modRing Ring.pop).configured n f)
      have hring : ((s.modRing Ring.pop).configured n f).load.ring = s.ring.pop := by rw [State.load_eq]; rfl
      have hengine : ((s.modRing Ring.pop).configured n f).load.engine = s.engine := by rw [State.load_eq]; rfl
      have hplans : ((s.modRing Ring.pop).configured n f).load.plans = s.plans := by rw [State.load_eq]; rfl
      obtain ⟨x, hport⟩ := State.load_port ((s.modRing Ring.pop).configured n f) n
      rw [State.configured_port] at hport
      have hperCount : (((s.modRing Ring.pop).configured n f).load.port n).energyPerCount
          = ((s.port n).configure f).energyPerCount := by rw [hport]; rfl
      have hthreshold : (((s.modRing Ring.pop).configured n f).load.port n).filterThreshold
          = ((s.port n).configure f).filterThreshold := by rw [hport]; rfl
      have hstate : (((s.modRing Ring.pop).configured n f).load.port n).state = (s.port n).state := by rw [hport]; rfl
      have hstaged : ((s.modRing Ring.pop).configured n f).load.site.stagedRatings[n]
          = stagedAfter f s.site.stagedRatings[n] := by
        rw [hsite]
        exact State.configured_staged n f (s.modRing Ring.pop)
      rw [State.configurePort_stopped (s := s.modRing Ring.pop) hc hrun, if_pos hc, hstatus, hstaged, hperCount,
        hthreshold] at hreply
      exact ⟨_, hx.trans (takeRequest_reply hq hreply hring), rfl, hperCount, hthreshold, hstate, hengine, hplans, hsite⟩

/-! ### The pilot level, the settling and the debounce without a session -/

section Pilot

variable {s : State} {n : PortNo} {l : PilotLevel}

theorem exec_pilotLevelTaken_same (h : (s.port n).taken = l) : exec (.pilotLevelTaken n l) s = .next s := if_pos h

theorem exec_pilotLevelTaken_new (h : (s.port n).taken ≠ l) : exec (.pilotLevelTaken n l) s
    = .next ((s.setPort n (Port.takePilot l)).actPilot n l) := if_neg h

theorem State.takePilot_port : (s.setPort n (Port.takePilot l)).port n = (s.port n).takePilot l :=
  (State.port_setPort s n n _).trans (if_pos rfl)

theorem seated_iff (l : PilotLevel) : seated l = true ↔ l = .plugged ∨ l = .ready := by
  cases l <;> simp [seated]

theorem seated_false {l : PilotLevel} (h : ¬ (l = .plugged ∨ l = .ready)) : seated l = false :=
  Bool.eq_false_iff.2 (mt (seated_iff l).1 h)

variable {u : State}

theorem State.actPilot_off (h : (u.port n).state = .offline ∨ (u.port n).state = .faulted) : u.actPilot n l = u := by
  rcases h with h | h <;> simp only [State.actPilot, h]

theorem State.actPilot_detects (h : (u.port n).state = .vacant) (hl : seated l = true) (hs : (u.port n).settling = .stopped) :
    u.actPilot n l = u.updPort n (Port.enter .detecting) := by
  simp only [State.actPilot, h, hl, hs, Timer.isRunning_stopped, Bool.not_false, Bool.and_self, if_true]

theorem State.actPilot_vacant (h : (u.port n).state = .vacant) (hc : seated l = false ∨ (u.port n).settling ≠ .stopped) :
    u.actPilot n l = u := by
  have hf : ¬ (seated l && !(u.port n).settling.isRunning) = true := by
    rcases hc with hc | hc
    · rw [hc]; exact Bool.false_ne_true
    · rw [Timer.isRunning_of_ne hc, Bool.not_true, Bool.and_false]; exact Bool.false_ne_true
  simp only [State.actPilot, h, if_neg hf]

theorem State.actPilot_detecting (h : (u.port n).state = .detecting) (hl : seated l = true) : u.actPilot n l = u := by
  simp only [State.actPilot, h, hl, if_true]

theorem State.actPilot_undetects (h : (u.port n).state = .detecting) (hl : seated l = false) :
    u.actPilot n l = u.updPort n (Port.enter .vacant) := by
  simp only [State.actPilot, h, hl, Bool.false_eq_true, if_false]

theorem State.actPilot_unidentifies (h : (u.port n).state = .identifying) (hl : l = .none) :
    u.actPilot n l = u.updPort n fun p => { p with attempts := 0 }.enter .vacant := by
  simp only [State.actPilot, h, hl, if_true]

theorem State.actPilot_identifying (h : (u.port n).state = .identifying) (hl : l ≠ .none) : u.actPilot n l = u := by
  simp only [State.actPilot, h, if_neg hl]

end Pilot

/-- The record of a port outside a session that takes a level and enters VACANT or DETECTING. -/
def Port.takes (l : PilotLevel) (st : PortState) (attempts : Nat) (p : Port) : Port :=
  Port.enter st { p.takePilot l with attempts := attempts }

section Takes

variable {e : PortEnv} {l : PilotLevel} {st : PortState} {attempts : Nat} {p : Port}

/-- The settled record of a taking that moves a port without a session. -/
theorem Port.settle_takes (hp : p.state ≠ .energized) (h : st ≠ .energized) (hc : st ≠ .closing) (hf : st ≠ .faulted) :
    Port.settle e (p.takePilot l) (p.takes l st attempts) = { p.timersOf (Port.settle e (p.takePilot l) (p.takes l st attempts)) with
      state := st, taken := l, pilotLine := l, pilotCandidate := none, pendingTarget := none
      faultCode := none, attempts := attempts } := by
  have hstill := Port.settle_unpowered (e := e) (p := p.takePilot l) (q := p.takes l st attempts) rfl hp h
  have heq : p.takes l st attempts = { p.timersOf (p.takes l st attempts) with
      state := st, taken := l, pilotLine := l, pilotCandidate := none, pendingTarget := none
      faultCode := none, attempts := attempts } := by
    rw [Port.takes, Port.enter, if_neg hc, if_neg hf]
    rfl
  generalize Port.settle e (p.takePilot l) (p.takes l st attempts) = r at hstill ⊢
  calc r = (p.takes l st attempts).timersOf r := hstill
    _ = _ := by rw [heq]; rfl

theorem Port.takes_timers (h : st ≠ .identifying) :
    (p.takes l st attempts).settling = (if st = .vacant then .running 500 0 else .stopped)
    ∧ (p.takes l st attempts).debounce = (if st = .detecting then .running 1000 0 else .stopped)
    ∧ (p.takes l st attempts).answer = .stopped := ⟨rfl, rfl, if_neg h⟩

end Takes

/-- A taken level alone. -/
theorem exec_pilotLevelTaken_stays {s : State} {n : PortNo} {l : PilotLevel} (h : (s.port n).taken ≠ l)
    (hs : (s.setPort n (Port.takePilot l)).actPilot n l = s.setPort n (Port.takePilot l)) :
    exec (.pilotLevelTaken n l) s = .next { s with
      ports := s.ports.set n { s.port n with taken := l, pilotLine := l, pilotCandidate := none } } :=
  (exec_pilotLevelTaken_new h).trans (congrArg _ hs)

/-- A taken level that moves a port without a session. -/
theorem exec_pilotLevelTaken_goes {s : State} {n : PortNo} {l : PilotLevel} {st : PortState} {attempts : Nat}
    (h : (s.port n).taken ≠ l) (hp : (s.port n).state ≠ .energized) (hst : st = .vacant ∨ st = .detecting)
    (hs : (s.setPort n (Port.takePilot l)).actPilot n l
      = (s.setPort n (Port.takePilot l)).updPort n fun p => { p with attempts := attempts }.enter st) : ∃ r : Port,
      exec (.pilotLevelTaken n l) s = .next { s with ports := s.ports.set n r }
      ∧ r = { (s.port n).timersOf r with
          state := st, taken := l, pilotLine := l, pilotCandidate := none, pendingTarget := none
          faultCode := none, attempts := attempts }
      ∧ r.settling = (if st = .vacant then .running 500 0 else .stopped)
      ∧ r.debounce = (if st = .detecting then .running 1000 0 else .stopped) ∧ r.answer = .stopped := by
  obtain ⟨hne, hnc, hnf, hni⟩ : st ≠ .energized ∧ st ≠ .closing ∧ st ≠ .faulted ∧ st ≠ .identifying := by
    rcases hst with rfl | rfl <;>
      exact ⟨PortState.noConfusion, PortState.noConfusion, PortState.noConfusion, PortState.noConfusion⟩
  obtain ⟨hsettling, hdebounce, hanswer⟩ := Port.takes_timers (l := l) (attempts := attempts) (p := s.port n) hni
  refine ⟨Port.settle s.env ((s.port n).takePilot l) ((s.port n).takes l st attempts), ?_,
    Port.settle_takes hp hne hnc hnf, (Port.settle_settling ..).trans hsettling,
    (Port.settle_debounce ..).trans hdebounce, (Port.settle_answer ..).trans hanswer⟩
  exact (exec_pilotLevelTaken_new h).trans (congrArg _ (hs.trans (State.updPort_setPort s n _ _)))

/-- R70: a port whose settling ends. -/
def Port.endSettling (p : Port) : Port := if seated p.taken then p.enter .detecting else { p with settling := .stopped }

theorem Port.endSettling_seated {p : Port} (h : p.taken = .plugged ∨ p.taken = .ready) :
    p.endSettling = p.enter .detecting := if_pos ((seated_iff _).2 h)

theorem Port.endSettling_unseated {p : Port} (h : p.taken = .none ∨ p.taken = .fault) :
    p.endSettling = { p with settling := .stopped } := by
  have hs : ¬ seated p.taken = true := by
    rcases h with h | h <;> rw [h] <;> exact Bool.false_ne_true
  exact if_neg hs

theorem Port.endSettling_settling (p : Port) : p.endSettling.settling = .stopped := by
  rw [Port.endSettling]
  split <;> rfl

theorem exec_settlingEnd {s : State} {n : PortNo} (h : (s.port n).settling ≠ .stopped) :
    exec (.settlingEnd n) s = .next (s.updPort n Port.endSettling) := if_pos (Timer.isRunning_of_ne h)

theorem exec_debounceEnd {s : State} {n : PortNo} (h : (s.port n).debounce ≠ .stopped) : exec (.debounceEnd n) s
    = .next (s.updPort n (Port.beginExchange s.site.live.depotId)) := if_pos (Timer.isRunning_of_ne h)

/-- The settled record of a port that begins an exchange. -/
theorem Port.settle_beginExchange {e : PortEnv} {depotId : Nat} {p : Port} (hp : p.state ≠ .energized) :
    Port.settle e p (p.beginExchange depotId) = { p.timersOf (Port.settle e p (p.beginExchange depotId)) with
      state := .identifying, attempts := 1, checkErrors := 0, discards := 0, claimed := none
      lastFault := none, enquire := some ⟨p.number.val, depotId, 1⟩, pendingTarget := none, faultCode := none } := by
  have hstill := Port.settle_unpowered (e := e) (p := p) (q := p.beginExchange depotId) rfl hp PortState.noConfusion
  generalize Port.settle e p (p.beginExchange depotId) = r at hstill ⊢
  exact hstill

/-- Settles O23: a taken level by the port's state, and the ends of settling and of the debounce. -/
theorem pilotMovesPortWithoutSession : Obligations.PilotMovesPortWithoutSession := by
  intro n l s p seat goes stays
  have hport : (s.setPort n (Port.takePilot l)).port n = p.takePilot l := State.takePilot_port
  have hstate : ((s.setPort n (Port.takePilot l)).port n).state = p.state := by rw [hport]; rfl
  have hsettling : ((s.setPort n (Port.takePilot l)).port n).settling = p.settling := by rw [hport]; rfl
  have hseat : ¬ seat → seated l = false := seated_false
  refine ⟨exec_pilotLevelTaken_same, fun ht => ?level, fun hv hs => ?settling, fun hd hb => ?debounce⟩
  case level =>
    refine ⟨fun ho => ?off, fun hv hl hs => ?detects, fun hv hc => ?vacant, fun hd hl => ?detecting, fun hd hl => ?undetects,
      fun hi hl => ?unidentifies, fun hi hl => ?identifying⟩
    case off => exact exec_pilotLevelTaken_stays ht (State.actPilot_off (by rw [hstate]; exact ho))
    case detects =>
      refine exec_pilotLevelTaken_goes ht (by rw [show (s.port n).state = _ from hv]; exact PortState.noConfusion) (.inr rfl) ?_
      refine (State.actPilot_detects (hstate.trans hv) ((seated_iff l).2 hl) (hsettling.trans hs)).trans ?_
      rw [State.updPort, State.updPort, hport]
      rfl
    case vacant =>
      exact exec_pilotLevelTaken_stays ht
        (State.actPilot_vacant (hstate.trans hv) (hc.imp hseat fun h => by rw [hsettling]; exact h))
    case detecting =>
      exact exec_pilotLevelTaken_stays ht (State.actPilot_detecting (hstate.trans hd) ((seated_iff l).2 hl))
    case undetects =>
      refine exec_pilotLevelTaken_goes ht (by rw [show (s.port n).state = _ from hd]; exact PortState.noConfusion) (.inl rfl) ?_
      refine (State.actPilot_undetects (hstate.trans hd) (hseat hl)).trans ?_
      rw [State.updPort, State.updPort, hport]
      rfl
    case unidentifies =>
      exact exec_pilotLevelTaken_goes ht (by rw [show (s.port n).state = _ from hi]; exact PortState.noConfusion) (.inl rfl)
        (State.actPilot_unidentifies (hstate.trans hi) hl)
    case identifying => exact exec_pilotLevelTaken_stays ht (State.actPilot_identifying (hstate.trans hi) hl)
  case settling =>
    refine ⟨_, exec_settlingEnd hs, (Port.settle_settling ..).trans (Port.endSettling_settling p), fun hl => ?_, fun hl => ?_⟩
    · rw [Port.settle_state, Port.settle_debounce, Port.endSettling_seated hl]
      exact ⟨rfl, rfl⟩
    · rw [Port.settle_state, Port.endSettling_unseated hl]
      exact hv
  case debounce =>
    have hne : p.state ≠ .energized := by rw [hd]; exact PortState.noConfusion
    exact ⟨_, exec_debounceEnd hb, Port.settle_beginExchange hne, Port.settle_debounce .., Port.settle_answer ..⟩

end Sys2Proof.Machine
end

section
/-! Charging ports in a session: the ends of CLOSING, the unplug, taken levels (O24), taken feedback (O25), and the
ports' timers and faults (O26). -/

namespace Sys2Proof.Machine

open Sys2Proof

/-! ### Records that differ in lines, contactor, flags and timers -/

/-- q differs from p in its lines, its contactor, its flags and its timers alone. -/
def Port.SameCharge (p q : Port) : Prop := q = { p.timersOf q with
  taken := q.taken, pilotLine := q.pilotLine, pilotCandidate := q.pilotCandidate, command := q.command
  feedback := q.feedback, feedbackLine := q.feedbackLine, feedbackCandidate := q.feedbackCandidate, flags := q.flags }

section Charge

variable {p q r : Port}

theorem Port.SameCharge.eq (h : p.SameCharge q) : q = { p.timersOf q with
    taken := q.taken, pilotLine := q.pilotLine, pilotCandidate := q.pilotCandidate, command := q.command
    feedback := q.feedback, feedbackLine := q.feedbackLine, feedbackCandidate := q.feedbackCandidate
    flags := q.flags } := h

theorem Port.SameCharge.refl (p : Port) : p.SameCharge p := rfl

theorem Port.SameCharge.trans (h : p.SameCharge q) (k : q.SameCharge r) : p.SameCharge r := by
  rw [Port.SameCharge] at h k ⊢
  rw [h] at k
  exact k

theorem Port.SameCharge.state (h : p.SameCharge q) : q.state = p.state := (congrArg Port.state h.eq :)

theorem Port.SameCharge.held (h : p.SameCharge q) : q.held = p.held := (congrArg Port.held h.eq :)

theorem Port.SameCharge.session (h : p.SameCharge q) : q.session = p.session := (congrArg Port.session h.eq :)

theorem Port.SameCharge.pending (h : p.SameCharge q) : q.pendingTarget = p.pendingTarget := (congrArg Port.pendingTarget h.eq :)

theorem Port.SameCharge.last (h : p.SameCharge q) : q.lastTransition = p.lastTransition := (congrArg Port.lastTransition h.eq :)

theorem Port.SameCharge.number (h : p.SameCharge q) : q.number = p.number := (congrArg Port.number h.eq :)

theorem Port.SameCharge.frameCount (h : p.SameCharge q) : q.frameCount = p.frameCount := (congrArg Port.frameCount h.eq :)

theorem Port.SameCharge.live (h : p.SameCharge q) : q.live = p.live := by
  rw [Port.live, Port.live, h.state, h.held]

theorem Port.SameCharge.boundSlot (h : p.SameCharge q) : q.boundSlot = p.boundSlot := by
  rw [Port.boundSlot, Port.boundSlot, h.session]

/-- Settling such a change moves timers alone. -/
theorem Port.SameCharge.settle (h : p.SameCharge q) (e : PortEnv) : Port.settle e p q = q.timersOf (Port.settle e p q) :=
  Port.settle_still e p q h.held h.live

theorem Port.SameCharge.settled (h : p.SameCharge q) (e : PortEnv) : p.SameCharge (Port.settle e p q) := by
  have hs := h.settle e
  have hk : q.SameCharge (Port.settle e p q) := by
    generalize Port.settle e p q = r at hs
    rw [Port.SameCharge, hs]
    rfl
  exact h.trans hk

theorem Port.SameCharge.powerOff {now : Nat} (h : p.SameCharge q) (hq : q.PowerOff now r) : p.PowerOff now r where
  held := hq.held
  live := hq.live
  zeroSince := by rw [hq.zeroSince, h.held, (congrArg Port.zeroSince h.eq :)]; rfl
  lastDir := hq.lastDir.trans ((congrArg Port.lastDir h.eq :))
  frame := by rw [hq.frame, h.live, h.frameCount]

end Charge

section Transfer

variable {s t : State} {n : PortNo} {q : Port} {unplug : Bool} {code : PortFault}

/-- The state with another record of port n. -/
def State.withPort (s : State) (n : PortNo) (q : Port) : State := { s with ports := s.ports.set n q }

theorem State.withPort_port (s : State) (n : PortNo) (q : Port) : (s.withPort n q).port n = q := Vector.getElem_set_fin _ n q

theorem State.withPort_ne (s : State) {n m : PortNo} (q : Port) (h : m ≠ n) : (s.withPort n q).port m = s.port m :=
  State.port_putPort_ne s q h

theorem State.withPort_withPort (s : State) (n : PortNo) (q r : Port) : (s.withPort n q).withPort n r = s.withPort n r :=
  State.putPort_putPort s n q r

theorem State.updPort_withPort (s : State) (n : PortNo) (q : Port) (f : Port → Port) :
    (s.withPort n q).updPort n f = s.withPort n (Port.settle s.env q (f q)) := State.updPort_setPort s n (fun _ => q) f

/-- A session that ends after such a change of the port ends as from the state before. -/
theorem State.SessionEnds.of_charge (h : (s.port n).SameCharge q) (hs : (s.withPort n q).SessionEnds n unplug t) :
    s.SessionEnds n unplug t := by
  have hp := s.withPort_port n q
  have hb : ((s.withPort n q).port n).boundSlot = (s.port n).boundSlot := by rw [hp, h.boundSlot]
  obtain ⟨power, session, ⟨hidle, hstray, hrun, himport, hexport⟩, ports, bus, plan, plans, buses, rest⟩ := hs
  rw [hp] at power hstray hrun himport hexport
  exact {
    power := h.powerOff power
    session := session
    figures := ⟨hidle, hstray.trans ((congrArg Port.stray h.eq :)), hrun.trans ((congrArg Port.wrongRun h.eq :)),
      himport.trans ((congrArg Port.sessionImport h.eq :)), hexport.trans ((congrArg Port.sessionExport h.eq :))⟩
    ports := fun m hm => (ports m hm).trans (s.withPort_ne q hm)
    bus := fun i b hi => bus i b (hb.trans hi)
    plan := fun i b j p hi => plan i b j p (hb.trans hi)
    plans := fun j hj => plans j fun i b hi => hj i b (hb.symm.trans hi)
    buses := fun i hi => buses i fun h => hi (hb.symm.trans h)
    rest := rest }

/-- A port fault after such a change of the port is one from the state before. -/
theorem State.PortFaults.of_charge (h : (s.port n).SameCharge q) (hs : (s.withPort n q).PortFaults n code t) :
    s.PortFaults n code t := by
  have hp := s.withPort_port n q
  obtain ⟨power, state, timers, pending, dropped, kept, attempts, ends, alone⟩ := hs
  rw [hp] at power dropped kept attempts ends alone
  exact {
    power := h.powerOff power
    state := state
    timers := timers
    pending := pending
    dropped := fun g hg => dropped g (h.pending.trans hg)
    kept := fun hn => (kept (h.pending.trans hn)).trans h.last
    attempts := by rw [attempts, h.state, (congrArg Port.attempts h.eq :)]; rfl
    ends := fun hn => State.SessionEnds.of_charge h (ends (by rw [h.session]; exact hn))
    alone := fun hn => (alone (h.session.trans hn)).trans (s.withPort_withPort n q _) }

end Transfer

/-! ### The ends of CLOSING and the unplug -/

/-- The port's own change at the end of CLOSING (R82). -/
def Port.closingInto (g : PortTarget) (seat : Bool) (now depotId : Nat) (p : Port) : Port :=
  match g with
  | .reidentify =>
    if seat then (p.endTransition .reidentify .reached now).beginExchange depotId
    else (p.endTransition .reidentify .dropped now).enter .vacant
  | g => (p.endTransition g .reached now).enter .offline

/-- The port's own change at an unplug (R73, R82). -/
def Port.unplugInto (pending : Option PortTarget) (now : Nat) (p : Port) : Port :=
  match pending with
  | some .reidentify => (p.endTransition .reidentify .dropped now).enter .vacant
  | some t => (p.endTransition t .reached now).enter .offline
  | none => p.enter .vacant

/-- A change of a port that leaves its power, its session figures and its contactor alone. -/
def Port.KeepsFigures (p q : Port) : Prop :=
  q.held = p.held ∧ q.lastDir = p.lastDir ∧ q.zeroSince = p.zeroSince ∧ q.frameCount = p.frameCount
  ∧ q.session = p.session ∧ q.command = p.command ∧ q.residue = p.residue ∧ q.idle = p.idle ∧ q.stray = p.stray
  ∧ q.wrongRun = p.wrongRun ∧ q.sessionImport = p.sessionImport ∧ q.sessionExport = p.sessionExport

theorem Port.closingInto_keeps (g : PortTarget) (seat : Bool) (now depotId : Nat) (p : Port) :
    p.KeepsFigures (p.closingInto g seat now depotId) := by
  cases g <;> cases seat <;> exact ⟨rfl, rfl, rfl, rfl, rfl, rfl, rfl, rfl, rfl, rfl, rfl, rfl⟩

theorem Port.unplugInto_keeps (pending : Option PortTarget) (now : Nat) (p : Port) :
    p.KeepsFigures (p.unplugInto pending now) := by
  rcases pending with _ | _ | _ | _ <;> exact ⟨rfl, rfl, rfl, rfl, rfl, rfl, rfl, rfl, rfl, rfl, rfl, rfl⟩

theorem Port.dropSession_rest (p : Port) : p.dropSession = { p with
    held := p.dropSession.held, command := p.dropSession.command, residue := p.dropSession.residue
    session := p.dropSession.session, idle := p.dropSession.idle } := by
  rw [Port.dropSession]
  cases p.session <;> rfl

/-- The exchange fields of a settled change. -/
theorem Port.settle_exchange (e : PortEnv) (p q : Port) : (Port.settle e p q).attempts = q.attempts
    ∧ (Port.settle e p q).checkErrors = q.checkErrors ∧ (Port.settle e p q).discards = q.discards
    ∧ (Port.settle e p q).enquire = q.enquire := by
  rw [Port.settle_eq]
  exact ⟨rfl, rfl, rfl, rfl⟩

/-- What the end of CLOSING for a target leaves at the port. -/
structure Port.ClosingEnds (g : PortTarget) (now depotId : Nat) (p r : Port) : Prop where
  feedback : r.feedback = p.feedback
  pending  : r.pendingTarget = none
  flags    : r.flags = p.flags ||| PortFlag.stateReached
  timers   : r.quiet = .stopped ∧ r.limit = .stopped
  offline  : g = .offline → r.state = .offline ∧ r.lastTransition = some ⟨.offline, .reached, now⟩
  reached  : g = .reidentify → (p.taken = .plugged ∨ p.taken = .ready) → r.state = .identifying ∧ r.attempts = 1
               ∧ r.checkErrors = 0 ∧ r.discards = 0 ∧ r.enquire = some ⟨p.number.val, depotId, 1⟩
               ∧ r.lastTransition = some ⟨.reidentify, .reached, now⟩
  dropped  : g = .reidentify → p.taken = .fault → r.state = .vacant ∧ r.settling = .running 500 0
               ∧ r.lastTransition = some ⟨.reidentify, .dropped, now⟩

theorem Port.closingInto_ends (g : PortTarget) (now depotId : Nat) (p : Port) :
    p.ClosingEnds g now depotId (p.closingInto g (seated p.taken) now depotId) := by
  have hseat : (p.taken = .plugged ∨ p.taken = .ready) → seated p.taken = true := (seated_iff _).2
  have hfault : p.taken = .fault → seated p.taken = false := fun h => by rw [h]; rfl
  generalize seated p.taken = seat at hseat hfault
  cases g with
  | offline =>
    exact ⟨rfl, rfl, rfl, ⟨rfl, rfl⟩, fun _ => ⟨rfl, rfl⟩, fun h => PortTarget.noConfusion h, fun h => PortTarget.noConfusion h⟩
  | vacant =>
    exact ⟨rfl, rfl, rfl, ⟨rfl, rfl⟩, fun h => PortTarget.noConfusion h, fun h => PortTarget.noConfusion h,
      fun h => PortTarget.noConfusion h⟩
  | reidentify =>
    cases seat with
    | true =>
      exact ⟨rfl, rfl, rfl, ⟨rfl, rfl⟩, fun h => PortTarget.noConfusion h, fun _ _ => ⟨rfl, rfl, rfl, rfl, rfl, rfl⟩,
        fun _ h => absurd (hfault h).symm Bool.false_ne_true⟩
    | false =>
      exact ⟨rfl, rfl, rfl, ⟨rfl, rfl⟩, fun h => PortTarget.noConfusion h, fun _ h => absurd (hseat h) Bool.false_ne_true,
        fun _ _ => ⟨rfl, rfl, rfl⟩⟩

/-- What an unplug leaves at the port, by the pending target. -/
structure Port.UnplugEnds (pending : Option PortTarget) (now : Nat) (p r : Port) : Prop where
  taken      : r.taken = p.taken
  target     : r.pendingTarget = none
  vacant     : pending = none → r.state = .vacant ∧ r.settling = .running 500 0
                 ∧ r.lastTransition = p.lastTransition ∧ r.flags = p.flags
  offline    : pending = some .offline → r.state = .offline ∧ r.lastTransition = some ⟨.offline, .reached, now⟩
                 ∧ r.flags = p.flags ||| PortFlag.stateReached
  reidentify : pending = some .reidentify → r.state = .vacant ∧ r.lastTransition = some ⟨.reidentify, .dropped, now⟩
                 ∧ r.flags = p.flags ||| PortFlag.stateReached

theorem Port.unplugInto_ends (pending : Option PortTarget) (now : Nat) (p : Port) :
    p.UnplugEnds pending now (p.unplugInto pending now) := by
  rcases pending with _ | _ | _ | _
  case none => exact ⟨rfl, rfl, fun _ => ⟨rfl, rfl, rfl, rfl⟩, (fun h => by cases h), (fun h => by cases h)⟩
  case some.offline => exact ⟨rfl, rfl, (fun h => by cases h), fun _ => ⟨rfl, rfl, rfl⟩, (fun h => by cases h)⟩
  case some.vacant => exact ⟨rfl, rfl, (fun h => by cases h), (fun h => by cases h), (fun h => by cases h)⟩
  case some.reidentify => exact ⟨rfl, rfl, (fun h => by cases h), (fun h => by cases h), fun _ => ⟨rfl, rfl, rfl⟩⟩

theorem Port.UnplugEnds.settled {pending : Option PortTarget} {now : Nat} {p q : Port}
    (h : p.dropSession.UnplugEnds pending now q) (e : PortEnv) (b : Port) : p.UnplugEnds pending now (Port.settle e b q) := by
  obtain ⟨taken, target, vacant, offline, reidentify⟩ := h
  rw [p.dropSession_rest] at taken vacant offline reidentify
  refine ⟨?_, ?_, ?_, ?_, ?_⟩
  · rw [Port.settle_taken, taken]
  · rw [Port.settle_pending, target]
  · rw [Port.settle_state, Port.settle_settling, Port.settle_last, Port.settle_flags]
    exact vacant
  · rw [Port.settle_state, Port.settle_last, Port.settle_flags]
    exact offline
  · rw [Port.settle_state, Port.settle_last, Port.settle_flags]
    exact reidentify

/-- The record before the end of CLOSING may have lost its session, and the one after it may be settled. -/
theorem Port.ClosingEnds.settled {g : PortTarget} {now depotId : Nat} {p q : Port}
    (h : p.dropSession.ClosingEnds g now depotId q) (e : PortEnv) (b : Port) : p.ClosingEnds g now depotId (Port.settle e b q) := by
  obtain ⟨feedback, pending, flags, ⟨hquiet, hlimit⟩, offline, reached, dropped⟩ := h
  rw [p.dropSession_rest] at feedback flags reached dropped
  obtain ⟨hattempts, herrors, hdiscards, henquire⟩ := Port.settle_exchange e b q
  refine ⟨?_, ?_, ?_, ?_, ?_, ?_, ?_⟩
  · rw [Port.settle_feedback, feedback]
  · rw [Port.settle_pending, pending]
  · rw [Port.settle_flags, flags]
  · rw [Port.settle_quiet, Port.settle_limit]
    exact ⟨hquiet, hlimit⟩
  · rw [Port.settle_state, Port.settle_last]
    exact offline
  · rw [Port.settle_state, Port.settle_last, hattempts, herrors, hdiscards, henquire]
    exact reached
  · rw [Port.settle_state, Port.settle_last, Port.settle_settling]
    exact dropped

section Ends

variable {s : State} {n : PortNo}

theorem State.closingEnd_eq {g : PortTarget} (hp : (s.port n).pendingTarget = some g) : s.closingEnd n =
    s.endSession n false (Port.closingInto g (seated (s.port n).taken) s.now s.site.live.depotId) := by
  cases g with
  | offline =>
    simp only [State.closingEnd, hp]
    rfl
  | vacant =>
    simp only [State.closingEnd, hp]
    rfl
  | reidentify =>
    simp only [State.closingEnd, hp]
    by_cases hs : (s.port n).taken = .plugged ∨ (s.port n).taken = .ready
    · rw [if_pos hs, (seated_iff _).2 hs]
      rfl
    · rw [if_neg hs, seated_false hs]
      rfl

/-- The end of CLOSING ends the session and takes the port to its target. -/
theorem State.closingEnd_spec {g : PortTarget} (hs : (s.port n).session ≠ none) (hp : (s.port n).pendingTarget = some g) :
    s.SessionEnds n false (s.closingEnd n)
    ∧ (s.port n).ClosingEnds g s.now s.site.live.depotId ((s.closingEnd n).port n) := by
  have htaken : (s.port n).dropSession.taken = (s.port n).taken := by rw [Port.dropSession_rest]
  obtain ⟨hends, hport⟩ := State.endSession_ends (unplug := false) hs
    (Port.closingInto_keeps g (seated (s.port n).taken) s.now s.site.live.depotId (s.port n).dropSession)
  have hinto := Port.closingInto_ends g s.now s.site.live.depotId (s.port n).dropSession
  rw [htaken] at hinto
  rw [State.closingEnd_eq hp, hport]
  exact ⟨hends, hinto.settled _ _⟩

theorem State.unplug_eq (s : State) (n : PortNo) : s.unplug n =
    s.endSession n true (Port.unplugInto (s.port n).pendingTarget s.now) := by
  rw [State.unplug]
  rcases (s.port n).pendingTarget with _ | _ | _ | _ <;> rfl

/-- An unplug ends the session and moves the port by its pending target. -/
theorem State.unplug_spec (hs : (s.port n).session ≠ none) : s.SessionEnds n true (s.unplug n)
    ∧ (s.port n).UnplugEnds (s.port n).pendingTarget s.now ((s.unplug n).port n) := by
  obtain ⟨hends, hport⟩ := State.endSession_ends (unplug := true) hs
    (Port.unplugInto_keeps (s.port n).pendingTarget s.now (s.port n).dropSession)
  rw [State.unplug_eq, hport]
  exact ⟨hends, (Port.unplugInto_ends _ _ _).settled _ _⟩

end Ends

/-! ### Taken levels in a session -/

section Levels

variable {s : State} {n : PortNo} {l : PilotLevel}

theorem State.takePilot_withPort (s : State) (n : PortNo) (l : PilotLevel) :
    s.setPort n (Port.takePilot l) = s.withPort n ((s.port n).takePilot l) := rfl

theorem Port.takePilot_charge (l : PilotLevel) (p : Port) : p.SameCharge (p.takePilot l) := rfl

theorem State.actPilot_session {u : State} (h : (u.port n).state.inSession = true) : u.actPilot n l =
    if l = .none then u.unplug n else u.sessionLevel n l := by
  rw [State.actPilot]
  generalize (u.port n).state = st at h ⊢
  cases st <;> first | rfl | exact absurd h Bool.false_ne_true

/-- The settled record of a level that drops the setpoint. -/
def Port.levelDrop (e : PortEnv) (l : PilotLevel) (p : Port) : Port := Port.settle e (p.takePilot l) (p.takePilot l).zeroHeld

theorem Port.levelDrop_powerOff (e : PortEnv) (l : PilotLevel) (p : Port) : p.PowerOff e.now (p.levelDrop e l) :=
  (Port.takePilot_charge l p).powerOff (Port.settle_powerOff e (p.takePilot l) (p.takePilot l).zeroHeld rfl rfl rfl rfl)

theorem Port.levelDrop_eq (e : PortEnv) (l : PilotLevel) (p : Port) : p.levelDrop e l = { p.timersOf (p.levelDrop e l) with
    taken := l, pilotLine := l, pilotCandidate := none, held := .zero, zeroSince := (p.levelDrop e l).zeroSince
    frameCount := (p.levelDrop e l).frameCount, frameTimer := (p.levelDrop e l).frameTimer
    lastFrame := (p.levelDrop e l).lastFrame } := by
  have hframe : p.levelDrop e l = _ := Port.settle_frame e (p.takePilot l) (p.takePilot l).zeroHeld
  have hdir := (p.levelDrop_powerOff e l).lastDir
  have hd : (Port.settle e (p.takePilot l) (p.takePilot l).zeroHeld).lastDir = p.lastDir := hdir
  rw [hd] at hframe
  exact hframe

theorem Port.levelDrop_openDelay {e : PortEnv} {p : Port} (hs : p.state = .energized) (hh : p.held.mag ≠ 0) :
    (p.levelDrop e l).openDelay = .running 60000 0 := by
  have hafter : (p.takePilot l).zeroHeld.state = .energized ∧ (p.takePilot l).zeroHeld.live.mag = 0 := by
    have hz : (p.takePilot l).zeroHeld.live = .zero := by
      rw [Port.live]
      exact ite_self _
    exact ⟨hs, by rw [hz]; rfl⟩
  have hbefore : ¬ ((p.takePilot l).state = .energized ∧ (p.takePilot l).live.mag = 0) := fun h => by
    rw [(Port.takePilot_charge l p).live, Port.live, if_pos hs] at h
    exact hh h.2
  rw [Port.levelDrop, Port.settle_openDelay, if_pos hafter, if_neg hbefore]
  rfl

/-- A level other than NONE and READY in a session. -/
theorem State.sessionLevel_drop (hl : l = .plugged ∨ l = .fault) :
    (s.setPort n (Port.takePilot l)).sessionLevel n l =
      if l = .plugged then s.withPort n ((s.port n).levelDrop s.env l)
      else match (s.port n).boundSlot with
        | some i => (s.withPort n ((s.port n).levelDrop s.env l)).blockBus i .pilotFault
        | none => s.withPort n ((s.port n).levelDrop s.env l) := by
  have hupd : (s.setPort n (Port.takePilot l)).updPort n Port.zeroHeld = s.withPort n ((s.port n).levelDrop s.env l) :=
    State.updPort_setPort s n _ _
  have hbound : ((s.setPort n (Port.takePilot l)).port n).boundSlot = (s.port n).boundSlot := by
    rw [State.takePilot_port]
    rfl
  rcases hl with rfl | rfl
  · exact hupd
  · simp only [State.sessionLevel, hupd, hbound, reduceCtorEq, if_false] <;> rfl

end Levels

/-- Settles O24: an unplug by the pending target, READY, and the levels that drop the setpoint. -/
theorem pilotLevelsInSession : Obligations.PilotLevelsInSession := by
  intro n l s p i hs hin ht
  have hstate : ((s.setPort n (Port.takePilot l)).port n).state = p.state := by rw [State.takePilot_port]; rfl
  have hact := State.actPilot_session (u := s.setPort n (Port.takePilot l)) (l := l) (by rw [hstate]; exact hin)
  have hexec : exec i s = .next (if l = .none then (s.setPort n (Port.takePilot l)).unplug n
      else (s.setPort n (Port.takePilot l)).sessionLevel n l) := (exec_pilotLevelTaken_new ht).trans (congrArg _ hact)
  refine ⟨fun hl => ?unplug, fun hl => ?ready, fun hl => ?drop⟩
  case unplug =>
    have hu : (s.setPort n (Port.takePilot l)).port n = p.takePilot l := State.takePilot_port
    obtain ⟨hends, hport⟩ := State.unplug_spec (s := s.setPort n (Port.takePilot l)) (n := n) (by rw [hu]; exact hs)
    rw [hu] at hport
    obtain ⟨htaken, htarget, hvacant, hoffline, hreidentify⟩ := hport
    exact ⟨_, hexec.trans (congrArg _ (if_pos hl)), State.SessionEnds.of_charge (p.takePilot_charge l) hends,
      htaken.trans hl, htarget, hvacant, hoffline, hreidentify⟩
  case ready =>
    exact hexec.trans (congrArg _ ((if_neg (by rw [hl]; exact PilotLevel.noConfusion)).trans (by rw [hl]; rfl)))
  case drop =>
    have hn : l ≠ .none := by rcases hl with rfl | rfl <;> exact PilotLevel.noConfusion
    have hdrop := hexec.trans (congrArg _ ((if_neg hn).trans (State.sessionLevel_drop hl)))
    refine ⟨p.levelDrop s.env l, p.levelDrop_powerOff s.env l, p.levelDrop_eq s.env l, Port.levelDrop_openDelay, ?_, ?_⟩
    · intro hc
      refine hdrop.trans (congrArg _ ?_)
      rcases hc with hc | hc
      · exact if_pos hc
      · rw [show (s.port n).boundSlot = none from hc]
        exact ite_self _
    · intro b hf hb
      refine hdrop.trans (congrArg _ ?_)
      rw [show (s.port n).boundSlot = some b from hb, if_neg (by rw [hf]; exact PilotLevel.noConfusion)]
      rfl

/-! ### Taken feedback -/

section Feedback

variable {s : State} {n : PortNo} {c : Contact}

theorem exec_feedbackTaken_same (h : (s.port n).feedback = c) : exec (.feedbackTaken n c) s = .next (s.closingOpen n) := if_pos h

theorem exec_feedbackTaken_new (h : (s.port n).feedback ≠ c) : exec (.feedbackTaken n c) s
    = .next ((s.updPort n (Port.takeFeedback c)).actFeedback n c) := if_neg h

theorem Port.takeFeedback_charge (c : Contact) (p : Port) : p.SameCharge (p.takeFeedback c) := rfl

/-- The settled record of a taken position. -/
@[irreducible] def Port.fedBack (e : PortEnv) (c : Contact) (p : Port) : Port := Port.settle e p (p.takeFeedback c)

theorem Port.fedBack_eq (e : PortEnv) (c : Contact) (p : Port) : p.fedBack e c = Port.settle e p (p.takeFeedback c) := by
  rw [Port.fedBack]

theorem Port.fedBack_charge (e : PortEnv) (c : Contact) (p : Port) : p.SameCharge (p.fedBack e c) := by
  rw [Port.fedBack_eq]
  exact (p.takeFeedback_charge c).settled e

theorem Port.fedBack_feedback (e : PortEnv) (c : Contact) (p : Port) : (p.fedBack e c).feedback = c := by
  rw [Port.fedBack_eq]
  exact Port.settle_feedback ..

theorem Port.fedBack_kept (e : PortEnv) (c : Contact) (p : Port) : (p.fedBack e c).flags = p.flags
    ∧ (p.fedBack e c).taken = p.taken ∧ (p.fedBack e c).command = p.command ∧ (p.fedBack e c).quiet = p.quiet := by
  rw [Port.fedBack_eq]
  exact ⟨Port.settle_flags .., Port.settle_taken .., Port.settle_command .., Port.settle_quiet ..⟩

theorem State.takeFeedback_withPort (s : State) (n : PortNo) (c : Contact) :
    s.updPort n (Port.takeFeedback c) = s.withPort n ((s.port n).fedBack s.env c) := by
  rw [Port.fedBack_eq]
  rfl

theorem Port.openGiven_iff (p : Port) : p.openGiven = true ↔ p.state = .closing ∧ p.quiet = .stopped := by
  rw [Port.openGiven, Bool.and_eq_true, beq_iff_eq, Bool.not_eq_true', ← Bool.not_eq_true, Timer.isRunning_iff, not_not]

theorem State.closingOpen_ends (h : (s.port n).state = .closing) (hq : (s.port n).quiet = .stopped)
    (hf : (s.port n).feedback = .opened) : s.closingOpen n = s.closingEnd n :=
  if_pos ⟨(Port.openGiven_iff _).2 ⟨h, hq⟩, hf⟩

theorem State.closingOpen_waits (h : ¬ ((s.port n).state = .closing ∧ (s.port n).feedback = .opened ∧ (s.port n).quiet = .stopped)) :
    s.closingOpen n = s := by
  refine if_neg fun ⟨hg, hf⟩ => ?_
  obtain ⟨hc, hq⟩ := (Port.openGiven_iff _).1 hg
  exact h ⟨hc, hf, hq⟩

variable {u : State}

theorem State.actFeedback_energizes (h : (u.port n).state = .energizing) :
    u.actFeedback n .closed = u.updPort n (Port.enter .energized) := by
  simp only [State.actFeedback, h]

theorem State.actFeedback_drops (h : (u.port n).state = .energized) : u.actFeedback n .opened = u.portFault n .drop := by
  simp only [State.actFeedback, h]

theorem State.actFeedback_ends (h : (u.port n).state = .closing) : u.actFeedback n .opened = u.closingOpen n := by
  simp only [State.actFeedback, h]

theorem State.actFeedback_closed (h : (u.port n).state ≠ .energizing) : u.actFeedback n .closed = u := by
  unfold State.actFeedback
  generalize (u.port n).state = st at h ⊢
  cases st <;> first | rfl | exact absurd rfl h

/-- The settled record of a port that becomes ENERGIZED. -/
def Port.energized (e : PortEnv) (p : Port) : Port := Port.settle e (p.fedBack e .closed) ((p.fedBack e .closed).enter .energized)

section Energized

variable {e : PortEnv} {p : Port}

theorem Port.enterEnergized_live (q : Port) : (q.enter .energized).live = q.held := if_pos rfl

theorem Port.fedBack_live (h : p.state = .energizing) : (p.fedBack e .closed).live = .zero := by
  rw [(p.fedBack_charge e .closed).live, Port.live, h]
  rfl

theorem Port.energized_fields (e : PortEnv) (p : Port) : (p.energized e).state = .energized
    ∧ (p.energized e).feedback = .closed ∧ (p.energized e).confirmation = .stopped ∧ (p.energized e).held = p.held
    ∧ (p.energized e).live = p.held ∧ (p.energized e).session = p.session ∧ (p.energized e).command = p.command := by
  have hc := p.fedBack_charge e .closed
  refine ⟨Port.settle_state .., ?_, Port.settle_confirmation .., ?_, ?_, ?_, ?_⟩
  · exact (Port.settle_feedback ..).trans (Port.fedBack_feedback ..)
  · exact (Port.settle_held ..).trans hc.held
  · exact (Port.settle_live ..).trans ((Port.enterEnergized_live _).trans hc.held)
  · exact (Port.settle_session ..).trans hc.session
  · exact (Port.settle_command ..).trans (p.fedBack_kept e .closed).2.2.1

theorem Port.settle_quietFrame {b q : Port} (h : q.live = b.live) : (Port.settle e b q).frameCount = q.frameCount := by
  rw [Port.settle_eq, Port.announceLive, if_pos h]

theorem Port.settle_sendsFrame {b q : Port} (h : q.live ≠ b.live) :
    (Port.settle e b q).frameCount = (q.frameCount + 1) % 65536
    ∧ (Port.settle e b q).lastFrame = some ⟨q.number, q.live, (q.frameCount + 1) % 65536⟩
    ∧ (Port.settle e b q).frameTimer = .running 1000 0 := by
  rw [Port.settle_eq, Port.announceLive, if_neg h]
  exact ⟨rfl, rfl, rfl⟩

theorem Port.energized_still (h : p.state = .energizing) (hz : p.held = .zero) :
    (p.energized e).openDelay = .running 60000 0 ∧ (p.energized e).frameCount = p.frameCount := by
  have hc := p.fedBack_charge e .closed
  have hlive : ((p.fedBack e .closed).enter .energized).live = .zero :=
    (Port.enterEnergized_live _).trans (hc.held.trans hz)
  have hbefore : ¬ ((p.fedBack e .closed).state = .energized ∧ (p.fedBack e .closed).live.mag = 0) := fun hx => by
    rw [hc.state, h] at hx
    exact PortState.noConfusion hx.1
  refine ⟨?_, (Port.settle_quietFrame (hlive.trans (Port.fedBack_live h).symm)).trans hc.frameCount⟩
  rw [Port.energized, Port.settle_openDelay, if_pos ⟨rfl, by rw [hlive]; rfl⟩, if_neg hbefore]
  rfl

theorem Port.energized_moves (h : p.state = .energizing) (hz : p.held ≠ .zero) :
    (p.energized e).frameCount = (p.frameCount + 1) % 65536
    ∧ (p.energized e).lastFrame = some ⟨p.number, p.held, (p.frameCount + 1) % 65536⟩
    ∧ (p.energized e).frameTimer = .running 1000 0 := by
  have hc := p.fedBack_charge e .closed
  have hlive : ((p.fedBack e .closed).enter .energized).live = p.held := (Port.enterEnergized_live _).trans hc.held
  have hne : ((p.fedBack e .closed).enter .energized).live ≠ (p.fedBack e .closed).live := by
    rw [hlive, Port.fedBack_live h]
    exact hz
  have hcount : ((p.fedBack e .closed).enter .energized).frameCount = p.frameCount := hc.frameCount
  have hnumber : ((p.fedBack e .closed).enter .energized).number = p.number := hc.number
  have hs := Port.settle_sendsFrame (e := e) hne
  rw [hlive, hcount, hnumber] at hs
  exact hs

end Energized

end Feedback

/-- A position against the open command starts the weld timer. -/
theorem Port.fedBack_weld {e : PortEnv} {p : Port} (ho : p.state ≠ .offline) (hc : p.command = .opened) (hf : p.feedback ≠ .closed) :
    (p.fedBack e .closed).weld = .running 200 0 := by
  rw [Port.fedBack_eq]
  exact Port.settle_weld_starts ((Port.weldConditions_iff _).2 ⟨hc, rfl, ho⟩) fun h => hf ((Port.weldConditions_iff p).1 h).2.1

/-! ### The end of CLOSING that an OPEN brings -/

theorem State.detachBus_ports (s : State) (i : Nat) (unplug : Bool) : (s.detachBus i unplug).ports = s.ports := by
  cases h : s.bus i with
  | none =>
    unfold State.detachBus State.modBus State.pauseRunning State.takeCheck State.awayIfPending State.modBus
    simp only [h, ite_self]
  | some b =>
    obtain ⟨c, hc⟩ := State.detachBus_spec h unplug
    rw [hc.2.2.2.2.2.2.2.2.2.2]

/-- The port's record after a session end, whether a session was there or not. -/
theorem State.endSession_port (s : State) (n : PortNo) (unplug : Bool) (f : Port → Port) :
    (s.endSession n unplug f).port n = Port.settle s.env (s.port n) (f (s.port n).dropSession) := by
  have hport : (s.updPort n fun p => f p.dropSession).port n = Port.settle s.env (s.port n) (f (s.port n).dropSession) :=
    (State.port_updPort s n n _).trans (if_pos rfl)
  rw [State.endSession]
  cases (s.port n).boundSlot with
  | none => exact hport
  | some i => exact (State.port_of_ports (State.detachBus_ports _ i unplug) n).trans hport

/-- R79: a port fault that is taken leaves the feedback. -/
theorem State.portFault_feedback {s : State} {n : PortNo} {code : PortFault}
    (h : ¬ ((s.port n).state = .offline ∨ (s.port n).state = .faulted)) :
    ((s.portFault n code).port n).feedback = (s.port n).feedback := by
  rw [State.portFault, if_neg h, State.endSession_port, Port.settle_feedback, Port.faultInto_eq, Port.dropSession_rest]

theorem State.withPort_self (s : State) (n : PortNo) : s.withPort n (s.port n) = s := by
  have h : s.ports.set n (s.port n) = s.ports := Vector.set_getElem_self _
  exact congrArg (fun v => { s with ports := v }) h

/-- An OPEN in CLOSING after the open command ends CLOSING, newly taken or found. -/
theorem exec_feedbackTaken_ends {s : State} {n : PortNo} (hc : (s.port n).state = .closing) (hq : (s.port n).quiet = .stopped) :
    ∃ q, (s.port n).SameCharge q ∧ q.feedback = .opened ∧ q.flags = (s.port n).flags ∧ q.taken = (s.port n).taken
      ∧ exec (.feedbackTaken n .opened) s = .next ((s.withPort n q).closingEnd n) := by
  by_cases hf : (s.port n).feedback = .opened
  · refine ⟨s.port n, Port.SameCharge.refl _, hf, rfl, rfl, ?_⟩
    rw [State.withPort_self]
    exact (exec_feedbackTaken_same hf).trans (congrArg _ (State.closingOpen_ends hc hq hf))
  · have hp := s.withPort_port n ((s.port n).fedBack s.env .opened)
    have hcharge := (s.port n).fedBack_charge s.env .opened
    obtain ⟨hflags, htaken, _, hquiet⟩ := (s.port n).fedBack_kept s.env .opened
    refine ⟨_, hcharge, Port.fedBack_feedback .., hflags, htaken, ?_⟩
    refine (exec_feedbackTaken_new hf).trans (congrArg _ ?_)
    rw [State.takeFeedback_withPort, State.actFeedback_ends (by rw [hp, hcharge.state]; exact hc)]
    refine State.closingOpen_ends ?_ ?_ ?_ <;> rw [hp]
    · exact hcharge.state.trans hc
    · exact hquiet.trans hq
    · exact Port.fedBack_feedback ..

/-- CLOSING ends from a state that differs in the lines, the contactor, the flags and the timers of its port. -/
theorem State.closingEnd_charge {s : State} {n : PortNo} {q : Port} {g : PortTarget} (h : (s.port n).SameCharge q)
    (hs : (s.port n).session ≠ none) (hp : (s.port n).pendingTarget = some g) :
    s.SessionEnds n false ((s.withPort n q).closingEnd n)
    ∧ q.ClosingEnds g s.now s.site.live.depotId (((s.withPort n q).closingEnd n).port n) := by
  have hq := s.withPort_port n q
  have hspec := State.closingEnd_spec (s := s.withPort n q) (n := n) (g := g) (by rw [hq, h.session]; exact hs)
    (by rw [hq, h.pending]; exact hp)
  rw [hq] at hspec
  exact ⟨State.SessionEnds.of_charge h hspec.1, hspec.2⟩

/-- Settles O25: a position by the port's state, and the end of CLOSING that an OPEN brings. -/
theorem feedbackMovesThePort : Obligations.FeedbackMovesThePort := by
  intro n c s p i ends
  have hwith := s.takeFeedback_withPort n c
  have hq := s.withPort_port n (p.fedBack s.env c)
  have hcharge := p.fedBack_charge s.env c
  have hstate : ((s.withPort n (p.fedBack s.env c)).port n).state = p.state := by rw [hq]; exact hcharge.state
  refine ⟨fun hf hne => ?same, fun hf => ⟨fun hs hc => ?energizes, fun hs hc => ?drops, fun hs ho hc hcmd => ?weld⟩,
    fun g he hsn hg => ?closes⟩
  case same =>
    refine (exec_feedbackTaken_same hf).trans (congrArg _ (State.closingOpen_waits fun h => hne ⟨h.1, ?_, h.2.2⟩))
    exact hf.symm.trans h.2.1
  case energizes =>
    subst hc
    have hrun : exec i s = .next (s.withPort n (p.energized s.env)) := by
      refine (exec_feedbackTaken_new hf).trans (congrArg _ ?_)
      rw [hwith, State.actFeedback_energizes (hstate.trans hs)]
      exact State.updPort_withPort s n _ _
    obtain ⟨hst, hfb, hcf, hheld, hlive, hsession, hcommand⟩ := Port.energized_fields s.env p
    refine ⟨_, hrun, ?_, ?_⟩ <;> rw [State.withPort_port]
    · rfl
    · exact ⟨hst, hfb, hcf, hheld, hlive, hsession, hcommand, Port.energized_still hs, Port.energized_moves hs⟩
  case drops =>
    subst hc
    have hdrop : exec i s = .next ((s.withPort n (p.fedBack s.env .opened)).portFault n .drop) := by
      refine (exec_feedbackTaken_new hf).trans (congrArg _ ?_)
      rw [hwith]
      exact State.actFeedback_drops (hstate.trans hs)
    have hfault := State.portFault_faults (s := s.withPort n (p.fedBack s.env .opened)) (n := n) (code := .drop)
      (by rw [hstate, hs]; exact PortState.noConfusion) (by rw [hstate, hs]; exact PortState.noConfusion)
    refine ⟨_, hdrop, State.PortFaults.of_charge hcharge hfault, ?_⟩
    rw [State.portFault_feedback (by rw [hstate, hs]; rintro (h | h) <;> cases h), hq]
    exact Port.fedBack_feedback ..
  case weld =>
    subst hc
    have hrun : exec i s = .next (s.withPort n (p.fedBack s.env .closed)) := by
      refine (exec_feedbackTaken_new hf).trans (congrArg _ ?_)
      rw [hwith]
      exact State.actFeedback_closed (by rw [hstate]; exact hs)
    refine ⟨_, hrun, ?_, ?_⟩ <;> rw [State.withPort_port]
    · rfl
    · exact ⟨Port.fedBack_weld ho hcmd hf, hcharge.state, hcharge.session, hcharge.held⟩
  case closes =>
    obtain ⟨hc, rfl, hquiet⟩ := he
    obtain ⟨q, hqc, hfb, hflags, htaken, hrun⟩ := exec_feedbackTaken_ends hc hquiet
    obtain ⟨hends, hport⟩ := State.closingEnd_charge hqc hsn hg
    obtain ⟨feedback, pending, flags, _, offline, reached, dropped⟩ := hport
    refine ⟨_, hrun, hends, feedback.trans hfb, pending, flags.trans (by rw [hflags]), offline, fun hr ht => ?_, fun hr ht => ?_⟩
    · obtain ⟨hstate, hattempts, _, _, henquire, hlast⟩ := reached hr (by rw [htaken]; exact ht)
      exact ⟨hstate, hattempts, henquire.trans (by rw [hqc.number]), hlast⟩
    · exact dropped hr (htaken.trans ht)

end Sys2Proof.Machine
end

section
/-! Charging ports: the expiries of the open delay, of CLOSING's timers, of the confirmation and the weld timer, and the
repeated frame (O26). -/

namespace Sys2Proof.Machine

open Sys2Proof

/-! ### The open command of CLOSING -/

/-- The settled record of the open command that an expiry in CLOSING gives. -/
@[irreducible] def Port.openCommand (e : PortEnv) (p : Port) : Port :=
  Port.settle e p { p with command := .opened, quiet := .stopped, limit := .stopped }

section OpenCommand

variable {e : PortEnv} {p : Port} {s : State} {n : PortNo} {q : Port}

theorem Port.openCommand_eq (e : PortEnv) (p : Port) : p.openCommand e = { p.timersOf (p.openCommand e) with command := .opened } := by
  have h : p.SameCharge { p with command := .opened, quiet := .stopped, limit := .stopped } := rfl
  have hs := h.settle e
  rw [Port.openCommand]
  generalize Port.settle e p { p with command := .opened, quiet := .stopped, limit := .stopped } = r at hs ⊢
  exact hs

theorem Port.openCommand_timers (e : PortEnv) (p : Port) : (p.openCommand e).quiet = .stopped ∧ (p.openCommand e).limit = .stopped := by
  rw [Port.openCommand]
  exact ⟨Port.settle_quiet .., Port.settle_limit ..⟩

theorem Port.openCommand_weld (hf : p.feedback = .closed) (ho : p.state ≠ .offline) (hc : p.command = .closed) :
    (p.openCommand e).weld = .running 200 0 := by
  rw [Port.openCommand]
  refine Port.settle_weld_starts ((Port.weldConditions_iff _).2 ⟨rfl, hf, ho⟩) fun h => ?_
  exact Contact.noConfusion (hc.symm.trans ((Port.weldConditions_iff p).1 h).1)

theorem Port.openCommand_charge (e : PortEnv) (p : Port) : p.SameCharge (p.openCommand e) := by
  have h := p.openCommand_eq e
  generalize p.openCommand e = r at h ⊢
  rw [h]
  rfl

theorem Port.openCommand_kept (e : PortEnv) (p : Port) : (p.openCommand e).state = p.state
    ∧ (p.openCommand e).feedback = p.feedback ∧ (p.openCommand e).flags = p.flags ∧ (p.openCommand e).taken = p.taken := by
  rw [Port.openCommand]
  exact ⟨Port.settle_state .., Port.settle_feedback .., Port.settle_flags .., Port.settle_taken ..⟩

theorem State.giveOpen_withPort (s : State) (n : PortNo) (q : Port) :
    (s.withPort n q).giveOpen n = (s.withPort n (q.openCommand s.env)).closingOpen n := by
  have h : (s.withPort n q).commandOpen n = s.withPort n (q.openCommand s.env) := by
    rw [State.commandOpen, State.updPort_withPort, Port.openCommand]
  rw [State.giveOpen, h]

/-- A contactor that still shows CLOSED leaves the port in CLOSING. -/
theorem State.giveOpen_waits (hf : q.feedback = .closed) :
    (s.withPort n q).giveOpen n = s.withPort n (q.openCommand s.env) := by
  rw [State.giveOpen_withPort]
  refine State.closingOpen_waits fun h => ?_
  rw [State.withPort_port, (q.openCommand_kept s.env).2.1, hf] at h
  exact Contact.noConfusion h.2.1

/-- An OPEN that is there already ends CLOSING. -/
theorem State.giveOpen_ends (hs : q.state = .closing) (hf : q.feedback = .opened) :
    (s.withPort n q).giveOpen n = (s.withPort n (q.openCommand s.env)).closingEnd n := by
  obtain ⟨state, feedback, _⟩ := q.openCommand_kept s.env
  rw [State.giveOpen_withPort]
  refine State.closingOpen_ends ?_ ?_ ?_ <;> rw [State.withPort_port]
  · exact state.trans hs
  · exact (q.openCommand_timers s.env).1
  · exact feedback.trans hf

end OpenCommand

/-- A port record with further flags. -/
def Port.withFlags (f : BitVec 6) (p : Port) : Port := { p with flags := p.flags ||| f }

theorem Port.withFlags_zero (p : Port) : p.withFlags 0#6 = p := by
  rw [Port.withFlags, BitVec.or_zero]

/-- The expiry of the quiet or of the limit timer, and the flag that comes with it. -/
def closingExpiry (n : PortNo) (p : Port) (i : Instr) (f : BitVec 6) : Prop :=
  (i = .quietTimerExpiry n ∧ p.quiet ≠ .stopped ∧ f = 0#6)
  ∨ (i = .limitTimerExpiry n ∧ p.limit ≠ .stopped ∧ f = PortFlag.closeTimeout)

section Expiry

variable {s : State} {n : PortNo} {i : Instr} {f : BitVec 6} {g : PortTarget}

theorem exec_closingExpiry (h : closingExpiry n (s.port n) i f) :
    exec i s = .next ((s.withPort n ((s.port n).withFlags f)).giveOpen n) := by
  rcases h with ⟨rfl, h, rfl⟩ | ⟨rfl, h, rfl⟩
  · rw [Port.withFlags_zero, State.withPort_self]
    exact if_pos (Timer.isRunning_of_ne h)
  · exact if_pos (Timer.isRunning_of_ne h)

/-- R81: the open command at the first expiry. -/
theorem exec_closingExpiry_waits (h : closingExpiry n (s.port n) i f) (hs : (s.port n).state = .closing)
    (hf : (s.port n).feedback = .closed) : ∃ r : Port,
    exec i s = .next { s with ports := s.ports.set n r }
    ∧ r = { (s.port n).timersOf r with command := .opened, flags := (s.port n).flags ||| f }
    ∧ r.quiet = .stopped ∧ r.limit = .stopped ∧ ((s.port n).command = .closed → r.weld = .running 200 0) := by
  have hstate : ((s.port n).withFlags f).state = .closing := hs
  have htimers := ((s.port n).withFlags f).openCommand_timers s.env
  refine ⟨((s.port n).withFlags f).openCommand s.env, (exec_closingExpiry h).trans (congrArg _ (State.giveOpen_waits hf)),
    Port.openCommand_eq .., htimers.1, htimers.2, fun hc => Port.openCommand_weld hf ?_ hc⟩
  rw [hstate]
  exact PortState.noConfusion

/-- R82: the end of CLOSING at the first expiry. -/
theorem exec_closingExpiry_ends (h : closingExpiry n (s.port n) i f) (hs : (s.port n).state = .closing)
    (hf : (s.port n).feedback = .opened) (hn : (s.port n).session ≠ none) (hg : (s.port n).pendingTarget = some g) :
    ∃ (q : Port) (t : State), exec i s = .next t ∧ s.SessionEnds n false t ∧ q.ClosingEnds g s.now s.site.live.depotId (t.port n)
      ∧ q.flags = (s.port n).flags ||| f ∧ q.taken = (s.port n).taken ∧ q.number = (s.port n).number := by
  have hcharge : (s.port n).SameCharge ((s.port n).withFlags f) := rfl
  have hopen := hcharge.trans (Port.openCommand_charge s.env _)
  obtain ⟨hends, hport⟩ := State.closingEnd_charge hopen hn hg
  obtain ⟨_, _, hflags, htaken⟩ := ((s.port n).withFlags f).openCommand_kept s.env
  exact ⟨_, _, (exec_closingExpiry h).trans (congrArg _ (State.giveOpen_ends hs hf)), hends, hport, hflags, htaken, hopen.number⟩

theorem exec_closingExpiry_offline (h : closingExpiry n (s.port n) i f) (hs : (s.port n).state = .closing)
    (hf : (s.port n).feedback = .opened) (hn : (s.port n).session ≠ none) (hg : (s.port n).pendingTarget = some .offline) :
    ∃ t, exec i s = .next t ∧ s.SessionEnds n false t ∧ (t.port n).state = .offline
      ∧ (t.port n).lastTransition = some ⟨.offline, .reached, s.now⟩
      ∧ (t.port n).flags = (s.port n).flags ||| f ||| PortFlag.stateReached := by
  obtain ⟨q, t, hrun, hends, hport, hflags, _, _⟩ := exec_closingExpiry_ends h hs hf hn hg
  obtain ⟨hstate, hlast⟩ := hport.offline rfl
  exact ⟨t, hrun, hends, hstate, hlast, hport.flags.trans (by rw [hflags])⟩

theorem exec_closingExpiry_reidentify (h : closingExpiry n (s.port n) i f) (hs : (s.port n).state = .closing)
    (hf : (s.port n).feedback = .opened) (hn : (s.port n).session ≠ none) (hg : (s.port n).pendingTarget = some .reidentify) :
    ∃ t, exec i s = .next t ∧ s.SessionEnds n false t ∧ (t.port n).pendingTarget = none
      ∧ (t.port n).flags = (s.port n).flags ||| (f ||| PortFlag.stateReached)
      ∧ (t.port n).quiet = .stopped ∧ (t.port n).limit = .stopped
      ∧ (((s.port n).taken = .plugged ∨ (s.port n).taken = .ready) → (t.port n).state = .identifying
        ∧ (t.port n).attempts = 1 ∧ (t.port n).checkErrors = 0 ∧ (t.port n).discards = 0
        ∧ (t.port n).enquire = some ⟨(s.port n).number.val, s.site.live.depotId, 1⟩
        ∧ (t.port n).lastTransition = some ⟨.reidentify, .reached, s.now⟩)
      ∧ ((s.port n).taken = .fault → (t.port n).state = .vacant ∧ (t.port n).settling = .running 500 0
        ∧ (t.port n).lastTransition = some ⟨.reidentify, .dropped, s.now⟩) := by
  obtain ⟨q, t, hrun, hends, hport, hflags, htaken, hnumber⟩ := exec_closingExpiry_ends h hs hf hn hg
  obtain ⟨_, pending, flags, ⟨hquiet, hlimit⟩, _, reached, dropped⟩ := hport
  rw [htaken, hnumber] at reached
  rw [htaken] at dropped
  rw [hflags, BitVec.or_assoc] at flags
  exact ⟨t, hrun, hends, pending, flags, hquiet, hlimit, reached rfl, dropped rfl⟩

end Expiry

/-! ### The other timers -/

section Timers

variable {s : State} {n : PortNo} {code : PortFault}

theorem exec_openDelayExpiry (h : (s.port n).openDelay ≠ .stopped) : exec (.openDelayExpiry n) s
    = .next (s.updPort n fun p => { p with command := .opened }.enter .connected) := if_pos (Timer.isRunning_of_ne h)

/-- The settled record of a port whose open delay has expired. -/
theorem Port.settle_openDelayed {e : PortEnv} {p : Port} :
    let r := Port.settle e p ({ p with command := .opened }.enter .connected)
    r.state = .connected ∧ r.command = .opened ∧ r.session = p.session ∧ r.openDelay = .stopped ∧ r.held = p.held
      ∧ (p.command = .closed → p.feedback = .closed → r.weld = .running 200 0) := by
  refine ⟨Port.settle_state .., Port.settle_command .., Port.settle_session .., ?_, Port.settle_held .., fun hc hf => ?_⟩
  · exact (Port.settle_stops PortState.noConfusion).1
  · refine Port.settle_weld_starts ((Port.weldConditions_iff _).2 ⟨rfl, hf, PortState.noConfusion⟩) fun h => ?_
    exact Contact.noConfusion (hc.symm.trans ((Port.weldConditions_iff p).1 h).1)

/-- R75: no weld timer runs at a contactor that shows OPEN. -/
theorem State.portFault_weld (h : ¬ ((s.port n).state = .offline ∨ (s.port n).state = .faulted))
    (hf : (s.port n).feedback = .opened) : ((s.portFault n code).port n).weld = .stopped := by
  have hfeedback : (Port.faultInto code s.now (s.port n).dropSession).feedback = .opened := by
    rw [Port.faultInto_eq, Port.dropSession_rest]
    exact hf
  rw [State.portFault, if_neg h, State.endSession_port, Port.settle_weld, if_neg]
  rw [Port.weldConditions_iff, hfeedback]
  exact fun hx => Contact.noConfusion hx.2.1

theorem exec_weldTimerExpiry_faults (h : (s.port n).weld ≠ .stopped) (hf : (s.port n).state ≠ .faulted) :
    exec (.weldTimerExpiry n) s = .next ((s.withPort n { s.port n with weld := .stopped }).portFault n .weld) :=
  (if_pos (Timer.isRunning_of_ne h)).trans (if_neg hf)

theorem exec_weldTimerExpiry_faulted (h : (s.port n).weld ≠ .stopped) (hf : (s.port n).state = .faulted) :
    exec (.weldTimerExpiry n) s = .next (s.setPort n Port.weldInFaulted) :=
  (if_pos (Timer.isRunning_of_ne h)).trans (if_pos hf)

end Timers

/-- Settles O26: each expiry by the timer that runs, CLOSING's two through one lemma over their flag. -/
theorem portTimersAndFaults : Obligations.PortTimersAndFaults := by
  refine ⟨?expiries, fun n s => ⟨fun hc hs => ?confirmation, fun hw ho hf => ?weld, exec_weldTimerExpiry_faulted,
    fun hc => if_neg (Timer.not_isRunning hc), fun hw => if_neg (Timer.not_isRunning hw)⟩⟩
  case expiries =>
    intro n s p
    refine ⟨fun hd _ _ => ?openDelay, fun hs hf => ⟨fun hq => ?quietWaits, fun hl => ?limitWaits⟩,
      fun hs hf hn hg => ⟨fun hq => ?quietEnds, fun hl => ?limitEnds⟩, fun hs hf hn hg i flags hi => ?reidentify,
      fun ht => if_pos (Timer.isRunning_of_ne ht)⟩
    case openDelay => exact ⟨_, exec_openDelayExpiry hd, Port.settle_openDelayed⟩
    case quietWaits =>
      obtain ⟨r, hrun, hr, hrest⟩ := exec_closingExpiry_waits (.inl ⟨rfl, hq, rfl⟩) hs hf
      rw [BitVec.or_zero] at hr
      exact ⟨r, hrun, hr, hrest⟩
    case limitWaits => exact exec_closingExpiry_waits (.inr ⟨rfl, hl, rfl⟩) hs hf
    case quietEnds =>
      obtain ⟨t, hrun, hends, hstate, hlast, hflags⟩ := exec_closingExpiry_offline (.inl ⟨rfl, hq, rfl⟩) hs hf hn hg
      rw [BitVec.or_zero] at hflags
      exact ⟨t, hrun, hends, hstate, hlast, hflags⟩
    case limitEnds => exact exec_closingExpiry_offline (.inr ⟨rfl, hl, rfl⟩) hs hf hn hg
    case reidentify =>
      rcases hi with ⟨rfl, hq, rfl⟩ | ⟨rfl, hl, rfl⟩
      · have h := exec_closingExpiry_reidentify (.inl ⟨rfl, hq, rfl⟩) hs hf hn hg
        rw [BitVec.zero_or] at h
        exact h
      · exact exec_closingExpiry_reidentify (.inr ⟨rfl, hl, rfl⟩) hs hf hn hg
  case confirmation =>
    have ho : (s.port n).state ≠ .offline := by rw [hs]; exact PortState.noConfusion
    have hf : (s.port n).state ≠ .faulted := by rw [hs]; exact PortState.noConfusion
    exact ⟨_, if_pos (Timer.isRunning_of_ne hc), State.portFault_faults ho hf,
      State.portFault_weld fun h => h.elim ho hf⟩
  case weld =>
    have hport := s.withPort_port n { s.port n with weld := .stopped }
    have hcharge : (s.port n).SameCharge { s.port n with weld := .stopped } := rfl
    refine ⟨_, exec_weldTimerExpiry_faults hw hf, State.PortFaults.of_charge hcharge (State.portFault_faults ?_ ?_)⟩
    · rw [hport]; exact ho
    · rw [hport]; exact hf

end Sys2Proof.Machine
end

section
/-! The identification exchange: ENQUIRE and the answer timer (O27), the binding ANNOUNCE (O28), LIMIT and FAULT_REPORT
in a session (O29), and what is discarded and counted (O30). -/

namespace Sys2Proof.Machine

open Sys2Proof

/-! ### The exchange state -/

section Exchange

variable {p : Port}

theorem Port.exchange_session (h : p.session ≠ none) : p.exchange = .session :=
  if_pos (Option.isSome_iff_ne_none.2 h)

theorem Port.exchange_waiting (h : p.session = none) (hs : p.state = .identifying) : p.exchange = .waiting := by
  rw [Port.exchange, h]
  exact if_pos hs

theorem Port.exchange_idle (h : p.session = none) (hs : p.state ≠ .identifying) : p.exchange = .idle := by
  rw [Port.exchange, h]
  exact if_neg hs

theorem Port.reads_iff (p : Port) : p.reads = true ↔ ¬ (p.state = .offline ∨ p.state = .faulted) := by
  rw [Port.reads, Bool.and_eq_true, bne_iff_ne, bne_iff_ne, not_or]

end Exchange

/-! ### The opening of a session -/

/-- The record of a port that opens a session. -/
def Port.opened (x : Session) (claimed : Option Nat) (flags : BitVec 6) (st : PortState) (p : Port) : Port :=
  Port.enter st { p.openWith x with claimed := claimed, flags := flags }

section Opening

variable {s : State} {n : PortNo} {e : PortEnv} {p : Port} {x : Session} {claimed : Option Nat} {flags : BitVec 6}

theorem State.openState_eq (s : State) : s.openState = if s.protection.latch = true then .held else .connected := rfl

/-- The settled record of a port that opens a session: it is CONNECTED or HELD, without power. -/
theorem Port.settle_opened (latch : Bool) (hp : p.state ≠ .energized) :
    let r := Port.settle e p (p.opened x claimed flags (if latch then .held else .connected))
    r = { p.timersOf r with
      state := if latch then .held else .connected
      session := some x, sessionImport := 0, sessionExport := 0, stray := 0, wrongRun := 0, lastApplied := none
      claimed := claimed, flags := flags, pendingTarget := none, faultCode := none }
    ∧ r.answer = .stopped := by
  have hst : (if latch then PortState.held else .connected) ≠ .energized := by cases latch <;> exact PortState.noConfusion
  have hstill := Port.settle_unpowered (e := e) (p := p)
    (q := p.opened x claimed flags (if latch then .held else .connected)) rfl hp hst
  have hanswer := Port.settle_answer e p (p.opened x claimed flags (if latch then .held else .connected))
  generalize Port.settle e p (p.opened x claimed flags (if latch then .held else .connected)) = r at hstill hanswer ⊢
  cases latch <;> exact ⟨hstill, hanswer⟩

theorem State.openUnidentified_eq (s : State) (n : PortNo) (reason : UnidReason) (claimed : Option Nat) :
    s.openUnidentified n reason claimed = s.withPort n (Port.settle s.env (s.port n) ((s.port n).opened
      ⟨.unidentified reason, s.now, none, s.site.live.tricklePower, 0⟩ (claimed.orElse fun _ => (s.port n).claimed)
      ((s.port n).flags ||| PortFlag.unidentified) (if s.protection.latch = true then .held else .connected))) := rfl

/-- R97: an unidentified session opens at a port that is IDENTIFYING. -/
theorem State.openUnidentified_opens (s : State) {n : PortNo} (reason : UnidReason) (claimed : Option Nat)
    (hi : (s.port n).state = .identifying) : ∃ r : Port,
    s.openUnidentified n reason claimed = { s with ports := s.ports.set n r }
    ∧ s.OpensUnidentified n reason (claimed.orElse fun _ => (s.port n).claimed) r := by
  obtain ⟨record, answer⟩ := Port.settle_opened (e := s.env) (p := s.port n)
    (x := ⟨.unidentified reason, s.now, none, s.site.live.tricklePower, 0⟩)
    (claimed := claimed.orElse fun _ => (s.port n).claimed) (flags := (s.port n).flags ||| PortFlag.unidentified)
    s.protection.latch (by rw [hi]; exact PortState.noConfusion)
  exact ⟨_, State.openUnidentified_eq s n reason claimed, record, answer⟩

end Opening

/-! ### ENQUIRE and ANNOUNCE without a session -/

section Waiting

variable {s : State} {n : PortNo} {m : Announce}

theorem exec_announce_waiting (hn : (s.port n).session = none) (hi : (s.port n).state = .identifying) :
    exec (.announce n m) s = .next (s.judgeAnnounce n m) := by
  have h : exec (.announce n m) s = execAnnounce n m s := rfl
  rw [h, execAnnounce, Port.exchange_waiting hn hi]

theorem State.judgeAnnounce_unknown (h : s.findBus m.bus.toNat = none) :
    s.judgeAnnounce n m = s.openUnidentified n .unknownBus (some m.bus.toNat) := by
  rw [State.findBus] at h
  simp only [State.judgeAnnounce, h]

variable {i : Nat} {b : Bus}

theorem State.judgeAnnounce_found (h : s.findBus m.bus.toNat = some (i, b)) : s.judgeAnnounce n m =
    if b.location ≠ none then s.openUnidentified n .duplicateBus (some m.bus.toNat) else s.bindSession n i b m := by
  rw [State.findBus] at h
  simp only [State.judgeAnnounce, h, Option.isSome_iff_ne_none]

theorem exec_enquireSent_waiting (he : (s.port n).enquire ≠ none) (hn : (s.port n).session = none)
    (hi : (s.port n).state = .identifying) : exec (.enquireSent n) s = .next { s with
      ports := s.ports.set n { s.port n with enquire := none, answer := .running 1000 0 } } := by
  refine (if_pos (Option.isSome_iff_ne_none.2 he)).trans (congrArg _ ?_)
  rw [State.setPort_eq, if_pos (Port.exchange_waiting hn hi)]
  rfl

theorem exec_answerTimerExpiry (h : (s.port n).answer ≠ .stopped) : exec (.answerTimerExpiry n) s =
    if (s.port n).attempts < 3 then .next (s.setPort n (Port.enquireAgain s.site.live.depotId))
    else .next (s.openUnidentified n .noAnswer none) := if_pos (Timer.isRunning_of_ne h)

end Waiting

/-- Settles O27: the answer timer's attempts, then the three ways to an unidentified session through its one opening. -/
theorem identificationOpensUnidentified : Obligations.IdentificationOpensUnidentified := by
  intro n s p
  refine ⟨fun he => if_neg (by rw [he]; exact Bool.false_ne_true), fun ha => if_neg (Timer.not_isRunning ha),
    fun hi hn => ⟨fun he => exec_enquireSent_waiting he hn hi, fun ha hl => ?again, fun ha hl => ?noAnswer,
      fun m hm => ?unknown, fun m i b hf hl => ?duplicate⟩⟩
  case again => exact (exec_answerTimerExpiry ha).trans (if_pos hl)
  case noAnswer =>
    obtain ⟨r, hr, hopens⟩ := s.openUnidentified_opens .noAnswer none hi
    refine ⟨r, ((exec_answerTimerExpiry ha).trans (if_neg ?_)).trans (congrArg _ hr), hopens⟩
    exact fun h => absurd hl (Nat.ne_of_lt h)
  case unknown =>
    obtain ⟨r, hr, hopens⟩ := s.openUnidentified_opens .unknownBus (some m.bus.toNat) hi
    refine ⟨r, (exec_announce_waiting hn hi).trans (congrArg _ (Eq.trans ?_ hr)), hopens⟩
    exact State.judgeAnnounce_unknown (State.findBus_none.2 hm)
  case duplicate =>
    obtain ⟨r, hr, hopens⟩ := s.openUnidentified_opens .duplicateBus (some m.bus.toNat) hi
    refine ⟨r, (exec_announce_waiting hn hi).trans (congrArg _ (Eq.trans ?_ hr)), hopens⟩
    exact (State.judgeAnnounce_found hf).trans (if_pos hl)

/-! ### The binding ANNOUNCE -/

section Rebase

variable {b : Bus} {tolerance report : Nat}

theorem absDiff_gt (a b c : Nat) : c < absDiff a b ↔ c < a - b ∨ c < b - a := by
  rw [absDiff]
  omega

theorem hundredfold_absDiff_gt (a b c : Nat) : c < 100 * absDiff a b ↔ c < 100 * (a - b) ∨ c < 100 * (b - a) := by
  rw [absDiff]
  omega

theorem clampReport_eq (capacity report : Nat) : clampReport capacity report = min report capacity := rfl

/-- The SoE the record holds is apart from a report by more than the tolerance. -/
def Bus.isApart (tolerance report : Nat) (b : Bus) : Prop := ∃ x, b.soe = some x
  ∧ (tolerance < x - min report b.capacity ∨ tolerance < min report b.capacity - x)

theorem Bus.rebase_fields (tolerance report : Nat) (b : Bus) : b.rebase tolerance report = { b with
    soe := some (min report b.capacity), source := .reported
    discrepancy := (b.rebase tolerance report).discrepancy, flags := (b.rebase tolerance report).flags } := by
  rw [Bus.rebase, Bus.raiseIf_eq]
  cases b.soe with
  | none => rfl
  | some old => simp only []; split <;> rfl

theorem Bus.rebase_near (h : ¬ b.isApart tolerance report) :
    (b.rebase tolerance report).discrepancy = b.discrepancy
    ∧ (b.rebase tolerance report).flags = if b.capacity < report then b.flags ||| BusFlag.soeClamped else b.flags := by
  rw [Bus.rebase, Bus.raiseIf_eq]
  cases hs : b.soe with
  | none => simp only [decide_eq_true_eq, and_self]
  | some old =>
    have hn : ¬ tolerance < absDiff old (clampReport b.capacity report) := fun ht =>
      h ⟨old, hs, (absDiff_gt _ _ _).1 ht⟩
    simp only [if_neg hn, decide_eq_true_eq, and_self]

theorem Bus.rebase_apart {old : Nat} (hs : b.soe = some old) (h : b.isApart tolerance report) :
    (b.rebase tolerance report).discrepancy = some ⟨min report b.capacity, old⟩
    ∧ (b.rebase tolerance report).flags
      = (if b.capacity < report then b.flags ||| BusFlag.soeClamped else b.flags) ||| BusFlag.soeDiscrepancy := by
  obtain ⟨x, hx, hd⟩ := h
  obtain rfl : old = x := Option.some.inj (hs.symm.trans hx)
  have ht : tolerance < absDiff old (clampReport b.capacity report) := (absDiff_gt _ _ _).2 hd
  rw [Bus.rebase, Bus.raiseIf_eq]
  simp only [hs, if_pos ht, Bus.raise, decide_eq_true_eq, and_true]
  rfl

/-- A flag of a conditional raise. -/
theorem getLsbD_raiseIf {w : Nat} (P : Prop) [Decidable P] (f g : BitVec w) (k : Nat) :
    (if P then f ||| g else f).getLsbD k = true ↔ f.getLsbD k = true ∨ (P ∧ g.getLsbD k = true) := by
  by_cases h : P
  · rw [if_pos h, BitVec.getLsbD_or, Bool.or_eq_true, and_iff_right h]
  · rw [if_neg h, or_iff_left fun hx => h hx.1]

theorem Bus.rebase_flags (tolerance report : Nat) (b : Bus) (k : Nat) : (b.rebase tolerance report).flags.getLsbD k = true ↔
    b.flags.getLsbD k = true ∨ (b.capacity < report ∧ BusFlag.soeClamped.getLsbD k = true)
      ∨ (b.isApart tolerance report ∧ BusFlag.soeDiscrepancy.getLsbD k = true) := by
  by_cases h : b.isApart tolerance report
  · have ⟨old, hs, _⟩ := h
    rw [(Bus.rebase_apart hs h).2, BitVec.getLsbD_or, Bool.or_eq_true, getLsbD_raiseIf, or_assoc, and_iff_right h]
  · rw [(Bus.rebase_near h).2, getLsbD_raiseIf]
    exact or_congr_right (or_iff_left fun hx => h hx.1).symm

end Rebase

section Bind

variable {n : PortNo} {tolerance : Nat} {m : Announce} {b : Bus}

/-- The record after the report of an ANNOUNCE (R101). -/
def Bus.heard (tolerance : Nat) (m : Announce) (b : Bus) : Bus :=
  match announceReport m with
  | some r => b.rebase tolerance r
  | none => b

theorem Bus.heard_known (h : m.soe.toNat ≠ 4294967295) : b.heard tolerance m = b.rebase tolerance m.soe.toNat := by
  have hr : announceReport m = some m.soe.toNat := if_neg h
  rw [Bus.heard, hr]

theorem Bus.heard_unknown (h : ¬ m.soe.toNat ≠ 4294967295) : b.heard tolerance m = b := by
  have hr : announceReport m = none := if_pos (not_not.1 h)
  rw [Bus.heard, hr]

theorem Bus.heard_fields (tolerance : Nat) (m : Announce) (b : Bus) : b.heard tolerance m = { b with
    soe := (b.heard tolerance m).soe, source := (b.heard tolerance m).source
    discrepancy := (b.heard tolerance m).discrepancy, flags := (b.heard tolerance m).flags } := by
  by_cases h : m.soe.toNat ≠ 4294967295
  · rw [Bus.heard_known h, Bus.rebase_fields]
  · rw [Bus.heard_unknown h]

/-- The capacity an ANNOUNCE names differs from the record's by more than a twentieth. -/
def Bus.isMismatch (m : Announce) (b : Bus) : Prop := 5 * b.capacity < 100 * (m.capacity.toNat - b.capacity)
  ∨ 5 * b.capacity < 100 * (b.capacity - m.capacity.toNat)

/-- The report does not read the location. -/
theorem Bus.heard_located (n : PortNo) (tolerance : Nat) (m : Announce) (b : Bus) :
    Bus.heard tolerance m { b with location := some n } = { b.heard tolerance m with location := some n } := by
  rw [Bus.heard, Bus.heard]
  cases announceReport m with
  | none => rfl
  | some r =>
    simp only [Bus.rebase, Bus.raiseIf_eq]
    cases b.soe with
    | none => rfl
    | some old => simp only []; split <;> rfl

/-- The record a binding writes. -/
theorem Bus.bindTo_eq (n : PortNo) (tolerance : Nat) (m : Announce) (b : Bus) : b.bindTo n tolerance m =
    { b with
      location := some n, soe := (b.heard tolerance m).soe, source := (b.heard tolerance m).source
      discrepancy := (b.heard tolerance m).discrepancy
      flags := (if 5 * b.capacity < 100 * absDiff m.capacity.toNat b.capacity
        then (b.heard tolerance m).flags ||| BusFlag.capacityMismatch else (b.heard tolerance m).flags)
          ||| BusFlag.plugged } := by
  have h : b.bindTo n tolerance m = ((Bus.heard tolerance m { b with location := some n }).raiseIf
      (decide (5 * b.capacity < 100 * absDiff m.capacity.toNat b.capacity)) BusFlag.capacityMismatch).raise
      BusFlag.plugged := rfl
  rw [h, Bus.heard_located, Bus.raiseIf_eq]
  simp only [Bus.raise, decide_eq_true_eq]
  rw [Bus.heard_fields]

theorem Bus.bindTo_flags (n : PortNo) (tolerance : Nat) (m : Announce) (b : Bus) (k : Nat) :
    (b.bindTo n tolerance m).flags.getLsbD k = true ↔ (b.heard tolerance m).flags.getLsbD k = true
      ∨ (b.isMismatch m ∧ BusFlag.capacityMismatch.getLsbD k = true) ∨ BusFlag.plugged.getLsbD k = true := by
  rw [Bus.bindTo_eq, BitVec.getLsbD_or, Bool.or_eq_true, getLsbD_raiseIf, or_assoc, hundredfold_absDiff_gt]
  rfl

/-- The flags of the report: the discrepancy and the clamp. -/
theorem Bus.heard_flags (tolerance : Nat) (m : Announce) (b : Bus) (k : Nat) :
    (b.heard tolerance m).flags.getLsbD k = true ↔ b.flags.getLsbD k = true
      ∨ (m.soe.toNat ≠ 4294967295 ∧ b.capacity < m.soe.toNat ∧ BusFlag.soeClamped.getLsbD k = true)
      ∨ (m.soe.toNat ≠ 4294967295 ∧ b.isApart tolerance m.soe.toNat ∧ BusFlag.soeDiscrepancy.getLsbD k = true) := by
  by_cases h : m.soe.toNat ≠ 4294967295
  · rw [Bus.heard_known h, Bus.rebase_flags, and_iff_right h, and_iff_right h]
  · rw [Bus.heard_unknown h]
    exact (or_iff_left fun hx => hx.elim (fun hy => h hy.1) fun hy => h hy.1).symm

/-- The four flags a binding can raise. -/
theorem Bus.bindTo_raises (n : PortNo) (tolerance : Nat) (m : Announce) (b : Bus) :
    (b.bindTo n tolerance m).flags.getLsbD 0 = true
    ∧ ((b.bindTo n tolerance m).flags.getLsbD 4 = true ↔ b.flags.getLsbD 4 = true
        ∨ (m.soe.toNat ≠ 4294967295 ∧ b.isApart tolerance m.soe.toNat))
    ∧ ((b.bindTo n tolerance m).flags.getLsbD 5 = true ↔ b.flags.getLsbD 5 = true ∨ b.isMismatch m)
    ∧ ((b.bindTo n tolerance m).flags.getLsbD 6 = true ↔ b.flags.getLsbD 6 = true
        ∨ (m.soe.toNat ≠ 4294967295 ∧ b.capacity < m.soe.toNat)) := by
  have hplugged : BusFlag.plugged.getLsbD 0 = true ∧ BusFlag.plugged.getLsbD 4 = false
      ∧ BusFlag.plugged.getLsbD 5 = false ∧ BusFlag.plugged.getLsbD 6 = false := ⟨rfl, rfl, rfl, rfl⟩
  have hmismatch : BusFlag.capacityMismatch.getLsbD 4 = false ∧ BusFlag.capacityMismatch.getLsbD 5 = true
      ∧ BusFlag.capacityMismatch.getLsbD 6 = false := ⟨rfl, rfl, rfl⟩
  have hclamped : BusFlag.soeClamped.getLsbD 4 = false ∧ BusFlag.soeClamped.getLsbD 5 = false
      ∧ BusFlag.soeClamped.getLsbD 6 = true := ⟨rfl, rfl, rfl⟩
  have happart : BusFlag.soeDiscrepancy.getLsbD 4 = true ∧ BusFlag.soeDiscrepancy.getLsbD 5 = false
      ∧ BusFlag.soeDiscrepancy.getLsbD 6 = false := ⟨rfl, rfl, rfl⟩
  simp only [Bus.bindTo_flags, Bus.heard_flags, hplugged, hmismatch, hclamped, happart, Bool.false_eq_true, and_false,
    or_false, false_or, and_true, or_true, and_self]

/-- What the report does to the SoE and to the discrepancy record. -/
theorem Bus.bindTo_report (n : PortNo) (tolerance : Nat) (m : Announce) (b : Bus) :
    (m.soe.toNat ≠ 4294967295 → (b.bindTo n tolerance m).soe = some (min m.soe.toNat b.capacity)
      ∧ (b.bindTo n tolerance m).source = .reported)
    ∧ (¬ m.soe.toNat ≠ 4294967295 → (b.bindTo n tolerance m).soe = b.soe ∧ (b.bindTo n tolerance m).source = b.source)
    ∧ (m.soe.toNat ≠ 4294967295 → b.isApart tolerance m.soe.toNat → ∃ x, b.soe = some x
      ∧ (b.bindTo n tolerance m).discrepancy = some ⟨min m.soe.toNat b.capacity, x⟩)
    ∧ ((¬ m.soe.toNat ≠ 4294967295 ∨ ¬ b.isApart tolerance m.soe.toNat) →
      (b.bindTo n tolerance m).discrepancy = b.discrepancy) := by
  rw [Bus.bindTo_eq]
  refine ⟨fun h => ?_, fun h => ?_, fun h ha => ?_, fun h => ?_⟩
  · rw [Bus.heard_known h, Bus.rebase_fields]
    exact ⟨rfl, rfl⟩
  · rw [Bus.heard_unknown h]
    exact ⟨rfl, rfl⟩
  · have ⟨x, hx, _⟩ := ha
    rw [Bus.heard_known h]
    exact ⟨x, hx, (Bus.rebase_apart hx ha).1⟩
  · by_cases hk : m.soe.toNat ≠ 4294967295
    · rw [Bus.heard_known hk]
      exact (Bus.rebase_near (h.resolve_left (not_not.2 hk))).1
    · rw [Bus.heard_unknown hk]

end Bind

section BindSession

variable {s : State} {n : PortNo} {i : Nat} {b : Bus} {m : Announce}

/-- The settled record of the port that binds. -/
@[irreducible] def State.boundPort (s : State) (n : PortNo) (i : Nat) (b : Bus) (m : Announce) : Port :=
  Port.settle s.env (s.port n) ((s.port n).opened (boundSession i b (announceValues m) s.now) (s.port n).claimed
    (s.port n).flags (if s.protection.latch = true then .held else .connected))

theorem State.boundPort_eq (s : State) (n : PortNo) (i : Nat) (b : Bus) (m : Announce) : s.boundPort n i b m =
    Port.settle s.env (s.port n) ((s.port n).opened (boundSession i b (announceValues m) s.now) (s.port n).claimed
      (s.port n).flags (if s.protection.latch = true then .held else .connected)) := by
  rw [State.boundPort]

theorem State.bindSession_eq (hb : s.bus i = some b) : s.bindSession n i b m =
    (State.reportFaultLevel n i { s with
      ports := s.ports.set n (s.boundPort n i b m)
      buses := s.buses.put i (b.bindTo n s.site.live.soeTolerance m) }).selection i := by
  have hport : s.updPort n (fun p => (p.openWith (boundSession i b (announceValues m) s.now)).enter s.openState)
      = s.withPort n (s.boundPort n i b m) := by
    rw [State.boundPort_eq]
    rfl
  have hbus : (s.withPort n (s.boundPort n i b m)).bus i = some b := hb
  rw [State.bindSession, hport, State.modBus_some hbus]
  rfl

theorem State.reportFaultLevel_eq (u : State) {l : PilotLevel} (h : (u.port n).taken = l) :
    u.reportFaultLevel n i = if l = .fault then u.blockBus i .pilotFault else u := by
  rw [State.reportFaultLevel, h]

theorem State.boundPort_taken : (s.boundPort n i b m).taken = (s.port n).taken := by
  rw [State.boundPort_eq, Port.settle_taken]
  rfl

theorem State.boundPort_record (hi : (s.port n).state = .identifying) :
    s.boundPort n i b m = { (s.port n).timersOf (s.boundPort n i b m) with
      state := if s.protection.latch then .held else .connected
      session := some (boundSession i b (announceValues m) s.now)
      sessionImport := 0, sessionExport := 0, stray := 0, wrongRun := 0, lastApplied := none
      pendingTarget := none, faultCode := none }
    ∧ (s.boundPort n i b m).answer = .stopped := by
  have h := Port.settle_opened (e := s.env) (p := s.port n) (x := boundSession i b (announceValues m) s.now)
    (claimed := (s.port n).claimed) (flags := (s.port n).flags) s.protection.latch (by rw [hi]; exact PortState.noConfusion)
  rw [← State.boundPort_eq] at h
  exact h

theorem boundSession_eq (i : Nat) (b : Bus) (m : Announce) (now : Nat) : boundSession i b (announceValues m) now =
    ⟨.bound i, now, some ⟨m.maxImport.toNat, m.maxExport.toNat, m.v2g != 0⟩, min b.importCap m.maxImport.toNat,
      if b.v2g = true ∧ m.v2g ≠ 0 then min b.exportCap m.maxExport.toNat else 0⟩ := by
  simp only [boundSession, announceValues, sessionCaps, Bool.and_eq_true, bne_iff_ne]

end BindSession

/-- Settles O28: the port's record, the bus's record field by field, and the event after them. -/
theorem announceBindsTheSession : Obligations.AnnounceBindsTheSession := by
  intro n m s i b p report known clamped apart mismatch hi hn hf hb hl
  obtain ⟨record, answer⟩ := State.boundPort_record (i := i) (b := b) (m := m) hi
  rw [boundSession_eq] at record
  obtain ⟨reported, unreported, discrepancy, kept⟩ := b.bindTo_report n s.site.live.soeTolerance m
  obtain ⟨hplugged, hapart, hmismatch, hclamped⟩ := b.bindTo_raises n s.site.live.soeTolerance m
  refine ⟨s.boundPort n i b m, b.bindTo n s.site.live.soeTolerance m, ?_, record, answer, ?_, reported, unreported,
    discrepancy, kept, hplugged, hapart, hmismatch, hclamped⟩
  · refine (exec_announce_waiting hn hi).trans (congrArg _ ?_)
    rw [State.judgeAnnounce_found hf, if_neg (not_not.2 hl), State.bindSession_eq hb]
    refine congrArg (fun u : State => u.selection i) (State.reportFaultLevel_eq _ ?_)
    exact (congrArg Port.taken (s.withPort_port n (s.boundPort n i b m))).trans State.boundPort_taken
  · rw [Bus.bindTo_eq]

end Sys2Proof.Machine
end

section
/-! The identification exchange: LIMIT and FAULT_REPORT in a session (O29), and what is discarded and counted (O30). -/

namespace Sys2Proof.Machine

open Sys2Proof

/-! ### LIMIT in a bound session -/

section Caps

variable {p : Port} (c : Bus)

theorem Port.reformCaps_held_none (h : p.held.dir = .none) : (p.reformCaps c).held = p.held := by
  have hi : (p.reformed c).held.dir ≠ .imp := by rw [show (p.reformed c).held = p.held from rfl, h]; exact Dir.noConfusion
  have he : (p.reformed c).held.dir ≠ .exp := by rw [show (p.reformed c).held = p.held from rfl, h]; exact Dir.noConfusion
  rw [Port.reformCaps_eq, Port.capTo_held_other hi, Port.capTo_held_other he]
  rfl

theorem Port.reformCaps_held_imp (h : p.held.dir = .imp) : (p.reformCaps c).held =
    if (p.reformed c).sessionImportCap < p.held.mag
    then .make .imp ((p.reformed c).sessionImportCap / 100 * 100) else p.held := by
  have hcap := Port.capTo_held_same (d := .imp) (cap := (p.reformed c).sessionImportCap) (q := p.reformed c) h
  have hne : ((p.reformed c).capTo .imp (p.reformed c).sessionImportCap).held.dir ≠ .exp := by
    rw [hcap]
    split
    · exact Setpoint.make_not_exp _
    · rw [show (p.reformed c).held = p.held from rfl, h]; exact Dir.noConfusion
  rw [Port.reformCaps_eq, Port.capTo_held_other hne, hcap]
  rfl

theorem Port.reformCaps_held_exp (h : p.held.dir = .exp) : (p.reformCaps c).held =
    if (p.reformed c).sessionExportCap < p.held.mag
    then .make .exp ((p.reformed c).sessionExportCap / 100 * 100) else p.held := by
  have hne : (p.reformed c).held.dir ≠ .imp := by
    rw [show (p.reformed c).held = p.held from rfl, h]; exact Dir.noConfusion
  have hcap := Port.capTo_held_same (d := .exp) (cap := (p.reformed c).sessionExportCap) (q := p.reformed c) h
  rw [Port.reformCaps_eq, Port.capTo_held_other hne]
  exact hcap

theorem Port.reformCaps_fields : p.reformCaps c = { p with
    session := p.session.map (Session.reform c), held := (p.reformCaps c).held } := by
  rw [Port.reformCaps_eq, Port.capTo_eq, Port.capTo_eq]
  rfl

end Caps

section Limit

variable {s : State} {n : PortNo} {x : Session} {i : Nat} {a : Announced} {b : Bus} {maxImport maxExport : Word}

theorem Port.boundSlot_some {p : Port} (hs : p.session = some x) (hx : x.binding = .bound i) : p.boundSlot = some i := by
  simp only [Port.boundSlot, hs, hx]

theorem Port.boundSlot_unidentified {p : Port} {why : UnidReason} (hs : p.session = some x)
    (hx : x.binding = .unidentified why) : p.boundSlot = none := by
  simp only [Port.boundSlot, hs, hx]

theorem exec_limit_bound (hs : (s.port n).session = some x) (hx : x.binding = .bound i) :
    exec (.limit n maxImport maxExport) s = .next (s.limitBus n i maxImport.toNat maxExport.toNat) := by
  have h : exec (.limit n maxImport maxExport) s = execLimit n maxImport maxExport s := rfl
  have he : (s.port n).exchange = .session := Port.exchange_session (by rw [hs]; exact Option.some_ne_none x)
  simp only [h, execLimit, he, Port.boundSlot_some hs hx]

theorem exec_limit_unidentified {why : UnidReason} (hs : (s.port n).session = some x) (hx : x.binding = .unidentified why) :
    exec (.limit n maxImport maxExport) s = .next (s.setPort n Port.discard) := by
  have h : exec (.limit n maxImport maxExport) s = execLimit n maxImport maxExport s := rfl
  have he : (s.port n).exchange = .session := Port.exchange_session (by rw [hs]; exact Option.some_ne_none x)
  simp only [h, execLimit, he, Port.boundSlot_unidentified hs hx]

/-- The session with the values of a LIMIT and the caps formed from them. -/
def Session.limited (b : Bus) (a : Announced) (maxImport maxExport : Nat) (x : Session) : Session :=
  { x with
    announced := some ⟨maxImport, maxExport, a.v2g⟩
    importCap := min b.importCap maxImport
    exportCap := if b.v2g = true ∧ a.v2g = true then min b.exportCap maxExport else 0 }

theorem Session.reform_limitTo (ha : x.announced = some a) (maxImport maxExport : Nat) :
    (x.limitTo maxImport maxExport).reform b = x.limited b a maxImport maxExport := by
  rw [Session.reform_eq, Session.limitTo, ha]
  rfl

/-- The record of a port with the values of a LIMIT in its session. -/
def Port.heldTo (maxImport maxExport : Nat) (p : Port) : Port :=
  { p with session := p.session.map (Session.limitTo maxImport maxExport) }

/-- The settled record of a port that takes a LIMIT. -/
def Port.limited (e : PortEnv) (b : Bus) (maxImport maxExport : Nat) (p : Port) : Port :=
  Port.settle e p ((p.heldTo maxImport maxExport).reformCaps b)

theorem Port.limited_eq (e : PortEnv) (b : Bus) (u v : Nat) (p : Port) :
    p.limited e b u v = Port.settle e p ((p.heldTo u v).reformCaps b) := rfl

theorem State.limitBus_eq (hb : s.bus i = some b) (u v : Nat) :
    s.limitBus n i u v = s.withPort n ((s.port n).limited s.env b u v) := by
  have h : s.limitBus n i u v = s.updPort n fun p => (p.heldTo u v).reformCaps b := by
    simp only [State.limitBus, hb]
    rfl
  rw [h, State.updPort_eq, Port.limited_eq, State.withPort]

variable {e : PortEnv} {p : Port} {u v : Nat}

theorem Port.reformed_heldTo (hs : p.session = some x) (ha : x.announced = some a) :
    (p.heldTo u v).reformed b = { p with session := some (x.limited b a u v) } := by
  rw [Port.reformed, Port.heldTo, hs, ← Session.reform_limitTo ha]
  rfl

/-- The settled record of a change of the session and the held setpoint. -/
theorem Port.settle_session_held {q : Port} {y : Option Session} (hq : q = { p with session := y, held := q.held }) :
    Port.settle e p q = { p.timersOf (Port.settle e p q) with
      session := y
      held := (Port.settle e p q).held, lastDir := (Port.settle e p q).lastDir
      zeroSince := (Port.settle e p q).zeroSince, frameCount := (Port.settle e p q).frameCount
      frameTimer := (Port.settle e p q).frameTimer, lastFrame := (Port.settle e p q).lastFrame } := by
  have hframe := Port.settle_frame e p q
  have hheld := Port.settle_held e p q
  generalize Port.settle e p q = r at hframe hheld ⊢
  generalize hg : q.held = g at hq hheld
  subst hq
  rw [hheld]
  exact hframe

theorem Port.limited_fields (hs : p.session = some x) (ha : x.announced = some a) : p.limited e b u v =
    { p.timersOf (p.limited e b u v) with
      session := some (x.limited b a u v)
      held := (p.limited e b u v).held, lastDir := (p.limited e b u v).lastDir
      zeroSince := (p.limited e b u v).zeroSince, frameCount := (p.limited e b u v).frameCount
      frameTimer := (p.limited e b u v).frameTimer, lastFrame := (p.limited e b u v).lastFrame } := by
  have hsession : (p.heldTo u v).session.map (Session.reform b) = some (x.limited b a u v) :=
    (congrArg Port.session (Port.reformed_heldTo hs ha) :)
  have hq : (p.heldTo u v).reformCaps b = { p with
      session := some (x.limited b a u v), held := ((p.heldTo u v).reformCaps b).held } := by
    have hr := Port.reformCaps_fields b (p := p.heldTo u v)
    rw [hsession] at hr
    exact hr
  have hf := Port.settle_session_held (e := e) hq
  rw [← Port.limited_eq] at hf
  exact hf

/-- R104: a held setpoint above its cap is lowered to down100 of the cap; any other stays. -/
theorem Port.limited_held (hs : p.session = some x) (ha : x.announced = some a) :
    (p.held.dir = .imp → min b.importCap u < p.held.mag →
      (p.limited e b u v).held = .make .imp (min b.importCap u / 100 * 100))
    ∧ (p.held.dir = .exp → (if b.v2g = true ∧ a.v2g = true then min b.exportCap v else 0) < p.held.mag →
      (p.limited e b u v).held
        = .make .exp ((if b.v2g = true ∧ a.v2g = true then min b.exportCap v else 0) / 100 * 100))
    ∧ ((p.held.dir = .imp → p.held.mag ≤ min b.importCap u) →
      (p.held.dir = .exp → p.held.mag ≤ if b.v2g = true ∧ a.v2g = true then min b.exportCap v else 0) →
      (p.limited e b u v).held = p.held) := by
  have hr := Port.reformed_heldTo (b := b) (u := u) (v := v) hs ha
  have himport : ((p.heldTo u v).reformed b).sessionImportCap = min b.importCap u := by rw [hr]; rfl
  have hexport : ((p.heldTo u v).reformed b).sessionExportCap
      = if b.v2g = true ∧ a.v2g = true then min b.exportCap v else 0 := by rw [hr]; rfl
  have hheld : (p.limited e b u v).held = ((p.heldTo u v).reformCaps b).held := by
    rw [Port.limited_eq, Port.settle_held]
  rw [hheld]
  have hsame : (p.heldTo u v).held = p.held := rfl
  refine ⟨fun hd hm => ?_, fun hd hm => ?_, fun hi he => ?_⟩
  · rw [Port.reformCaps_held_imp b (p := p.heldTo u v) hd, himport, hsame, if_pos hm]
  · rw [Port.reformCaps_held_exp b (p := p.heldTo u v) hd, hexport, hsame, if_pos hm]
  · cases hd : p.held.dir with
    | none => exact Port.reformCaps_held_none b (p := p.heldTo u v) hd
    | imp => rw [Port.reformCaps_held_imp b (p := p.heldTo u v) hd, himport, hsame, if_neg (Nat.not_lt.2 (hi hd))]
    | exp => rw [Port.reformCaps_held_exp b (p := p.heldTo u v) hd, hexport, hsame, if_neg (Nat.not_lt.2 (he hd))]

end Limit

section Report

variable {s : State} {n : PortNo} {x : Session} {i : Nat} {code : Byte}

theorem exec_faultReport_bound (hs : (s.port n).session = some x) (hx : x.binding = .bound i) :
    exec (.faultReport n code) s
      = .next ((s.setPort n (Port.storeReport code.toNat s.now)).blockBus i .busReported) := by
  have h : exec (.faultReport n code) s = execFaultReport n code s := rfl
  have he : (s.port n).exchange = .session := Port.exchange_session (by rw [hs]; exact Option.some_ne_none x)
  simp only [h, execFaultReport, he, Port.boundSlot_some hs hx]

theorem exec_faultReport_unidentified {why : UnidReason} (hs : (s.port n).session = some x)
    (hx : x.binding = .unidentified why) : exec (.faultReport n code) s
      = .next (s.updPort n (Port.reportUnidentified code.toNat s.now)) := by
  have h : exec (.faultReport n code) s = execFaultReport n code s := rfl
  have he : (s.port n).exchange = .session := Port.exchange_session (by rw [hs]; exact Option.some_ne_none x)
  simp only [h, execFaultReport, he, Port.boundSlot_unidentified hs hx]

theorem Port.reportUnidentified_eq {p : Port} (hs : p.session = some x) (code now : Nat) :
    p.reportUnidentified code now = { p with
      held := .zero, lastFault := some ⟨code, now⟩, session := some { x with importCap := 0 } } := by
  rw [Port.reportUnidentified, hs]
  rfl

/-- The settled record of a report in an unidentified session. -/
theorem Port.settle_reportUnidentified {e : PortEnv} {p : Port} (hs : p.session = some x) (code now : Nat) :
    let r := Port.settle e p (p.reportUnidentified code now)
    p.PowerOff e.now r ∧ r.lastFault = some ⟨code, now⟩ ∧ r.session = some { x with importCap := 0 }
      ∧ r.state = p.state ∧ r.discards = p.discards ∧ r.command = p.command := by
  rw [Port.reportUnidentified_eq hs]
  refine ⟨Port.settle_powerOff e p _ rfl rfl rfl rfl, ?_, Port.settle_session .., Port.settle_state .., ?_,
    Port.settle_command ..⟩
  · rw [Port.settle_eq]
  · exact (Port.settle_exchange e p _).2.2.1

end Report

/-- Settles O29: LIMIT and FAULT_REPORT by the binding of the session. -/
theorem limitAndFaultReportInSession : Obligations.LimitAndFaultReportInSession := by
  intro n maxImport maxExport code s x p hs
  refine ⟨fun i a b hx ha hb => ?limit, fun i hx => ?bound, fun why hx => ?unidentified⟩
  case limit =>
    have hrun : exec (.limit n maxImport maxExport) s
        = .next (s.withPort n (p.limited s.env b maxImport.toNat maxExport.toNat)) :=
      (exec_limit_bound hs hx).trans (congrArg _ (State.limitBus_eq hb ..))
    exact ⟨_, hrun, Port.limited_fields hs ha, Port.limited_held hs ha⟩
  case bound => exact exec_faultReport_bound hs hx
  case unidentified =>
    exact ⟨Port.settle s.env p (p.reportUnidentified code.toNat s.now),
      (exec_faultReport_unidentified hs hx).trans (congrArg _ (State.updPort_eq ..)),
      Port.settle_reportUnidentified (e := s.env) hs code.toNat s.now⟩

/-! ### Discards and counts -/

section Discards

variable {s : State} {n : PortNo} {m : Announce} {maxImport maxExport : Word} {code : Byte}

theorem exec_announce (n : PortNo) (m : Announce) (s : State) : exec (.announce n m) s = match (s.port n).exchange with
    | .idle => .next s
    | .waiting => .next (s.judgeAnnounce n m)
    | .session => .next (s.setPort n Port.discard) := rfl

theorem exec_limit_idle (h : (s.port n).exchange = .idle) : exec (.limit n maxImport maxExport) s = .next s := by
  have hx : exec (.limit n maxImport maxExport) s = execLimit n maxImport maxExport s := rfl
  rw [hx, execLimit, h]

theorem exec_limit_waiting (h : (s.port n).exchange = .waiting) :
    exec (.limit n maxImport maxExport) s = .next (s.setPort n Port.discard) := by
  have hx : exec (.limit n maxImport maxExport) s = execLimit n maxImport maxExport s := rfl
  rw [hx, execLimit, h]

theorem exec_faultReport_idle (h : (s.port n).exchange = .idle) : exec (.faultReport n code) s = .next s := by
  have hx : exec (.faultReport n code) s = execFaultReport n code s := rfl
  rw [hx, execFaultReport, h]

theorem exec_faultReport_waiting (h : (s.port n).exchange = .waiting) :
    exec (.faultReport n code) s = .next (s.setPort n Port.discard) := by
  have hx : exec (.faultReport n code) s = execFaultReport n code s := rfl
  rw [hx, execFaultReport, h]

end Discards

/-- Settles O30: by the exchange state of the port, and by whether it reads its data channel. -/
theorem discardsAreCounted : Obligations.DiscardsAreCounted := by
  intro n m maxImport maxExport code s p counted unread
  refine ⟨fun hs => ?session, fun hi hn => ⟨?_, ?_⟩, fun x why hs hx => ?unidentified, fun hi hn => ⟨?_, ?_, ?_⟩,
    fun hr => ⟨if_pos ((Port.reads_iff p).2 hr), if_pos ((Port.reads_iff p).2 hr)⟩,
    fun hr => ⟨if_neg fun h => (Port.reads_iff p).1 h hr, if_neg fun h => (Port.reads_iff p).1 h hr⟩⟩
  case session =>
    rw [exec_announce, Port.exchange_session hs]
    rfl
  case unidentified => exact exec_limit_unidentified hs hx
  · exact exec_limit_waiting (Port.exchange_waiting hn hi)
  · exact exec_faultReport_waiting (Port.exchange_waiting hn hi)
  · rw [exec_announce, Port.exchange_idle hn hi]
  · exact exec_limit_idle (Port.exchange_idle hn hi)
  · exact exec_faultReport_idle (Port.exchange_idle hn hi)

end Sys2Proof.Machine
end

section
/-! What every change of the state keeps beside the Moves relation: lists and plans in agreement, and the powers in their
ranges (for O58 and O59). The relation, its generators, and the Plan Table's chain. -/

namespace Sys2Proof.Machine

open Sys2Proof

/-! ### Powers, with the sessions of one bus slot set aside -/

/-- `Session.CapsOk`, where the caps of a session bound to slot k need not follow the record. -/
structure Session.CapsBut (k : Option Nat) (s : State) (x : Session) : Prop where
  range : x.importCap ≤ 150000 ∧ x.exportCap ≤ 60000
  bound : ∀ i a b, x.binding = .bound i → some i ≠ k → x.announced = some a → s.bus i = some b →
            x.importCap = min b.importCap a.maxImport
            ∧ x.exportCap = if b.v2g = true ∧ a.v2g = true then min b.exportCap a.maxExport else 0
  unid  : ∀ why, x.binding = .unidentified why → x.importCap ≤ 22000 ∧ x.exportCap = 0

/-- The powers of a port record are in their ranges. -/
structure Port.Powered (k : Option Nat) (s : State) (p : Port) : Prop where
  held  : p.held.Ok
  frame : p.frameCount ≤ 65535
  caps  : ∀ x, p.session = some x → x.CapsBut k s

/-- The powers of the site and of the recorded results are in their ranges. -/
structure State.SitePowers (s : State) : Prop where
  staged  : ∀ n : PortNo, s.site.stagedRatings[n].Ok
  live    : ∀ n : PortNo, s.site.liveRatings[n].Ok
  trickle : s.site.staged.tricklePower ≤ 22000 ∧ s.site.live.tricklePower ≤ 22000
  tierA   : ∀ n : PortNo, s.engine.ports[n].tierA % 100 = 0

/-- `State.PowersOk`, with the sessions bound to slot k set aside. -/
structure State.PowersBut (k : Option Nat) (s : State) : Prop where
  site  : s.SitePowers
  buses : ∀ i b, s.bus i = some b → b.importCap ≤ 150000 ∧ b.exportCap ≤ 60000
  ports : ∀ n : PortNo, (s.port n).Powered k s

theorem State.powersBut_none (s : State) : s.PowersBut none ↔ s.PowersOk := by
  constructor
  · intro ⟨⟨staged, live, trickle, tierA⟩, buses, ports⟩
    exact ⟨staged, live, trickle, buses, tierA, fun n => (ports n).held,
      fun n x hx => let ⟨range, bound, unid⟩ := (ports n).caps x hx
        ⟨range, fun i a b hi => bound i a b hi (Option.some_ne_none i), unid⟩, fun n => (ports n).frame⟩
  · intro ⟨staged, live, trickle, buses, tierA, held, caps, frames⟩
    exact ⟨⟨staged, live, trickle, tierA⟩, buses, fun n => ⟨held n, frames n, fun x hx =>
      let ⟨range, bound, unid⟩ := caps n x hx
      ⟨range, fun i a b hi _ => bound i a b hi, unid⟩⟩⟩

/-- The fields of a bus record that lists and powers read. -/
structure Bus.SameCaps (b c : Bus) : Prop where
  importCap : c.importCap = b.importCap
  exportCap : c.exportCap = b.exportCap
  v2g       : c.v2g = b.v2g

theorem Bus.SameCaps.refl (b : Bus) : b.SameCaps b := ⟨rfl, rfl, rfl⟩

theorem Bus.SameCaps.of_caps {b c : Bus} (h : c = { b with
    number := c.number, capacity := c.capacity, floor := c.floor, allowance := c.allowance, exportUsed := c.exportUsed
    soe := c.soe, source := c.source, discrepancy := c.discrepancy, location := c.location, block := c.block
    faultReason := c.faultReason, faultTime := c.faultTime, faultCount := c.faultCount, departure := c.departure
    readiness := c.readiness, slack := c.slack, prioList := c.prioList, stdList := c.stdList, flags := c.flags }) :
    b.SameCaps c := by
  rw [h]
  exact ⟨rfl, rfl, rfl⟩

/-- Every bus of t stands in s with its caps. -/
def State.CapsFrom (s t : State) : Prop := ∀ i c, t.bus i = some c → ∃ b, s.bus i = some b ∧ b.SameCaps c

theorem State.CapsFrom.of_buses {s t : State} (h : t.buses = s.buses) : s.CapsFrom t := fun i c hc =>
  ⟨c, by rw [State.bus, ← h]; exact hc, Bus.SameCaps.refl c⟩

theorem Session.CapsBut.from {s t : State} {k : Option Nat} {x : Session} (h : x.CapsBut k s) (hb : s.CapsFrom t) :
    x.CapsBut k t := by
  refine ⟨h.range, fun i a c hi hk ha hc => ?_, h.unid⟩
  obtain ⟨b, hs, himp, hexp, hv⟩ := hb i c hc
  rw [himp, hexp, hv]
  exact h.bound i a b hi hk ha hs

theorem Port.Powered.from {s t : State} {k : Option Nat} {p : Port} (h : p.Powered k s) (hb : s.CapsFrom t) :
    p.Powered k t := ⟨h.held, h.frame, fun x hx => (h.caps x hx).from hb⟩

/-- A change of a port that keeps its powers in their ranges. -/
structure Port.Tamer (p q : Port) : Prop where
  held    : p.held.Ok → q.held.Ok
  frame   : p.frameCount ≤ 65535 → q.frameCount ≤ 65535
  session : ∀ x, q.session = some x → p.session = some x

theorem Port.Tamer.refl (p : Port) : p.Tamer p := ⟨id, id, fun _ => id⟩

theorem Port.Tamer.trans {p q r : Port} (h : p.Tamer q) (k : q.Tamer r) : p.Tamer r :=
  ⟨k.held ∘ h.held, k.frame ∘ h.frame, fun x hx => h.session x (k.session x hx)⟩

/-- The held setpoint, the frame count and the session stay. -/
theorem Port.Tamer.same {p q : Port} (hh : q.held = p.held) (hf : q.frameCount = p.frameCount) (hs : q.session = p.session) :
    p.Tamer q :=
  ⟨fun h => by rw [hh]; exact h, fun h => by rw [hf]; exact h, fun x hx => by rw [← hs]; exact hx⟩

theorem Port.settle_frameCount (e : PortEnv) (p q : Port) : (Port.settle e p q).frameCount = q.frameCount
    ∨ (Port.settle e p q).frameCount ≤ 65535 := by
  by_cases h : q.live = p.live
  · exact .inl (Port.settle_quietFrame h)
  · rw [(Port.settle_sendsFrame h).1]
    exact .inr (Nat.le_of_lt_succ (Nat.mod_lt _ (by decide)))

theorem Port.Tamer.settled {p q : Port} (h : p.Tamer q) (e : PortEnv) (b : Port) : p.Tamer (Port.settle e b q) := by
  refine ⟨fun hp => ?_, fun hf => ?_, fun x hx => h.session x ?_⟩
  · rw [Port.settle_held]
    exact h.held hp
  · rcases Port.settle_frameCount e b q with hk | hk
    · rw [hk]
      exact h.frame hf
    · exact hk
  · rw [← Port.settle_session e b q]
    exact hx

theorem Port.Powered.tamer {s : State} {k : Option Nat} {p q : Port} (h : p.Powered k s) (ht : p.Tamer q) : q.Powered k s :=
  ⟨ht.held h.held, ht.frame h.frame, fun x hx => h.caps x (ht.session x hx)⟩

theorem Port.Powered.settled {s : State} {k : Option Nat} {q : Port} (h : q.Powered k s) (e : PortEnv) (b : Port) :
    (Port.settle e b q).Powered k s := h.tamer ((Port.Tamer.refl q).settled e b)

/-! ### Lists -/

/-- Lists that have only shrunk, over plans whose state has not come to need more, still agree. -/
theorem State.ListsAgree.shrink {s t : State} (h : s.ListsAgree)
    (hb : ∀ i c, t.bus i = some c → ∃ b, s.bus i = some b ∧ c.prioList.Sublist b.prioList ∧ c.stdList.Sublist b.stdList)
    (hp : ∀ i c j p, t.bus i = some c → j ∈ c.prioList ++ c.stdList → s.plan j = some p → p.busSlot = i →
      p.state.listed = true → ∃ q, t.plan j = some q ∧ q.busSlot = p.busSlot ∧ q.cls = p.cls ∧ q.state.listed = true)
    (hr : ∀ i c j k p q, t.bus i = some c → j ∈ c.prioList ++ c.stdList → k ∈ c.prioList ++ c.stdList →
      t.plan j = some p → t.plan k = some q → p.state = .running → q.state = .running → j = k) : t.ListsAgree := by
  intro i c hc
  obtain ⟨b, hs, hprio, hstd⟩ := hb i c hc
  obtain ⟨priority, standard, nodup, length, _⟩ := h i b hs
  have hsub : (c.prioList ++ c.stdList).Sublist (b.prioList ++ b.stdList) := hprio.append hstd
  refine ⟨fun j hj => ?_, fun j hj => ?_, nodup.sublist hsub, hsub.length_le.trans length,
    fun j k p q hj hk => hr i c j k p q hc hj hk⟩
  · obtain ⟨p, hpl, hslot, hcls, hl⟩ := priority j (hprio.subset hj)
    obtain ⟨q, hq, hqs, hqc, hql⟩ := hp i c j p hc (List.mem_append_left _ hj) hpl hslot hl
    exact ⟨q, hq, hqs.trans hslot, hqc.trans hcls, hql⟩
  · obtain ⟨p, hpl, hslot, hcls, hl⟩ := standard j (hstd.subset hj)
    obtain ⟨q, hq, hqs, hqc, hql⟩ := hp i c j p hc (List.mem_append_right _ hj) hpl hslot hl
    exact ⟨q, hq, hqs.trans hslot, hqc.trans hcls, hql⟩

/-- A change of a plan that keeps its place in the lists and does not make it RUNNING. -/
structure Plan.Rests (p q : Plan) : Prop where
  slot    : q.busSlot = p.busSlot
  cls     : q.cls = p.cls
  listed  : p.state.listed = true → q.state.listed = true
  running : q.state = .running → p.state = .running

theorem Plan.Rests.refl (p : Plan) : p.Rests p := ⟨rfl, rfl, id, id⟩

/-- The lists of every bus of t stand in s, at most shortened, and every listed plan rests. -/
theorem State.ListsAgree.rest {s t : State} (h : s.ListsAgree)
    (hb : ∀ i c, t.bus i = some c → ∃ b, s.bus i = some b ∧ c.prioList.Sublist b.prioList ∧ c.stdList.Sublist b.stdList)
    (hp : ∀ i c j p, t.bus i = some c → j ∈ c.prioList ++ c.stdList → s.plan j = some p → p.busSlot = i →
      p.state.listed = true → ∃ q, t.plan j = some q ∧ p.Rests q) : t.ListsAgree := by
  refine h.shrink hb (fun i c j p hc hj hpl hs hl => ?_) fun i c j k p q hc hj hk hpl hql hpr hqr => ?_
  · obtain ⟨q, hq, slot, cls, listed, _⟩ := hp i c j p hc hj hpl hs hl
    exact ⟨q, hq, slot, cls, listed hl⟩
  · obtain ⟨b, hs, hprio, hstd⟩ := hb i c hc
    have hsub : (c.prioList ++ c.stdList).Sublist b.listedPlans := hprio.append hstd
    have hbefore {x : Nat} {y : Plan} (hx : x ∈ c.prioList ++ c.stdList) (hy : t.plan x = some y)
        (hyr : y.state = .running) : ∃ z, s.plan x = some z ∧ z.state = .running := by
      obtain ⟨z, hz, hslot, hl⟩ := (h i b hs).plan (hsub.subset hx)
      obtain ⟨w, hw, hrest⟩ := hp i c x z hc hx hz hslot hl
      obtain rfl : y = w := Option.some.inj (hy.symm.trans hw)
      exact ⟨z, hz, hrest.running hyr⟩
    obtain ⟨p', hp', hpr'⟩ := hbefore hj hpl hpr
    obtain ⟨q', hq', hqr'⟩ := hbefore hk hql hqr
    exact (h i b hs).running j k p' q' (hsub.subset hj) (hsub.subset hk) hp' hq' hpr' hqr'

/-! ### The relation -/

/-- t is s after changes that keep lists and plans in agreement and the powers in their ranges. -/
structure State.Keeps (s t : State) : Prop where
  lists  : s.ListsAgree → t.ListsAgree
  powers : ∀ k, s.PowersBut k → t.PowersBut k

theorem State.Keeps.refl (s : State) : s.Keeps s := ⟨id, fun _ => id⟩

theorem State.Keeps.trans {s t u : State} (h : s.Keeps t) (k : t.Keeps u) : s.Keeps u :=
  ⟨k.lists ∘ h.lists, fun i => k.powers i ∘ h.powers i⟩

theorem State.Keeps.foldl {α : Type} (f : State → α → State) (h : ∀ (s : State) (a : α), s.Keeps (f s a)) (l : List α) :
    ∀ s : State, s.Keeps (l.foldl f s) := by
  induction l with
  | nil => exact State.Keeps.refl
  | cons a l ih => exact fun s => (h s a).trans (ih _)

/-- The lists of every bus stay, and the plans. -/
theorem State.ListsAgree.same {s t : State} (h : s.ListsAgree)
    (hb : ∀ i c, t.bus i = some c → ∃ b, s.bus i = some b ∧ c.prioList = b.prioList ∧ c.stdList = b.stdList)
    (hp : t.plans = s.plans) : t.ListsAgree := by
  refine h.rest (fun i c hc => ?_) fun i c j p _ _ hpl _ _ => ⟨p, ?_, Plan.Rests.refl p⟩
  · obtain ⟨b, hs, h1, h2⟩ := hb i c hc
    exact ⟨b, hs, by rw [h1], by rw [h2]⟩
  · rw [State.plan, hp]
    exact hpl

/-- The site and the recorded tier-A grants, as the powers read them. -/
def State.siteView (s : State) : Vector Ratings 24 × Vector Ratings 24 × Nat × Nat × Vector PortResult 24 :=
  (s.site.stagedRatings, s.site.liveRatings, s.site.staged.tricklePower, s.site.live.tricklePower, s.engine.ports)

theorem State.SitePowers.of_view {s t : State} (h : s.SitePowers) (hv : t.siteView = s.siteView) : t.SitePowers := by
  simp only [State.siteView, Prod.mk.injEq] at hv
  obtain ⟨hstaged, hlive, htrickle, htrickle', hports⟩ := hv
  refine ⟨fun n => ?_, fun n => ?_, ?_, fun n => ?_⟩
  · rw [hstaged]; exact h.staged n
  · rw [hlive]; exact h.live n
  · rw [htrickle, htrickle']; exact h.trickle
  · rw [hports]; exact h.tierA n

theorem State.PowersBut.from {s t : State} {k : Option Nat} (h : s.PowersBut k) (hv : t.siteView = s.siteView)
    (hb : s.CapsFrom t) (hp : ∀ n, (s.port n).Tamer (t.port n)) : t.PowersBut k := by
  refine ⟨h.site.of_view hv, fun i c hc => ?_, fun n => ((h.ports n).tamer (hp n)).from hb⟩
  obtain ⟨b, hs, himp, hexp, _⟩ := hb i c hc
  rw [himp, hexp]
  exact h.buses i b hs

/-- Nothing of the lists and the powers differs. -/
theorem State.Keeps.beside {s t : State} (hb : t.buses = s.buses) (hl : t.plans = s.plans) (hp : t.ports = s.ports)
    (hv : t.siteView = s.siteView) : s.Keeps t where
  lists h := h.same (fun i c hc => ⟨c, by rw [State.bus, ← hb]; exact hc, rfl, rfl⟩) hl
  powers _ h := h.from hv (State.CapsFrom.of_buses hb) fun n => by
    rw [State.port_of_ports hp]
    exact Port.Tamer.refl _

/-- A change of a bus record that keeps its caps and its lists. -/
structure Bus.Still (b c : Bus) : Prop extends b.SameCaps c where
  prio : c.prioList = b.prioList
  std  : c.stdList = b.stdList

theorem Bus.Still.refl (b : Bus) : b.Still b := ⟨Bus.SameCaps.refl b, rfl, rfl⟩

theorem Bus.Still.trans {b c d : Bus} (h : b.Still c) (k : c.Still d) : b.Still d :=
  ⟨⟨k.importCap.trans h.importCap, k.exportCap.trans h.exportCap, k.v2g.trans h.v2g⟩, k.prio.trans h.prio, k.std.trans h.std⟩

/-- Every bus of t stands in s, changed at most beside its caps and lists. -/
theorem State.Keeps.of_still {s t : State} (h : ∀ i c, t.bus i = some c → ∃ b, s.bus i = some b ∧ b.Still c)
    (hl : t.plans = s.plans) (hp : t.ports = s.ports) (hv : t.siteView = s.siteView) : s.Keeps t where
  lists hs := hs.same (fun i c hc => let ⟨b, hb, hstill⟩ := h i c hc; ⟨b, hb, hstill.prio, hstill.std⟩) hl
  powers _ hs := hs.from hv (fun i c hc => let ⟨b, hb, hstill⟩ := h i c hc; ⟨b, hb, hstill.toSameCaps⟩) fun n => by
    rw [State.port_of_ports hp]
    exact Port.Tamer.refl _

theorem State.Keeps.putBus {s : State} {i : Nat} {b : Bus} (c : Bus) (hb : s.bus i = some b) (h : b.Still c) :
    s.Keeps (s.putBus i c) := by
  refine .of_still (fun j d hd => ?_) rfl rfl rfl
  rw [State.bus_putBus] at hd
  split at hd
  next hj => cases hd; exact ⟨b, by rw [hj]; exact hb, h⟩
  next => exact ⟨d, hd, Bus.Still.refl d⟩

theorem State.Keeps.modBus {s : State} (i : Nat) (f : Bus → Bus) (h : ∀ b : Bus, b.Still (f b)) : s.Keeps (s.modBus i f) := by
  cases hb : s.bus i with
  | none =>
    rw [State.modBus, hb]
    exact .refl s
  | some b =>
    rw [State.modBus_some hb]
    exact .putBus _ hb (h b)

theorem State.Keeps.mapBuses {s : State} (f : Nat → Bus → Bus) (h : ∀ (k : Nat) (b : Bus), b.Still (f k b)) :
    s.Keeps { s with buses := ⟨s.buses.rows.map fun r => (r.1, f r.1 r.2)⟩ } := by
  refine .of_still (fun i c hc => ?_) rfl rfl rfl
  have hget := (Table.get_map s.buses f i).symm.trans hc
  obtain ⟨b, hb, rfl⟩ := Option.map_eq_some_iff.1 hget
  exact ⟨b, hb, h i b⟩

/-- A plan's record changes. -/
theorem State.Keeps.modPlan {s : State} (i : Nat) (f : Plan → Plan) (h : ∀ p : Plan, p.Rests (f p)) : s.Keeps (s.modPlan i f) where
  lists hs := by
    refine hs.rest (fun j c hc => ⟨c, by rw [← hc, State.bus_modPlan], List.Sublist.refl _, List.Sublist.refl _⟩)
      fun j c k p _ _ hp _ _ => ?_
    rw [State.plan_modPlan, hp]
    split
    · exact ⟨f p, rfl, h p⟩
    · exact ⟨p, rfl, Plan.Rests.refl p⟩
  powers _ hs := by
    refine hs.from ?_ (State.CapsFrom.of_buses (modPlan_buses s i f)) fun n => ?_
    · simp only [State.siteView, modPlan_site, modPlan_engine]
    · rw [State.port_of_ports (modPlan_ports s i f)]
      exact Port.Tamer.refl _

theorem State.Keeps.putPlan {s : State} {i : Nat} {p : Plan} (q : Plan) (hp : s.plan i = some p) (h : p.Rests q) :
    s.Keeps (s.putPlan i q) where
  lists hs := by
    refine hs.rest (fun j c hc => ⟨c, hc, List.Sublist.refl _, List.Sublist.refl _⟩) fun j c k r _ _ hr _ _ => ?_
    rw [State.plan_putPlan]
    split
    next hk => rw [hk, hp] at hr; cases hr; exact ⟨q, rfl, h⟩
    next => exact ⟨r, hr, Plan.Rests.refl r⟩
  powers _ hs := hs.from rfl (State.CapsFrom.of_buses rfl) fun _ => Port.Tamer.refl _

/-- Port records change within the ranges. -/
theorem State.Keeps.ports {s t : State} (hb : t.buses = s.buses) (hl : t.plans = s.plans) (hv : t.siteView = s.siteView)
    (h : ∀ n k, s.PowersBut k → (t.port n).Powered k s) : s.Keeps t where
  lists hs := hs.same (fun i c hc => ⟨c, by rw [State.bus, ← hb]; exact hc, rfl, rfl⟩) hl
  powers k hs := by
    have hfrom : s.CapsFrom t := State.CapsFrom.of_buses hb
    refine ⟨hs.site.of_view hv, fun i c hc => ?_, fun n => (h n k hs).from hfrom⟩
    exact hs.buses i c (by rw [State.bus, ← hb]; exact hc)

theorem State.Keeps.setPort {s : State} (n : PortNo) (f : Port → Port) (h : (s.port n).Tamer (f (s.port n))) :
    s.Keeps (s.setPort n f) := by
  refine .ports rfl rfl rfl fun m k hs => ?_
  rw [State.port_setPort]
  split
  · exact (hs.ports n).tamer h
  · exact hs.ports m

theorem State.Keeps.updPortWith {s : State} (n : PortNo) (f : Port → Port)
    (h : ∀ k, s.PowersBut k → (f (s.port n)).Powered k s) : s.Keeps (s.updPort n f) := by
  refine .ports rfl rfl rfl fun m k hs => ?_
  rw [State.port_updPort]
  split
  · exact (h k hs).settled _ _
  · exact hs.ports m

theorem State.Keeps.updPort {s : State} (n : PortNo) (f : Port → Port) (h : (s.port n).Tamer (f (s.port n))) :
    s.Keeps (s.updPort n f) := State.Keeps.updPortWith n f fun _ hs => (hs.ports n).tamer h

theorem State.port_updPorts (s : State) (f : PortNo → Port → Port) (n : PortNo) :
    (s.updPorts f).port n = Port.settle s.env (s.port n) (f n (s.port n)) := by
  simp only [State.port, updPorts_ports, Fin.getElem_fin, Vector.getElem_ofFn]

theorem State.Keeps.updPortsWith {s : State} (f : PortNo → Port → Port)
    (h : ∀ n k, s.PowersBut k → (f n (s.port n)).Powered k s) : s.Keeps (s.updPorts f) := by
  refine .ports (updPorts_buses s f) (updPorts_plans s f) (by simp only [State.siteView, updPorts_site, updPorts_engine])
    fun n k hs => ?_
  rw [State.port_updPorts]
  exact (h n k hs).settled _ _

theorem State.Keeps.updPorts {s : State} (f : PortNo → Port → Port) (h : ∀ n, (s.port n).Tamer (f n (s.port n))) :
    s.Keeps (s.updPorts f) := .updPortsWith f fun n _ hs => (hs.ports n).tamer (h n)

theorem State.register_keeps (s : State) (k : RegKind) (i t : Nat) : s.Keeps (s.register k i t) := by
  rw [State.register_eq]
  exact .beside rfl rfl rfl rfl

theorem State.withdraw_keeps (s : State) (f : Registration → Bool) : s.Keeps (s.withdraw f) := .beside rfl rfl rfl rfl

theorem State.modCommit_keeps (s : State) (i : Nat) (f : Commitment → Commitment) : s.Keeps (s.modCommit i f) :=
  .beside (modCommit_buses s i f) (modCommit_plans s i f) (modCommit_ports s i f)
    (by simp only [State.siteView, modCommit_site, modCommit_engine])

end Sys2Proof.Machine
end

section
/-! What the shared operations keep of lists and powers: the Plan Table's chain, the Readiness Evaluator, sessions,
blocking faults and meter counts (for O58 and O59). -/

namespace Sys2Proof.Machine

open Sys2Proof

/-! ### Final plans -/

theorem State.bus_finalise {s : State} {i : Nat} {p : Plan} (hp : s.plan i = some p) (st : PlanState) (o : PlanOutcome)
    (j : Nat) : (s.finalise i st o).bus j = if j = p.busSlot then (s.bus j).map (Bus.unlist i) else s.bus j := by
  simp only [State.finalise, hp, State.withdrawPlan, State.bus_withdraw, State.bus_modBus, State.bus_putPlan]

theorem Bus.unlist_sublist (i : Nat) (b : Bus) :
    (b.unlist i).prioList.Sublist b.prioList ∧ (b.unlist i).stdList.Sublist b.stdList :=
  ⟨List.filter_sublist, List.filter_sublist⟩

theorem Bus.not_mem_unlist (i : Nat) (b : Bus) : i ∉ (b.unlist i).prioList ++ (b.unlist i).stdList := by
  rw [List.mem_append, Bus.unlist, List.mem_filter, List.mem_filter]
  simp

theorem State.ListsAgree.finalise {s : State} (h : s.ListsAgree) {i : Nat} {p : Plan} (hp : s.plan i = some p)
    (st : PlanState) (o : PlanOutcome) : (s.finalise i st o).ListsAgree := by
  refine h.rest (fun j c hc => ?_) fun j c k q hc hk hq hs _ => ⟨q, ?_, Plan.Rests.refl q⟩
  · rw [State.bus_finalise hp] at hc
    split at hc
    · obtain ⟨b, hb, rfl⟩ := Option.map_eq_some_iff.1 hc
      exact ⟨b, hb, b.unlist_sublist i⟩
    · exact ⟨c, hc, List.Sublist.refl _, List.Sublist.refl _⟩
  · have hne : k ≠ i := by
      rintro rfl
      obtain rfl : p = q := Option.some.inj (hp.symm.trans hq)
      rw [State.bus_finalise hp, if_pos hs.symm] at hc
      obtain ⟨b, _, rfl⟩ := Option.map_eq_some_iff.1 hc
      exact b.not_mem_unlist k hk
    rw [State.finalise_plan hp, if_neg hne]
    exact hq

theorem State.finalise_keeps (s : State) (i : Nat) (st : PlanState) (o : PlanOutcome) : s.Keeps (s.finalise i st o) := by
  cases hp : s.plan i with
  | none =>
    rw [State.finalise, hp]
    exact .refl s
  | some p =>
    have hrest := State.finalise_rest s i st o
    refine ⟨fun h => h.finalise hp st o, fun k h => h.from ?_ (fun j c hc => ?_) fun n => ?_⟩
    · rw [hrest]
      rfl
    · rw [State.bus_finalise hp] at hc
      split at hc
      · obtain ⟨b, hb, rfl⟩ := Option.map_eq_some_iff.1 hc
        exact ⟨b, hb, ⟨rfl, rfl, rfl⟩⟩
      · exact ⟨c, hc, Bus.SameCaps.refl c⟩
    · rw [hrest]
      exact Port.Tamer.refl _

/-! ### Setpoints that are lowered -/

theorem Setpoint.Ok.make {d : Dir} {w : Nat} (hw : w % 100 = 0) (hi : d = .imp → w ≤ 150000) (he : d = .exp → w ≤ 60000) :
    (Setpoint.make d w).Ok := by
  rw [Setpoint.make]
  split
  · exact Setpoint.Ok.zero
  · exact ⟨hw, hi, he⟩

theorem Port.zeroHeld_tamer (p : Port) : p.Tamer p.zeroHeld := ⟨fun _ => Setpoint.Ok.zero, id, fun _ => id⟩

theorem Port.zeroExport_tamer (p : Port) : p.Tamer p.zeroExport := by
  rw [Port.zeroExport]
  split
  · exact p.zeroHeld_tamer
  · exact .refl p

theorem Port.importToTierA_tamer {g : Nat} (hg : g % 100 = 0) (p : Port) : p.Tamer (p.importToTierA g) := by
  rw [Port.importToTierA]
  split
  next hd =>
    refine ⟨fun h => .make ?_ (fun _ => (Nat.min_le_left _ _).trans (h.imp hd)) nofun, id, fun _ => id⟩
    rcases Nat.le_total p.held.mag g with hm | hm
    · rw [Nat.min_eq_left hm]; exact h.whole
    · rw [Nat.min_eq_right hm]; exact hg
  next => exact .refl p

theorem State.tierAGrant_whole {s : State} {k : Option Nat} (h : s.PowersBut k) (n : PortNo) :
    s.tierAGrant n % 100 = 0 := h.site.tierA n

theorem State.releasePower_keeps (s : State) (b : Nat) : s.Keeps (s.releasePower b) := by
  unfold State.releasePower
  split
  · split
    next n _ =>
      exact .updPortWith n _ fun k h =>
        (h.ports n).tamer ((Port.importToTierA_tamer (State.tierAGrant_whole h n) _).trans (Port.zeroExport_tamer _))
    next => exact .refl s
  · exact .refl s

theorem State.dropPower_keeps (s : State) (i : Nat) : s.Keeps (s.dropPower i) := by
  unfold State.dropPower
  split
  · split
    · exact .updPort _ _ (Port.zeroHeld_tamer _)
    · exact .refl s
  · exact .refl s

theorem State.withdrawExport_keeps (s : State) (i : Nat) : s.Keeps (s.withdrawExport i) := by
  unfold State.withdrawExport
  split
  · split
    · exact .updPort _ _ (Port.zeroExport_tamer _)
    · exact .refl s
  · exact .refl s

/-! ### The Plan Table's chain -/

theorem Bus.raise_still (f : BitVec 10) (b : Bus) : b.Still (b.raise f) := ⟨⟨rfl, rfl, rfl⟩, rfl, rfl⟩

theorem Bus.raiseIf_still (c : Bool) (f : BitVec 10) (b : Bus) : b.Still (b.raiseIf c f) := by
  cases c
  · exact .refl b
  · exact b.raise_still f

theorem Bus.setReadiness_still (r : Readiness) (x : Option Int) (b : Bus) : b.Still (b.setReadiness r x) := by
  rw [Bus.setReadiness_eq]
  exact ⟨⟨rfl, rfl, rfl⟩, rfl, rfl⟩

theorem State.setCond_keeps (s : State) (i : Nat) (c : StepCond) : s.Keeps (s.setCond i c) :=
  .modPlan i _ fun _ => ⟨rfl, rfl, id, id⟩

theorem State.enterCondition_keeps (s : State) (b i : Nat) (bus : Bus) (st : PlanStep) :
    s.Keeps (s.enterCondition b i bus st) := by
  unfold State.enterCondition
  split
  · exact (s.setCond_keeps i _).trans (State.register_keeps ..)
  · split
    · exact (s.setCond_keeps i _).trans (.modBus _ _ fun c => c.raise_still _)
    · exact s.setCond_keeps i _

theorem State.registerHold_keeps (s : State) (i : Nat) (st : PlanStep) : s.Keeps (s.registerHold i st) := by
  unfold State.registerHold
  split
  · exact s.register_keeps ..
  · exact .refl s

theorem State.registerEndBy_keeps (s : State) (i : Nat) (st : PlanStep) : s.Keeps (s.registerEndBy i st) := by
  unfold State.registerEndBy
  split
  · exact s.register_keeps ..
  · exact .refl s

theorem State.beginStep_keeps (s : State) (b i : Nat) (bus : Bus) (st : PlanStep) : s.Keeps (s.beginStep b i bus st).1 := by
  unfold State.beginStep
  split
  · exact .refl s
  · have hhold := s.registerHold_keeps i st
    simp only
    split
    · exact (hhold.trans (State.finalise_keeps ..)).trans (State.releasePower_keeps ..)
    · exact (hhold.trans (State.registerEndBy_keeps ..)).trans (State.enterCondition_keeps ..)

theorem State.runningPlan_none {s : State} {b : Bus} (h : s.runningPlan b = none) {j : Nat} {p : Plan}
    (hj : j ∈ b.listedPlans) (hp : s.plan j = some p) : p.state ≠ .running := by
  have hno := List.find?_eq_none.1 h j hj
  rw [hp] at hno
  exact fun hs => hno (beq_iff_eq.2 hs)

/-- Where no plan of a bus is RUNNING, one of its listed plans may become it. -/
theorem State.ListsAgree.run {s : State} (h : s.ListsAgree) {b i : Nat} {bus : Bus} (hb : s.bus b = some bus)
    (hi : i ∈ bus.listedPlans) (hr : s.runningPlan bus = none) :
    (s.modPlan i fun p => { p with state := .running }).ListsAgree := by
  obtain ⟨p, hp, hslot, _⟩ := (h b bus hb).plan hi
  have hplan (j : Nat) : (s.modPlan i fun p => { p with state := .running }).plan j
      = if j = i then some { p with state := .running } else s.plan j := by
    rw [State.modPlan_some hp]
    exact State.plan_putPlan s i j _
  refine h.shrink (fun j c hc => ⟨c, by rw [← hc, State.bus_modPlan], List.Sublist.refl _, List.Sublist.refl _⟩)
    (fun j c k q _ _ hq hs hl => ?_) fun j c k l q r hc hk hl hq hrr hqr hrs => ?_
  · rw [hplan]
    split
    next hk => rw [hk, hp] at hq; cases hq; exact ⟨_, rfl, rfl, rfl, rfl⟩
    next => exact ⟨q, hq, rfl, rfl, hl⟩
  · rw [State.bus_modPlan] at hc
    rw [hplan] at hq hrr
    have hhome {x : Nat} (hx : x ∈ c.prioList ++ c.stdList) (hxi : x = i) : j = b ∧ c = bus := by
      obtain ⟨y, hy, hys, _⟩ := (h j c hc).plan hx
      rw [hxi, hp] at hy
      cases hy
      obtain rfl : j = b := hys.symm.trans hslot
      exact ⟨rfl, Option.some.inj (hc.symm.trans hb)⟩
    split at hq
    next hki =>
      obtain ⟨rfl, rfl⟩ := hhome hk hki
      split at hrr
      next hli => rw [hki, hli]
      next => exact absurd hrs (State.runningPlan_none hr hl hrr)
    next =>
      split at hrr
      next hli =>
        obtain ⟨rfl, rfl⟩ := hhome hl hli
        exact absurd hqr (State.runningPlan_none hr hk hq)
      next => exact (h j c hc).running k l q r hk hl hq hrr hqr hrs

theorem State.modPlan_powers (s : State) (i : Nat) (f : Plan → Plan) (k : Option Nat) (h : s.PowersBut k) :
    (s.modPlan i f).PowersBut k := by
  refine h.from ?_ (State.CapsFrom.of_buses (modPlan_buses s i f)) fun n => ?_
  · simp only [State.siteView, modPlan_site, modPlan_engine]
  · rw [State.port_of_ports (modPlan_ports s i f)]
    exact Port.Tamer.refl _

theorem State.selectPlan_keeps {s : State} {b : Nat} {bus : Bus} (hb : s.bus b = some bus) : s.Keeps (s.selectPlan bus).1 := by
  unfold State.selectPlan
  split
  next hc =>
    split
    next i rest hl =>
      have hi : i ∈ bus.listedPlans := by
        rw [hl]
        exact List.mem_cons_self
      exact ⟨fun h => h.run hb hi hc.2.2, s.modPlan_powers i _⟩
    next => exact .refl s
  next => exact .refl s

theorem State.withdrawPlan_keeps (s : State) (i : Nat) : s.Keeps (s.withdrawPlan i) := s.withdraw_keeps _

theorem State.endStep_keeps (s : State) (b i : Nat) (bus : Bus) (p : Plan) : s.Keeps (s.endStep b i bus p).1 := by
  have hrelease : s.Keeps ((s.withdrawPlan i).releasePower b) := (s.withdrawPlan_keeps i).trans (State.releasePower_keeps ..)
  unfold State.endStep
  simp only
  split
  · exact hrelease.trans (State.finalise_keeps ..)
  · split
    · exact hrelease.trans (.modPlan _ _ fun _ => ⟨rfl, rfl, fun _ => rfl, nofun⟩)
    · exact hrelease.trans (.modPlan _ _ fun _ => ⟨rfl, rfl, id, id⟩)

theorem planTask_keeps (b : Nat) (t : PlanTask) (s : State) : s.Keeps (planTask b t s).1 := by
  unfold planTask
  split
  · exact .refl s
  next bus hb =>
    cases t with
    | select => exact State.selectPlan_keeps hb
    | start i =>
      simp only
      split
      · split
        · exact s.beginStep_keeps ..
        · exact .refl s
      · exact .refl s
    | finish i =>
      simp only
      split
      · exact s.endStep_keeps ..
      · exact .refl s

theorem runTasks_keeps (b fuel : Nat) : ∀ (t : PlanTask) (s : State), s.Keeps (runTasks b fuel t s) := by
  induction fuel with
  | zero => exact fun _ s => .refl s
  | succ n ih =>
    intro t s
    have htask := planTask_keeps b t s
    rw [runTasks]
    split
    next s' t' he =>
      rw [he] at htask
      exact htask.trans (ih t' s')
    next s' he =>
      rw [he] at htask
      exact htask

theorem State.selection_keeps (s : State) (b : Nat) : s.Keeps (s.selection b) := runTasks_keeps b _ _ s

theorem State.stepEnd_keeps (s : State) (b i : Nat) : s.Keeps (s.stepEnd b i) := runTasks_keeps b _ _ s

theorem State.deadline_keeps (s : State) (b i : Nat) : s.Keeps (s.deadline b i) :=
  ((s.finalise_keeps ..).trans (State.releasePower_keeps ..)).trans (State.selection_keeps ..)

theorem State.testStep_keeps (s : State) (kinds : StepKind → Bool) (b : Nat) : s.Keeps (s.testStep kinds b) := by
  unfold State.testStep
  repeat' split
  all_goals first | exact .refl s | exact s.stepEnd_keeps ..

theorem State.preempt_keeps (s : State) (b : Nat) : s.Keeps (s.preempt b) := by
  unfold State.preempt
  repeat' split
  all_goals first | exact .refl s | exact s.stepEnd_keeps ..

theorem State.pauseRunning_keeps (s : State) (b : Nat) : s.Keeps (s.pauseRunning b) := by
  unfold State.pauseRunning
  split
  · exact .refl s
  · split
    · exact .refl s
    next i _ =>
      have hpause : s.Keeps (s.modPlan i fun p => { p with state := .paused, cond := none }) :=
        .modPlan i _ fun _ => ⟨rfl, rfl, fun _ => rfl, nofun⟩
      exact hpause.trans (State.withdrawPlan_keeps ..)

theorem State.finaliseAll_keeps (f : Nat → PlanState × PlanOutcome) (l : List Nat) (s : State) : s.Keeps (s.finaliseAll f l) :=
  State.Keeps.foldl _ (fun t j => t.finalise_keeps j _ _) l s

theorem State.returnWalk_keeps (s : State) (b : Nat) : s.Keeps (s.returnWalk b) := by
  cases hb : s.bus b with
  | none =>
    rw [State.returnWalk, hb]
    exact .refl s
  | some bus =>
    rw [State.returnWalk_eq hb]
    exact State.finaliseAll_keeps ..

end Sys2Proof.Machine
end

section
/-! What the shared operations keep of lists and powers: the Readiness Evaluator, the Reserve Unit, sessions, blocking
faults and meter counts (for O58 and O59). -/

namespace Sys2Proof.Machine

open Sys2Proof

/-! ### The Readiness Evaluator -/

theorem State.withdrawDeparture_keeps (s : State) (i : Nat) : s.Keeps (s.withdrawDeparture i) := s.withdraw_keeps _

theorem State.registerLockout_keeps (s : State) (i t : Nat) : s.Keeps (s.registerLockout i t) := by
  unfold State.registerLockout
  simp only
  split
  · exact s.register_keeps ..
  · exact .refl s

theorem State.registerDeparture_keeps (s : State) (i t : Nat) : s.Keeps (s.registerDeparture i t) :=
  (s.register_keeps ..).trans (State.registerLockout_keeps ..)

theorem Bus.afterTake_still (b : Bus) (d : Departure) : b.Still (b.afterTake d) := by
  have hd : b.Still { b with departure := some { d with state := .taken b.soe } } := ⟨⟨rfl, rfl, rfl⟩, rfl, rfl⟩
  exact (hd.trans (Bus.raise_still _ _)).trans (Bus.setReadiness_still _ _ _)

theorem State.takeCheck_keeps (s : State) (i : Nat) : s.Keeps (s.takeCheck i) := by
  cases hb : s.bus i with
  | none =>
    rw [State.takeCheck, hb]
    exact .refl s
  | some b =>
    have htake (d : Departure) : s.Keeps ((s.putBus i (b.afterTake d)).withdrawDeparture i) :=
      (State.Keeps.putBus _ hb (b.afterTake_still d)).trans (State.withdrawDeparture_keeps ..)
    rw [State.takeCheck, hb]
    simp only
    repeat' split
    all_goals first | exact .refl s | exact htake _ | exact .putBus _ hb (b.setReadiness_still _ _)

theorem State.awayIfPending_keeps (s : State) (i : Nat) : s.Keeps (s.awayIfPending i) := by
  refine .modBus i _ fun b => ?_
  repeat' split
  all_goals first | exact .refl b | exact b.setReadiness_still _ _

theorem State.withdrawIfIneligible_keeps (s : State) (i : Nat) : s.Keeps (s.withdrawIfIneligible i) := by
  unfold State.withdrawIfIneligible
  repeat' split
  all_goals first | exact .refl s | exact s.withdrawExport_keeps i

theorem Bus.closeDeficit_still (now g : Nat) (b : Bus) : b.Still (b.closeDeficit now g) := by
  unfold Bus.closeDeficit
  repeat' split
  all_goals first | exact .refl b | exact b.setReadiness_still _ _

theorem State.readinessCount_keeps (s : State) (i : Nat) : s.Keeps (s.readinessCount i) := by
  have hclose : s.Keeps (s.modBus i (Bus.closeDeficit s.now s.site.live.guardTime)) :=
    .modBus i _ (Bus.closeDeficit_still _ _)
  unfold State.readinessCount
  simp only
  repeat' split
  all_goals first | exact hclose | exact hclose.trans (State.withdrawExport_keeps ..)

/-! ### The Reserve Unit -/

theorem State.endCommit_keeps (s : State) (i : Nat) (o : CommitState) : s.Keeps (s.endCommit i o) :=
  (s.modCommit_keeps i _).trans (State.withdraw_keeps ..)

theorem State.interruptActive_keeps (s : State) : s.Keeps s.interruptActive := by
  unfold State.interruptActive
  split
  · exact s.endCommit_keeps ..
  · exact .refl s

theorem State.reserveReads_keeps (s : State) : s.Keeps s.reserveReads := .beside rfl rfl rfl rfl

theorem State.registerOffer_keeps (s : State) (i a b c : Nat) : s.Keeps (s.registerOffer i a b c) :=
  ((s.register_keeps ..).trans (State.register_keeps ..)).trans (State.register_keeps ..)

theorem State.reloadArmPoint_keeps (s : State) (lead i : Nat) (c : Commitment) : s.Keeps (s.reloadArmPoint lead i c) := by
  have hpoint : s.Keeps ((s.withdraw (ofKind .armPoint i)).modCommit i fun x =>
      { x with armPoint := armPointOf c.windowStart lead }) :=
    (s.withdraw_keeps _).trans (State.modCommit_keeps ..)
  unfold State.reloadArmPoint
  simp only
  split
  · exact ((hpoint.trans (State.register_keeps ..)).trans (State.withdraw_keeps ..)).trans (State.register_keeps ..)
  · exact hpoint.trans (State.modCommit_keeps ..)

/-! ### Blocking faults and session ends -/

theorem Bus.blockWith_still (r : FaultReason) (now : Nat) (b : Bus) : b.Still (b.blockWith r now) :=
  ⟨⟨rfl, rfl, rfl⟩, rfl, rfl⟩

theorem State.blockBus_keeps (s : State) (i : Nat) (r : FaultReason) : s.Keeps (s.blockBus i r) := by
  cases hb : s.bus i with
  | none =>
    rw [State.blockBus, hb]
    exact .refl s
  | some b =>
    rw [State.blockBus, hb]
    simp only
    split
    · exact ((State.Keeps.putBus _ hb (b.blockWith_still r s.now)).trans (State.returnWalk_keeps ..)).trans
        (State.dropPower_keeps ..)
    · exact .putBus _ hb ⟨⟨rfl, rfl, rfl⟩, rfl, rfl⟩

theorem State.detachBus_keeps (s : State) (i : Nat) (unplug : Bool) : s.Keeps (s.detachBus i unplug) := by
  have hleave : s.Keeps (s.modBus i fun b => { b with location := none }) :=
    .modBus i _ fun _ => ⟨⟨rfl, rfl, rfl⟩, rfl, rfl⟩
  have hraise := (hleave.trans (State.pauseRunning_keeps _ i)).trans (.modBus i (Bus.raise BusFlag.unplugged) (Bus.raise_still _))
  unfold State.detachBus
  simp only
  split
  · exact hraise.trans (State.takeCheck_keeps ..)
  · exact hraise.trans (State.awayIfPending_keeps ..)

theorem Port.dropSession_tamer (p : Port) : p.Tamer p.dropSession := by
  rw [Port.dropSession]
  split
  · exact .refl p
  · exact ⟨fun _ => Setpoint.Ok.zero, id, nofun⟩

theorem State.endSession_keeps (s : State) (n : PortNo) (unplug : Bool) (f : Port → Port)
    (h : (s.port n).dropSession.Tamer (f (s.port n).dropSession)) : s.Keeps (s.endSession n unplug f) := by
  have hport : s.Keeps (s.updPort n fun p => f p.dropSession) := .updPort n _ ((s.port n).dropSession_tamer.trans h)
  unfold State.endSession
  simp only
  split
  · exact hport.trans (State.detachBus_keeps ..)
  · exact hport

theorem Port.faultInto_tamer (code : PortFault) (now : Nat) (p : Port) : p.Tamer (p.faultInto code now) := by
  rw [Port.faultInto_eq]
  exact ⟨fun _ => Setpoint.Ok.zero, id, fun _ => id⟩

theorem State.portFault_keeps (s : State) (n : PortNo) (code : PortFault) : s.Keeps (s.portFault n code) := by
  unfold State.portFault
  split
  · exact .refl s
  · exact s.endSession_keeps n _ _ (Port.faultInto_tamer ..)

theorem Port.KeepsFigures.tamer {p q : Port} (h : p.KeepsFigures q) : p.Tamer q := by
  obtain ⟨held, _, _, frame, session, _⟩ := h
  exact .same held frame session

theorem State.closingEnd_keeps (s : State) (n : PortNo) : s.Keeps (s.closingEnd n) := by
  cases hg : (s.port n).pendingTarget with
  | none =>
    simp only [State.closingEnd, hg]
    exact .refl s
  | some g =>
    rw [State.closingEnd_eq hg]
    exact s.endSession_keeps n _ _ (Port.closingInto_keeps ..).tamer

theorem State.commandOpen_keeps (s : State) (n : PortNo) : s.Keeps (s.commandOpen n) := .updPort n _ (.same rfl rfl rfl)

theorem State.closingOpen_keeps (s : State) (n : PortNo) : s.Keeps (s.closingOpen n) := by
  unfold State.closingOpen
  split
  · exact s.closingEnd_keeps n
  · exact .refl s

theorem State.giveOpen_keeps (s : State) (n : PortNo) : s.Keeps (s.giveOpen n) :=
  (s.commandOpen_keeps n).trans (State.closingOpen_keeps ..)

theorem State.unplug_keeps (s : State) (n : PortNo) : s.Keeps (s.unplug n) := by
  rw [State.unplug_eq]
  exact s.endSession_keeps n _ _ (Port.unplugInto_keeps ..).tamer

/-! ### Sessions that open -/

/-- A port whose session alone becomes another, within its caps. -/
theorem Port.Powered.withSession {s : State} {k : Option Nat} {p q : Port} {x : Session} (h : p.Powered k s)
    (hh : q.held = p.held) (hf : q.frameCount = p.frameCount) (hs : q.session = some x) (hx : x.CapsBut k s) :
    q.Powered k s := by
  refine ⟨by rw [hh]; exact h.held, by rw [hf]; exact h.frame, fun y hy => ?_⟩
  obtain rfl : x = y := Option.some.inj (hs.symm.trans hy)
  exact hx

theorem Session.CapsBut.trickle {s : State} {k : Option Nat} {x : Session} {why : UnidReason} {w : Nat} (hw : w ≤ 22000)
    (hx : x.binding = .unidentified why) (hi : x.importCap = w) (he : x.exportCap = 0) : x.CapsBut k s := by
  refine ⟨⟨by rw [hi]; exact hw.trans (by decide), by rw [he]; exact Nat.zero_le _⟩, fun i a b hb => ?_, fun _ _ => ⟨?_, he⟩⟩
  · rw [hx] at hb
    cases hb
  · rw [hi]; exact hw

theorem State.openUnidentified_keeps (s : State) (n : PortNo) (reason : UnidReason) (claimed : Option Nat) :
    s.Keeps (s.openUnidentified n reason claimed) :=
  .updPortWith n _ fun _ h => (h.ports n).withSession (x := ⟨.unidentified reason, s.now, none, s.site.live.tricklePower, 0⟩)
    rfl rfl rfl (.trickle (w := s.site.live.tricklePower) h.site.trickle.2 rfl rfl rfl)

theorem boundSession_caps {s : State} {k : Option Nat} (h : s.PowersBut k) {i : Nat} {b : Bus} (hb : s.bus i = some b)
    (a : Announced) (now : Nat) : (boundSession i b a now).CapsBut k s := by
  obtain ⟨himp, hexp⟩ := h.buses i b hb
  have hcap : (sessionCaps b a).2 = if b.v2g = true ∧ a.v2g = true then min b.exportCap a.maxExport else 0 := by
    simp only [sessionCaps, Bool.and_eq_true]
  refine ⟨⟨(Nat.min_le_left _ _).trans himp, ?_⟩, fun j c d hj _ hc hd => ?_, nofun⟩
  · show (sessionCaps b a).2 ≤ 60000
    rw [hcap]
    split
    · exact (Nat.min_le_left _ _).trans hexp
    · exact Nat.zero_le _
  · cases hj
    cases hc
    obtain rfl : b = d := Option.some.inj (hb.symm.trans hd)
    exact ⟨rfl, hcap⟩

theorem Bus.bindTo_still (n : PortNo) (tolerance : Nat) (m : Announce) (b : Bus) : b.Still (b.bindTo n tolerance m) := by
  rw [Bus.bindTo_eq]
  exact ⟨⟨rfl, rfl, rfl⟩, rfl, rfl⟩

theorem State.reportFaultLevel_keeps (s : State) (n : PortNo) (i : Nat) : s.Keeps (s.reportFaultLevel n i) := by
  unfold State.reportFaultLevel
  split
  · exact s.blockBus_keeps ..
  · exact .refl s

theorem State.bindSession_keeps {s : State} (n : PortNo) {i : Nat} {b : Bus} (m : Announce) (hb : s.bus i = some b) :
    s.Keeps (s.bindSession n i b m) := by
  have hport : s.Keeps (s.updPort n fun p =>
      (p.openWith (boundSession i b (announceValues m) s.now)).enter s.openState) :=
    .updPortWith n _ fun k h => (h.ports n).withSession (x := boundSession i b (announceValues m) s.now) rfl rfl rfl
      (boundSession_caps h hb ..)
  unfold State.bindSession
  exact ((hport.trans (.modBus i _ (Bus.bindTo_still _ _ _))).trans (State.reportFaultLevel_keeps ..)).trans
    (State.selection_keeps ..)

theorem State.judgeAnnounce_keeps {s : State} (n : PortNo) (m : Announce) (ht : s.TablesOk) :
    s.Keeps (s.judgeAnnounce n m) := by
  cases hf : s.findBus m.bus.toNat with
  | none =>
    rw [State.judgeAnnounce_unknown hf]
    exact s.openUnidentified_keeps ..
  | some r =>
    rw [State.judgeAnnounce_found hf]
    split
    · exact s.openUnidentified_keeps ..
    · exact State.bindSession_keeps n m (State.findBus_bus ht hf)

/-! ### Meter counts -/

theorem Port.setLine_tamer (l : MeterLine) (f : LineFilter → LineFilter) (p : Port) : p.Tamer (p.setLine l f) := by
  cases l <;> exact .same rfl rfl rfl

theorem Port.raise_tamer (f : BitVec 6) (p : Port) : p.Tamer (p.raise f) := .same rfl rfl rfl

theorem Port.countStray_tamer (p : Port) : p.Tamer p.countStray := by
  unfold Port.countStray
  simp only
  split <;> exact .same rfl rfl rfl

theorem Port.restartQuiet_tamer (p : Port) : p.Tamer p.restartQuiet := by
  unfold Port.restartQuiet
  split <;> exact .same rfl rfl rfl

theorem Port.bookCount_tamer (d : Dir) (now : Nat) (p : Port) : p.Tamer (p.bookCount d now) := by
  cases d <;> exact .same rfl rfl rfl

theorem Port.restartStall_tamer (e : PortEnv) (p : Port) : p.Tamer (p.restartStall e) := by
  unfold Port.restartStall
  split <;> exact .same rfl rfl rfl

theorem Port.moveRun_tamer (wrong : Bool) (p : Port) : p.Tamer (p.moveRun wrong) := .same rfl rfl rfl

theorem Plan.book_rests (d : Dir) (e : Nat) (p : Plan) : p.Rests (p.book d e) := by
  cases d <;> exact ⟨rfl, rfl, id, id⟩

theorem State.bookPlan_keeps (s : State) (i : Nat) (d : Dir) (e : Nat) : s.Keeps (s.bookPlan i d e) := by
  unfold State.bookPlan
  repeat' split
  all_goals first | exact .refl s | exact .modPlan _ _ (Plan.book_rests d e)

theorem Bus.moveSoe_still (d : Dir) (e : Nat) (b : Bus) : b.Still (b.moveSoe d e) := by
  unfold Bus.moveSoe
  split
  · exact .refl b
  · cases d with
    | imp => exact (b.raiseIf_still _ _).trans ⟨⟨rfl, rfl, rfl⟩, rfl, rfl⟩
    | exp => exact ⟨⟨rfl, rfl, rfl⟩, rfl, rfl⟩
    | none => exact .refl b

theorem State.useAllowance_keeps (s : State) (i e : Nat) : s.Keeps (s.useAllowance i e) := by
  cases hb : s.bus i with
  | none =>
    rw [State.useAllowance, hb]
    exact .refl s
  | some b =>
    rw [State.useAllowance, hb]
    simp only
    split
    · have hused : b.Still ({ b with exportUsed := addWord b.exportUsed e }.raise BusFlag.allowanceUsed) :=
        ⟨⟨rfl, rfl, rfl⟩, rfl, rfl⟩
      exact (State.Keeps.putBus _ hb hused).trans (State.withdrawExport_keeps ..)
    · exact .putBus _ hb ⟨⟨rfl, rfl, rfl⟩, rfl, rfl⟩

theorem State.applyToBus_keeps (s : State) (i : Nat) (d : Dir) (e : Nat) : s.Keeps (s.applyToBus i d e) := by
  have hbook : s.Keeps ((s.bookPlan i d e).modBus i (Bus.moveSoe d e)) :=
    (s.bookPlan_keeps i d e).trans (.modBus i _ (Bus.moveSoe_still d e))
  unfold State.applyToBus
  simp only
  split
  · exact ((hbook.trans (State.useAllowance_keeps ..)).trans (State.testStep_keeps ..)).trans (State.readinessCount_keeps ..)
  · exact (hbook.trans (State.testStep_keeps ..)).trans (State.readinessCount_keeps ..)

theorem State.applyToSession_keeps (s : State) (o : Option Nat) (d : Dir) (e : Nat) : s.Keeps (s.applyToSession o d e) := by
  cases o with
  | none => exact .refl s
  | some i => exact s.applyToBus_keeps i d e

theorem State.checkRun_keeps (s : State) (n : PortNo) (wrong : Bool) : s.Keeps (s.checkRun n wrong) := by
  unfold State.checkRun
  split
  · exact s.portFault_keeps ..
  · exact .refl s

theorem State.appliedCount_keeps (s : State) (n : PortNo) (d : Dir) : s.Keeps (s.appliedCount n d) := by
  unfold State.appliedCount
  simp only
  have hbook : s.Keeps (s.setPort n fun q => (q.bookCount d s.now).restartQuiet) :=
    .setPort n _ (((s.port n).bookCount_tamer d s.now).trans (Port.restartQuiet_tamer _))
  refine ((hbook.trans (State.applyToSession_keeps ..)).trans (.setPort n _ ?_)).trans (State.checkRun_keeps ..)
  exact (Port.restartStall_tamer ..).trans (Port.moveRun_tamer ..)

theorem State.count_keeps (s : State) (n : PortNo) (d : Dir) : s.Keeps (s.count n d) := by
  unfold State.count
  simp only
  split
  · exact .setPort n _ (.same rfl rfl rfl)
  · split
    · exact .setPort n _ ((s.port n).countStray_tamer.trans (Port.restartQuiet_tamer _))
    · exact s.appliedCount_keeps n d

theorem State.lineMoved_keeps (s : State) (n : PortNo) (l : MeterLine) (v : Level) : s.Keeps (s.lineMoved n l v) :=
  (State.Keeps.setPort n _ (Port.setLine_tamer l _ _)).trans (State.count_keeps ..)

end Sys2Proof.Machine
end

section
/-! What loads, crossings and the computation keep of lists and powers (for O58 and O59): grants are multiples of 100 W
within the ratings. -/

namespace Sys2Proof.Machine

open Sys2Proof

/-! ### The load of the staged values -/

theorem State.copyStaged_keeps (s : State) : s.Keeps s.copyStaged where
  lists h := h.same (fun _ c hc => ⟨c, hc, rfl, rfl⟩) rfl
  powers _ h := ⟨⟨h.site.staged, h.site.staged, ⟨h.site.trickle.1, h.site.trickle.1⟩, h.site.tierA⟩, h.buses,
    fun n => (h.ports n).from (State.CapsFrom.of_buses rfl)⟩

theorem State.resetExportUsed_keeps (s : State) : s.Keeps s.resetExportUsed :=
  .mapBuses (fun _ b => { b with exportUsed := 0 }) fun _ _ => ⟨⟨rfl, rfl, rfl⟩, rfl, rfl⟩

/-- The clock alone differs. -/
theorem State.Keeps.clock {s : State} (c : Clock) : s.Keeps { s with clock := c } := .beside rfl rfl rfl rfl

theorem State.raiseDay_keeps (s : State) (day : Int) : s.Keeps (s.raiseDay day) :=
  (State.Keeps.clock { s.clock with day := day }).trans (State.resetExportUsed_keeps _)

theorem State.registerBoundary_keeps (s : State) : s.Keeps s.registerBoundary := by
  unfold State.registerBoundary
  split
  · exact s.register_keeps ..
  · exact .refl s

theorem State.reloadOffset_keeps (s : State) (old : SiteParams) : s.Keeps (s.reloadOffset old) := by
  unfold State.reloadOffset
  simp only
  split
  · exact .refl s
  · have hw := s.withdraw_keeps (ofKind .rollover 0)
    split
    · exact (hw.trans (State.raiseDay_keeps ..)).trans (State.registerBoundary_keeps _)
    · exact hw.trans (State.registerBoundary_keeps _)

theorem Port.Powered.takeTrickle {s : State} {k : Option Nat} {p : Port} {w : Nat} (h : p.Powered k s) (hw : w ≤ 22000) :
    (p.takeTrickle w).Powered k s := by
  unfold Port.takeTrickle
  split
  next x hs =>
    split
    next why hx =>
      split
      · exact h.withSession rfl rfl rfl (.trickle (x := { x with importCap := w }) hw hx rfl (((h.caps x hs).unid why hx).2))
      · exact h
    next => exact h
  next => exact h

theorem State.reloadTrickle_keeps (s : State) (old : SiteParams) : s.Keeps (s.reloadTrickle old) := by
  unfold State.reloadTrickle
  split
  · exact .refl s
  · refine .ports rfl rfl rfl fun n k h => ?_
    have hport : ({ s with ports := s.ports.map (Port.takeTrickle s.site.live.tricklePower) } : State).port n
        = (s.port n).takeTrickle s.site.live.tricklePower := Vector.getElem_map ..
    rw [hport]
    exact (h.ports n).takeTrickle h.site.trickle.2

theorem State.reloadLockoutPoint_keeps (s : State) (i : Nat) (b : Bus) : s.Keeps (s.reloadLockoutPoint i b) := by
  unfold State.reloadLockoutPoint
  split
  · split
    · exact (s.withdraw_keeps _).trans (State.registerLockout_keeps ..)
    · exact .refl s
  · exact .refl s

theorem State.reloadLockout_keeps (s : State) (old : SiteParams) : s.Keeps (s.reloadLockout old) := by
  unfold State.reloadLockout
  split
  · exact .refl s
  · exact .foldl _ (fun (t : State) (r : Nat × Bus) => t.reloadLockoutPoint_keeps r.1 r.2) _ s

theorem State.reloadArmLead_keeps (s : State) (old : SiteParams) : s.Keeps (s.reloadArmLead old) := by
  unfold State.reloadArmLead
  split
  · exact .refl s
  · refine .foldl _ (fun t r => ?_) _ s
    split
    · exact t.reloadArmPoint_keeps ..
    · exact .refl t

theorem State.load_keeps (s : State) : s.Keeps s.load :=
  (((s.copyStaged_keeps.trans (State.reloadOffset_keeps ..)).trans (State.reloadTrickle_keeps ..)).trans
    (State.reloadLockout_keeps ..)).trans (State.reloadArmLead_keeps ..)

theorem State.loadIfStopped_keeps (s : State) : s.Keeps s.loadIfStopped := by
  unfold State.loadIfStopped
  split
  · exact .refl s
  · exact s.load_keeps

theorem State.takeBase_keeps (s : State) : s.Keeps s.takeBase := by
  rw [State.takeBase_eq]
  exact .beside rfl rfl rfl rfl

theorem State.prepared_keeps (s : State) : s.Keeps s.prepared :=
  (s.load_keeps.trans (State.takeBase_keeps _)).trans (.mapBuses
    (fun _ b => b.setReadiness (s.load.takeBase.readinessNow b).1 (s.load.takeBase.readinessNow b).2)
    fun _ b => b.setReadiness_still _ _)

/-! ### Grants in multiples of 100 W -/

theorem down100_whole (w : Nat) : down100 w % 100 = 0 := by rw [down100]; omega

theorem roundup100_whole (w : Nat) : roundup100 w % 100 = 0 := by rw [roundup100]; omega

theorem min_whole {a b : Nat} (ha : a % 100 = 0) (hb : b % 100 = 0) : min a b % 100 = 0 := by omega

theorem Grants.of_whole {g : Grants} (h : ∀ r ∈ g, r.2 % 100 = 0) (n : PortNo) : g.of n % 100 = 0 := by
  induction g with
  | nil => rfl
  | cons r g ih =>
    rw [Grants.of_cons r.1 r.2]
    split
    · exact h r List.mem_cons_self
    · exact ih fun x hx => h x (List.mem_cons_of_mem _ hx)

theorem figures_need_whole (now guardTime atRisk tDep eReq soe importCap rating : Nat) :
    (figures now guardTime atRisk tDep eReq soe importCap rating).need % 100 = 0 := by
  unfold figures
  dsimp only
  split
  · rfl
  · split
    · rfl
    · dsimp only
      split
      · exact down100_whole _
      · exact min_whole (down100_whole _) (roundup100_whole _)

theorem State.floorOf_whole (s : State) (b : Bus) : (s.floorOf b).1 % 100 = 0 := by
  unfold State.floorOf
  split
  · split
    · exact figures_need_whole ..
    · rfl
  · rfl

theorem State.tierACandidates_whole (s : State) : ∀ r ∈ s.tierACandidates, r.2 % 100 = 0 := by
  rintro ⟨n, w⟩ h
  rw [State.tierACandidates_eq] at h
  rcases List.mem_append.mp h with h | h
  · obtain ⟨⟨m, need, slack⟩, hc, he⟩ := List.mem_map.mp h
    obtain ⟨rfl, rfl⟩ := Prod.mk.inj he
    obtain ⟨_, i, b, _, hf⟩ := State.mem_floorCandidates.mp (State.mem_floorsInOrder.mp hc)
    have hwhole := s.floorOf_whole b
    rw [hf] at hwhole
    exact hwhole
  · obtain ⟨hpos, hw⟩ := State.mem_trickles.mp h
    rw [← hw, (State.trickleRequest_pos (hw ▸ hpos)).2.2]
    exact down100_whole _

theorem serveTierA_whole {g : Grants} (h : ∀ r ∈ g, r.2 % 100 = 0) (q : Nat) : ∀ r ∈ serveTierA q g, r.2 % 100 = 0 := by
  induction g generalizing q with
  | nil => exact fun r hr => absurd hr List.not_mem_nil
  | cons x g ih =>
    rw [serveTierA]
    split
    · intro r hr
      rcases List.mem_cons.mp hr with rfl | hr
      · exact h _ List.mem_cons_self
      · exact ih (fun y hy => h y (List.mem_cons_of_mem _ hy)) _ r hr
    · intro r hr
      rw [List.mem_singleton.mp hr]
      exact down100_whole _

theorem sharesGrants_whole {xs : List Share} (h : ∀ x ∈ xs, x.Whole) (n : PortNo) : (sharesGrants xs).of n % 100 = 0 := by
  refine Grants.of_whole (fun r hr => ?_) n
  obtain ⟨x, hx, rfl⟩ := List.mem_map.mp hr
  exact (h x hx).got

theorem State.work_tierA_whole (s : State) (n : PortNo) : s.work.tierA.of n % 100 = 0 := by
  rw [s.work_tierA]
  exact Grants.of_whole (serveTierA_whole s.tierACandidates_whole _) n

theorem State.importOf_whole (s : State) (n : PortNo) : s.importOf n % 100 = 0 := by
  have hb := sharesGrants_whole (serveTier_forall_whole s.work.budget (s.tierPorts_whole s.work.tierA .b)) n
  have hc := sharesGrants_whole (serveTier_forall_whole (s.work.budget - sharesTotal s.work.tierB)
    (s.tierPorts_whole s.work.tierA .c)) n
  have ha := s.work_tierA_whole n
  rw [← s.work_tierB] at hb
  rw [← s.work_tierC] at hc
  rw [State.importOf, importGrant_eq]
  omega

theorem State.planExport_whole (s : State) (n : PortNo) : s.planExport n % 100 = 0 := by
  unfold State.planExport
  split
  · rfl
  · split
    · rfl
    · split
      · exact down100_whole _
      · rfl

theorem serveReserve_whole {cands : List (PortNo × Int × Nat)} (h : ∀ c ∈ cands, c.2.2 % 100 = 0) {need : Nat}
    (hn : need % 100 = 0) : ∀ r ∈ serveReserve need cands, r.2 % 100 = 0 := by
  induction cands generalizing need with
  | nil => exact fun r hr => absurd hr List.not_mem_nil
  | cons x cands ih =>
    have hx : x.2.2 % 100 = 0 := h x List.mem_cons_self
    rw [serveReserve]
    intro r hr
    rcases List.mem_cons.mp hr with rfl | hr
    · exact min_whole hx hn
    · have hleft : (need - min x.2.2 need) % 100 = 0 := by
        rcases Nat.le_total x.2.2 need with hle | hle
        · rw [Nat.min_eq_left hle]; omega
        · rw [Nat.min_eq_right hle, Nat.sub_self]
      exact ih (fun y hy => h y (List.mem_cons_of_mem _ hy)) hleft r hr

theorem State.reserve_whole (s : State) (n : PortNo) : s.work.reserve.of n % 100 = 0 := by
  rcases s.work_reserve_cases with ⟨_, h⟩ | ⟨i, c, _, _, h⟩
  · rw [h]
    rfl
  · rw [h]
    refine Grants.of_whole (serveReserve_whole ?_ (roundup100_whole _)) n
    rintro ⟨m, surplus, room⟩ hm
    obtain ⟨_, _, _, _, _, _, rfl⟩ := State.mem_reserveCandidates.mp (State.mem_reserveInOrder.mp hm)
    have h1 := down100_whole (s.exportTop m)
    have h2 := s.planExport_whole m
    show (down100 (s.exportTop m) - s.planExport m) % 100 = 0
    omega

theorem formSetpoint_ok {latch removed : Bool} {i e : Nat} (hi : i % 100 = 0) (hi' : i ≤ 150000) (he : e % 100 = 0)
    (he' : e ≤ 60000) : (formSetpoint latch removed i e).Ok := by
  unfold formSetpoint
  split
  · exact Setpoint.Ok.zero
  · split
    · exact .make hi (fun _ => hi') nofun
    · exact .make he nofun fun _ => he'

/-- What a computation publishes lies within the ratings. -/
theorem State.published_ok {s : State} (ha : s.Agrees) (hs : s.SitePowers) (n : PortNo) :
    (s.portResult s.work n).published.Ok := by
  obtain ⟨_, himp, _, hexp⟩ := hs.live n
  have h1 := s.planExport_whole n
  have h2 := s.reserve_whole n
  rw [s.portResult_published]
  refine formSetpoint_ok (s.importOf_whole n) ?_ (by omega) ?_
  · exact ((State.importOf_le ha n).trans (Nat.min_le_right _ _)).trans himp
  · exact ((s.exportOf_le n).trans (Nat.min_le_right _ _)).trans hexp

theorem Port.publish_held (latch : Bool) (x : Setpoint) (p : Port) :
    (p.publish latch x).held = p.held ∨ (p.publish latch x).held = x := by
  unfold Port.publish
  split
  · split
    · dsimp only
      split <;> exact .inr rfl
    · exact .inl rfl
  · exact .inr rfl
  · exact .inr rfl
  · exact .inl rfl

theorem Port.Powered.publish {s : State} {k : Option Nat} {p : Port} (h : p.Powered k s) (latch : Bool) {x : Setpoint}
    (hx : x.Ok) (residue : Int) : Port.Powered k s { p.publish latch x with residue := residue } := by
  refine ⟨?_, ?_, fun y hy => h.caps y ?_⟩
  · show (p.publish latch x).held.Ok
    rcases p.publish_held latch x with hh | hh <;> rw [hh]
    · exact h.held
    · exact hx
  · have hframe := (Port.publish_beside latch x p).2.2.2.1
    exact hframe.le.trans h.frame
  · rw [← Port.publish_session latch x p]
    exact hy

theorem State.compute_lists {s : State} (h : s.ListsAgree) : s.compute.ListsAgree := by
  refine (s.prepared_keeps.lists h).same (fun i c hc => ⟨c, ?_, rfl, rfl⟩) ?_
  · rw [State.bus, ← s.compute_buses]
    exact hc
  · rw [s.compute_eq]

theorem State.compute_powers {s : State} (ha : s.Agrees) {k : Option Nat} (h : s.PowersBut k) : s.compute.PowersBut k := by
  have hp := s.prepared_keeps.powers k h
  have hfrom : s.prepared.CapsFrom s.compute := State.CapsFrom.of_buses s.compute_buses
  refine ⟨⟨?_, ?_, ?_, fun n => ?_⟩, fun i b hb => hp.buses i b ?_, fun n => ?_⟩
  · rw [s.compute_site]; exact hp.site.staged
  · rw [s.compute_site]; exact hp.site.live
  · rw [s.compute_site]; exact hp.site.trickle
  · rw [s.compute_result]; exact s.prepared.work_tierA_whole n
  · rw [State.bus, ← s.compute_buses]; exact hb
  · rw [s.compute_port]
    exact (((hp.ports n).publish _ (State.published_ok (State.prepared_agrees ha) hp.site n) _).settled _ _).from hfrom

end Sys2Proof.Machine
end

section
/-! Lists and powers through the crossings, the changes of depot time, the engine and the latch (for O58 and O59). -/

namespace Sys2Proof.Machine

open Sys2Proof

/-! ### Crossings -/

theorem State.actNotBefore_keeps (s : State) (i : Nat) : s.Keeps (s.actNotBefore i) := by
  unfold State.actNotBefore
  split
  · exact .refl s
  next p hp =>
    have hrest (c : StepCond) : p.Rests { p with cond := some c } := ⟨rfl, rfl, id, id⟩
    split
    · split
      · split
        · exact (State.Keeps.putPlan _ hp (hrest _)).trans (.modBus _ _ (Bus.raise_still _))
        · exact .putPlan _ hp (hrest _)
      · exact .refl s
    · exact .refl s

theorem State.actHoldUntil_keeps (s : State) (i : Nat) : s.Keeps (s.actHoldUntil i) := by
  unfold State.actHoldUntil
  split
  · split
    · exact s.stepEnd_keeps _ i
    · exact .refl s
  · exact .refl s

theorem State.actEndBy_keeps (s : State) (i : Nat) : s.Keeps (s.actEndBy i) := by
  unfold State.actEndBy
  split
  · split
    · exact s.deadline_keeps _ i
    · exact .refl s
  · exact .refl s

theorem State.actDeparture_keeps (s : State) (i : Nat) : s.Keeps (s.actDeparture i) := by
  unfold State.actDeparture
  split
  next b hb =>
    split
    next d _ =>
      split
      · have hstill : b.Still ({ b with departure := some { d with state := .overdue } }.setReadiness .overdue none) :=
          Bus.Still.trans (c := { b with departure := some { d with state := .overdue } }) ⟨⟨rfl, rfl, rfl⟩, rfl, rfl⟩
            (Bus.setReadiness_still _ _ _)
        exact (State.Keeps.putBus _ hb hstill).trans (State.withdrawDeparture_keeps _ i)
      · exact .refl s
    next => exact .refl s
  next => exact .refl s

theorem State.actWindowEnd_keeps (s : State) (i : Nat) : s.Keeps (s.actWindowEnd i) := by
  unfold State.actWindowEnd
  split
  · split
    · exact s.endCommit_keeps i _
    · exact s.endCommit_keeps i _
    · exact .refl s
  · exact .refl s

theorem State.handOver_keeps (s : State) (r : Registration) : s.Keeps (s.handOver r) := by
  unfold State.handOver
  split
  · exact (s.raiseDay_keeps _).trans (State.registerBoundary_keeps _)
  · exact s.actNotBefore_keeps _
  · exact s.actEndBy_keeps _
  · exact s.actHoldUntil_keeps _
  · exact s.actDeparture_keeps _
  · exact s.withdrawExport_keeps _
  · exact s.modCommit_keeps _ _
  · exact s.modCommit_keeps _ _
  · exact s.actWindowEnd_keeps _

theorem State.unfire_keeps (s : State) (r : Registration) : s.Keeps (s.unfire r) := .clock _

theorem State.handOverAll_keeps (n : Nat) : ∀ s : State, s.Keeps (s.handOverAll n) := by
  induction n with
  | zero => exact State.Keeps.refl
  | succ n ih =>
    intro s
    unfold State.handOverAll
    split
    · exact .refl s
    · exact ((s.unfire_keeps _).trans (State.handOver_keeps _ _)).trans (ih _)

theorem State.settleCrossings_keeps (s : State) : s.Keeps s.settleCrossings := s.handOverAll_keeps _

/-! ### Changes of depot time -/

theorem State.fire_keeps (s : State) (f : Registration → Bool) : s.Keeps (s.fire f) := .clock _

theorem State.setDepotTime_keeps (s : State) (t : Nat) : s.Keeps (s.setDepotTime t) := .clock _

theorem State.raiseSite_keeps (s : State) (f : BitVec 6) : s.Keeps (s.raiseSite f) := .beside rfl rfl rfl rfl

theorem State.advanceSecond_keeps (s : State) : s.Keeps s.advanceSecond := by
  unfold State.advanceSecond
  refine s.settleCrossings_keeps.trans ?_
  dsimp only
  split
  · exact (State.setDepotTime_keeps _ _).trans (State.fire_keeps _ _)
  · exact State.setDepotTime_keeps _ _

theorem State.firstTime_keeps (s : State) (v : Nat) : s.Keeps (s.firstTime v) := by
  unfold State.firstTime
  refine (s.setDepotTime_keeps v).trans (State.Keeps.trans (.clock
    { (s.setDepotTime v).clock with mode := .set, day := dayFormula v s.site.live.rolloverOffset }) ?_)
  exact ((State.fire_keeps _ _).trans (State.settleCrossings_keeps _)).trans (State.registerBoundary_keeps _)

theorem State.jumpTo_keeps (s : State) (v : Nat) : s.Keeps (s.jumpTo v) := by
  unfold State.jumpTo
  exact (((s.settleCrossings_keeps.trans (State.setDepotTime_keeps _ v)).trans (State.fire_keeps _ _)).trans
    (State.settleCrossings_keeps _)).trans (State.raiseSite_keeps _ _)

theorem applySetTime_keeps (s : State) (v : Word) : s.Keeps (applySetTime v s).state := by
  unfold applySetTime
  dsimp only
  split
  · exact s.firstTime_keeps _
  · split
    · exact .refl s
    · split
      · exact s.settleCrossings_keeps.trans (State.setDepotTime_keeps _ _)
      · split
        · exact s.setDepotTime_keeps _
        · exact s.jumpTo_keeps _

/-! ### The relation over sound states -/

/-- t is s after changes that keep lists and plans in agreement and the powers in their ranges, from a state that is
sound otherwise. -/
structure State.Upholds (s t : State) : Prop where
  lists  : s.TablesOk → s.ListsAgree → t.ListsAgree
  powers : s.TablesOk → s.PortsOk → s.Agrees → s.PowersBut none → t.PowersBut none

theorem State.Keeps.upholds {s t : State} (h : s.Keeps t) : s.Upholds t := ⟨fun _ => h.lists, fun _ _ _ => h.powers none⟩

theorem State.Upholds.refl (s : State) : s.Upholds s := (State.Keeps.refl s).upholds

theorem State.Upholds.trans {s t u : State} {w v : Bool} (hm : Moves s t w v) (h : s.Upholds t) (k : t.Upholds u) :
    s.Upholds u :=
  ⟨fun ht hl => k.lists (hm.tablesOk ht) (h.lists ht hl),
    fun ht hp ha hs => k.powers (hm.tablesOk ht) (hm.portsOk hp) (hm.agrees hp ha) (h.powers ht hp ha hs)⟩

theorem State.compute_upholds (s : State) : s.Upholds s.compute :=
  ⟨fun _ => State.compute_lists, fun _ _ ha => State.compute_powers ha⟩

/-! ### Supervision, the engine and the latch -/

theorem State.superviseAs_keeps (s : State) (st : SupState) (t : Timer) : s.Keeps (s.superviseAs st t) := by
  unfold State.superviseAs
  dsimp only
  split <;> exact .beside rfl rfl rfl rfl

theorem State.startEngine_upholds (s : State) : s.Upholds s.startEngine := by
  have hrun : s.Keeps { s with engine := { s.engine with running := true } } := .beside rfl rfl rfl rfl
  exact State.Upholds.trans ((Moves.engine _).trans (State.superviseAs_moves _ _ _))
    (hrun.trans (State.superviseAs_keeps _ _ _)).upholds (State.compute_upholds _)

theorem State.engineStop_keeps (s : State) : s.Keeps { s with engine := s.engine.stop } where
  lists h := h.same (fun i c hc => ⟨c, hc, rfl, rfl⟩) rfl
  powers _ h := by
    have hfrom : s.CapsFrom { s with engine := s.engine.stop } := State.CapsFrom.of_buses rfl
    refine ⟨⟨h.site.staged, h.site.live, h.site.trickle, fun n => ?_⟩, h.buses, fun n => (h.ports n).from hfrom⟩
    show (s.engine.ports.map fun r : PortResult => { r with split := .none })[n].tierA % 100 = 0
    rw [Fin.getElem_fin, Vector.getElem_map]
    exact h.site.tierA n

theorem State.stopEngine_keeps (s : State) : s.Keeps s.stopEngine := by
  have hzero : State.Keeps { s with engine := s.engine.stop }
      (State.updPorts (fun _ p => { p.zeroHeld with residue := 0 }) { s with engine := s.engine.stop }) :=
    .updPorts _ fun n => (Port.zeroHeld_tamer _).trans (.same rfl rfl rfl)
  exact (((s.engineStop_keeps.trans hzero).trans (State.interruptActive_keeps _)).trans
    (State.superviseAs_keeps _ _ _)).trans (State.load_keeps _)

theorem State.keepAlive_keeps (s : State) : s.Keeps s.keepAlive := by
  unfold State.keepAlive
  split
  · exact s.superviseAs_keeps _ _
  · exact .refl s

theorem State.tierAGrant_superviseAs (s : State) (st : SupState) (t : Timer) (n : PortNo) :
    (s.superviseAs st t).tierAGrant n = s.tierAGrant n := by
  unfold State.superviseAs
  dsimp only
  split <;> rfl

theorem State.supervisionExpiry_keeps (s : State) : s.Keeps s.supervisionExpiry := by
  unfold State.supervisionExpiry
  split
  · exact (s.superviseAs_keeps _ _).trans (.updPorts _ fun n => Port.zeroExport_tamer _)
  · refine (s.superviseAs_keeps _ _).trans (.updPortsWith _ fun n k h => ?_)
    have hgrant := State.tierAGrant_whole h n
    rw [State.tierAGrant_superviseAs] at hgrant
    exact (h.ports n).tamer (Port.importToTierA_tamer hgrant _)
  · exact s.superviseAs_keeps _ _

theorem Port.trip_tamer (p : Port) : p.Tamer p.trip := by
  unfold Port.trip
  split <;> exact (Port.zeroHeld_tamer p).trans (.same rfl rfl rfl)

theorem State.tripClosing_keeps (s : State) (n : PortNo) : s.Keeps (s.tripClosing n) := by
  unfold State.tripClosing
  split
  · exact s.commandOpen_keeps n
  · exact .refl s

theorem State.protection_keeps (s : State) (p : Protection) : s.Keeps { s with protection := p } := .beside rfl rfl rfl rfl

theorem State.trip_keeps (s : State) : s.Keeps s.trip := by
  unfold State.trip
  have hports (t : State) : t.Keeps (t.updPorts fun _ p => p.trip) := .updPorts _ fun n => Port.trip_tamer _
  have hclosing (t : State) : t.Keeps (allPorts.foldl (fun t n => t.tripClosing n) t) :=
    .foldl _ (fun (t : State) (n : PortNo) => t.tripClosing_keeps n) _ t
  exact (((s.protection_keeps ⟨true, true⟩).trans (State.raiseSite_keeps _ SiteFlag.trip)).trans ((hports _).trans
    (hclosing _))).trans (State.interruptActive_keeps _)

theorem Port.unhold_tamer (p : Port) : p.Tamer p.unhold := by
  unfold Port.unhold
  split
  · exact .same rfl rfl rfl
  · exact .refl p

theorem State.clearLatch_keeps (s : State) : s.Keeps s.clearLatch :=
  (s.protection_keeps _).trans (.updPorts _ fun _ => Port.unhold_tamer _)

theorem State.takeDispatch_keeps (s : State) (l : Bool) : s.Keeps (s.takeDispatch l) := .beside rfl rfl rfl rfl

theorem State.risingEdge_keeps (s : State) : s.Keeps s.risingEdge := by
  unfold State.risingEdge
  split
  · split
    · exact s.modCommit_keeps _ _
    · exact s.raiseSite_keeps _
  · exact s.raiseSite_keeps _

theorem State.fallingEdge_keeps (s : State) : s.Keeps s.fallingEdge := by
  unfold State.fallingEdge
  split
  · split
    · exact s.endCommit_keeps _ _
    · exact .refl s
  · exact .refl s

end Sys2Proof.Machine
end

section
/-! Lists and powers through the requests of the Bus Table, the Plan Table, the site profile and the ports (for O58 and
O59). -/

namespace Sys2Proof.Machine

open Sys2Proof

/-! ### Caps formed again (R23, R104) -/

theorem Port.capTo_tamer (d : Dir) (cap : Nat) (p : Port) : p.Tamer (p.capTo d cap) := by
  refine ⟨fun h => ?_, fun h => ?_, fun x hx => ?_⟩
  · unfold Port.capTo
    split
    next hd =>
      have hwhole := h.whole
      refine Setpoint.Ok.make (d := d) (down100_whole _) (fun e => ?_) (fun e => ?_)
      · have himp := h.imp (hd.1.trans e)
        have hlow : down100 cap ≤ cap := by rw [down100]; omega
        omega
      · have hexp := h.exp (hd.1.trans e)
        have hlow : down100 cap ≤ cap := by rw [down100]; omega
        omega
    next => exact h
  · rw [Port.capTo_eq]
    exact h
  · rw [Port.capTo_eq] at hx
    exact hx

theorem Session.reform_caps {s : State} {k : Option Nat} {i : Nat} {b : Bus} {x : Session} (hb : s.bus i = some b)
    (hr : b.importCap ≤ 150000 ∧ b.exportCap ≤ 60000) (hx : x.binding = .bound i)
    (hcap : x.importCap ≤ 150000 ∧ x.exportCap ≤ 60000) : (x.reform b).CapsBut k s := by
  have hbind : (x.reform b).binding = .bound i := (Session.reform_binding b x).trans hx
  cases ha : x.announced with
  | none =>
    have hsame : x.reform b = x := by simp only [Session.reform, ha]
    rw [hsame]
    refine ⟨hcap, fun j a c _ _ h => ?_, fun why h => ?_⟩
    · cases ha.symm.trans h
    · cases hx.symm.trans h
  | some a =>
    have hnew : x.reform b = { x with importCap := (sessionCaps b a).1, exportCap := (sessionCaps b a).2 } := by
      simp only [Session.reform, ha]
    have hexp : (sessionCaps b a).2 = if b.v2g = true ∧ a.v2g = true then min b.exportCap a.maxExport else 0 := by
      simp only [sessionCaps, Bool.and_eq_true]
    rw [hnew]
    refine ⟨⟨(Nat.min_le_left _ _).trans hr.1, ?_⟩, fun j c d hj _ h hd => ?_, fun why h => ?_⟩
    · show (sessionCaps b a).2 ≤ 60000
      rw [hexp]
      split
      · exact (Nat.min_le_left _ _).trans hr.2
      · exact Nat.zero_le _
    · obtain rfl : a = c := Option.some.inj (ha.symm.trans h)
      obtain rfl : i = j := Binding.bound.inj (hx.symm.trans hj)
      obtain rfl : b = d := Option.some.inj (hb.symm.trans hd)
      exact ⟨rfl, hexp⟩
    · cases hx.symm.trans h

theorem Port.boundSlot_binding {p : Port} {i : Nat} {x : Session} (h : p.boundSlot = some i) (hx : p.session = some x) :
    x.binding = .bound i := by
  cases hb : x.binding with
  | bound j => rw [Port.boundSlot_some hx hb] at h; cases h; rfl
  | unidentified why => rw [Port.boundSlot_unidentified hx hb] at h; cases h

/-- The caps of a port's session are formed again from the record of the bus bound there. -/
theorem Port.Powered.reformCaps {s : State} {k : Option Nat} {i : Nat} {b : Bus} {p : Port} (hb : s.bus i = some b)
    (hr : b.importCap ≤ 150000 ∧ b.exportCap ≤ 60000) (hp : p.boundSlot = some i) (hheld : p.held.Ok)
    (hframe : p.frameCount ≤ 65535) (hcap : ∀ x, p.session = some x → x.importCap ≤ 150000 ∧ x.exportCap ≤ 60000) :
    (p.reformCaps b).Powered k s := by
  have hreformed : Port.Powered k s { p with session := p.session.map (Session.reform b) } := by
    refine ⟨hheld, hframe, fun x hx => ?_⟩
    obtain ⟨y, hy, rfl⟩ := Option.map_eq_some_iff.1 hx
    exact Session.reform_caps hb hr (Port.boundSlot_binding hp hy) (hcap y hy)
  rw [Port.reformCaps]
  exact (hreformed.tamer (Port.capTo_tamer _ _ _)).tamer (Port.capTo_tamer _ _ _)

/-! ### The Bus Table -/

/-- A record written to a free slot, with empty lists and caps in their ranges. -/
theorem State.enrol_upholds {s : State} {i : Nat} {b : Bus} (hi : s.bus i = none) (hl : b.prioList = [] ∧ b.stdList = [])
    (hr : b.importCap ≤ 150000 ∧ b.exportCap ≤ 60000) : s.Upholds (s.putBus i b) where
  lists _ h := by
    intro j c hc
    rw [State.bus_putBus] at hc
    split at hc
    · cases hc
      obtain ⟨hprio, hstd⟩ := hl
      refine ⟨?_, ?_, ?_, ?_, ?_⟩ <;> simp [hprio, hstd]
    · obtain ⟨priority, standard, nodup, length, running⟩ := h j c hc
      exact ⟨priority, standard, nodup, length, running⟩
  powers _ _ ha h := by
    refine ⟨h.site.of_view rfl, fun j c hc => ?_, fun n => ⟨(h.ports n).held, (h.ports n).frame, fun x hx => ?_⟩⟩
    · rw [State.bus_putBus] at hc
      split at hc
      · cases hc; exact hr
      · exact h.buses j c hc
    · obtain ⟨range, bound, unid⟩ := (h.ports n).caps x hx
      refine ⟨range, fun j a c hj hk hann hc => bound j a c hj hk hann ?_, unid⟩
      have hne : j ≠ i := by
        rintro rfl
        obtain ⟨d, hd, _⟩ := (ha j n).1 (Port.boundSlot_some hx hj)
        cases hi.symm.trans hd
      rw [State.bus_putBus, if_neg hne] at hc
      exact hc

theorem applyBusEnrol_upholds (s : State) (h : ReqHeader) (p : BusEnrolPayload) : s.Upholds (applyBusEnrol h p s).state := by
  unfold applyBusEnrol
  dsimp only
  split
  · exact .refl s
  next hr =>
    split
    next i hi =>
      unfold enrolRefusal at hr
      split at hr
      · cases hr
      · split at hr
        · cases hr
        next hf =>
          simp only [Bool.not_eq_true, Bool.not_eq_false', busFieldsOk_iff] at hf
          obtain ⟨_, _, himp, hexp, _, _⟩ := hf
          exact State.enrol_upholds (Table.firstFree_some hi).2 ⟨rfl, rfl⟩ ⟨himp, hexp⟩
    next => exact .refl s

theorem Bus.withinCapacity_still (b : Bus) : b.Still b.withinCapacity := by
  unfold Bus.withinCapacity
  have hraise (c : Bool) := b.raiseIf_still c BusFlag.soeClamped
  refine (hraise _).trans ⟨⟨rfl, rfl, rfl⟩, rfl, rfl⟩

theorem State.clampPlans_keeps (s : State) (b : Bus) : s.Keeps (s.clampPlans b) := by
  refine .foldl _ (fun (t : State) (i : Nat) => ?_) _ s
  exact .modPlan _ _ fun p => ⟨rfl, rfl, id, id⟩

theorem State.newCapacity_keeps (s : State) (i : Nat) : s.Keeps (s.newCapacity i) := by
  unfold State.newCapacity
  split
  next b hb =>
    exact ((State.Keeps.putBus _ hb b.withinCapacity_still).trans (State.clampPlans_keeps _ b)).trans
      (State.testStep_keeps _ _ i)
  next => exact .refl s

theorem State.changeSession_lists {s : State} (i : Nat) (h : s.ListsAgree) : (s.changeSession i).ListsAgree := by
  rw [State.changeSession_rest]
  exact h.same (fun j c hc => ⟨c, hc, rfl, rfl⟩) rfl

/-- A port whose session is bound to another slot has caps that follow the record. -/
theorem Port.Powered.elsewhere {s : State} {i : Nat} {p : Port} (h : p.Powered (some i) s) (hp : p.boundSlot ≠ some i) :
    p.Powered none s := by
  refine ⟨h.held, h.frame, fun x hx => ?_⟩
  obtain ⟨range, bound, unid⟩ := h.caps x hx
  refine ⟨range, fun j a c hj _ => bound j a c hj fun e => ?_, unid⟩
  cases e
  exact hp (Port.boundSlot_some hx hj)

/-- The port of the bus after the change of its session. -/
theorem Port.Powered.changed {s : State} {i : Nat} {b : Bus} {p : Port} (h : p.Powered (some i) s) (hb : s.bus i = some b)
    (hr : b.importCap ≤ 150000 ∧ b.exportCap ≤ 60000) (hp : p.boundSlot = some i) : (p.changed b).Powered none s := by
  have hreformed : (p.reformCaps b).Powered none s :=
    .reformCaps hb hr hp h.held h.frame fun x hx => (h.caps x hx).range
  rw [Port.changed]
  split
  · exact hreformed.tamer (Port.zeroExport_tamer _)
  · exact hreformed

/-- Ports alone change, within the ranges. -/
theorem State.PowersBut.withPorts {s t : State} {k l : Option Nat} (h : s.PowersBut k) (hb : t.buses = s.buses)
    (hv : t.siteView = s.siteView) (hp : ∀ n, (t.port n).Powered l s) : t.PowersBut l := by
  have hfrom : s.CapsFrom t := State.CapsFrom.of_buses hb
  refine ⟨h.site.of_view hv, fun i c hc => h.buses i c ?_, fun n => (hp n).from hfrom⟩
  rw [State.bus, ← hb]
  exact hc

/-- The change of the session restores the caps of the bus's own sessions. -/
theorem State.changeSession_powers {s : State} {i : Nat} (ha : s.Agrees) (h : s.PowersBut (some i)) :
    (s.changeSession i).PowersBut none := by
  have hrest := s.changeSession_rest i
  refine h.withPorts (by rw [hrest]) (by rw [hrest]; rfl) fun m => ?_
  by_cases hm : (s.port m).boundSlot = some i
  · obtain ⟨b, hb, hl⟩ := (ha i m).1 hm
    rw [State.changeSession_at hb hl, State.port_updPort, if_pos rfl]
    exact ((h.ports m).changed hb (h.buses i b hb) hm).settled _ _
  · have hsame : (s.changeSession i).port m = s.port m := by
      cases hb : s.bus i with
      | none => rw [State.changeSession, hb]
      | some b =>
        cases hl : b.location with
        | none => rw [State.changeSession_away hb hl]
        | some n =>
          have hne : m ≠ n := fun e => hm ((ha i m).2 ⟨b, hb, e ▸ hl⟩)
          rw [State.changeSession_at hb hl, State.port_updPort, if_neg hne]
    rw [hsame]
    exact (h.ports m).elsewhere hm

/-- A record written over that of its slot sets the sessions bound there aside. -/
theorem State.PowersBut.aside {s : State} {i : Nat} {c : Bus} (h : s.PowersBut none)
    (hr : c.importCap ≤ 150000 ∧ c.exportCap ≤ 60000) : (s.putBus i c).PowersBut (some i) := by
  refine ⟨h.site.of_view rfl, fun j d hd => ?_, fun n => ⟨(h.ports n).held, (h.ports n).frame, fun x hx => ?_⟩⟩
  · rw [State.bus_putBus] at hd
    split at hd
    · cases hd; exact hr
    · exact h.buses j d hd
  · obtain ⟨range, bound, unid⟩ := (h.ports n).caps x hx
    refine ⟨range, fun j a d hj hk hann hd => bound j a d hj (Option.some_ne_none j) hann ?_, unid⟩
    rw [State.bus_putBus, if_neg fun e => hk (congrArg some e)] at hd
    exact hd

theorem Bus.change_fields (b : Bus) (f : BusPatch) : b.change f = { f.write b with flags := (b.change f).flags } := by
  rw [Bus.change_eq]
  split <;> rfl

theorem State.putBus_lists {s : State} {i : Nat} {b c : Bus} (hb : s.bus i = some b) (hp : c.prioList = b.prioList)
    (hs : c.stdList = b.stdList) (h : s.ListsAgree) : (s.putBus i c).ListsAgree := by
  refine h.same (fun j d hd => ?_) rfl
  rw [State.bus_putBus] at hd
  split at hd
  next hj => cases hd; exact ⟨b, by rw [hj]; exact hb, hp, hs⟩
  next => exact ⟨d, hd, rfl, rfl⟩

/-- The step tests of a BUS_CHANGE that is taken, between the record and the session (log 13). -/
def State.changeTests (i : Nat) (b : Bus) (f : BusPatch) (s : State) : State :=
  let s2 := if f.capacity.isSome then s.newCapacity i else s
  if b.floor < (f.write b).floor then s2.testStep StepKind.isExport i else s2

theorem State.changeBus_tests (s : State) (i : Nat) (b : Bus) (f : BusPatch) :
    s.changeBus i b f = ((s.putBus i (b.change f)).changeTests i b f).changeSession i := rfl

theorem State.changeTests_keeps (s : State) (i : Nat) (b : Bus) (f : BusPatch) : s.Keeps (s.changeTests i b f) := by
  have hcap : s.Keeps (if f.capacity.isSome then s.newCapacity i else s) := by
    split
    · exact s.newCapacity_keeps i
    · exact .refl s
  unfold State.changeTests
  dsimp only
  split
  · exact hcap.trans (State.testStep_keeps _ _ i)
  · exact hcap

theorem State.changeTests_moves (s : State) (i : Nat) (b : Bus) (f : BusPatch) : Moves s (s.changeTests i b f) := by
  have hcap : Moves s (if f.capacity.isSome then s.newCapacity i else s) := by
    split
    · exact s.newCapacity_moves i
    · exact .refl s
  unfold State.changeTests
  dsimp only
  split
  · exact hcap.trans (State.testStep_moves _ _ i)
  · exact hcap

theorem State.changeBus_upholds {s : State} {i : Nat} {b : Bus} {f : BusPatch} (hb : s.bus i = some b)
    (hr : (f.write b).importCap ≤ 150000 ∧ (f.write b).exportCap ≤ 60000) : s.Upholds (s.changeBus i b f) where
  lists _ h := by
    have hput : (s.putBus i (b.change f)).ListsAgree :=
      State.putBus_lists hb (by rw [b.change_fields f]; rfl) (by rw [b.change_fields f]; rfl) h
    rw [State.changeBus_tests]
    exact State.changeSession_lists i ((State.changeTests_keeps _ i b f).lists hput)
  powers _ hp ha h := by
    have hmoves : Moves s ((s.putBus i (b.change f)).changeTests i b f) :=
      (Moves.bus i b (b.change f) hb (b.change_beside f).1 (b.change_beside f).2).trans (State.changeTests_moves _ i b f)
    have hput : (s.putBus i (b.change f)).PowersBut (some i) := h.aside (by rw [b.change_fields f]; exact hr)
    rw [State.changeBus_tests]
    exact State.changeSession_powers (hmoves.agrees hp ha) ((State.changeTests_keeps _ i b f).powers _ hput)

theorem applyBusChange_upholds (s : State) (h : ReqHeader) (f : BusPatch) (ht : s.TablesOk) :
    s.Upholds (applyBusChange h f s).state := by
  unfold applyBusChange
  split
  · exact .refl s
  next i b hb =>
    dsimp only
    split
    · exact .refl s
    next hf =>
      split
      · exact .refl s
      · simp only [Bool.not_eq_true, Bool.not_eq_false', busFieldsOk_iff] at hf
        obtain ⟨_, _, himp, hexp, _, _⟩ := hf
        exact State.changeBus_upholds (State.findBus_bus ht hb) ⟨himp, hexp⟩

theorem State.retireBus_keeps {s : State} (ht : s.TablesOk) (i : Nat) : s.Keeps (s.retireBus i) := by
  have hbus {j : Nat} {c : Bus} (hc : (s.retireBus i).bus j = some c) : j ≠ i ∧ s.bus j = some c := by
    have hne : j ≠ i := by
      rintro rfl
      rw [retireBus_bus_self] at hc
      cases hc
    exact ⟨hne, by rw [← retireBus_bus_ne s hne]; exact hc⟩
  refine ⟨fun h => ?_, fun k h => ?_⟩
  · refine h.rest (fun j c hc => ⟨c, (hbus hc).2, List.Sublist.refl _, List.Sublist.refl _⟩)
      fun j c m p hc _ hp hs _ => ⟨p, ?_, Plan.Rests.refl p⟩
    rw [retireBus_plan, if_neg fun hm => ?_]
    · exact hp
    · obtain ⟨q, hq, hslot⟩ := (State.mem_plansOf ht).1 hm
      obtain rfl : p = q := Option.some.inj (hp.symm.trans hq)
      exact (hbus hc).1 (hs.symm.trans hslot)
  · have hview : (s.retireBus i).siteView = s.siteView := by rw [retireBus_frame]; rfl
    have hports : (s.retireBus i).ports = s.ports := by rw [retireBus_frame]
    refine h.from hview (fun j c hc => ⟨c, (hbus hc).2, Bus.SameCaps.refl c⟩) fun n => ?_
    rw [State.port_of_ports hports]
    exact Port.Tamer.refl _

theorem applyBusRetire_keeps (s : State) (h : ReqHeader) (ht : s.TablesOk) : s.Keeps (applyBusRetire h s).state := by
  unfold applyBusRetire
  split
  · exact .refl s
  · split
    · exact .refl s
    · split
      · exact .refl s
      · exact s.retireBus_keeps ht _

theorem applyBusLookup_state (s : State) (h : ReqHeader) : (applyBusLookup h s).state = s := by
  unfold applyBusLookup
  split
  · rfl
  · split <;> rfl

theorem applyBusPlans_state (s : State) (h : ReqHeader) : (applyBusPlans h s).state = s := by
  unfold applyBusPlans
  split <;> rfl

theorem applyBusUnblock_keeps (s : State) (h : ReqHeader) (ht : s.TablesOk) : s.Keeps (applyBusUnblock h s).state := by
  unfold applyBusUnblock
  split
  · exact .refl s
  next i b hb =>
    split
    · exact .refl s
    · exact .putBus _ (State.findBus_bus ht hb) ⟨⟨rfl, rfl, rfl⟩, rfl, rfl⟩

theorem State.setDeparture_keeps (s : State) (i : Nat) (d : Departure) : s.Keeps (s.setDeparture i d) := by
  have hpart (t : State) : t.Keeps (t.modBus i fun b => { b with departure := some d }) :=
    .modBus i _ fun b => ⟨⟨rfl, rfl, rfl⟩, rfl, rfl⟩
  have hready (t : State) : t.Keeps (t.refreshReadiness i) := .modBus i _ fun b => b.setReadiness_still _ _
  exact (((((s.withdrawDeparture_keeps i).trans (hpart _)).trans (State.registerDeparture_keeps _ i d.tDep)).trans
    (State.testStep_keeps _ StepKind.isExport i)).trans (State.withdrawIfIneligible_keeps _ i)).trans (hready _)

theorem applyDepartureSet_keeps (s : State) (h : ReqHeader) (t e : Word) (r : Half) :
    s.Keeps (applyDepartureSet h t e r s).state := by
  unfold applyDepartureSet
  split
  · exact .refl s
  · split
    · exact .refl s
    · split
      · exact .refl s
      · exact s.setDeparture_keeps _ _

theorem applyDepartureClear_keeps (s : State) (h : ReqHeader) (ht : s.TablesOk) : s.Keeps (applyDepartureClear h s).state := by
  unfold applyDepartureClear
  split
  · exact .refl s
  next i b hb =>
    split
    · exact .refl s
    · have hstill : b.Still ({ b with departure := none }.setReadiness .none none) :=
        Bus.Still.trans (c := { b with departure := none }) ⟨⟨rfl, rfl, rfl⟩, rfl, rfl⟩ (Bus.setReadiness_still _ _ _)
      exact (State.Keeps.putBus _ (State.findBus_bus ht hb) hstill).trans (State.withdrawDeparture_keeps _ i)

end Sys2Proof.Machine
end

section
/-! Lists and powers through the requests of plans, site profile, ports, engine, commitments and attention (for O58 and
O59). -/

namespace Sys2Proof.Machine

open Sys2Proof

/-! ### The Plan Table -/

theorem submitSlot_room {u : Bool} {b : Bus} {s : State} {j : Nat} (h : submitSlot u b s = .ok j) :
    (b.prioList ++ b.stdList).length < 8 ∧ s.plan j = none := by
  unfold submitSlot at h
  split at h
  · cases h
  · split at h
    · cases h
    next hl =>
      split at h
      next k hk => cases h; exact ⟨Nat.lt_of_not_le hl, (Table.firstFree_some hk).2⟩
      next => cases h

theorem Bus.append_lists (cls : PlanClass) (j : Nat) (b : Bus) :
    ((b.append cls j).prioList ++ (b.append cls j).stdList).Perm (j :: (b.prioList ++ b.stdList)) := by
  cases cls with
  | priority =>
    show ((b.prioList ++ [j]) ++ b.stdList).Perm _
    rw [List.append_assoc]
    exact List.perm_middle
  | standard =>
    show (b.prioList ++ (b.stdList ++ [j])).Perm _
    rw [← List.append_assoc]
    exact List.perm_append_singleton j _

theorem Bus.mem_append_prio {cls : PlanClass} {j m : Nat} {b : Bus} (h : m ∈ (b.append cls j).prioList) :
    m ∈ b.prioList ∨ (m = j ∧ cls = .priority) := by
  cases cls with
  | priority => exact (List.mem_append.1 h).imp id fun hm => ⟨List.mem_singleton.1 hm, rfl⟩
  | standard => exact .inl h

theorem Bus.mem_append_std {cls : PlanClass} {j m : Nat} {b : Bus} (h : m ∈ (b.append cls j).stdList) :
    m ∈ b.stdList ∨ (m = j ∧ cls = .standard) := by
  cases cls with
  | priority => exact .inl h
  | standard => exact (List.mem_append.1 h).imp id fun hm => ⟨List.mem_singleton.1 hm, rfl⟩

section Place

variable {s : State} {i j : Nat} {b : Bus} {cls : PlanClass} {u : Bool} {steps : List PlanStep}

/-- The bus that takes the new plan: it is listed at its tail, it is QUEUED, and no list named its slot before. -/
theorem Bus.ListsOk.place (h : b.ListsOk s i) (hb : s.bus i = some b) (hj : s.plan j = none)
    (hl : (b.prioList ++ b.stdList).length < 8) :
    ({ b with block := .enabled }.append cls j).ListsOk (s.placePlan i j cls u steps) i := by
  obtain ⟨priority, standard, nodup, length, running⟩ := h
  have hplan := State.placePlan_plan (j := j) (cls := cls) (unblock := u) (steps := steps) hb
  have hperm := Bus.append_lists cls j { b with block := .enabled }
  have hkept {m : Nat} {p : Plan} (hp : s.plan m = some p) : (s.placePlan i j cls u steps).plan m = some p := by
    rw [hplan, if_neg fun e => by rw [e, hj] at hp; cases hp]
    exact hp
  have hnew : (s.placePlan i j cls u steps).plan j = some (newPlan (s.planGens.gen j) i cls u steps) := by
    rw [hplan, if_pos rfl]
  have hfree : j ∉ b.prioList ++ b.stdList := fun hm => by
    rcases List.mem_append.1 hm with hm | hm
    · obtain ⟨p, hp, _⟩ := priority j hm
      cases hj.symm.trans hp
    · obtain ⟨p, hp, _⟩ := standard j hm
      cases hj.symm.trans hp
  have hrun {m : Nat} {p : Plan} (hm : m ∈ ({ b with block := .enabled }.append cls j).prioList
        ++ ({ b with block := .enabled }.append cls j).stdList)
      (hp : (s.placePlan i j cls u steps).plan m = some p) (hr : p.state = .running) :
      m ∈ b.prioList ++ b.stdList ∧ s.plan m = some p := by
    rcases List.mem_cons.1 (hperm.mem_iff.1 hm) with rfl | hm
    · rw [hnew] at hp; cases hp; cases hr
    · refine ⟨hm, ?_⟩
      rw [hplan, if_neg fun e : m = j => hfree (e ▸ hm)] at hp
      exact hp
  refine ⟨fun m hm => ?_, fun m hm => ?_, hperm.nodup_iff.2 (List.nodup_cons.2 ⟨hfree, nodup⟩), ?_,
    fun m k p q hm hk hp hq hpr hqr => ?_⟩
  · rcases Bus.mem_append_prio hm with hm | ⟨rfl, hc⟩
    · obtain ⟨p, hp, hrest⟩ := priority m hm
      exact ⟨p, hkept hp, hrest⟩
    · exact ⟨_, hnew, rfl, hc, rfl⟩
  · rcases Bus.mem_append_std hm with hm | ⟨rfl, hc⟩
    · obtain ⟨p, hp, hrest⟩ := standard m hm
      exact ⟨p, hkept hp, hrest⟩
    · exact ⟨_, hnew, rfl, hc, rfl⟩
  · rw [hperm.length_eq]
    exact hl
  · obtain ⟨hm, hp⟩ := hrun hm hp hpr
    obtain ⟨hk, hq⟩ := hrun hk hq hqr
    exact running m k p q hm hk hp hq hpr hqr

theorem State.placePlan_upholds (hb : s.bus i = some b) (hj : s.plan j = none) (hl : (b.prioList ++ b.stdList).length < 8) :
    s.Keeps (s.placePlan i j cls u steps) where
  lists h := by
    intro m c hc
    rw [State.placePlan_eq hb, State.bus_putBus] at hc
    split at hc
    next hm =>
      cases hc
      rw [hm]
      exact (h i b hb).place hb hj hl
    next =>
      have hkept {k : Nat} {p : Plan} (hp : s.plan k = some p) : (s.placePlan i j cls u steps).plan k = some p := by
        rw [State.placePlan_plan hb, if_neg fun e => by rw [e, hj] at hp; cases hp]
        exact hp
      obtain ⟨priority, standard, nodup, length, running⟩ := h m c hc
      have hback {k : Nat} {p : Plan} (hk : k ∈ c.prioList ++ c.stdList)
          (hp : (s.placePlan i j cls u steps).plan k = some p) : s.plan k = some p := by
        obtain ⟨q, hq, _⟩ := (h m c hc).plan hk
        rw [hkept hq] at hp
        rw [← hp]
        exact hq
      exact ⟨fun k hk => (priority k hk).imp fun p hp => ⟨hkept hp.1, hp.2⟩,
        fun k hk => (standard k hk).imp fun p hp => ⟨hkept hp.1, hp.2⟩, nodup, length,
        fun k l p q hk hl hp hq => running k l p q hk hl (hback hk hp) (hback hl hq)⟩
  powers k h := by
    rw [State.placePlan_eq hb]
    refine h.from rfl (fun m c hc => ?_) fun _ => Port.Tamer.refl _
    rw [State.bus_putBus] at hc
    split at hc
    next hm =>
      cases hc
      refine ⟨b, by rw [hm]; exact hb, ?_⟩
      cases cls <;> exact ⟨rfl, rfl, rfl⟩
    next => exact ⟨c, hc, Bus.SameCaps.refl c⟩

end Place

theorem applyPlanSubmit_keeps (s : State) (h : ReqHeader) (r : List RawStep) (ht : s.TablesOk) :
    s.Keeps (applyPlanSubmit h r s).state := by
  unfold applyPlanSubmit
  split
  · exact .refl s
  next i b hb =>
    split
    · exact .refl s
    · split
      · exact .refl s
      next cls steps _ _ j hj =>
        obtain ⟨hl, hfree⟩ := submitSlot_room hj
        have hplace : s.Keeps (s.placePlan i j cls h.unblock steps) :=
          State.placePlan_upholds (State.findBus_bus ht hb) hfree hl
        have hpre (t : State) : t.Keeps (if cls = .priority then t.preempt i else t) := by
          split
          · exact t.preempt_keeps i
          · exact .refl t
        exact (hplace.trans (hpre _)).trans (State.selection_keeps _ i)

theorem applyPlanCancel_keeps (s : State) (h : ReqHeader) : s.Keeps (applyPlanCancel h s).state := by
  unfold applyPlanCancel
  split
  · exact .refl s
  next j p _ =>
    split
    · show s.Keeps (s.cancelPlan j p)
      unfold State.cancelPlan
      dsimp only
      split
      · exact ((s.finalise_keeps j _ _).trans (State.releasePower_keeps _ _)).trans (State.selection_keeps _ _)
      · exact s.finalise_keeps j _ _
    · exact .refl s

/-- Freeing a plan that is not listed leaves the lists as they are. -/
theorem State.freePlan_keeps {s : State} {j : Nat} {p : Plan} (hp : s.plan j = some p) (hl : p.state.listed = false) :
    s.Keeps (s.freePlan j) where
  lists h := by
    refine h.rest (fun i c hc => ⟨c, hc, List.Sublist.refl _, List.Sublist.refl _⟩)
      fun i c k q _ _ hq _ hql => ⟨q, ?_, Plan.Rests.refl q⟩
    have hne : k ≠ j := by
      rintro rfl
      obtain rfl : p = q := Option.some.inj (hp.symm.trans hq)
      cases hl.symm.trans hql
    exact (Table.get_del_ne _ hne).trans hq
  powers _ h := h.from rfl (State.CapsFrom.of_buses rfl) fun _ => Port.Tamer.refl _

theorem applyPlanRetire_keeps (s : State) (h : ReqHeader) : s.Keeps (applyPlanRetire h s).state := by
  unfold applyPlanRetire
  split
  · exact .refl s
  next j p e =>
    split
    · exact .refl s
    next hl => exact State.freePlan_keeps (State.resolvePlan_ok e) (by simpa using hl)

theorem applyPlanLookup_state (s : State) (h : ReqHeader) : (applyPlanLookup h s).state = s := by
  unfold applyPlanLookup
  split
  · rfl
  · split
    · rfl
    · split <;> rfl

/-! ### The site profile -/

/-- A change of the staged copy within its ranges. -/
theorem State.Keeps.staged {s t : State} (ht : t = { s with site := { s.site with
      staged := t.site.staged, stagedRatings := t.site.stagedRatings, loadPending := t.site.loadPending } })
    (htrickle : s.site.staged.tricklePower ≤ 22000 → t.site.staged.tricklePower ≤ 22000)
    (hratings : (∀ n : PortNo, s.site.stagedRatings[n].Ok) → ∀ n : PortNo, t.site.stagedRatings[n].Ok) : s.Keeps t where
  lists h := by
    rw [ht]
    exact h.same (fun i c hc => ⟨c, hc, rfl, rfl⟩) rfl
  powers k h := by
    have hbuses : t.buses = s.buses := by rw [ht]
    have hports : t.ports = s.ports := by rw [ht]
    have hengine : t.engine = s.engine := by rw [ht]
    have hlive : t.site.liveRatings = s.site.liveRatings := by rw [ht]
    have htrick : t.site.live.tricklePower = s.site.live.tricklePower := by rw [ht]
    have hfrom : s.CapsFrom t := State.CapsFrom.of_buses hbuses
    refine ⟨⟨hratings h.site.staged, fun n => ?_, ⟨htrickle h.site.trickle.1, ?_⟩, fun n => ?_⟩,
      fun i b hb => h.buses i b ?_, fun n => ?_⟩
    · rw [hlive]; exact h.site.live n
    · rw [htrick]; exact h.site.trickle.2
    · rw [hengine]; exact h.site.tierA n
    · rw [State.bus, ← hbuses]; exact hb
    · rw [State.port_of_ports hports]; exact (h.ports n).from hfrom

theorem State.stageSite_keeps (s : State) {f : SitePatch} (hf : f.ok = true) : s.Keeps (s.stageSite f) := by
  refine .staged rfl (fun h => ?_) id
  obtain ⟨_, _, _, _, _, _, _, _, _, _, htrickle, _⟩ := (SitePatch.ok_iff f).1 hf
  exact (inRange_keep (inRange_iff.2 htrickle) ⟨Nat.zero_le _, h⟩).2

theorem applySiteConfigure_keeps (s : State) (f : SitePatch) : s.Keeps (applySiteConfigure f s).state := by
  unfold applySiteConfigure
  split
  · exact .refl s
  next hf =>
    split
    · exact .refl s
    · exact (s.stageSite_keeps (by simpa using hf)).trans (State.loadIfStopped_keeps _)

theorem applySiteLookup_state (s : State) (b : Byte) (w : Word) : (applySiteLookup b w s).state = s := by
  unfold applySiteLookup
  split
  · rfl
  · rfl
  · split <;> rfl
  · rfl
  · rfl

/-! ### The ports -/

theorem Port.endTransition_tamer (t : PortTarget) (r : TransitionOutcome) (now : Nat) (p : Port) :
    p.Tamer (p.endTransition t r now) := by
  rw [Port.endTransition_eq]
  exact .same rfl rfl rfl

theorem Port.go_tamer (t : PortTarget) (now : Nat) (p : Port) : p.Tamer (p.go t now) := by
  have hident : p.Tamer p.endIdentification := by
    unfold Port.endIdentification
    split
    · exact .same rfl rfl rfl
    · exact .refl p
  unfold Port.go
  split
  · exact (Port.zeroHeld_tamer p).trans (.same rfl rfl rfl)
  · exact (hident.trans (Port.endTransition_tamer _ _ _ _)).trans (.same rfl rfl rfl)

theorem applyPortGo_keeps (s : State) (w : Word) (b : Byte) : s.Keeps (applyPortGo w b s).state := by
  unfold applyPortGo
  split
  · split
    · exact .refl s
    · exact .updPort _ _ (Port.go_tamer _ _ _)
  · exact .refl s

theorem Port.cancel_tamer (t : PortTarget) (now : Nat) (p : Port) : p.Tamer (p.cancel t now) :=
  (Port.endTransition_tamer t .cancelled now p).trans (.same rfl rfl rfl)

theorem applyPortCancel_keeps (s : State) (w : Word) : s.Keeps (applyPortCancel w s).state := by
  unfold applyPortCancel
  split
  · exact .refl s
  · split
    · exact .refl s
    · split
      · exact .refl s
      · exact .updPort _ _ (Port.cancel_tamer _ _ _)

theorem stageRating_fits {top old : Nat} (htop : top % 100 = 0) (ho : old % 100 = 0 ∧ old ≤ top) (o : Option Word) :
    stageRating top old o % 100 = 0 ∧ stageRating top old o ≤ top := by
  cases o with
  | none => exact ho
  | some w => exact ⟨min_whole (down100_whole _) htop, Nat.min_le_right _ _⟩

theorem State.stageRatings_keeps (s : State) (n : PortNo) (f : PortPatch) : s.Keeps (s.stageRatings n f) := by
  refine .staged rfl id fun h m => ?_
  show (s.site.stagedRatings.set n (stagedAfter f s.site.stagedRatings[n]))[m].Ok
  rw [Fin.getElem_fin, Vector.getElem_set]
  split
  · obtain ⟨himp, himp', hexp, hexp'⟩ := h n
    obtain ⟨hi, hi'⟩ := stageRating_fits (top := 150000) rfl ⟨himp, himp'⟩ f.importRating
    obtain ⟨he, he'⟩ := stageRating_fits (top := 60000) rfl ⟨hexp, hexp'⟩ f.exportRating
    exact ⟨hi, hi', he, he'⟩
  · exact h m

theorem applyPortConfigure_keeps (s : State) (w : Word) (f : PortPatch) : s.Keeps (applyPortConfigure w f s).state := by
  unfold applyPortConfigure
  split
  · exact .refl s
  next n _ =>
    split
    · exact .refl s
    · show s.Keeps (s.configurePort n f)
      have hport : s.Keeps (s.setPort n (Port.configure f)) := .setPort n _ (.same rfl rfl rfl)
      unfold State.configurePort
      dsimp only
      split
      · exact (hport.trans (State.stageRatings_keeps _ n f)).trans (State.loadIfStopped_keeps _)
      · exact hport

theorem applyPortLookup_state (s : State) (h : ReqHeader) (w : Word) : (applyPortLookup h w s).state = s := by
  unfold applyPortLookup
  split
  · rfl
  · split <;> rfl

/-! ### Engine, commitments, latch and attention -/

theorem applyAllocStart_upholds (s : State) : s.Upholds (applyAllocStart s).state := by
  unfold applyAllocStart
  split
  · exact .refl s
  · split
    · exact .refl s
    · exact s.startEngine_upholds

theorem applyAllocStop_keeps (s : State) : s.Keeps (applyAllocStop s).state := by
  unfold applyAllocStop
  split
  · exact s.stopEngine_keeps
  · exact .refl s

theorem applyAllocLookup_state (s : State) (b : Byte) (w : Word) : (applyAllocLookup b w s).state = s := by
  unfold applyAllocLookup
  split
  · rfl
  · split <;> rfl
  · rfl

theorem applyKeepalive_keeps (s : State) : s.Keeps (applyKeepalive s).state := s.keepAlive_keeps

theorem State.putCommit_keeps (s : State) (i : Nat) (c : Commitment) : s.Keeps (s.putCommit i c) := .beside rfl rfl rfl rfl

theorem applyCommitOffer_keeps (s : State) (o : Offer) : s.Keeps (applyCommitOffer o s).state := by
  unfold applyCommitOffer
  split
  · exact .refl s
  · split
    · exact .refl s
    · split
      · exact .refl s
      · exact (s.putCommit_keeps _ _).trans (State.registerOffer_keeps _ _ _ _ _)

theorem applyCommitWithdraw_keeps (s : State) (h : ReqHeader) : s.Keeps (applyCommitWithdraw h s).state := by
  unfold applyCommitWithdraw
  split
  · exact .refl s
  · split
    · exact s.endCommit_keeps _ _
    · exact .refl s

theorem applyCommitDispatch_keeps (s : State) (h : ReqHeader) : s.Keeps (applyCommitDispatch h s).state := by
  unfold applyCommitDispatch
  split
  · exact .refl s
  · split
    · exact .refl s
    · exact s.modCommit_keeps _ _

theorem applyCommitRelease_keeps (s : State) (h : ReqHeader) : s.Keeps (applyCommitRelease h s).state := by
  unfold applyCommitRelease
  split
  · exact .refl s
  · split
    · exact s.endCommit_keeps _ _
    · exact .refl s

theorem applyCommitLookup_state (s : State) (h : ReqHeader) : (applyCommitLookup h s).state = s := by
  unfold applyCommitLookup
  split
  · rfl
  · split <;> rfl

theorem applyCommitRetire_keeps (s : State) (h : ReqHeader) : s.Keeps (applyCommitRetire h s).state := by
  unfold applyCommitRetire
  split
  · exact .refl s
  · split
    · exact .beside rfl rfl rfl rfl
    · exact .refl s

theorem applyClearTrip_keeps (s : State) : s.Keeps (applyClearTrip s).state := by
  unfold applyClearTrip
  split
  · exact .refl s
  · split
    · exact s.clearLatch_keeps
    · exact .refl s

theorem applyAttentionScan_state (s : State) (h : ReqHeader) : (applyAttentionScan h s).state = s := by
  unfold applyAttentionScan
  dsimp only
  split <;> rfl

theorem Port.clearFlags_tamer (flags : Word) (p : Port) : p.Tamer (p.clearFlags flags) := by
  unfold Port.clearFlags
  dsimp only
  split <;> exact .same rfl rfl rfl

theorem State.clearAt_keeps (s : State) (c k : Nat) (w : Word) : s.Keeps (s.clearAt c k w).state := by
  unfold State.clearAt
  split
  · exact .beside rfl rfl rfl rfl
  · split
    · exact .setPort _ _ (Port.clearFlags_tamer w _)
    · exact .refl s
  · split
    next b hb => exact .putBus _ hb ⟨⟨rfl, rfl, rfl⟩, rfl, rfl⟩
    next => exact .refl s
  · split
    next p hp => exact .putPlan _ hp ⟨rfl, rfl, id, id⟩
    next => exact .refl s
  · split
    · exact s.putCommit_keeps _ _
    · exact .refl s

theorem applyAttentionClear_keeps (s : State) (h : ReqHeader) (c : Byte) (w : Word) :
    s.Keeps (applyAttentionClear h c w s).state := by
  unfold applyAttentionClear
  split
  · exact .refl s
  · split
    · exact .refl s
    · split
      · exact .refl s
      · exact s.clearAt_keeps _ _ _

end Sys2Proof.Machine
end

section
/-! Lists and powers through the events of ports, exchange and meters, and through every command and every step: O58 and
O59. -/

namespace Sys2Proof.Machine

open Sys2Proof

/-! ### The ports' own events -/

theorem Port.enter_tamer (st : PortState) (p : Port) : p.Tamer (p.enter st) := .same rfl rfl rfl

theorem State.sessionLevel_keeps (s : State) (n : PortNo) (l : PilotLevel) : s.Keeps (s.sessionLevel n l) := by
  have hzero : s.Keeps (s.updPort n Port.zeroHeld) := .updPort n _ (Port.zeroHeld_tamer _)
  unfold State.sessionLevel
  split
  · exact .refl s
  · exact .refl s
  · exact hzero
  · dsimp only
    split
    · exact hzero.trans (State.blockBus_keeps _ _ _)
    · exact hzero

theorem State.actPilot_keeps (s : State) (n : PortNo) (l : PilotLevel) : s.Keeps (s.actPilot n l) := by
  have henter (st : PortState) : s.Keeps (s.updPort n (Port.enter st)) := .updPort n _ (Port.enter_tamer st _)
  unfold State.actPilot
  split
  · exact .refl s
  · exact .refl s
  · split
    · exact henter _
    · exact .refl s
  · split
    · exact .refl s
    · exact henter _
  · split
    · exact .updPort n _ (.same rfl rfl rfl)
    · exact .refl s
  all_goals
    split
    · exact s.unplug_keeps n
    · exact s.sessionLevel_keeps n l

theorem State.actFeedback_keeps (s : State) (n : PortNo) (c : Contact) : s.Keeps (s.actFeedback n c) := by
  unfold State.actFeedback
  split
  · exact .updPort n _ (Port.enter_tamer _ _)
  · exact s.portFault_keeps n _
  · exact s.closingOpen_keeps n
  · exact .refl s

theorem settlingEnd_tamer (p : Port) :
    p.Tamer (if seated p.taken then p.enter .detecting else { p with settling := .stopped }) := by
  split <;> exact .same rfl rfl rfl

theorem Port.sendFrame_tamer (p : Port) : p.Tamer p.sendFrame :=
  ⟨id, fun _ => Nat.le_of_lt_succ (Nat.mod_lt _ (by decide)), fun _ => id⟩

theorem Port.glitchLine_tamer (l : MeterLine) (p : Port) : p.Tamer (p.glitchLine l) := by
  have hline := Port.setLine_tamer l (LineFilter.fallBack p.recordsGlitch) p
  unfold Port.glitchLine
  dsimp only
  split
  · exact hline.trans (Port.raise_tamer _ _)
  · exact hline

theorem Port.moveBoth_tamer (p : Port) : p.Tamer p.moveBoth := by
  unfold Port.moveBoth
  dsimp only
  split <;> exact .same rfl rfl rfl

/-! ### The messages of a session (R98, R104, R105) -/

theorem State.limitBus_keeps (s : State) (n : PortNo) (i a b : Nat) (hi : (s.port n).boundSlot = some i) :
    s.Keeps (s.limitBus n i a b) := by
  unfold State.limitBus
  split
  next c hb =>
    refine .updPortWith n _ fun k h => ?_
    have hport := h.ports n
    have hslot : ({ s.port n with session := (s.port n).session.map (Session.limitTo a b) } : Port).boundSlot = some i := by
      obtain ⟨x, hx, hxb⟩ : ∃ x, (s.port n).session = some x ∧ x.binding = .bound i := by
        cases hs : (s.port n).session with
        | none => simp only [Port.boundSlot, hs] at hi; cases hi
        | some x => exact ⟨x, rfl, Port.boundSlot_binding hi hs⟩
      exact Port.boundSlot_some (x := x.limitTo a b) (congrArg (Option.map _) hx) hxb
    refine .reformCaps hb (h.buses i c hb) hslot hport.held hport.frame fun x hx => ?_
    obtain ⟨y, hy, rfl⟩ := Option.map_eq_some_iff.1 hx
    exact (hport.caps y hy).range
  next => exact .refl s

theorem State.reportUnidentified_keeps (s : State) (n : PortNo) (c t : Nat) (hi : (s.port n).boundSlot = none) :
    s.Keeps (s.updPort n (Port.reportUnidentified c t)) := by
  refine .updPortWith n _ fun k h => ⟨Setpoint.Ok.zero, (h.ports n).frame, fun x hx => ?_⟩
  obtain ⟨y, hy, rfl⟩ := Option.map_eq_some_iff.1 hx
  obtain ⟨range, _, unid⟩ := (h.ports n).caps y hy
  refine ⟨⟨Nat.zero_le _, range.2⟩, fun j d e hj => ?_, fun why hw => ⟨Nat.zero_le _, (unid why hw).2⟩⟩
  have hbound : (s.port n).boundSlot = some j := Port.boundSlot_some hy hj
  cases hi.symm.trans hbound

theorem State.discard_keeps (s : State) (n : PortNo) : s.Keeps (s.setPort n Port.discard) := .setPort n _ (.same rfl rfl rfl)

/-! ### Every command -/

theorem State.modRing_keeps (s : State) (f : Ring → Ring) : s.Keeps (s.modRing f) := .beside rfl rfl rfl rfl

theorem State.ringError_keeps (s : State) (f : Ring → Ring) : s.Keeps (s.modRing f).ringError :=
  (s.modRing_keeps f).trans (.beside rfl rfl rfl rfl)

theorem State.Upholds.withRing {s t : State} (r : Ring) (h : s.Upholds t) : s.Upholds { t with ring := r } :=
  have hring : t.Keeps { t with ring := r } := .beside rfl rfl rfl rfl
  ⟨fun ht hl => hring.lists (h.lists ht hl), fun ht hp ha hs => hring.powers none (h.powers ht hp ha hs)⟩

theorem State.Upholds.overRing {s t : State} {f : Ring → Ring} (h : (s.modRing f).Upholds t) : s.Upholds t where
  lists ht hl := h.lists (ht.of_eq rfl rfl rfl rfl rfl) ((s.modRing_keeps f).lists hl)
  powers ht hp ha hs := h.powers (ht.of_eq rfl rfl rfl rfl rfl) hp ha ((s.modRing_keeps f).powers none hs)

theorem takeRequest_upholds {q : Request} {act : State → Reply} {s t : State} (h : takeRequest q act s = .next t)
    (ha : (s.modRing Ring.pop).Upholds (act (s.modRing Ring.pop)).state) : s.Upholds t := by
  unfold takeRequest at h
  split at h
  · cases h
    exact ha.overRing.withRing _
  · cases h
    exact .refl s

theorem takeRequest_keeps {q : Request} {act : State → Reply} {s t : State} (h : takeRequest q act s = .next t)
    (ha : ∀ r : State, r.Keeps (act r).state) : s.Upholds t := takeRequest_upholds h (ha _).upholds

theorem takeRequest_looks {q : Request} {act : State → Reply} {s t : State} (h : takeRequest q act s = .next t)
    (ha : ∀ r : State, (act r).state = r) : s.Upholds t :=
  takeRequest_keeps h fun r => by rw [ha r]; exact .refl r

theorem takeCrossing_keeps {k : RegKind} {i : Nat} {s t : State} (h : takeCrossing k i s = .next t) : s.Upholds t := by
  unfold takeCrossing at h
  split at h
  · split at h
    · cases h
      exact ((s.unfire_keeps _).trans (State.handOver_keeps _ _)).upholds
    · cases h
      exact .refl s
  · cases h
    exact .refl s

theorem when_keeps {c : Prop} [Decidable c] {s u t : State}
    (h : (if c then Host.Outcome.next u else .next s : Host.Outcome State Fault Refusal) = .next t) (hk : s.Keeps u) :
    s.Upholds t := by
  split at h
  · cases h; exact hk.upholds
  · cases h; exact .refl s

theorem whenNot_keeps {c : Prop} [Decidable c] {s u t : State}
    (h : (if c then Host.Outcome.next s else .next u : Host.Outcome State Fault Refusal) = .next t) (hk : s.Keeps u) :
    s.Upholds t := by
  split at h
  · cases h; exact .refl s
  · cases h; exact hk.upholds

theorem exec_upholds {i : Instr} {s t : State} (hp : ∀ l, i ≠ .powerOn l) (ht : s.TablesOk) (h : exec i s = .next t) :
    s.Upholds t := by
  have hr : (s.modRing Ring.pop).TablesOk := ht.of_eq rfl rfl rfl rfl rfl
  cases i with
  | powerOn l => exact absurd rfl (hp l)
  | depotTimeAdvance =>
    simp only [exec, execDepotTimeAdvance] at h
    split at h
    · cases h; exact .refl s
    · exact when_keeps h s.advanceSecond_keeps
  | rolloverCrossing => exact takeCrossing_keeps h
  | notBeforeCrossing k => exact takeCrossing_keeps h
  | holdUntilCrossing k => exact takeCrossing_keeps h
  | endByCrossing k => exact takeCrossing_keeps h
  | departureCrossing k => exact takeCrossing_keeps h
  | lockoutPointCrossing k => exact takeCrossing_keeps h
  | armPointCrossing k => exact takeCrossing_keeps h
  | windowStartCrossing k => exact takeCrossing_keeps h
  | windowEndCrossing k => exact takeCrossing_keeps h
  | setTime r v => exact takeRequest_keeps h (applySetTime_keeps · v)
  | siteConfigure r f => exact takeRequest_keeps h (applySiteConfigure_keeps · f)
  | siteLoadReport r w => exact takeRequest_keeps h fun _ => .beside rfl rfl rfl rfl
  | siteLookup r a b => exact takeRequest_looks h (applySiteLookup_state · a b)
  | busEnrol r p => exact takeRequest_upholds h (applyBusEnrol_upholds _ r p)
  | busChange r f => exact takeRequest_upholds h (applyBusChange_upholds _ r f hr)
  | busRetire r => exact takeRequest_upholds h (applyBusRetire_keeps _ r hr).upholds
  | busLookup r => exact takeRequest_looks h (applyBusLookup_state · r)
  | busPlans r => exact takeRequest_looks h (applyBusPlans_state · r)
  | busUnblock r => exact takeRequest_upholds h (applyBusUnblock_keeps _ r hr).upholds
  | departureSet r a b c => exact takeRequest_keeps h (applyDepartureSet_keeps · r a b c)
  | departureClear r => exact takeRequest_upholds h (applyDepartureClear_keeps _ r hr).upholds
  | planSubmit r a b c d => exact takeRequest_upholds h (applyPlanSubmit_keeps _ r _ hr).upholds
  | planCancel r => exact takeRequest_keeps h (applyPlanCancel_keeps · r)
  | planRetire r => exact takeRequest_keeps h (applyPlanRetire_keeps · r)
  | planLookup r => exact takeRequest_looks h (applyPlanLookup_state · r)
  | portGo r a b => exact takeRequest_keeps h (applyPortGo_keeps · a b)
  | portCancel r a => exact takeRequest_keeps h (applyPortCancel_keeps · a)
  | portConfigure r a f => exact takeRequest_keeps h (applyPortConfigure_keeps · a f)
  | portLookup r a => exact takeRequest_looks h (applyPortLookup_state · r a)
  | allocStart r => exact takeRequest_upholds h (applyAllocStart_upholds _)
  | allocStop r => exact takeRequest_keeps h applyAllocStop_keeps
  | allocLookup r a b => exact takeRequest_looks h (applyAllocLookup_state · a b)
  | commitOffer r a b c d => exact takeRequest_keeps h (applyCommitOffer_keeps · _)
  | commitWithdraw r => exact takeRequest_keeps h (applyCommitWithdraw_keeps · r)
  | commitDispatch r => exact takeRequest_keeps h (applyCommitDispatch_keeps · r)
  | commitRelease r => exact takeRequest_keeps h (applyCommitRelease_keeps · r)
  | commitLookup r => exact takeRequest_looks h (applyCommitLookup_state · r)
  | commitRetire r => exact takeRequest_keeps h (applyCommitRetire_keeps · r)
  | clearTrip r => exact takeRequest_keeps h applyClearTrip_keeps
  | keepalive r => exact takeRequest_keeps h applyKeepalive_keeps
  | attentionScan r => exact takeRequest_looks h (applyAttentionScan_state · r)
  | attentionClear r c w => exact takeRequest_keeps h (applyAttentionClear_keeps · r c w)
  | unknownKind r k =>
    simp only [exec, execUnknownKind] at h
    split at h
    · exact takeRequest_looks h fun _ => rfl
    · cases h
  | allocationComputation =>
    simp only [exec, execAllocationComputation] at h
    split at h
    · cases h; exact s.compute_upholds
    · cases h; exact .refl s
  | pilotLevelTaken n l =>
    have htake : s.Keeps (s.setPort n (Port.takePilot l)) := .setPort n _ (.same rfl rfl rfl)
    exact whenNot_keeps h (htake.trans (State.actPilot_keeps _ n l))
  | settlingEnd n => exact when_keeps h (.updPort n _ (settlingEnd_tamer _))
  | debounceEnd n => exact when_keeps h (.updPort n _ (.same rfl rfl rfl))
  | answerTimerExpiry n =>
    simp only [exec, execAnswerTimerExpiry] at h
    split at h
    · split at h
      · cases h; exact (State.Keeps.setPort n _ (.same rfl rfl rfl)).upholds
      · cases h; exact (s.openUnidentified_keeps n _ _).upholds
    · cases h; exact .refl s
  | announce n m =>
    simp only [exec, execAnnounce] at h
    split at h
    · cases h; exact .refl s
    · cases h; exact (s.judgeAnnounce_keeps n m ht).upholds
    · cases h; exact (s.discard_keeps n).upholds
  | limit n a b =>
    simp only [exec, execLimit] at h
    split at h
    · cases h; exact .refl s
    · cases h; exact (s.discard_keeps n).upholds
    · split at h
      next i hi => cases h; exact (s.limitBus_keeps n i _ _ hi).upholds
      next => cases h; exact (s.discard_keeps n).upholds
  | faultReport n c =>
    simp only [exec, execFaultReport] at h
    split at h
    · cases h; exact .refl s
    · cases h; exact (s.discard_keeps n).upholds
    · split at h
      next i _ =>
        cases h
        have hstore : s.Keeps (s.setPort n (Port.storeReport c.toNat s.now)) := .setPort n _ (.same rfl rfl rfl)
        exact (hstore.trans (State.blockBus_keeps _ i _)).upholds
      next hi => cases h; exact (s.reportUnidentified_keeps n _ _ hi).upholds
  | messageCheckFailure n => exact when_keeps h (.setPort n _ (.same rfl rfl rfl))
  | unknownTypeDiscard n => exact when_keeps h (s.discard_keeps n)
  | feedbackTaken n c =>
    simp only [exec, execFeedbackTaken] at h
    split at h
    · cases h; exact (s.closingOpen_keeps n).upholds
    · cases h
      have htake : s.Keeps (s.updPort n (Port.takeFeedback c)) := .updPort n _ (.same rfl rfl rfl)
      exact (htake.trans (State.actFeedback_keeps _ n c)).upholds
  | confirmationTimeout n => exact when_keeps h (s.portFault_keeps n _)
  | openDelayExpiry n => exact when_keeps h (.updPort n _ (.same rfl rfl rfl))
  | weldTimerExpiry n =>
    simp only [exec, execWeldTimerExpiry] at h
    split at h
    · split at h
      · cases h; exact (State.Keeps.setPort n _ (.same rfl rfl rfl)).upholds
      · cases h
        have hstop : s.Keeps (s.setPort n fun p => { p with weld := .stopped }) := .setPort n _ (.same rfl rfl rfl)
        exact (hstop.trans (State.portFault_keeps _ n _)).upholds
    · cases h; exact .refl s
  | quietTimerExpiry n => exact when_keeps h (s.giveOpen_keeps n)
  | limitTimerExpiry n =>
    have hflag : s.Keeps (s.setPort n (Port.raise PortFlag.closeTimeout)) := .setPort n _ (Port.raise_tamer _ _)
    exact when_keeps h (hflag.trans (State.giveOpen_keeps _ n))
  | setpointFrameRepeat n => exact when_keeps h (.setPort n _ (Port.sendFrame_tamer _))
  | filteredTransition n m =>
    cases m with
    | one l => cases h; exact (s.lineMoved_keeps n l _).upholds
    | both => cases h; exact (State.Keeps.setPort n _ (Port.moveBoth_tamer _)).upholds
  | lineFilterGlitch n l => exact when_keeps h (.setPort n _ (Port.glitchLine_tamer l _))
  | stallTimerExpiry n =>
    have hstop : s.Keeps (s.setPort n fun p => { p with stall := .stopped }) := .setPort n _ (.same rfl rfl rfl)
    simp only [exec, execStallTimerExpiry] at h
    split at h
    · split at h
      · cases h; exact (hstop.trans (State.blockBus_keeps _ _ _)).upholds
      · cases h; exact hstop.upholds
    · cases h; exact .refl s
  | siteTripAssertion =>
    simp only [exec, execSiteTripAssertion] at h
    split at h
    · cases h; exact .refl s
    · split at h
      · cases h; exact ((s.protection_keeps ⟨true, true⟩).trans (State.raiseSite_keeps _ _)).upholds
      · injection h with e; rw [← e]; exact s.trip_keeps.upholds
  | siteTripDeassertion => cases h; exact (s.protection_keeps _).upholds
  | gridDispatchRisingEdge => exact whenNot_keeps h ((s.takeDispatch_keeps true).trans (State.risingEdge_keeps _))
  | gridDispatchFallingEdge => exact when_keeps h ((s.takeDispatch_keeps false).trans (State.fallingEdge_keeps _))
  | supervisionTimerExpiry => exact when_keeps h s.supervisionExpiry_keeps
  | requestWritePointerWrite v => exact when_keeps h (s.modRing_keeps _)
  | completionReadPointerWrite v => exact when_keeps h (s.modRing_keeps _)
  | ringBaseWrite i a => exact when_keeps h (s.modRing_keeps _)
  | ringSizeWrite i a => exact when_keeps h (s.modRing_keeps _)
  | ringEnable => exact when_keeps h (s.modRing_keeps _)
  | ringDisable => exact when_keeps h (s.modRing_keeps _)
  | ringReset => cases h; exact (s.modRing_keeps _).upholds
  | completionThresholdWrite v => cases h; exact (s.modRing_keeps _).upholds
  | completionHoldTimeWrite v => cases h; exact (s.modRing_keeps _).upholds
  | attentionMaskWrite v => 
    cases h
    have hmask : s.Keeps { s with mask := v.extractLsb' 0 5 } := .beside rfl rfl rfl rfl
    exact hmask.upholds
  | interruptAcknowledge v => exact when_keeps h (s.modRing_keeps _)
  | fetchBurstEnd rs =>
    simp only [exec, execFetchBurstEnd] at h
    split at h
    · exact when_keeps h (s.modRing_keeps _)
    · cases h
  | fetchError => exact when_keeps h (s.ringError_keeps _)
  | completionWriteDone => exact when_keeps h (s.modRing_keeps _)
  | completionWriteError => exact when_keeps h (s.ringError_keeps _)
  | holdTimerExpiry => exact when_keeps h (s.modRing_keeps _)
  | enquireSent n => exact when_keeps h (.setPort n _ (.same rfl rfl rfl))
  | meterLineSample n l v =>
    simp only [exec, execMeterLineSample] at h
    split at h
    · split at h
      · cases h; exact (State.Keeps.setPort n _ (Port.glitchLine_tamer l _)).upholds
      · cases h; exact (State.Keeps.setPort n _ (Port.setLine_tamer l _ _)).upholds
    · split at h
      · cases h; exact (s.lineMoved_keeps n l v).upholds
      · cases h; exact (State.Keeps.setPort n _ (Port.setLine_tamer l _ _)).upholds

/-! ### Power-on, one millisecond and the step -/

theorem poweredOn_tablesOk (l : LineLevels) (q : List Instr) : (poweredOn l q).TablesOk :=
  ⟨.empty _, .empty _, .empty _, .empty _, .empty _, List.nodup_nil⟩

theorem poweredOn_listsAgree (l : LineLevels) (q : List Instr) : (poweredOn l q).ListsAgree :=
  fun i _ hb => nomatch (Table.get_empty i).symm.trans hb

theorem poweredOn_oneActive (l : LineLevels) (q : List Instr) : (poweredOn l q).OneActive :=
  fun i _ _ _ hc => nomatch (Table.get_empty i).symm.trans hc

theorem poweredOn_portsOk (l : LineLevels) (q : List Instr) : (poweredOn l q).PortsOk := fun n => by
  rw [poweredOn_port]
  exact Port.powerOn_ok n _

theorem poweredOn_agrees (l : LineLevels) (q : List Instr) : (poweredOn l q).Agrees := fun i n => by
  rw [poweredOn_port]
  exact ⟨fun h => (by cases h), fun ⟨b, hb, _⟩ => nomatch (Table.get_empty i).symm.trans hb⟩

theorem poweredOn_powersOk (l : LineLevels) (q : List Instr) : (poweredOn l q).PowersOk where
  staged := reset_powersOk.staged
  live := reset_powersOk.live
  trickle := reset_powersOk.trickle
  buses := reset_powersOk.buses
  tierA := reset_powersOk.tierA
  held n := by rw [poweredOn_port]; exact .zero
  caps n x h := by rw [poweredOn_port] at h; cases h
  frames n := by rw [poweredOn_port]; exact Nat.zero_le _

theorem Port.tick_tamer (p : Port) : p.Tamer p.tick := .same rfl rfl rfl

theorem State.tick_keeps (s : State) : s.Keeps s.tick :=
  .ports rfl rfl rfl fun n _ h => by
    rw [State.tick_port]
    exact (h.ports n).tamer (Port.tick_tamer _)

theorem Port.Ok.tick {n : PortNo} {p : Port} (h : p.Ok n) : p.tick.Ok n := by
  obtain ⟨number, ⟨session, held, dir, pending, target, fault⟩, timed, ⟨closed, opened⟩, inRange⟩ := h
  obtain ⟨perCount, threshold, counters, attempts, run, counts, energies, residue⟩ := inRange
  refine ⟨number, ⟨session, held, dir, pending, target, fault⟩, ?_, ⟨closed, fun hc => ?_⟩,
    ⟨perCount, threshold, counters, attempts, run, counts, energies, residue⟩⟩
  · obtain ⟨settling, debounce, answer, confirmation, openDelay, quiet, limit, stall, weld⟩ := timed
    constructor <;> simp only [Port.tick, Timer.tick_isRunning] <;> assumption
  · simp only [Port.tick, Timer.tick_isRunning]
    exact opened hc

theorem State.tick_agrees {s : State} (h : s.Agrees) : s.tick.Agrees := fun i n => by
  rw [State.tick_port]
  exact h i n

theorem State.tick_ahead (s : State) (h : s.Ahead) : s.tick.Ahead := by
  have hnow : s.tick.now = s.now := (congrArg Clock.time s.clock.tick_eq :)
  have hregs : s.tick.clock.regs = s.clock.regs := (congrArg Clock.regs s.clock.tick_eq :)
  intro r hr
  rw [hregs] at hr
  rw [hnow]
  exact h r hr

theorem State.tick_portsOk (s : State) (h : s.PortsOk) : s.tick.PortsOk := fun n => by
  rw [State.tick_port]
  exact (h n).tick

theorem State.queue_keeps (s : State) (q : List Instr) : s.Keeps { s with pending := q } := .beside rfl rfl rfl rfl

/-- The three ways of a step: a millisecond, POWER_ON, and every other command. -/
theorem step_cases {s t : State} (h : step s = .next t) : t = s.tick
    ∨ (∃ l rest, t = poweredOn l rest)
    ∨ ∃ i rest, (∀ l, i ≠ .powerOn l) ∧ exec i { s with pending := rest } = .next t := by
  unfold step at h
  split at h
  · cases h; exact .inl rfl
  next c rest _ =>
    by_cases hp : ∃ l, c = .powerOn l
    · obtain ⟨l, rfl⟩ := hp
      cases h
      exact .inr (.inl ⟨l, rest, rfl⟩)
    · exact .inr (.inr ⟨c, rest, fun l e => hp ⟨l, e⟩, h⟩)

/-- Settles O58: POWER_ON empties the tables, a millisecond leaves them, and every other command is a chain of moves that
keeps lists and plans in agreement. -/
theorem stepsKeepTablesAndRegistrations : Obligations.StepsKeepTablesAndRegistrations := by
  refine ⟨fun s t ht h => ?tables, fun s t ht hl h => ?lists, fun s t ht ha ho h => ?registrations⟩
  case tables =>
    rcases step_cases h with rfl | ⟨l, rest, rfl⟩ | ⟨i, rest, hi, hx⟩
    · exact ht.of_eq rfl rfl rfl rfl rfl
    · exact poweredOn_tablesOk l rest
    · have hq : ({ s with pending := rest } : State).TablesOk := ht.of_eq rfl rfl rfl rfl rfl
      exact (exec_effect hi hq hx).tablesOk hq
  case lists =>
    rcases step_cases h with rfl | ⟨l, rest, rfl⟩ | ⟨i, rest, hi, hx⟩
    · exact s.tick_keeps.lists hl
    · exact poweredOn_listsAgree l rest
    · have hq : ({ s with pending := rest } : State).TablesOk := ht.of_eq rfl rfl rfl rfl rfl
      exact (exec_upholds hi hq hx).lists hq ((s.queue_keeps rest).lists hl)
  case registrations =>
    rcases step_cases h with rfl | ⟨l, rest, rfl⟩ | ⟨i, rest, hi, hx⟩
    · exact ⟨s.tick_ahead ha, ho⟩
    · exact ⟨fun r hr => (by cases hr), poweredOn_oneActive l rest⟩
    · have hq : ({ s with pending := rest } : State).TablesOk := ht.of_eq rfl rfl rfl rfl rfl
      have heffect := exec_effect hi hq hx
      exact ⟨heffect.ahead ha, heffect.oneActive ho⟩

/-- Settles O59: the same three ways of a step, for the port records, the powers and the locations. -/
theorem stepsKeepPortsAndLocations : Obligations.StepsKeepPortsAndLocations := by
  refine ⟨fun s t ht hp h => ?ports, fun s t ht hp ha hs h => ?powers, fun s t ht hp ha h => ?locations⟩
  case ports =>
    rcases step_cases h with rfl | ⟨l, rest, rfl⟩ | ⟨i, rest, hi, hx⟩
    · exact s.tick_portsOk hp
    · exact poweredOn_portsOk l rest
    · have hq : ({ s with pending := rest } : State).TablesOk := ht.of_eq rfl rfl rfl rfl rfl
      exact (exec_effect hi hq hx).portsOk hp
  case powers =>
    rcases step_cases h with rfl | ⟨l, rest, rfl⟩ | ⟨i, rest, hi, hx⟩
    · rw [← State.powersBut_none] at hs ⊢
      exact s.tick_keeps.powers none hs
    · exact poweredOn_powersOk l rest
    · have hq : ({ s with pending := rest } : State).TablesOk := ht.of_eq rfl rfl rfl rfl rfl
      rw [← State.powersBut_none] at hs ⊢
      exact (exec_upholds hi hq hx).powers hq hp ha ((s.queue_keeps rest).powers none hs)
  case locations =>
    rcases step_cases h with rfl | ⟨l, rest, rfl⟩ | ⟨i, rest, hi, hx⟩
    · exact State.tick_agrees ha
    · exact poweredOn_agrees l rest
    · have hq : ({ s with pending := rest } : State).TablesOk := ht.of_eq rfl rfl rfl rfl rfl
      exact (exec_effect hi hq hx).agrees hp ha

end Sys2Proof.Machine
end

section
/-! The commitments (09): the requests that end one, the dispatch and its line, and the crossings: O45, O46 and O47. -/

namespace Sys2Proof.Machine

open Sys2Proof

/-! ### The changes of one commitment -/

section Change

variable {s : State} {i : Nat} {c : Commitment}

theorem State.modCommit_some (h : s.commit i = some c) (f : Commitment → Commitment) :
    s.modCommit i f = { s with commits := s.commits.put i (f c) } := by
  rw [State.modCommit, h]
  rfl

/-- R170, R162: a commitment in a final state. -/
def Commitment.endedAs (o : CommitState) (now : Nat) (c : Commitment) : Commitment :=
  { c with
    state := o, outcome := some o, endTime := some now
    flags := if o = .withdrawn then c.flags else c.flags ||| CommitFlag.ended }

/-- The clock without the registrations of a commitment, nor those that wait to be handed over. -/
def Clock.withoutCommit (i : Nat) (k : Clock) : Clock :=
  { k with
    regs := k.regs.filter fun r => !(r.kind.owner == 3 && r.slot == i)
    fired := k.fired.filter fun r => !(r.kind.owner == 3 && r.slot == i) }

theorem State.endCommit_eq (h : s.commit i = some c) (o : CommitState) : s.endCommit i o =
    { s with commits := s.commits.put i (c.endedAs o s.now), clock := s.clock.withoutCommit i } := by
  rw [State.endCommit, State.modCommit_some h, Commitment.endedAs]
  by_cases ho : o = .withdrawn
  · simp only [if_pos ho]
    rfl
  · simp only [if_neg ho]
    rfl

theorem State.endNormally_eq (h : s.commit i = some c) : s.endNormally i c =
    { s with
      commits := s.commits.put i { c with
        state := c.normalOutcome, outcome := some c.normalOutcome, endTime := some s.now
        flags := c.flags ||| CommitFlag.ended }
      clock := s.clock.withoutCommit i } := by
  have hne : c.normalOutcome ≠ .withdrawn := by
    rw [Commitment.normalOutcome]
    split
    · exact CommitState.noConfusion
    · split <;> exact CommitState.noConfusion
  rw [State.endNormally, State.endCommit_eq h, Commitment.endedAs, if_neg hne]

theorem State.activate_eq (h : s.commit i = some c) (src : DispatchSource) : s.activate i src =
    { s with commits := s.commits.put i { c with
        state := .active, source := some src, activation := some s.now, baseline := some s.recordedNet
        periods := 0, shortPeriods := 0, delivered := 0, carry := 0, relief := none
        flags := c.flags ||| CommitFlag.active } } := State.modCommit_some h _

theorem Commitment.normalOutcome_eq (c : Commitment) : c.normalOutcome =
    if c.periods = 0 ∨ c.tolerance * c.periods < c.shortPeriods * 100 then .shortfall else .met := by
  rw [Commitment.normalOutcome]
  by_cases h : c.periods = 0
  · rw [if_pos h, if_pos (.inl h)]
  · rw [if_neg h]
    exact if_congr ⟨.inr, fun h' => h'.resolve_left h⟩ rfl rfl

end Change

/-! ### Commitment ids -/

section Ids

variable {h : ReqHeader} {s : State} {c : Commitment}

theorem State.resolveCommit_range (hk : 15 < keySlot h.key) : s.resolveCommit h = .error .outOfRange := if_pos hk

theorem State.resolveCommit_stale (hk : keySlot h.key ≤ 15)
    (hs : s.commit (keySlot h.key) = none ∨ ∃ c, s.commit (keySlot h.key) = some c ∧ c.generation ≠ keyGen h.key) :
    s.resolveCommit h = .error .staleId := by
  rw [State.resolveCommit, if_neg (by omega)]
  rcases hs with hs | ⟨c, hc, hg⟩
  · simp only [hs]
  · simp only [hc, if_neg hg]

theorem State.resolveCommit_found (hk : keySlot h.key ≤ 15) (hc : s.commit (keySlot h.key) = some c)
    (hg : c.generation = keyGen h.key) : s.resolveCommit h = .ok (keySlot h.key, c) := by
  rw [State.resolveCommit, if_neg (by omega)]
  simp only [hc, if_pos hg]

theorem exec_commitWithdraw (h : ReqHeader) (s : State) :
    exec (.commitWithdraw h) s = takeRequest ⟨h, .commitWithdraw⟩ (applyCommitWithdraw h) s := rfl

theorem exec_commitRelease (h : ReqHeader) (s : State) :
    exec (.commitRelease h) s = takeRequest ⟨h, .commitRelease⟩ (applyCommitRelease h) s := rfl

theorem exec_commitRetire (h : ReqHeader) (s : State) :
    exec (.commitRetire h) s = takeRequest ⟨h, .commitRetire⟩ (applyCommitRetire h) s := rfl

theorem exec_commitDispatch (h : ReqHeader) (s : State) :
    exec (.commitDispatch h) s = takeRequest ⟨h, .commitDispatch⟩ (applyCommitDispatch h) s := rfl

section Refused

variable {st : Status} (hr : s.resolveCommit h = .error st)

include hr

theorem applyCommitWithdraw_refused : applyCommitWithdraw h s = refuse s st := by simp only [applyCommitWithdraw, hr]

theorem applyCommitRelease_refused : applyCommitRelease h s = refuse s st := by simp only [applyCommitRelease, hr]

theorem applyCommitRetire_refused : applyCommitRetire h s = refuse s st := by simp only [applyCommitRetire, hr]

theorem applyCommitDispatch_refused : applyCommitDispatch h s = refuse s st := by simp only [applyCommitDispatch, hr]

end Refused

section Found

variable {i : Nat} (hr : s.resolveCommit h = .ok (i, c))

include hr

theorem applyCommitWithdraw_late (hc : c.state ≠ .pending ∧ c.state ≠ .armed) :
    applyCommitWithdraw h s = refuse s .commitState := by
  simp only [applyCommitWithdraw, hr, hc, or_self, if_false]

theorem applyCommitWithdraw_ends (hc : c.state = .pending ∨ c.state = .armed) :
    applyCommitWithdraw h s = ⟨s.endCommit i .withdrawn, .ok, .withdrawn ⟨i, c.generation⟩ s.now⟩ := by
  simp only [applyCommitWithdraw, hr, if_pos hc]

theorem applyCommitRelease_idle (hc : c.state ≠ .active) : applyCommitRelease h s = refuse s .commitState := by
  simp only [applyCommitRelease, hr, if_neg hc]

theorem applyCommitRelease_ends (hc : c.state = .active) :
    applyCommitRelease h s = ⟨s.endNormally i c, .ok, .released c.normalOutcome c.periods c.shortPeriods c.delivered⟩ := by
  simp only [applyCommitRelease, hr, if_pos hc]

theorem applyCommitRetire_early (hc : c.state.final = false) : applyCommitRetire h s = refuse s .commitState := by
  simp only [applyCommitRetire, hr, hc, Bool.false_eq_true, if_false]

theorem applyCommitRetire_frees (hc : c.state.final = true) :
    applyCommitRetire h s = ⟨s.freeCommit i, .ok, .freed i ((s.commitGens.bumpGen i).gen i)⟩ := by
  simp only [applyCommitRetire, hr, hc, if_true]
  rfl

theorem applyCommitDispatch_stops {st : Status} (hd : dispatchRefusal c s = some st) :
    applyCommitDispatch h s = refuse s st := by
  simp only [applyCommitDispatch, hr, hd]

theorem applyCommitDispatch_activates (hd : dispatchRefusal c s = none) : applyCommitDispatch h s =
    ⟨s.activate i .request, .ok,
      .dispatched ⟨i, c.generation⟩ s.recordedNet (s.recordedNet - (c.target : Int)) s.now⟩ := by
  simp only [applyCommitDispatch, hr, hd]

end Found

theorem CommitState.final_iff (st : CommitState) : st.final = true ↔ st ≠ .pending ∧ st ≠ .armed ∧ st ≠ .active := by
  cases st <;> simp [CommitState.final]

end Ids

/-- Settles O45: the three requests by the checks of the id and the commitment's state. -/
theorem commitmentsEndByRequest : Obligations.CommitmentsEndByRequest := by
  intro h s slot gen clock unresolved answers
  have herror : ∀ st, unresolved st → (s.modRing Ring.pop).resolveCommit h = .error st := by
    rintro st (⟨hk, rfl⟩ | ⟨hk, hs, rfl⟩)
    · exact State.resolveCommit_range hk
    · exact State.resolveCommit_stale (s := s.modRing Ring.pop) hk hs
  have hfound : ∀ c, slot ≤ 15 → s.commit slot = some c → c.generation = gen →
      (s.modRing Ring.pop).resolveCommit h = .ok (slot, c) :=
    fun c => State.resolveCommit_found (s := s.modRing Ring.pop)
  refine ⟨fun hq => ?withdraw, fun hq => ?release, fun hq => ?retire⟩
  case withdraw =>
    have hx := exec_commitWithdraw h s
    refine ⟨fun st hs => hx.trans (takeRequest_refused hq (applyCommitWithdraw_refused (herror st hs))),
      fun c hk hc hg => ⟨fun hl => ?late, fun hw => ?ends⟩⟩
    case late => exact hx.trans (takeRequest_refused hq (applyCommitWithdraw_late (hfound c hk hc hg) hl))
    case ends =>
      have hreply := applyCommitWithdraw_ends (hfound c hk hc hg) hw
      rw [hg, State.endCommit_eq (s := s.modRing Ring.pop) hc, Commitment.endedAs, if_pos rfl] at hreply
      exact hx.trans (takeRequest_answered hq _ _ _ hreply)
  case release =>
    have hx := exec_commitRelease h s
    refine ⟨fun st hs => hx.trans (takeRequest_refused hq (applyCommitRelease_refused (herror st hs))),
      fun c hk hc hg => ⟨fun hl => ?idle, fun ha => ?ends⟩⟩
    case idle => exact hx.trans (takeRequest_refused hq (applyCommitRelease_idle (hfound c hk hc hg) hl))
    case ends =>
      have hreply := applyCommitRelease_ends (hfound c hk hc hg) ha
      rw [State.endNormally_eq (s := s.modRing Ring.pop) hc, Commitment.normalOutcome_eq] at hreply
      exact hx.trans (takeRequest_answered hq _ _ _ hreply)
  case retire =>
    have hx := exec_commitRetire h s
    refine ⟨fun st hs => hx.trans (takeRequest_refused hq (applyCommitRetire_refused (herror st hs))),
      fun c hk hc hg => ⟨fun hl => ?early, fun h1 h2 h3 => ?freed⟩⟩
    case early =>
      have hnot : c.state.final = false := by rcases hl with e | e | e <;> rw [e] <;> rfl
      exact hx.trans (takeRequest_refused hq (applyCommitRetire_early (hfound c hk hc hg) hnot))
    case freed =>
      refine ⟨s.commitGens.bumpGen slot, ?_, Table.gen_bump_self .., fun k hk => Table.gen_bump_ne _ hk⟩
      have hreply := applyCommitRetire_frees (hfound c hk hc hg) ((CommitState.final_iff _).2 ⟨h1, h2, h3⟩)
      have hgen : ((s.modRing Ring.pop).commitGens.bumpGen slot).gen slot = (s.commitGens.gen slot + 1) % 256 :=
        Table.gen_bump_self ..
      rw [hgen] at hreply
      exact hx.trans (takeRequest_answered hq _ _ _ hreply)

/-! ### COMMIT_DISPATCH and GRID_DISPATCH (R164 to R167, R171) -/

theorem State.activeCommit_isSome_iff (s : State) :
    s.activeCommit.isSome = false ↔ ∀ r ∈ s.commits.rows, r.2.state ≠ .active := by
  simp [State.activeCommit, List.find?_eq_none]

theorem State.reserveReady_iff (s : State) : s.reserveReady = true ↔
    s.engine.running = true ∧ s.supervision.state = .supervised ∧ s.protection.latch = false := by
  simp [State.reserveReady, and_assoc]

section Refusal

variable {c : Commitment} {s : State}

theorem dispatchRefusal_state (h : c.state ≠ .armed) : dispatchRefusal c s = some .commitState := if_pos h

theorem dispatchRefusal_ahead (h : c.state = .armed) (hp : c.phase = .ahead) : dispatchRefusal c s = some .notInWindow := by
  rw [dispatchRefusal, if_neg (not_not.2 h), if_pos (by rw [hp]; exact WindowPhase.noConfusion)]

variable (h : c.state = .armed ∧ c.phase = .opened)

include h

/-- The checks of COMMIT_DISPATCH after those of the commitment itself. -/
theorem dispatchRefusal_open : dispatchRefusal c s =
    if s.activeCommit.isSome then some .reserveBusy
    else if !s.engine.running then some .allocState
    else if s.supervision.state ≠ .supervised then some .supervisionLapsed
    else if s.protection.latch then some .tripActive
    else none := by
  rw [dispatchRefusal, if_neg (not_not.2 h.1), if_neg (not_not.2 h.2)]

theorem dispatchRefusal_busy (hb : s.activeCommit.isSome = true) : dispatchRefusal c s = some .reserveBusy := by
  rw [dispatchRefusal_open h, if_pos hb]

theorem dispatchRefusal_stopped (hb : s.activeCommit.isSome = false) (he : s.engine.running = false) :
    dispatchRefusal c s = some .allocState := by
  rw [dispatchRefusal_open h, hb, he]
  rfl

theorem dispatchRefusal_lapsed (hb : s.activeCommit.isSome = false) (he : s.engine.running = true)
    (hs : s.supervision.state ≠ .supervised) : dispatchRefusal c s = some .supervisionLapsed := by
  rw [dispatchRefusal_open h, hb, he, if_pos hs]
  rfl

theorem dispatchRefusal_trip (hb : s.activeCommit.isSome = false) (he : s.engine.running = true)
    (hs : s.supervision.state = .supervised) (hl : s.protection.latch = true) :
    dispatchRefusal c s = some .tripActive := by
  rw [dispatchRefusal_open h, hb, he, if_neg (not_not.2 hs), hl]
  rfl

theorem dispatchRefusal_ready (hb : s.activeCommit.isSome = false)
    (hr : s.engine.running = true ∧ s.supervision.state = .supervised ∧ s.protection.latch = false) :
    dispatchRefusal c s = none := by
  obtain ⟨he, hs, hl⟩ := hr
  rw [dispatchRefusal_open h, hb, he, if_neg (not_not.2 hs), hl]
  rfl

end Refusal

/-- R166: the order of the commitments a rising edge chooses from. -/
def startsBy (a b : Nat × Commitment) : Bool := decide (a.2.windowStart ≤ b.2.windowStart)

/-- R166: the commitments a rising edge chooses from. -/
def State.openCommits (s : State) : List (Nat × Commitment) :=
  s.commits.rows.filter fun r => r.2.state == .armed && r.2.phase == .opened

theorem State.lineChoice_eq (s : State) : s.lineChoice = ((sortBy startsBy s.openCommits).head?).map Prod.fst := rfl

theorem State.mem_openCommits {s : State} {r : Nat × Commitment} :
    r ∈ s.openCommits ↔ r ∈ s.commits.rows ∧ r.2.state = .armed ∧ r.2.phase = .opened := by
  simp [State.openCommits]

theorem State.lineChoice_none {s : State} (h : ∀ r ∈ s.commits.rows, ¬ (r.2.state = .armed ∧ r.2.phase = .opened)) :
    s.lineChoice = none := by
  have hempty : s.openCommits = [] :=
    List.eq_nil_iff_forall_not_mem.2 fun r hr => h r (State.mem_openCommits.1 hr).1 (State.mem_openCommits.1 hr).2
  rw [State.lineChoice_eq, hempty]
  rfl

/-- The earliest window start, then the lowest slot: the sort keeps the order of the table. -/
theorem State.lineChoice_first {s : State} (ht : s.TablesOk) {i : Nat} {c : Commitment} (hc : s.commit i = some c)
    (ho : c.state = .armed ∧ c.phase = .opened)
    (hfirst : ∀ j d, s.commit j = some d → d.state = .armed ∧ d.phase = .opened →
      c.windowStart < d.windowStart ∨ (c.windowStart = d.windowStart ∧ i ≤ j)) : s.lineChoice = some i := by
  have hmem : (i, c) ∈ s.openCommits := State.mem_openCommits.2 ⟨Table.mem_of_get hc, ho⟩
  have hsorted := sortBy_stable (le := startsBy) (R := fun a b => a.1 < b.1)
    (fun a b => by simp only [startsBy, decide_eq_true_iff]; omega)
    (fun a b c h k => by simp only [startsBy, decide_eq_true_iff] at *; omega)
    (List.Pairwise.filter (fun r : Nat × Commitment => r.2.state == .armed && r.2.phase == .opened) ht.commits.rising)
  have hperm := sortBy_perm startsBy s.openCommits
  have hin : (i, c) ∈ sortBy startsBy s.openCommits := hperm.mem_iff.2 hmem
  rw [State.lineChoice_eq]
  change (sortBy startsBy s.openCommits).Pairwise _ at hsorted
  cases hl : sortBy startsBy s.openCommits with
  | nil => rw [hl] at hin; cases hin
  | cons r rest =>
    rw [hl] at hin hsorted
    rcases List.mem_cons.1 hin with rfl | hrest
    · rfl
    · obtain ⟨hle, hlt⟩ := List.rel_of_pairwise_cons hsorted hrest
      have hr : r ∈ s.openCommits := hperm.mem_iff.1 (by rw [hl]; exact List.mem_cons_self ..)
      obtain ⟨hrow, hropen⟩ := State.mem_openCommits.1 hr
      have hmin := hfirst r.1 r.2 (Table.get_of_mem ht.commits.rising hrow) hropen
      simp only [startsBy, decide_eq_true_iff] at hle hlt
      rcases hmin with hmin | ⟨hsame, hslot⟩
      · omega
      · have := hlt hsame.le
        omega

section Edges

variable {s : State}

theorem exec_risingEdge_high (h : s.dispatch.filtered = true) : exec .gridDispatchRisingEdge s = .next s := if_pos h

theorem exec_risingEdge_low (h : s.dispatch.filtered = false) :
    exec .gridDispatchRisingEdge s = .next (s.takeDispatch true).risingEdge := if_neg (by rw [h]; exact Bool.noConfusion)

theorem exec_fallingEdge_low (h : s.dispatch.filtered = false) : exec .gridDispatchFallingEdge s = .next s :=
  if_neg (by rw [h]; exact Bool.noConfusion)

theorem exec_fallingEdge_high (h : s.dispatch.filtered = true) :
    exec .gridDispatchFallingEdge s = .next (s.takeDispatch false).fallingEdge := if_pos h

theorem State.risingEdge_activates {i : Nat} (hl : s.lineChoice = some i) (hi : s.activeCommit.isSome = false)
    (hr : s.reserveReady = true) : s.risingEdge = s.activate i .line := by
  have hnone : s.activeCommit.isNone = true := by rw [← Option.not_isSome, hi]; rfl
  simp only [State.risingEdge, hl, hnone, hr, Bool.and_self, if_true]

theorem State.risingEdge_ignored (h : s.lineChoice = none ∨ s.activeCommit.isSome = true ∨ s.reserveReady = false) :
    s.risingEdge = s.raiseSite SiteFlag.dispatchIgnored := by
  cases hl : s.lineChoice with
  | none => simp only [State.risingEdge, hl]
  | some i =>
    have hnot : (s.activeCommit.isNone && s.reserveReady) = false := by
      rw [Bool.and_eq_false_iff, ← Option.not_isSome]
      rcases h with h | h | h
      · cases hl.symm.trans h
      · exact .inl (by rw [h]; rfl)
      · exact .inr h
    simp only [State.risingEdge, hl, hnot, Bool.false_eq_true, if_false]

theorem State.fallingEdge_ends {i : Nat} {c : Commitment} (h : s.activeCommit = some (i, c)) (hs : c.source = some .line) :
    s.fallingEdge = s.endNormally i c := by
  simp only [State.fallingEdge, h, if_pos hs]

theorem State.fallingEdge_kept (h : s.activeCommit = none ∨ ∃ i c, s.activeCommit = some (i, c) ∧ c.source = some .request) :
    s.fallingEdge = s := by
  rcases h with h | ⟨i, c, h, hs⟩
  · simp only [State.fallingEdge, h]
  · have hne : c.source ≠ some .line := by rw [hs]; exact fun e => nomatch e
    simp only [State.fallingEdge, h, if_neg hne]

end Edges

/-- Settles O46: the checks of COMMIT_DISPATCH in their order, and the two edges of the line. -/
theorem dispatchActivatesOneCommitment : Obligations.DispatchActivatesOneCommitment := by
  intro s net activated idle ready open'
  have hnet : s.recordedNet = net := rfl
  have hidle : idle ↔ s.activeCommit.isSome = false := s.activeCommit_isSome_iff.symm
  have hbusy : ¬ idle → s.activeCommit.isSome = true := fun h => Bool.of_not_eq_false (mt hidle.2 h)
  refine ⟨?request, fun hf => exec_risingEdge_high hf, fun hf => ⟨?chosen, ?ignored⟩,
    fun hf => exec_fallingEdge_low hf, fun hf => ⟨?kept, ?ended⟩⟩
  case request =>
    intro h hq slot answers gen
    have hx := exec_commitDispatch h s
    refine ⟨fun hk => hx.trans (takeRequest_refused hq (applyCommitDispatch_refused (State.resolveCommit_range hk))),
      fun hk hs => hx.trans (takeRequest_refused hq
        (applyCommitDispatch_refused (State.resolveCommit_stale (s := s.modRing Ring.pop) hk hs))),
      fun c hk hc hg => ?_⟩
    have hfound : (s.modRing Ring.pop).resolveCommit h = .ok (slot, c) :=
      State.resolveCommit_found (s := s.modRing Ring.pop) hk hc hg
    have hstop {st : Status} (hd : dispatchRefusal c (s.modRing Ring.pop) = some st) : answers s st .none :=
      hx.trans (takeRequest_refused hq (applyCommitDispatch_stops hfound hd))
    refine ⟨fun hs => hstop (dispatchRefusal_state hs), fun hs hp => hstop (dispatchRefusal_ahead hs hp),
      fun ho hi => hstop (dispatchRefusal_busy ho (hbusy hi)),
      fun ho hi he => hstop (dispatchRefusal_stopped ho (hidle.1 hi) he),
      fun ho hi he hs => hstop (dispatchRefusal_lapsed ho (hidle.1 hi) he hs),
      fun ho hi he hs hl => hstop (dispatchRefusal_trip ho (hidle.1 hi) he hs hl), fun ho hi hr => ?_⟩
    have hreply := applyCommitDispatch_activates hfound
      (dispatchRefusal_ready (s := s.modRing Ring.pop) ho (hidle.1 hi) hr)
    rw [State.activate_eq (s := s.modRing Ring.pop) hc] at hreply
    exact hx.trans (takeRequest_answered hq _ _ _ hreply)
  case chosen =>
    intro i c ht hc ho hi hr hfirst
    have hedge := State.risingEdge_activates (s := s.takeDispatch true) (State.lineChoice_first ht hc ho hfirst)
      (hidle.1 hi) (s.reserveReady_iff.2 hr)
    rw [exec_risingEdge_low hf, hedge, State.activate_eq (s := s.takeDispatch true) hc]
    rfl
  case ignored =>
    intro hcause
    have hedge : (s.takeDispatch true).risingEdge = (s.takeDispatch true).raiseSite SiteFlag.dispatchIgnored := by
      refine State.risingEdge_ignored (s := s.takeDispatch true) ?_
      rcases hcause with h | h | h
      · exact .inl (State.lineChoice_none h)
      · exact .inr (.inl (hbusy h))
      · exact .inr (.inr (Bool.eq_false_of_not_eq_true (mt s.reserveReady_iff.1 h)))
    rw [exec_risingEdge_low hf, hedge]
    rfl
  case kept =>
    intro hcause
    have hedge : (s.takeDispatch false).fallingEdge = s.takeDispatch false := by
      refine State.fallingEdge_kept (s := s.takeDispatch false) (hcause.imp (fun hi => ?_) id)
      have hnone := hidle.1 hi
      rw [Option.isSome_eq_false_iff, Option.isNone_iff_eq_none] at hnone
      exact hnone
    rw [exec_fallingEdge_high hf, hedge]
    rfl
  case ended =>
    intro i c ha hc hs
    rw [exec_fallingEdge_high hf, State.fallingEdge_ends (s := s.takeDispatch false) ha hs,
      State.endNormally_eq (s := s.takeDispatch false) hc]
    rfl

/-! ### The crossings of a commitment (R160, R170) -/

section Crossings

variable {s : State} {k : CommitSlot} {T : Nat}

theorem exec_armPointCrossing_due (h : s.Due ⟨.armPoint, k.val, T⟩) :
    exec (.armPointCrossing k) s = .next ((s.unfire ⟨.armPoint, k.val, T⟩).actArmPoint k.val) := takeCrossing_due h rfl rfl

theorem exec_windowStartCrossing_due (h : s.Due ⟨.windowStart, k.val, T⟩) :
    exec (.windowStartCrossing k) s = .next ((s.unfire ⟨.windowStart, k.val, T⟩).actWindowStart k.val) :=
  takeCrossing_due h rfl rfl

theorem exec_windowEndCrossing_due (h : s.Due ⟨.windowEnd, k.val, T⟩) :
    exec (.windowEndCrossing k) s = .next ((s.unfire ⟨.windowEnd, k.val, T⟩).actWindowEnd k.val) := takeCrossing_due h rfl rfl

variable {i : Nat} {c : Commitment} (hc : s.commit i = some c)

include hc

theorem State.actArmPoint_arms (h : c.state = .pending) :
    s.actArmPoint i = { s with commits := s.commits.put i { c with
      state := .armed, flags := c.flags ||| CommitFlag.armed } } := by
  rw [State.actArmPoint, State.modCommit_some hc, if_pos h]
  rfl

theorem State.actWindowStart_opens (h : c.state = .armed) :
    s.actWindowStart i = { s with commits := s.commits.put i { c with phase := .opened } } := by
  rw [State.actWindowStart, State.modCommit_some hc, if_pos h]

theorem State.actWindowEnd_armed (h : c.state = .armed) : s.actWindowEnd i =
    { s with
      commits := s.commits.put i { c with
        state := .notDispatched, outcome := some .notDispatched, endTime := some s.now
        flags := c.flags ||| CommitFlag.ended }
      clock := s.clock.withoutCommit i } := by
  have hact : s.actWindowEnd i = s.endCommit i .notDispatched := by simp only [State.actWindowEnd, hc, h]
  rw [hact, State.endCommit_eq hc]
  rfl

theorem State.actWindowEnd_active (h : c.state = .active) : s.actWindowEnd i = s.endNormally i c := by
  simp only [State.actWindowEnd, hc, h]

theorem State.actWindowEnd_normal (h : c.state = .active) {o : CommitState} (ho : c.normalOutcome = o) : s.actWindowEnd i =
    { s with
      commits := s.commits.put i { c with
        state := o, outcome := some o, endTime := some s.now, flags := c.flags ||| CommitFlag.ended }
      clock := s.clock.withoutCommit i } := by
  rw [State.actWindowEnd_active hc h, State.endNormally_eq hc, ho]

end Crossings

/-- Settles O47: the act of each crossing on the commitment of its slot. -/
theorem commitmentCrossings : Obligations.CommitmentCrossings := by
  intro slot T s c hc put ended
  have hput (r : Registration) : (s.unfire r).commit slot.val = some c := hc
  refine ⟨fun hd hp => ?arm, fun hd ha => ?opens, ?ends⟩
  case arm =>
    rw [exec_armPointCrossing_due hd, State.actArmPoint_arms (hput _) hp]
    rfl
  case opens =>
    rw [exec_windowStartCrossing_due hd, State.actWindowStart_opens (hput _) ha]
    rfl
  case ends =>
    intro hd u
    have hnormal {o : CommitState} (ha : c.state = .active) (ho : c.normalOutcome = o) :
        exec (.windowEndCrossing slot) s = .next (ended u o) := by
      rw [exec_windowEndCrossing_due hd, State.actWindowEnd_normal (hput _) ha ho]
      rfl
    refine ⟨fun ha => ?_, fun ha h0 => hnormal ha (by rw [c.normalOutcome_eq, if_pos (.inl h0)]),
      fun ha h0 hs => hnormal ha (by rw [c.normalOutcome_eq, if_pos (.inr hs)]),
      fun ha h0 hs => hnormal ha (by rw [c.normalOutcome_eq, if_neg (by omega)])⟩
    rw [exec_windowEndCrossing_due hd, State.actWindowEnd_armed (hput _) ha]
    rfl

end Sys2Proof.Machine
end

section
/-! The register window, the ring control, bursts and completion writes (11): O50 and O51. -/

namespace Sys2Proof.Machine

open Sys2Proof

/-! ### The events of the Ring Interface, by their conditions -/

section Events

variable {s : State} {v : Word}

theorem exec_ringBaseWrite_stopped (h : s.ring.state = .stopped) (i : RingId) (a : Addr) :
    exec (.ringBaseWrite i a) s = .next (s.modRing (Ring.modRegs i (RingRegs.setBase a))) := if_pos h

theorem exec_ringBaseWrite_ignored (h : s.ring.state ≠ .stopped) (i : RingId) (a : Addr) :
    exec (.ringBaseWrite i a) s = .next s := if_neg h

theorem exec_ringSizeWrite_stopped (h : s.ring.state = .stopped) (i : RingId) :
    exec (.ringSizeWrite i v) s = .next (s.modRing (Ring.modRegs i (RingRegs.setSize v.toNat))) := if_pos h

theorem exec_ringSizeWrite_ignored (h : s.ring.state ≠ .stopped) (i : RingId) :
    exec (.ringSizeWrite i v) s = .next s := if_neg h

theorem Ring.checkCount_below {r : Ring} (h : r.unreported < r.threshold) : r.checkCount = r := if_neg (Nat.not_le.2 h)

theorem Ring.checkCount_reached {r : Ring} (h : r.threshold ≤ r.unreported) : r.checkCount = r.report := if_pos h

theorem exec_completionThresholdWrite (v : Word) (s : State) : exec (.completionThresholdWrite v) s =
    .next { s with ring := Ring.checkCount { s.ring with threshold := max 1 (min 64 v.toNat) } } := rfl

theorem exec_interruptAcknowledge_set (h : v.getLsbD 0 = true) : exec (.interruptAcknowledge v) s =
    .next { s with ring := { s.ring with pendingFlag := false } } := if_pos h

theorem exec_interruptAcknowledge_clear (h : v.getLsbD 0 = false) : exec (.interruptAcknowledge v) s = .next s :=
  if_neg (by rw [h]; exact Bool.noConfusion)

theorem exec_completionReadPointerWrite_below (h : v.toNat < s.ring.completion.size) :
    exec (.completionReadPointerWrite v) s =
      .next { s with ring := { s.ring with completion := { s.ring.completion with read := v.toNat } } } := if_pos h

theorem exec_completionReadPointerWrite_ignored (h : s.ring.completion.size ≤ v.toNat) :
    exec (.completionReadPointerWrite v) s = .next s := if_neg (Nat.not_lt.2 h)

theorem exec_requestWritePointerWrite_below (h : v.toNat < s.ring.request.size) :
    exec (.requestWritePointerWrite v) s = .next { s with
      ring := Ring.startBurst { s.ring with request := { s.ring.request with write := v.toNat } } } := if_pos h

theorem exec_requestWritePointerWrite_ignored (h : s.ring.request.size ≤ v.toNat) :
    exec (.requestWritePointerWrite v) s = .next s := if_neg (Nat.not_lt.2 h)

theorem exec_ringEnable_starts (h : s.ring.state = .stopped) (hq : s.ring.request.Usable) (hc : s.ring.completion.Usable) :
    exec .ringEnable s = .next { s with ring := Ring.startBurst { s.ring with state := .running, enable := true } } :=
  if_pos ⟨h, RingRegs.usable_iff.2 hq, RingRegs.usable_iff.2 hc⟩

theorem exec_ringEnable_ignored (h : s.ring.state ≠ .stopped ∨ ¬ s.ring.request.Usable ∨ ¬ s.ring.completion.Usable) :
    exec .ringEnable s = .next s := by
  refine if_neg fun ⟨hs, hq, hc⟩ => ?_
  rcases h with h | h | h
  · exact h hs
  · exact h (RingRegs.usable_iff.1 hq)
  · exact h (RingRegs.usable_iff.1 hc)

theorem exec_ringDisable_running (h : s.ring.state = .running) :
    exec .ringDisable s = .next { s with ring := { s.ring with state := .stopped, enable := false } } := if_pos h

theorem exec_ringDisable_ignored (h : s.ring.state ≠ .running) : exec .ringDisable s = .next s := if_neg h

end Events

theorem exec_ringReset (s : State) : exec .ringReset s = .next { s with ring := s.ring.reset } := rfl

/-! ### Fetch bursts (R186) -/

/-- The burst that a ring can start. -/
def Ring.nextBurst (r : Ring) : FetchBurst :=
  ⟨(List.range (min (12 - r.buffer.length) r.request.waiting)).map fun k => (r.request.read + k) % r.request.size⟩

theorem Ring.startBurst_starts {r : Ring} (hr : r.state = .running) (hb : r.burst = none) (hl : r.buffer.length ≤ 3)
    (hw : 0 < r.request.waiting) : r.startBurst.burst = some r.nextBurst := by
  rw [Ring.startBurst, if_pos ⟨hr, hb, hl, hw⟩]
  rfl

theorem Ring.startBurst_kept {r : Ring}
    (h : r.state ≠ .running ∨ r.burst ≠ none ∨ 3 < r.buffer.length ∨ r.request.waiting = 0) : r.startBurst = r := by
  refine if_neg fun ⟨hr, hb, hl, hw⟩ => ?_
  rcases h with h | h | h | h
  · exact h hr
  · exact h hb
  · omega
  · omega

theorem Ring.startBurst_running {r : Ring} (hr : r.state = .running) : r.startBurst.burst =
    if r.burst = none ∧ r.buffer.length ≤ 3 ∧ 0 < r.request.waiting then some r.nextBurst else r.burst := by
  by_cases h : r.burst = none ∧ r.buffer.length ≤ 3 ∧ 0 < r.request.waiting
  · obtain ⟨hb, hl, hw⟩ := h
    rw [if_pos ⟨hb, hl, hw⟩, Ring.startBurst_starts hr hb hl hw]
  · rw [if_neg h, Ring.startBurst, if_neg fun hc => h hc.2]

/-! ### The register window (R183, R184) -/

theorem windowRegAt_offset (r : WindowReg) : windowRegAt r.offset = some r := by cases r <;> rfl

theorem State.readWindow_at (s : State) (r : WindowReg) :
    s.readWindow r.offset = (s.windowValue r).map (leBytes r.bytes) := by
  rw [State.readWindow, windowRegAt_offset]
  rfl

theorem State.readWindow_none (s : State) {o : Nat} (h : ∀ r ∈ windowRegs, r.offset ≠ o) : s.readWindow o = none := by
  have hnone : windowRegAt o = none := List.find?_eq_none.2 fun r hr => by simpa using h r hr
  rw [State.readWindow, hnone]
  rfl

theorem boolCode_eq (b : Bool) : boolCode b = if b = true then 1 else 0 := rfl

theorem windowWrite_at (v : Addr) (r : WindowReg) : (windowRegAt r.offset).bind (WindowReg.write v) = r.write v := by
  rw [windowRegAt_offset]
  rfl

theorem controlWrite_reset {v : Addr} (h : v.getLsbD 1 = true) : controlWrite v = .ringReset := if_pos h

theorem controlWrite_enable {v : Addr} (h : v.getLsbD 1 = false) (h0 : v.getLsbD 0 = true) : controlWrite v = .ringEnable := by
  rw [controlWrite, h, h0]
  rfl

theorem controlWrite_disable {v : Addr} (h : v.getLsbD 1 = false) (h0 : v.getLsbD 0 = false) :
    controlWrite v = .ringDisable := by
  rw [controlWrite, h, h0]
  rfl

theorem State.reset_windowValue (r : WindowReg) : State.reset.windowValue r = match r with
    | .threshold => some 1
    | .holdTime => some 10
    | .acknowledge => none
    | _ => some 0 := by
  cases r <;> rfl

/-! ### The status word (R184) -/

theorem RingState.code_le (x : RingState) : x.code ≤ 2 := by cases x <;> decide

theorem SupState.code_le (x : SupState) : x.code ≤ 2 := by cases x <;> decide

theorem bit_le (c : Prop) [Decidable c] (n : Nat) : (if c then n else 0) ≤ n := by
  split
  · exact Nat.le_refl n
  · exact Nat.zero_le n

theorem State.statusWord_toNat (s : State) : s.statusWord.toNat =
    s.ring.state.code + (if s.clock.mode = .set then 4 else 0) + (if s.engine.running = true then 8 else 0)
      + (if s.protection.latch = true then 16 else 0) + s.supervision.state.code * 32
      + (if s.ring.pendingFlag = true then 128 else 0) := by
  have h1 := s.ring.state.code_le
  have h2 := bit_le (s.clock.mode = .set) 4
  have h3 := bit_le (s.engine.running = true) 8
  have h4 := bit_le (s.protection.latch = true) 16
  have h5 := s.supervision.state.code_le
  have h6 := bit_le (s.ring.pendingFlag = true) 128
  rw [State.statusWord, BitVec.toNat_ofNat, Nat.mod_eq_of_lt (by omega)]

/-- Settles O50: the writes of the window, its reads and its layout, and the ring control with the status word. -/
theorem registerWindowAndRingControl : Obligations.RegisterWindowAndRingControl := by
  refine ⟨?writes, ⟨rfl, ?reads, ?commands, State.reset_windowValue⟩, ?control⟩
  case writes =>
    intro a v s base size
    refine ⟨fun h => ⟨exec_ringBaseWrite_stopped h _ a, exec_ringBaseWrite_stopped h _ a, exec_ringSizeWrite_stopped h _,
      exec_ringSizeWrite_stopped h _⟩,
      fun h i => ⟨exec_ringBaseWrite_ignored h i a, exec_ringSizeWrite_ignored h i⟩, ?threshold, rfl, rfl,
      exec_interruptAcknowledge_set, exec_interruptAcknowledge_clear, exec_completionReadPointerWrite_below,
      exec_completionReadPointerWrite_ignored, exec_requestWritePointerWrite_ignored⟩
    case threshold =>
      intro t
      have hx := exec_completionThresholdWrite v s
      refine ⟨fun h => ?_, fun h => ?_⟩
      · rw [hx, Ring.checkCount_below (r := { s.ring with threshold := max 1 (min 64 v.toNat) }) h]
      · rw [hx, Ring.checkCount_reached (r := { s.ring with threshold := max 1 (min 64 v.toNat) }) h]
        rfl
  case reads =>
    intro s reads
    exact ⟨s.readWindow_at .requestBase, s.readWindow_at .requestSize, s.readWindow_at .requestWrite,
      s.readWindow_at .requestRead, s.readWindow_at .completionBase, s.readWindow_at .completionSize,
      s.readWindow_at .completionWrite, s.readWindow_at .completionRead, s.readWindow_at .control,
      s.readWindow_at .threshold, s.readWindow_at .holdTime, s.readWindow_at .mask, s.readWindow_at .acknowledge,
      s.readWindow_at .status, fun o => s.readWindow_none⟩
  case commands =>
    intro v low writes
    have hcontrol : (windowRegAt 0x2C).bind (WindowReg.write v) = some (controlWrite v) := windowWrite_at v .control
    exact ⟨windowWrite_at v .requestBase, windowWrite_at v .requestSize, windowWrite_at v .requestWrite,
      windowWrite_at v .requestRead, windowWrite_at v .completionBase, windowWrite_at v .completionSize,
      windowWrite_at v .completionWrite, windowWrite_at v .completionRead,
      fun h => hcontrol.trans (congrArg some (controlWrite_reset h)),
      fun h h0 => hcontrol.trans (congrArg some (controlWrite_enable h h0)),
      fun h h0 => hcontrol.trans (congrArg some (controlWrite_disable h h0)),
      windowWrite_at v .threshold, windowWrite_at v .holdTime, windowWrite_at v .mask, windowWrite_at v .acknowledge,
      windowWrite_at v .status⟩
  case control =>
    intro s waiting
    refine ⟨fun h hq hc => ?_, exec_ringEnable_ignored, exec_ringDisable_running, exec_ringDisable_ignored,
      exec_ringReset s, ?_⟩
    · rw [exec_ringEnable_starts h hq hc, Ring.startBurst_eq,
        Ring.startBurst_running (r := { s.ring with state := .running, enable := true }) rfl]
      rfl
    · rw [s.statusWord_toNat]
      cases s.ring.state <;> cases s.supervision.state <;> rfl

/-! ### Bursts and completion writes (R186 to R189) -/

section Bursts

variable {s : State} {rs : List Request}

theorem Ring.burst_length_iff (r : Ring) (n : Nat) :
    r.burst.map FetchBurst.count = some n ↔ ∃ b, r.burst = some b ∧ b.entries.length = n := by
  simp [Option.map_eq_some_iff, FetchBurst.count]

theorem exec_fetchBurstEnd_ends (hk : burstOk rs = true) (h : s.ring.burst.map FetchBurst.count = some rs.length) :
    exec (.fetchBurstEnd rs) s = .next (s.modRing (Ring.endBurst rs)) := (if_pos hk).trans (if_pos h)

theorem exec_fetchBurstEnd_ignored (hk : burstOk rs = true) (h : ¬ s.ring.burst.map FetchBurst.count = some rs.length) :
    exec (.fetchBurstEnd rs) s = .next s := (if_pos hk).trans (if_neg h)

theorem exec_fetchBurstEnd_illFormed (hk : burstOk rs = false) : exec (.fetchBurstEnd rs) s = .fault .illFormed :=
  if_neg (by rw [hk]; exact Bool.noConfusion)

theorem exec_fetchError_inFlight (h : s.ring.burst ≠ none) : exec .fetchError s = .next { s with
    ring := { s.ring with burst := none, state := .fetchError }, siteFlags := s.siteFlags ||| SiteFlag.ringError } :=
  if_pos (Option.isSome_iff_ne_none.2 h)

theorem exec_fetchError_ignored (h : s.ring.burst = none) : exec .fetchError s = .next s :=
  if_neg (by rw [h]; exact Bool.noConfusion)

theorem exec_completionWriteDone_ignored (h : s.ring.writing = none) : exec .completionWriteDone s = .next s :=
  if_neg (by rw [h]; exact Bool.noConfusion)

theorem exec_completionWriteError_ignored (h : s.ring.writing = none) : exec .completionWriteError s = .next s :=
  if_neg (by rw [h]; exact Bool.noConfusion)

theorem exec_completionWriteDone_issued (h : s.ring.writing ≠ none) :
    exec .completionWriteDone s = .next { s with ring := s.ring.endWrite } := if_pos (Option.isSome_iff_ne_none.2 h)

theorem exec_completionWriteError_failed (h : s.ring.writing ≠ none) : exec .completionWriteError s = .next { s with
    ring := { s.ring with writing := none, state := .fetchError }, siteFlags := s.siteFlags ||| SiteFlag.ringError } :=
  if_pos (Option.isSome_iff_ne_none.2 h)

theorem exec_holdTimerExpiry_running (h : s.ring.holdTimer ≠ .stopped) :
    exec .holdTimerExpiry s = .next { s with ring := s.ring.report } := if_pos ((Timer.isRunning_iff _).2 h)

theorem exec_holdTimerExpiry_ignored (h : s.ring.holdTimer = .stopped) : exec .holdTimerExpiry s = .next s :=
  if_neg (by rw [h]; exact Bool.noConfusion)

end Bursts

/-- R188, R189: a write that is done, with its completion counted and the count not yet checked. -/
def Ring.written (r : Ring) : Ring :=
  { r with
    writing := none
    completion := { r.completion with write := (r.completion.write + 1) % r.completion.size }
    unreported := r.unreported + 1
    holdTimer := if r.unreported = 0 then .running r.holdTime 0 else r.holdTimer }

theorem Ring.endWrite_eq (r : Ring) : r.endWrite = r.written.checkCount := rfl

/-- Settles O51: what starts a burst, its end and its error; and the completion writes with the count. -/
theorem burstsAndCompletionWrites : Obligations.BurstsAndCompletionWrites := by
  refine ⟨?bursts, ?writes⟩
  case bursts =>
    intro v rs s starts inFlight
    have hstarts : ∀ r : Ring, starts r r.startBurst.burst := fun r =>
      ⟨fun hr hb hl hw => Ring.startBurst_starts hr hb hl hw, fun h => by rw [Ring.startBurst_kept h]⟩
    refine ⟨fun hv => ?pointer, fun hk hf => ?ends, fun hk hf => ?other, exec_fetchBurstEnd_illFormed,
      exec_fetchError_inFlight, exec_fetchError_ignored⟩
    case pointer =>
      refine ⟨_, ?_, hstarts _⟩
      rw [exec_requestWritePointerWrite_below hv, Ring.startBurst_eq]
    case ends =>
      refine ⟨_, ?_, hstarts _⟩
      rw [exec_fetchBurstEnd_ends hk ((Ring.burst_length_iff _ _).2 hf), State.modRing, Ring.endBurst, Ring.startBurst_eq]
      rfl
    case other => exact exec_fetchBurstEnd_ignored hk (mt (Ring.burst_length_iff _ _).1 hf)
  case writes =>
    intro s
    refine ⟨fun h => ⟨exec_completionWriteDone_ignored h, exec_completionWriteError_ignored h⟩, ?_,
      exec_holdTimerExpiry_running, exec_holdTimerExpiry_ignored, rfl⟩
    intro h r
    refine ⟨fun hb => ?below, fun hb => ?reached, exec_completionWriteError_failed h⟩
    case below =>
      rw [exec_completionWriteDone_issued h, Ring.endWrite_eq, Ring.checkCount_below (r := s.ring.written) hb]
      rfl
    case reached =>
      rw [exec_completionWriteDone_issued h, Ring.endWrite_eq, Ring.checkCount_reached (r := s.ring.written) hb]
      rfl

end Sys2Proof.Machine
end

section
/-! The Attention block (11 section 11.4): O52 and O53. -/

namespace Sys2Proof.Machine

open Sys2Proof

/-! ### ATTENTION_CLEAR (R193) -/

theorem exec_attentionClear (h : ReqHeader) (c : Byte) (f : Word) (s : State) :
    exec (.attentionClear h c f) s = takeRequest ⟨h, .attentionClear c f⟩ (applyAttentionClear h c f) s := rfl

/-- The five categories, with the greatest slot and the number of flags of each. -/
theorem categoryShape_iff {n top bits : Nat} : categoryShape n = some (top, bits) ↔
    (n = 0 ∧ top = 0 ∧ bits = 6) ∨ (n = 1 ∧ top = 23 ∧ bits = 6) ∨ (n = 2 ∧ top = 191 ∧ bits = 10)
      ∨ (n = 3 ∧ top = 511 ∧ bits = 1) ∨ (n = 4 ∧ top = 15 ∧ bits = 4) := by
  match n with
  | 0 => simp [categoryShape, eq_comm]
  | 1 => simp [categoryShape, eq_comm]
  | 2 => simp [categoryShape, eq_comm]
  | 3 => simp [categoryShape, eq_comm]
  | 4 => simp [categoryShape, eq_comm]
  | n + 5 =>
    simp only [categoryShape]
    constructor
    · exact fun h => nomatch h
    · omega

section Clear

variable {h : ReqHeader} {c : Byte} {f : Word} {s : State} {top bits : Nat}

theorem applyAttentionClear_fits (hs : categoryShape c.toNat = some (top, bits)) (ht : h.key.toNat ≤ top)
    (hf : f.toNat < 2 ^ bits) : applyAttentionClear h c f s = s.clearAt c.toNat h.key.toNat f := by
  simp only [applyAttentionClear, hs, if_neg (Nat.not_lt.2 ht), if_neg (Nat.not_le.2 hf)]

theorem applyAttentionClear_refused
    (hn : ∀ top bits, categoryShape c.toNat = some (top, bits) → h.key.toNat ≤ top → ¬ f.toNat < 2 ^ bits) :
    applyAttentionClear h c f s = refuse s .outOfRange := by
  cases hs : categoryShape c.toNat with
  | none => simp only [applyAttentionClear, hs]
  | some r =>
    obtain ⟨top, bits⟩ := r
    simp only [applyAttentionClear, hs]
    by_cases ht : top < h.key.toNat
    · rw [if_pos ht]
    · rw [if_neg ht, if_pos (Nat.not_lt.1 (hn top bits hs (Nat.not_lt.1 ht)))]

end Clear

theorem clearBits_eq {w : Nat} (f : Word) (x : BitVec w) : clearBits f x = x &&& ~~~(f.setWidth w) := rfl

section Record

variable {s : State} {k : Nat} {f : Word}

theorem State.clearAt_site (s : State) (k : Nat) (f : Word) : s.clearAt 0 k f =
    ⟨{ s with siteFlags := s.siteFlags &&& ~~~(f.setWidth 6) }, .ok, .flags (s.siteFlags &&& ~~~(f.setWidth 6)).toNat⟩ := rfl

theorem State.clearAt_port (n : PortNo) (s : State) (f : Word) : s.clearAt 1 n.val f =
    ⟨s.setPort n (Port.clearFlags f), .ok, .flags ((s.port n).clearFlags f).flags.toNat⟩ := by
  have hport : (s.setPort n (Port.clearFlags f)).port n = (s.port n).clearFlags f := State.port_putPort_self s n _
  rw [← hport]
  exact dif_pos n.isLt

theorem State.clearAt_noBus (hb : s.bus k = none) : s.clearAt 2 k f = refuse s .notFound := by
  simp only [State.clearAt, hb]

theorem State.clearAt_bus {b : Bus} (hb : s.bus k = some b) : s.clearAt 2 k f =
    ⟨s.putBus k { b with flags := clearBits f b.flags }, .ok, .flags (clearBits f b.flags).toNat⟩ := by
  simp only [State.clearAt, hb]

theorem State.clearAt_noPlan (hp : s.plan k = none) : s.clearAt 3 k f = refuse s .notFound := by
  simp only [State.clearAt, hp]

theorem Bool.toNat_eq_ite (b : Bool) : (if b = true then 1 else 0) = b.toNat := by cases b <;> rfl

theorem State.clearAt_plan {p : Plan} (hp : s.plan k = some p) : s.clearAt 3 k f =
    ⟨s.putPlan k { p with final := p.final && !f.getLsbD 0 }, .ok, .flags (p.final && !f.getLsbD 0).toNat⟩ := by
  rw [← Bool.toNat_eq_ite]
  simp only [State.clearAt, hp]

theorem State.clearAt_noCommit (hc : s.commit k = none) : s.clearAt 4 k f = refuse s .notFound := by
  simp only [State.clearAt, hc]

theorem State.clearAt_commit {d : Commitment} (hc : s.commit k = some d) : s.clearAt 4 k f =
    ⟨s.putCommit k { d with flags := clearBits f d.flags }, .ok, .flags (clearBits f d.flags).toNat⟩ := by
  simp only [State.clearAt, hc]

end Record

/-- R90: clearing GLITCH also clears both glitch records. -/
theorem Port.clearFlags_eq (f : Word) (p : Port) : p.clearFlags f =
    { p with
      flags := p.flags &&& ~~~(f.setWidth 6)
      ma := { p.ma with glitch := p.ma.glitch && !f.getLsbD 3 }
      mb := { p.mb with glitch := p.mb.glitch && !f.getLsbD 3 } } := by
  cases hf : f.getLsbD 3 with
  | true => simp only [Port.clearFlags, hf, if_true, Bool.not_true, Bool.and_false, clearBits]
  | false => simp only [Port.clearFlags, hf, Bool.false_eq_true, if_false, Bool.not_false, Bool.and_true, clearBits]

/-- Settles O52: the ranges of the five categories, and the clear of one record of each. -/
theorem attentionClearClearsNamedFlags : Obligations.AttentionClearClearsNamedFlags := by
  intro h c f s hq slot answers fits
  have hx := exec_attentionClear h c f s
  have hclears {category top bits : Nat} (hs : categoryShape category = some (top, bits)) (hf : fits category top bits) :
      applyAttentionClear h c f (s.modRing Ring.pop) = (s.modRing Ring.pop).clearAt category slot f := by
    obtain ⟨rfl, ht, hb⟩ := hf
    exact applyAttentionClear_fits hs ht hb
  have hnotFound {category top bits : Nat} (hs : categoryShape category = some (top, bits)) (hf : fits category top bits)
      (hn : (s.modRing Ring.pop).clearAt category slot f = refuse (s.modRing Ring.pop) .notFound) :
      answers s .notFound .none := hx.trans (takeRequest_refused hq ((hclears hs hf).trans hn))
  refine ⟨fun hn => ?range, fun hf => ?site, fun hf => ?port,
    fun hf hb => hnotFound rfl hf (State.clearAt_noBus hb), fun b hf hb => ?bus,
    fun hf hp => hnotFound rfl hf (State.clearAt_noPlan hp), fun p hf hp => ?plan,
    fun hf hd => hnotFound rfl hf (State.clearAt_noCommit hd), fun d hf hd => ?commit⟩
  case range =>
    refine hx.trans (takeRequest_refused hq (applyAttentionClear_refused fun top bits hs ht hb => hn ?_))
    rcases categoryShape_iff.1 hs with ⟨hc, rfl, rfl⟩ | ⟨hc, rfl, rfl⟩ | ⟨hc, rfl, rfl⟩ | ⟨hc, rfl, rfl⟩ | ⟨hc, rfl, rfl⟩
    · exact .inl ⟨hc, ht, hb⟩
    · exact .inr (.inl ⟨hc, ht, hb⟩)
    · exact .inr (.inr (.inl ⟨hc, ht, hb⟩))
    · exact .inr (.inr (.inr (.inl ⟨hc, ht, hb⟩)))
    · exact .inr (.inr (.inr (.inr ⟨hc, ht, hb⟩)))
  case site => exact hx.trans (takeRequest_answered hq _ _ _ ((hclears rfl hf).trans (State.clearAt_site ..)))
  case port =>
    have hslot : slot < 24 := Nat.lt_succ_of_le hf.2.1
    have hcleared := (hclears rfl hf).trans (State.clearAt_port ⟨slot, hslot⟩ (s.modRing Ring.pop) f)
    refine ⟨⟨slot, hslot⟩, (s.port ⟨slot, hslot⟩).clearFlags f, rfl, ?_, ?_, ?_, ?_, ?_⟩
    · exact hx.trans (takeRequest_answered hq _ _ _ hcleared)
    all_goals rw [Port.clearFlags_eq]
  case bus => exact hx.trans (takeRequest_answered hq _ _ _ ((hclears rfl hf).trans (State.clearAt_bus hb)))
  case plan => exact hx.trans (takeRequest_answered hq _ _ _ ((hclears rfl hf).trans (State.clearAt_plan hp)))
  case commit => exact hx.trans (takeRequest_answered hq _ _ _ ((hclears rfl hf).trans (State.clearAt_commit hd)))

/-! ### ATTENTION_SCAN (R192) -/

/-- What a scan from a position answers: the entries of the positions it passed, and why it stopped there. -/
structure State.Scans (s : State) (pos wanted : Nat) (r : Nat × List ScanEntry) : Prop where
  from_   : pos ≤ r.1
  upTo    : r.1 ≤ 745
  entries : r.2 = (List.range' pos (r.1 - pos)).filterMap s.scanAt
  length  : r.2.length ≤ wanted
  short   : r.2.length < wanted → r.1 = 745
  last    : r.2.length = wanted → 0 < r.1 ∧ s.scanAt (r.1 - 1) ≠ none

/-- A scan that passes one more position. -/
theorem range'_from {pos cursor : Nat} (h : pos + 1 ≤ cursor) :
    List.range' pos (cursor - pos) = pos :: List.range' (pos + 1) (cursor - (pos + 1)) := by
  have hlen : cursor - pos = (cursor - (pos + 1)) + 1 := by omega
  rw [hlen, List.range'_succ]

theorem State.Scans.pass {s : State} {pos wanted : Nat} {r : Nat × List ScanEntry} (h : s.Scans (pos + 1) wanted r)
    (he : s.scanAt pos = none) : s.Scans pos wanted r := by
  obtain ⟨start, upTo, entries, length, short, last⟩ := h
  refine ⟨by omega, upTo, ?_, length, short, last⟩
  rw [range'_from start, List.filterMap_cons_none he]
  exact entries

theorem State.Scans.add {s : State} {pos wanted : Nat} {r : Nat × List ScanEntry} {e : ScanEntry}
    (h : s.Scans (pos + 1) wanted r) (he : s.scanAt pos = some e) :
    s.Scans pos (wanted + 1) (r.1, e :: r.2) := by
  obtain ⟨start, upTo, entries, length, short, last⟩ := h
  refine ⟨by show pos ≤ r.1; omega, upTo, ?_, Nat.succ_le_succ length, fun hl => short (Nat.lt_of_succ_lt_succ hl),
    fun hl => last (Nat.succ.inj hl)⟩
  show e :: r.2 = _
  rw [range'_from start, List.filterMap_cons_some he, ← entries]

/-- The scan stops at the last entry that is wanted. -/
theorem State.Scans.stop {s : State} {pos : Nat} {e : ScanEntry} (hp : pos ≤ 744) (he : s.scanAt pos = some e) :
    s.Scans pos 1 (pos + 1, [e]) := by
  refine ⟨Nat.le_succ pos, Nat.succ_le_succ hp, ?_, Nat.le_refl 1, fun h => absurd h (Nat.lt_irrefl 1), fun _ => ⟨Nat.succ_pos _, ?_⟩⟩
  · show [e] = _
    rw [range'_from (Nat.le_refl _), List.filterMap_cons_some he, Nat.sub_self]
    rfl
  · show s.scanAt pos ≠ none
    rw [he]
    exact Option.some_ne_none e

/-- No position is left. -/
theorem State.Scans.done (s : State) {wanted : Nat} (hw : 0 < wanted) : s.Scans 745 wanted (745, []) := by
  refine ⟨le_rfl, le_rfl, ?_, Nat.zero_le _, fun _ => rfl, fun h => absurd h (Nat.ne_of_lt hw)⟩
  rw [Nat.sub_self]
  rfl

theorem State.scanFrom_scans (s : State) (n : Nat) : ∀ (pos wanted : Nat), n + pos = 745 → 0 < wanted →
    s.Scans pos wanted (s.scanFrom n pos wanted) := by
  induction n with
  | zero =>
    intro pos wanted hn hw
    obtain rfl : pos = 745 := by omega
    exact .done s hw
  | succ n ih =>
    intro pos wanted hn hw
    have hpos : ¬ 744 < pos := by omega
    rw [State.scanFrom, if_neg hpos]
    cases he : s.scanAt pos with
    | none => exact (ih (pos + 1) wanted (by omega) hw).pass he
    | some e =>
      dsimp only
      by_cases h1 : wanted = 1
      · rw [if_pos h1, h1]
        exact .stop (by omega) he
      · rw [if_neg h1]
        obtain ⟨m, rfl⟩ : ∃ m, wanted = m + 1 + 1 := ⟨wanted - 2, by omega⟩
        exact (ih (pos + 1) (m + 1) (by omega) (Nat.succ_pos m)).add he

theorem exec_attentionScan (h : ReqHeader) (s : State) :
    exec (.attentionScan h) s = takeRequest ⟨h, .attentionScan⟩ (applyAttentionScan h) s := rfl

theorem applyAttentionScan_range {h : ReqHeader} {s : State} (hk : 745 < h.key.toNat) :
    applyAttentionScan h s = refuse s .outOfRange := if_pos hk

theorem applyAttentionScan_scans {h : ReqHeader} {s : State} (hk : h.key.toNat ≤ 745) : applyAttentionScan h s =
    ⟨s, .ok, .scan (s.scanFrom (745 - h.key.toNat) h.key.toNat 8).1 (s.scanFrom (745 - h.key.toNat) h.key.toNat 8).2⟩ :=
  if_neg (Nat.not_lt.2 hk)

/-- The Ring Interface holds no record, so a scan reads the same without its request. -/
theorem State.scanAt_pop (s : State) (f : Ring → Ring) : (s.modRing f).scanAt = s.scanAt := rfl

theorem State.scanFrom_pop (s : State) (f : Ring → Ring) (n : Nat) : ∀ pos wanted,
    (s.modRing f).scanFrom n pos wanted = s.scanFrom n pos wanted := by
  induction n with
  | zero => exact fun _ _ => rfl
  | succ n ih =>
    intro pos wanted
    simp only [State.scanFrom, State.scanAt_pop, ih]

/-! ### The positions of the scan -/

theorem entryOf_flags {w : Nat} (category slot : Nat) (x : BitVec w) :
    entryOf category slot x.toNat = if x = 0 then none else some ⟨category, slot, x.toNat⟩ := by
  rw [entryOf]
  exact if_congr (by rw [← BitVec.toNat_inj]; rfl) rfl rfl

theorem State.scanAt_port (s : State) (n : PortNo) : s.scanAt (n.val + 1) = entryOf 1 n.val (s.port n).flags.toNat := by
  rw [State.scanAt, if_neg (Nat.succ_ne_zero _), dif_pos (show n.val + 1 - 1 < 24 from n.isLt)]
  rfl

theorem State.scanAt_bus (s : State) {i : Nat} (h : i < 192) :
    s.scanAt (i + 25) = (s.bus i).bind fun b => entryOf 2 i b.flags.toNat := by
  rw [State.scanAt, if_neg (by omega), dif_neg (by omega), if_pos (by omega), Nat.add_sub_cancel]

theorem State.scanAt_plan (s : State) {i : Nat} (h : i < 512) :
    s.scanAt (i + 217) = (s.plan i).bind fun p => entryOf 3 i (planFlags p) := by
  rw [State.scanAt, if_neg (by omega), dif_neg (by omega), if_neg (by omega), if_pos (by omega), Nat.add_sub_cancel]

theorem State.scanAt_commit (s : State) (i : Nat) :
    s.scanAt (i + 729) = (s.commit i).bind fun c => entryOf 4 i c.flags.toNat := by
  rw [State.scanAt, if_neg (by omega), dif_neg (by omega), if_neg (by omega), if_neg (by omega), Nat.add_sub_cancel]

theorem entryOf_planFlags (i : Nat) (p : Plan) : entryOf 3 i (planFlags p) = if p.final = true then some ⟨3, i, 1⟩ else none := by
  rw [entryOf, planFlags]
  cases p.final <;> rfl

/-! ### ATTENTION_IRQ (R191) -/

theorem State.anyPort_iff (s : State) (f : Port → Bool) :
    s.ports.toList.any f = true ↔ ∃ n : PortNo, f (s.port n) = true := by
  rw [List.any_eq_true]
  constructor
  · rintro ⟨p, hp, hf⟩
    obtain ⟨k, hk, rfl⟩ := Vector.getElem_of_mem (Vector.mem_toList_iff.1 hp)
    exact ⟨⟨k, hk⟩, hf⟩
  · exact fun ⟨n, hf⟩ => ⟨s.port n, Vector.mem_toList_iff.2 (Vector.getElem_mem n.isLt), hf⟩

theorem State.attentionIrq_iff (s : State) : s.attentionIrq = true ↔
    (s.mask.getLsbD 0 = true ∧ s.siteFlags ≠ 0)
    ∨ (s.mask.getLsbD 1 = true ∧ ∃ n : PortNo, (s.port n).flags ≠ 0)
    ∨ (s.mask.getLsbD 2 = true ∧ ∃ r ∈ s.buses.rows, r.2.flags ≠ 0)
    ∨ (s.mask.getLsbD 3 = true ∧ ∃ r ∈ s.plans.rows, r.2.final = true)
    ∨ (s.mask.getLsbD 4 = true ∧ ∃ r ∈ s.commits.rows, r.2.flags ≠ 0) := by
  simp only [State.attentionIrq, Bool.or_eq_true, Bool.and_eq_true, State.anyPort_iff, or_assoc]
  simp only [List.any_eq_true, bne_iff_ne]

/-- Settles O53: the scan by its positions, what each position holds, and the interrupt. -/
theorem attentionScanAndInterrupt : Obligations.AttentionScanAndInterrupt := by
  intro h s
  refine ⟨fun hq => ⟨fun hk => ?range, fun hk => ?scan⟩, entryOf_flags 0 0 s.siteFlags, fun n => ?port, fun i => ?bus,
    fun i => ?plan, fun i => ?commit, s.attentionIrq_iff⟩
  case range => exact (exec_attentionScan h s).trans (takeRequest_refused hq (applyAttentionScan_range hk))
  case scan =>
    obtain ⟨start, upTo, entries, length, short, last⟩ :=
      s.scanFrom_scans (745 - h.key.toNat) h.key.toNat 8 (by omega) (by decide)
    have hreply := applyAttentionScan_scans (s := s.modRing Ring.pop) hk
    rw [State.scanFrom_pop] at hreply
    exact ⟨_, _, (exec_attentionScan h s).trans (takeRequest_answered hq s _ _ hreply), start, upTo, entries, length, short, last⟩
  case port => rw [s.scanAt_port n, entryOf_flags]
  case bus =>
    rw [s.scanAt_bus i.isLt]
    cases s.bus i.val with
    | none => rfl
    | some b => exact entryOf_flags 2 i.val b.flags
  case plan =>
    rw [s.scanAt_plan i.isLt]
    cases s.plan i.val with
    | none => rfl
    | some p => exact entryOf_planFlags i.val p
  case commit =>
    rw [s.scanAt_commit i.val]
    cases s.commit i.val with
    | none => rfl
    | some c => exact entryOf_flags 4 i.val c.flags

end Sys2Proof.Machine
end

section
/-! The lookups of site, ports, engine and commitments, and the bytes of PORT_LOOKUP's two views: O54. -/

namespace Sys2Proof.Machine

open Sys2Proof

/-! ### The four lookups -/

theorem exec_siteLookup (h : ReqHeader) (sel : Byte) (port : Word) (s : State) :
    exec (.siteLookup h sel port) s = takeRequest ⟨h, .siteLookup sel port⟩ (applySiteLookup sel port) s := rfl

theorem exec_portLookup (h : ReqHeader) (port : Word) (s : State) :
    exec (.portLookup h port) s = takeRequest ⟨h, .portLookup port⟩ (applyPortLookup h port) s := rfl

theorem exec_allocLookup (h : ReqHeader) (sel : Byte) (port : Word) (s : State) :
    exec (.allocLookup h sel port) s = takeRequest ⟨h, .allocLookup sel port⟩ (applyAllocLookup sel port) s := rfl

theorem exec_commitLookup (h : ReqHeader) (s : State) :
    exec (.commitLookup h) s = takeRequest ⟨h, .commitLookup⟩ (applyCommitLookup h) s := rfl

section Lookups

variable {s : State} {sel : Byte} {port : Word} {h : ReqHeader} {n : PortNo}

theorem applySiteLookup_ratings (hp : port.toNat = n.val) : applySiteLookup 2 port s =
    ⟨s, .ok, .ratings s.site.stagedRatings[n] s.site.liveRatings[n] s.site.loadPending⟩ := by
  simp only [applySiteLookup, show (2 : Byte).toNat = 2 from rfl, portOf_eq hp]

theorem applySiteLookup_range (hs : 3 < sel.toNat ∨ (sel = 2 ∧ 23 < port.toNat)) :
    applySiteLookup sel port s = refuse s .outOfRange := by
  rcases hs with hs | ⟨rfl, hp⟩
  · unfold applySiteLookup
    split
    · omega
    · omega
    · omega
    · omega
    · rfl
  · simp only [applySiteLookup, show (2 : Byte).toNat = 2 from rfl, portOf_none hp]

theorem applyPortLookup_range (hp : 23 < port.toNat) : applyPortLookup h port s = refuse s .outOfRange := by
  simp only [applyPortLookup, portOf_none hp]

theorem applyPortLookup_view1 (hp : port.toNat = n.val) (hv : h.flags.getLsbD 1 = true) :
    applyPortLookup h port s = ⟨s, .ok, .portView (portView1 (s.port n))⟩ := by
  simp only [applyPortLookup, portOf_eq hp, ReqHeader.view1, hv, if_true]

theorem applyPortLookup_view0 (hp : port.toNat = n.val) (hv : h.flags.getLsbD 1 = false) : applyPortLookup h port s =
    ⟨s, .ok, .portView (portView0 (s.port n) s.site.liveRatings[n] (s.boundNumber n))⟩ := by
  simp only [applyPortLookup, portOf_eq hp, ReqHeader.view1, hv, Bool.false_eq_true, if_false, State.rating]

theorem applyAllocLookup_port (hp : port.toNat = n.val) : applyAllocLookup 1 port s =
    ⟨s, .ok, .allocPort (s.allocPortView n)⟩ := by
  simp only [applyAllocLookup, show (1 : Byte).toNat = 1 from rfl, portOf_eq hp]

theorem State.allocPortView_none (hs : s.engine.summary = none) : s.allocPortView n = none := by
  simp only [State.allocPortView, hs]

theorem State.allocPortView_some (hs : s.engine.summary ≠ none) :
    s.allocPortView n = some (s.engine.ports[n], (s.port n).residue) := by
  obtain ⟨x, hx⟩ := Option.ne_none_iff_exists'.1 hs
  simp only [State.allocPortView, hx]

theorem applyAllocLookup_range (hs : 1 < sel.toNat ∨ (sel = 1 ∧ 23 < port.toNat)) :
    applyAllocLookup sel port s = refuse s .outOfRange := by
  rcases hs with hs | ⟨rfl, hp⟩
  · unfold applyAllocLookup
    split
    · omega
    · omega
    · rfl
  · simp only [applyAllocLookup, show (1 : Byte).toNat = 1 from rfl, portOf_none hp]

theorem applyCommitLookup_refused {st : Status} (hr : s.resolveCommit h = .error st) :
    applyCommitLookup h s = refuse s st := by
  simp only [applyCommitLookup, hr]

variable {i : Nat} {c : Commitment}

theorem applyCommitLookup_view0 (hr : s.resolveCommit h = .ok (i, c)) (hv : h.flags.getLsbD 1 = false) :
    applyCommitLookup h s = ⟨s, .ok, .commitView0 (s.commitView0 i c)⟩ := by
  simp only [applyCommitLookup, hr, ReqHeader.view1, hv, Bool.false_eq_true, if_false]

theorem applyCommitLookup_view1 (hr : s.resolveCommit h = .ok (i, c)) (hv : h.flags.getLsbD 1 = true) :
    applyCommitLookup h s = ⟨s, .ok, .commitView1 (commitView1 i c)⟩ := by
  simp only [applyCommitLookup, hr, ReqHeader.view1, hv, if_true]

theorem commitView1_capNet (i : Nat) (c : Commitment) :
    (commitView1 i c).capNet = c.baseline.map fun bl => bl - (c.target : Int) := by
  show (c.baseline.map fun _ => c.capNet) = _
  rw [Commitment.capNet]
  cases c.baseline <;> rfl

end Lookups

/-! ### View 0 of PORT_LOOKUP -/

/-- The blocks of view 0 of PORT_LOOKUP. -/
def portBlocks0 (p : Port) (r : Ratings) (busNumber : Nat) : List (List Byte) :=
  [leBytes 1 p.number.val, leBytes 1 p.state.code, leBytes 1 (pendingCode p.pendingTarget),
    leBytes 1 (match p.lastTransition with | some t => t.target.code + 1 | none => 0),
    leBytes 1 (match p.lastTransition with | some t => t.outcome.code | none => 0),
    leBytes 4 (match p.lastTransition with | some t => t.time | none => 0),
    leBytes 3 r.imp, leBytes 2 r.exp, leBytes 1 p.energyPerCount, leBytes 1 p.filterThreshold,
    leBytes 1 (pilotCode p.taken), leBytes 3 p.held.mag, leBytes 1 p.held.dir.code, leBytes 3 p.live.mag,
    leBytes 1 p.live.dir.code, leBytes 1 p.lastDir.code, leBytes 4 (p.zeroSince.getD 0), leSigned 1 p.residue,
    leBytes 1 (contactCode p.command), leBytes 1 (contactCode p.feedback),
    leBytes 1 (match p.faultCode with | some f => f.code + 1 | none => 0), leBytes 1 p.flags.toNat,
    leBytes 1 p.bindingCode, leBytes 2 busNumber, leBytes 4 ((p.session.map Session.start).getD 0),
    leBytes 3 p.sessionImportCap, leBytes 2 p.sessionExportCap]

/-- The lengths of the blocks of view 0. -/
def portLengths0 : List Nat :=
  [1, 1, 1, 1, 1, 4, 3, 2, 1, 1, 1, 3, 1, 3, 1, 1, 4, 1, 1, 1, 1, 1, 1, 2, 4, 3, 2]

theorem portBlocks0_lengths (p : Port) (r : Ratings) (m : Nat) : (portBlocks0 p r m).map List.length = portLengths0 := by
  simp only [portBlocks0, portLengths0, List.map_cons, List.map_nil, length_leBytes, length_leSigned]

theorem portView0_eq (p : Port) (r : Ratings) (m : Nat) : portView0 p r m = (portBlocks0 p r m).flatten := by
  exact foldl_append_flatten (portBlocks0 p r m).tail (leBytes 1 p.number.val)

theorem portView0_field (p : Port) (r : Ratings) (m k : Nat) {x : List Byte} (hx : (portBlocks0 p r m)[k]? = some x) :
    ((portView0 p r m).drop (portLengths0.take k).sum).take (portLengths0.getD k 0) = x := by
  rw [portView0_eq]
  exact field_of_blocks (portBlocks0_lengths p r m) k hx

theorem portView0_length (p : Port) (r : Ratings) (m : Nat) : (portView0 p r m).length = 47 := by
  rw [portView0_eq]
  exact length_of_blocks (portBlocks0_lengths p r m)

/-! ### View 1 of PORT_LOOKUP -/

/-- The blocks of view 1 of PORT_LOOKUP. -/
def portBlocks1 (p : Port) : List (List Byte) :=
  [leBytes 1 p.number.val, leBytes 1 p.presence, leBytes 4 p.sessionImport, leBytes 4 p.sessionExport,
    leBytes 4 ((p.announced.map Announced.maxImport).getD 0), leBytes 4 ((p.announced.map Announced.maxExport).getD 0),
    leBytes 1 (boolCode ((p.announced.map Announced.v2g).getD false)), leBytes 1 p.exchange.code, leBytes 1 p.attempts,
    leBytes 2 p.checkErrors, leBytes 2 p.discards, leBytes 2 (p.claimed.getD 0),
    leBytes 1 ((p.lastFault.map FaultReport.code).getD 0), leBytes 4 ((p.lastFault.map FaultReport.time).getD 0),
    leBytes 1 p.wrongRun, leBytes 2 p.stray, leBytes 2 p.idle, leBytes 1 (boolCode p.ma.glitch),
    leBytes 1 (boolCode p.mb.glitch), leBytes 1 (levelCode p.ma.output), leBytes 1 p.ma.counter,
    leBytes 1 (levelCode p.mb.output), leBytes 1 p.mb.counter,
    leBytes 1 (match p.lastApplied with | some a => a.dir.code | none => 0),
    leBytes 4 ((p.lastApplied.map AppliedCount.time).getD 0), leBytes 1 (boolCode p.stall.isRunning),
    leBytes 2 p.stall.seconds.1, leBytes 2 p.stall.seconds.2]

/-- The lengths of the blocks of view 1. -/
def portLengths1 : List Nat :=
  [1, 1, 4, 4, 4, 4, 1, 1, 1, 2, 2, 2, 1, 4, 1, 2, 2, 1, 1, 1, 1, 1, 1, 1, 4, 1, 2, 2]

theorem portBlocks1_lengths (p : Port) : (portBlocks1 p).map List.length = portLengths1 := by
  simp only [portBlocks1, portLengths1, List.map_cons, List.map_nil, length_leBytes]

theorem portView1_eq (p : Port) : portView1 p = (portBlocks1 p).flatten := by
  exact foldl_append_flatten (portBlocks1 p).tail (leBytes 1 p.number.val)

theorem portView1_field (p : Port) (k : Nat) {x : List Byte} (hx : (portBlocks1 p)[k]? = some x) :
    ((portView1 p).drop (portLengths1.take k).sum).take (portLengths1.getD k 0) = x := by
  rw [portView1_eq]
  exact field_of_blocks (portBlocks1_lengths p) k hx

theorem portView1_length (p : Port) : (portView1 p).length = 53 := by
  rw [portView1_eq]
  exact length_of_blocks (portBlocks1_lengths p)

/-! ### The values of the fields -/

section Values

variable (p : Port) (r : Ratings) (m : Nat)

/-- A block of one number is that of an equal number. -/
theorem field_value {l : List Byte} {n v w : Nat} (h : l = leBytes n v) (e : v = w) : l = leBytes n w := e ▸ h

theorem portView0_pending : ∀ o : Option PortTarget, p.pendingTarget = o →
    ((portView0 p r m).drop 2).take 1 = leBytes 1 (pendingCode o) := by
  rintro _ rfl
  exact portView0_field p r m 2 rfl

theorem portView0_noTransition (h : p.lastTransition = none) : ((portView0 p r m).drop 3).take 1 = leBytes 1 0
    ∧ ((portView0 p r m).drop 4).take 1 = leBytes 1 0 ∧ ((portView0 p r m).drop 5).take 4 = leBytes 4 0 :=
  ⟨field_value (portView0_field p r m 3 rfl) (by rw [h]), field_value (portView0_field p r m 4 rfl) (by rw [h]),
    field_value (portView0_field p r m 5 rfl) (by rw [h])⟩

theorem portView0_transition {x : Transition} (h : p.lastTransition = some x) :
    ((portView0 p r m).drop 3).take 1 = leBytes 1 (x.target.code + 1)
    ∧ ((portView0 p r m).drop 4).take 1 = leBytes 1 x.outcome.code
    ∧ ((portView0 p r m).drop 5).take 4 = leBytes 4 x.time :=
  ⟨field_value (portView0_field p r m 3 rfl) (by rw [h]), field_value (portView0_field p r m 4 rfl) (by rw [h]),
    field_value (portView0_field p r m 5 rfl) (by rw [h])⟩

theorem portView1_announced {a : Announced} (h : p.session.bind Session.announced = some a) :
    ((portView1 p).drop 10).take 4 = leBytes 4 a.maxImport ∧ ((portView1 p).drop 14).take 4 = leBytes 4 a.maxExport
    ∧ ((portView1 p).drop 18).take 1 = leBytes 1 (boolCode a.v2g) := by
  have ha : p.announced = some a := h
  exact ⟨field_value (portView1_field p 4 rfl) (by rw [ha]; rfl), field_value (portView1_field p 5 rfl) (by rw [ha]; rfl),
    field_value (portView1_field p 6 rfl) (by rw [ha]; rfl)⟩

theorem portView1_unannounced (h : p.session.bind Session.announced = none) :
    ((portView1 p).drop 10).take 4 = leBytes 4 0 ∧ ((portView1 p).drop 14).take 4 = leBytes 4 0
    ∧ ((portView1 p).drop 18).take 1 = leBytes 1 0 := by
  have ha : p.announced = none := h
  exact ⟨field_value (portView1_field p 4 rfl) (by rw [ha]; rfl), field_value (portView1_field p 5 rfl) (by rw [ha]; rfl),
    field_value (portView1_field p 6 rfl) (by rw [ha]; rfl)⟩

theorem portView1_exchange {e : ExchangeState} (h : p.exchange = e) : ((portView1 p).drop 19).take 1 = leBytes 1 e.code :=
  field_value (portView1_field p 7 rfl) (by rw [h])

theorem portView1_report {x : FaultReport} (h : p.lastFault = some x) :
    ((portView1 p).drop 27).take 1 = leBytes 1 x.code ∧ ((portView1 p).drop 28).take 4 = leBytes 4 x.time :=
  ⟨field_value (portView1_field p 12 rfl) (by rw [h]; rfl), field_value (portView1_field p 13 rfl) (by rw [h]; rfl)⟩

theorem portView1_noReport (h : p.lastFault = none) :
    ((portView1 p).drop 27).take 1 = leBytes 1 0 ∧ ((portView1 p).drop 28).take 4 = leBytes 4 0 :=
  ⟨field_value (portView1_field p 12 rfl) (by rw [h]; rfl), field_value (portView1_field p 13 rfl) (by rw [h]; rfl)⟩

theorem portView1_applied {x : AppliedCount} (h : p.lastApplied = some x) :
    ((portView1 p).drop 43).take 1 = leBytes 1 x.dir.code ∧ ((portView1 p).drop 44).take 4 = leBytes 4 x.time :=
  ⟨field_value (portView1_field p 23 rfl) (by rw [h]), field_value (portView1_field p 24 rfl) (by rw [h]; rfl)⟩

theorem portView1_noApplied (h : p.lastApplied = none) :
    ((portView1 p).drop 43).take 1 = leBytes 1 0 ∧ ((portView1 p).drop 44).take 4 = leBytes 4 0 :=
  ⟨field_value (portView1_field p 23 rfl) (by rw [h]), field_value (portView1_field p 24 rfl) (by rw [h]; rfl)⟩

theorem portView1_stall {t : Timer} (h : p.stall = t) : ((portView1 p).drop 48).take 1 = leBytes 1 (boolCode t.isRunning)
    ∧ ((portView1 p).drop 49).take 2 = leBytes 2 t.seconds.1 ∧ ((portView1 p).drop 51).take 2 = leBytes 2 t.seconds.2 :=
  ⟨field_value (portView1_field p 25 rfl) (by rw [h]), field_value (portView1_field p 26 rfl) (by rw [h]),
    field_value (portView1_field p 27 rfl) (by rw [h])⟩

theorem leSigned_one (v : Int) : leSigned 1 v = leBytes 1 (v % 256).toNat := by rw [leSigned, pow_one]

theorem Port.exchange_of_session {p : Port} (h : p.session ≠ none) : p.exchange = .session := by
  rw [Port.exchange, if_pos (Option.isSome_iff_ne_none.2 h)]

theorem Port.exchange_of_none {p : Port} (h : p.session = none) :
    p.exchange = if p.state = .identifying then .waiting else .idle := by
  rw [Port.exchange, if_neg (by rw [h]; exact Bool.noConfusion)]

end Values

/-- Settles O54: the answers of the four lookups, and each field of PORT_LOOKUP's two views in its place. -/
theorem lookupsAnswerFromState : Obligations.LookupsAnswerFromState := by
  refine ⟨?requests, ?views⟩
  case requests =>
    intro h sel port s answers
    refine ⟨fun hq => ?site, fun hq => ?port, fun hq => ?alloc, fun hq => ?commit⟩
    case site =>
      have hx := exec_siteLookup h sel port s
      refine ⟨?_, ?_, fun n hs hp => ?_, ?_, fun hs => ?_⟩
      · rintro rfl
        exact hx.trans (takeRequest_answered hq s _ _ rfl)
      · rintro rfl
        exact hx.trans (takeRequest_answered hq s _ _ rfl)
      · subst hs
        exact hx.trans (takeRequest_answered hq s _ _ (applySiteLookup_ratings (s := s.modRing Ring.pop) hp))
      · rintro rfl
        refine ⟨s.timeAndLoad, hx.trans (takeRequest_answered hq s _ _ rfl), rfl, rfl, rfl, rfl, rfl, rfl, rfl,
          fun hm => ?_, fun hm => ?_⟩
        · simp only [State.timeAndLoad, hm]
        · simp only [State.timeAndLoad, hm]
      · exact hx.trans (takeRequest_refused hq (applySiteLookup_range hs))
    case port =>
      have hx := exec_portLookup h port s
      exact ⟨fun hp => hx.trans (takeRequest_refused hq (applyPortLookup_range hp)),
        fun n hp hv => hx.trans (takeRequest_answered hq s _ _ (applyPortLookup_view1 (s := s.modRing Ring.pop) hp hv)),
        fun n hp hv => hx.trans (takeRequest_answered hq s _ _ (applyPortLookup_view0 (s := s.modRing Ring.pop) hp hv))⟩
    case alloc =>
      have hx := exec_allocLookup h sel port s
      refine ⟨?_, fun n hs hp he => ?_, fun n hs hp he => ?_, fun hs => ?_⟩
      · rintro rfl
        exact hx.trans (takeRequest_answered hq s _ _ rfl)
      · subst hs
        have hreply := applyAllocLookup_port (s := s.modRing Ring.pop) hp
        rw [State.allocPortView_none (s := s.modRing Ring.pop) he] at hreply
        exact hx.trans (takeRequest_answered hq s _ _ hreply)
      · subst hs
        have hreply := applyAllocLookup_port (s := s.modRing Ring.pop) hp
        rw [State.allocPortView_some (s := s.modRing Ring.pop) he] at hreply
        exact hx.trans (takeRequest_answered hq s _ _ hreply)
      · exact hx.trans (takeRequest_refused hq (applyAllocLookup_range hs))
    case commit =>
      intro gives slot gen
      have hx := exec_commitLookup h s
      refine ⟨fun hk => hx.trans (takeRequest_refused hq (applyCommitLookup_refused (State.resolveCommit_range hk))),
        fun hk hs => hx.trans (takeRequest_refused hq
          (applyCommitLookup_refused (State.resolveCommit_stale (s := s.modRing Ring.pop) hk hs))),
        fun c hk hc hg => ?_⟩
      have hfound : (s.modRing Ring.pop).resolveCommit h = .ok (slot, c) :=
        State.resolveCommit_found (s := s.modRing Ring.pop) hk hc hg
      refine ⟨fun hv => ?_, fun hv => ?_⟩
      · have hreply := applyCommitLookup_view0 hfound hv
        rw [State.commitView0, hg] at hreply
        exact hx.trans (takeRequest_answered hq s _ _ hreply)
      · have hcap := commitView1_capNet slot c
        have hreply := applyCommitLookup_view1 hfound hv
        rw [commitView1, hg] at hreply
        rw [commitView1] at hcap
        rw [← hcap]
        exact hx.trans (takeRequest_answered hq s _ _ hreply)
  case views =>
    intro p r number v0 v1 in0 in1 bit dir level
    refine ⟨portView0_length p r number, portView1_length p, portView0_field p r number 0 rfl,
      field_value (portView0_field p r number 1 rfl) (by cases p.state <;> rfl),
      portView0_pending p r number none, portView0_pending p r number (some .offline),
      portView0_pending p r number (some .reidentify), portView0_noTransition p r number, fun x hx => ?transition,
      portView0_field p r number 6 rfl, portView0_field p r number 7 rfl, portView0_field p r number 8 rfl,
      portView0_field p r number 9 rfl, field_value (portView0_field p r number 10 rfl) (by cases p.taken <;> rfl),
      portView0_field p r number 11 rfl, field_value (portView0_field p r number 12 rfl) (by cases p.held.dir <;> rfl),
      portView0_field p r number 13 rfl, field_value (portView0_field p r number 14 rfl) (by cases p.live.dir <;> rfl),
      field_value (portView0_field p r number 15 rfl) (by cases p.lastDir <;> rfl), portView0_field p r number 16 rfl,
      (portView0_field p r number 17 rfl).trans (leSigned_one _),
      field_value (portView0_field p r number 18 rfl) (by cases p.command <;> rfl),
      field_value (portView0_field p r number 19 rfl) (by cases p.feedback <;> rfl),
      field_value (portView0_field p r number 20 rfl) ?fault, portView0_field p r number 21 rfl,
      field_value (portView0_field p r number 22 rfl) ?binding, portView0_field p r number 23 rfl,
      portView0_field p r number 24 rfl, portView0_field p r number 25 rfl, portView0_field p r number 26 rfl,
      portView1_field p 0 rfl, portView1_field p 1 rfl, portView1_field p 2 rfl, portView1_field p 3 rfl,
      fun a => portView1_announced p, portView1_unannounced p,
      fun hs => portView1_exchange p (Port.exchange_of_session hs),
      fun hs hi => portView1_exchange p ((Port.exchange_of_none hs).trans (if_pos hi)),
      fun hs hi => portView1_exchange p ((Port.exchange_of_none hs).trans (if_neg hi)),
      portView1_field p 8 rfl, portView1_field p 9 rfl, portView1_field p 10 rfl, portView1_field p 11 rfl,
      fun x => portView1_report p, portView1_noReport p, portView1_field p 14 rfl, portView1_field p 15 rfl,
      portView1_field p 16 rfl, portView1_field p 17 rfl, portView1_field p 18 rfl,
      field_value (portView1_field p 19 rfl) (by cases p.ma.output <;> rfl), portView1_field p 20 rfl,
      field_value (portView1_field p 21 rfl) (by cases p.mb.output <;> rfl), portView1_field p 22 rfl,
      fun x hx => ?applied, portView1_noApplied p, fun hs => portView1_stall p hs, fun l e hs => portView1_stall p hs⟩
    case transition =>
      obtain ⟨htarget, houtcome, htime⟩ := portView0_transition p r number hx
      exact ⟨field_value htarget (by cases x.target <;> rfl), field_value houtcome (by cases x.outcome <;> rfl), htime⟩
    case fault =>
      cases p.faultCode with
      | none => rfl
      | some f => cases f <;> rfl
    case binding =>
      rw [Port.bindingCode]
      cases p.session with
      | none => rfl
      | some x =>
        cases hb : x.binding with
        | bound i => simp only [Option.map_some, hb]
        | unidentified why => cases why <;> simp only [Option.map_some, hb]
    case applied =>
      obtain ⟨hdir, htime⟩ := portView1_applied p hx
      exact ⟨field_value hdir (by cases x.dir <;> rfl), htime⟩

end Sys2Proof.Machine
end

section
/-! The messages of the data channel (05 R92, R93): O55. -/

namespace Sys2Proof.Machine

open Sys2Proof

/-! ### Numbers in bytes -/

theorem leValue_leBytes (n v : Nat) : leValue (leBytes n v) = v % 256 ^ n := by
  induction n generalizing v with
  | zero => rw [pow_zero, Nat.mod_one]; rfl
  | succ n ih =>
    have hsplit : v % (256 * 256 ^ n) = v % 256 + 256 * (v / 256 % 256 ^ n) := Nat.mod_mul
    rw [leBytes, leValue, ih, BitVec.toNat_ofNat, pow_succ' 256 n, hsplit]

theorem beValue_beBytes (n v : Nat) : beValue (beBytes n v) = v % 256 ^ n := by
  rw [beValue, beBytes, List.reverse_reverse, leValue_leBytes]

@[simp] theorem length_beBytes (n v : Nat) : (beBytes n v).length = n := by
  rw [beBytes, List.length_reverse, length_leBytes]

theorem beValue_word (w : Word) : beValue (beBytes 4 w.toNat) = w.toNat := by
  rw [beValue_beBytes]
  exact Nat.mod_eq_of_lt w.isLt

theorem beValue_half (w : Half) : beValue (beBytes 2 w.toNat) = w.toNat := by
  rw [beValue_beBytes]
  exact Nat.mod_eq_of_lt w.isLt

theorem beValue_byte (b : Byte) : beValue [b] = b.toNat := rfl

/-! ### The check byte -/

theorem byteSum_append (xs ys : List Byte) : byteSum (xs ++ ys) = byteSum xs + byteSum ys := by
  induction xs with
  | nil => exact (BitVec.zero_add _).symm
  | cons x xs ih => rw [List.cons_append, byteSum, ih, byteSum, BitVec.add_assoc]

/-- R93: the check byte makes the sum a multiple of 256. -/
theorem Message.byteSum_bytes (m : Message) : byteSum m.bytes = 0 := by
  rw [Message.bytes, byteSum_append]
  show byteSum m.payload + (-(byteSum m.payload) + 0#8) = 0#8
  rw [BitVec.add_zero, BitVec.add_comm, BitVec.add_left_neg]

/-- A changed byte moves the sum by its change. -/
theorem byteSum_set {l : List Byte} {k : Nat} (hk : k < l.length) (b : Byte) :
    byteSum (l.set k b) + l[k] = byteSum l + b := by
  induction l generalizing k with
  | nil => exact absurd hk (Nat.not_lt_zero _)
  | cons x xs ih =>
    cases k with
    | zero =>
      rw [List.set_cons_zero, byteSum, byteSum, List.getElem_cons_zero]
      ac_rfl
    | succ k =>
      rw [List.set_cons_succ, byteSum, byteSum, List.getElem_cons_succ, BitVec.add_assoc, ih (Nat.lt_of_succ_lt_succ hk),
        BitVec.add_assoc]

/-! ### The bytes of each message -/

/-- The fields of a message, its type byte and its check byte among them, each in its bytes. -/
def Message.blocks (m : Message) : List (List Byte) :=
  (match m with
    | .enquire p d v => [[1], [p], beBytes 2 d.toNat, [v]]
    | .announce a => [[2], beBytes 2 a.bus.toNat, beBytes 4 a.soe.toNat, beBytes 4 a.capacity.toNat,
        beBytes 4 a.maxImport.toNat, beBytes 4 a.maxExport.toNat, [a.v2g]]
    | .limit i e => [[3], beBytes 4 i.toNat, beBytes 4 e.toNat]
    | .faultReport c => [[4], [c]]) ++ [[-(byteSum m.payload)]]

theorem Message.bytes_eq (m : Message) : m.bytes = m.blocks.flatten := by
  cases m <;> simp [Message.bytes, Message.blocks, Message.payload]

/-- R92: the lengths of the fields. -/
def Message.lengths : Message → List Nat
  | .enquire _ _ _ => [1, 1, 2, 1, 1]
  | .announce _ => [1, 2, 4, 4, 4, 4, 1, 1]
  | .limit _ _ => [1, 4, 4, 1]
  | .faultReport _ => [1, 1, 1]

theorem Message.blocks_lengths (m : Message) : m.blocks.map List.length = m.lengths := by
  cases m <;> simp [Message.blocks, Message.lengths]

theorem Message.bytes_length (m : Message) : m.bytes.length = m.lengths.sum := by
  rw [Message.bytes_eq]
  exact length_of_blocks m.blocks_lengths

theorem Message.fieldAt_block (m : Message) (k : Nat) {x : List Byte} (hx : m.blocks[k]? = some x) :
    fieldAt m.bytes (m.lengths.take k).sum (m.lengths.getD k 0) = beValue x := by
  rw [fieldAt, Message.bytes_eq, field_of_blocks m.blocks_lengths k hx]

/-- The type byte of a message that the port reads gives the message's length. -/
theorem Message.bytes_cons {m : Message} (hm : ∀ p d v, m ≠ .enquire p d v) :
    ∃ t rest, m.bytes = t :: rest ∧ messageLength t.toNat = some m.bytes.length := by
  cases m with
  | enquire p d v => exact absurd rfl (hm p d v)
  | announce a => exact ⟨2, _, rfl, by rw [Message.bytes_length]; rfl⟩
  | limit i e => exact ⟨3, _, rfl, by rw [Message.bytes_length]; rfl⟩
  | faultReport c => exact ⟨4, _, rfl, by rw [Message.bytes_length]; rfl⟩

/-! ### What the port makes of them (R93) -/

theorem receive_announce {rest : List Byte} (hl : (2 :: rest : List Byte).length = 21) (hs : byteSum (2 :: rest) = 0) :
    receive (2 :: rest) = .message (.announce
      { bus := BitVec.ofNat 16 (fieldAt (2 :: rest) 1 2)
        soe := BitVec.ofNat 32 (fieldAt (2 :: rest) 3 4)
        capacity := BitVec.ofNat 32 (fieldAt (2 :: rest) 7 4)
        maxImport := BitVec.ofNat 32 (fieldAt (2 :: rest) 11 4)
        maxExport := BitVec.ofNat 32 (fieldAt (2 :: rest) 15 4)
        v2g := BitVec.ofNat 8 (fieldAt (2 :: rest) 19 1) }) := if_pos ⟨hl, hs⟩

theorem receive_limit {rest : List Byte} (hl : (3 :: rest : List Byte).length = 10) (hs : byteSum (3 :: rest) = 0) :
    receive (3 :: rest) = .message (.limit (BitVec.ofNat 32 (fieldAt (3 :: rest) 1 4))
      (BitVec.ofNat 32 (fieldAt (3 :: rest) 5 4))) := if_pos ⟨hl, hs⟩

theorem receive_faultReport {rest : List Byte} (hl : (4 :: rest : List Byte).length = 3) (hs : byteSum (4 :: rest) = 0) :
    receive (4 :: rest) = .message (.faultReport (BitVec.ofNat 8 (fieldAt (4 :: rest) 1 1))) := if_pos ⟨hl, hs⟩

theorem receive_checkError {t : Byte} {rest : List Byte} {n : Nat} (hn : messageLength t.toNat = some n)
    (hs : byteSum (t :: rest) ≠ 0) : receive (t :: rest) = .checkError := by
  simp only [receive, hn]
  exact if_neg fun h => hs h.2

/-- Settles O55: each message by its fields, and a changed byte by the sum it leaves. -/
theorem messagesAreReceivedAsSent : Obligations.MessagesAreReceivedAsSent := by
  refine ⟨fun a => ?announce, fun i e => ?limit, fun c => ?report, fun p d v => rfl, fun m k b hm h0 hk hb => ?changed⟩
  case announce =>
    have hbus : fieldAt (Message.announce a).bytes 1 2 = a.bus.toNat :=
      ((Message.announce a).fieldAt_block 1 rfl).trans (beValue_half _)
    have hsoe : fieldAt (Message.announce a).bytes 3 4 = a.soe.toNat :=
      ((Message.announce a).fieldAt_block 2 rfl).trans (beValue_word _)
    have hcapacity : fieldAt (Message.announce a).bytes 7 4 = a.capacity.toNat :=
      ((Message.announce a).fieldAt_block 3 rfl).trans (beValue_word _)
    have himport : fieldAt (Message.announce a).bytes 11 4 = a.maxImport.toNat :=
      ((Message.announce a).fieldAt_block 4 rfl).trans (beValue_word _)
    have hexport : fieldAt (Message.announce a).bytes 15 4 = a.maxExport.toNat :=
      ((Message.announce a).fieldAt_block 5 rfl).trans (beValue_word _)
    have hv2g : fieldAt (Message.announce a).bytes 19 1 = a.v2g.toNat := (Message.announce a).fieldAt_block 6 rfl
    have hreceived := receive_announce (Message.announce a).bytes_length (Message.announce a).byteSum_bytes
    change receive (Message.announce a).bytes = Received.message (.announce
      ⟨BitVec.ofNat 16 (fieldAt (Message.announce a).bytes 1 2), BitVec.ofNat 32 (fieldAt (Message.announce a).bytes 3 4),
        BitVec.ofNat 32 (fieldAt (Message.announce a).bytes 7 4), BitVec.ofNat 32 (fieldAt (Message.announce a).bytes 11 4),
        BitVec.ofNat 32 (fieldAt (Message.announce a).bytes 15 4),
        BitVec.ofNat 8 (fieldAt (Message.announce a).bytes 19 1)⟩) at hreceived
    rw [hbus, hsoe, hcapacity, himport, hexport, hv2g] at hreceived
    simpa only [BitVec.ofNat_toNat, BitVec.setWidth_eq] using hreceived
  case limit =>
    have himport : fieldAt (Message.limit i e).bytes 1 4 = i.toNat :=
      ((Message.limit i e).fieldAt_block 1 rfl).trans (beValue_word _)
    have hexport : fieldAt (Message.limit i e).bytes 5 4 = e.toNat :=
      ((Message.limit i e).fieldAt_block 2 rfl).trans (beValue_word _)
    have hreceived := receive_limit (Message.limit i e).bytes_length (Message.limit i e).byteSum_bytes
    change receive (Message.limit i e).bytes = Received.message (.limit
      (BitVec.ofNat 32 (fieldAt (Message.limit i e).bytes 1 4)) (BitVec.ofNat 32 (fieldAt (Message.limit i e).bytes 5 4)))
      at hreceived
    rw [himport, hexport] at hreceived
    simpa only [BitVec.ofNat_toNat, BitVec.setWidth_eq] using hreceived
  case report =>
    have hcode : fieldAt (Message.faultReport c).bytes 1 1 = c.toNat := (Message.faultReport c).fieldAt_block 1 rfl
    have hreceived := receive_faultReport (Message.faultReport c).bytes_length (Message.faultReport c).byteSum_bytes
    change receive (Message.faultReport c).bytes = Received.message (.faultReport
      (BitVec.ofNat 8 (fieldAt (Message.faultReport c).bytes 1 1))) at hreceived
    rw [hcode] at hreceived
    simpa only [BitVec.ofNat_toNat, BitVec.setWidth_eq] using hreceived
  case changed =>
    obtain ⟨t, rest, ht, hn⟩ := Message.bytes_cons hm
    obtain ⟨j, rfl⟩ : ∃ j, k = j + 1 := ⟨k - 1, by omega⟩
    have hset : m.bytes.set (j + 1) b = t :: rest.set j b := by rw [ht, List.set_cons_succ]
    rw [hset]
    refine receive_checkError hn fun hs => hb ?_
    have hsum := byteSum_set hk b
    rw [hset, hs, m.byteSum_bytes] at hsum
    have hsame : m.bytes[j + 1] = b := by simpa using hsum
    rw [List.getElem?_eq_getElem hk, hsame]

end Sys2Proof.Machine
end

section
/-! The records of the request and completion rings read back (11 R194, section 11.6): O56. -/

namespace Sys2Proof.Machine

open Sys2Proof

/-! ### Words in bytes -/

theorem leBytes_leValue (bs : List Byte) : leBytes bs.length (leValue bs) = bs := by
  induction bs with
  | nil => rfl
  | cons b bs ih =>
    have hlow : BitVec.ofNat 8 (b.toNat + 256 * leValue bs) = b := by
      apply BitVec.eq_of_toNat_eq
      rw [BitVec.toNat_ofNat, show (2 ^ 8 : Nat) = 256 from rfl, Nat.add_mul_mod_self_left]
      exact Nat.mod_eq_of_lt b.isLt
    have hhigh : (b.toNat + 256 * leValue bs) / 256 = leValue bs := by have := b.isLt; omega
    rw [List.length_cons, leValue, leBytes, hlow, hhigh, ih]

theorem leValue_lt (bs : List Byte) : leValue bs < 256 ^ bs.length := by
  induction bs with
  | nil => exact Nat.one_pos
  | cons b bs ih =>
    have := b.isLt
    rw [leValue, List.length_cons, pow_succ' 256 bs.length]
    omega

theorem leBytes_wordOfBytes {bs : List Byte} {n w : Nat} (hl : bs.length = n) (hw : 2 ^ w = 256 ^ n) :
    leBytes n (BitVec.ofNat w (leValue bs)).toNat = bs := by
  subst hl
  rw [BitVec.toNat_ofNat, hw, Nat.mod_eq_of_lt (leValue_lt bs), leBytes_leValue]

theorem wordOfBytes_leBytes {n w : Nat} (x : BitVec w) (hw : 2 ^ w = 256 ^ n) :
    BitVec.ofNat w (leValue (leBytes n x.toNat)) = x := by
  rw [leValue_leBytes, ← hw, Nat.mod_eq_of_lt x.isLt, BitVec.ofNat_toNat, BitVec.setWidth_eq]

theorem toNat_wordOfBytes {v : Nat} (h : v < 2 ^ 32) : (BitVec.ofNat 32 (leValue (leBytes 4 v))).toNat = v := by
  rw [leValue_leBytes, BitVec.toNat_ofNat]
  exact Nat.mod_eq_of_lt ((Nat.mod_le _ _).trans_lt h) |>.trans (Nat.mod_eq_of_lt h)

/-! ### A stored step in its 14 bytes (03 R62) -/

section Step

variable (st : PlanStep)

/-- The first two bytes of a stored step, as a number. -/
def PlanStep.headValue : Nat :=
  st.kind.code * 16384 + boolCode st.notBefore.isSome * 8192 + boolCode st.endBy.isSome * 4096 + st.cap / 100

/-- The fields of a stored step's 14 bytes. -/
def PlanStep.blocks : List (List Byte) :=
  [leBytes 2 st.headValue, leBytes 4 st.value, stepTime 6 st.notBefore, stepTime 10 st.endBy]

theorem length_stepTime (offset : Nat) (t : Option Nat) : (stepTime offset t).length = 4 := by
  cases t with
  | none => rw [stepTime, List.length_map, List.length_range]
  | some t => exact length_leBytes 4 t

theorem PlanStep.blocks_lengths : st.blocks.map List.length = [2, 4, 4, 4] := by
  simp [PlanStep.blocks, length_stepTime]

theorem PlanStep.bytes_eq : st.bytes = st.blocks.flatten := by
  simp [PlanStep.bytes, PlanStep.blocks, PlanStep.headValue]

theorem PlanStep.bytes_length : st.bytes.length = 14 := by
  rw [st.bytes_eq, length_of_blocks st.blocks_lengths]
  rfl

theorem PlanStep.bytes_field (k : Nat) {x : List Byte} (hx : st.blocks[k]? = some x) :
    (st.bytes.drop (([2, 4, 4, 4] : List Nat).take k).sum).take (([2, 4, 4, 4] : List Nat).getD k 0) = x := by
  rw [st.bytes_eq]
  exact field_of_blocks st.blocks_lengths k hx

theorem rawStepOfBytes_bytes : rawStepOfBytes st.bytes =
    ⟨BitVec.ofNat 16 (leValue (leBytes 2 st.headValue)), BitVec.ofNat 32 (leValue (leBytes 4 st.value)),
      BitVec.ofNat 32 (leValue (stepTime 6 st.notBefore)), BitVec.ofNat 32 (leValue (stepTime 10 st.endBy))⟩ := by
  have hhead : st.bytes.take 2 = leBytes 2 st.headValue := st.bytes_field 0 rfl
  have hvalue : (st.bytes.drop 2).take 4 = leBytes 4 st.value := st.bytes_field 1 rfl
  have hnot : (st.bytes.drop 6).take 4 = stepTime 6 st.notBefore := st.bytes_field 2 rfl
  have hend : (st.bytes.drop 10).take 4 = stepTime 10 st.endBy := st.bytes_field 3 rfl
  rw [rawStepOfBytes, hhead, hvalue, hnot, hend]

section Head

variable {st} (hc : st.cap / 100 < 4096)

include hc

theorem PlanStep.headValue_lt : st.headValue < 65536 := by
  have hk : st.kind.code ≤ 2 := by cases st.kind <;> decide
  have hb (b : Bool) : boolCode b ≤ 1 := by cases b <;> decide
  have h1 := hb st.notBefore.isSome
  have h2 := hb st.endBy.isSome
  rw [PlanStep.headValue]
  omega

theorem PlanStep.head_toNat : (BitVec.ofNat 16 (leValue (leBytes 2 st.headValue))).toNat = st.headValue := by
  have h := PlanStep.headValue_lt hc
  rw [leValue_leBytes, BitVec.toNat_ofNat]
  exact Nat.mod_eq_of_lt ((Nat.mod_le _ _).trans_lt h) |>.trans (Nat.mod_eq_of_lt h)

theorem PlanStep.headValue_parts : st.headValue / 16384 % 4 = st.kind.code
    ∧ st.headValue / 8192 % 2 = boolCode st.notBefore.isSome ∧ st.headValue / 4096 % 2 = boolCode st.endBy.isSome
    ∧ st.headValue % 4096 = st.cap / 100 := by
  have hk : st.kind.code ≤ 2 := by cases st.kind <;> decide
  have hb (b : Bool) : boolCode b ≤ 1 := by cases b <;> decide
  have h1 := hb st.notBefore.isSome
  have h2 := hb st.endBy.isSome
  rw [PlanStep.headValue]
  omega

end Head

theorem bitAt_eq {w : Nat} {x : BitVec w} {k : Nat} {b : Bool} (h : x.toNat / 2 ^ k % 2 = boolCode b) : x.getLsbD k = b := by
  rw [BitVec.getLsbD, Nat.testBit_eq_decide_div_mod_eq, h]
  cases b <;> rfl

theorem time_readback (offset : Nat) {t : Option Nat} (h : ∀ x, t = some x → x < 2 ^ 32) :
    (if t.isSome then some (BitVec.ofNat 32 (leValue (stepTime offset t))).toNat else none) = t := by
  cases t with
  | none => rfl
  | some x => exact congrArg some (toNat_wordOfBytes (h x rfl))

theorem rawStep_kind (hc : st.cap / 100 < 4096) : (rawStepOfBytes st.bytes).kind = some st.kind := by
  obtain ⟨hk, -⟩ := PlanStep.headValue_parts hc
  have hx : ((rawStepOfBytes st.bytes).head.extractLsb' 14 2).toNat = st.kind.code := by
    rw [rawStepOfBytes_bytes, BitVec.extractLsb'_toNat, PlanStep.head_toNat hc, Nat.shiftRight_eq_div_pow]
    exact hk
  simp only [RawStep.kind, hx]
  cases st.kind <;> rfl

theorem rawStep_capUnits (hc : st.cap / 100 < 4096) : (rawStepOfBytes st.bytes).capUnits = st.cap / 100 := by
  obtain ⟨-, -, -, hu⟩ := PlanStep.headValue_parts hc
  rw [RawStep.capUnits, rawStepOfBytes_bytes, BitVec.extractLsb'_toNat, PlanStep.head_toNat hc, Nat.shiftRight_zero]
  exact hu

theorem rawStep_presence (hc : st.cap / 100 < 4096) :
    (rawStepOfBytes st.bytes).head.getLsbD 13 = st.notBefore.isSome
    ∧ (rawStepOfBytes st.bytes).head.getLsbD 12 = st.endBy.isSome := by
  obtain ⟨-, hn, he, -⟩ := PlanStep.headValue_parts hc
  rw [rawStepOfBytes_bytes]
  refine ⟨bitAt_eq ?_, bitAt_eq ?_⟩
  · rw [PlanStep.head_toNat hc]; exact hn
  · rw [PlanStep.head_toNat hc]; exact he

theorem stepReadsBack {capacity : Nat} (hv : st.value < 2 ^ 32) (hcap : st.kind = .importTo → st.value ≤ capacity)
    (hmul : st.cap % 100 = 0) (hlo : 100 ≤ st.cap) (hhi : st.cap ≤ 150000)
    (hn : ∀ t, st.notBefore = some t → t < 2 ^ 32) (he : ∀ t, st.endBy = some t → t < 2 ^ 32) :
    (rawStepOfBytes st.bytes).store capacity = some st := by
  have hc : st.cap / 100 < 4096 := by omega
  obtain ⟨hnb, heb⟩ := rawStep_presence st hc
  have hvalue : (rawStepOfBytes st.bytes).value.toNat = st.value := by
    rw [rawStepOfBytes_bytes]
    exact toNat_wordOfBytes hv
  have hnot : (if st.notBefore.isSome then some (rawStepOfBytes st.bytes).notBefore.toNat else none) = st.notBefore := by
    rw [rawStepOfBytes_bytes]
    exact time_readback 6 hn
  have hend : (if st.endBy.isSome then some (rawStepOfBytes st.bytes).endBy.toNat else none) = st.endBy := by
    rw [rawStepOfBytes_bytes]
    exact time_readback 10 he
  have hvalue' : (if st.kind = .importTo then min st.value capacity else st.value) = st.value := by
    split
    next hk => exact Nat.min_eq_left (hcap hk)
    next => rfl
  have hcap' : min (st.cap / 100) 1500 * 100 = st.cap := by omega
  rw [RawStep.store_some (rawStep_kind st hc) (by rw [rawStep_capUnits st hc]; omega), rawStep_capUnits st hc, hnb, heb,
    hvalue, hvalue', hcap', hnot, hend]

end Step

/-! ### The request record -/

section Record

theorem RequestRecord.bytes_eq (r : RequestRecord) : r.bytes =
    ([leBytes 2 r.tag.toNat, [r.kind], [r.flags], leBytes 4 r.key.toNat, r.payload] : List (List Byte)).flatten := by
  simp [RequestRecord.bytes]

theorem RequestRecord.blocks_lengths {r : RequestRecord} (hp : r.payload.length = 56) :
    ([leBytes 2 r.tag.toNat, [r.kind], [r.flags], leBytes 4 r.key.toNat, r.payload] : List (List Byte)).map List.length
      = [2, 1, 1, 4, 56] := by
  simp [hp]

theorem RequestRecord.bytes_length {r : RequestRecord} (hp : r.payload.length = 56) : r.bytes.length = 64 := by
  rw [r.bytes_eq, length_of_blocks (RequestRecord.blocks_lengths hp)]
  rfl

theorem recordReadsBack {r : RequestRecord} (hp : r.payload.length = 56) : requestRecordOfBytes r.bytes = r := by
  have field (k : Nat) {x : List Byte} (hx : ([leBytes 2 r.tag.toNat, [r.kind], [r.flags], leBytes 4 r.key.toNat,
      r.payload] : List (List Byte))[k]? = some x) :
      (r.bytes.drop (([2, 1, 1, 4, 56] : List Nat).take k).sum).take (([2, 1, 1, 4, 56] : List Nat).getD k 0) = x := by
    rw [r.bytes_eq]
    exact field_of_blocks (RequestRecord.blocks_lengths hp) k hx
  have htag : r.bytes.take 2 = leBytes 2 r.tag.toNat := field 0 rfl
  have hkey : (r.bytes.drop 4).take 4 = leBytes 4 r.key.toNat := field 3 rfl
  have hpay : (r.bytes.drop 8).take 56 = r.payload := field 4 rfl
  rw [requestRecordOfBytes, htag, hkey, hpay, wordOfBytes_leBytes r.tag rfl, wordOfBytes_leBytes r.key rfl]
  rfl

theorem byteAt_field {bs : List Byte} {k : Nat} (hk : k < bs.length) : (bs.drop k).take 1 = [bs.getD k 0] := by
  rw [List.drop_eq_getElem_cons hk, List.take_succ_cons, List.take_zero, List.getD_eq_getElem _ _ hk]

variable {bs : List Byte} (hl : bs.length = 64)

include hl

theorem field_length {o n : Nat} (h : o + n ≤ 64) : ((bs.drop o).take n).length = n := by
  rw [List.length_take, List.length_drop, hl]
  omega

theorem requestRecordOfBytes_fields : bs.take 2 = leBytes 2 (requestRecordOfBytes bs).tag.toNat
    ∧ (bs.drop 2).take 1 = [(requestRecordOfBytes bs).kind] ∧ (bs.drop 3).take 1 = [(requestRecordOfBytes bs).flags]
    ∧ (bs.drop 4).take 4 = leBytes 4 (requestRecordOfBytes bs).key.toNat :=
  ⟨(leBytes_wordOfBytes (field_length hl (o := 0) (by decide)) rfl).symm, byteAt_field (by omega), byteAt_field (by omega),
    (leBytes_wordOfBytes (field_length hl (by decide)) rfl).symm⟩

theorem bytesReadBack : (requestRecordOfBytes bs).bytes = bs := by
  obtain ⟨htag, hkind, hflags, hkey⟩ := requestRecordOfBytes_fields hl
  have hpay : (requestRecordOfBytes bs).payload = (bs.drop 8).take 56 := rfl
  have join (o n : Nat) : (bs.drop o).take n ++ bs.drop (o + n) = bs.drop o := by
    rw [← List.drop_drop, List.take_append_drop]
  have hend : (bs.drop 8).take 56 = bs.drop 8 := List.take_of_length_le (by rw [List.length_drop]; omega)
  rw [RequestRecord.bytes_eq, ← htag, ← hkind, ← hflags, ← hkey, hpay, hend]
  simp only [List.flatten_cons, List.flatten_nil, List.append_nil]
  rw [join 4 4, join 3 1, join 2 1, List.take_append_drop]

end Record

/-- The fields of a step record of PLAN_SUBMIT. -/
theorem rawStepOfBytes_fields {x : List Byte} (hx : x.length = 14) : x.take 2 = leBytes 2 (rawStepOfBytes x).head.toNat
    ∧ (x.drop 2).take 4 = leBytes 4 (rawStepOfBytes x).value.toNat
    ∧ (x.drop 6).take 4 = leBytes 4 (rawStepOfBytes x).notBefore.toNat
    ∧ (x.drop 10).take 4 = leBytes 4 (rawStepOfBytes x).endBy.toNat := by
  have len {o n : Nat} (h : o + n ≤ 14) : ((x.drop o).take n).length = n := by
    rw [List.length_take, List.length_drop, hx]
    omega
  exact ⟨(leBytes_wordOfBytes (len (o := 0) (by decide)) rfl).symm, (leBytes_wordOfBytes (len (by decide)) rfl).symm,
    (leBytes_wordOfBytes (len (by decide)) rfl).symm, (leBytes_wordOfBytes (len (by decide)) rfl).symm⟩

theorem rawStep_fieldsAt {bs : List Byte} (hl : bs.length = 64) {o : Nat} (ho : o + 14 ≤ 64) :
    (bs.drop o).take 2 = leBytes 2 (rawStepOfBytes ((bs.drop o).take 14)).head.toNat
    ∧ (bs.drop (o + 2)).take 4 = leBytes 4 (rawStepOfBytes ((bs.drop o).take 14)).value.toNat
    ∧ (bs.drop (o + 6)).take 4 = leBytes 4 (rawStepOfBytes ((bs.drop o).take 14)).notBefore.toNat
    ∧ (bs.drop (o + 10)).take 4 = leBytes 4 (rawStepOfBytes ((bs.drop o).take 14)).endBy.toNat := by
  obtain ⟨hhead, hvalue, hnot, hend⟩ := rawStepOfBytes_fields (field_length hl ho)
  exact ⟨(subfield rfl 0 2 (by decide)).trans hhead, (subfield rfl 2 4 (by decide)).trans hvalue,
    (subfield rfl 6 4 (by decide)).trans hnot, (subfield rfl 10 4 (by decide)).trans hend⟩

/-! ### The body that a record spells -/

section Body

variable {r : RequestRecord} {bs : List Byte}

/-- The bodies of the request kinds without a payload. -/
def payloadFree : List ReqBody :=
  [.busRetire, .busLookup, .busPlans, .busUnblock, .departureClear, .planCancel, .planRetire, .planLookup, .allocStart,
    .allocStop, .commitWithdraw, .commitDispatch, .commitRelease, .commitLookup, .commitRetire, .clearTrip, .keepalive,
    .attentionScan]

theorem RequestRecord.body_payloadFree {b : ReqBody} (hb : b ∈ payloadFree) (hk : r.kind = b.kind) : r.body = some b := by
  have hn : r.kind.toNat = b.kind.toNat := congrArg BitVec.toNat hk
  simp only [RequestRecord.body, hn]
  fin_cases hb <;> rfl

theorem RequestRecord.body_planSubmit (hk : r.kind = 13) :
    r.body = some (.planSubmit (r.step 0) (r.step 1) (r.step 2) (r.step 3)) := by
  have hn : r.kind.toNat = 13 := congrArg BitVec.toNat hk
  simp only [RequestRecord.body, hn]

theorem RequestRecord.body_unknown (hk : r.kind = 0 ∨ 33 < r.kind.toNat) : r.body = some (.unknownKind r.kind) := by
  have hk' : r.kind.toNat = 0 ∨ 33 < r.kind.toNat := hk.imp_left fun h => congrArg BitVec.toNat h
  simp only [RequestRecord.body]
  split
  case h_20 => exact if_pos hk'
  all_goals omega

theorem RequestRecord.step_at (bs : List Byte) {k : Nat} (hk : k < 4) :
    (requestRecordOfBytes bs).step k = rawStepOfBytes ((bs.drop (8 + 14 * k)).take 14) :=
  congrArg rawStepOfBytes (subfield rfl (14 * k) 14 (by omega)).symm

theorem requestOfBytes_eq {b : ReqBody} (h : (requestRecordOfBytes bs).body = some b) :
    requestOfBytes bs = some ⟨(requestRecordOfBytes bs).hdr, b⟩ := congrArg (Option.map _) h

theorem requestOfBytes_planSubmit (hk : (requestRecordOfBytes bs).kind = 13) :
    requestOfBytes bs = some ⟨(requestRecordOfBytes bs).hdr, .planSubmit (rawStepOfBytes ((bs.drop 8).take 14))
      (rawStepOfBytes ((bs.drop 22).take 14)) (rawStepOfBytes ((bs.drop 36).take 14))
      (rawStepOfBytes ((bs.drop 50).take 14))⟩ := by
  rw [requestOfBytes_eq (RequestRecord.body_planSubmit hk), RequestRecord.step_at bs (by decide),
    RequestRecord.step_at bs (by decide), RequestRecord.step_at bs (by decide), RequestRecord.step_at bs (by decide)]

end Body

/-! ### The completion header -/

theorem Completion.header_eq (c : Completion) : c.header =
    ([leBytes 2 c.tag.toNat, [c.kind], [c.length], leBytes 2 c.status.code, leBytes 4 c.time] : List (List Byte)).flatten := by
  simp [Completion.header]

theorem Completion.header_field (c : Completion) (k : Nat) {x : List Byte} (hx : ([leBytes 2 c.tag.toNat, [c.kind],
    [c.length], leBytes 2 c.status.code, leBytes 4 c.time] : List (List Byte))[k]? = some x) :
    (c.header.drop (([2, 1, 1, 2, 4] : List Nat).take k).sum).take (([2, 1, 1, 2, 4] : List Nat).getD k 0) = x := by
  rw [c.header_eq]
  exact field_of_blocks (by simp) k hx

theorem Completion.header_length (c : Completion) : c.header.length = 10 := by
  simp [Completion.header]

theorem Completion.length_view {c : Completion} {bs : List Byte} (h : c.result = .busView bs ∨ c.result = .portView bs) :
    c.length = BitVec.ofNat 8 bs.length := by
  rcases h with h | h <;> simp only [Completion.length, h, Result.layout]

/-! ### The numbers of the enumerated fields -/

section Numbers

theorem planView_numbers {v : PlanView} {c : Option StepCond} {o : Option PlanOutcome} (hc : v.cond = c) (ho : v.outcome = o) :
    (Result.planView v).numbers =
      v.cls.code :: ((c.map StepCond.code).toList ++ v.state.code :: (o.map PlanOutcome.code).toList) := by
  rw [← hc, ← ho]
  rfl

theorem commitView0_numbers {v : CommitView0} {o : Option CommitState} (ho : v.outcome = o) :
    (Result.commitView0 v).numbers = [v.state.code, v.phase.code] ++ (o.bind CommitState.outcomeCode).toList
      ++ [dispatchLevelCode v.lineLevel] := by
  rw [← ho]
  rfl

theorem commitView1_numbers {v : CommitView1} {x : Option DispatchSource} (h : v.source = x) :
    (Result.commitView1 v).numbers = (x.map DispatchSource.code).toList := by
  rw [← h]
  rfl

theorem released_numbers {o : CommitState} {k p q d : Nat} (h : o.outcomeCode = some k) :
    (Result.released o p q d).numbers = [k] := by
  rw [Result.numbers, h]
  rfl

theorem commitView0_numbers_outcome {v : CommitView0} {o : CommitState} {k : Nat} (ho : v.outcome = some o)
    (hk : o.outcomeCode = some k) :
    (Result.commitView0 v).numbers = [v.state.code, v.phase.code, k, if v.lineLevel then 0 else 1] := by
  rw [commitView0_numbers ho, Option.bind_some, hk]
  rfl

end Numbers

/-! ### O56 -/

/-- The enumerations list their values in the order of their codes. -/
theorem enumerations_in_order :
    [ClockMode.unset, .set].map ClockMode.code = [0, 1]
    ∧ [DepState.pending, .overdue, .taken none].map DepState.position = [0, 1, 2]
    ∧ [PlanClass.priority, .standard].map PlanClass.code = [0, 1]
    ∧ [StepKind.importTo, .exportTo, .holdUntil].map StepKind.code = [0, 1, 2]
    ∧ [StepCond.timedWait, .soeWait, .active].map StepCond.code = [0, 1, 2]
    ∧ [PlanState.queued, .running, .paused, .done, .stopped, .cancelled, .returned].map PlanState.code
        = [0, 1, 2, 3, 4, 5, 6]
    ∧ [PlanOutcome.complete, .deadline, .busFault, .cancelled, .busBlocked].map PlanOutcome.code = [0, 1, 2, 3, 4]
    ∧ [PortTarget.offline, .reidentify].map PortTarget.pendingPosition = [some 0, some 1]
    ∧ [SplitTier.b, .c, .none].map SplitTier.code = [0, 1, 2]
    ∧ [CommitState.pending, .armed, .active, .met, .shortfall, .interrupted, .notDispatched, .withdrawn].map
        CommitState.code = [0, 1, 2, 3, 4, 5, 6, 7]
    ∧ [CommitState.met, .shortfall, .interrupted, .notDispatched, .withdrawn].map CommitState.outcomeCode
        = [some 0, some 1, some 2, some 3, some 4]
    ∧ [WindowPhase.ahead, .opened].map WindowPhase.code = [0, 1]
    ∧ [DispatchSource.request, .line].map DispatchSource.code = [0, 1]
    ∧ [SupState.supervised, .lapsed, .fallback].map SupState.code = [0, 1, 2] :=
  ⟨rfl, rfl, rfl, rfl, rfl, rfl, rfl, rfl, rfl, rfl, rfl, rfl, rfl, rfl⟩

/-- Settles O56: bytes and numbers give each other back, and the fields are blocks of the record. -/
theorem recordsReadBack : Obligations.RecordsReadBack := by
  refine ⟨fun st capacity hv hcap hmul hlo hhi hn he =>
      ⟨st.bytes_length, stepReadsBack st hv hcap hmul hlo hhi hn he⟩,
    ⟨fun r hp => ⟨RequestRecord.bytes_length hp, recordReadsBack hp⟩, ?record, ?header⟩,
    enumerations_in_order, fun _ => rfl, fun _ _ _ _ => rfl, fun _ _ _ _ _ _ _ _ _ => rfl,
    fun _ _ _ _ _ _ => ⟨rfl, rfl⟩, fun _ _ _ _ _ _ => rfl, fun _ => ⟨rfl, rfl⟩, fun _ _ _ _ => rfl,
    fun _ _ _ _ _ _ => ⟨rfl, rfl⟩, ?planView, fun _ => ⟨rfl, rfl, rfl, rfl⟩, fun _ _ _ => ⟨rfl, rfl⟩,
    fun _ _ => ⟨rfl, rfl⟩, fun _ _ _ _ => rfl, fun _ _ _ _ _ hk => released_numbers hk, ?commitView0,
    fun v x => ⟨commitView1_numbers, commitView1_numbers⟩, fun _ => ⟨rfl, rfl⟩, fun _ _ _ => rfl, fun _ _ => rfl⟩
  case record =>
    intro bs hl r field hdr step
    obtain ⟨htag, hkind, hflags, hkey⟩ := requestRecordOfBytes_fields hl
    refine ⟨bytesReadBack hl, htag, hkind, hflags, hkey, rfl, requestOfBytes_planSubmit, ?_,
      fun hk => requestOfBytes_eq (RequestRecord.body_unknown hk),
      fun b hb hk => requestOfBytes_eq (RequestRecord.body_payloadFree hb hk)⟩
    intro o ho
    have hoffset : ∀ o ∈ [8, 22, 36, 50], o + 14 ≤ 64 := by decide
    exact rawStep_fieldsAt hl (hoffset o ho)
  case header =>
    intro c
    refine ⟨c.header_length, c.header_field 0 rfl, c.header_field 1 rfl, c.header_field 3 rfl, c.header_field 4 rfl,
      fun bs h => ?_⟩
    rw [← Completion.length_view h]
    exact c.header_field 2 rfl
  case planView =>
    exact fun v c o => ⟨planView_numbers, planView_numbers, planView_numbers⟩
  case commitView0 =>
    exact fun v o k => ⟨commitView0_numbers, commitView0_numbers_outcome⟩

end Sys2Proof.Machine
end

section
/-! The line filters and the stall timer (06): O32. -/

namespace Sys2Proof.Machine

open Sys2Proof

theorem exec_meterLineSample (n : PortNo) (l : MeterLine) (v : Level) (s : State) :
    exec (.meterLineSample n l v) s = execMeterLineSample n l v s := rfl

theorem exec_lineFilterGlitch (n : PortNo) (l : MeterLine) (s : State) :
    exec (.lineFilterGlitch n l) s = execLineFilterGlitch n l s := rfl

theorem exec_filteredTransition_one (n : PortNo) (l : MeterLine) (s : State) :
    exec (.filteredTransition n (.one l)) s = .next (s.lineMoved n l (flipLevel ((s.port n).line l).output)) := rfl

theorem exec_filteredTransition_both (n : PortNo) (s : State) :
    exec (.filteredTransition n .both) s = .next { s with ports := s.ports.set n (s.port n).moveBoth } := rfl

theorem exec_stallTimerExpiry (n : PortNo) (s : State) :
    exec (.stallTimerExpiry n) s = execStallTimerExpiry n s := rfl

/-! ### The line filters -/

section Filters

variable {n : PortNo} {l : MeterLine} {v : Level} {s : State}

theorem flipLevel_of_ne {a v : Level} (h : v ≠ a) : v = flipLevel a := by
  cases a <;> cases v <;> simp_all [flipLevel]

theorem Port.setLine_line (l : MeterLine) (f : LineFilter → LineFilter) (p : Port) :
    p.setLine l f = p.setLine l fun _ => f (p.line l) := by
  cases l <;> rfl

/-- The record of a line after a glitch. -/
def LineFilter.glitched (f : LineFilter) : LineFilter := { f with pin := f.output, counter := f.counter - 1 }

theorem Port.glitchLine_offline {p : Port} (h : p.state = .offline) :
    p.glitchLine l = p.setLine l fun _ => (p.line l).glitched := by
  have hr : p.recordsGlitch = false := by rw [Port.recordsGlitch, h]; rfl
  have hf (f : LineFilter) : f.fallBack false = f.glitched := by rw [LineFilter.fallBack, Bool.or_false]; rfl
  simp only [Port.glitchLine, hr, Bool.false_eq_true, if_false]
  rw [Port.setLine_line, hf]

theorem Port.glitchLine_online {p : Port} (h : p.state ≠ .offline) : p.glitchLine l =
    { p.setLine l fun _ => { (p.line l).glitched with glitch := true } with flags := p.flags ||| PortFlag.glitch } := by
  have hr : p.recordsGlitch = true := bne_iff_ne.2 h
  have hf (f : LineFilter) : f.fallBack true = { f.glitched with glitch := true } := by
    rw [LineFilter.fallBack, Bool.or_true]; rfl
  simp only [Port.glitchLine, hr, if_true]
  rw [Port.setLine_line, hf]
  cases l <;> rfl

/-- The state after a glitch on a line. -/
def State.lineGlitched (n : PortNo) (l : MeterLine) (s : State) : State :=
  if (s.port n).state = .offline then
    { s with ports := s.ports.set n ((s.port n).setLine l fun _ => ((s.port n).line l).glitched) }
  else { s with ports := s.ports.set n { (s.port n).setLine l fun _ =>
      { ((s.port n).line l).glitched with glitch := true } with flags := (s.port n).flags ||| PortFlag.glitch } }

theorem State.setPort_glitchLine : s.setPort n (Port.glitchLine l) = s.lineGlitched n l := by
  rw [State.lineGlitched, State.setPort]
  split
  next h => rw [Port.glitchLine_offline h]; rfl
  next h => rw [Port.glitchLine_online h]; rfl

theorem exec_meterLineSample_same (hv : v = ((s.port n).line l).output) (hc : ((s.port n).line l).counter = 0) :
    exec (.meterLineSample n l v) s = .next { s with
      ports := s.ports.set n ((s.port n).setLine l fun _ => { (s.port n).line l with pin := v }) } := by
  have hs : s.setPort n (Port.setLine l fun g => { g with pin := v }) = { s with
      ports := s.ports.set n ((s.port n).setLine l fun _ => { (s.port n).line l with pin := v }) } := by
    rw [State.setPort, Port.setLine_line]
    rfl
  simp only [exec_meterLineSample, execMeterLineSample, if_pos hv, hc, Nat.lt_irrefl, if_false, hs]

theorem exec_meterLineSample_glitch (hv : v = ((s.port n).line l).output) (hc : 0 < ((s.port n).line l).counter) :
    exec (.meterLineSample n l v) s = .next (s.lineGlitched n l) := by
  simp only [exec_meterLineSample, execMeterLineSample, if_pos hv, if_pos hc, State.setPort_glitchLine]

theorem exec_lineFilterGlitch_pos (hc : 0 < ((s.port n).line l).counter) :
    exec (.lineFilterGlitch n l) s = .next (s.lineGlitched n l) := by
  simp only [exec_lineFilterGlitch, execLineFilterGlitch, if_pos hc, State.setPort_glitchLine]

theorem exec_meterLineSample_raises (hv : v ≠ ((s.port n).line l).output)
    (hc : ((s.port n).line l).counter + 1 < (s.port n).filterThreshold) :
    exec (.meterLineSample n l v) s = .next { s with ports := s.ports.set n ((s.port n).setLine l fun _ =>
      { (s.port n).line l with pin := v, counter := ((s.port n).line l).counter + 1 }) } := by
  have hs : s.setPort n (Port.setLine l (LineFilter.raiseCounter v)) = { s with
      ports := s.ports.set n ((s.port n).setLine l fun _ =>
        { (s.port n).line l with pin := v, counter := ((s.port n).line l).counter + 1 }) } := by
    rw [State.setPort, Port.setLine_line]
    rfl
  simp only [exec_meterLineSample, execMeterLineSample, if_neg hv, if_neg (Nat.not_le.2 hc), hs]

theorem exec_meterLineSample_moves (hv : v ≠ ((s.port n).line l).output)
    (hc : (s.port n).filterThreshold ≤ ((s.port n).line l).counter + 1) :
    exec (.meterLineSample n l v) s = exec (.filteredTransition n (.one l)) s := by
  simp only [exec_meterLineSample, execMeterLineSample, exec_filteredTransition_one, if_neg hv, if_pos hc,
    ← flipLevel_of_ne hv]

theorem Port.moveBoth_spec (p : Port) : p.moveBoth = { p with ma := p.moveBoth.ma, mb := p.moveBoth.mb, flags := p.moveBoth.flags }
    ∧ p.moveBoth.ma = { p.ma.take (flipLevel p.ma.output) with glitch := p.ma.glitch || p.recordsGlitch }
    ∧ p.moveBoth.mb = { p.mb.take (flipLevel p.mb.output) with glitch := p.mb.glitch || p.recordsGlitch }
    ∧ p.moveBoth.flags = if p.recordsGlitch then p.flags ||| PortFlag.glitch else p.flags := by
  unfold Port.moveBoth
  cases p.recordsGlitch <;> exact ⟨rfl, rfl, rfl, rfl⟩

theorem Port.recordsGlitch_offline {p : Port} (h : p.state = .offline) : p.recordsGlitch = false := by
  rw [Port.recordsGlitch, h]
  rfl

theorem Port.recordsGlitch_online {p : Port} (h : p.state ≠ .offline) : p.recordsGlitch = true := bne_iff_ne.2 h

end Filters

/-! ### The stall timer -/

theorem Port.stallConditions_iff (p : Port) : p.stallConditions = true ↔
    p.state = .energized ∧ (∃ i, p.boundSlot = some i) ∧ 5000 ≤ p.held.mag := by
  have hlive (h : p.state = .energized) : p.live = p.held := if_pos h
  simp only [Port.stallConditions, Bool.and_eq_true, beq_iff_eq, decide_eq_true_eq, Option.isSome_iff_exists, and_assoc]
  exact and_congr_right fun h => by rw [hlive h]

theorem Port.settle_stall_conditions (e : PortEnv) (p q : Port) :
    (Port.settle e p q).stallConditions = q.stallConditions := by
  simp only [Port.stallConditions, Port.settle_state, Port.settle_bound, Port.settle_live]

/-- What the booking of a count on a bus leaves of the site's parameters. -/
theorem State.bookPlan_site (s : State) (i : Nat) (d : Dir) (e : Nat) : (s.bookPlan i d e).site = s.site := by
  rw [State.bookPlan]
  cases s.bus i with
  | none => rfl
  | some b => cases h : s.runningPlan b with
    | none => simp only [h]
    | some j => simp only [h, modPlan_site]

theorem State.withdrawExport_site (s : State) (i : Nat) : (s.withdrawExport i).site = s.site := by
  rw [State.withdrawExport]
  cases s.bus i with
  | none => rfl
  | some b => cases h : b.location with
    | none => simp only [h]
    | some n => simp only [h]; rfl

theorem State.useAllowance_site (s : State) (i e : Nat) : (s.useAllowance i e).site = s.site := by
  rw [State.useAllowance]
  cases s.bus i with
  | none => rfl
  | some b =>
    dsimp only
    split
    · rw [State.withdrawExport_site]; rfl
    · rfl

theorem State.testStep_site (s : State) (kinds : StepKind → Bool) (i : Nat) : (s.testStep kinds i).site = s.site := by
  cases h : s.bus i with
  | none => simp only [State.testStep, h]
  | some b => rw [(State.testStep_chained kinds s b h).rest]

theorem State.readinessCount_site (s : State) (i : Nat) : (s.readinessCount i).site = s.site := by
  have hm := modBus_site s i (Bus.closeDeficit s.now s.site.live.guardTime)
  rw [State.readinessCount]
  generalize s.modBus i (Bus.closeDeficit s.now s.site.live.guardTime) = u at hm
  cases u.bus i with
  | none => exact hm
  | some b =>
    dsimp only
    split
    · rw [State.withdrawExport_site, hm]
    · exact hm

theorem State.applyToBus_site (s : State) (i : Nat) (d : Dir) (e : Nat) : (s.applyToBus i d e).site = s.site := by
  unfold State.applyToBus
  dsimp only
  rw [State.readinessCount_site, State.testStep_site]
  split
  · rw [State.useAllowance_site, modBus_site, State.bookPlan_site]
  · rw [modBus_site, State.bookPlan_site]

theorem State.applyToSession_site (s : State) (o : Option Nat) (d : Dir) (e : Nat) :
    (s.applyToSession o d e).site = s.site := by
  cases o with
  | none => rfl
  | some i => exact s.applyToBus_site i d e

section Stall

variable {n : PortNo} {s : State}

/-- After a port fault, taken or not, the port is not ENERGIZED. -/
theorem State.portFault_not_energized (u : State) (code : PortFault) : ((u.portFault n code).port n).state ≠ .energized := by
  intro h
  by_cases hs : (u.port n).state = .offline ∨ (u.port n).state = .faulted
  · rw [State.portFault, if_pos hs] at h
    rcases hs with hs | hs <;> exact PortState.noConfusion (hs.symm.trans h)
  · obtain ⟨ho, hf⟩ := not_or.1 hs
    obtain ⟨hfaulted, -⟩ := (State.portFault_faults (code := code) ho hf).state
    exact PortState.noConfusion (hfaulted.symm.trans h)

/-- A record whose stall timer restarts at an applied count. -/
theorem Port.restartStall_stall {e : PortEnv} {q : Port} (w : Bool)
    (h : ((q.restartStall e).moveRun w).state = .energized) (hb : ∃ i, ((q.restartStall e).moveRun w).boundSlot = some i)
    (hm : 5000 ≤ ((q.restartStall e).moveRun w).held.mag) : ((q.restartStall e).moveRun w).stall = .start e.stall := by
  have hkeep : (q.restartStall e).state = q.state ∧ (q.restartStall e).boundSlot = q.boundSlot
      ∧ (q.restartStall e).held = q.held := by
    rw [Port.restartStall]
    split <;> exact ⟨rfl, rfl, rfl⟩
  obtain ⟨hstate, hbound, hheld⟩ := hkeep
  have hc : q.stallConditions = true := (Port.stallConditions_iff q).2
    ⟨hstate.symm.trans h, hbound ▸ hb, hheld ▸ hm⟩
  have hr : (q.restartStall e).stall = .start e.stall := by rw [Port.restartStall, if_pos hc]
  exact hr

theorem State.appliedCount_stall {u t : State} {d : Dir} (ht : u.appliedCount n d = t) (hs : (t.port n).state = .energized)
    (hb : ∃ i, (t.port n).boundSlot = some i) (hm : 5000 ≤ (t.port n).held.mag) :
    (t.port n).stall = .start (u.site.live.stallTime * 1000) := by
  subst ht
  unfold State.appliedCount at hs hb hm ⊢
  dsimp only at hs hb hm ⊢
  have hsite : ((u.setPort n fun q => (q.bookCount d u.now).restartQuiet).applyToSession (u.port n).boundSlot d
      (u.port n).energyPerCount).site = u.site := State.applyToSession_site ..
  generalize (u.setPort n fun q => (q.bookCount d u.now).restartQuiet).applyToSession (u.port n).boundSlot d
      (u.port n).energyPerCount = u2 at *
  generalize (u.port n).isWrong d = w at *
  rw [State.checkRun] at hs hb hm ⊢
  split at hs
  next h => exact absurd hs (State.portFault_not_energized _ _)
  next h =>
    rw [if_neg h] at hb hm ⊢
    rw [State.port_setPort, if_pos rfl] at hs hb hm ⊢
    rw [Port.restartStall_stall w hs hb hm, State.env, hsite]

theorem exec_filteredTransition_stall {l : MeterLine} (hx : (s.port n).session ≠ none) (hf : (s.port n).feedback = .closed) :
    ∃ t, exec (.filteredTransition n (.one l)) s = .next t
      ∧ ((t.port n).state = .energized → (∃ i, (t.port n).boundSlot = some i) → 5000 ≤ (t.port n).held.mag →
        (t.port n).stall = .running (s.site.live.stallTime * 1000) 0) := by
  refine ⟨_, exec_filteredTransition_one n l s, fun hs hb hm => ?_⟩
  set v := flipLevel ((s.port n).line l).output
  have hport : (s.setPort n (Port.setLine l (LineFilter.take v))).port n = (s.port n).setLine l (LineFilter.take v) :=
    State.port_putPort_self s n _
  have hkeep : ((s.port n).setLine l (LineFilter.take v)).session = (s.port n).session
      ∧ ((s.port n).setLine l (LineFilter.take v)).feedback = (s.port n).feedback := by cases l <;> exact ⟨rfl, rfl⟩
  obtain ⟨hsession, hfeedback⟩ := hkeep
  have hnone : ((s.setPort n (Port.setLine l (LineFilter.take v))).port n).session.isNone = false := by
    rw [hport, hsession]
    exact Option.isNone_eq_false_iff.2 (Option.isSome_iff_ne_none.2 hx)
  have hopen : ((s.setPort n (Port.setLine l (LineFilter.take v))).port n).feedback ≠ .opened := by
    rw [hport, hfeedback, hf]
    exact Contact.noConfusion
  refine State.appliedCount_stall (u := s.setPort n (Port.setLine l (LineFilter.take v)))
    (d := countDir l ((s.setPort n (Port.setLine l (LineFilter.take v))).port n).ma.output
      ((s.setPort n (Port.setLine l (LineFilter.take v))).port n).mb.output) ?_ hs hb hm
  simp only [State.lineMoved, State.count, hnone, Bool.false_eq_true, if_false, if_neg hopen]

theorem exec_stallTimerExpiry_ignored (h : (s.port n).stall.expired = false) : exec (.stallTimerExpiry n) s = .next s := by
  simp only [exec_stallTimerExpiry, execStallTimerExpiry, h, Bool.false_eq_true, if_false]

theorem exec_stallTimerExpiry_bound {i length elapsed : Nat} (h : (s.port n).stall = .running length elapsed)
    (he : length ≤ elapsed) (hb : (s.port n).boundSlot = some i) : exec (.stallTimerExpiry n) s = .next
      (State.blockBus i .energyStall { s with ports := s.ports.set n { s.port n with stall := .stopped } }) := by
  have hx : (s.port n).stall.expired = true := by rw [h]; exact decide_eq_true he
  simp only [exec_stallTimerExpiry, execStallTimerExpiry, hx, if_true, hb]
  rfl

theorem Timer.not_expired {t : Timer} {length elapsed : Nat} (h : t = .running length elapsed) (he : elapsed < length) :
    t.expired = false := by
  rw [h]
  exact decide_eq_false (Nat.not_le.2 he)

/-- The stall timer after a settled change of a record (R119). -/
theorem State.updPort_stall (f : Port → Port) : ((s.updPort n f).port n).stall =
    if ((s.updPort n f).port n).stallConditions then
      if ((s.updPort n f).port n).live = (s.port n).live then (f (s.port n)).stall
      else .running (s.site.live.stallTime * 1000) 0
    else .stopped := by
  rw [State.port_updPort, if_pos rfl, Port.settle_stall, Port.settle_stall_conditions, Port.settle_live]
  rfl

end Stall

/-- Settles O32: the filters by the branches of a sample, the stall timer by what settle and a count make of it. -/
theorem lineFiltersAndStall : Obligations.LineFiltersAndStall := by
  refine ⟨fun n l v s => ⟨exec_meterLineSample_same, exec_meterLineSample_glitch, exec_lineFilterGlitch_pos, ?still,
      exec_meterLineSample_raises, exec_meterLineSample_moves, _, exec_filteredTransition_both n s, ?both⟩,
    fun n s => ⟨fun i length elapsed h he hb => exec_stallTimerExpiry_bound h he hb,
      fun length elapsed h he => exec_stallTimerExpiry_ignored (Timer.not_expired h he), ?stopped, ?counted, ?settled⟩⟩
  case still =>
    exact fun h => if_neg (h ▸ Nat.lt_irrefl 0)
  case both =>
    obtain ⟨hr, hma, hmb, hflags⟩ := (s.port n).moveBoth_spec
    refine ⟨hr, ?_, ?_, ?_, ?_, fun h => ?_, fun h => ?_⟩
    · rw [hma]; rfl
    · rw [hmb]; rfl
    · rw [hma]; rfl
    · rw [hmb]; rfl
    · rw [hma, hmb, hflags, Port.recordsGlitch_online h]
      exact ⟨Bool.or_true _, Bool.or_true _, rfl⟩
    · rw [hma, hmb, hflags, Port.recordsGlitch_offline h]
      exact ⟨Bool.or_false _, Bool.or_false _, rfl⟩
  case stopped =>
    exact fun h => exec_stallTimerExpiry_ignored (by rw [h]; rfl)
  case counted =>
    intro l hx hf
    obtain ⟨t, ht, hstall⟩ := exec_filteredTransition_stall (l := l) hx hf
    refine ⟨t, ht, fun hs hb hm => ⟨hstall hs hb hm, fun hlength => ?_⟩⟩
    exact exec_stallTimerExpiry_ignored (Timer.not_expired (hstall hs hb hm) (Nat.mul_pos hlength (by decide)))
  case settled =>
    intro f q holds
    have hstall : q.stall = if q.stallConditions then
        if q.live = (s.port n).live then (f (s.port n)).stall else .running (s.site.live.stallTime * 1000) 0
      else .stopped := State.updPort_stall f
    have hiff : q.stallConditions = true ↔ holds := Port.stallConditions_iff q
    refine ⟨fun h hl => ?_, fun h hl => ?_, fun h => ?_⟩
    · rw [hstall, if_pos (hiff.2 h), if_neg hl]
    · rw [hstall, if_pos (hiff.2 h), if_pos hl]
    · rw [hstall, if_neg fun hc => h (hiff.1 hc)]

end Sys2Proof.Machine
end

section
/-! The crossings of a departure (07 R124, R125, R134): O34. -/

namespace Sys2Proof.Machine

open Sys2Proof

/-! ### The withdrawal of an export -/

section Withdraw

variable {s : State} {i : Nat} {b : Bus} {n : PortNo}

theorem State.withdrawExport_away (hb : s.bus i = some b) (hl : b.location = none) : s.withdrawExport i = s := by
  simp only [State.withdrawExport, hb, hl]

theorem State.withdrawExport_at (hb : s.bus i = some b) (hl : b.location = some n) :
    s.withdrawExport i = { s with ports := s.ports.set n (Port.settle s.env (s.port n) (s.port n).zeroExport) } := by
  simp only [State.withdrawExport, hb, hl]
  rfl

theorem Port.settle_zeroExport_exp (e : PortEnv) {p : Port} (h : p.held.dir = .exp) :
    p.PowerOff e.now (Port.settle e p p.zeroExport) := by
  rw [Port.zeroExport, if_pos h]
  exact Port.settle_powerOff e p p.zeroHeld rfl rfl rfl rfl

theorem Port.settle_zeroExport_still (e : PortEnv) {p : Port} (h : p.held.dir ≠ .exp) :
    Port.settle e p p.zeroExport = p.timersOf (Port.settle e p p.zeroExport) := by
  rw [Port.zeroExport_other h]
  exact Port.settle_still e p p rfl rfl

theorem Port.settle_zeroExport_fields (e : PortEnv) (p : Port) : (Port.settle e p p.zeroExport).state = p.state
    ∧ (Port.settle e p p.zeroExport).session = p.session := by
  rw [Port.settle_state, Port.settle_session, Port.zeroExport_held]
  exact ⟨rfl, rfl⟩

theorem Port.settle_zeroExport_held (e : PortEnv) {p : Port} (h : p.held.dir ≠ .exp) :
    (Port.settle e p p.zeroExport).held = p.held := by
  rw [Port.settle_held, Port.zeroExport_other h]

end Withdraw

theorem Bus.setReadiness_changed (b : Bus) (r : Readiness) (x : Option Int) : b.setReadiness r x = { b with
    readiness := r, slack := x, flags := if b.readiness = r then b.flags else b.flags ||| BusFlag.readiness } := by
  rw [Bus.setReadiness_flags]
  simp only [eq_comm (a := r)]

section Crossings

variable {slot : BusSlot} {T : Nat} {s : State} {b : Bus}

theorem exec_departureCrossing_due (h : s.Due ⟨.departure, slot.val, T⟩) : exec (.departureCrossing slot) s =
    .next ((s.unfire ⟨.departure, slot.val, T⟩).actDeparture slot.val) := takeCrossing_due h rfl rfl

theorem exec_lockoutPointCrossing_due (h : s.Due ⟨.lockout, slot.val, T⟩) : exec (.lockoutPointCrossing slot) s =
    .next ((s.unfire ⟨.lockout, slot.val, T⟩).withdrawExport slot.val) := takeCrossing_due h rfl rfl

theorem State.actDeparture_pending {u : State} {i : Nat} {d : Departure} (hb : u.bus i = some b) (hd : b.departure = some d)
    (hp : d.state = .pending) : u.actDeparture i = { u with
      buses := u.buses.put i { b with
        departure := some { d with state := .overdue }, readiness := .overdue, slack := none
        flags := if b.readiness = .overdue then b.flags else b.flags ||| BusFlag.readiness }
      clock := { u.clock with
        regs := u.clock.regs.filter fun r => !(r.kind.owner == 2 && r.slot == i)
        fired := u.clock.fired.filter fun r => !(r.kind.owner == 2 && r.slot == i) } } := by
  simp only [State.actDeparture, hb, hd, if_pos hp]
  rw [Bus.setReadiness_changed]
  rfl

theorem State.actDeparture_rests {u : State} {i : Nat} (hb : u.bus i = some b)
    (hd : ∀ d, b.departure = some d → d.state ≠ .pending) : u.actDeparture i = u := by
  cases h : b.departure with
  | none => simp only [State.actDeparture, hb, h]
  | some d => simp only [State.actDeparture, hb, h, if_neg (hd d h)]

end Crossings

/-- Settles O34: each crossing is its owner's act on the state that has handed it over. -/
theorem departureAndLockoutCrossings : Obligations.DepartureAndLockoutCrossings := by
  intro slot T s b hb
  have hbus (r : Registration) : (s.unfire r).bus slot.val = some b := hb
  refine ⟨fun hd => ?departure, fun hd => ?lockout⟩
  case departure =>
    intro u
    rw [exec_departureCrossing_due hd]
    exact ⟨fun d h hp => congrArg Host.Outcome.next (State.actDeparture_pending (hbus _) h hp),
      fun h => congrArg Host.Outcome.next (State.actDeparture_rests (hbus _) h)⟩
  case lockout =>
    intro u
    rw [exec_lockoutPointCrossing_due hd]
    refine ⟨fun h => congrArg Host.Outcome.next (State.withdrawExport_away (hbus _) h), fun n h => ?_⟩
    obtain ⟨hstate, hsession⟩ := Port.settle_zeroExport_fields s.env (s.port n)
    exact ⟨_, congrArg Host.Outcome.next (State.withdrawExport_at (hbus _) h), Port.settle_zeroExport_exp s.env,
      Port.settle_zeroExport_held s.env, hstate, hsession⟩

end Sys2Proof.Machine
end

section
/-! KEEPALIVE and the supervision timer (11 R181, R182): O49. -/

namespace Sys2Proof.Machine

open Sys2Proof

/-! ### KEEPALIVE -/

section Keepalive

theorem exec_keepalive (h : ReqHeader) (s : State) :
    exec (.keepalive h) s = takeRequest ⟨h, .keepalive⟩ applyKeepalive s := rfl

variable {s : State}

theorem applyKeepalive_running (hr : s.engine.running = true) : applyKeepalive s =
    ⟨{ s with
        supervision := ⟨.supervised, .running (s.site.live.supervision * 1000) 0⟩
        siteFlags := if s.supervision.state = .supervised then s.siteFlags else s.siteFlags ||| SiteFlag.supervision },
      .ok, .supervision s.supervision.state .supervised (some s.site.live.supervision)⟩ := by
  have hseconds : (Timer.running (s.site.live.supervision * 1000) 0).lengthSeconds = some s.site.live.supervision :=
    congrArg some (Nat.mul_div_cancel _ (by decide))
  simp only [applyKeepalive, State.keepAlive, hr, if_true, State.superviseAs_eq, State.supervisionStart, Timer.start, hseconds]

theorem applyKeepalive_stopped (hr : s.engine.running = false) (ht : s.supervision.timer = .stopped) : applyKeepalive s =
    ⟨s, .ok, .supervision s.supervision.state s.supervision.state none⟩ := by
  simp only [applyKeepalive, State.keepAlive, hr, Bool.false_eq_true, if_false, ht, Timer.lengthSeconds]

end Keepalive

/-! ### The expiry of the supervision timer -/

section Expiry

theorem exec_supervisionTimerExpiry (s : State) :
    exec .supervisionTimerExpiry s = execSupervisionTimerExpiry s := rfl

variable {s : State}

theorem exec_supervisionTimerExpiry_ignored (h : s.supervision.timer.expired = false) :
    exec .supervisionTimerExpiry s = .next s := by
  simp only [exec_supervisionTimerExpiry, execSupervisionTimerExpiry, h, Bool.false_eq_true, if_false]

theorem exec_supervisionTimerExpiry_taken {length elapsed : Nat} (h : s.supervision.timer = .running length elapsed)
    (he : length ≤ elapsed) : exec .supervisionTimerExpiry s = .next s.supervisionExpiry := by
  have hx : s.supervision.timer.expired = true := by rw [h]; exact decide_eq_true he
  simp only [exec_supervisionTimerExpiry, execSupervisionTimerExpiry, hx, if_true]

/-- The state after a change of supervision to a state it was not in. -/
def State.supervisedAs (st : SupState) (t : Timer) (s : State) : State :=
  { s with supervision := ⟨st, t⟩, siteFlags := s.siteFlags ||| SiteFlag.supervision }

theorem State.superviseAs_changes {st : SupState} (h : s.supervision.state ≠ st) (t : Timer) :
    s.superviseAs st t = s.supervisedAs st t := by
  rw [State.superviseAs_eq, if_neg h]
  rfl

theorem State.supervisionExpiry_supervised (h : s.supervision.state = .supervised) : s.supervisionExpiry =
    (s.supervisedAs .lapsed (.running (s.site.live.supervision * 1000) 0)).updPorts fun _ p => p.zeroExport := by
  have hne : s.supervision.state ≠ .lapsed := by rw [h]; exact SupState.noConfusion
  simp only [State.supervisionExpiry, h]
  rw [State.superviseAs_changes hne]
  rfl

theorem State.supervisionExpiry_lapsed (h : s.supervision.state = .lapsed) : s.supervisionExpiry =
    (s.supervisedAs .fallback .stopped).updPorts fun n p => p.importToTierA s.engine.ports[n].tierA := by
  have hne : s.supervision.state ≠ .fallback := by rw [h]; exact SupState.noConfusion
  simp only [State.supervisionExpiry, h]
  rw [State.superviseAs_changes hne]
  rfl

theorem State.supervisedAs_port (st : SupState) (t : Timer) (f : PortNo → Port → Port) (n : PortNo) :
    ((s.supervisedAs st t).updPorts f).port n = Port.settle s.env (s.port n) (f n (s.port n)) :=
  State.port_updPorts (s.supervisedAs st t) f n

theorem Port.settle_importToTierA (e : PortEnv) (g : Nat) (p : Port) :
    (Port.settle e p (p.importToTierA g)).state = p.state ∧ (Port.settle e p (p.importToTierA g)).session = p.session
    ∧ (p.held.dir = .imp → (Port.settle e p (p.importToTierA g)).held = .make .imp (min p.held.mag g))
    ∧ (p.held.dir ≠ .imp → (Port.settle e p (p.importToTierA g)).held = p.held) := by
  rw [Port.settle_state, Port.settle_session, Port.settle_held]
  refine ⟨?_, ?_, fun h => ?_, fun h => ?_⟩
  · rw [Port.importToTierA_held]
  · rw [Port.importToTierA_held]
  · rw [Port.importToTierA, if_pos h]
  · rw [Port.importToTierA, if_neg h]

end Expiry

/-- Settles O49: KEEPALIVE by the engine's state, an expiry by the state in which it is taken. -/
theorem supervisionKeepsAndLapses : Obligations.SupervisionKeepsAndLapses := by
  intro s running
  refine ⟨fun h ht => ⟨fun hr => ?runs, fun hr hx => ?stands⟩, fun hx => exec_supervisionTimerExpiry_ignored (by rw [hx]; rfl),
    fun length elapsed hx he => exec_supervisionTimerExpiry_ignored (Timer.not_expired hx he),
    fun length elapsed hx he hs => ?lapses, fun length elapsed hx he hs => ?falls⟩
  case runs =>
    exact takeRequest_answered ht _ _ _ (applyKeepalive_running (s := s.modRing Ring.pop) hr)
  case stands =>
    exact takeRequest_answered ht s _ _ (applyKeepalive_stopped (s := s.modRing Ring.pop) hr hx)
  case lapses =>
    refine ⟨_, exec_supervisionTimerExpiry_taken hx he, ?_⟩
    rw [State.supervisionExpiry_supervised hs]
    refine ⟨rfl, fun n => ?_⟩
    rw [State.supervisedAs_port]
    obtain ⟨hstate, hsession⟩ := Port.settle_zeroExport_fields s.env (s.port n)
    exact ⟨hstate, hsession, Port.settle_zeroExport_exp s.env, Port.settle_zeroExport_held s.env⟩
  case falls =>
    refine ⟨_, exec_supervisionTimerExpiry_taken hx he, ?_⟩
    rw [State.supervisionExpiry_lapsed hs]
    refine ⟨rfl, fun n => ?_⟩
    rw [State.supervisedAs_port]
    exact Port.settle_importToTierA s.env _ (s.port n)

end Sys2Proof.Machine
end

section
/-! SITE_TRIP and CLEAR_TRIP (10 R176 to R179): O48. -/

namespace Sys2Proof.Machine

open Sys2Proof

/-! ### What a trip does to a port -/

section Trip

variable {p q : Port} {e : PortEnv}

theorem Port.trip_active (h : p.state = .connected ∨ p.state = .energizing ∨ p.state = .energized) :
    p.trip = { p.zeroHeld with command := .opened }.enter .held := by
  rcases h with h | h | h <;> simp only [Port.trip, h]

theorem Port.trip_closing (h : p.state = .closing) : p.trip = p.zeroHeld := by
  simp only [Port.trip, h]

theorem Port.trip_other (h1 : p.state ≠ .connected) (h2 : p.state ≠ .energizing) (h3 : p.state ≠ .energized)
    (h4 : p.state ≠ .closing) : p.trip = { p.zeroHeld with command := .opened } := by
  cases h : p.state
  case connected => exact absurd h h1
  case energizing => exact absurd h h2
  case energized => exact absurd h h3
  case closing => exact absurd h h4
  all_goals simp only [Port.trip, h]

/-- The three ways in which a trip takes a port. -/
theorem Port.trip_cases (p : Port) : (p.state = .closing ∧ p.trip = p.zeroHeld)
    ∨ ((p.state = .connected ∨ p.state = .energizing ∨ p.state = .energized)
      ∧ p.trip = { p.zeroHeld with command := .opened }.enter .held)
    ∨ ((p.state ≠ .connected ∧ p.state ≠ .energizing ∧ p.state ≠ .energized ∧ p.state ≠ .closing)
      ∧ p.trip = { p.zeroHeld with command := .opened }) := by
  by_cases h4 : p.state = .closing
  · exact .inl ⟨h4, Port.trip_closing h4⟩
  · by_cases h : p.state = .connected ∨ p.state = .energizing ∨ p.state = .energized
    · exact .inr (.inl ⟨h, Port.trip_active h⟩)
    · obtain ⟨h1, h23⟩ := not_or.1 h
      obtain ⟨h2, h3⟩ := not_or.1 h23
      exact .inr (.inr ⟨⟨h1, h2, h3, h4⟩, Port.trip_other h1 h2 h3 h4⟩)

theorem Port.trip_power (p : Port) : p.trip.held = .zero ∧ p.trip.zeroSince = p.zeroSince
    ∧ p.trip.lastDir = p.lastDir ∧ p.trip.frameCount = p.frameCount := by
  rcases p.trip_cases with ⟨-, h⟩ | ⟨-, h⟩ | ⟨-, h⟩ <;> rw [h] <;> exact ⟨rfl, rfl, rfl, rfl⟩

theorem Port.trip_powerOff (e : PortEnv) (p : Port) : p.PowerOff e.now (Port.settle e p p.trip) := by
  obtain ⟨hheld, hzero, hdir, hcount⟩ := p.trip_power
  exact Port.settle_powerOff e p p.trip hheld hzero hdir hcount

/-- R82: the open command that a trip gives to a CLOSING port that has not given it. -/
def Port.tripOpen (e : PortEnv) (p : Port) : Port :=
  if p.state = .closing ∧ p.openGiven = false then
    Port.settle e p { p with command := .opened, quiet := .stopped, limit := .stopped } else p

theorem Port.tripOpen_eq (e : PortEnv) (p : Port) : p.tripOpen e =
    { p.timersOf (p.tripOpen e) with command := (p.tripOpen e).command } := by
  rw [Port.tripOpen]
  split
  · have hs := Port.settle_still e p { p with command := .opened, quiet := .stopped, limit := .stopped } rfl rfl
    have hc := Port.settle_command e p { p with command := .opened, quiet := .stopped, limit := .stopped }
    generalize Port.settle e p { p with command := .opened, quiet := .stopped, limit := .stopped } = r at hs hc
    rw [hc]
    exact hs
  · rfl

/-- R177: a port after a trip. -/
def Port.tripped (e : PortEnv) (p : Port) : Port := (Port.settle e p p.trip).tripOpen e

theorem Port.tripOpen_keeps (e : PortEnv) (p : Port) : (p.tripOpen e).state = p.state ∧ (p.tripOpen e).session = p.session
    ∧ (p.tripOpen e).pendingTarget = p.pendingTarget ∧ (p.tripOpen e).flags = p.flags
    ∧ (p.tripOpen e).lastTransition = p.lastTransition := by
  have h := p.tripOpen_eq e
  generalize p.tripOpen e = r at *
  rw [h]
  exact ⟨rfl, rfl, rfl, rfl, rfl⟩

theorem Port.tripOpen_powerOff {now : Nat} {r : Port} (h : p.PowerOff now r) : p.PowerOff now (r.tripOpen e) := by
  have hr := r.tripOpen_eq e
  generalize r.tripOpen e = t at *
  have hlive : t.live = r.live := by rw [hr]; rfl
  exact ⟨by rw [hr]; exact h.held, hlive.trans h.live, by rw [hr]; exact h.zeroSince, by rw [hr]; exact h.lastDir,
    by rw [hr]; exact h.frame⟩

theorem Port.tripOpen_other (h : p.state ≠ .closing) : p.tripOpen e = p := if_neg fun hx => h hx.1

theorem Port.tripped_powerOff (e : PortEnv) (p : Port) : p.PowerOff e.now (p.tripped e) :=
  Port.tripOpen_powerOff (p.trip_powerOff e)

theorem Port.tripped_active (h : p.state = .connected ∨ p.state = .energizing ∨ p.state = .energized) :
    p.tripped e = Port.settle e p ({ p.zeroHeld with command := .opened }.enter .held) := by
  rw [Port.tripped, Port.trip_active h]
  refine Port.tripOpen_other ?_
  rw [Port.settle_state]
  exact PortState.noConfusion

theorem Port.tripped_other (h1 : p.state ≠ .connected) (h2 : p.state ≠ .energizing) (h3 : p.state ≠ .energized)
    (h4 : p.state ≠ .closing) : p.tripped e = Port.settle e p { p.zeroHeld with command := .opened } := by
  rw [Port.tripped, Port.trip_other h1 h2 h3 h4]
  refine Port.tripOpen_other ?_
  rw [Port.settle_state]
  exact h4

theorem Port.openGiven_false (h : p.state = .closing) : p.openGiven = false ↔ p.quiet ≠ .stopped := by
  rw [Port.openGiven, h]
  cases p.quiet <;> simp [Timer.isRunning]

theorem Port.tripOpen_gives (e : PortEnv) (h : p.state = .closing) (hg : p.openGiven = false) :
    (p.tripOpen e).quiet = .stopped ∧ (p.tripOpen e).limit = .stopped ∧ (p.tripOpen e).command = .opened
    ∧ (p.command = .closed → p.feedback = .closed → (p.tripOpen e).weld = .running 200 0) := by
  rw [Port.tripOpen, if_pos ⟨h, hg⟩]
  refine ⟨Port.settle_quiet .., Port.settle_limit .., Port.settle_command .., fun hc hf => Port.settle_weld_starts ?_ ?_⟩
  · exact (Port.weldConditions_iff _).2 ⟨rfl, hf, fun hx => PortState.noConfusion (h.symm.trans hx)⟩
  · exact fun hw => Contact.noConfusion (hc.symm.trans ((Port.weldConditions_iff p).1 hw).1)

/-- R82: a CLOSING port after a trip has given its open command. -/
theorem Port.tripped_closing {n : PortNo} (hok : p.Ok n) (h : p.state = .closing) : (p.tripped e).state = .closing
    ∧ (p.tripped e).session = p.session ∧ (p.tripped e).pendingTarget = p.pendingTarget
    ∧ (p.tripped e).flags = p.flags ∧ (p.tripped e).lastTransition = p.lastTransition
    ∧ (p.tripped e).quiet = .stopped ∧ (p.tripped e).limit = .stopped ∧ (p.tripped e).command = .opened
    ∧ (p.command = .closed → p.feedback = .closed → (p.tripped e).weld = .running 200 0) := by
  obtain ⟨hstate, hsession, hpending, hflags, hlast⟩ := (Port.settle e p p.zeroHeld).tripOpen_keeps e
  have htrip : p.tripped e = (Port.settle e p p.zeroHeld).tripOpen e := by rw [Port.tripped, Port.trip_closing h]
  have hclosing : (Port.settle e p p.zeroHeld).state = .closing := (Port.settle_state ..).trans h
  have hquiet : (Port.settle e p p.zeroHeld).quiet = p.quiet := Port.settle_quiet ..
  rw [htrip]
  refine ⟨hstate.trans hclosing, hsession.trans (Port.settle_session ..), hpending.trans (Port.settle_pending ..),
    hflags.trans (Port.settle_flags ..), hlast.trans (Port.settle_last ..), ?_⟩
  by_cases hgiven : (Port.settle e p p.zeroHeld).openGiven = false
  · obtain ⟨hq, hl, hc, hw⟩ := Port.tripOpen_gives e hclosing hgiven
    exact ⟨hq, hl, hc, fun hcommand hf => hw ((Port.settle_command ..).trans hcommand) ((Port.settle_feedback ..).trans hf)⟩
  · have hstopped : p.quiet = .stopped := by
      rw [Port.openGiven_false hclosing, hquiet] at hgiven
      exact not_not.1 hgiven
    have hrun : p.quiet.isRunning = false := by rw [hstopped]; rfl
    have hlimit : p.limit = .stopped := by
      by_contra hl
      have hrunning := Timer.isRunning_of_ne hl
      rw [hok.timed.limit, hrun] at hrunning
      exact Bool.false_ne_true hrunning
    have hcommand : p.command = .opened := by
      cases hc : p.command with
      | opened => rfl
      | closed =>
        rcases hok.commanded.opened hc with hp | hq
        · rw [h] at hp
          exact absurd hp (by decide)
        · exact absurd (hrun.symm.trans hq) Bool.false_ne_true
    rw [Port.tripOpen, if_neg fun hx => hgiven hx.2]
    exact ⟨hquiet.trans hstopped, (Port.settle_limit ..).trans hlimit, (Port.settle_command ..).trans hcommand,
      fun hc => Contact.noConfusion (hcommand.symm.trans hc)⟩

/-- R177: what a trip leaves of a port. -/
theorem Port.tripped_spec {n : PortNo} (e : PortEnv) (hok : p.Ok n) : p.PowerOff e.now (p.tripped e)
    ∧ (p.tripped e).command = .opened
    ∧ (p.state = .connected ∨ p.state = .energizing ∨ p.state = .energized → (p.tripped e).state = .held
      ∧ (p.tripped e).session = p.session ∧ (p.tripped e).confirmation = .stopped ∧ (p.tripped e).openDelay = .stopped)
    ∧ (p.state = .closing → (p.tripped e).quiet = .stopped ∧ (p.tripped e).limit = .stopped
      ∧ (p.tripped e).state = .closing ∧ (p.tripped e).session = p.session
      ∧ (p.tripped e).pendingTarget = p.pendingTarget ∧ (p.tripped e).flags = p.flags
      ∧ (p.tripped e).lastTransition = p.lastTransition)
    ∧ (p.state ≠ .connected → p.state ≠ .energizing → p.state ≠ .energized → p.state ≠ .closing →
      (p.tripped e).state = p.state ∧ (p.tripped e).session = p.session)
    ∧ (p.command = .closed → p.feedback = .closed → p.state ≠ .offline → (p.tripped e).weld = .running 200 0) := by
  have hbefore (hc : p.command = .closed) : ¬ p.weldConditions = true := fun hw =>
    Contact.noConfusion (hc.symm.trans ((Port.weldConditions_iff p).1 hw).1)
  refine ⟨p.tripped_powerOff e, ?command, fun h => ?active, fun h => ?closing, fun h1 h2 h3 h4 => ?other, ?weld⟩
  case command =>
    rcases p.trip_cases with ⟨h, -⟩ | ⟨h, -⟩ | ⟨⟨h1, h2, h3, h4⟩, -⟩
    · obtain ⟨-, -, -, -, -, -, -, hcommand, -⟩ := Port.tripped_closing (e := e) hok h
      exact hcommand
    · rw [Port.tripped_active h]
      exact Port.settle_command ..
    · rw [Port.tripped_other h1 h2 h3 h4]
      exact Port.settle_command ..
  case active =>
    rw [Port.tripped_active h]
    obtain ⟨hdelay, -⟩ := Port.settle_stops (e := e) (p := p) (q := { p.zeroHeld with command := .opened }.enter .held)
      PortState.noConfusion
    exact ⟨Port.settle_state .., Port.settle_session .., Port.settle_confirmation .., hdelay⟩
  case closing =>
    obtain ⟨hstate, hsession, hpending, hflags, hlast, hquiet, hlimit, -, -⟩ := Port.tripped_closing (e := e) hok h
    exact ⟨hquiet, hlimit, hstate, hsession, hpending, hflags, hlast⟩
  case other =>
    rw [Port.tripped_other h1 h2 h3 h4]
    exact ⟨Port.settle_state .., Port.settle_session ..⟩
  case weld =>
    intro hc hf ho
    rcases p.trip_cases with ⟨h, -⟩ | ⟨h, -⟩ | ⟨⟨h1, h2, h3, h4⟩, -⟩
    · obtain ⟨-, -, -, -, -, -, -, -, hweld⟩ := Port.tripped_closing (e := e) hok h
      exact hweld hc hf
    · rw [Port.tripped_active h]
      exact Port.settle_weld_starts ((Port.weldConditions_iff _).2 ⟨rfl, hf, PortState.noConfusion⟩) (hbefore hc)
    · rw [Port.tripped_other h1 h2 h3 h4]
      exact Port.settle_weld_starts ((Port.weldConditions_iff _).2 ⟨rfl, hf, ho⟩) (hbefore hc)

end Trip

/-! ### The open commands of all ports -/

theorem State.tripClosing_eq (n : PortNo) (u : State) : u.tripClosing n = { u with ports := (u.tripClosing n).ports } := by
  rw [State.tripClosing]
  split <;> rfl

theorem State.tripClosing_port (n m : PortNo) (u : State) :
    (u.tripClosing n).port m = if m = n then (u.port m).tripOpen u.env else u.port m := by
  rw [State.tripClosing]
  by_cases hm : m = n
  · subst hm
    rw [if_pos rfl, Port.tripOpen]
    split
    · exact (State.port_updPort u m m _).trans (if_pos rfl)
    · rfl
  · rw [if_neg hm]
    split
    · exact (State.port_updPort u n m _).trans (if_neg hm)
    · rfl

/-- The open commands of the ports of a list. -/
def State.tripOpens (l : List PortNo) (u : State) : State := l.foldl (fun t n => t.tripClosing n) u

theorem State.tripOpens_eq (l : List PortNo) : ∀ u : State, u.tripOpens l = { u with ports := (u.tripOpens l).ports } := by
  induction l with
  | nil => exact fun u => rfl
  | cons n l ih =>
    intro u
    have hstep : u.tripOpens (n :: l) = (u.tripClosing n).tripOpens l := rfl
    obtain ⟨ports, hp⟩ : ∃ ports, u.tripClosing n = { u with ports := ports } := ⟨_, u.tripClosing_eq n⟩
    rw [hstep, ih, hp]

theorem State.tripOpens_port {l : List PortNo} (hl : l.Nodup) (m : PortNo) : ∀ u : State,
    (u.tripOpens l).port m = if m ∈ l then (u.port m).tripOpen u.env else u.port m := by
  induction l with
  | nil => exact fun u => rfl
  | cons n l ih =>
    intro u
    obtain ⟨hn, hl⟩ := List.nodup_cons.1 hl
    have hstep : u.tripOpens (n :: l) = (u.tripClosing n).tripOpens l := rfl
    have henv : (u.tripClosing n).env = u.env := by rw [State.tripClosing_eq]; rfl
    rw [hstep, ih hl, henv, State.tripClosing_port]
    by_cases hm : m = n
    · subst hm
      rw [if_neg hn, if_pos rfl, if_pos (List.mem_cons_self ..)]
    · rw [if_neg hm]
      exact if_congr (by rw [List.mem_cons, or_iff_right hm]) rfl rfl

/-! ### The trip -/

section Assertion

variable {s : State}

theorem exec_siteTripAssertion (s : State) : exec .siteTripAssertion s = execSiteTripAssertion s := rfl

theorem exec_siteTripAssertion_trips (hl : s.protection.line = false) (hx : s.protection.latch = false) :
    exec .siteTripAssertion s = .next s.trip := by
  simp only [exec_siteTripAssertion, execSiteTripAssertion, hl, hx, Bool.false_eq_true, if_false]

theorem exec_siteTripAssertion_latched (hl : s.protection.line = false) (hx : s.protection.latch = true) :
    exec .siteTripAssertion s = .next { s with protection := ⟨true, true⟩, siteFlags := s.siteFlags ||| SiteFlag.trip } := by
  simp only [exec_siteTripAssertion, execSiteTripAssertion, hl, hx, Bool.false_eq_true, if_false, if_true]
  rfl

/-- The state of a trip before the commitment is interrupted. -/
def State.tripPorts (s : State) : State := State.tripOpens allPorts
  (State.updPorts (fun _ p => p.trip) { s with protection := ⟨true, true⟩, siteFlags := s.siteFlags ||| SiteFlag.trip })

theorem State.trip_eq (s : State) : s.trip = s.tripPorts.interruptActive := rfl

theorem State.tripPorts_eq (s : State) : s.tripPorts = { s with
    protection := ⟨true, true⟩, siteFlags := s.siteFlags ||| SiteFlag.trip, ports := s.tripPorts.ports } :=
  State.tripOpens_eq allPorts _

theorem State.tripPorts_port (s : State) (n : PortNo) : s.tripPorts.port n = (s.port n).tripped s.env := by
  rw [State.tripPorts, State.tripOpens_port allPorts_nodup, if_pos (mem_allPorts n), State.port_updPorts]
  rfl

theorem State.trip_rest (s : State) : ∃ clock commits ports, s.trip.ports = s.tripPorts.ports ∧ s.trip = { s with
    protection := ⟨true, true⟩, siteFlags := s.siteFlags ||| SiteFlag.trip, clock := clock, commits := commits, ports := ports } := by
  obtain ⟨clock, commits, hrest⟩ := (State.interruptActive_onlyReserve s.tripPorts).exists
  obtain ⟨ports, hports⟩ : ∃ ports, s.tripPorts = { s with
    protection := ⟨true, true⟩, siteFlags := s.siteFlags ||| SiteFlag.trip, ports := ports } := ⟨_, s.tripPorts_eq⟩
  rw [← State.trip_eq] at hrest
  refine ⟨clock, commits, ports, by rw [hrest], ?_⟩
  rw [hrest, hports]

theorem State.trip_commit {i : Nat} {c : Commitment} (ha : s.activeCommit = some (i, c)) (hc : s.commit i = some c) :
    s.trip.commit i = some { c with
      state := .interrupted, outcome := some .interrupted, endTime := some s.now, flags := c.flags ||| CommitFlag.ended } := by
  have hcommits : s.tripPorts.commits = s.commits := by rw [s.tripPorts_eq]
  have hnow : s.tripPorts.now = s.now := by rw [s.tripPorts_eq]; rfl
  have hactive : s.tripPorts.activeCommit = some (i, c) := by rw [State.activeCommit, hcommits]; exact ha
  have hcommit : s.tripPorts.commit i = some c := (congrArg (Table.get · i) hcommits).trans hc
  rw [State.trip_eq, State.interruptActive, hactive]
  dsimp only
  rw [State.commit, State.endCommit_interrupted hcommit, Table.get_put_self, hnow]

end Assertion

/-! ### CLEAR_TRIP -/

section Clear

variable {s : State} {p : Port}

theorem exec_clearTrip (h : ReqHeader) (s : State) : exec (.clearTrip h) s = takeRequest ⟨h, .clearTrip⟩ applyClearTrip s := rfl

theorem applyClearTrip_asserted (hl : s.protection.line = true) : applyClearTrip s = refuse s .tripActive := by
  simp only [applyClearTrip, hl, if_true]

theorem applyClearTrip_clear (hl : s.protection.line = false) (hx : s.protection.latch = false) :
    applyClearTrip s = ⟨s, .ok, .tripCleared false 0⟩ := by
  simp only [applyClearTrip, hl, hx, Bool.false_eq_true, if_false]

theorem applyClearTrip_set (hl : s.protection.line = false) (hx : s.protection.latch = true) :
    applyClearTrip s = ⟨s.clearLatch, .ok, .tripCleared false s.heldPorts⟩ := by
  simp only [applyClearTrip, hl, hx, Bool.false_eq_true, if_false, if_true]

theorem State.ports_toList (s : State) : s.ports.toList = allPorts.map s.port := by
  apply List.ext_getElem
  · simp [allPorts]
  · intro k h1 h2
    simp [allPorts, State.port]

theorem State.heldPorts_eq (s : State) :
    s.heldPorts = (allPorts.filter fun n => (s.port n).state == .held).length := by
  rw [State.heldPorts, State.ports_toList, List.filter_map, List.length_map]
  rfl

theorem State.clearLatch_eq (s : State) : s.clearLatch = { s with
    protection := ⟨s.protection.line, false⟩, ports := s.clearLatch.ports } := rfl

theorem State.clearLatch_port (s : State) (n : PortNo) : s.clearLatch.port n = Port.settle s.env (s.port n) (s.port n).unhold :=
  State.port_updPorts { s with protection := ⟨s.protection.line, false⟩ } (fun _ p => p.unhold) n

theorem Port.unhold_held (e : PortEnv) (h : p.state = .held) : Port.settle e p p.unhold =
    { p.timersOf (Port.settle e p p.unhold) with state := .connected, pendingTarget := none, faultCode := none } := by
  have hlive : (p.enter .connected).live = p.live := by
    rw [Port.live, if_neg PortState.noConfusion, Port.live, h, if_neg PortState.noConfusion]
  have hs := Port.settle_still e p (p.enter .connected) rfl hlive
  rw [Port.unhold, if_pos h]
  generalize Port.settle e p (p.enter .connected) = r at hs ⊢
  exact hs

theorem Port.unhold_other (e : PortEnv) (h : p.state ≠ .held) : Port.settle e p p.unhold =
    p.timersOf (Port.settle e p p.unhold) := by
  rw [Port.unhold, if_neg h]
  exact Port.settle_still e p p rfl rfl

end Clear

/-- Settles O48: the trip port by port, in the three ways that a trip takes a port, and CLEAR_TRIP by its checks. -/
theorem tripAndClearTrip : Obligations.TripAndClearTrip := by
  refine ⟨fun s => ⟨fun hl => if_pos hl, exec_siteTripAssertion_latched, fun hl hx hok => ?trips, rfl⟩,
    fun h s ht => ⟨fun hl => takeRequest_refused ht (applyClearTrip_asserted (s := s.modRing Ring.pop) hl),
      fun hl hx => takeRequest_answered ht s _ _ (applyClearTrip_clear (s := s.modRing Ring.pop) hl hx),
      fun hl hx => ?clears⟩⟩
  case trips =>
    obtain ⟨clock, commits, ports, hports, hrest⟩ := s.trip_rest
    have hport (n : PortNo) : s.trip.port n = (s.port n).tripped s.env :=
      (State.port_of_ports hports n).trans (s.tripPorts_port n)
    refine ⟨s.trip, exec_siteTripAssertion_trips hl hx, ?_, ?_, ?_, ?_, fun n => ?_, ?_, ?_, fun i c => State.trip_commit⟩
    · rw [hrest]
    · rw [hrest]
    · rw [hrest]
    · rw [hrest]
    · rw [hport]
      exact Port.tripped_spec s.env (hok n)
    · rw [hrest]
    · rw [hrest]
  case clears =>
    refine ⟨s.clearLatch, ?_, ?_, fun n => ⟨fun hh _ => ?_, fun hh => ?_⟩⟩
    · rw [← s.heldPorts_eq]
      exact takeRequest_answered ht s.clearLatch _ _ (applyClearTrip_set (s := s.modRing Ring.pop) hl hx)
    · rw [s.clearLatch_eq, hl]
    · rw [s.clearLatch_port]
      exact Port.unhold_held s.env hh
    · rw [s.clearLatch_port]
      exact Port.unhold_other s.env hh

end Sys2Proof.Machine
end

section
/-! The stages of DEPARTURE_SET (07 R122), and what a chain of plan tasks keeps of the registrations of the other
owners. -/

namespace Sys2Proof.Machine

open Sys2Proof

/-! ### Registrations -/

section Regs

variable {s t u : State}

theorem State.mem_register (s : State) (k : RegKind) (i x : Nat) (r : Registration) :
    r ∈ (s.register k i x).clock.regs ↔ r ∈ s.clock.regs ∨ (s.now < x ∧ r = ⟨k, i, x⟩) := by
  rw [State.register]
  split
  next h => simp [h]
  next h => simp [h]

theorem State.mem_withdraw (s : State) (f : Registration → Bool) (r : Registration) :
    r ∈ (s.withdraw f).clock.regs ↔ r ∈ s.clock.regs ∧ f r = false := by
  simp only [State.withdraw, List.mem_filter, Bool.not_eq_true']

/-- The registrations of the owners other than the Plan Table stay. -/
structure State.HoldsRegs (s t : State) : Prop where
  mem : ∀ r : Registration, r.kind.owner ≠ 1 → (r ∈ t.clock.regs ↔ r ∈ s.clock.regs)

theorem State.HoldsRegs.refl (s : State) : s.HoldsRegs s := ⟨fun _ _ => Iff.rfl⟩

theorem State.HoldsRegs.trans (h : s.HoldsRegs t) (k : t.HoldsRegs u) : s.HoldsRegs u :=
  ⟨fun r hr => (k.mem r hr).trans (h.mem r hr)⟩

theorem State.HoldsRegs.of_clock (h : t.clock = s.clock) : s.HoldsRegs t := ⟨fun _ _ => by rw [h]⟩

theorem State.modPlan_holdsRegs (s : State) (i : Nat) (f : Plan → Plan) : s.HoldsRegs (s.modPlan i f) :=
  .of_clock (modPlan_clock s i f)

theorem State.modBus_holdsRegs (s : State) (i : Nat) (f : Bus → Bus) : s.HoldsRegs (s.modBus i f) :=
  .of_clock (modBus_clock s i f)

theorem State.register_holdsRegs (s : State) {k : RegKind} (hk : k.owner = 1) (i x : Nat) : s.HoldsRegs (s.register k i x) :=
  ⟨fun r hr => (State.mem_register s k i x r).trans (or_iff_left fun h => hr (by rw [h.2]; exact hk))⟩

theorem State.withdrawPlan_holdsRegs (s : State) (i : Nat) : s.HoldsRegs (s.withdrawPlan i) :=
  ⟨fun r hr => (State.mem_withdraw s _ r).trans (and_iff_left (by simp [ofRecord, hr]))⟩

theorem State.releasePower_holdsRegs (s : State) (b : Nat) : s.HoldsRegs (s.releasePower b) := by
  unfold State.releasePower
  split
  · split
    · exact .of_clock rfl
    · exact .refl s
  · exact .refl s

theorem State.finalise_holdsRegs (s : State) (i : Nat) (st : PlanState) (o : PlanOutcome) :
    s.HoldsRegs (s.finalise i st o) := by
  unfold State.finalise
  split
  next p hp =>
    have hput : s.HoldsRegs (s.putPlan i { p with
        state := st, outcome := some o, finish := some s.now, cond := none, final := true }) := .of_clock rfl
    exact (hput.trans (State.modBus_holdsRegs _ _ _)).trans (State.withdrawPlan_holdsRegs _ i)
  next => exact .refl s

theorem State.beginStep_holdsRegs (s : State) (b i : Nat) (bus : Bus) (st : PlanStep) :
    s.HoldsRegs (s.beginStep b i bus st).1 := by
  have hhold : s.HoldsRegs (s.registerHold i st) := by
    unfold State.registerHold
    split
    · exact s.register_holdsRegs rfl i _
    · exact .refl s
  have hend (u : State) : u.HoldsRegs (u.registerEndBy i st) := by
    unfold State.registerEndBy
    split
    · exact u.register_holdsRegs rfl i _
    · exact .refl u
  have hcond (u : State) : u.HoldsRegs (u.enterCondition b i bus st) := by
    unfold State.enterCondition
    split
    · exact (u.modPlan_holdsRegs i _).trans (State.register_holdsRegs _ rfl i _)
    · split
      · exact (u.modPlan_holdsRegs i _).trans (State.modBus_holdsRegs _ b _)
      · exact u.modPlan_holdsRegs i _
  unfold State.beginStep
  split
  · exact .refl s
  · dsimp only
    split
    · exact (hhold.trans (State.finalise_holdsRegs ..)).trans (State.releasePower_holdsRegs ..)
    · exact (hhold.trans (hend _)).trans (hcond _)

theorem State.endStep_holdsRegs (s : State) (b i : Nat) (bus : Bus) (p : Plan) :
    s.HoldsRegs (s.endStep b i bus p).1 := by
  have hrelease : s.HoldsRegs ((s.withdrawPlan i).releasePower b) :=
    (s.withdrawPlan_holdsRegs i).trans (State.releasePower_holdsRegs ..)
  unfold State.endStep
  dsimp only
  split
  · exact hrelease.trans (State.finalise_holdsRegs ..)
  · split
    · exact hrelease.trans (State.modPlan_holdsRegs ..)
    · exact hrelease.trans (State.modPlan_holdsRegs ..)

theorem planTask_holdsRegs (b : Nat) (t : PlanTask) (s : State) : s.HoldsRegs (planTask b t s).1 := by
  unfold planTask
  split
  · exact .refl s
  next bus hb =>
    cases t with
    | select =>
      dsimp only [State.selectPlan]
      split
      · split
        · exact s.modPlan_holdsRegs ..
        · exact .refl s
      · exact .refl s
    | start i =>
      dsimp only
      split
      · split
        · exact s.beginStep_holdsRegs ..
        · exact .refl s
      · exact .refl s
    | finish i =>
      dsimp only
      split
      · exact s.endStep_holdsRegs ..
      · exact .refl s

theorem runTasks_holdsRegs (b fuel : Nat) : ∀ (t : PlanTask) (s : State), s.HoldsRegs (runTasks b fuel t s) := by
  induction fuel with
  | zero => exact fun _ s => .refl s
  | succ n ih =>
    intro t s
    have htask := planTask_holdsRegs b t s
    rw [runTasks]
    split
    next s' t' he =>
      rw [he] at htask
      exact htask.trans (ih t' s')
    next s' he =>
      rw [he] at htask
      exact htask

theorem State.testStep_holdsRegs (s : State) (kinds : StepKind → Bool) (b : Nat) : s.HoldsRegs (s.testStep kinds b) := by
  unfold State.testStep
  repeat' split
  all_goals first | exact .refl s | exact runTasks_holdsRegs ..

end Regs

/-! ### The test of the RUNNING plan's step -/

section Tested

variable {v w : State} {k : Nat} {b : Bus} {kind : StepKind}

/-- The step whose test ends it. -/
def State.StepEnds (v : State) (c : Bus) (kind : StepKind) (j : Nat) : Prop :=
  ∃ p st, v.plan j = some p ∧ p.step? = some st ∧ st.kind = kind ∧ stepEnded v.now c st = true

theorem State.Tested.ended (h : State.Tested k kind v w) (hb : v.bus k = some b) {j : Nat} (hj : v.runningPlan b = some j)
    (he : v.StepEnds b kind j) : w = runTasks k 256 (.finish j) v := by
  obtain ⟨p, st, hp, hst, hkind, hend⟩ := he
  obtain ⟨hstep, -, -⟩ := h b hb
  rw [hstep j p st hj hp hst, if_pos ⟨hkind, hend⟩]

theorem State.Tested.stays (h : State.Tested k kind v w) (hb : v.bus k = some b)
    (hn : ∀ j, v.runningPlan b = some j → ¬ v.StepEnds b kind j) : w = v := by
  obtain ⟨hstep, hnone, hidle⟩ := h b hb
  cases hj : v.runningPlan b with
  | none => exact hidle hj
  | some j =>
    obtain ⟨p, hp, -⟩ := State.runningPlan_plan hj
    cases hst : p.step? with
    | none => exact hnone j p hj hp hst
    | some st =>
      rw [hstep j p st hj hp hst, if_neg]
      exact fun hx => hn j hj ⟨p, st, hp, hst, hx.1, hx.2⟩

end Tested

/-! ### The stages -/

section Stages

variable (k : Nat) (d : Departure) (s : State)

/-- DEPARTURE_SET after the writing of the part and of its registrations. -/
def State.departurePlaced : State :=
  ((s.withdrawDeparture k).modBus k fun b => { b with departure := some d }).registerDeparture k d.tDep

/-- DEPARTURE_SET after the test of an EXPORT_TO step. -/
def State.departureTested : State := (s.departurePlaced k d).testStep StepKind.isExport k

/-- DEPARTURE_SET after the withdrawal of an export. -/
def State.departureServed : State := (s.departureTested k d).withdrawIfIneligible k

theorem State.setDeparture_eq : s.setDeparture k d = (s.departureServed k d).refreshReadiness k := rfl

variable {k d s} {b : Bus} (hb : s.bus k = some b)

theorem State.registerDeparture_eq (u : State) (i tDep : Nat) : ∃ regs,
    u.registerDeparture i tDep = { u with clock := { u.clock with regs := regs } } := by
  unfold State.registerDeparture State.registerLockout
  dsimp only
  split
  · rw [State.register_eq, State.register_eq u]
    exact ⟨_, rfl⟩
  · rw [State.register_eq]
    exact ⟨_, rfl⟩

theorem State.mem_registerDeparture (u : State) (i tDep : Nat) (r : Registration) (hlater : u.now < tDep) :
    r ∈ (u.registerDeparture i tDep).clock.regs ↔ (r ∈ u.clock.regs ∨ r = ⟨.departure, i, tDep⟩)
      ∨ ((0 < u.site.live.lockoutWindow ∧ u.site.live.lockoutWindow ≤ tDep
          ∧ u.now < tDep - u.site.live.lockoutWindow) ∧ r = ⟨.lockout, i, tDep - u.site.live.lockoutWindow⟩) := by
  have hsite : (u.register .departure i tDep).site = u.site := register_site ..
  have hnow : (u.register .departure i tDep).now = u.now := by rw [State.register_eq]; rfl
  have hfirst : r ∈ (u.register .departure i tDep).clock.regs ↔ r ∈ u.clock.regs ∨ r = ⟨.departure, i, tDep⟩ :=
    (State.mem_register ..).trans (or_congr_right (and_iff_right hlater))
  unfold State.registerDeparture State.registerLockout
  dsimp only
  rw [hsite]
  split
  next hw => rw [State.mem_register, hfirst, hnow, and_iff_right hw.1, and_iff_right hw.2]
  next hw => exact hfirst.trans (or_iff_left fun hx => hw ⟨hx.1.1, hx.1.2.1⟩).symm

include hb

theorem State.departurePlaced_eq : ∃ clock, s.departurePlaced k d = { s with
    clock := clock, buses := s.buses.put k { b with departure := some d } } ∧ clock.time = s.clock.time := by
  have hw : (s.withdrawDeparture k).bus k = some b := hb
  obtain ⟨regs, h⟩ := State.registerDeparture_eq ((s.withdrawDeparture k).modBus k fun b => { b with departure := some d }) k d.tDep
  rw [State.departurePlaced, h, State.modBus_some hw]
  exact ⟨_, rfl, rfl⟩

theorem State.departurePlaced_bus (m : Nat) : (s.departurePlaced k d).bus m =
    if m = k then some { b with departure := some d } else s.bus m := by
  obtain ⟨clock, h, -⟩ := State.departurePlaced_eq (d := d) hb
  rw [h]
  exact Table.get_put s.buses k m _

theorem State.mem_departurePlaced (r : Registration) (hlater : s.now < d.tDep) :
    r ∈ (s.departurePlaced k d).clock.regs ↔
      ((r ∈ s.clock.regs ∧ ¬ (r.kind.owner = 2 ∧ r.slot = k)) ∨ r = ⟨.departure, k, d.tDep⟩)
      ∨ ((0 < s.site.live.lockoutWindow ∧ s.site.live.lockoutWindow ≤ d.tDep
          ∧ s.now < d.tDep - s.site.live.lockoutWindow) ∧ r = ⟨.lockout, k, d.tDep - s.site.live.lockoutWindow⟩) := by
  have hw : (s.withdrawDeparture k).bus k = some b := hb
  have hmem : r ∈ (s.withdrawDeparture k).clock.regs ↔ r ∈ s.clock.regs ∧ ¬ (r.kind.owner = 2 ∧ r.slot = k) := by
    rw [State.withdrawDeparture, State.mem_withdraw]
    simp [ofRecord]
  rw [← hmem, State.departurePlaced, State.modBus_some hw]
  exact State.mem_registerDeparture _ k d.tDep r hlater

end Stages

end Sys2Proof.Machine
end

section
/-! DEPARTURE_SET and DEPARTURE_CLEAR (07 R122, R123): O33. -/

namespace Sys2Proof.Machine

open Sys2Proof

/-! ### The withdrawal of an export that is no longer eligible -/

section Withdrawal

/-- A held setpoint that has become 0 by the withdrawal of an export. -/
theorem Port.settle_zeroExport_setpoint (e : PortEnv) (p : Port) : Port.settle e p p.zeroExport =
    (p.timersOf (Port.settle e p p.zeroExport)).setpointOf (Port.settle e p p.zeroExport) := by
  have h := Port.settle_frame e p p.zeroExport
  have hheld := Port.settle_held e p p.zeroExport
  rw [Port.zeroExport_held] at h hheld
  rw [Port.zeroExport_held]
  generalize Port.settle e p { p with held := p.zeroExport.held } = r at h hheld
  rw [← hheld] at h
  exact h

variable {w : State} {k : Nat} {wb : Bus} (hw : w.bus k = some wb)

/-- R122 item 5: what the withdrawal makes of the port of the bus. -/
structure State.Withdraws (k : Nat) (wb : Bus) (w x : State) (n : PortNo) : Prop where
  session  : (x.port n).session = (w.port n).session
  eligible : (x.port n).held.dir = .exp → x = w ∧ w.exportEligible k wb = true
  falls    : (w.port n).held.dir = .exp ∧ w.exportEligible k wb = false → (w.port n).PowerOff w.now (x.port n)
    ∧ x.port n = ((w.port n).timersOf (x.port n)).setpointOf (x.port n)
  stays    : ¬ ((w.port n).held.dir = .exp ∧ w.exportEligible k wb = false) →
    x.port n = (w.port n).timersOf (x.port n)

include hw

theorem State.withdrawIfIneligible_eligible (he : w.exportEligible k wb = true) : w.withdrawIfIneligible k = w := by
  simp only [State.withdrawIfIneligible, hw, he, if_true]

theorem State.withdrawIfIneligible_ineligible (he : w.exportEligible k wb = false) :
    w.withdrawIfIneligible k = w.withdrawExport k := by
  simp only [State.withdrawIfIneligible, hw, he, Bool.false_eq_true, if_false]

theorem State.withdrawIfIneligible_away (hl : wb.location = none) : w.withdrawIfIneligible k = w := by
  have he : w.exportEligible k wb = false := by simp only [State.exportEligible, hl]
  rw [State.withdrawIfIneligible_ineligible hw he, State.withdrawExport_away hw hl]

theorem State.withdrawIfIneligible_rest : ∃ ports, w.withdrawIfIneligible k = { w with ports := ports } := by
  cases he : w.exportEligible k wb with
  | true => exact ⟨_, State.withdrawIfIneligible_eligible hw he⟩
  | false =>
    rw [State.withdrawIfIneligible_ineligible hw he]
    cases hl : wb.location with
    | none => exact ⟨_, State.withdrawExport_away hw hl⟩
    | some n => exact ⟨_, State.withdrawExport_at hw hl⟩

theorem State.withdrawIfIneligible_port {m : PortNo} (hm : wb.location ≠ some m) :
    (w.withdrawIfIneligible k).port m = w.port m := by
  cases he : w.exportEligible k wb with
  | true => rw [State.withdrawIfIneligible_eligible hw he]
  | false =>
    rw [State.withdrawIfIneligible_ineligible hw he]
    cases hl : wb.location with
    | none => rw [State.withdrawExport_away hw hl]
    | some n =>
      rw [State.withdrawExport_at hw hl]
      exact State.port_putPort_ne w _ fun h => hm (h ▸ hl)

theorem State.withdrawIfIneligible_at {n : PortNo} (hl : wb.location = some n) :
    State.Withdraws k wb w (w.withdrawIfIneligible k) n := by
  cases he : w.exportEligible k wb with
  | true =>
    rw [State.withdrawIfIneligible_eligible hw he]
    exact ⟨rfl, fun _ => ⟨rfl, he⟩, fun h => absurd (h.2.symm.trans he) Bool.false_ne_true, fun _ => rfl⟩
  | false =>
    have hport : (w.withdrawIfIneligible k).port n = Port.settle w.env (w.port n) (w.port n).zeroExport := by
      rw [State.withdrawIfIneligible_ineligible hw he, State.withdrawExport_at hw hl]
      exact State.port_putPort_self w n _
    obtain ⟨-, hsession⟩ := Port.settle_zeroExport_fields w.env (w.port n)
    have hoff : (Port.settle w.env (w.port n) (w.port n).zeroExport).held.dir ≠ .exp := by
      intro h
      by_cases hx : (w.port n).held.dir = .exp
      · rw [(Port.settle_zeroExport_exp w.env hx).held] at h
        exact Dir.noConfusion h
      · rw [Port.settle_zeroExport_held w.env hx] at h
        exact hx h
    refine ⟨?_, fun h => ?_, fun h => ?_, fun h => ?_⟩
    · rw [hport]; exact hsession
    · rw [hport] at h
      exact absurd h hoff
    · rw [hport]
      exact ⟨Port.settle_zeroExport_exp w.env h.1, Port.settle_zeroExport_setpoint w.env (w.port n)⟩
    · rw [hport]
      exact Port.settle_zeroExport_still w.env fun hx => h ⟨hx, he⟩

end Withdrawal

/-! ### The readiness that DEPARTURE_SET gives -/

section Served

variable {w x : State} {k : Nat} {wb : Bus} {d : Departure}

theorem State.refreshReadiness_eq (hx : x.bus k = some wb) : x.refreshReadiness k = { x with
    buses := x.buses.put k (wb.setReadiness (x.readinessNow wb).1 (x.readinessNow wb).2) } := by
  rw [State.refreshReadiness, State.modBus_some hx]
  rfl

/-- The bus's record after DEPARTURE_SET. -/
def State.servedBus (k : Nat) (wb : Bus) (w : State) : Bus :=
  wb.setReadiness ((w.withdrawIfIneligible k).readinessNow wb).1 ((w.withdrawIfIneligible k).readinessNow wb).2

theorem State.servedBus_eq (k : Nat) (wb : Bus) (w : State) : w.servedBus k wb = { wb with
    readiness := (w.servedBus k wb).readiness, slack := (w.servedBus k wb).slack
    flags := if (w.servedBus k wb).readiness = wb.readiness then wb.flags else wb.flags ||| BusFlag.readiness } :=
  Bus.setReadiness_flags ..

theorem State.servedBus_away (hd : wb.departure = some d) (hp : d.state = .pending) (hl : wb.location = none) :
    (w.servedBus k wb).readiness = .away ∧ (w.servedBus k wb).slack = none := by
  have h := State.readinessNow_away (s := w.withdrawIfIneligible k) hd hp hl
  rw [State.servedBus, h]
  exact ⟨rfl, rfl⟩

variable (hw : w.bus k = some wb)

include hw

theorem State.served_eq : ∃ ports, (w.withdrawIfIneligible k).ports = ports
    ∧ (w.withdrawIfIneligible k).refreshReadiness k = { w with
      ports := ports, buses := w.buses.put k (w.servedBus k wb) } := by
  obtain ⟨ports, hx⟩ := State.withdrawIfIneligible_rest hw
  have hbus : (w.withdrawIfIneligible k).bus k = some wb := by rw [hx]; exact hw
  have hr := State.refreshReadiness_eq hbus
  rw [← State.servedBus] at hr
  refine ⟨ports, by rw [hx], ?_⟩
  rw [hr]
  generalize w.servedBus k wb = c
  rw [hx]

theorem State.servedBus_here (hd : wb.departure = some d) (hp : d.state = .pending) {n : PortNo}
    (hl : wb.location = some n) : (w.servedBus k wb).readiness = (w.figuresAt wb d n).state
      ∧ (w.servedBus k wb).slack = (w.figuresAt wb d n).slack := by
  obtain ⟨ports, hx⟩ := State.withdrawIfIneligible_rest hw
  have hcap : ((w.withdrawIfIneligible k).port n).sessionImportCap = (w.port n).sessionImportCap := by
    rw [Port.sessionImportCap, (State.withdrawIfIneligible_at hw hl).session, Port.sessionImportCap]
  have hfig : (w.withdrawIfIneligible k).figuresAt wb d n = w.figuresAt wb d n := by
    rw [State.figuresAt, hcap, hx]
    rfl
  have h := State.readinessNow_here (s := w.withdrawIfIneligible k) hd hp hl
  rw [State.servedBus, h, hfig]
  exact ⟨rfl, rfl⟩

/-- R122 item 5: an export that stays is of a bus that is export-eligible. -/
theorem State.served_eligible {n : PortNo} (hl : wb.location = some n)
    (h : ((w.withdrawIfIneligible k).port n).held.dir = .exp) :
    ((w.withdrawIfIneligible k).refreshReadiness k).exportEligible k (w.servedBus k wb) = true := by
  obtain ⟨hx, he⟩ := (State.withdrawIfIneligible_at hw hl).eligible h
  obtain ⟨ports, hports, hu⟩ := State.served_eq hw
  rw [hx] at hports
  have hc := w.servedBus_eq k wb
  rw [hu]
  generalize w.servedBus k wb = c at *
  rw [hc, ← hports]
  exact he

end Served

/-! ### The requests -/

section Requests

variable {h : ReqHeader} {tDep eReq : Word} {route : Half} {s : State} {k : Nat} {b : Bus}

theorem exec_departureSet (h : ReqHeader) (tDep eReq : Word) (route : Half) (s : State) :
    exec (.departureSet h tDep eReq route) s
      = takeRequest ⟨h, .departureSet tDep eReq route⟩ (applyDepartureSet h tDep eReq route) s := rfl

theorem applyDepartureSet_notFound (hf : s.findBus h.key.toNat = none) :
    applyDepartureSet h tDep eReq route s = refuse s .notFound := by
  simp only [applyDepartureSet, hf]

theorem applyDepartureSet_unset (hf : s.findBus h.key.toNat = some (k, b)) (hm : s.clock.mode = .unset) :
    applyDepartureSet h tDep eReq route s = refuse s .timeUnset := by
  simp only [applyDepartureSet, hf, hm, if_true]

theorem applyDepartureSet_early (hf : s.findBus h.key.toNat = some (k, b)) (hm : s.clock.mode = .set)
    (ht : tDep.toNat ≤ s.now) : applyDepartureSet h tDep eReq route s = refuse s .outOfRange := by
  have hne : s.clock.mode ≠ .unset := by rw [hm]; exact ClockMode.noConfusion
  simp only [applyDepartureSet, hf, if_neg hne, if_pos ht]

theorem applyDepartureSet_sets (hf : s.findBus h.key.toNat = some (k, b)) (hm : s.clock.mode = .set)
    (ht : s.now < tDep.toNat) :
    let d := newDeparture b.capacity tDep.toNat eReq.toNat route.toNat
    applyDepartureSet h tDep eReq route s = ⟨s.setDeparture k d, .ok, departureResult k d (s.setDeparture k d)⟩ := by
  have hne : s.clock.mode ≠ .unset := by rw [hm]; exact ClockMode.noConfusion
  simp only [applyDepartureSet, hf, if_neg hne, if_neg (Nat.not_le.2 ht)]

theorem departureResult_eq {u : State} {c : Bus} {d : Departure} (hc : u.bus k = some c) : departureResult k d u =
    .departure k d.tDep d.eReq d.reqClamped c.readiness c.slack := by
  simp only [departureResult, hc]

theorem exec_departureClear (h : ReqHeader) (s : State) :
    exec (.departureClear h) s = takeRequest ⟨h, .departureClear⟩ (applyDepartureClear h) s := rfl

theorem applyDepartureClear_notFound (hf : s.findBus h.key.toNat = none) : applyDepartureClear h s = refuse s .notFound := by
  simp only [applyDepartureClear, hf]

theorem applyDepartureClear_none (hf : s.findBus h.key.toNat = some (k, b)) (hd : b.departure = none) :
    applyDepartureClear h s = ⟨s, .ok, .departureCleared none⟩ := by
  simp only [applyDepartureClear, hf, hd]

theorem applyDepartureClear_clears (hf : s.findBus h.key.toNat = some (k, b)) {d : Departure} (hd : b.departure = some d) :
    applyDepartureClear h s = ⟨{ s with
        buses := s.buses.put k { b with
          departure := none, readiness := .none, slack := none
          flags := if b.readiness = .none then b.flags else b.flags ||| BusFlag.readiness }
        clock := { s.clock with
          regs := s.clock.regs.filter fun r => !(r.kind.owner == 2 && r.slot == k)
          fired := s.clock.fired.filter fun r => !(r.kind.owner == 2 && r.slot == k) } },
      .ok, .departureCleared (some d.state)⟩ := by
  simp only [applyDepartureClear, hf, hd]
  rw [Bus.setReadiness_changed]
  rfl

end Requests

/-! ### O33 -/

section Settled

variable {s : State} {k : Nat} {b wb : Bus} {d : Departure} (hb : s.bus k = some b)

theorem State.ringPop_bus (s : State) (k : Nat) : (s.modRing Ring.pop).bus k = s.bus k := rfl

/-- The step that the new part ends: an EXPORT_TO step with SoE at its target or at the new discharge floor. -/
def State.DepartureEnds (s : State) (b : Bus) (need j : Nat) : Prop :=
  ∃ pl st y, s.plan j = some pl ∧ pl.step? = some st ∧ st.kind = .exportTo ∧ b.soe = some y
    ∧ (y ≤ st.value ∨ y ≤ b.floor ∨ y ≤ need)

theorem State.stepEnds_departure {v : State} (hd : d.state = .pending) (hplans : v.plans = s.plans) (j : Nat) :
    v.StepEnds { b with departure := some d } .exportTo j ↔ s.DepartureEnds b d.eReq j := by
  have hfloor : ({ b with departure := some d } : Bus).dischargeFloor = max b.floor d.eReq := by
    simp only [Bus.dischargeFloor, hd]
  have hplan : v.plan j = s.plan j := congrArg (Table.get · j) hplans
  simp only [State.StepEnds, State.DepartureEnds, hplan]
  constructor
  · rintro ⟨p, st, hp, hst, hk, he⟩
    obtain ⟨y, hy, hle⟩ := (stepEnded_exportTo hk).1 he
    rw [hfloor, le_max_iff] at hle
    exact ⟨p, st, y, hp, hst, hk, hy, hle⟩
  · rintro ⟨p, st, y, hp, hst, hk, hy, hle⟩
    refine ⟨p, st, hp, hst, hk, (stepEnded_exportTo hk).2 ⟨y, hy, ?_⟩⟩
    rw [hfloor, le_max_iff]
    exact hle

theorem State.runningPlan_congr {v : State} {c : Bus} (hplans : v.plans = s.plans) (hl : c.listedPlans = b.listedPlans) :
    v.runningPlan c = s.runningPlan b := by
  have hplan (j : Nat) : v.plan j = s.plan j := congrArg (Table.get · j) hplans
  simp only [State.runningPlan, hl, hplan]

/-- R122: what DEPARTURE_SET makes of the state, stage by stage: the part placed (v), the step tested (w), the export
withdrawn and the readiness given (u). -/
structure State.SetsDeparture (k : Nat) (b : Bus) (d : Departure) (s v w u : State) (wb c : Bus) : Prop where
  placed  : v = { s with clock := v.clock, buses := s.buses.put k { b with departure := some d } }
  now     : v.now = s.now
  regs    : ∀ r, r ∈ v.clock.regs ↔
    ((r ∈ s.clock.regs ∧ ¬ (r.kind.owner = 2 ∧ r.slot = k)) ∨ r = ⟨.departure, k, d.tDep⟩)
      ∨ ((0 < s.site.live.lockoutWindow ∧ s.site.live.lockoutWindow ≤ d.tDep
          ∧ s.now < d.tDep - s.site.live.lockoutWindow) ∧ r = ⟨.lockout, k, d.tDep - s.site.live.lockoutWindow⟩)
  tested  : State.Tested k .exportTo v w
  chain   : v.ChainOf k { b with departure := some d } w
  holds   : v.HoldsRegs w
  bus     : w.bus k = some wb
  served  : ∃ ports, (w.withdrawIfIneligible k).ports = ports
    ∧ u = { w with ports := ports, buses := w.buses.put k c }
  record  : c = w.servedBus k wb
  eligible : ∀ n, wb.location = some n → ((w.withdrawIfIneligible k).port n).held.dir = .exp → u.exportEligible k c = true

theorem State.setDeparture_sets (hb : s.bus k = some b) (hlt : s.now < d.tDep) :
    ∃ v w wb c, State.SetsDeparture k b d s v w (s.setDeparture k d) wb c := by
  obtain ⟨clock, hv, htime⟩ := State.departurePlaced_eq (d := d) hb
  have hvb : (s.departurePlaced k d).bus k = some { b with departure := some d } :=
    (State.departurePlaced_bus hb k).trans (if_pos rfl)
  have hregs := fun r => State.mem_departurePlaced (d := d) hb r hlt
  have htested := State.testStep_tested (i := k) StepKind.isExport_iff (s.departurePlaced k d)
  have hchain := State.testStep_chained (k := k) StepKind.isExport (s.departurePlaced k d) _ hvb
  have hholds := (s.departurePlaced k d).testStep_holdsRegs StepKind.isExport k
  rw [State.setDeparture_eq, State.departureServed, State.departureTested]
  generalize s.departurePlaced k d = v at *
  generalize v.testStep StepKind.isExport k = w at *
  obtain ⟨wb, hwb, -⟩ := hchain.bus
  refine ⟨v, w, wb, w.servedBus k wb, ?_, ?_, hregs, htested, hchain, hholds, hwb, State.served_eq hwb, rfl,
    fun n => State.served_eligible hwb⟩
  · rw [hv]
  · rw [hv]
    exact htime

namespace State.SetsDeparture

variable {v w u : State} {c : Bus} (h : State.SetsDeparture k b d s v w u wb c)

include h

theorem tested_bus : wb = { b with
    departure := some d, prioList := wb.prioList, stdList := wb.stdList, flags := wb.flags } := by
  obtain ⟨x, hx, he⟩ := h.chain.bus
  obtain rfl : x = wb := Option.some.inj (hx.symm.trans h.bus)
  exact he

theorem given : c = { wb with
    readiness := c.readiness, slack := c.slack
    flags := if c.readiness = b.readiness then wb.flags else wb.flags ||| BusFlag.readiness } := by
  have hready : wb.readiness = b.readiness := by rw [h.tested_bus]
  rw [← hready]
  have hc := w.servedBus_eq k wb
  rw [← h.record] at hc
  exact hc

theorem served_bus (m : Nat) : u.bus m = if m = k then some c else w.bus m := by
  obtain ⟨ports, -, hu⟩ := h.served
  rw [hu]
  exact Table.get_put w.buses k m c

theorem served_port (m : PortNo) : u.port m = (w.withdrawIfIneligible k).port m := by
  obtain ⟨ports, hp, hu⟩ := h.served
  rw [hu, State.port, State.port, hp]

theorem served_rest : u = { w with ports := u.ports, buses := u.buses } := by
  obtain ⟨ports, -, hu⟩ := h.served
  rw [hu]

theorem ring_eq : u.ring = s.ring := by
  rw [h.served_rest, h.chain.rest, h.placed]

theorem placed_bus (m : Nat) : v.bus m = if m = k then some { b with departure := some d } else s.bus m := by
  rw [h.placed]
  exact Table.get_put s.buses k m _

theorem placed_plans : v.plans = s.plans := by rw [h.placed]

theorem now_eq : w.now = s.now := h.chain.now.trans h.now

theorem site_eq : w.site = s.site := by rw [h.chain.rest, h.placed]

theorem session_eq (n : PortNo) : (w.port n).session = (s.port n).session := by
  have hv : v.port n = s.port n := by rw [h.placed]; rfl
  rw [h.chain.port n, hv]
  rfl

theorem figures_eq (n : PortNo) : w.figuresAt wb d n = figures s.now s.site.live.guardTime s.site.live.atRisk d.tDep d.eReq
    (b.soe.getD 0) (s.port n).sessionImportCap s.site.liveRatings[n].imp := by
  have hsoe : wb.soe = b.soe := by rw [h.tested_bus]
  rw [State.figuresAt, h.now_eq, h.site_eq, hsoe, Port.sessionImportCap, h.session_eq, Port.sessionImportCap]

/-- R124: the registrations of the departure and of its lockout point. -/
theorem registers {r : Registration} (ho : r.kind.owner = 2) (hs : r.slot = k) : r ∈ u.clock.regs ↔
    r = ⟨.departure, k, d.tDep⟩ ∨ ((0 < s.site.live.lockoutWindow ∧ s.site.live.lockoutWindow ≤ d.tDep
      ∧ s.now < d.tDep - s.site.live.lockoutWindow) ∧ r = ⟨.lockout, k, d.tDep - s.site.live.lockoutWindow⟩) := by
  have hu : u.clock = w.clock := by rw [h.served_rest]
  have hne : r.kind.owner ≠ 1 := by rw [ho]; decide
  rw [hu, h.holds.mem r hne, h.regs]
  exact or_congr_left (or_iff_right fun hx => hx.2 ⟨ho, hs⟩)

theorem keeps_regs {r : Registration} (hr : r.kind.owner ≠ 2 ∨ r.slot ≠ k) : r ∈ v.clock.regs ↔ r ∈ s.clock.regs := by
  have hother : ¬ (r.kind.owner = 2 ∧ r.slot = k) := fun hx => hr.elim (fun h => h hx.1) fun h => h hx.2
  rw [h.regs]
  constructor
  · rintro ((⟨hm, -⟩ | rfl) | ⟨-, rfl⟩)
    · exact hm
    · exact absurd ⟨rfl, rfl⟩ hother
    · exact absurd ⟨rfl, rfl⟩ hother
  · exact fun hm => .inl (.inl ⟨hm, hother⟩)

theorem location_eq : wb.location = b.location := by rw [h.tested_bus]

theorem running_eq : v.runningPlan { b with departure := some d } = s.runningPlan b :=
  State.runningPlan_congr h.placed_plans rfl

theorem step_ends (hp : d.state = .pending) {j : Nat} (hj : s.runningPlan b = some j) (he : s.DepartureEnds b d.eReq j) :
    w = runTasks k 256 (.finish j) v :=
  h.tested.ended ((h.placed_bus k).trans (if_pos rfl)) (h.running_eq.trans hj)
    ((State.stepEnds_departure hp h.placed_plans j).2 he)

theorem step_stays (hp : d.state = .pending) (hn : ∀ j, s.runningPlan b = some j → ¬ s.DepartureEnds b d.eReq j) : w = v :=
  h.tested.stays ((h.placed_bus k).trans (if_pos rfl)) fun j hj he =>
    hn j (h.running_eq.symm.trans hj) ((State.stepEnds_departure hp h.placed_plans j).1 he)

theorem port_away {m : PortNo} (hm : b.location ≠ some m) : u.port m = w.port m :=
  (h.served_port m).trans (State.withdrawIfIneligible_port h.bus (by rw [h.location_eq]; exact hm))

theorem port_here {n : PortNo} (hl : b.location = some n) : ((u.port n).held.dir = .exp → u.exportEligible k c = true)
    ∧ ((w.port n).held.dir = .exp ∧ w.exportEligible k wb = false → (w.port n).PowerOff s.now (u.port n)
      ∧ u.port n = ((w.port n).timersOf (u.port n)).setpointOf (u.port n))
    ∧ (¬ ((w.port n).held.dir = .exp ∧ w.exportEligible k wb = false) → u.port n = (w.port n).timersOf (u.port n)) := by
  have hloc : wb.location = some n := h.location_eq.trans hl
  have hx := State.withdrawIfIneligible_at h.bus hloc
  have he := h.eligible n hloc
  rw [h.served_port n, ← h.now_eq]
  exact ⟨he, hx.falls, hx.stays⟩

theorem readiness_away (hp : d.state = .pending) (hl : b.location = none) : c.readiness = .away ∧ c.slack = none := by
  have hd : wb.departure = some d := by rw [h.tested_bus]
  rw [h.record]
  exact State.servedBus_away hd hp (h.location_eq.trans hl)

theorem readiness_here (hp : d.state = .pending) {n : PortNo} (hl : b.location = some n) :
    c.readiness = (w.figuresAt wb d n).state ∧ c.slack = (w.figuresAt wb d n).slack := by
  have hd : wb.departure = some d := by rw [h.tested_bus]
  rw [h.record]
  exact State.servedBus_here h.bus hd hp (h.location_eq.trans hl)

theorem readiness_flag (hne : c.readiness ≠ b.readiness) : c.flags.getLsbD 2 = true := by
  rw [h.given]
  dsimp only
  rw [if_neg hne, BitVec.getLsbD_or]
  exact Bool.or_eq_true_iff.2 (.inr (by decide))

end State.SetsDeparture

end Settled

/-- Settles O33: DEPARTURE_SET stage by stage, DEPARTURE_CLEAR by its checks. -/
theorem departureSetAndClear : Obligations.DepartureSetAndClear := by
  refine ⟨fun h tDep eReq route s ht => ?set, fun h s ht => ?clear⟩
  case clear =>
    intro q
    refine ⟨fun hn => takeRequest_refused ht (applyDepartureClear_notFound (s := s.modRing Ring.pop) (State.findBus_none.2 hn)),
      fun k b hf => ⟨fun hd => ?_, fun d hd => ?_⟩⟩
    · exact takeRequest_answered ht s _ _ (applyDepartureClear_none (s := s.modRing Ring.pop) hf hd)
    · exact takeRequest_answered ht _ _ _ (applyDepartureClear_clears (s := s.modRing Ring.pop) hf hd)
  case set =>
    intro i q
    refine ⟨fun hn => takeRequest_refused ht (applyDepartureSet_notFound (s := s.modRing Ring.pop) (State.findBus_none.2 hn)),
      fun k b hf hb => ⟨fun hm => takeRequest_refused ht (applyDepartureSet_unset (s := s.modRing Ring.pop) hf hm),
        fun hm hle => takeRequest_refused ht (applyDepartureSet_early (s := s.modRing Ring.pop) hf hm hle),
        fun hm hlt => ?_⟩⟩
    obtain ⟨v, w, wb, c, hset⟩ := State.setDeparture_sets (s := s.modRing Ring.pop)
      (d := newDeparture b.capacity tDep.toNat eReq.toNat route.toNat) hb hlt
    have hubus : ((s.modRing Ring.pop).setDeparture k (newDeparture b.capacity tDep.toNat eReq.toNat route.toNat)).bus k
        = some c := (hset.served_bus k).trans (if_pos rfl)
    have hrun := takeRequest_reply ht (applyDepartureSet_sets (s := s.modRing Ring.pop) hf hm hlt) hset.ring_eq
    rw [departureResult_eq hubus] at hrun
    generalize (s.modRing Ring.pop).setDeparture k (newDeparture b.capacity tDep.toNat eReq.toNat route.toNat) = u at *
    have hdep : c.departure = some (newDeparture b.capacity tDep.toNat eReq.toNat route.toNat) := by
      rw [hset.given, hset.tested_bus]
    have hkeep : c.soe = b.soe ∧ c.location = b.location ∧ c.block = b.block := by
      rw [hset.given, hset.tested_bus]
      exact ⟨rfl, rfl, rfl⟩
    obtain ⟨hsoe, hlocation, hblock⟩ := hkeep
    refine ⟨u, c, hrun, hubus, hdep, hsoe, hlocation, hblock, fun r => hset.registers, hset.readiness_away rfl,
      fun n hl => ⟨?readiness, ?slack, (hset.port_here hl).1⟩, hset.readiness_flag, v, w, wb, ?placed, hset.now,
      (hset.placed_bus k).trans (if_pos rfl), fun m hne => (hset.placed_bus m).trans (if_neg hne),
      fun r => hset.keeps_regs, fun j => hset.step_ends rfl, hset.step_stays rfl, hset.bus, hset.tested_bus,
      hset.served_rest, fun m hne => (hset.served_bus m).trans (if_neg hne), hset.given, fun m => hset.port_away,
      fun n hl => (hset.port_here hl).2⟩
    case readiness => exact (hset.readiness_here rfl hl).1.trans (congrArg Figures.state (hset.figures_eq n))
    case slack => exact (hset.readiness_here rfl hl).2.trans (congrArg Figures.slack (hset.figures_eq n))
    case placed =>
      have hv := hset.placed
      rw [hv]

end Sys2Proof.Machine
end

section
/-! What a chain of plan tasks of one bus keeps of the plans' energies, of the directions of the setpoints and of the
other buses, where lists and plans agree (03 R46, R47, R54, R55). -/

namespace Sys2Proof.Machine

open Sys2Proof

/-- t is s after part of a chain of the bus in slot k. -/
structure State.ChainKeeps (k : Nat) (s t : State) : Prop where
  plan : ∀ j p, s.plan j = some p →
    ∃ q, t.plan j = some q ∧ q.busSlot = p.busSlot ∧ q.imported = p.imported ∧ q.exported = p.exported
  port : ∀ n, (s.port n).held.dir ≠ .exp → (t.port n).held.dir ≠ .exp
  bus  : ∀ m, m ≠ k → t.bus m = s.bus m
  flags : ∀ b, s.bus k = some b →
    ∃ c, t.bus k = some c ∧ ∀ i, b.flags.getLsbD i = true → c.flags.getLsbD i = true

section Primitive

variable {k : Nat} {s t u : State}

theorem State.ChainKeeps.refl (s : State) : s.ChainKeeps k s := 
  ⟨fun _ p h => ⟨p, h, rfl, rfl, rfl⟩, fun _ h => h, fun _ _ => rfl, fun b h => ⟨b, h, fun _ hf => hf⟩⟩

theorem State.ChainKeeps.trans (h : s.ChainKeeps k t) (h' : t.ChainKeeps k u) : s.ChainKeeps k u where
  plan j p hp := by
    obtain ⟨q, hq, hslot, himp, hexp⟩ := h.plan j p hp
    obtain ⟨r, hr, hslot', himp', hexp'⟩ := h'.plan j q hq
    exact ⟨r, hr, hslot'.trans hslot, himp'.trans himp, hexp'.trans hexp⟩
  port n hn := h'.port n (h.port n hn)
  bus m hm := (h'.bus m hm).trans (h.bus m hm)
  flags b hb := by
    obtain ⟨c, hc, hbits⟩ := h.flags b hb
    obtain ⟨d, hd, hbits'⟩ := h'.flags c hc
    exact ⟨d, hd, fun i hi => hbits' i (hbits i hi)⟩

/-- A change of other parts of the state. -/
theorem State.ChainKeeps.beside (hplans : t.plans = s.plans) (hports : t.ports = s.ports) (hbuses : t.buses = s.buses) :
    s.ChainKeeps k t where
  plan j p hp := ⟨p, (congrArg (Table.get · j) hplans).trans hp, rfl, rfl, rfl⟩
  port n hn := by rw [State.port_of_ports hports]; exact hn
  bus m _ := congrArg (Table.get · m) hbuses
  flags b hb := ⟨b, (congrArg (Table.get · k) hbuses).trans hb, fun _ h => h⟩

theorem State.withdrawPlan_chainKeeps (s : State) (i : Nat) : s.ChainKeeps k (s.withdrawPlan i) := .beside rfl rfl rfl

theorem State.register_chainKeeps (s : State) (r : RegKind) (i v : Nat) : s.ChainKeeps k (s.register r i v) :=
  .beside (register_plans s r i v) (register_ports s r i v) (register_buses s r i v)

/-- A change of a plan's record that leaves its bus and its energies. -/
theorem State.modPlan_chainKeeps (s : State) (i : Nat) (f : Plan → Plan)
    (hf : ∀ p, (f p).busSlot = p.busSlot ∧ (f p).imported = p.imported ∧ (f p).exported = p.exported) :
    s.ChainKeeps k (s.modPlan i f) where
  plan j p hp := by
    rw [State.plan_modPlan]
    split
    · exact ⟨f p, by rw [hp]; rfl, hf p⟩
    · exact ⟨p, hp, rfl, rfl, rfl⟩
  port n hn := by rw [State.port_of_ports (modPlan_ports s i f)]; exact hn
  bus m _ := State.bus_modPlan s i m f
  flags b hb := ⟨b, (State.bus_modPlan s i k f).trans hb, fun _ h => h⟩

/-- A change of the bus itself. -/
theorem State.modBus_chainKeeps (s : State) (f : Bus → Bus)
    (hf : ∀ b i, b.flags.getLsbD i = true → (f b).flags.getLsbD i = true) : s.ChainKeeps k (s.modBus k f) where
  plan j p hp := ⟨p, (State.plan_modBus s k j f).trans hp, rfl, rfl, rfl⟩
  port n hn := by rw [State.port_of_ports (modBus_ports s k f)]; exact hn
  bus m hm := (State.bus_modBus s k m f).trans (if_neg hm)
  flags b hb := ⟨f b, by rw [State.bus_modBus, if_pos rfl, hb]; rfl, hf b⟩

theorem Port.release_not_exp (p : Port) (g : Nat) : ((p.importToTierA g).zeroExport).held.dir ≠ .exp := by
  cases h : p.held.dir with
  | imp =>
    rw [Port.release_imp p g h]
    exact Setpoint.make_not_exp _
  | exp =>
    rw [Port.release_exp p g h]
    exact Dir.noConfusion
  | none =>
    rw [Port.release_none p g h, h]
    exact Dir.noConfusion

theorem State.releasePower_chainKeeps (s : State) (b : Nat) : s.ChainKeeps k (s.releasePower b) where
  plan j p hp := ⟨p, (State.plan_releasePower s b j).trans hp, rfl, rfl, rfl⟩
  port n hn := by
    unfold State.releasePower
    split
    · split
      · rw [State.port_updPort]
        split
        · rw [Port.settle_held]
          exact Port.release_not_exp _ _
        · exact hn
      · exact hn
    · exact hn
  bus m _ := State.bus_releasePower s b m
  flags c hc := ⟨c, (State.bus_releasePower s b k).trans hc, fun _ h => h⟩

/-- A final state of a plan of the bus. -/
theorem State.finalise_chainKeeps (s : State) (i : Nat) (st : PlanState) (o : PlanOutcome)
    (h : ∀ p, s.plan i = some p → p.busSlot = k) : s.ChainKeeps k (s.finalise i st o) := by
  cases hp : s.plan i with
  | none =>
    have hsame : s.finalise i st o = s := by simp only [State.finalise, hp]
    rw [hsame]
    exact .refl s
  | some p =>
    have hbus (m : Nat) : (s.finalise i st o).bus m = if m = p.busSlot then (s.bus m).map (Bus.unlist i) else s.bus m := by
      simp only [State.finalise, hp]
      exact State.bus_modBus _ p.busSlot m _
    refine ⟨fun j q hq => ?_, fun n hn => ?_, fun m hm => ?_, fun b hb => ⟨b.unlist i, ?_, fun _ hf => hf⟩⟩
    · rw [State.finalise_plan hp]
      split
      next hj =>
        obtain rfl : p = q := Option.some.inj (hp.symm.trans (hj ▸ hq))
        exact ⟨_, rfl, rfl, rfl, rfl⟩
      next => exact ⟨q, hq, rfl, rfl, rfl⟩
    · rw [State.finalise_rest]
      exact hn
    · rw [hbus, if_neg (by rw [h p hp]; exact hm)]
    · rw [hbus, if_pos (h p hp).symm, hb]
      rfl

end Primitive

/-! ### The tasks -/

/-- The plan of a task is one of the bus in slot k. -/
def PlanTask.Fits (k : Nat) (s : State) : PlanTask → Prop
  | .select => True
  | .start i => ∀ p, s.plan i = some p → p.busSlot = k
  | .finish i => ∀ p, s.plan i = some p → p.busSlot = k

section Tasks

variable {k : Nat} {s : State} {bus : Bus} {i : Nat}

/-- A plan of the bus is one after part of a chain. -/
theorem State.ChainKeeps.slot {t : State} (h : s.ChainKeeps k t) {p : Plan} (hp : s.plan i = some p) (hs : p.busSlot = k) :
    ∀ q, t.plan i = some q → q.busSlot = k := by
  obtain ⟨r, hr, hslot, -⟩ := h.plan i p hp
  intro q hq
  obtain rfl : r = q := Option.some.inj (hr.symm.trans hq)
  exact hslot.trans hs

/-- A task keeps what a chain keeps, and the task that follows is of the same bus. -/
structure State.TaskKeeps (k : Nat) (s : State) (r : State × Option PlanTask) : Prop where
  keeps : s.ChainKeeps k r.1
  next  : ∀ t, r.2 = some t → t.Fits k r.1

theorem State.TaskKeeps.idle (s : State) : s.TaskKeeps k (s, none) := ⟨.refl s, fun _ h => nomatch h⟩

theorem State.selectPlan_taskKeeps (hb : s.bus k = some bus) (hl : s.ListsAgree) : s.TaskKeeps k (s.selectPlan bus) := by
  unfold State.selectPlan
  split
  · split
    next i rest hlist =>
      obtain ⟨p, hp, hslot, -⟩ := (hl k bus hb).plan (by rw [hlist]; exact List.mem_cons_self : i ∈ bus.listedPlans)
      have hkeeps : s.ChainKeeps k (s.modPlan i fun p => { p with state := .running }) :=
        s.modPlan_chainKeeps i _ fun _ => ⟨rfl, rfl, rfl⟩
      refine ⟨hkeeps, fun t ht => ?_⟩
      cases ht
      exact hkeeps.slot hp hslot
    next => exact .idle s
  · exact .idle s

theorem State.beginStep_taskKeeps (st : PlanStep) (hi : ∀ p, s.plan i = some p → p.busSlot = k) :
    s.TaskKeeps k (s.beginStep k i bus st) := by
  have hhold : s.ChainKeeps k (s.registerHold i st) := by
    unfold State.registerHold
    split
    · exact s.register_chainKeeps ..
    · exact .refl s
  have hplan : (s.registerHold i st).plan i = s.plan i := by
    unfold State.registerHold
    split
    · exact State.plan_register ..
    · rfl
  have hend (u : State) : u.ChainKeeps k (u.registerEndBy i st) := by
    unfold State.registerEndBy
    split
    · exact u.register_chainKeeps ..
    · exact .refl u
  have hcond (u : State) : u.ChainKeeps k (u.enterCondition k i bus st) := by
    have hset (c : StepCond) : u.ChainKeeps k (u.setCond i c) := u.modPlan_chainKeeps i _ fun _ => ⟨rfl, rfl, rfl⟩
    unfold State.enterCondition
    split
    · exact (hset _).trans (State.register_chainKeeps ..)
    · split
      · refine (hset _).trans (State.modBus_chainKeeps _ _ fun b j hf => ?_)
        rw [Bus.raise, BitVec.getLsbD_or, hf]
        rfl
      · exact hset _
  unfold State.beginStep
  split
  · refine ⟨.refl s, fun t ht => ?_⟩
    cases ht
    exact hi
  · dsimp only
    split
    · refine ⟨(hhold.trans (State.finalise_chainKeeps _ i _ _ ?_)).trans (State.releasePower_chainKeeps ..), fun t ht => ?_⟩
      · rw [hplan]
        exact hi
      · cases ht
        exact trivial
    · exact ⟨(hhold.trans (hend _)).trans (hcond _), fun _ h => nomatch h⟩

theorem State.endStep_taskKeeps {p : Plan} (hp : s.plan i = some p) (hs : p.busSlot = k) :
    s.TaskKeeps k (s.endStep k i bus p) := by
  have hrelease : s.ChainKeeps k ((s.withdrawPlan i).releasePower k) :=
    (s.withdrawPlan_chainKeeps i).trans (State.releasePower_chainKeeps ..)
  unfold State.endStep
  dsimp only
  split
  · refine ⟨hrelease.trans (State.finalise_chainKeeps _ i _ _ (hrelease.slot hp hs)), fun t ht => ?_⟩
    cases ht
    exact trivial
  · split
    · refine ⟨hrelease.trans (State.modPlan_chainKeeps _ i _ fun _ => ⟨rfl, rfl, rfl⟩), fun t ht => ?_⟩
      cases ht
      exact trivial
    · have hkeeps := hrelease.trans (State.modPlan_chainKeeps _ i (fun q : Plan => { q with current := q.current + 1 })
        fun _ => ⟨rfl, rfl, rfl⟩)
      refine ⟨hkeeps, fun t ht => ?_⟩
      cases ht
      exact hkeeps.slot hp hs

theorem planTask_taskKeeps {t : PlanTask} (hl : s.ListsAgree) (ht : t.Fits k s) : s.TaskKeeps k (planTask k t s) := by
  unfold planTask
  split
  · exact .idle s
  next bus hb =>
    cases t with
    | select => exact State.selectPlan_taskKeeps hb hl
    | start i =>
      dsimp only
      split
      · split
        · exact State.beginStep_taskKeeps _ ht
        · exact .idle s
      · exact .idle s
    | finish i =>
      dsimp only
      split
      next p hp => exact State.endStep_taskKeeps hp (ht p hp)
      next => exact .idle s

theorem runTasks_chainKeeps (fuel : Nat) : ∀ (t : PlanTask) (s : State), s.ListsAgree → t.Fits k s →
    s.ChainKeeps k (runTasks k fuel t s) := by
  induction fuel with
  | zero => exact fun _ s _ _ => .refl s
  | succ n ih =>
    intro t s hl ht
    have htask := planTask_taskKeeps hl ht
    have hlists := (planTask_keeps k t s).lists hl
    rw [runTasks]
    split
    next s' t' he =>
      rw [he] at htask hlists
      exact htask.keeps.trans (ih t' s' hlists (htask.next t' rfl))
    next s' he =>
      rw [he] at htask
      exact htask.keeps

/-- The test of the RUNNING plan's step, where lists and plans agree. -/
theorem State.testStep_chainKeeps (kinds : StepKind → Bool) (hl : s.ListsAgree) : s.ChainKeeps k (s.testStep kinds k) := by
  cases hb : s.bus k with
  | none =>
    have hsame : s.testStep kinds k = s := by simp only [State.testStep, hb]
    rw [hsame]
    exact .refl s
  | some b =>
    cases hr : s.runningPlan b with
    | none =>
      rw [State.testStep_idle hb hr]
      exact .refl s
    | some j =>
      obtain ⟨p, hp, hslot, -⟩ := (hl k b hb).plan (State.runningPlan_mem hr)
      cases hst : p.step? with
      | none =>
        rw [State.testStep_noStep hb hr hp hst]
        exact .refl s
      | some st =>
        rw [State.testStep_step hb hr hp hst]
        split
        · refine runTasks_chainKeeps _ _ s hl fun q hq => ?_
          obtain rfl : p = q := Option.some.inj (hp.symm.trans hq)
          exact hslot
        · exact .refl s

end Tasks

end Sys2Proof.Machine
end

section
/-! A count of a meter up to its booking (06 R110 to R114). -/

namespace Sys2Proof.Machine

open Sys2Proof

/-! ### The port's part -/

section Port

variable {p : Port} {d : Dir} {now e : Nat}

/-- R81: the quiet timer after a count. -/
def Port.quietAfter (p : Port) : Timer := if p.quiet = .stopped then .stopped else .running 1000 0

theorem Port.restartQuiet_eq (p : Port) : p.restartQuiet = { p with quiet := p.quietAfter } := by
  rw [Port.restartQuiet, Port.quietAfter]
  by_cases h : p.quiet = .stopped
  · rw [if_neg (Timer.not_isRunning h), if_pos h, ← h]
  · rw [if_pos (Timer.isRunning_of_ne h), if_neg h]
    rfl

/-- R108: the record of a port one of whose lines moves. -/
def Port.moved (l : MeterLine) (p : Port) : Port := p.setLine l (LineFilter.take (flipLevel (p.line l).output))

/-- R110: the direction of the count that a line makes. -/
def Port.movedDir (l : MeterLine) (p : Port) : Dir := countDir l (p.moved l).ma.output (p.moved l).mb.output

theorem Port.movedDir_cases (l : MeterLine) (p : Port) : p.movedDir l = .imp ∨ p.movedDir l = .exp := by
  rw [Port.movedDir]
  generalize (p.moved l).ma.output = a
  generalize (p.moved l).mb.output = b
  cases l <;> cases a <;> cases b <;> decide

/-- What a moving line leaves of the port. -/
theorem Port.moved_eq (l : MeterLine) (p : Port) : p.moved l = { p with ma := (p.moved l).ma, mb := (p.moved l).mb } := by
  cases l <;> rfl

/-- R114 item 1: the record with the count in the session's energy. -/
def Port.booked (d : Dir) (now : Nat) (p : Port) : Port := { p with
  lastApplied := some ⟨d, now⟩
  sessionImport := if d = .imp then min (p.sessionImport + p.energyPerCount) 4294967295 else p.sessionImport
  sessionExport := if d = .exp then min (p.sessionExport + p.energyPerCount) 4294967295 else p.sessionExport }

theorem Port.bookCount_eq (hd : d = .imp ∨ d = .exp) (now : Nat) (p : Port) : p.bookCount d now = p.booked d now := by
  rcases hd with rfl | rfl <;> rfl

/-- The record that the bus's part of a count starts from. -/
def Port.counted (d : Dir) (now : Nat) (p : Port) : Port := { p.booked d now with quiet := p.quietAfter }

theorem Port.counted_eq (hd : d = .imp ∨ d = .exp) (now : Nat) (p : Port) :
    (p.bookCount d now).restartQuiet = p.counted d now := by
  rw [Port.bookCount_eq hd, Port.restartQuiet_eq]
  rfl

theorem Port.isWrong_iff (d : Dir) (p : Port) : p.isWrong d = true ↔ p.live.dir ≠ .none ∧ p.live.dir ≠ d := by
  simp only [Port.isWrong, Bool.and_eq_true, bne_iff_ne]

/-- R113: the record after a stray count. -/
theorem Port.countStray_eq (p : Port) : p.countStray.restartQuiet = { p with
    stray := min (p.stray + 1) 65535, quiet := p.quietAfter
    flags := if p.stray = 15 then p.flags ||| PortFlag.meterStray else p.flags } := by
  have hstray : p.countStray = { p with
      stray := min (p.stray + 1) 65535
      flags := if p.stray = 15 then p.flags ||| PortFlag.meterStray else p.flags } := by
    unfold Port.countStray
    dsimp only
    split <;> rfl
  rw [Port.restartQuiet_eq, hstray]
  rfl

end Port

section Transition

variable {s : State} {n : PortNo} {l : MeterLine}

theorem State.lineMoved_eq (s : State) (n : PortNo) (l : MeterLine) :
    s.lineMoved n l (flipLevel ((s.port n).line l).output)
      = (s.putPort n ((s.port n).moved l)).count n ((s.port n).movedDir l) := by
  have hport : (s.putPort n ((s.port n).moved l)).port n = (s.port n).moved l := State.port_putPort_self s n _
  have hset : s.setPort n (Port.setLine l (LineFilter.take (flipLevel ((s.port n).line l).output)))
      = s.putPort n ((s.port n).moved l) := rfl
  unfold State.lineMoved
  dsimp only
  rw [hset, hport]
  rfl

theorem exec_count_idle (h : (s.port n).session = none) : exec (.filteredTransition n (.one l)) s = .next { s with
    ports := s.ports.set n { (s.port n).moved l with idle := min ((s.port n).idle + 1) 65535 } } := by
  have hport : (s.putPort n ((s.port n).moved l)).port n = (s.port n).moved l := State.port_putPort_self s n _
  have hnone : ((s.port n).moved l).session.isNone = true := by
    rw [Port.moved_eq]
    exact Option.isNone_iff_eq_none.2 h
  have hidle : ((s.port n).moved l).idle = (s.port n).idle := by rw [Port.moved_eq]
  rw [exec_filteredTransition_one, State.lineMoved_eq, State.count]
  simp only [hport, hnone, if_true, State.setPort, State.putPort_putPort, hidle]
  rfl

theorem exec_count_stray (h : (s.port n).session ≠ none) (hf : (s.port n).feedback = .opened) :
    exec (.filteredTransition n (.one l)) s = .next { s with ports := s.ports.set n { (s.port n).moved l with
      stray := min ((s.port n).stray + 1) 65535, quiet := (s.port n).quietAfter
      flags := if (s.port n).stray = 15 then (s.port n).flags ||| PortFlag.meterStray else (s.port n).flags } } := by
  have hport : (s.putPort n ((s.port n).moved l)).port n = (s.port n).moved l := State.port_putPort_self s n _
  have hkeep := (s.port n).moved_eq l
  have hsome : ((s.port n).moved l).session.isNone = false := by
    rw [hkeep]
    exact Option.isNone_eq_false_iff.2 (Option.isSome_iff_ne_none.2 h)
  have hopen : ((s.port n).moved l).feedback = .opened := by
    rw [hkeep]
    exact hf
  have hrecord : ((s.port n).moved l).countStray.restartQuiet = { (s.port n).moved l with
      stray := min ((s.port n).stray + 1) 65535, quiet := (s.port n).quietAfter
      flags := if (s.port n).stray = 15 then (s.port n).flags ||| PortFlag.meterStray else (s.port n).flags } := by
    rw [Port.countStray_eq, hkeep]
    rfl
  rw [exec_filteredTransition_one, State.lineMoved_eq, State.count]
  simp only [hport, hsome, Bool.false_eq_true, if_false, hopen, if_true, State.setPort, State.putPort_putPort, hrecord]
  rfl

/-- An applied count after the bus's part: the wrong-direction run moves, and a fourth in a row faults the port. -/
def State.runMoved (n : PortNo) (wrong : Bool) (u : State) : State := u.setPort n fun q => (q.restartStall u.env).moveRun wrong

theorem exec_count_applied (h : (s.port n).session ≠ none) (hf : (s.port n).feedback = .closed) :
    exec (.filteredTransition n (.one l)) s = .next
      ((((s.putPort n (((s.port n).moved l).counted ((s.port n).movedDir l) s.now)).applyToSession (s.port n).boundSlot
        ((s.port n).movedDir l) (s.port n).energyPerCount).runMoved n ((s.port n).isWrong ((s.port n).movedDir l))).checkRun n
        ((s.port n).isWrong ((s.port n).movedDir l))) := by
  have hport : (s.putPort n ((s.port n).moved l)).port n = (s.port n).moved l := State.port_putPort_self s n _
  have hkeep := (s.port n).moved_eq l
  have hsome : ((s.port n).moved l).session.isNone = false := by
    rw [hkeep]
    exact Option.isNone_eq_false_iff.2 (Option.isSome_iff_ne_none.2 h)
  have hopen : ((s.port n).moved l).feedback ≠ .opened := by
    rw [hkeep]
    exact fun hx => Contact.noConfusion (hf.symm.trans hx)
  have hslot : ((s.port n).moved l).boundSlot = (s.port n).boundSlot := by rw [hkeep]; rfl
  have henergy : ((s.port n).moved l).energyPerCount = (s.port n).energyPerCount := by rw [hkeep]
  have hwrong (d : Dir) : ((s.port n).moved l).isWrong d = (s.port n).isWrong d := by rw [hkeep]; rfl
  have hnow : (s.putPort n ((s.port n).moved l)).now = s.now := rfl
  rw [exec_filteredTransition_one, State.lineMoved_eq, State.count]
  simp only [hport, hsome, Bool.false_eq_true, if_false, if_neg hopen]
  rw [State.appliedCount]
  simp only [hport, hslot, henergy, hwrong, hnow, State.setPort, State.putPort_putPort,
    Port.counted_eq ((s.port n).movedDir_cases l)]
  rfl

end Transition

/-! ### The bus's part: what is booked (R114 items 2 to 4) -/

section Bus

variable {b : Bus} {d : Dir} {e : Nat}

/-- R114 item 3: the SoE after a count. -/
def Bus.soeAfter (d : Dir) (e : Nat) (b : Bus) : Option Nat := b.soe.map fun y => if d = .imp then min (y + e) b.capacity else y - e

/-- R115: an export count exhausts the allowance. -/
abbrev Bus.Exhausts (d : Dir) (e : Nat) (b : Bus) : Prop :=
  d = .exp ∧ b.exportUsed < b.allowance ∧ b.allowance ≤ min (b.exportUsed + e) 4294967295

/-- R114 items 3 and 4: the record after a count. -/
def Bus.counted (d : Dir) (e : Nat) (b : Bus) : Bus := { b with
  soe := b.soeAfter d e
  flags := b.flags ||| (if d = .imp ∧ b.soe ≠ none ∧ b.capacity < b.soe.getD 0 + e then BusFlag.soeClamped else 0)
    ||| (if b.Exhausts d e then BusFlag.allowanceUsed else 0)
  source := if b.soe = none then b.source else .integrated
  exportUsed := if d = .exp then min (b.exportUsed + e) 4294967295 else b.exportUsed }

theorem Bus.counted_imp (e : Nat) (b : Bus) : b.moveSoe .imp e = b.counted .imp e := by
  have hflags : (if b.Exhausts .imp e then BusFlag.allowanceUsed else 0) = 0#10 := if_neg fun h => Dir.noConfusion h.1
  have hused : (if Dir.imp = .exp then min (b.exportUsed + e) 4294967295 else b.exportUsed) = b.exportUsed :=
    if_neg Dir.noConfusion
  simp only [Bus.counted, hflags, hused, BitVec.or_zero]
  cases hs : b.soe with
  | none =>
    have hsame : ({ b with soe := none } : Bus) = b := by rw [← hs]
    simp [Bus.moveSoe, hs, Bus.soeAfter, hsame]
  | some y =>
    have hor : (if b.capacity < y + e then b.flags ||| BusFlag.soeClamped else b.flags)
        = b.flags ||| if b.capacity < y + e then BusFlag.soeClamped else 0#10 := by
      split
      · rfl
      · exact (BitVec.or_zero).symm
    simp [Bus.moveSoe, hs, Bus.soeAfter, Bus.raiseIf_eq, hor]

theorem Bus.moveSoe_exp_rest (e : Nat) (b : Bus) : (b.moveSoe .exp e).exportUsed = b.exportUsed
    ∧ (b.moveSoe .exp e).allowance = b.allowance ∧ (b.moveSoe .exp e).flags = b.flags
    ∧ (b.moveSoe .exp e).location = b.location := by
  cases hs : b.soe <;> simp only [Bus.moveSoe, hs, and_self]

/-- R115: an applied export count takes the rest of the allowance. -/
abbrev Bus.UsesUp (e : Nat) (c : Bus) : Prop := c.exportUsed < c.allowance ∧ c.allowance ≤ min (c.exportUsed + e) 4294967295

/-- R34, R115: the record after an applied export count. -/
def Bus.useUp (e : Nat) (c : Bus) : Bus := { c with
  exportUsed := min (c.exportUsed + e) 4294967295
  flags := if c.UsesUp e then c.flags ||| BusFlag.allowanceUsed else c.flags }

theorem Bus.usesUp_moveSoe (e : Nat) (b : Bus) : (b.moveSoe .exp e).UsesUp e ↔ b.Exhausts .exp e := by
  obtain ⟨hused, hallow, -, -⟩ := b.moveSoe_exp_rest e
  rw [Bus.UsesUp, hused, hallow, Bus.Exhausts, and_iff_right rfl]

theorem Bus.counted_exp (e : Nat) (b : Bus) : b.counted .exp e = (b.moveSoe .exp e).useUp e := by
  have hflags : (if (b.moveSoe .exp e).UsesUp e then b.flags ||| BusFlag.allowanceUsed else b.flags)
      = b.flags ||| if b.Exhausts .exp e then BusFlag.allowanceUsed else 0#10 := by
    rw [if_congr (b.usesUp_moveSoe e) rfl rfl]
    split
    · rfl
    · exact (BitVec.or_zero).symm
  obtain ⟨hused, hallow, hf, -⟩ := b.moveSoe_exp_rest e
  rw [Bus.useUp, hf, hflags, hused]
  cases hs : b.soe with
  | none => simp [Bus.moveSoe, hs, Bus.soeAfter, Bus.counted]
  | some y => simp [Bus.moveSoe, hs, Bus.soeAfter, Bus.counted]

end Bus

section Booking

variable {s : State} {k e : Nat} {d : Dir} {b : Bus} {n : PortNo} (hb : s.bus k = some b)

/-- R114 items 2 to 4: the part of a count on a bus before the test of the step. -/
def State.countBooked (k : Nat) (d : Dir) (e : Nat) (s : State) : State :=
  if d = .exp then ((s.bookPlan k d e).modBus k (Bus.moveSoe d e)).useAllowance k e
  else (s.bookPlan k d e).modBus k (Bus.moveSoe d e)

theorem State.applyToBus_eq (k : Nat) (d : Dir) (e : Nat) (s : State) :
    s.applyToBus k d e = ((s.countBooked k d e).testStep StepKind.movesEnergy k).readinessCount k := rfl

include hb

theorem State.bookPlan_rest : ∃ plans, s.bookPlan k d e = { s with plans := plans } := by
  cases hr : s.runningPlan b with
  | none => exact ⟨s.plans, by simp only [State.bookPlan, hb, hr]⟩
  | some j =>
    obtain ⟨p, hp, -⟩ := State.runningPlan_plan hr
    refine ⟨s.plans.put j (p.book d e), ?_⟩
    simp only [State.bookPlan, hb, hr, State.modPlan_some hp]
    rfl

theorem State.bookPlan_plan (j : Nat) : (s.bookPlan k d e).plan j =
    if s.runningPlan b = some j then (s.plan j).map (Plan.book d e) else s.plan j := by
  cases hr : s.runningPlan b with
  | none => simp only [State.bookPlan, hb, hr, reduceCtorEq, if_false]
  | some i =>
    simp only [State.bookPlan, hb, hr, Option.some.injEq]
    rw [State.plan_modPlan]
    exact if_congr eq_comm rfl rfl

variable (hl : b.location = some n)

include hl

/-- R115: export used after a count of export, and the export that falls with an exhausted allowance. -/
theorem State.useAllowance_eq : s.useAllowance k e = { s with
    buses := s.buses.put k (b.useUp e)
    ports := if b.UsesUp e then s.ports.set n (Port.settle s.env (s.port n) (s.port n).zeroExport) else s.ports } := by
  have hused : addWord b.exportUsed e = min (b.exportUsed + e) 4294967295 := rfl
  simp only [State.useAllowance, hb, hused]
  by_cases hx : b.UsesUp e
  · have hrecord : { b with exportUsed := min (b.exportUsed + e) 4294967295 }.raise BusFlag.allowanceUsed = b.useUp e := by
      rw [Bus.useUp, if_pos hx]
      rfl
    have hbus : (s.putBus k (b.useUp e)).bus k = some (b.useUp e) := State.bus_putBus_self s k _
    rw [if_pos hx, if_pos hx, hrecord, State.withdrawExport_at hbus hl]
    rfl
  · have hrecord : { b with exportUsed := min (b.exportUsed + e) 4294967295 } = b.useUp e := by
      rw [Bus.useUp, if_neg hx]
    rw [if_neg hx, if_neg hx, hrecord]
    rfl

/-- What a count books: of the ports the export that falls, of the buses the record, and the plan. -/
theorem State.countBooked_eq (hd : d = .imp ∨ d = .exp) : ∃ plans, (s.bookPlan k d e).plans = plans
    ∧ s.countBooked k d e = { s with
      plans := plans, buses := s.buses.put k (b.counted d e)
      ports := if b.Exhausts d e then s.ports.set n (Port.settle s.env (s.port n) (s.port n).zeroExport) else s.ports } := by
  obtain ⟨plans, hplans⟩ := State.bookPlan_rest (d := d) (e := e) hb
  refine ⟨plans, by rw [hplans], ?_⟩
  have hb' : State.bus { s with plans := plans } k = some b := hb
  rw [State.countBooked, hplans, State.modBus_some hb']
  rcases hd with rfl | rfl
  · rw [if_neg Dir.noConfusion, if_neg fun h => Dir.noConfusion h.1, Bus.counted_imp]
    rfl
  · obtain ⟨-, -, -, hloc⟩ := b.moveSoe_exp_rest e
    have hput : (State.putBus { s with plans := plans } k (b.moveSoe .exp e)).bus k = some (b.moveSoe .exp e) :=
      State.bus_putBus_self _ k _
    have htwice : (s.buses.put k (b.moveSoe .exp e)).put k ((b.moveSoe .exp e).useUp e)
        = s.buses.put k ((b.moveSoe .exp e).useUp e) := Table.put_put ..
    rw [if_pos rfl, State.useAllowance_eq hput (hloc.trans hl), Bus.counted_exp, ← htwice]
    simp only [if_congr (b.usesUp_moveSoe e) rfl rfl]
    rfl

end Booking

end Sys2Proof.Machine
end

section
/-! What an applied count keeps, whatever becomes of the bus, and what the fault of a fourth wrong-direction count in a
row keeps (06 R114, R117). -/

namespace Sys2Proof.Machine

open Sys2Proof

/-! ### What the bus's part keeps -/

section Drift

variable {s t u : State} {k e : Nat} {d : Dir}

/-- The ports change in timers and setpoints alone. -/
structure State.Drifts (s t : State) : Prop where
  port : ∀ m, t.port m = ((s.port m).timersOf (t.port m)).setpointOf (t.port m)

theorem State.Drifts.refl (s : State) : s.Drifts s := ⟨fun _ => rfl⟩

theorem State.Drifts.trans (h : s.Drifts t) (k : t.Drifts u) : s.Drifts u := by
  refine ⟨fun m => ?_⟩
  have hs := h.port m
  have ht := k.port m
  generalize u.port m = r at *
  rw [hs] at ht
  exact ht

theorem State.Drifts.of_ports (h : t.ports = s.ports) : s.Drifts t := ⟨fun m => by rw [State.port_of_ports h]; rfl⟩

theorem State.withdrawExport_drifts (s : State) (i : Nat) : s.Drifts (s.withdrawExport i) := by
  cases hb : s.bus i with
  | none =>
    have hsame : s.withdrawExport i = s := by simp only [State.withdrawExport, hb]
    rw [hsame]
    exact .refl s
  | some b =>
    cases hl : b.location with
    | none => rw [State.withdrawExport_away hb hl]; exact .refl s
    | some n =>
      refine ⟨fun m => ?_⟩
      have hport : (s.withdrawExport i).port m =
          if m = n then Port.settle s.env (s.port m) (s.port m).zeroExport else s.port m := by
        rw [State.withdrawExport_at hb hl]
        by_cases hm : m = n
        · rw [if_pos hm, hm]
          exact State.port_putPort_self s n _
        · rw [if_neg hm]
          exact State.port_putPort_ne s _ hm
      rw [hport]
      split
      · exact Port.settle_zeroExport_setpoint s.env (s.port m)
      · rfl

theorem State.withdrawExport_bus (s : State) (i j : Nat) : (s.withdrawExport i).bus j = s.bus j := by
  cases hb : s.bus i with
  | none => simp only [State.withdrawExport, hb]
  | some b =>
    cases hl : b.location with
    | none => rw [State.withdrawExport_away hb hl]
    | some n => rw [State.withdrawExport_at hb hl]; rfl

theorem State.bookPlan_beside (s : State) (i : Nat) (d : Dir) (e : Nat) : (s.bookPlan i d e).ports = s.ports
    ∧ (s.bookPlan i d e).buses = s.buses := by
  cases hb : s.bus i with
  | none => simp only [State.bookPlan, hb, and_self]
  | some b =>
    obtain ⟨plans, h⟩ := State.bookPlan_rest (d := d) (e := e) hb
    rw [h]
    exact ⟨rfl, rfl⟩

theorem State.useAllowance_drifts (s : State) (i e : Nat) : s.Drifts (s.useAllowance i e) := by
  unfold State.useAllowance
  split
  · dsimp only
    split
    · exact (State.Drifts.of_ports (s := s) (t := s.putBus i _) rfl).trans (State.withdrawExport_drifts _ i)
    · exact .of_ports rfl
  · exact .refl s

theorem State.useAllowance_bus (s : State) (i e : Nat) {m : Nat} (hm : m ≠ i) : (s.useAllowance i e).bus m = s.bus m := by
  unfold State.useAllowance
  split
  · dsimp only
    split
    · rw [State.withdrawExport_bus]
      exact (State.bus_putBus s i m _).trans (if_neg hm)
    · exact (State.bus_putBus s i m _).trans (if_neg hm)
  · rfl

theorem State.readinessCount_drifts (s : State) (i : Nat) : s.Drifts (s.readinessCount i) := by
  have hmod : s.Drifts (s.modBus i (Bus.closeDeficit s.now s.site.live.guardTime)) := .of_ports (modBus_ports ..)
  unfold State.readinessCount
  dsimp only
  split
  · split
    · exact hmod.trans (State.withdrawExport_drifts _ i)
    · exact hmod
  · exact hmod

theorem State.readinessCount_bus (s : State) (i : Nat) {m : Nat} (hm : m ≠ i) : (s.readinessCount i).bus m = s.bus m := by
  have hmod : (s.modBus i (Bus.closeDeficit s.now s.site.live.guardTime)).bus m = s.bus m :=
    (State.bus_modBus s i m _).trans (if_neg hm)
  unfold State.readinessCount
  dsimp only
  split
  · split
    · exact (State.withdrawExport_bus _ i m).trans hmod
    · exact hmod
  · exact hmod

theorem State.testStep_drifts (s : State) (kinds : StepKind → Bool) (i : Nat) : s.Drifts (s.testStep kinds i) := by
  cases hb : s.bus i with
  | none =>
    have hsame : s.testStep kinds i = s := by simp only [State.testStep, hb]
    rw [hsame]
    exact .refl s
  | some b => exact ⟨(State.testStep_chained kinds s b hb).port⟩

theorem State.countBooked_drifts (s : State) (k : Nat) (d : Dir) (e : Nat) : s.Drifts (s.countBooked k d e) := by
  have hbook : s.Drifts ((s.bookPlan k d e).modBus k (Bus.moveSoe d e)) :=
    .of_ports ((modBus_ports ..).trans (s.bookPlan_beside k d e).1)
  unfold State.countBooked
  split
  · exact hbook.trans (State.useAllowance_drifts _ k e)
  · exact hbook

theorem State.countBooked_bus (s : State) (k : Nat) (d : Dir) (e : Nat) {m : Nat} (hm : m ≠ k) :
    (s.countBooked k d e).bus m = s.bus m := by
  have hbook : ((s.bookPlan k d e).modBus k (Bus.moveSoe d e)).bus m = s.bus m :=
    ((State.bus_modBus _ k m _).trans (if_neg hm)).trans (congrArg (Table.get · m) (s.bookPlan_beside k d e).2)
  unfold State.countBooked
  split
  · exact (State.useAllowance_bus _ k e hm).trans hbook
  · exact hbook

theorem State.countBooked_keeps (s : State) (k : Nat) (d : Dir) (e : Nat) : s.Keeps (s.countBooked k d e) := by
  have hbook := (s.bookPlan_keeps k d e).trans (State.Keeps.modBus (s := s.bookPlan k d e) k _ fun b => Bus.moveSoe_still d e b)
  unfold State.countBooked
  split
  · exact hbook.trans (State.useAllowance_keeps _ k e)
  · exact hbook

theorem State.applyToSession_drifts (s : State) (o : Option Nat) (d : Dir) (e : Nat) :
    s.Drifts (s.applyToSession o d e) := by
  cases o with
  | none => exact .refl s
  | some k => exact ((s.countBooked_drifts k d e).trans (State.testStep_drifts _ _ k)).trans (State.readinessCount_drifts _ k)

theorem State.applyToSession_bus (hl : s.ListsAgree) {o : Option Nat} {m : Nat} (hm : o ≠ some m) :
    (s.applyToSession o d e).bus m = s.bus m := by
  cases o with
  | none => rfl
  | some k =>
    have hne : m ≠ k := fun h => hm (by rw [h])
    have hlists := (s.countBooked_keeps k d e).lists hl
    exact ((State.readinessCount_bus _ k hne).trans
      ((State.testStep_chainKeeps StepKind.movesEnergy hlists).bus m hne)).trans (s.countBooked_bus k d e hne)

end Drift

/-! ### The wrong-direction run -/

section Run

variable {u : State} {n : PortNo} {wrong : Bool}

theorem Port.restartStall_eq (e : PortEnv) (q : Port) : q.restartStall e = { q with stall := (q.restartStall e).stall } := by
  rw [Port.restartStall]
  split <;> rfl

/-- What the restart of the stall timer and the run leave of a port. -/
theorem Port.runMoved_eq (e : PortEnv) (wrong : Bool) (q : Port) : (q.restartStall e).moveRun wrong =
    { q.timersOf ((q.restartStall e).moveRun wrong) with
      wrongRun := if wrong then min (q.wrongRun + 1) 4 else 0 } := by
  have h := q.restartStall_eq e
  rw [Port.moveRun]
  generalize q.restartStall e = r at *
  rw [h]
  rfl

theorem State.runMoved_eq (n : PortNo) (wrong : Bool) (u : State) : u.runMoved n wrong = { u with
    ports := u.ports.set n (((u.port n).restartStall u.env).moveRun wrong) } := rfl

theorem State.runMoved_port (n : PortNo) (wrong : Bool) (u : State) :
    (u.runMoved n wrong).port n = ((u.port n).restartStall u.env).moveRun wrong := State.port_putPort_self u n _

theorem State.runMoved_other (n : PortNo) (wrong : Bool) (u : State) {m : PortNo} (hm : m ≠ n) :
    (u.runMoved n wrong).port m = u.port m := State.port_putPort_ne u _ hm

theorem State.checkRun_stays (h : ¬ (wrong = true ∧ (u.port n).wrongRun = 4)) : u.checkRun n wrong = u := if_neg h

theorem State.checkRun_faults (h : wrong = true ∧ (u.port n).wrongRun = 4) :
    u.checkRun n wrong = u.portFault n .meterDirection := if_pos h

theorem PortState.takes_fault {st : PortState} (h : st.inSession = true) : st ≠ .offline ∧ st ≠ .faulted := by
  constructor
  · rintro rfl
    exact absurd h (by decide)
  · rintro rfl
    exact absurd h (by decide)

/-- What the check of the wrong-direction run keeps of the count, whether it faults the port or not. -/
structure State.KeepsCount (n : PortNo) (x t : State) : Prop where
  lines : (t.port n).ma = (x.port n).ma ∧ (t.port n).mb = (x.port n).mb
  count : (t.port n).sessionImport = (x.port n).sessionImport ∧ (t.port n).sessionExport = (x.port n).sessionExport
    ∧ (t.port n).lastApplied = (x.port n).lastApplied ∧ (t.port n).stray = (x.port n).stray
    ∧ (t.port n).wrongRun = (x.port n).wrongRun
  dir   : (x.port n).held.dir ≠ .exp → (t.port n).held.dir ≠ .exp
  buses : ∀ k, (x.port n).boundSlot ≠ some k → t.bus k = x.bus k
  bus   : ∀ k b, (x.port n).boundSlot = some k → x.bus k = some b → ∃ c, t.bus k = some c
    ∧ c.soe = b.soe ∧ c.source = b.source ∧ c.exportUsed = b.exportUsed
    ∧ ∀ i, b.flags.getLsbD i = true → c.flags.getLsbD i = true
  plan  : ∀ j p, x.plan j = some p → ∃ q, t.plan j = some q ∧ q.imported = p.imported ∧ q.exported = p.exported

theorem State.KeepsCount.refl (n : PortNo) (x : State) : x.KeepsCount n x where
  lines := ⟨rfl, rfl⟩
  count := ⟨rfl, rfl, rfl, rfl, rfl⟩
  dir h := h
  buses _ _ := rfl
  bus _ b _ h := ⟨b, h, rfl, rfl, rfl, fun _ hf => hf⟩
  plan _ p h := ⟨p, h, rfl, rfl⟩

/-- The flags of a bus's record rise at a session end. -/
theorem Bus.AfterSession.flags_rise {b c : Bus} (h : b.AfterSession c) {i : Nat} (hi : b.flags.getLsbD i = true) :
    c.flags.getLsbD i = true := by
  by_cases hd : c.departure = b.departure
  · by_cases hp : ∃ d, b.departure = some d ∧ d.state = .pending
    · obtain ⟨-, -, hf⟩ := h.away hd hp
      rw [hf, BitVec.getLsbD_or, hi]
      rfl
    · obtain ⟨-, -, hf⟩ := h.kept hd fun d hb hs => hp ⟨d, hb, hs⟩
      rw [hf]
      exact hi
  · obtain ⟨-, -, hf⟩ := h.taken hd
    rw [hf, BitVec.getLsbD_or, BitVec.getLsbD_or, hi]
    rfl

/-- The lines and the last count of a port survive its fault. -/
theorem State.portFault_lines {x : State} {code : PortFault} (ho : (x.port n).state ≠ .offline)
    (hf : (x.port n).state ≠ .faulted) : ((x.portFault n code).port n).ma = (x.port n).ma
      ∧ ((x.portFault n code).port n).mb = (x.port n).mb
      ∧ ((x.portFault n code).port n).lastApplied = (x.port n).lastApplied := by
  have hport : (x.portFault n code).port n
      = Port.settle x.env (x.port n) (Port.faultInto code x.now (x.port n).dropSession) := by
    rw [State.portFault, if_neg (not_or.2 ⟨ho, hf⟩), State.endSession_port]
  rw [hport, Port.settle_eq, Port.faultInto_eq, Port.dropSession_rest]
  exact ⟨rfl, rfl, rfl⟩

theorem State.PortFaults.keepsCount {x t : State} {code : PortFault} (h : x.PortFaults n code t)
    (ht : t = x.portFault n code) (hs : (x.port n).session ≠ none) (ho : (x.port n).state ≠ .offline)
    (hf : (x.port n).state ≠ .faulted) : x.KeepsCount n t := by
  have hends := h.ends hs
  obtain ⟨-, hstray, hrun, himp, hexp⟩ := hends.figures
  obtain ⟨hma, hmb, hlast⟩ := State.portFault_lines (code := code) ho hf
  rw [← ht] at hma hmb hlast
  refine ⟨⟨hma, hmb⟩, ⟨himp, hexp, hlast, hstray, hrun⟩, fun _ => ?_, hends.buses, fun k b hk hb => ?_, fun j p hp => ?_⟩
  · rw [h.power.held]
    exact Dir.noConfusion
  · obtain ⟨c, hc, hrest, -, -, -, hafter, -⟩ := hends.bus k b hk hb
    refine ⟨c, hc, by rw [hrest], by rw [hrest], by rw [hrest], fun i hi => hafter.flags_rise ?_⟩
    rw [Bus.raise, BitVec.getLsbD_or, hi]
    rfl
  · by_cases hr : ∃ i b, (x.port n).boundSlot = some i ∧ x.bus i = some b ∧ x.runningPlan b = some j
    · obtain ⟨i, b, hi, hb, hj⟩ := hr
      exact ⟨_, (hends.plan i b j p hi hb hj hp).1, rfl, rfl⟩
    · exact ⟨p, (hends.plans j fun i b hi hb hj => hr ⟨i, b, hi, hb, hj⟩).trans hp, rfl, rfl⟩

end Run

end Sys2Proof.Machine
end

section
/-! An applied count on a bound bus, stage by stage (06 R114, 07 R130). -/

namespace Sys2Proof.Machine

open Sys2Proof

/-! ### The test of a step after a count -/

section Test

variable {s v : State} {k j : Nat} {b c : Bus} {kinds : StepKind → Bool}

/-- The test ends the RUNNING plan's step. -/
theorem State.testStep_ends {p : Plan} {st : PlanStep} (hb : v.bus k = some c) (hr : v.runningPlan c = some j)
    (hp : v.plan j = some p) (hst : p.step? = some st) (hk : kinds st.kind = true) (he : stepEnded v.now c st = true) :
    v.testStep kinds k = runTasks k 256 (.finish j) v := by
  rw [State.testStep_step hb hr hp hst, if_pos ⟨hk, he⟩]
  rfl

/-- The test leaves the RUNNING plan's step. -/
theorem State.testStep_leaves (hb : v.bus k = some c) (hn : ∀ j p st, v.runningPlan c = some j → v.plan j = some p →
    p.step? = some st → kinds st.kind = true → ¬ stepEnded v.now c st = true) : v.testStep kinds k = v := by
  cases hr : v.runningPlan c with
  | none => exact State.testStep_idle hb hr
  | some j =>
    obtain ⟨p, hp, -⟩ := State.runningPlan_plan hr
    cases hst : p.step? with
    | none => exact State.testStep_noStep hb hr hp hst
    | some st =>
      rw [State.testStep_step hb hr hp hst, if_neg]
      exact fun hx => hn j p st hr hp hst hx.1 hx.2

/-- R116: the step that a count ends. -/
def State.CountEnds (s : State) (b : Bus) (soe : Option Nat) (j : Nat) : Prop := ∃ pl st y, s.plan j = some pl
  ∧ pl.step? = some st ∧ soe = some y ∧ ((st.kind = .importTo ∧ st.value ≤ y)
    ∨ (st.kind = .exportTo ∧ (y ≤ st.value ∨ y ≤ b.dischargeFloor)))

theorem stepEnded_moves {now : Nat} {st : PlanStep} : (st.kind.movesEnergy = true ∧ stepEnded now c st = true) ↔
    ∃ y, c.soe = some y ∧ ((st.kind = .importTo ∧ st.value ≤ y)
      ∨ (st.kind = .exportTo ∧ (y ≤ st.value ∨ y ≤ c.dischargeFloor))) := by
  cases hk : st.kind with
  | importTo => simp [StepKind.movesEnergy, stepEnded_importTo hk]
  | exportTo => simp [StepKind.movesEnergy, stepEnded_exportTo hk]
  | holdUntil => simp [StepKind.movesEnergy]

end Test

/-! ### What is booked -/

section Booked

variable {u : State} {k e : Nat} {d : Dir} {b : Bus} {n : PortNo} (hb : u.bus k = some b)

theorem Plan.book_eq (hd : d = .imp ∨ d = .exp) (e : Nat) (p : Plan) : p.book d e = { p with
    imported := if d = .imp then min (p.imported + e) 4294967295 else p.imported
    exported := if d = .exp then min (p.exported + e) 4294967295 else p.exported } := by
  rcases hd with rfl | rfl <;> rfl

theorem Plan.book_step (d : Dir) (e : Nat) (p : Plan) : (p.book d e).step? = p.step? ∧ (p.book d e).state = p.state := by
  cases d <;> exact ⟨rfl, rfl⟩

include hb

theorem State.countBooked_plan (hl : b.location = some n) (hd : d = .imp ∨ d = .exp) (j : Nat) :
    (u.countBooked k d e).plan j = if u.runningPlan b = some j then (u.plan j).map (Plan.book d e) else u.plan j := by
  obtain ⟨plans, hplans, heq⟩ := State.countBooked_eq (e := e) hb hl hd
  rw [← State.bookPlan_plan hb, heq]
  exact congrArg (Table.get · j) hplans.symm

theorem State.countBooked_running (hl : b.location = some n) (hd : d = .imp ∨ d = .exp) :
    (u.countBooked k d e).runningPlan (b.counted d e) = u.runningPlan b := by
  have hrun (j : Nat) : (u.countBooked k d e).isRunning j = u.isRunning j := by
    rw [Bool.eq_iff_iff, State.isRunning_iff, State.isRunning_iff, State.countBooked_plan hb hl hd]
    split
    · cases hp : u.plan j with
      | none => simp
      | some p => simp [(p.book_step d e).2]
    · rfl
  have hlist : (b.counted d e).listedPlans = b.listedPlans := rfl
  rw [State.runningPlan_eq, State.runningPlan_eq, hlist, funext hrun]

theorem State.countBooked_port (hl : b.location = some n) (hd : d = .imp ∨ d = .exp) : (u.countBooked k d e).port n =
    if b.Exhausts d e then Port.settle u.env (u.port n) (u.port n).zeroExport else u.port n := by
  obtain ⟨plans, -, heq⟩ := State.countBooked_eq (e := e) hb hl hd
  rw [heq]
  split
  · exact State.port_putPort_self u n _
  · rfl

theorem State.countBooked_other (hl : b.location = some n) (hd : d = .imp ∨ d = .exp) {m : PortNo} (hm : m ≠ n) :
    (u.countBooked k d e).port m = u.port m := by
  obtain ⟨plans, -, heq⟩ := State.countBooked_eq (e := e) hb hl hd
  rw [heq]
  split
  · exact State.port_putPort_ne u _ hm
  · rfl

theorem State.countBooked_rest (hl : b.location = some n) (hd : d = .imp ∨ d = .exp) : u.countBooked k d e = { u with
    ports := (u.countBooked k d e).ports, buses := (u.countBooked k d e).buses, plans := (u.countBooked k d e).plans } := by
  obtain ⟨plans, -, heq⟩ := State.countBooked_eq (e := e) hb hl hd
  rw [heq]

theorem State.countBooked_busSelf (hl : b.location = some n) (hd : d = .imp ∨ d = .exp) :
    (u.countBooked k d e).bus k = some (b.counted d e) := by
  obtain ⟨plans, -, heq⟩ := State.countBooked_eq (e := e) hb hl hd
  rw [heq]
  exact Table.get_put_self ..

/-- The step of the RUNNING plan that a count ends, in the state with the count booked. -/
theorem State.countBooked_ends (hl : b.location = some n) (hd : d = .imp ∨ d = .exp) {j : Nat}
    (hr : u.runningPlan b = some j) (he : u.CountEnds b (b.soeAfter d e) j) :
    (u.countBooked k d e).testStep StepKind.movesEnergy k = runTasks k 256 (.finish j) (u.countBooked k d e) := by
  obtain ⟨pl, st, y, hp, hst, hy, hends⟩ := he
  have hplan : (u.countBooked k d e).plan j = some (pl.book d e) := by
    rw [State.countBooked_plan hb hl hd, if_pos hr, hp]
    rfl
  have hmoves := (stepEnded_moves (c := b.counted d e) (now := (u.countBooked k d e).now)).2 ⟨y, hy, hends⟩
  exact State.testStep_ends (State.countBooked_busSelf hb hl hd) ((State.countBooked_running hb hl hd).trans hr) hplan
    ((pl.book_step d e).1.trans hst) hmoves.1 hmoves.2

theorem State.countBooked_stays (hl : b.location = some n) (hd : d = .imp ∨ d = .exp)
    (hn : ∀ j, u.runningPlan b = some j → ¬ u.CountEnds b (b.soeAfter d e) j) :
    (u.countBooked k d e).testStep StepKind.movesEnergy k = u.countBooked k d e := by
  refine State.testStep_leaves (State.countBooked_busSelf hb hl hd) fun j p st hr hp hst hk he => ?_
  rw [State.countBooked_running hb hl hd] at hr
  rw [State.countBooked_plan hb hl hd, if_pos hr] at hp
  obtain ⟨pl, hpl, rfl⟩ := Option.map_eq_some_iff.1 hp
  obtain ⟨y, hy, hends⟩ := stepEnded_moves.1 ⟨hk, he⟩
  exact hn j hr ⟨pl, st, y, hpl, (pl.book_step d e).1.symm.trans hst, hy, hends⟩

end Booked

/-! ### The readiness after a count (R130) -/

section Readiness

variable {w : State} {k now g : Nat} {c : Bus} {n : PortNo}

/-- R130: the count closes the deficit of the bus. -/
def Bus.Closes (c : Bus) : Prop := ∃ dep y, c.departure = some dep ∧ dep.state = .pending ∧ c.soe = some y ∧ dep.eReq ≤ y
  ∧ (c.readiness = .onTrack ∨ c.readiness = .atRisk ∨ c.readiness = .late)

theorem Bus.closeDeficit_closes (h : c.Closes) {dep : Departure} (hd : c.departure = some dep) : c.closeDeficit now g = { c with
    readiness := .ready, slack := some (clampSlack ((dep.tDep : Int) - (now : Int) - (g : Int)))
    flags := c.flags ||| BusFlag.readiness } := by
  obtain ⟨dep', y, hd', hp, hs, hle, hr⟩ := h
  obtain rfl : dep' = dep := Option.some.inj (hd'.symm.trans hd)
  have hr' : c.readiness = .atRisk ∨ c.readiness = .onTrack ∨ c.readiness = .late := by tauto
  have hne : c.readiness ≠ .ready := by rcases hr with h | h | h <;> rw [h] <;> exact Readiness.noConfusion
  have hset : c.closeDeficit now g = c.setReadiness .ready
      (some (clampSlack ((dep'.tDep : Int) - (now : Int) - (g : Int)))) := by
    simp only [Bus.closeDeficit, hd, hs]
    exact if_pos ⟨hp, hr', hle⟩
  rw [hset, Bus.setReadiness_changed, if_neg hne]

theorem Bus.closeDeficit_stays (h : ¬ c.Closes) : c.closeDeficit now g = c := by
  cases hd : c.departure with
  | none => simp only [Bus.closeDeficit, hd]
  | some dep =>
    cases hs : c.soe with
    | none => simp only [Bus.closeDeficit, hd, hs]
    | some y =>
      simp only [Bus.closeDeficit, hd, hs]
      exact if_neg fun hx => h ⟨dep, y, hd, hx.1, hs, hx.2.2, by tauto⟩

theorem Bus.closeDeficit_keeps (now g : Nat) (c : Bus) : (c.closeDeficit now g).location = c.location
    ∧ (c.closeDeficit now g).atFloor = c.atFloor ∧ (c.closeDeficit now g).soe = c.soe
    ∧ (c.closeDeficit now g).source = c.source ∧ (c.closeDeficit now g).exportUsed = c.exportUsed
    ∧ ∀ i, c.flags.getLsbD i = true → (c.closeDeficit now g).flags.getLsbD i = true := by
  by_cases h : c.Closes
  · obtain ⟨dep, y, hd, -⟩ := id h
    rw [Bus.closeDeficit_closes h hd]
    refine ⟨rfl, rfl, rfl, rfl, rfl, fun i hi => ?_⟩
    dsimp only
    rw [BitVec.getLsbD_or, hi]
    rfl
  · rw [Bus.closeDeficit_stays h]
    exact ⟨rfl, rfl, rfl, rfl, rfl, fun _ hi => hi⟩

theorem Bus.atFloor_iff (c : Bus) : c.atFloor = true ↔ ∃ y, c.soe = some y ∧ y ≤ c.dischargeFloor := by
  cases hs : c.soe <;> simp [Bus.atFloor, hs]

theorem State.readinessCount_eq (hw : w.bus k = some c) (hl : c.location = some n) : w.readinessCount k = { w with
    buses := w.buses.put k (c.closeDeficit w.now w.site.live.guardTime)
    ports := if c.atFloor then w.ports.set n (Port.settle w.env (w.port n) (w.port n).zeroExport) else w.ports } := by
  obtain ⟨hloc, hfloor, -⟩ := c.closeDeficit_keeps w.now w.site.live.guardTime
  have hput : (w.putBus k (c.closeDeficit w.now w.site.live.guardTime)).bus k
      = some (c.closeDeficit w.now w.site.live.guardTime) := State.bus_putBus_self w k _
  simp only [State.readinessCount, State.modBus_some hw, hput, hfloor]
  split
  · rw [State.withdrawExport_at hput (hloc.trans hl)]
    rfl
  · rfl

theorem State.readinessCount_port (hw : w.bus k = some c) (hl : c.location = some n) : (w.readinessCount k).port n =
    if c.atFloor then Port.settle w.env (w.port n) (w.port n).zeroExport else w.port n := by
  rw [State.readinessCount_eq hw hl]
  split
  · exact State.port_putPort_self w n _
  · rfl

theorem State.readinessCount_other (hw : w.bus k = some c) (hl : c.location = some n) {m : PortNo} (hm : m ≠ n) :
    (w.readinessCount k).port m = w.port m := by
  rw [State.readinessCount_eq hw hl]
  split
  · exact State.port_putPort_ne w _ hm
  · rfl

theorem State.readinessCount_busSelf (hw : w.bus k = some c) (hl : c.location = some n) :
    (w.readinessCount k).bus k = some (c.closeDeficit w.now w.site.live.guardTime) := by
  rw [State.readinessCount_eq hw hl]
  exact Table.get_put_self ..

theorem State.readinessCount_rest (hw : w.bus k = some c) (hl : c.location = some n) : w.readinessCount k = { w with
    ports := (w.readinessCount k).ports, buses := (w.readinessCount k).buses } := by
  rw [State.readinessCount_eq hw hl]

end Readiness

end Sys2Proof.Machine
end

section
/-! A filtered transition and the energy it counts (06 R110 to R117): O31. -/

namespace Sys2Proof.Machine

open Sys2Proof

/-! ### The port after an applied count -/

section AppliedPort

variable {s u : State} {n : PortNo} {d : Dir} {e : Nat} {wrong : Bool} {o : Option Nat}

/-- A record with other timers and setpoint, and then with other timers and another run. -/
theorem Port.runs_setpoint {p z r : Port} (hz : z = (p.timersOf z).setpointOf z)
    (hr : r = { z.timersOf r with wrongRun := r.wrongRun }) :
    r = { (p.timersOf r).setpointOf r with wrongRun := r.wrongRun } := by
  have hheld : z.held = r.held ∧ z.lastDir = r.lastDir ∧ z.zeroSince = r.zeroSince ∧ z.frameCount = r.frameCount
      ∧ z.frameTimer = r.frameTimer ∧ z.lastFrame = r.lastFrame := by
    rw [hr]
    exact ⟨rfl, rfl, rfl, rfl, rfl, rfl⟩
  obtain ⟨h1, h2, h3, h4, h5, h6⟩ := hheld
  rw [Port.setpointOf, h1, h2, h3, h4, h5, h6] at hz
  rw [hz] at hr
  exact hr

/-- A port after the bus's part of a count, with the stall timer and the run of wrong counts. -/
theorem State.applied_port (u : State) (n : PortNo) (d : Dir) (e : Nat) (wrong : Bool) (o : Option Nat) :
    let r := ((u.applyToSession o d e).runMoved n wrong).port n
    r = { ((u.port n).timersOf r).setpointOf r with wrongRun := r.wrongRun }
    ∧ r.wrongRun = if wrong then min ((u.port n).wrongRun + 1) 4 else 0 := by
  have hdrift := (u.applyToSession_drifts o d e).port n
  have hport := State.runMoved_port n wrong (u.applyToSession o d e)
  have hrun := Port.runMoved_eq (u.applyToSession o d e).env wrong ((u.applyToSession o d e).port n)
  rw [← hport] at hrun
  generalize ((u.applyToSession o d e).runMoved n wrong).port n = r at hrun ⊢
  generalize (u.applyToSession o d e).port n = q at hdrift hrun
  have hwrong : r.wrongRun = if wrong then min (q.wrongRun + 1) 4 else 0 := by rw [hrun]
  have hq : q.wrongRun = (u.port n).wrongRun := by rw [hdrift]; rfl
  rw [← hwrong] at hrun
  exact ⟨Port.runs_setpoint hdrift hrun, by rw [← hq]; exact hwrong⟩

/-- A setpoint that has become 0 has, after the restart of timers. -/
theorem Port.PowerOff.runs {now : Nat} {p q r : Port} (h : p.PowerOff now q)
    (hr : r = { q.timersOf r with wrongRun := r.wrongRun }) : p.PowerOff now r := by
  have hlive : r.live = q.live := by rw [hr]; rfl
  exact ⟨by rw [hr]; exact h.held, hlive.trans h.live, by rw [hr]; exact h.zeroSince, by rw [hr]; exact h.lastDir,
    by rw [hr]; exact h.frame⟩

end AppliedPort

/-! ### The stages on a bound bus -/

/-- R114 items 2 to 4: v is s after an applied count on the bus in slot k, at port n whose record q has its moved line,
has been booked. -/
structure State.BooksCount (n : PortNo) (k : Nat) (b : Bus) (d : Dir) (e : Nat) (q : Port) (s v : State) : Prop where
  rest     : v = { s with ports := v.ports, buses := v.buses, plans := v.plans }
  others   : ∀ m, m ≠ n → v.port m = s.port m
  quiet    : (v.port n).quiet = q.quietAfter
  port     : v.port n = ((q.booked d s.now).timersOf (v.port n)).setpointOf (v.port n)
  falls    : b.Exhausts d e → q.held.dir = .exp → (q.booked d s.now).PowerOff s.now (v.port n)
  stands   : ¬ (b.Exhausts d e ∧ q.held.dir = .exp) → v.port n = (q.booked d s.now).timersOf (v.port n)
  dir      : b.Exhausts d e → (v.port n).held.dir ≠ .exp
  bus      : v.bus k = some (b.counted d e)
  buses    : ∀ m, m ≠ k → v.bus m = s.bus m
  unbooked : ∀ j, s.runningPlan b ≠ some j → v.plan j = s.plan j
  plan     : ∀ j pl, s.runningPlan b = some j → s.plan j = some pl → v.plan j = some { pl with
    imported := if d = .imp then min (pl.imported + e) 4294967295 else pl.imported
    exported := if d = .exp then min (pl.exported + e) 4294967295 else pl.exported }

/-- R116: w is v after the test of the RUNNING plan's step. -/
structure State.TestsCount (k : Nat) (b : Bus) (d : Dir) (e : Nat) (s v w : State) (wb : Bus) : Prop where
  ends   : ∀ j, s.runningPlan b = some j → s.CountEnds b (b.soeAfter d e) j → w = runTasks k 256 (.finish j) v
  stays  : (∀ j, s.runningPlan b = some j → ¬ s.CountEnds b (b.soeAfter d e) j) → w = v
  keeps  : v.ChainKeeps k w
  chain  : v.ChainOf k (b.counted d e) w
  bus    : w.bus k = some wb
  record : wb = { b.counted d e with prioList := wb.prioList, stdList := wb.stdList, flags := wb.flags }

/-- R130, R117: x is w after the readiness and the run of wrong counts. -/
structure State.ReadiesCount (n : PortNo) (k : Nat) (b : Bus) (d : Dir) (e : Nat) (s w x : State) (wb xb : Bus) : Prop where
  rest   : x = { w with ports := x.ports, buses := x.buses }
  others : ∀ m, m ≠ n → x.port m = w.port m
  bus    : x.bus k = some xb
  buses  : ∀ m, m ≠ k → x.bus m = w.bus m
  closes : (b.counted d e).Closes → ∀ dep, b.departure = some dep → xb = { wb with
    readiness := .ready
    slack := some (clampSlack ((dep.tDep : Int) - (s.now : Int) - (s.site.live.guardTime : Int)))
    flags := wb.flags ||| BusFlag.readiness }
  stands : ¬ (b.counted d e).Closes → xb = wb
  record : xb.soe = wb.soe ∧ xb.source = wb.source ∧ xb.exportUsed = wb.exportUsed
    ∧ ∀ i, wb.flags.getLsbD i = true → xb.flags.getLsbD i = true
  floor  : ((w.port n).held.dir = .exp ∧ ∃ y, b.soeAfter d e = some y ∧ y ≤ b.dischargeFloor) →
    (w.port n).PowerOff s.now (x.port n) ∧ x.port n =
      { ((w.port n).timersOf (x.port n)).setpointOf (x.port n) with wrongRun := (x.port n).wrongRun }
  above  : ¬ ((w.port n).held.dir = .exp ∧ ∃ y, b.soeAfter d e = some y ∧ y ≤ b.dischargeFloor) →
    x.port n = { (w.port n).timersOf (x.port n) with wrongRun := (x.port n).wrongRun }
  quiet  : (x.port n).quiet = (w.port n).quiet
  dir    : (w.port n).held.dir ≠ .exp → (x.port n).held.dir ≠ .exp

section Bound

variable {s : State} {n : PortNo} {k e : Nat} {b : Bus} {d : Dir} {q : Port} (wrong : Bool)

/-- The state that the bus's part of an applied count starts from. -/
def State.countedAt (n : PortNo) (d : Dir) (q : Port) (s : State) : State := s.putPort n (q.counted d s.now)

theorem State.countedAt_port : (s.countedAt n d q).port n = q.counted d s.now := State.port_putPort_self s n _

theorem State.countedAt_other {m : PortNo} (hm : m ≠ n) : (s.countedAt n d q).port m = s.port m :=
  State.port_putPort_ne s _ hm

/-- The port of the bus after the readiness: with the export fallen at the floor, or as it was. -/
theorem State.readinessCount_at {w : State} {wb : Bus} (hw : w.bus k = some wb) (hl : wb.location = some n) :
    let z := (w.readinessCount k).port n
    ((w.port n).held.dir = .exp ∧ wb.atFloor = true →
      (w.port n).PowerOff w.now z ∧ z = ((w.port n).timersOf z).setpointOf z)
    ∧ (¬ ((w.port n).held.dir = .exp ∧ wb.atFloor = true) → z = (w.port n).timersOf z)
    ∧ z.quiet = (w.port n).quiet ∧ ((w.port n).held.dir ≠ .exp → z.held.dir ≠ .exp) := by
  rw [State.readinessCount_port hw hl]
  by_cases hf : wb.atFloor = true
  · rw [if_pos hf]
    refine ⟨fun h => ⟨Port.settle_zeroExport_exp w.env h.1, Port.settle_zeroExport_setpoint w.env _⟩,
      fun h => Port.settle_zeroExport_still w.env fun hx => h ⟨hx, hf⟩, ?_, fun h => ?_⟩
    · rw [Port.settle_quiet, Port.zeroExport_held]
    · rw [Port.settle_zeroExport_held w.env h]
      exact h
  · rw [if_neg hf]
    exact ⟨fun h => absurd h.2 hf, fun _ => rfl, rfl, fun h => h⟩

theorem State.readied_port {w : State} {wb : Bus} (hw : w.bus k = some wb) (hl : wb.location = some n) (wrong : Bool) :
    let r := ((w.readinessCount k).runMoved n wrong).port n
    ((w.port n).held.dir = .exp ∧ wb.atFloor = true → (w.port n).PowerOff w.now r ∧ r =
      { ((w.port n).timersOf r).setpointOf r with wrongRun := r.wrongRun })
    ∧ (¬ ((w.port n).held.dir = .exp ∧ wb.atFloor = true) → r = { (w.port n).timersOf r with wrongRun := r.wrongRun })
    ∧ r.quiet = (w.port n).quiet ∧ ((w.port n).held.dir ≠ .exp → r.held.dir ≠ .exp) := by
  have hport := State.runMoved_port n wrong (w.readinessCount k)
  have hrun := Port.runMoved_eq (w.readinessCount k).env wrong ((w.readinessCount k).port n)
  have hquiet : (((w.readinessCount k).port n).restartStall (w.readinessCount k).env |>.moveRun wrong).quiet
      = ((w.readinessCount k).port n).quiet := by
    rw [Port.moveRun, Port.restartStall_eq]
  have hat := State.readinessCount_at hw hl
  rw [← hport] at hrun hquiet
  generalize ((w.readinessCount k).runMoved n wrong).port n = r at hrun hquiet ⊢
  generalize (w.readinessCount k).port n = z at hrun hquiet hat
  obtain ⟨hoff, hstill, hzquiet, hdir⟩ := hat
  have hwrong : r.wrongRun = if wrong then min (z.wrongRun + 1) 4 else 0 := by rw [hrun]
  rw [← hwrong] at hrun
  have hheld : r.held = z.held := by rw [hrun]; rfl
  refine ⟨fun h => ⟨(hoff h).1.runs hrun, Port.runs_setpoint (hoff h).2 hrun⟩, fun h => ?_, hquiet.trans hzquiet,
    fun h => by rw [hheld]; exact hdir h⟩
  have hz := hstill h
  rw [hz] at hrun
  exact hrun

/-- R114 items 2 to 4: the port of the bus after the booking of a count. -/
theorem State.countBooked_at {u : State} (hb : u.bus k = some b) (hl : b.location = some n) (hd : d = .imp ∨ d = .exp) :
    let z := (u.countBooked k d e).port n
    (b.Exhausts d e → (u.port n).held.dir = .exp → (u.port n).PowerOff u.now z)
    ∧ (¬ (b.Exhausts d e ∧ (u.port n).held.dir = .exp) → z = (u.port n).timersOf z)
    ∧ z.quiet = (u.port n).quiet ∧ (b.Exhausts d e → z.held.dir ≠ .exp) := by
  rw [State.countBooked_port hb hl hd]
  by_cases hx : b.Exhausts d e
  · rw [if_pos hx]
    refine ⟨fun _ h => Port.settle_zeroExport_exp u.env h,
      fun h => Port.settle_zeroExport_still u.env fun hh => h ⟨hx, hh⟩, ?_, fun _ => ?_⟩
    · rw [Port.settle_quiet, Port.zeroExport_held]
    · by_cases hh : (u.port n).held.dir = .exp
      · rw [(Port.settle_zeroExport_exp u.env hh).held]
        exact Dir.noConfusion
      · rw [Port.settle_zeroExport_held u.env hh]
        exact hh
  · rw [if_neg hx]
    exact ⟨fun h => absurd h hx, fun _ => rfl, rfl, fun h => absurd h hx⟩

theorem Port.PowerOff.uncounted {now : Nat} {r : Port} (h : (q.counted d now).PowerOff now r) :
    (q.booked d now).PowerOff now r := ⟨h.held, h.live, h.zeroSince, h.lastDir, h.frame⟩

theorem State.countBooked_books (hb : s.bus k = some b) (hl : b.location = some n) (hd : d = .imp ∨ d = .exp) :
    State.BooksCount n k b d e q s ((s.countedAt n d q).countBooked k d e) := by
  have hub : (s.countedAt n d q).bus k = some b := hb
  have hport : (s.countedAt n d q).port n = q.counted d s.now := State.countedAt_port
  have hplan (j : Nat) : ((s.countedAt n d q).countBooked k d e).plan j =
      if s.runningPlan b = some j then (s.plan j).map (Plan.book d e) else s.plan j := State.countBooked_plan hub hl hd j
  have hdrift := (State.countBooked_drifts (s.countedAt n d q) k d e).port n
  obtain ⟨hfalls, hstands, hquiet, hdir⟩ := State.countBooked_at (e := e) hub hl hd
  rw [hport] at hdrift hfalls hstands hquiet
  refine ⟨State.countBooked_rest hub hl hd,
    fun m hm => (State.countBooked_other hub hl hd hm).trans (State.countedAt_other hm), hquiet, hdrift,
    fun hx hh => (hfalls hx hh).uncounted, hstands, hdir, State.countBooked_busSelf hub hl hd,
    fun m hm => State.countBooked_bus (s.countedAt n d q) k d e hm, fun j hj => (hplan j).trans (if_neg hj), fun j pl hj hp => ?_⟩
  rw [hplan, if_pos hj, hp, Option.map_some, Plan.book_eq hd]

theorem State.testStep_tests (hb : s.bus k = some b) (hl : b.location = some n) (hd : d = .imp ∨ d = .exp)
    (hlists : s.ListsAgree) : ∃ wb, State.TestsCount k b d e s ((s.countedAt n d q).countBooked k d e)
      (((s.countedAt n d q).countBooked k d e).testStep StepKind.movesEnergy k) wb := by
  have hub : (s.countedAt n d q).bus k = some b := hb
  have hvlists := (State.countBooked_keeps (s.countedAt n d q) k d e).lists
    (hlists.same (fun _ c hc => ⟨c, hc, rfl, rfl⟩) rfl)
  have hchain := State.testStep_chained StepKind.movesEnergy _ _ (State.countBooked_busSelf (e := e) hub hl hd)
  obtain ⟨wb, hwb, hrecord⟩ := hchain.bus
  exact ⟨wb, fun j hj he => State.countBooked_ends hub hl hd hj he, fun hn => State.countBooked_stays hub hl hd hn,
    State.testStep_chainKeeps _ hvlists, hchain, hwb, hrecord⟩

theorem State.readied_readies {w : State} {wb : Bus} (hw : w.bus k = some wb) (hl : b.location = some n)
    (hr : wb = { b.counted d e with prioList := wb.prioList, stdList := wb.stdList, flags := wb.flags })
    (hnow : w.now = s.now) (hsite : w.site = s.site) (wrong : Bool) :
    ∃ xb, State.ReadiesCount n k b d e s w ((w.readinessCount k).runMoved n wrong) wb xb := by
  have hloc : wb.location = some n := by rw [hr]; exact hl
  have hcloses : wb.Closes ↔ (b.counted d e).Closes := by rw [hr]; rfl
  have hfloor : wb.atFloor = true ↔ ∃ y, b.soeAfter d e = some y ∧ y ≤ b.dischargeFloor := by
    rw [Bus.atFloor_iff, hr]
    rfl
  have hdeparture : wb.departure = b.departure := by rw [hr]; rfl
  obtain ⟨-, -, hkeep⟩ := wb.closeDeficit_keeps w.now w.site.live.guardTime
  obtain ⟨hoff, hstill, hquiet, hdir⟩ := State.readied_port hw hloc wrong
  refine ⟨wb.closeDeficit w.now w.site.live.guardTime, ?rest, fun m hm => ?others, State.readinessCount_busSelf hw hloc,
    fun m hm => State.readinessCount_bus w k hm, fun hc dep hd => ?closes, fun hc => ?stands, hkeep, fun h => ?floor,
    fun h => ?above, hquiet, hdir⟩
  case rest =>
    rw [State.runMoved_eq, State.readinessCount_rest hw hloc]
  case others => exact (State.runMoved_other n wrong _ hm).trans (State.readinessCount_other hw hloc hm)
  case closes =>
    rw [Bus.closeDeficit_closes (hcloses.2 hc) (hdeparture.trans hd), hnow, hsite]
  case stands => exact Bus.closeDeficit_stays fun h => hc (hcloses.1 h)
  case floor =>
    rw [← hnow]
    exact hoff ⟨h.1, hfloor.2 h.2⟩
  case above => exact hstill fun hx => h ⟨hx.1, hfloor.1 hx.2⟩

end Bound

end Sys2Proof.Machine
end

section
/-! Every filtered transition is a count of energy (06 R110 to R117): O31. -/

namespace Sys2Proof.Machine

open Sys2Proof

/-! ### An applied count as a whole -/

section Applied

variable {s x : State} {n : PortNo} {l : MeterLine} {d : Dir} {e r : Nat} {wrong : Bool} {o : Option Nat} {q : Port}

/-- R117: the check of the run faults the port at the fourth wrong-direction count in a row, and keeps the count. -/
theorem State.checkRun_spec (hrun : (x.port n).wrongRun = if wrong then min (r + 1) 4 else 0)
    (hs : (x.port n).session ≠ none) (hin : (x.port n).state.inSession = true) :
    (¬ (wrong = true ∧ 3 ≤ r) → x.checkRun n wrong = x)
    ∧ (wrong = true → 3 ≤ r → x.PortFaults n .meterDirection (x.checkRun n wrong))
    ∧ x.KeepsCount n (x.checkRun n wrong) := by
  have hfourth : (wrong = true ∧ (x.port n).wrongRun = 4) ↔ (wrong = true ∧ 3 ≤ r) := by
    rw [hrun]
    refine and_congr_right fun hw => ?_
    rw [if_pos hw]
    omega
  obtain ⟨ho, hf⟩ := PortState.takes_fault hin
  have hfault := State.portFault_faults (code := .meterDirection) ho hf
  refine ⟨fun h => State.checkRun_stays fun hx => h (hfourth.1 hx), fun hw hr => ?_, ?_⟩
  · rw [State.checkRun_faults (hfourth.2 ⟨hw, hr⟩)]
    exact hfault
  · by_cases h : wrong = true ∧ (x.port n).wrongRun = 4
    · rw [State.checkRun_faults h]
      exact hfault.keepsCount rfl hs ho hf
    · rw [State.checkRun_stays h]
      exact .refl n x

/-- The state of an applied count before the check of the run. -/
def State.applied (n : PortNo) (d : Dir) (e : Nat) (wrong : Bool) (o : Option Nat) (q : Port) (s : State) : State :=
  ((s.countedAt n d q).applyToSession o d e).runMoved n wrong

/-- The record of the port before the check of the run. -/
theorem State.applied_record : (s.applied n d e wrong o q).port n =
      { ((q.booked d s.now).timersOf ((s.applied n d e wrong o q).port n)).setpointOf ((s.applied n d e wrong o q).port n) with
        wrongRun := ((s.applied n d e wrong o q).port n).wrongRun }
    ∧ ((s.applied n d e wrong o q).port n).wrongRun = if wrong then min (q.wrongRun + 1) 4 else 0 := by
  have h := State.applied_port (s.countedAt n d q) n d e wrong o
  rw [State.countedAt_port] at h
  exact h

/-- The fields of the port before the check of the run. -/
theorem State.applied_fields : ((s.applied n d e wrong o q).port n).ma = q.ma
    ∧ ((s.applied n d e wrong o q).port n).mb = q.mb
    ∧ ((s.applied n d e wrong o q).port n).sessionImport = (q.booked d s.now).sessionImport
    ∧ ((s.applied n d e wrong o q).port n).sessionExport = (q.booked d s.now).sessionExport
    ∧ ((s.applied n d e wrong o q).port n).lastApplied = some ⟨d, s.now⟩
    ∧ ((s.applied n d e wrong o q).port n).stray = q.stray ∧ ((s.applied n d e wrong o q).port n).state = q.state
    ∧ ((s.applied n d e wrong o q).port n).session = q.session := by
  obtain ⟨h, -⟩ := State.applied_record (s := s) (n := n) (d := d) (e := e) (wrong := wrong) (o := o) (q := q)
  generalize (s.applied n d e wrong o q).port n = z at *
  rw [h]
  exact ⟨rfl, rfl, rfl, rfl, rfl, rfl, rfl, rfl⟩

theorem State.applied_bus (hlists : s.ListsAgree) {k : Nat} (hk : o ≠ some k) :
    (s.applied n d e wrong o q).bus k = s.bus k :=
  State.applyToSession_bus (s := s.countedAt n d q) (hlists.same (fun _ c hc => ⟨c, hc, rfl, rfl⟩) rfl) hk

/-- An applied count in an unidentified session changes its port alone. -/
theorem State.applied_unbound : s.applied n d e wrong none q = { s with
      ports := s.ports.set n ((s.applied n d e wrong none q).port n) }
    ∧ ((s.applied n d e wrong none q).port n).quiet = q.quietAfter := by
  have heq : s.applied n d e wrong none q = s.putPort n (((q.counted d s.now).restartStall
      (s.countedAt n d q).env).moveRun wrong) := by
    have hport : (s.countedAt n d q).port n = q.counted d s.now := State.countedAt_port
    have hrun : s.applied n d e wrong none q = (s.countedAt n d q).putPort n ((((s.countedAt n d q).port n).restartStall
      (s.countedAt n d q).env).moveRun wrong) := rfl
    rw [hrun, hport]
    exact State.putPort_putPort ..
  have hself : (s.applied n d e wrong none q).port n = ((q.counted d s.now).restartStall (s.countedAt n d q).env).moveRun wrong := by
    rw [heq]
    exact State.port_putPort_self ..
  rw [hself]
  refine ⟨heq, ?_⟩
  rw [Port.moveRun, Port.restartStall_eq]
  rfl

theorem exec_applied (h : (s.port n).session ≠ none) (hf : (s.port n).feedback = .closed) :
    exec (.filteredTransition n (.one l)) s = .next ((s.applied n ((s.port n).movedDir l) (s.port n).energyPerCount
      ((s.port n).isWrong ((s.port n).movedDir l)) (s.port n).boundSlot ((s.port n).moved l)).checkRun n
        ((s.port n).isWrong ((s.port n).movedDir l))) := exec_count_applied h hf

end Applied

end Sys2Proof.Machine
end

section
/-! The obligation of the meters' counts (06 R110 to R117): O31. -/

namespace Sys2Proof.Machine

open Sys2Proof

/-! ### An applied count on a bound bus -/

section Stages

variable {s t : State} {n : PortNo} {d : Dir} {k e : Nat} {q : Port} {b : Bus}

/-- The count is booked, the step is tested, the readiness and the run move. -/
theorem State.applied_stages (hb : s.bus k = some b) (hl : b.location = some n) (hd : d = .imp ∨ d = .exp)
    (hlists : s.ListsAgree) (wrong : Bool) : ∃ v w wb xb, State.BooksCount n k b d e q s v
      ∧ State.TestsCount k b d e s v w wb ∧ State.ReadiesCount n k b d e s w (s.applied n d e wrong (some k) q) wb xb := by
  have hbooks := State.countBooked_books (e := e) (q := q) hb hl hd
  obtain ⟨wb, htests⟩ := State.testStep_tests (e := e) (q := q) hb hl hd hlists
  have hvnow := congrArg State.now hbooks.rest
  have hvsite := congrArg State.site hbooks.rest
  have hwsite := congrArg State.site htests.chain.rest
  obtain ⟨xb, hreadies⟩ := State.readied_readies (s := s) htests.bus hl htests.record (htests.chain.now.trans hvnow)
    (hwsite.trans hvsite) wrong
  exact ⟨_, _, wb, xb, hbooks, htests, hreadies⟩

theorem Bus.counted_clamps {y : Nat} (hy : b.soe = some y) (hc : b.capacity < y + e) (hd : d = .imp) :
    (b.counted d e).flags.getLsbD 6 = true := by
  have hcond : d = .imp ∧ b.soe ≠ none ∧ b.capacity < b.soe.getD 0 + e :=
    ⟨hd, by rw [hy]; exact Option.some_ne_none y, by rw [hy]; exact hc⟩
  have hbit : BusFlag.soeClamped.getLsbD 6 = true := by decide
  rw [Bus.counted, if_pos hcond, BitVec.getLsbD_or, BitVec.getLsbD_or, hbit, Bool.or_true, Bool.true_or]

theorem Bus.counted_usesUp (h : b.Exhausts d e) : (b.counted d e).flags.getLsbD 9 = true := by
  have hbit : BusFlag.allowanceUsed.getLsbD 9 = true := by decide
  rw [Bus.counted, if_pos h, BitVec.getLsbD_or, hbit, Bool.or_true]

/-- What becomes of the bus, of the setpoint and of the plan, whether the run faults the port or not. -/
theorem State.KeepsCount.summary {v w x : State} {wb xb : Bus} (hkeeps : x.KeepsCount n t)
    (hslot : (x.port n).boundSlot = some k) (hbooks : State.BooksCount n k b d e q s v)
    (htests : State.TestsCount k b d e s v w wb) (hreadies : State.ReadiesCount n k b d e s w x wb xb) :
    ∃ c, t.bus k = some c ∧ c.soe = b.soeAfter d e
      ∧ c.source = (if b.soe = none then b.source else .integrated)
      ∧ c.exportUsed = (if d = .exp then min (b.exportUsed + e) 4294967295 else b.exportUsed)
      ∧ ((∃ y, b.soe = some y ∧ b.capacity < y + e) → d = .imp → c.flags.getLsbD 6 = true)
      ∧ (d = .exp → b.exportUsed < b.allowance → b.allowance ≤ min (b.exportUsed + e) 4294967295 →
        c.flags.getLsbD 9 = true ∧ (t.port n).held.dir ≠ .exp)
      ∧ ∀ j pl, s.runningPlan b = some j → s.plan j = some pl → ∃ q, t.plan j = some q
        ∧ q.imported = (if d = .imp then min (pl.imported + e) 4294967295 else pl.imported)
        ∧ q.exported = (if d = .exp then min (pl.exported + e) 4294967295 else pl.exported) := by
  obtain ⟨c, hc, hsoe, hsource, hused, hflags⟩ := hkeeps.bus k xb hslot hreadies.bus
  obtain ⟨hxsoe, hxsource, hxused, hxflags⟩ := hreadies.record
  have hwsoe : wb.soe = (b.counted d e).soe := by rw [htests.record]
  have hwsource : wb.source = (b.counted d e).source := by rw [htests.record]
  have hwused : wb.exportUsed = (b.counted d e).exportUsed := by rw [htests.record]
  have hrise (i : Nat) (hi : (b.counted d e).flags.getLsbD i = true) : c.flags.getLsbD i = true := by
    obtain ⟨wb', hwb', hbits⟩ := htests.keeps.flags _ hbooks.bus
    obtain rfl : wb = wb' := Option.some.inj (htests.bus.symm.trans hwb')
    exact hflags i (hxflags i (hbits i hi))
  refine ⟨c, hc, hsoe.trans (hxsoe.trans hwsoe), hsource.trans (hxsource.trans hwsource),
    hused.trans (hxused.trans hwused), fun ⟨y, hy, hcap⟩ hd => hrise 6 (Bus.counted_clamps hy hcap hd),
    fun hd hlt hle => ⟨hrise 9 (Bus.counted_usesUp ⟨hd, hlt, hle⟩), ?dir⟩, fun j pl hj hp => ?plan⟩
  case dir => exact hkeeps.dir (hreadies.dir (htests.keeps.port n (hbooks.dir ⟨hd, hlt, hle⟩)))
  case plan =>
    obtain ⟨r, hr, -, himp, hexp⟩ := htests.keeps.plan j _ (hbooks.plan j pl hj hp)
    have hx : x.plan j = some r := by rw [hreadies.rest]; exact hr
    obtain ⟨p', hp', himp', hexp'⟩ := hkeeps.plan j r hx
    exact ⟨p', hp', himp'.trans himp, hexp'.trans hexp⟩

end Stages

/-! ### The obligation -/

section Obligation

/-- What a moving line leaves. -/
theorem Port.moved_rest (l : MeterLine) (p : Port) : (p.moved l).stray = p.stray ∧ (p.moved l).state = p.state
    ∧ (p.moved l).session = p.session ∧ (p.moved l).wrongRun = p.wrongRun ∧ (p.moved l).held = p.held
    ∧ (p.moved l).quietAfter = p.quietAfter := by
  rw [Port.moved_eq]
  exact ⟨rfl, rfl, rfl, rfl, rfl, rfl⟩

/-- Settles O31: without a session a count is idle, with the contactor open it is stray, and otherwise it is applied, stage by
stage: booked, tested, the readiness and the run moved, and the run checked. -/
theorem transitionsCountEnergy : Obligations.TransitionsCountEnergy := by
  unfold Obligations.TransitionsCountEnergy
  intro n l s p i ma mb d moved quiet e
  have hmoved : moved = p.moved l := by cases l <;> rfl
  have hma : ma = (p.moved l).ma.output := by cases l <;> rfl
  have hmb : mb = (p.moved l).mb.output := by cases l <;> rfl
  have hd : d = p.movedDir l := by cases l <;> rfl
  have hquiet : quiet = p.quietAfter := rfl
  clear_value ma mb d moved quiet
  subst hmoved hma hmb hquiet
  refine ⟨fun h => exec_count_idle h, fun h hf => exec_count_stray h hf, ?applied⟩
  intro sess hsess hf hin hlists wrong
  have hdir : d = .imp ∨ d = .exp := hd ▸ p.movedDir_cases l
  have hs : p.session ≠ none := by rw [hsess]; exact Option.some_ne_none sess
  have hwrong : p.isWrong d = true ↔ wrong := p.isWrong_iff d
  have hexec : exec i s = .next ((s.applied n d e (p.isWrong d) p.boundSlot (p.moved l)).checkRun n (p.isWrong d)) := by
    rw [hd]
    exact exec_applied hs hf
  clear_value wrong
  obtain ⟨hstray, hstate, hsession, hrun, hheld, hquiet⟩ := p.moved_rest l
  have hbooked : (p.moved l).booked d s.now = { p.moved l with
      lastApplied := some ⟨d, s.now⟩
      sessionImport := if d = .imp then min (p.sessionImport + e) 4294967295 else p.sessionImport
      sessionExport := if d = .exp then min (p.sessionExport + e) 4294967295 else p.sessionExport } := by
    cases l <;> rfl
  obtain ⟨hxma, hxmb, hximp, hxexp, hxlast, hxstray, hxstate, hxsession⟩ :=
    State.applied_fields (s := s) (n := n) (d := d) (e := e) (wrong := p.isWrong d) (o := p.boundSlot) (q := p.moved l)
  obtain ⟨-, hxrun⟩ :=
    State.applied_record (s := s) (n := n) (d := d) (e := e) (wrong := p.isWrong d) (o := p.boundSlot) (q := p.moved l)
  have hbus {k : Nat} (hk : p.boundSlot ≠ some k) := State.applied_bus (n := n) (d := d) (e := e) (wrong := p.isWrong d)
    (q := p.moved l) hlists hk
  have hunbound : p.boundSlot = none → let x := s.applied n d e (p.isWrong d) p.boundSlot (p.moved l)
      x = { s with ports := s.ports.set n (x.port n) } ∧ (x.port n).quiet = (p.moved l).quietAfter := by
    intro h
    rw [h]
    exact State.applied_unbound
  have hstages {k : Nat} {b : Bus} (hk : p.boundSlot = some k) (hb : s.bus k = some b) (hl : b.location = some n) :
      ∃ v w wb xb, State.BooksCount n k b d e (p.moved l) s v ∧ State.TestsCount k b d e s v w wb
        ∧ State.ReadiesCount n k b d e s w (s.applied n d e (p.isWrong d) p.boundSlot (p.moved l)) wb xb := by
    rw [hk]
    exact State.applied_stages hb hl hdir hlists _
  generalize s.applied n d e (p.isWrong d) p.boundSlot (p.moved l) = x at *
  rw [hrun] at hxrun
  rw [hbooked] at hximp hxexp
  have hxslot : (x.port n).boundSlot = p.boundSlot := by rw [Port.boundSlot, hxsession, hsession]; rfl
  obtain ⟨hstay, hfault, hkeeps⟩ := State.checkRun_spec hxrun (by rw [hxsession, hsession]; exact hs)
    (by rw [hxstate, hstate]; exact hin)
  rw [hwrong] at hstay hfault
  generalize x.checkRun n (p.isWrong d) = t at *
  obtain ⟨hcimp, hcexp, hclast, hcstray, hcrun⟩ := hkeeps.count
  have hxright (h : ¬ wrong) : (x.port n).wrongRun = 0 := by rw [hxrun, if_neg (mt hwrong.1 h)]
  have hxwrong (h : wrong) : (x.port n).wrongRun = min (p.wrongRun + 1) 4 := by rw [hxrun, if_pos (hwrong.2 h)]
  have hsame (h : ¬ (wrong ∧ 3 ≤ p.wrongRun)) : (t.port n).state = p.state := by rw [hstay h, hxstate, hstate]
  have hother (k : Nat) (hk : p.boundSlot ≠ some k) : t.bus k = s.bus k :=
    (hkeeps.buses k (by rw [hxslot]; exact hk)).trans (hbus hk)
  refine ⟨t, hexec, by rw [hkeeps.lines.1, hxma], by rw [hkeeps.lines.2, hxmb], hcimp.trans hximp, hcexp.trans hxexp,
    hclast.trans hxlast, by rw [hcstray, hxstray, hstray], fun h => ⟨hcrun.trans (hxright h), hsame fun hw => h hw.1⟩,
    fun h => hcrun.trans (hxwrong h), fun _ h => hsame fun hw => absurd hw.2 (Nat.not_le.2 h), fun h hr => ?faults,
    fun h k => hother k (by rw [h]; exact (Option.some_ne_none k).symm), fun h => ?unbound, hother, fun k b hk hb hl => ?summary,
    fun k b hk hb hl => ?stages⟩
  case faults =>
    have hspec := hfault h hr
    exact ⟨hspec.state.1, hspec.state.2.1, (hspec.ends (by rw [hxsession, hsession]; exact hs)).session.1⟩
  case unbound =>
    obtain ⟨hrest, hxquiet⟩ := hunbound h
    exact ⟨x, hrest, hxquiet.trans hquiet, hstay, hfault⟩
  case summary =>
    obtain ⟨v, w, wb, xb, hbooks, htests, hreadies⟩ := hstages hk hb hl
    exact hkeeps.summary (hxslot.trans hk) hbooks htests hreadies
  case stages =>
    obtain ⟨v, w, wb, xb, hbooks, htests, hreadies⟩ := hstages hk hb hl
    have hvquiet : (v.port n).quiet = p.quietAfter := hbooks.quiet.trans hquiet
    have hport := hbooks.port
    have hfalls := hbooks.falls
    have hstands := hbooks.stands
    rw [hbooked] at hport hfalls hstands
    rw [hheld] at hfalls hstands
    exact ⟨v, w, x, b.counted d e, wb, xb, hbooks.rest, hbooks.others, hvquiet, hport, hfalls, hstands, hbooks.bus,
      hbooks.buses, rfl, hbooks.unbooked, hbooks.plan, htests.ends, htests.stays, htests.bus, htests.record,
      hreadies.rest, hreadies.others, hreadies.bus, hreadies.buses, hreadies.closes, hreadies.stands,
      ⟨hreadies.floor, hreadies.above⟩, hxwrong, hxright,
      hreadies.quiet.trans ((htests.chain.quiet n).trans hvquiet), hstay, hfault⟩

end Obligation

end Sys2Proof.Machine
end
